-- ==== Sys2Proof/Word.lean ====
section
/-! DEFINITION. The word types of the Nymroth NX-4 and the two container shapes of the state. -/

namespace Sys2Proof

/-- Byte of memory (R3). -/
abbrev Byte := BitVec 8
/-- Parcel of instruction memory, and a parcel address (R43, R54). -/
abbrev Parcel := BitVec 16
/-- One 32-bit lane. -/
abbrev W32 := BitVec 32
/-- One scalar, address register or CSR. -/
abbrev W64 := BitVec 64
/-- An instruction word (R43). -/
abbrev W96 := BitVec 96
/-- One row of a bank or of a vector register, 256 B (R3, R113, R126). -/
abbrev Row := BitVec 2048
/-- One mask register: bit 64 i + j governs lane j of row i (R126). -/
abbrev MaskReg := BitVec 1024
/-- One of the four compute dies (R8). -/
abbrev DieId := Fin 4
/-- A ring position (R112). -/
abbrev Pos := Fin 128

/-- Four like things: the four dies, or the four streams of a station in the order C, L, S, X. -/
structure Four (α : Type) where
  x0 : α
  x1 : α
  x2 : α
  x3 : α
  deriving DecidableEq, Repr

/-- Sparse data by number: pairs with rising keys; a key that is not listed reads as a default that the reader names. -/
abbrev KMap (α : Type) := List (Nat × α)

end Sys2Proof
end

