-- ==== Sys2Proof/Config.lean ====
section
/-! DEFINITION. What one implementation fixes, and the free values the spec leaves open. -/

namespace Sys2Proof.Config

/-- The n-th free number: nothing constrains it (DESIGN CHOICE, log 9). Applied to the state's counter. -/
opaque freeNat : Nat → Nat

/-- The n-th free 64-bit value (DESIGN CHOICE, log 9). -/
opaque freeWord : Nat → W64

/-- The 64-bit word at address `a` of a part of the frozen state whose layout the spec leaves open: a fixed function of what the part
holds (R295; DESIGN CHOICE, log 15). -/
opaque openWord {α : Type} (part : α) (a : Nat) : W64

/-- What a part of the frozen state whose layout the spec leaves open holds once its word at address `a` is written
(R296; DESIGN CHOICE, log 15). -/
opaque openPut {α : Type} [Inhabited α] (part : α) (a : Nat) (v : W64) : α

/-- Whether a BUFSET stands against another change of its buffer in one cycle, by the buffer's state at the start of the cycle and the
state that the BUFSET gives; a BUFDECL asks for 0 and 0 (R119; DESIGN CHOICE, log 17). -/
opaque bufRace : BitVec 2 → BitVec 2 → Bool

/-- The phase of the cycles in which the base camp takes packets, one in 16 (R270; DESIGN CHOICE, log 23). -/
opaque takePhase : Nat

/-- Fused minimum firmware security version (R316). -/
opaque fusedMin : Nat

/-- Vendor key digest fused in the security root (R316). -/
opaque vendorDigest : BitVec 256

/-- SHA-256 of a byte string, which the spec names and does not define (R316, R317; DESIGN CHOICE, log 21). -/
opaque sha256 : List Byte → BitVec 256

/-- Whether an RSASSA-PSS signature verifies under a key (R316; DESIGN CHOICE, log 21). -/
opaque rsaVerify : List Byte → List Byte → List Byte → Bool

/-- The parts of a staged firmware image: body, signature, key, security version, version; `none` for a malformed one
(R316; DESIGN CHOICE, log 21). -/
opaque parseFirmware : List Byte → Option (List Byte × List Byte × List Byte × Nat × Nat)

/-- The answer of the firmware to an SPDM request, by the connection's progress (R317; DESIGN CHOICE, log 20). -/
opaque spdmAnswer : Nat → List Byte → List Byte

/-- SHA-256 of the boot ROM and of the fused configuration (R317; DESIGN CHOICE, log 20). -/
opaque romDigest : BitVec 256

opaque fuseDigest : BitVec 256

/-- The bytes of measurement 3: the firmware security version and the fused minimum (R317; DESIGN CHOICE, log 20). -/
opaque spdmVersions (security minimum : Nat) : List Byte

/-- What follows the measurement record in the answer `head` to a GET_MEASUREMENTS `req`, its signature where one is asked for (R317;
DESIGN CHOICE, log 20). -/
opaque spdmTail (head req : List Byte) : List Byte

/-- The place of a capability in the list, by its ID: those of lower rank come first (R310; DESIGN CHOICE, log 30). -/
opaque capRank : BitVec 16 → Nat

/-- The fused latency of a link, in the link order of R9 (R211). -/
def lattab : Nat → Nat
  | 0 => 20
  | 1 => 20
  | 2 => 26
  | 3 => 26
  | 4 => 20
  | _ => 20

end Sys2Proof.Config
end

