-- ==== Sys2Proof/Syntax.lean ====
section
/-! DEFINITION. The whole syntax: operand classes, field codes and one constructor of Instr per row of the opcode table
(the instruction words of R58 to R61 and the part's other steps). -/

namespace Sys2Proof

/-- The four streams of a station (R10). -/
inductive Strm where
  | c | l | s | x
  deriving DecidableEq, Repr

/-- Scalar operand (R48, R49): an s- or a-register of the issuing stream, or the mirror ts48 + n of a team scalar. -/
inductive Scal where
  | reg (n : BitVec 6)
  | ts (n : BitVec 4)
  deriving DecidableEq, Repr

/-- `b|imm` of a scalar form (R47). -/
inductive SOp where
  | r (x : Scal)
  | i (v : W32)
  deriving DecidableEq, Repr

/-- `b|imm` of a vector form (R47). -/
inductive VOp where
  | r (v : BitVec 5)
  | i (v : W32)
  deriving DecidableEq, Repr

/-- Operand of CSRR and CSRW: scalar, or in the X stream a vector register (R49). -/
inductive CsrReg where
  | s (x : Scal)
  | v (n : BitVec 5)
  deriving DecidableEq, Repr

/-- PBR target: a signed distance in words, or a scalar holding a parcel address (R234). -/
inductive PTarget where
  | off (o : BitVec 24)
  | ind (a : Scal)
  deriving DecidableEq, Repr

/-- A count of LOOP or ADMIT: CNT or scalar A (R57). -/
inductive Count where
  | cnt (n : BitVec 24)
  | reg (a : Scal)
  deriving DecidableEq, Repr

/-- An immediate of 48 bits, alone or beside scalar A (ALIGN, R57). -/
inductive Wide where
  | imm (v : BitVec 48)
  | reg (a : Scal) (v : BitVec 48)
  deriving DecidableEq, Repr

/-- The window operand of AWIN: IMM48 or scalar A (R187). -/
inductive WinOp where
  | imm (v : BitVec 48)
  | reg (a : Scal)
  deriving DecidableEq, Repr

/-- TYPE codes (R56). -/
inductive Ty where
  | f32 | i32 | n32 | bf16 | e4m3 | e5m2 | mx8 | mx6 | mx4 | e8m0 | i8 | n8 | i16 | n16
  deriving DecidableEq, Repr

/-- RND codes (R56). -/
inductive Rnd where
  | rne | rtz | rdn | rup | rsr
  deriving DecidableEq, Repr

/-- COND codes (R56). -/
inductive Cond where
  | eq | ne | lt | le | gt | ge | ltu | leu | gtu | geu | uo | ord
  deriving DecidableEq, Repr

/-- SET of FENCE (R57, R248). -/
inductive FSet where
  | ld | st | ldst
  deriving DecidableEq, Repr

/-- SCOPE of FENCE (R57, R248). -/
inductive FScope where
  | sta | die | team
  deriving DecidableEq, Repr

/-- OP of VREDR and VREDC (R57, R161). -/
inductive RedOp where
  | add | max | min | and | or | xor
  deriving DecidableEq, Repr

/-- WID of VPACK and VUNPK (R57, R158). -/
inductive Wid where
  | w16 | w8 | w6 | w4
  deriving DecidableEq, Repr

/-- OP of CAV and CAVD (R199). -/
inductive CavOp where
  | addF | maxF | minF | addI | maxI | minI | maxN | minN | and | or | xor | lse | argmax
  deriving DecidableEq, Repr

/-- OP of the far atomics (R57, R220). -/
inductive AmoOp where
  | addI | addF | maxI | minI | maxN | minN | maxF | minF | and | or | xor | xchg | cas
  deriving DecidableEq, Repr

/-- FIMG of AMODE (R57, R188). -/
inductive Fimg where
  | mx8 | mx6 | mx4
  deriving DecidableEq, Repr

/-- GNAN of AMODE (R57, R180). -/
inductive Gnan where
  | gprop | gzero | gtrap
  deriving DecidableEq, Repr

/-- IMG of SEAT (R57, R191). -/
inductive Img where
  | fimg | bimg | both
  deriving DecidableEq, Repr

/-- KIND of ADMIT (R57, R189). -/
inductive FKind where
  | fwd | bwd
  deriving DecidableEq, Repr

/-- The causes a die raises (R302); `trapN n` is 0xF0 + n. -/
inductive Cause where
  | illegalOpc | illegalGuard | wrongStream | reservedBits | reservedReg | reservedMod
  | badHeader | sectionOrder | branchEarly | loopDepth | callDepth
  | writeClash | outOfAllotment
  | schedMiss | farWait | alignOverrun | pipeClash | unitBusy | slotMiss | rdvInExchange
  | bankClash | laneClash | bufState | bankRange | edgeRange | fqOverflow | fqUnderflow
  | admitClash | paneEmpty | gradNan | accHeadroom | innerSat | windowRange | cellParity
  | protection | regionMiss | unmappedPa | mcNotReady | uncorrectable
  | turnRefused | laneDirection | cavSlotBusy
  | vfpInvalid | vfpOverflow | vfpDivzero
  | trapN (n : BitVec 3) | imemUncorrectable | debugStop | monitorFire
  deriving DecidableEq, Repr

/-- Every row of spec/opcode_table.json. The first group are the instruction words, in the table's order; register
numbers are those of their class; a Bool is the one-bit field named beside it. The second group are the part's other
steps (spec/95_what_each_step_holds.md). -/
inductive Instr where
  -- common words (R58)
  | nop
  | waitc (cnt : BitVec 24)
  | pbr (d : BitVec 3) (t : PTarget)
  | br (a : BitVec 3)
  | call (a : BitVec 3)
  | ret
  | loop (rot : Bool) (n : Count) (off : BitVec 24)
  | align (late : Bool) (t : Wide)
  | cairn (v : BitVec 48)
  | qop (tt : BitVec 4) (d a b : BitVec 3)
  | csrr (d : CsrReg) (n : BitVec 12)
  | csrw (a : CsrReg) (n : BitVec 12)
  | trap (n : BitVec 3)
  | exit
  | fence (set : FSet) (scope : FScope)
  | rdvi (pt : BitVec 5) (b : SOp)
  | rdva (pt : BitVec 5)
  | rdvw (pt : BitVec 5) (d : BitVec 3)
  | rdvt (pt : BitVec 5) (d : BitVec 3)
  -- C-stream words (R59)
  | add (d : BitVec 6) (a : Scal) (b : SOp)
  | sub (d : BitVec 6) (a : Scal) (b : SOp)
  | mul (d : BitVec 6) (a : Scal) (b : SOp)
  | mulh (u : Bool) (d : BitVec 6) (a : Scal) (b : SOp)
  | div (u : Bool) (d : BitVec 6) (a : Scal) (b : SOp)
  | rem (u : Bool) (d : BitVec 6) (a : Scal) (b : SOp)
  | and (d : BitVec 6) (a : Scal) (b : SOp)
  | or (d : BitVec 6) (a : Scal) (b : SOp)
  | xor (d : BitVec 6) (a : Scal) (b : SOp)
  | andn (d : BitVec 6) (a : Scal) (b : SOp)
  | shl (d : BitVec 6) (a : Scal) (b : SOp)
  | shr (d : BitVec 6) (a : Scal) (b : SOp)
  | sra (d : BitVec 6) (a : Scal) (b : SOp)
  | rol (d : BitVec 6) (a : Scal) (b : SOp)
  | min (u : Bool) (d : BitVec 6) (a : Scal) (b : SOp)
  | max (u : Bool) (d : BitVec 6) (a : Scal) (b : SOp)
  | clz (d : BitVec 6) (a : Scal)
  | popc (d : BitVec 6) (a : Scal)
  | sel (d : BitVec 6) (a : Scal) (b : SOp) (c : BitVec 3)
  | cmp (cond : Cond) (d : BitVec 3) (a : Scal) (b : SOp)
  | movi (d : BitVec 6) (v : BitVec 48)
  | movhi (d : BitVec 6) (v : BitVec 16)
  | bext (sx : Bool) (d : BitVec 6) (a : Scal) (wm1 p : BitVec 6)
  | bins (d : BitVec 6) (a : Scal) (wm1 p : BitVec 6)
  | fadd (rnd : Rnd) (d : BitVec 6) (a : Scal) (b : SOp)
  | fmul (rnd : Rnd) (d : BitVec 6) (a : Scal) (b : SOp)
  | ffma (rnd : Rnd) (d : BitVec 6) (a : Scal) (b : SOp) (c : Scal)
  | fcmp (cond : Cond) (d : BitVec 3) (a : Scal) (b : SOp)
  | fcvt (src dst : Ty) (rnd : Rnd) (sat : Bool) (d : BitVec 6) (a : Scal)
  | fmnx (mx : Bool) (d : BitVec 6) (a : Scal) (b : SOp)
  | sld (d : BitVec 6) (a : Scal) (v : W32)
  | sst (a b : Scal) (v : W32)
  | trig (handle : BitVec 4) (ctr : BitVec 8)
  | awin (w : WinOp)
  | amode (fimg : Fimg) (gnan : Gnan)
  | admitWork (kind : FKind) (pane : Bool) (m : Count)
  | seat (img : Img) (pane : Bool)
  | lift (clr : Bool)
  | acclr (north : Bool) (base : BitVec 16)
  | acnorm (north : Bool)
  | frzrd (d : BitVec 6) (a : Scal) (v : W32)
  | frzwr (a b : Scal) (v : W32)
  | resume
  | stow (a : Scal)
  | unstow (a : Scal)
  | turn (dn timed : Bool) (at_ : Option Scal) (link : BitVec 3) (group : BitVec 4)
  | laneq (d : BitVec 6) (link : BitVec 3) (entry : BitVec 3)
  -- L- and S-stream words (R60)
  | aadd (d : BitVec 6) (a : Scal) (b : SOp)
  | asub (d : BitVec 6) (a : Scal) (b : SOp)
  | amul (d : BitVec 6) (a : Scal) (b : SOp)
  | amovi (d : BitVec 6) (v : BitVec 48)
  | ashl (d : BitVec 6) (a : Scal) (b : SOp)
  | aand (d : BitVec 6) (a : Scal) (b : SOp)
  | acmp (cond : Cond) (d : BitVec 3) (a : Scal) (b : SOp)
  | bld (nr : BitVec 4) (d : BitVec 5) (a : Scal) (roff : BitVec 24) (vrow : BitVec 4)
  | bldb (nr : BitVec 4) (d : BitVec 5) (a : Scal) (roff : BitVec 24) (vrow : BitVec 4)
  | bldc (nr : BitVec 4) (d : BitVec 5) (a : Scal) (roff : BitVec 24) (vrow : BitVec 4)
  | ald (d : BitVec 6) (a : Scal) (v : W32)
  | fqpush (q : BitVec 3) (a : Scal) (row : BitVec 4) (nw : BitVec 6) (off : BitVec 22)
  | fqpop (d : BitVec 5) (q : BitVec 3)
  | haul (af : Bool) (pt : Option (BitVec 5)) (rnd : Rnd) (d a b : Scal)
  | edgeset (e : BitVec 2) (a : Scal) (v : W32)
  | bufdecl (v : W32)
  | bufset (full : Bool) (bd : BitVec 4)
  | bankfmt (bank : BitVec 3) (ty : BitVec 4) (srow : BitVec 7)
  | rld (nr : BitVec 4) (d : BitVec 5) (a : Scal) (vrow : BitVec 4)
  | bst (nr : BitVec 4) (a : Scal) (b : BitVec 5) (roff : BitVec 24) (vrow : BitVec 4)
  | ast (a b : Scal) (v : W32)
  | fst (a : Scal) (b : BitVec 5) (row : BitVec 4) (nw : BitVec 6) (off : BitVec 22)
  | amo (op : AmoOp) (q : BitVec 3) (a b c : Scal)
  | amon (op : AmoOp) (a b c : Scal)
  | amosc (op : AmoOp) (q : BitVec 3) (a b c : Scal)
  | rst (nr : BitVec 4) (a : Scal) (b : BitVec 5) (vrow : BitVec 4)
  -- X-stream words (R61)
  | vadd (ty : Ty) (rnd : Rnd) (sat : Bool) (mask : BitVec 3) (d a : BitVec 5) (b : VOp)
  | vsub (ty : Ty) (rnd : Rnd) (sat : Bool) (mask : BitVec 3) (d a : BitVec 5) (b : VOp)
  | vmul (ty : Ty) (rnd : Rnd) (sat : Bool) (mask : BitVec 3) (d a : BitVec 5) (b : VOp)
  | vfma (rnd : Rnd) (mask : BitVec 3) (d a : BitVec 5) (b : VOp) (c : BitVec 5)
  | vmin (ty : Ty) (mask : BitVec 3) (d a : BitVec 5) (b : VOp)
  | vmax (ty : Ty) (mask : BitVec 3) (d a : BitVec 5) (b : VOp)
  | vabs (ty : Ty) (sat : Bool) (mask : BitVec 3) (d a : BitVec 5)
  | vneg (ty : Ty) (sat : Bool) (mask : BitVec 3) (d a : BitVec 5)
  | vcmp (ty : Ty) (mask : BitVec 3) (cond : Cond) (d : BitVec 3) (a : BitVec 5) (b : VOp)
  | vsel (mask : BitVec 3) (d a : BitVec 5) (b : VOp)
  | vmov (mask : BitVec 3) (d a : BitVec 5)
  | vsplat (ty : Ty) (mask : BitVec 3) (d : BitVec 5) (b : SOp)
  | vand (mask : BitVec 3) (d a : BitVec 5) (b : VOp)
  | vor (mask : BitVec 3) (d a : BitVec 5) (b : VOp)
  | vxor (mask : BitVec 3) (d a : BitVec 5) (b : VOp)
  | vshl (mask : BitVec 3) (d a : BitVec 5) (b : VOp)
  | vshr (mask : BitVec 3) (d a : BitVec 5) (b : VOp)
  | vsra (mask : BitVec 3) (d a : BitVec 5) (b : VOp)
  | vcvt (src dst : Ty) (rnd : Rnd) (sat : Bool) (d a : BitVec 5)
  | vqnt (fmt : Fimg) (rnd : Rnd) (col : Bool) (d a c : BitVec 5)
  | vdqnt (fmt : Fimg) (col : Bool) (d a b : BitVec 5)
  | vpack (w : Wid) (d a : BitVec 5)
  | vunpk (w : Wid) (d a : BitVec 5)
  | vrotr (mask : BitVec 3) (d a : BitVec 5) (b : VOp)
  | vrotc (mask : BitVec 3) (d a : BitVec 5) (b : VOp)
  | vbcr (mask : BitVec 3) (d a : BitVec 5) (b : VOp)
  | vbcc (mask : BitVec 3) (d a : BitVec 5) (b : VOp)
  | vredr (op : RedOp) (ty : Ty) (rnd : Rnd) (mask : BitVec 3) (d a : BitVec 5)
  | vredc (op : RedOp) (ty : Ty) (rnd : Rnd) (mask : BitVec 3) (d a : BitVec 5)
  | vtrn (mask : BitVec 3) (d a : BitVec 5)
  | vexp2 (mask : BitVec 3) (d a : BitVec 5)
  | vlog2 (mask : BitVec 3) (d a : BitVec 5)
  | vrcp (mask : BitVec 3) (d a : BitVec 5)
  | vrsq (mask : BitVec 3) (d a : BitVec 5)
  | vtanh (mask : BitVec 3) (d a : BitVec 5)
  | vsincos (mask : BitVec 3) (d a c : BitVec 5)
  | vrnd (ty : Ty) (rnd : Rnd) (sat : Bool) (mask : BitVec 3) (d a : BitVec 5)
  | vdrop (mask : BitVec 3) (d a : BitVec 5) (b : VOp)
  | mop (tt : BitVec 4) (d a b : BitVec 3)
  | vidx (col : Bool) (d : BitVec 5)
  | vfclass (mask : BitVec 3) (d a : BitVec 5)
  | rdrv (lane : BitVec 4) (a : BitVec 5) (hops : BitVec 7) (row : BitVec 4)
  | rtap (d : BitVec 5) (lane : BitVec 4) (row : BitVec 4)
  | cav (op : CavOp) (slot : BitVec 2) (d a : BitVec 5) (b : BitVec 4) (anchor : BitVec 7) (vrow : BitVec 4)
  | cavd (op : CavOp) (slot : BitVec 2) (d a : BitVec 5) (vrow : BitVec 4)
  | acrd (bf16 : Bool) (rnd : Rnd) (north : Bool) (d : BitVec 5) (clr half : Bool) (vrow : BitVec 4)
  | acwr (north : Bool) (a : BitVec 5) (half : Bool) (vrow : BitVec 4)
  | rotset (dn : BitVec 5)
  -- the part's other steps, in the table's order
  | dieCycle (d : DieId)
  | sectionHeader (d : DieId) (p : Pos) (st : Strm)
  | farWait (d : DieId)
  | alignmentWaitEnd (d : DieId)
  | writeLand (d : DieId)
  | bankPortAAccess (d : DieId)
  | ringItemEntry (d : DieId)
  | frontAdmit (d : DieId)
  | edgePointerAdvance (d : DieId)
  | frontTransit (d : DieId)
  | seatCommit (d : DieId)
  | liftCapture (d : DieId)
  | accumulatorCycle (d : DieId)
  | cavitySweepCheck (d : DieId)
  | cavitySweepDrive (d : DieId)
  | cavityResult (d : DieId)
  | cavdSweepArrival (d : DieId)
  | tlbWalkRead (d : DieId)
  | requestDepart (d : DieId)
  | farAccessPerform (d : DieId)
  | amoscPerform (d : DieId)
  | wheelMarkSend (d : DieId)
  | wheelMarkArrive (d : DieId)
  | responseArrival (d : DieId)
  | errorResponse (d : DieId)
  | haulGranuleStart (d : DieId)
  | haulPortBRead (d : DieId)
  | haulPortBWrite (d : DieId)
  | haulComplete (d : DieId)
  | rdvaArrival (d : DieId)
  | arrivalCount (d : DieId)
  | phasePropagate (d : DieId)
  | rdviApply (d : DieId)
  | trigRelease (d : DieId)
  | turnEffect (l : Fin 6)
  | deadTimeEnd (l : Fin 6)
  | packetTake
  | launch (q : Fin 32)
  | graphLoad (q : Fin 32)
  | graphRun (q : Fin 32)
  | wait (q : Fin 32)
  | signal (q : Fin 32)
  | copy (q : Fin 32)
  | copyGranule (q : Fin 32)
  | stop (q : Fin 32)
  | packetComplete (q : Fin 32)
  | planeRestore (d : DieId)
  | dieStart (d : DieId)
  | graphOperationFire (h : Fin 32)
  | graphOperationComplete (h : Fin 32)
  | preemptionFreeze (d : DieId)
  | teamResume (team : BitVec 16)
  | causeReport (d : DieId)
  | teamStowEnd (d : DieId)
  | teamEnd (team : BitVec 16)
  | handlerEntry (d : DieId)
  | stowEnd (d : DieId)
  | unstowEnd (d : DieId)
  | xinval (d : DieId) (v : W64)
  | xinvalDone (d : DieId)
  | xreplay (d : DieId) (v : W64)
  | didtlimWrite (v : W64)
  | lanelimWrite (v : W64)
  | hostRegisterWrite (off : BitVec 26) (size : Nat) (v : W64)
  | bar2Access (off : BitVec 38) (size : Nat) (data : Option (List Byte))
  | hostEvent (kind : BitVec 8) (arg : W64)
  | telemetrySample
  | dbgstop (v : W64)
  | debugStop (d : DieId)
  | dbgdataAccess (v : Option W64)
  | dbgres (v : W64)
  | traceRecordWrite
  | noiseOff (d : DieId) (p : Pos)
  | noiseLive (d : DieId) (p : Pos)
  | noiseLog (d : DieId) (p : Pos)
  | noiseReplay (d : DieId) (p : Pos) (seed : W32)
  | rotdWrite (d : DieId) (p : Pos) (v : W64)
  | bootGo (v : W64)
  | hubResetDeassert
  | powerRemoval
  | memoryControllerReset (d : DieId) (inReset : Bool)
  | filysXLinkDown (port : Fin 8)
  | getVersion (req : List Byte)
  | getCapabilities (req : List Byte)
  | negotiateAlgorithms (req : List Byte)
  | getDigests (req : List Byte)
  | getCertificate (req : List Byte)
  | challenge (req : List Byte)
  | getMeasurements (req : List Byte)
  | spdmUnsupportedRequest (req : List Byte)
  | gddr7Refresh
  | rowClose (d : DieId)
  | preemptionStowEnd (d : DieId)
  | filysXLinkUp (port : Fin 8) (peer : W64)
  | channelDataArrival (port : Fin 8) (chan : Byte) (packed : Bool) (bytes : List Byte)
  | resetPinAssert
  deriving DecidableEq, Repr

end Sys2Proof
end

