-- ==== Sys2Proof/WellFormed.lean ====
section
/-! DEFINITION. Which instructions a stream's words can hold: the operand ranges and field codes of R48, R49 and R56 to
R61, stream by stream. The part's other steps have no word, so none of them is well formed here. -/

namespace Sys2Proof

/-- A scalar operand that stream `st` can name (R48, R49). -/
def Scal.ok (st : Strm) : Scal → Bool
  | .reg n => match st with
    | .c => true
    | .l | .s => n < 32
    | .x => false
  | .ts _ => true

/-- A scalar `b|imm` that stream `st` can name. -/
def SOp.ok (st : Strm) : SOp → Bool
  | .r x => x.ok st
  | .i _ => true

/-- A vector `b|imm` whose immediate is IMM[n−1:0] (R147, R159, R166). -/
def VOp.fits (n : Nat) : VOp → Bool
  | .r _ => true
  | .i v => decide (v.toNat < 2 ^ n)

/-- A destination a-register (R48). -/
def aDest (d : BitVec 6) : Bool := d < 32

/-- CSRR's destination or CSRW's source in stream `st` (R49); `src` allows the mirror. -/
def CsrReg.ok (st : Strm) (src : Bool) : CsrReg → Bool
  | .s (.reg n) => (Scal.reg n).ok st
  | .s (.ts _) => src && st != .x
  | .v _ => st == .x

def PTarget.ok (st : Strm) : PTarget → Bool
  | .off _ => true
  | .ind a => a.ok st

def Count.ok (st : Strm) : Count → Bool
  | .cnt _ => true
  | .reg a => a.ok st

/-- TYPE codes 0 to 2 (R61). -/
def Ty.int32 : Ty → Bool
  | .f32 | .i32 | .n32 => true
  | _ => false

/-- Types of FCVT: 0 to 5 and 10 to 13 (R59). -/
def Ty.fcvt : Ty → Bool
  | .mx8 | .mx6 | .mx4 | .e8m0 => false
  | _ => true

/-- Types of VCVT: 0 to 5 and 9 to 13 (R61). -/
def Ty.vcvt : Ty → Bool
  | .mx8 | .mx6 | .mx4 => false
  | _ => true

/-- COND codes of CMP and ACMP: 0 to 9. -/
def Cond.int : Cond → Bool
  | .uo | .ord => false
  | _ => true

/-- COND codes of FCMP: 0 to 5, 10 and 11. -/
def Cond.fp : Cond → Bool
  | .ltu | .leu | .gtu | .geu => false
  | _ => true

/-- COND codes of VCMP under a type (R149). -/
def Cond.vec (c : Cond) (ty : Ty) : Bool :=
  c.fp && (ty == .f32 || c.int)

/-- RND other than RNE only with FP32, SAT only with an integer type (R61). -/
def arithOk (ty : Ty) (rnd : Rnd) (sat : Bool) : Bool :=
  ty.int32 && (rnd == .rne || ty == .f32) && (!sat || ty != .f32)

/-- VABS and VNEG: types 0 and 1, SAT only with 1 (R61). -/
def absOk (ty : Ty) (sat : Bool) : Bool :=
  match ty with
  | .f32 => !sat
  | .i32 => true
  | _ => false

/-- VRND: types 3 to 5 (R61). -/
def rndOk : Ty → Bool
  | .bf16 | .e4m3 | .e5m2 => true
  | _ => false

/-- VREDR and VREDC: RND other than RNE only with `.add.f32` (R161). -/
def redOk (op : RedOp) (ty : Ty) (rnd : Rnd) : Bool :=
  ty.int32 && (rnd == .rne || (op == .add && ty == .f32))

/-- C is taken only by `.cas`, and is a0's code otherwise (R60). -/
def amoOk (op : AmoOp) (c : Scal) : Bool :=
  op == .cas || c == .reg 0

/-- The opcodes of a stream: common, or the stream's own. -/
def Strm.adr : Strm → Bool
  | .l | .s => true
  | _ => false

/-- What a word of stream `st` can hold. -/
def Instr.wf (st : Strm) : Instr → Bool
  | .nop | .waitc _ | .br _ | .call _ | .ret | .cairn _ | .qop .. | .trap _ | .exit | .fence .. => true
  | .pbr _ t => t.ok st
  | .loop rot n _ => (!rot || st == .x) && n.ok st
  | .align _ t => match t with
    | .imm _ => true
    | .reg a _ => a.ok st
  | .csrr d _ => d.ok st false
  | .csrw a _ => a.ok st true
  | .rdvi pt b => pt < 24 && b.ok st
  | .rdva pt | .rdvw pt _ | .rdvt pt _ => pt < 24
  | .add _ a b | .sub _ a b | .mul _ a b | .mulh _ _ a b | .div _ _ a b | .rem _ _ a b
  | .and _ a b | .or _ a b | .xor _ a b | .andn _ a b | .shl _ a b | .shr _ a b | .sra _ a b | .rol _ a b
  | .min _ _ a b | .max _ _ a b | .sel _ a b _ | .fadd _ _ a b | .fmul _ _ a b | .fmnx _ _ a b =>
    st == .c && a.ok st && b.ok st
  | .clz _ a | .popc _ a | .bext _ _ a _ _ | .bins _ a _ _ | .sld _ a _ | .frzrd _ a _ | .stow a | .unstow a =>
    st == .c && a.ok st
  | .cmp cond _ a b => st == .c && cond.int && a.ok st && b.ok st
  | .fcmp cond _ a b => st == .c && cond.fp && a.ok st && b.ok st
  | .movi .. | .movhi .. | .trig .. | .amode .. | .seat .. | .lift _ | .acclr .. | .acnorm _ | .resume => st == .c
  | .ffma _ _ a b c => st == .c && a.ok st && b.ok st && c.ok st
  | .fcvt src dst _ _ _ a => st == .c && src.fcvt && dst.fcvt && src != dst && a.ok st
  | .sst a b _ | .frzwr a b _ => st == .c && a.ok st && b.ok st
  | .awin w => st == .c && (match w with
    | .imm v => v < 1099511627776
    | .reg a => a.ok st)
  | .admitWork _ _ m => st == .c && m.ok st
  | .turn _ _ at_ link _ => st == .c && link < 6 && (match at_ with
    | none => true
    | some a => a.ok st)
  | .laneq _ link _ => st == .c && link < 6
  | .aadd d a b | .asub d a b | .amul d a b | .ashl d a b | .aand d a b => st.adr && aDest d && a.ok st && b.ok st
  | .amovi d _ => st.adr && aDest d
  | .acmp cond _ a b => st.adr && cond.int && a.ok st && b.ok st
  | .bld _ _ a _ _ | .bldb _ _ a _ _ | .bldc _ _ a _ _ | .fqpush _ a _ _ _ | .edgeset _ a _ | .rld _ _ a _ =>
    st == .l && a.ok st
  | .ald d a _ => st == .l && aDest d && a.ok st
  | .fqpop .. | .bufdecl _ | .bufset .. | .bankfmt .. => st == .l
  | .haul _ pt _ d a b => st == .l && d.ok st && a.ok st && b.ok st && (match pt with
    | none => true
    | some p => p < 24)
  | .bst _ a _ _ _ | .fst a _ _ _ _ | .rst _ a _ _ => st == .s && a.ok st
  | .ast a b _ => st == .s && a.ok st && b.ok st
  | .amo op _ a b c | .amon op a b c | .amosc op _ a b c => st == .s && a.ok st && b.ok st && c.ok st && amoOk op c
  | .vadd ty rnd sat .. | .vsub ty rnd sat .. | .vmul ty rnd sat .. => st == .x && arithOk ty rnd sat
  | .vmin ty .. | .vmax ty .. => st == .x && ty.int32
  | .vsplat ty _ _ b => st == .x && ty.int32 && b.ok st
  | .vabs ty sat .. | .vneg ty sat .. => st == .x && absOk ty sat
  | .vcmp ty _ cond .. => st == .x && ty.int32 && cond.vec ty
  | .vcvt src dst .. => st == .x && src.vcvt && dst.vcvt && src != dst
  | .vrnd ty .. => st == .x && rndOk ty
  | .vredr op ty rnd .. | .vredc op ty rnd .. => st == .x && redOk op ty rnd
  | .cav _ _ _ _ b _ _ => st == .x && b != 15
  | .rotset dn => st == .x && dn < 17
  | .vrotr _ _ _ b | .vbcr _ _ _ b => st == .x && b.fits 6
  | .vrotc _ _ _ b | .vbcc _ _ _ b => st == .x && b.fits 4
  | .vdrop _ _ _ b => st == .x && b.fits 16
  | .vfma .. | .vsel .. | .vmov .. | .vand .. | .vor .. | .vxor .. | .vshl .. | .vshr .. | .vsra .. | .vqnt .. | .vdqnt ..
  | .vpack .. | .vunpk .. | .vtrn .. | .vexp2 .. | .vlog2 .. | .vrcp ..
  | .vrsq .. | .vtanh .. | .vsincos .. | .mop .. | .vidx .. | .vfclass .. | .rdrv .. | .rtap .. | .cavd ..
  | .acrd .. | .acwr .. => st == .x
  -- the part's other steps have no word
  | .dieCycle _ | .sectionHeader .. | .farWait _ | .alignmentWaitEnd _ | .writeLand _ | .bankPortAAccess _
  | .ringItemEntry _ | .frontAdmit _ | .edgePointerAdvance _ | .frontTransit _ | .seatCommit _ | .liftCapture _
  | .accumulatorCycle _ | .cavitySweepCheck _ | .cavitySweepDrive _ | .cavityResult _ | .cavdSweepArrival _
  | .tlbWalkRead _ | .requestDepart _ | .farAccessPerform _ | .amoscPerform _ | .wheelMarkSend _ | .wheelMarkArrive _
  | .responseArrival _ | .errorResponse _ | .haulGranuleStart _ | .haulPortBRead _ | .haulPortBWrite _ | .haulComplete _
  | .rdvaArrival _ | .arrivalCount _ | .phasePropagate _ | .rdviApply _ | .trigRelease _ | .turnEffect _ | .deadTimeEnd _
  | .packetTake | .launch _ | .graphLoad _ | .graphRun _ | .wait _ | .signal _ | .copy _ | .copyGranule _ | .stop _
  | .packetComplete _ | .planeRestore _ | .dieStart _ | .graphOperationFire _ | .graphOperationComplete _
  | .preemptionFreeze _ | .teamResume _ | .causeReport _ | .teamStowEnd _ | .teamEnd _ | .handlerEntry _ | .stowEnd _
  | .unstowEnd _ | .xinval .. | .xinvalDone _ | .xreplay .. | .didtlimWrite _ | .lanelimWrite _ | .hostRegisterWrite ..
  | .bar2Access .. | .hostEvent .. | .telemetrySample | .dbgstop _ | .debugStop _ | .dbgdataAccess _ | .dbgres _
  | .traceRecordWrite | .noiseOff .. | .noiseLive .. | .noiseLog .. | .noiseReplay .. | .rotdWrite .. | .bootGo _
  | .hubResetDeassert | .powerRemoval | .memoryControllerReset .. | .filysXLinkDown _ | .getVersion _
  | .getCapabilities _ | .negotiateAlgorithms _ | .getDigests _ | .getCertificate _ | .challenge _ | .getMeasurements _
  | .spdmUnsupportedRequest _ | .gddr7Refresh | .rowClose _ | .preemptionStowEnd _ | .filysXLinkUp ..
  | .channelDataArrival .. | .resetPinAssert => false

end Sys2Proof
end

