-- ==== Sys2Proof/Decode.lean ====
section
/-! DEFINITION. The decoder of instruction words (R43 to R49, R56 to R62), total on every 96-bit pattern, rejecting with
the cause of the first failing check of R62; and after it the encoder of the same tables. -/

namespace Sys2Proof

-- ## Bit fields

/-- Bits [hi:lo] of a word, `bits(x, hi, lo)` of the spec with `n = hi - lo + 1`. -/
abbrev fld {w : Nat} (x : BitVec w) (lo n : Nat) : BitVec n := x.extractLsb' lo n

/-- Bit `n` of a word. -/
abbrev bit {w : Nat} (x : BitVec w) (n : Nat) : Bool := x.getLsbD n

/-- A Bool as one bit. -/
abbrev b1 (b : Bool) : BitVec 1 := BitVec.ofBool b

/-- The fields of an instruction word but for DLY and the guard, in the view of format T (R43, R46). -/
structure Fields where
  opc : Byte
  mod : BitVec 12
  d : Byte
  a : Byte
  b : Byte
  c : Byte
  imm : W32
  deriving DecidableEq, Repr

/-- DLY of a word (R43). -/
def wordDly (w : W96) : Byte := fld w 88 8
/-- GRD of a word: GINV in bit 3, GSEL below (R43). -/
def wordGrd (w : W96) : BitVec 4 := fld w 84 4

/-- The fields of a word (R43, R46). -/
def fieldsOf (w : W96) : Fields :=
  { opc := fld w 76 8, mod := fld w 64 12, d := fld w 56 8, a := fld w 48 8, b := fld w 40 8, c := fld w 32 8,
    imm := fld w 0 32 }

/-- The word of the fields with a delay and a guard (R43). -/
def wordOf (dly : Byte) (grd : BitVec 4) (f : Fields) : W96 :=
  dly ++ grd ++ f.opc ++ f.mod ++ f.d ++ f.a ++ f.b ++ f.c ++ f.imm

/-- IMM48 of format W (R46). -/
def Fields.imm48 (f : Fields) : BitVec 48 := f.b ++ f.c ++ f.imm
/-- CNT of format K (R46). -/
def Fields.cnt (f : Fields) : BitVec 24 := f.b ++ f.c ++ fld f.imm 24 8
/-- OFF of format K (R46). -/
def Fields.off (f : Fields) : BitVec 24 := fld f.imm 0 24

-- ## Field codes (R56, R57)

def tyOf : BitVec 4 → Option Ty
  | 0 => some .f32 | 1 => some .i32 | 2 => some .n32 | 3 => some .bf16 | 4 => some .e4m3 | 5 => some .e5m2
  | 6 => some .mx8 | 7 => some .mx6 | 8 => some .mx4 | 9 => some .e8m0 | 10 => some .i8 | 11 => some .n8
  | 12 => some .i16 | 13 => some .n16 | _ => none

def tyCode : Ty → BitVec 4
  | .f32 => 0 | .i32 => 1 | .n32 => 2 | .bf16 => 3 | .e4m3 => 4 | .e5m2 => 5 | .mx8 => 6 | .mx6 => 7 | .mx4 => 8
  | .e8m0 => 9 | .i8 => 10 | .n8 => 11 | .i16 => 12 | .n16 => 13

def rndOf : BitVec 3 → Option Rnd
  | 0 => some .rne | 1 => some .rtz | 2 => some .rdn | 3 => some .rup | 4 => some .rsr | _ => none

def rndCode : Rnd → BitVec 3
  | .rne => 0 | .rtz => 1 | .rdn => 2 | .rup => 3 | .rsr => 4

def condOf : BitVec 4 → Option Cond
  | 0 => some .eq | 1 => some .ne | 2 => some .lt | 3 => some .le | 4 => some .gt | 5 => some .ge
  | 6 => some .ltu | 7 => some .leu | 8 => some .gtu | 9 => some .geu | 10 => some .uo | 11 => some .ord | _ => none

def condCode : Cond → BitVec 4
  | .eq => 0 | .ne => 1 | .lt => 2 | .le => 3 | .gt => 4 | .ge => 5 | .ltu => 6 | .leu => 7 | .gtu => 8 | .geu => 9
  | .uo => 10 | .ord => 11

def fsetOf : BitVec 2 → Option FSet
  | 1 => some .ld | 2 => some .st | 3 => some .ldst | _ => none

def fsetCode : FSet → BitVec 2
  | .ld => 1 | .st => 2 | .ldst => 3

def fscopeOf : BitVec 2 → Option FScope
  | 0 => some .sta | 1 => some .die | 2 => some .team | _ => none

def fscopeCode : FScope → BitVec 2
  | .sta => 0 | .die => 1 | .team => 2

def redOpOf : BitVec 3 → Option RedOp
  | 0 => some .add | 1 => some .max | 2 => some .min | 3 => some .and | 4 => some .or | 5 => some .xor | _ => none

def redOpCode : RedOp → BitVec 3
  | .add => 0 | .max => 1 | .min => 2 | .and => 3 | .or => 4 | .xor => 5

def ty2Of : BitVec 2 → Option Ty
  | 0 => some .f32 | 1 => some .i32 | 2 => some .n32 | _ => none

/-- TY2 of the three 32-bit types; the others have no code there. -/
def ty2Code : Ty → BitVec 2
  | .f32 => 0 | .i32 => 1 | .n32 => 2 | _ => 3

def widOf : BitVec 2 → Wid
  | 0 => .w16 | 1 => .w8 | 2 => .w6 | _ => .w4

def widCode : Wid → BitVec 2
  | .w16 => 0 | .w8 => 1 | .w6 => 2 | .w4 => 3

def cavOpOf : BitVec 4 → Option CavOp
  | 0 => some .addF | 1 => some .maxF | 2 => some .minF | 3 => some .addI | 4 => some .maxI | 5 => some .minI
  | 6 => some .maxN | 7 => some .minN | 8 => some .and | 9 => some .or | 10 => some .xor | 11 => some .lse
  | 12 => some .argmax | _ => none

def cavOpCode : CavOp → BitVec 4
  | .addF => 0 | .maxF => 1 | .minF => 2 | .addI => 3 | .maxI => 4 | .minI => 5 | .maxN => 6 | .minN => 7 | .and => 8
  | .or => 9 | .xor => 10 | .lse => 11 | .argmax => 12

def amoOpOf : BitVec 4 → Option AmoOp
  | 0 => some .addI | 1 => some .addF | 2 => some .maxI | 3 => some .minI | 4 => some .maxN | 5 => some .minN
  | 6 => some .maxF | 7 => some .minF | 8 => some .and | 9 => some .or | 10 => some .xor | 11 => some .xchg
  | 12 => some .cas | _ => none

def amoOpCode : AmoOp → BitVec 4
  | .addI => 0 | .addF => 1 | .maxI => 2 | .minI => 3 | .maxN => 4 | .minN => 5 | .maxF => 6 | .minF => 7 | .and => 8
  | .or => 9 | .xor => 10 | .xchg => 11 | .cas => 12

def fimgOf : BitVec 2 → Option Fimg
  | 0 => some .mx8 | 1 => some .mx6 | 2 => some .mx4 | _ => none

def fimgCode : Fimg → BitVec 2
  | .mx8 => 0 | .mx6 => 1 | .mx4 => 2

/-- FMT of layout VQ: codes 6 to 8. -/
def fmtOf : BitVec 4 → Option Fimg
  | 6 => some .mx8 | 7 => some .mx6 | 8 => some .mx4 | _ => none

def fmtCode : Fimg → BitVec 4
  | .mx8 => 6 | .mx6 => 7 | .mx4 => 8

def gnanOf : BitVec 2 → Option Gnan
  | 0 => some .gprop | 1 => some .gzero | 2 => some .gtrap | _ => none

def gnanCode : Gnan → BitVec 2
  | .gprop => 0 | .gzero => 1 | .gtrap => 2

def imgOf : BitVec 2 → Option Img
  | 1 => some .fimg | 2 => some .bimg | 3 => some .both | _ => none

def imgCode : Img → BitVec 2
  | .fimg => 1 | .bimg => 2 | .both => 3

-- ## Register fields (R48, R49)

/-- The value when the condition holds. -/
def guardO {α : Type} (c : Bool) (x : α) : Option α := if c then some x else none

def scalOf (st : Strm) (x : Byte) : Option Scal :=
  if x < 0x40 && (Scal.reg (x.setWidth 6)).ok st then some (.reg (x.setWidth 6))
  else guardO (fld x 4 4 == 7) (.ts (x.setWidth 4))

def scalCode : Scal → Byte
  | .reg n => n.setWidth 8
  | .ts n => 7#4 ++ n

/-- Scalar destination of the C stream. -/
def sDstOf (x : Byte) : Option (BitVec 6) := guardO (x < 0x40) (x.setWidth 6)
/-- Scalar destination of the L and S streams. -/
def aDstOf (x : Byte) : Option (BitVec 6) := guardO (x < 0x20) (x.setWidth 6)
def vecOf (x : Byte) : Option (BitVec 5) := guardO (x < 0x20) (x.setWidth 5)
def mskOf (x : Byte) : Option (BitVec 3) := guardO (fld x 3 5 == 4) (x.setWidth 3)
def prdOf (x : Byte) : Option (BitVec 3) := guardO (fld x 3 5 == 8) (x.setWidth 3)
def btrOf (x : Byte) : Option (BitVec 3) := guardO (fld x 3 5 == 9) (x.setWidth 3)
def queOf (x : Byte) : Option (BitVec 3) := guardO (fld x 3 5 == 10) (x.setWidth 3)
def edgOf (x : Byte) : Option (BitVec 2) := guardO (fld x 2 6 == 22) (x.setWidth 2)
/-- Lanes cw0 to cw7 as 0 to 7, ac0 to ac7 as 8 to 15. -/
def lanOf (x : Byte) : Option (BitVec 4) := guardO (fld x 4 4 == 6) (x.setWidth 4)
/-- The pair of CAV: ts48 to ts62. -/
def tspOf (x : Byte) : Option (BitVec 4) := guardO (fld x 4 4 == 7 && fld x 0 4 != 15) (x.setWidth 4)

def vecCode (v : BitVec 5) : Byte := v.setWidth 8
def sCode (v : BitVec 6) : Byte := v.setWidth 8
def mskCode (v : BitVec 3) : Byte := 4#5 ++ v
def prdCode (v : BitVec 3) : Byte := 8#5 ++ v
def btrCode (v : BitVec 3) : Byte := 9#5 ++ v
def queCode (v : BitVec 3) : Byte := 10#5 ++ v
def edgCode (v : BitVec 2) : Byte := 22#6 ++ v
def lanCode (v : BitVec 4) : Byte := 6#4 ++ v
def tspCode (v : BitVec 4) : Byte := 7#4 ++ v

/-- CSRR's destination in stream `st` (R49). -/
def csrDstOf (st : Strm) (x : Byte) : Option CsrReg :=
  match st with
  | .c => (sDstOf x).map fun n => .s (.reg n)
  | .l | .s => (aDstOf x).map fun n => .s (.reg n)
  | .x => (vecOf x).map .v

/-- CSRW's source in stream `st` (R49). -/
def csrSrcOf (st : Strm) (x : Byte) : Option CsrReg :=
  match st with
  | .x => (vecOf x).map .v
  | _ => (scalOf st x).map .s

def csrCode : CsrReg → Byte
  | .s x => scalCode x
  | .v n => vecCode n

/-- `b|imm` of a scalar form (R47). -/
def sopOf (st : Strm) (i : Bool) (f : Fields) : Option SOp :=
  if i then some (.i f.imm) else (scalOf st f.b).map .r

/-- `b|imm` of a vector form (R47). -/
def vopOf (i : Bool) (f : Fields) : Option VOp :=
  if i then some (.i f.imm) else (vecOf f.b).map .r

/-- Of B and IMM, the one that the form does not take is zero (R47). -/
def opZ (i : Bool) (f : Fields) : Bool := if i then f.b == 0 else f.imm == 0

-- ## Which streams an opcode is valid in (R58 to R62)

/-- The streams in which an opcode is valid; `none` for one reserved in every stream. -/
def opcStreams (o : Byte) : Option (List Strm) :=
  let n := o.toNat
  if n = 0x07 then none
  else if n < 0x14 then some [.c, .l, .s, .x]
  else if n < 0x20 then none
  else if n < 0x41 then some [.c]
  else if n < 0x50 then none
  else if n < 0x57 then some [.c]
  else if n < 0x59 then none
  else if n < 0x60 then some [.c]
  else if n < 0x70 then none
  else if n = 0x77 || n = 0x7F then none
  else if n < 0x77 then some [.l, .s]
  else if n < 0x85 then some [.l]
  else if n < 0x90 then none
  else if n = 0x96 then none
  else if n < 0x98 then some [.s]
  else if n < 0xB0 then none
  else if n < 0xE0 then some [.x]
  else none

-- ## MOD layouts (R57)

def mNone (f : Fields) : Option Unit := guardO (f.mod == 0) ()
/-- SALU with U = 0, AALU: the I bit alone. -/
def mI (f : Fields) : Option Bool := guardO (fld f.mod 0 11 == 0) (bit f.mod 11)
/-- SALU: I and U. -/
def mIU (f : Fields) : Option (Bool × Bool) := guardO (fld f.mod 1 10 == 0) (bit f.mod 11, bit f.mod 0)
def mScmp (ok : Cond → Bool) (f : Fields) : Option (Bool × Cond) :=
  if fld f.mod 4 7 == 0 then (condOf (fld f.mod 0 4)).bind fun c => guardO (ok c) (bit f.mod 11, c) else none
def mSfp (f : Fields) : Option (Bool × Rnd) :=
  if fld f.mod 8 3 == 0 && fld f.mod 0 5 == 0 then (rndOf (fld f.mod 5 3)).map fun r => (bit f.mod 11, r) else none
def mCvt (ok : Ty → Bool) (f : Fields) : Option (Ty × Ty × Rnd × Bool) :=
  (tyOf (fld f.mod 8 4)).bind fun s => (tyOf (fld f.mod 0 4)).bind fun t => (rndOf (fld f.mod 5 3)).bind fun r =>
    guardO (ok s && ok t && s != t) (s, t, r, bit f.mod 4)
def mTt (f : Fields) : Option (BitVec 4) := guardO (fld f.mod 4 8 == 0) (fld f.mod 0 4)
def mPt (i : Bool) (f : Fields) : Option (Bool × BitVec 5) :=
  guardO (fld f.mod 5 6 == 0 && (i || !bit f.mod 11) && fld f.mod 0 5 < 24) (bit f.mod 11, fld f.mod 0 5)
def mFence (f : Fields) : Option (FSet × FScope) :=
  if fld f.mod 4 8 == 0 then (fsetOf (fld f.mod 2 2)).bind fun s => (fscopeOf (fld f.mod 0 2)).map fun c => (s, c)
  else none
/-- Layout VA: I, MASK, RND, SAT, TYPE, with the codes the row accepts. -/
def mVa (i : Bool) (ok : Ty → Rnd → Bool → Bool) (f : Fields) : Option (Bool × BitVec 3 × Rnd × Bool × Ty) :=
  (rndOf (fld f.mod 5 3)).bind fun r => (tyOf (fld f.mod 0 4)).bind fun t =>
    guardO ((i || !bit f.mod 11) && ok t r (bit f.mod 4)) (bit f.mod 11, fld f.mod 8 3, r, bit f.mod 4, t)
def mVc (f : Fields) : Option (Bool × BitVec 3 × Cond × Ty) :=
  (condOf (fld f.mod 4 4)).bind fun c => (tyOf (fld f.mod 0 4)).bind fun t =>
    guardO (t.int32 && c.vec t) (bit f.mod 11, fld f.mod 8 3, c, t)
def mVx (i : Bool) (f : Fields) : Option (Bool × BitVec 3) :=
  guardO ((i || !bit f.mod 11) && fld f.mod 0 8 == 0) (bit f.mod 11, fld f.mod 8 3)
def mVred (f : Fields) : Option (BitVec 3 × Rnd × RedOp × Ty) :=
  if bit f.mod 11 then none else
  (rndOf (fld f.mod 5 3)).bind fun r => (redOpOf (fld f.mod 2 3)).bind fun o => (ty2Of (fld f.mod 0 2)).bind fun t =>
    guardO (redOk o t r) (fld f.mod 8 3, r, o, t)
def mVq (rnd : Bool) (f : Fields) : Option (Bool × Rnd × Fimg) :=
  if fld f.mod 9 3 == 0 && !bit f.mod 4 then
    (rndOf (fld f.mod 5 3)).bind fun r => (fmtOf (fld f.mod 0 4)).bind fun m =>
      guardO (rnd || r == .rne) (bit f.mod 8, r, m)
  else none
def mWid (f : Fields) : Option Wid := guardO (fld f.mod 2 10 == 0) (widOf (fld f.mod 0 2))
/-- One-bit layouts: VIDX's AXIS, FACE, LIFT's CLR. -/
def mBit (f : Fields) : Option Bool := guardO (fld f.mod 1 11 == 0) (bit f.mod 0)
def mCav (f : Fields) : Option (CavOp × BitVec 2) :=
  if !bit f.mod 11 && fld f.mod 2 5 == 0 then (cavOpOf (fld f.mod 7 4)).map fun o => (o, fld f.mod 0 2) else none
/-- ACRD: RND, FACE, TYPE 0 or 3 (true for 3). -/
def mAcrd (f : Fields) : Option (Bool × Rnd × Bool) :=
  if fld f.mod 8 4 == 0 && (fld f.mod 0 4 == 0 || fld f.mod 0 4 == 3) then
    (rndOf (fld f.mod 5 3)).map fun r => (fld f.mod 0 4 == 3, r, bit f.mod 4)
  else none
/-- ACWR: FACE alone. -/
def mAcwr (f : Fields) : Option Bool := guardO (fld f.mod 5 7 == 0 && fld f.mod 0 4 == 0) (bit f.mod 4)
def mAmode (f : Fields) : Option (Fimg × Gnan) :=
  if fld f.mod 4 8 == 0 then (fimgOf (fld f.mod 0 2)).bind fun m => (gnanOf (fld f.mod 2 2)).map fun g => (m, g) else none
def mAdmit (f : Fields) : Option (Bool × Bool × FKind) :=
  guardO (fld f.mod 3 9 == 0) (bit f.mod 2, bit f.mod 1, if bit f.mod 0 then .bwd else .fwd)
def mSeat (f : Fields) : Option (Img × Bool) :=
  if fld f.mod 4 8 == 0 && !bit f.mod 0 then (imgOf (fld f.mod 2 2)).map fun m => (m, bit f.mod 1) else none
def mTurn (f : Fields) : Option (Bool × Bool × Bool) :=
  guardO (fld f.mod 3 9 == 0) (bit f.mod 2, bit f.mod 1, bit f.mod 0)
def mLdb (f : Fields) : Option (BitVec 4) := guardO (fld f.mod 4 8 == 0) (fld f.mod 0 4)
def mHaul (f : Fields) : Option (Bool × Option (BitVec 5) × Rnd) :=
  if fld f.mod 0 2 == 0 && (if bit f.mod 10 then fld f.mod 5 5 < 24 else fld f.mod 5 5 == 0) then
    (rndOf (fld f.mod 2 3)).map fun r => (bit f.mod 11, if bit f.mod 10 then some (fld f.mod 5 5) else none, r)
  else none
def mAmo (f : Fields) : Option AmoOp := if fld f.mod 4 8 == 0 then amoOpOf (fld f.mod 0 4) else none
def mBufset (f : Fields) : Option Bool :=
  guardO (fld f.mod 2 10 == 0 && (fld f.mod 0 2 == 0 || fld f.mod 0 2 == 2)) (fld f.mod 0 2 == 2)
/-- Two flags in bits 1 and 0: RG and LATE, RG and ROT. -/
def mRg (f : Fields) : Option (Bool × Bool) := guardO (fld f.mod 2 10 == 0) (bit f.mod 1, bit f.mod 0)

-- ## The words

/-- Checks 4 to 6 of R62 in their order: the MOD field, the register fields, the fields that must be zero. -/
def dec {μ ρ : Type} (m : Option μ) (r : μ → Option ρ) (z : μ → Bool) (k : μ → ρ → Instr) : Except Cause Instr :=
  match m with
  | none => .error .reservedMod
  | some m =>
    match r m with
    | none => .error .reservedReg
    | some x => if z m then .ok (k m x) else .error .reservedBits

/-- Two register fields. -/
def two {α β : Type} (x : Option α) (y : Option β) : Option (α × β) :=
  match x, y with
  | some a, some b => some (a, b)
  | _, _ => none

/-- Three register fields. -/
def three {α β γ : Type} (x : Option α) (y : Option β) (z : Option γ) : Option (α × β × γ) := two x (two y z)

/-- Fields of a form that takes no b, c or IMM beyond those checked elsewhere. -/
def zBCI (f : Fields) : Bool := f.b == 0 && f.c == 0 && f.imm == 0
def zBC (f : Fields) : Bool := f.b == 0 && f.c == 0

/-- `d, a, b|imm` of the C stream with SALU, U = 0. -/
def dSalu (f : Fields) (k : BitVec 6 → Scal → SOp → Instr) : Except Cause Instr :=
  dec (mI f) (fun i => three (sDstOf f.d) (scalOf .c f.a) (sopOf .c i f)) (fun i => f.c == 0 && opZ i f)
    fun _ (d, a, b) => k d a b
/-- `d, a, b|imm` of the C stream with SALU. -/
def dSaluU (f : Fields) (k : Bool → BitVec 6 → Scal → SOp → Instr) : Except Cause Instr :=
  dec (mIU f) (fun m => three (sDstOf f.d) (scalOf .c f.a) (sopOf .c m.1 f)) (fun m => f.c == 0 && opZ m.1 f)
    fun m (d, a, b) => k m.2 d a b
/-- `d, a` of the C stream, with the IMM as `z` says. -/
def dSa (f : Fields) (z : Bool) (k : BitVec 6 → Scal → Instr) : Except Cause Instr :=
  dec (mNone f) (fun _ => two (sDstOf f.d) (scalOf .c f.a)) (fun _ => z) fun _ (d, a) => k d a
/-- `d, a, b|imm` of the L or S stream. -/
def dAalu (st : Strm) (f : Fields) (k : BitVec 6 → Scal → SOp → Instr) : Except Cause Instr :=
  dec (mI f) (fun i => three (aDstOf f.d) (scalOf st f.a) (sopOf st i f)) (fun i => f.c == 0 && opZ i f)
    fun _ (d, a, b) => k d a b
/-- `d, a, b|imm` of the X stream with layout VA. -/
def dVa3 (ok : Ty → Rnd → Bool → Bool) (f : Fields)
    (k : Ty → Rnd → Bool → BitVec 3 → BitVec 5 → BitVec 5 → VOp → Instr) : Except Cause Instr :=
  dec (mVa true ok f) (fun m => three (vecOf f.d) (vecOf f.a) (vopOf m.1 f)) (fun m => f.c == 0 && opZ m.1 f)
    fun m (d, a, b) => k m.2.2.2.2 m.2.2.1 m.2.2.2.1 m.2.1 d a b
/-- `d, a` of the X stream with layout VA. -/
def dVa2 (ok : Ty → Rnd → Bool → Bool) (f : Fields)
    (k : Ty → Rnd → Bool → BitVec 3 → BitVec 5 → BitVec 5 → Instr) : Except Cause Instr :=
  dec (mVa false ok f) (fun _ => two (vecOf f.d) (vecOf f.a)) (fun _ => zBCI f)
    fun m (d, a) => k m.2.2.2.2 m.2.2.1 m.2.2.2.1 m.2.1 d a
/-- `d, a, b|imm` of the X stream with layout VX. -/
def dVx3 (f : Fields) (k : BitVec 3 → BitVec 5 → BitVec 5 → VOp → Instr) : Except Cause Instr :=
  dec (mVx true f) (fun m => three (vecOf f.d) (vecOf f.a) (vopOf m.1 f)) (fun m => f.c == 0 && opZ m.1 f)
    fun m (d, a, b) => k m.2 d a b
/-- `d, a, b|imm` of the X stream with layout VX, whose I form takes IMM[n−1:0] alone (R61, R147, R159, R166). -/
def dVx3n (n : Nat) (f : Fields) (k : BitVec 3 → BitVec 5 → BitVec 5 → VOp → Instr) : Except Cause Instr :=
  dec (mVx true f) (fun m => three (vecOf f.d) (vecOf f.a) (vopOf m.1 f))
    (fun m => f.c == 0 && opZ m.1 f && (!m.1 || decide (f.imm.toNat < 2 ^ n))) fun m (d, a, b) => k m.2 d a b
/-- `d, a` of the X stream with layout VX. -/
def dVx2 (f : Fields) (k : BitVec 3 → BitVec 5 → BitVec 5 → Instr) : Except Cause Instr :=
  dec (mVx false f) (fun _ => two (vecOf f.d) (vecOf f.a)) (fun _ => zBCI f) fun m (d, a) => k m.2 d a
/-- Bank loads: `d` (vector), `a`, IMM of R136. -/
def dLdb (f : Fields) (k : BitVec 4 → BitVec 5 → Scal → BitVec 24 → BitVec 4 → Instr) : Except Cause Instr :=
  dec (mLdb f) (fun _ => two (vecOf f.d) (scalOf .l f.a)) (fun _ => zBC f && fld f.imm 4 4 == 0)
    fun nr (d, a) => k nr d a (fld f.imm 8 24) (fld f.imm 0 4)

/-- The type conditions of the transcendental words: `.f32`, no RND, no SAT (R162). -/
def onlyF32 (ty : Ty) (rnd : Rnd) (sat : Bool) : Bool := ty == .f32 && rnd == .rne && !sat

/-- Common opcodes (R58). -/
def decCommon (st : Strm) (f : Fields) : Except Cause Instr :=
  match f.opc with
  | 0x00 => dec (mNone f) (fun _ => some ()) (fun _ => f.d == 0 && f.a == 0 && zBCI f) fun _ _ => .nop
  | 0x01 => dec (mNone f) (fun _ => some ()) (fun _ => f.d == 0 && f.a == 0 && f.off == 0) fun _ _ => .waitc f.cnt
  | 0x02 => dec (mBit f)
      (fun ind => two (btrOf f.d) (if ind then (scalOf st f.a).map .ind else some (.off f.off)))
      (fun ind => f.cnt == 0 && (if ind then f.off == 0 else f.a == 0)) fun _ (d, t) => .pbr d t
  | 0x03 => dec (mNone f) (fun _ => btrOf f.a) (fun _ => f.d == 0 && zBCI f) fun _ a => .br a
  | 0x04 => dec (mNone f) (fun _ => btrOf f.a) (fun _ => f.d == 0 && zBCI f) fun _ a => .call a
  | 0x05 => dec (mNone f) (fun _ => some ()) (fun _ => f.d == 0 && f.a == 0 && zBCI f) fun _ _ => .ret
  | 0x06 => dec ((mRg f).bind fun m => guardO (!m.2 || st == .x) m)
      (fun m => if m.1 then (scalOf st f.a).map .reg else some (.cnt f.cnt))
      (fun m => f.d == 0 && (if m.1 then f.cnt == 0 else f.a == 0)) fun m n => .loop m.2 n f.off
  | 0x08 => dec (mRg f)
      (fun m => if m.1 then (scalOf st f.a).map fun a => .reg a f.imm48 else some (.imm f.imm48))
      (fun m => f.d == 0 && (m.1 || f.a == 0)) fun m t => .align m.2 t
  | 0x09 => dec (mNone f) (fun _ => some ()) (fun _ => f.d == 0 && f.a == 0) fun _ _ => .cairn f.imm48
  | 0x0A => dec (mTt f) (fun _ => three (prdOf f.d) (prdOf f.a) (prdOf f.b)) (fun _ => f.c == 0 && f.imm == 0)
      fun tt (d, a, b) => .qop tt d a b
  | 0x0B => dec (mNone f) (fun _ => csrDstOf st f.d) (fun _ => f.a == 0 && zBC f && fld f.imm 12 20 == 0)
      fun _ d => .csrr d (fld f.imm 0 12)
  | 0x0C => dec (mNone f) (fun _ => csrSrcOf st f.a) (fun _ => f.d == 0 && zBC f && fld f.imm 12 20 == 0)
      fun _ a => .csrw a (fld f.imm 0 12)
  | 0x0D => dec (mNone f) (fun _ => some ()) (fun _ => f.d == 0 && f.a == 0 && zBC f && fld f.imm 3 29 == 0)
      fun _ _ => .trap (fld f.imm 0 3)
  | 0x0E => dec (mNone f) (fun _ => some ()) (fun _ => f.d == 0 && f.a == 0 && zBCI f) fun _ _ => .exit
  | 0x0F => dec (mFence f) (fun _ => some ()) (fun _ => f.d == 0 && f.a == 0 && zBCI f) fun m _ => .fence m.1 m.2
  | 0x10 => dec (mPt true f) (fun m => sopOf st m.1 f) (fun m => f.d == 0 && f.a == 0 && f.c == 0 && opZ m.1 f)
      fun m b => .rdvi m.2 b
  | 0x11 => dec (mPt false f) (fun _ => some ()) (fun _ => f.d == 0 && f.a == 0 && zBCI f) fun m _ => .rdva m.2
  | 0x12 => dec (mPt false f) (fun _ => prdOf f.d) (fun _ => f.a == 0 && zBCI f) fun m d => .rdvw m.2 d
  | 0x13 => dec (mPt false f) (fun _ => prdOf f.d) (fun _ => f.a == 0 && zBCI f) fun m d => .rdvt m.2 d
  | _ => .error .illegalOpc

/-- C-stream opcodes (R59). -/
def decC (f : Fields) : Except Cause Instr :=
  match f.opc with
  | 0x20 => dSalu f .add
  | 0x21 => dSalu f .sub
  | 0x22 => dSalu f .mul
  | 0x23 => dSaluU f .mulh
  | 0x24 => dSaluU f .div
  | 0x25 => dSaluU f .rem
  | 0x26 => dSalu f .and
  | 0x27 => dSalu f .or
  | 0x28 => dSalu f .xor
  | 0x29 => dSalu f .andn
  | 0x2A => dSalu f .shl
  | 0x2B => dSalu f .shr
  | 0x2C => dSalu f .sra
  | 0x2D => dSalu f .rol
  | 0x2E => dSaluU f .min
  | 0x2F => dSaluU f .max
  | 0x30 => dSa f (zBCI f) .clz
  | 0x31 => dSa f (zBCI f) .popc
  | 0x32 => dec (mI f) (fun i => two (three (sDstOf f.d) (scalOf .c f.a) (sopOf .c i f)) (prdOf f.c)) (fun i => opZ i f)
      fun _ ((d, a, b), c) => .sel d a b c
  | 0x33 => dec (mScmp Cond.int f) (fun m => three (prdOf f.d) (scalOf .c f.a) (sopOf .c m.1 f))
      (fun m => f.c == 0 && opZ m.1 f) fun m (d, a, b) => .cmp m.2 d a b
  | 0x34 => dec (mNone f) (fun _ => sDstOf f.d) (fun _ => f.a == 0) fun _ d => .movi d f.imm48
  | 0x35 => dec (mNone f) (fun _ => sDstOf f.d) (fun _ => f.a == 0 && zBC f && fld f.imm 16 16 == 0)
      fun _ d => .movhi d (fld f.imm 0 16)
  | 0x36 => dSa f (zBC f && fld f.imm 15 17 == 0 && fld f.imm 6 2 == 0)
      fun d a => .bext (bit f.imm 14) d a (fld f.imm 8 6) (fld f.imm 0 6)
  | 0x37 => dSa f (zBC f && fld f.imm 14 18 == 0 && fld f.imm 6 2 == 0)
      fun d a => .bins d a (fld f.imm 8 6) (fld f.imm 0 6)
  | 0x38 => dec (mSfp f) (fun m => three (sDstOf f.d) (scalOf .c f.a) (sopOf .c m.1 f)) (fun m => f.c == 0 && opZ m.1 f)
      fun m (d, a, b) => .fadd m.2 d a b
  | 0x39 => dec (mSfp f) (fun m => three (sDstOf f.d) (scalOf .c f.a) (sopOf .c m.1 f)) (fun m => f.c == 0 && opZ m.1 f)
      fun m (d, a, b) => .fmul m.2 d a b
  | 0x3A => dec (mSfp f) (fun m => two (three (sDstOf f.d) (scalOf .c f.a) (sopOf .c m.1 f)) (scalOf .c f.c))
      (fun m => opZ m.1 f) fun m ((d, a, b), c) => .ffma m.2 d a b c
  | 0x3B => dec (mScmp Cond.fp f) (fun m => three (prdOf f.d) (scalOf .c f.a) (sopOf .c m.1 f))
      (fun m => f.c == 0 && opZ m.1 f) fun m (d, a, b) => .fcmp m.2 d a b
  | 0x3C => dec (mCvt Ty.fcvt f) (fun _ => two (sDstOf f.d) (scalOf .c f.a)) (fun _ => zBCI f)
      fun m (d, a) => .fcvt m.1 m.2.1 m.2.2.1 m.2.2.2 d a
  | 0x3D => dSaluU f .fmnx
  | 0x3E => dSa f (zBC f) fun d a => .sld d a f.imm
  | 0x3F => dec (mNone f) (fun _ => two (scalOf .c f.a) (scalOf .c f.b)) (fun _ => f.d == 0 && f.c == 0)
      fun _ (a, b) => .sst a b f.imm
  | 0x40 => dec (mNone f) (fun _ => some ()) (fun _ => f.d == 0 && f.a == 0 && zBC f && fld f.imm 12 20 == 0)
      fun _ _ => .trig (fld f.imm 8 4) (fld f.imm 0 8)
  | 0x50 => dec (mBit f) (fun rg => if rg then (scalOf .c f.a).map .reg else some (.imm f.imm48))
      (fun rg => f.d == 0 && (if rg then f.imm48 == 0 else f.a == 0 && f.b == 0)) fun _ w => .awin w
  | 0x51 => dec (mAmode f) (fun _ => some ()) (fun _ => f.d == 0 && f.a == 0 && zBCI f) fun m _ => .amode m.1 m.2
  | 0x52 => dec (mAdmit f) (fun m => if m.1 then (scalOf .c f.a).map .reg else some (.cnt f.cnt))
      (fun m => f.d == 0 && f.off == 0 && (if m.1 then f.cnt == 0 else f.a == 0)) fun m n => .admitWork m.2.2 m.2.1 n
  | 0x53 => dec (mSeat f) (fun _ => some ()) (fun _ => f.d == 0 && f.a == 0 && zBCI f) fun m _ => .seat m.1 m.2
  | 0x54 => dec (mBit f) (fun _ => some ()) (fun _ => f.d == 0 && f.a == 0 && zBCI f) fun m _ => .lift m
  | 0x55 => dec (mBit f) (fun _ => some ()) (fun _ => f.d == 0 && f.a == 0 && zBC f && fld f.imm 16 16 == 0)
      fun m _ => .acclr m (fld f.imm 0 16)
  | 0x56 => dec (mBit f) (fun _ => some ()) (fun _ => f.d == 0 && f.a == 0 && zBCI f) fun m _ => .acnorm m
  | 0x59 => dSa f (zBC f) fun d a => .frzrd d a f.imm
  | 0x5A => dec (mNone f) (fun _ => two (scalOf .c f.a) (scalOf .c f.b)) (fun _ => f.d == 0 && f.c == 0)
      fun _ (a, b) => .frzwr a b f.imm
  | 0x5B => dec (mNone f) (fun _ => some ()) (fun _ => f.d == 0 && f.a == 0 && zBCI f) fun _ _ => .resume
  | 0x5C => dec (mNone f) (fun _ => scalOf .c f.a) (fun _ => f.d == 0 && zBCI f) fun _ a => .stow a
  | 0x5D => dec (mNone f) (fun _ => scalOf .c f.a) (fun _ => f.d == 0 && zBCI f) fun _ a => .unstow a
  | 0x5E => dec (mTurn f) (fun m => if m.1 then (scalOf .c f.a).map some else some none)
      (fun m => f.d == 0 && (m.1 || f.a == 0) && zBC f && fld f.imm 7 25 == 0 && fld f.imm 4 3 < 6)
      fun m t => .turn m.2.2 m.2.1 t (fld f.imm 4 3) (fld f.imm 0 4)
  | 0x5F => dec (mNone f) (fun _ => sDstOf f.d)
      (fun _ => f.a == 0 && zBC f && fld f.imm 7 25 == 0 && fld f.imm 4 3 < 6 && !bit f.imm 3)
      fun _ d => .laneq d (fld f.imm 4 3) (fld f.imm 0 3)
  | _ => .error .illegalOpc

/-- Zero C and a0's code for it: only `.cas` takes C (R60). -/
def casOf (op : AmoOp) (f : Fields) : Option Scal := if op == .cas then scalOf .s f.c else some (.reg 0)

/-- L- and S-stream opcodes (R60). -/
def decLS (st : Strm) (f : Fields) : Except Cause Instr :=
  match f.opc with
  | 0x70 => dAalu st f .aadd
  | 0x71 => dAalu st f .asub
  | 0x72 => dAalu st f .amul
  | 0x73 => dec (mNone f) (fun _ => aDstOf f.d) (fun _ => f.a == 0) fun _ d => .amovi d f.imm48
  | 0x74 => dAalu st f .ashl
  | 0x75 => dAalu st f .aand
  | 0x76 => dec (mScmp Cond.int f) (fun m => three (prdOf f.d) (scalOf st f.a) (sopOf st m.1 f))
      (fun m => f.c == 0 && opZ m.1 f) fun m (d, a, b) => .acmp m.2 d a b
  | 0x78 => dLdb f .bld
  | 0x79 => dLdb f .bldb
  | 0x7A => dLdb f .bldc
  | 0x7B => dec (mNone f) (fun _ => two (aDstOf f.d) (scalOf .l f.a)) (fun _ => zBC f) fun _ (d, a) => .ald d a f.imm
  | 0x7C => dec (mNone f) (fun _ => two (queOf f.d) (scalOf .l f.a)) (fun _ => zBC f)
      fun _ (q, a) => .fqpush q a (fld f.imm 28 4) (fld f.imm 22 6) (fld f.imm 0 22)
  | 0x7D => dec (mNone f) (fun _ => two (vecOf f.d) (queOf f.a)) (fun _ => zBCI f) fun _ (d, q) => .fqpop d q
  | 0x7E => dec (mHaul f) (fun _ => three (scalOf .l f.d) (scalOf .l f.a) (scalOf .l f.b))
      (fun _ => f.c == 0 && f.imm == 0) fun m (d, a, b) => .haul m.1 m.2.1 m.2.2 d a b
  | 0x80 => dec (mNone f) (fun _ => two (edgOf f.d) (scalOf .l f.a)) (fun _ => zBC f) fun _ (e, a) => .edgeset e a f.imm
  | 0x81 => dec (mNone f) (fun _ => some ()) (fun _ => f.d == 0 && f.a == 0 && zBC f) fun _ _ => .bufdecl f.imm
  | 0x82 => dec (mBufset f) (fun _ => some ()) (fun _ => f.d == 0 && f.a == 0 && zBC f && fld f.imm 4 28 == 0)
      fun m _ => .bufset m (fld f.imm 0 4)
  | 0x83 => dec (mNone f) (fun _ => some ())
      (fun _ => f.d == 0 && f.a == 0 && zBC f && fld f.imm 19 13 == 0 && fld f.imm 11 5 == 0)
      fun _ _ => .bankfmt (fld f.imm 16 3) (fld f.imm 7 4) (fld f.imm 0 7)
  | 0x84 => dec (mLdb f) (fun _ => two (vecOf f.d) (scalOf .l f.a)) (fun _ => zBC f && fld f.imm 4 28 == 0)
      fun nr (d, a) => .rld nr d a (fld f.imm 0 4)
  | 0x90 => dec (mLdb f) (fun _ => two (scalOf .s f.a) (vecOf f.b)) (fun _ => f.d == 0 && f.c == 0 && fld f.imm 4 4 == 0)
      fun nr (a, b) => .bst nr a b (fld f.imm 8 24) (fld f.imm 0 4)
  | 0x91 => dec (mNone f) (fun _ => two (scalOf .s f.a) (scalOf .s f.b)) (fun _ => f.d == 0 && f.c == 0)
      fun _ (a, b) => .ast a b f.imm
  | 0x92 => dec (mNone f) (fun _ => two (scalOf .s f.a) (vecOf f.b)) (fun _ => f.d == 0 && f.c == 0)
      fun _ (a, b) => .fst a b (fld f.imm 28 4) (fld f.imm 22 6) (fld f.imm 0 22)
  | 0x93 => dec (mAmo f) (fun op => two (queOf f.d) (three (scalOf .s f.a) (scalOf .s f.b) (casOf op f)))
      (fun op => f.imm == 0 && (op == .cas || f.c == 0)) fun op (q, a, b, c) => .amo op q a b c
  | 0x94 => dec (mAmo f) (fun op => three (scalOf .s f.a) (scalOf .s f.b) (casOf op f))
      (fun op => f.d == 0 && f.imm == 0 && (op == .cas || f.c == 0)) fun op (a, b, c) => .amon op a b c
  | 0x95 => dec (mAmo f) (fun op => two (queOf f.d) (three (scalOf .s f.a) (scalOf .s f.b) (casOf op f)))
      (fun op => f.imm == 0 && (op == .cas || f.c == 0)) fun op (q, a, b, c) => .amosc op q a b c
  | 0x97 => dec (mLdb f) (fun _ => two (scalOf .s f.a) (vecOf f.b)) (fun _ => f.d == 0 && f.c == 0 && fld f.imm 4 28 == 0)
      fun nr (a, b) => .rst nr a b (fld f.imm 0 4)
  | _ => .error .illegalOpc

/-- X-stream opcodes (R61). -/
def decX (f : Fields) : Except Cause Instr :=
  match f.opc with
  | 0xB0 => dVa3 arithOk f .vadd
  | 0xB1 => dVa3 arithOk f .vsub
  | 0xB2 => dVa3 arithOk f .vmul
  | 0xB3 => dec (mVa true (fun t _ s => t == .f32 && !s) f)
      (fun m => two (three (vecOf f.d) (vecOf f.a) (vopOf m.1 f)) (vecOf f.c)) (fun m => opZ m.1 f)
      fun m ((d, a, b), c) => .vfma m.2.2.1 m.2.1 d a b c
  | 0xB4 => dVa3 (fun t r s => t.int32 && r == .rne && !s) f fun t _ _ m d a b => .vmin t m d a b
  | 0xB5 => dVa3 (fun t r s => t.int32 && r == .rne && !s) f fun t _ _ m d a b => .vmax t m d a b
  | 0xB6 => dVa2 (fun t r s => absOk t s && r == .rne) f fun t _ s m d a => .vabs t s m d a
  | 0xB7 => dVa2 (fun t r s => absOk t s && r == .rne) f fun t _ s m d a => .vneg t s m d a
  | 0xB8 => dec (mVc f) (fun m => three (mskOf f.d) (vecOf f.a) (vopOf m.1 f)) (fun m => f.c == 0 && opZ m.1 f)
      fun m (d, a, b) => .vcmp m.2.2.2 m.2.1 m.2.2.1 d a b
  | 0xB9 => dVx3 f .vsel
  | 0xBA => dVx2 f .vmov
  | 0xBB => dec (mVa true (fun t r s => t.int32 && r == .rne && !s) f) (fun m => two (vecOf f.d) (sopOf .x m.1 f))
      (fun m => f.a == 0 && f.c == 0 && opZ m.1 f) fun m (d, b) => .vsplat m.2.2.2.2 m.2.1 d b
  | 0xBC => dVx3 f .vand
  | 0xBD => dVx3 f .vor
  | 0xBE => dVx3 f .vxor
  | 0xBF => dVx3 f .vshl
  | 0xC0 => dVx3 f .vshr
  | 0xC1 => dVx3 f .vsra
  | 0xC2 => dec (mCvt Ty.vcvt f) (fun _ => two (vecOf f.d) (vecOf f.a)) (fun _ => zBCI f)
      fun m (d, a) => .vcvt m.1 m.2.1 m.2.2.1 m.2.2.2 d a
  | 0xC3 => dec (mVq true f) (fun _ => three (vecOf f.d) (vecOf f.a) (vecOf f.c)) (fun _ => f.b == 0 && f.imm == 0)
      fun m (d, a, c) => .vqnt m.2.2 m.2.1 m.1 d a c
  | 0xC4 => dec (mVq false f) (fun _ => three (vecOf f.d) (vecOf f.a) (vecOf f.b)) (fun _ => f.c == 0 && f.imm == 0)
      fun m (d, a, b) => .vdqnt m.2.2 m.1 d a b
  | 0xC5 => dec (mWid f) (fun _ => two (vecOf f.d) (vecOf f.a)) (fun _ => zBCI f) fun w (d, a) => .vpack w d a
  | 0xC6 => dec (mWid f) (fun _ => two (vecOf f.d) (vecOf f.a)) (fun _ => zBCI f) fun w (d, a) => .vunpk w d a
  | 0xC7 => dVx3n 6 f .vrotr
  | 0xC8 => dVx3n 4 f .vrotc
  | 0xC9 => dVx3n 6 f .vbcr
  | 0xCA => dVx3n 4 f .vbcc
  | 0xCB => dec (mVred f) (fun _ => two (vecOf f.d) (vecOf f.a)) (fun _ => zBCI f)
      fun m (d, a) => .vredr m.2.2.1 m.2.2.2 m.2.1 m.1 d a
  | 0xCC => dec (mVred f) (fun _ => two (vecOf f.d) (vecOf f.a)) (fun _ => zBCI f)
      fun m (d, a) => .vredc m.2.2.1 m.2.2.2 m.2.1 m.1 d a
  | 0xCD => dVx2 f .vtrn
  | 0xCE => dVa2 onlyF32 f fun _ _ _ m d a => .vexp2 m d a
  | 0xCF => dVa2 onlyF32 f fun _ _ _ m d a => .vlog2 m d a
  | 0xD0 => dVa2 onlyF32 f fun _ _ _ m d a => .vrcp m d a
  | 0xD1 => dVa2 onlyF32 f fun _ _ _ m d a => .vrsq m d a
  | 0xD2 => dVa2 onlyF32 f fun _ _ _ m d a => .vtanh m d a
  | 0xD3 => dec (mVa false onlyF32 f) (fun _ => three (vecOf f.d) (vecOf f.a) (vecOf f.c)) (fun _ => f.b == 0 && f.imm == 0)
      fun m (d, a, c) => .vsincos m.2.1 d a c
  | 0xD4 => dVa2 (fun t _ _ => rndOk t) f .vrnd
  | 0xD5 => dVx3n 16 f .vdrop
  | 0xD6 => dec (mTt f) (fun _ => three (mskOf f.d) (mskOf f.a) (mskOf f.b)) (fun _ => f.c == 0 && f.imm == 0)
      fun tt (d, a, b) => .mop tt d a b
  | 0xD7 => dec (mBit f) (fun _ => vecOf f.d) (fun _ => f.a == 0 && zBCI f) fun m d => .vidx m d
  | 0xD8 => dec (mNone f) (fun _ => two (lanOf f.d) (vecOf f.a))
      (fun _ => zBC f && fld f.imm 15 17 == 0 && fld f.imm 4 4 == 0)
      fun _ (l, a) => .rdrv l a (fld f.imm 8 7) (fld f.imm 0 4)
  | 0xD9 => dec (mNone f) (fun _ => two (vecOf f.d) (lanOf f.a)) (fun _ => zBC f && fld f.imm 4 28 == 0)
      fun _ (d, l) => .rtap d l (fld f.imm 0 4)
  | 0xDA => dec (mCav f) (fun _ => three (vecOf f.d) (vecOf f.a) (tspOf f.b))
      (fun _ => f.c == 0 && fld f.imm 15 17 == 0 && fld f.imm 4 4 == 0)
      fun m (d, a, b) => .cav m.1 m.2 d a b (fld f.imm 8 7) (fld f.imm 0 4)
  | 0xDB => dec (mCav f) (fun _ => two (vecOf f.d) (vecOf f.a)) (fun _ => zBC f && fld f.imm 4 28 == 0)
      fun m (d, a) => .cavd m.1 m.2 d a (fld f.imm 0 4)
  | 0xDC => dec (mAcrd f) (fun _ => vecOf f.d)
      (fun _ => f.a == 0 && zBC f && fld f.imm 9 23 == 0 && fld f.imm 5 3 == 0)
      fun m d => .acrd m.1 m.2.1 m.2.2 d (bit f.imm 8) (bit f.imm 4) (fld f.imm 0 4)
  | 0xDD => dec (mAcwr f) (fun _ => vecOf f.a) (fun _ => f.d == 0 && zBC f && fld f.imm 5 27 == 0)
      fun m a => .acwr m a (bit f.imm 4) (fld f.imm 0 4)
  | 0xDE => dec (mNone f) (fun _ => some ())
      (fun _ => f.d == 0 && f.a == 0 && zBC f && fld f.imm 5 27 == 0 && fld f.imm 0 5 < 17)
      fun _ _ => .rotset (fld f.imm 0 5)
  | 0xDF => dVx2 f .vfclass
  | _ => .error .illegalOpc

/-- The instruction of a word's fields, after checks 1 to 3. -/
def decodeFields (st : Strm) (f : Fields) : Except Cause Instr :=
  if f.opc < 0x20 then decCommon st f
  else if f.opc < 0x70 then decC f
  else if f.opc < 0xB0 then decLS st f
  else decX f

/-- All six checks of R62 in order, on a word issued by stream `st`. -/
def decodeWord (st : Strm) (w : W96) : Except Cause Instr :=
  match opcStreams (fieldsOf w).opc with
  | none => .error .illegalOpc
  | some sts =>
    if !sts.contains st then .error .wrongStream
    else if wordGrd w == 8 then .error .illegalGuard
    else decodeFields st (fieldsOf w)

/-- The instruction read from a word whose bits are `w`: the first of the streams C, L, S, X in which it is one (DESIGN CHOICE, log 31). -/
def decodeTableWord (nbits w : Nat) : Option Instr :=
  if nbits > 96 then none
  else
    let x : W96 := BitVec.ofNat 96 (w % 2 ^ nbits)
    match decodeWord .c x, decodeWord .l x, decodeWord .s x, decodeWord .x x with
    | .ok i, _, _, _ => some i
    | _, .ok i, _, _ => some i
    | _, _, .ok i, _ => some i
    | _, _, _, .ok i => some i
    | _, _, _, _ => none

-- ## The encoder

/-- MOD[11], B and IMM of a scalar `b|imm` (R47). -/
def sopEnc : SOp → Bool × Byte × W32
  | .r x => (false, scalCode x, 0)
  | .i v => (true, 0, v)

/-- MOD[11], B and IMM of a vector `b|imm`. -/
def vopEnc : VOp → Bool × Byte × W32
  | .r x => (false, vecCode x, 0)
  | .i v => (true, 0, v)

/-- Format T with the fields given. -/
def fT (opc : Byte) (mod : BitVec 12) (d a b c : Byte) (imm : W32) : Fields :=
  { opc := opc, mod := mod, d := d, a := a, b := b, c := c, imm := imm }

/-- Format W. -/
def fW (opc : Byte) (mod : BitVec 12) (d a : Byte) (v : BitVec 48) : Fields :=
  { opc := opc, mod := mod, d := d, a := a, b := fld v 40 8, c := fld v 32 8, imm := fld v 0 32 }

/-- Format K. -/
def fK (opc : Byte) (mod : BitVec 12) (d a : Byte) (cnt off : BitVec 24) : Fields :=
  { opc := opc, mod := mod, d := d, a := a, b := fld cnt 16 8, c := fld cnt 8 8, imm := fld cnt 0 8 ++ off }

def eSop (opc : Byte) (lo : BitVec 11) (d a : Byte) (b : SOp) (c : Byte) : Fields :=
  let e := sopEnc b
  fT opc (b1 e.1 ++ lo) d a e.2.1 c e.2.2

def eVop (opc : Byte) (lo : BitVec 11) (d a : Byte) (b : VOp) (c : Byte) : Fields :=
  let e := vopEnc b
  fT opc (b1 e.1 ++ lo) d a e.2.1 c e.2.2

/-- MOD[10:0] of layout VA. -/
def va (mask : BitVec 3) (rnd : Rnd) (sat : Bool) (ty : Ty) : BitVec 11 := mask ++ rndCode rnd ++ b1 sat ++ tyCode ty
/-- MOD[10:0] of layout VX. -/
def vx (mask : BitVec 3) : BitVec 11 := mask ++ 0#8
/-- MOD of layout CVT. -/
def cvtMod (src dst : Ty) (rnd : Rnd) (sat : Bool) : BitVec 12 := tyCode src ++ rndCode rnd ++ b1 sat ++ tyCode dst
/-- IMM of the bank forms (R136). -/
def ldbImm (roff : BitVec 24) (vrow : BitVec 4) : W32 := roff ++ 0#4 ++ vrow
/-- IMM of FQPUSH and FST (R101). -/
def farImm (row : BitVec 4) (nw : BitVec 6) (off : BitVec 22) : W32 := row ++ nw ++ off

/-- The fields of an instruction's word (R46 to R61); the part's other steps have no word and give NOP's. -/
def encodeFields : Instr → Fields
  | .waitc n => fK 0x01 0 0 0 n 0
  | .pbr d t => match t with
    | .off o => fK 0x02 0 (btrCode d) 0 0 o
    | .ind a => fK 0x02 1 (btrCode d) (scalCode a) 0 0
  | .br a => fT 0x03 0 0 (btrCode a) 0 0 0
  | .call a => fT 0x04 0 0 (btrCode a) 0 0 0
  | .ret => fT 0x05 0 0 0 0 0 0
  | .loop rot n off => match n with
    | .cnt k => fK 0x06 (0#11 ++ b1 rot) 0 0 k off
    | .reg a => fK 0x06 (1#11 ++ b1 rot) 0 (scalCode a) 0 off
  | .align late t => match t with
    | .imm v => fW 0x08 (0#11 ++ b1 late) 0 0 v
    | .reg a v => fW 0x08 (1#11 ++ b1 late) 0 (scalCode a) v
  | .cairn v => fW 0x09 0 0 0 v
  | .qop tt d a b => fT 0x0A (0#8 ++ tt) (prdCode d) (prdCode a) (prdCode b) 0 0
  | .csrr d n => fT 0x0B 0 (csrCode d) 0 0 0 (0#20 ++ n)
  | .csrw a n => fT 0x0C 0 0 (csrCode a) 0 0 (0#20 ++ n)
  | .trap n => fT 0x0D 0 0 0 0 0 (0#29 ++ n)
  | .exit => fT 0x0E 0 0 0 0 0 0
  | .fence s c => fT 0x0F (0#8 ++ fsetCode s ++ fscopeCode c) 0 0 0 0 0
  | .rdvi pt b => eSop 0x10 (0#6 ++ pt) 0 0 b 0
  | .rdva pt => fT 0x11 (0#7 ++ pt) 0 0 0 0 0
  | .rdvw pt d => fT 0x12 (0#7 ++ pt) (prdCode d) 0 0 0 0
  | .rdvt pt d => fT 0x13 (0#7 ++ pt) (prdCode d) 0 0 0 0
  | .add d a b => eSop 0x20 0 (sCode d) (scalCode a) b 0
  | .sub d a b => eSop 0x21 0 (sCode d) (scalCode a) b 0
  | .mul d a b => eSop 0x22 0 (sCode d) (scalCode a) b 0
  | .mulh u d a b => eSop 0x23 (0#10 ++ b1 u) (sCode d) (scalCode a) b 0
  | .div u d a b => eSop 0x24 (0#10 ++ b1 u) (sCode d) (scalCode a) b 0
  | .rem u d a b => eSop 0x25 (0#10 ++ b1 u) (sCode d) (scalCode a) b 0
  | .and d a b => eSop 0x26 0 (sCode d) (scalCode a) b 0
  | .or d a b => eSop 0x27 0 (sCode d) (scalCode a) b 0
  | .xor d a b => eSop 0x28 0 (sCode d) (scalCode a) b 0
  | .andn d a b => eSop 0x29 0 (sCode d) (scalCode a) b 0
  | .shl d a b => eSop 0x2A 0 (sCode d) (scalCode a) b 0
  | .shr d a b => eSop 0x2B 0 (sCode d) (scalCode a) b 0
  | .sra d a b => eSop 0x2C 0 (sCode d) (scalCode a) b 0
  | .rol d a b => eSop 0x2D 0 (sCode d) (scalCode a) b 0
  | .min u d a b => eSop 0x2E (0#10 ++ b1 u) (sCode d) (scalCode a) b 0
  | .max u d a b => eSop 0x2F (0#10 ++ b1 u) (sCode d) (scalCode a) b 0
  | .clz d a => fT 0x30 0 (sCode d) (scalCode a) 0 0 0
  | .popc d a => fT 0x31 0 (sCode d) (scalCode a) 0 0 0
  | .sel d a b c => eSop 0x32 0 (sCode d) (scalCode a) b (prdCode c)
  | .cmp cond d a b => eSop 0x33 (0#7 ++ condCode cond) (prdCode d) (scalCode a) b 0
  | .movi d v => fW 0x34 0 (sCode d) 0 v
  | .movhi d v => fT 0x35 0 (sCode d) 0 0 0 (0#16 ++ v)
  | .bext sx d a wm1 p => fT 0x36 0 (sCode d) (scalCode a) 0 0 (0#17 ++ b1 sx ++ wm1 ++ 0#2 ++ p)
  | .bins d a wm1 p => fT 0x37 0 (sCode d) (scalCode a) 0 0 (0#18 ++ wm1 ++ 0#2 ++ p)
  | .fadd r d a b => eSop 0x38 (0#3 ++ rndCode r ++ 0#5) (sCode d) (scalCode a) b 0
  | .fmul r d a b => eSop 0x39 (0#3 ++ rndCode r ++ 0#5) (sCode d) (scalCode a) b 0
  | .ffma r d a b c => eSop 0x3A (0#3 ++ rndCode r ++ 0#5) (sCode d) (scalCode a) b (scalCode c)
  | .fcmp cond d a b => eSop 0x3B (0#7 ++ condCode cond) (prdCode d) (scalCode a) b 0
  | .fcvt src dst rnd sat d a => fT 0x3C (cvtMod src dst rnd sat) (sCode d) (scalCode a) 0 0 0
  | .fmnx mx d a b => eSop 0x3D (0#10 ++ b1 mx) (sCode d) (scalCode a) b 0
  | .sld d a v => fT 0x3E 0 (sCode d) (scalCode a) 0 0 v
  | .sst a b v => fT 0x3F 0 0 (scalCode a) (scalCode b) 0 v
  | .trig h c => fT 0x40 0 0 0 0 0 (0#20 ++ h ++ c)
  | .awin w => match w with
    | .imm v => fW 0x50 0 0 0 v
    | .reg a => fW 0x50 1 0 (scalCode a) 0
  | .amode m g => fT 0x51 (0#8 ++ gnanCode g ++ fimgCode m) 0 0 0 0 0
  | .admitWork k pane m => match m with
    | .cnt n => fK 0x52 (0#10 ++ b1 pane ++ b1 (k == .bwd)) 0 0 n 0
    | .reg a => fK 0x52 (1#10 ++ b1 pane ++ b1 (k == .bwd)) 0 (scalCode a) 0 0
  | .seat m pane => fT 0x53 (0#8 ++ imgCode m ++ b1 pane ++ 0#1) 0 0 0 0 0
  | .lift clr => fT 0x54 (0#11 ++ b1 clr) 0 0 0 0 0
  | .acclr n base => fT 0x55 (0#11 ++ b1 n) 0 0 0 0 (0#16 ++ base)
  | .acnorm n => fT 0x56 (0#11 ++ b1 n) 0 0 0 0 0
  | .frzrd d a v => fT 0x59 0 (sCode d) (scalCode a) 0 0 v
  | .frzwr a b v => fT 0x5A 0 0 (scalCode a) (scalCode b) 0 v
  | .resume => fT 0x5B 0 0 0 0 0 0
  | .stow a => fT 0x5C 0 0 (scalCode a) 0 0 0
  | .unstow a => fT 0x5D 0 0 (scalCode a) 0 0 0
  | .turn dn timed at_ link group =>
    fT 0x5E (0#9 ++ b1 at_.isSome ++ b1 timed ++ b1 dn) 0 (match at_ with
      | none => 0
      | some a => scalCode a) 0 0 (0#25 ++ link ++ group)
  | .laneq d link e => fT 0x5F 0 (sCode d) 0 0 0 (0#25 ++ link ++ 0#1 ++ e)
  | .aadd d a b => eSop 0x70 0 (sCode d) (scalCode a) b 0
  | .asub d a b => eSop 0x71 0 (sCode d) (scalCode a) b 0
  | .amul d a b => eSop 0x72 0 (sCode d) (scalCode a) b 0
  | .amovi d v => fW 0x73 0 (sCode d) 0 v
  | .ashl d a b => eSop 0x74 0 (sCode d) (scalCode a) b 0
  | .aand d a b => eSop 0x75 0 (sCode d) (scalCode a) b 0
  | .acmp cond d a b => eSop 0x76 (0#7 ++ condCode cond) (prdCode d) (scalCode a) b 0
  | .bld nr d a roff vrow => fT 0x78 (0#8 ++ nr) (vecCode d) (scalCode a) 0 0 (ldbImm roff vrow)
  | .bldb nr d a roff vrow => fT 0x79 (0#8 ++ nr) (vecCode d) (scalCode a) 0 0 (ldbImm roff vrow)
  | .bldc nr d a roff vrow => fT 0x7A (0#8 ++ nr) (vecCode d) (scalCode a) 0 0 (ldbImm roff vrow)
  | .ald d a v => fT 0x7B 0 (sCode d) (scalCode a) 0 0 v
  | .fqpush q a row nw off => fT 0x7C 0 (queCode q) (scalCode a) 0 0 (farImm row nw off)
  | .fqpop d q => fT 0x7D 0 (vecCode d) (queCode q) 0 0 0
  | .haul af pt rnd d a b =>
    fT 0x7E (b1 af ++ b1 pt.isSome ++ pt.getD 0 ++ rndCode rnd ++ 0#2) (scalCode d) (scalCode a) (scalCode b) 0 0
  | .edgeset e a v => fT 0x80 0 (edgCode e) (scalCode a) 0 0 v
  | .bufdecl v => fT 0x81 0 0 0 0 0 v
  | .bufset full bd => fT 0x82 (0#10 ++ b1 full ++ 0#1) 0 0 0 0 (0#28 ++ bd)
  | .bankfmt bank ty srow => fT 0x83 0 0 0 0 0 (0#13 ++ bank ++ 0#5 ++ ty ++ srow)
  | .rld nr d a vrow => fT 0x84 (0#8 ++ nr) (vecCode d) (scalCode a) 0 0 (0#28 ++ vrow)
  | .bst nr a b roff vrow => fT 0x90 (0#8 ++ nr) 0 (scalCode a) (vecCode b) 0 (ldbImm roff vrow)
  | .ast a b v => fT 0x91 0 0 (scalCode a) (scalCode b) 0 v
  | .fst a b row nw off => fT 0x92 0 0 (scalCode a) (vecCode b) 0 (farImm row nw off)
  | .amo op q a b c => fT 0x93 (0#8 ++ amoOpCode op) (queCode q) (scalCode a) (scalCode b) (scalCode c) 0
  | .amon op a b c => fT 0x94 (0#8 ++ amoOpCode op) 0 (scalCode a) (scalCode b) (scalCode c) 0
  | .amosc op q a b c => fT 0x95 (0#8 ++ amoOpCode op) (queCode q) (scalCode a) (scalCode b) (scalCode c) 0
  | .rst nr a b vrow => fT 0x97 (0#8 ++ nr) 0 (scalCode a) (vecCode b) 0 (0#28 ++ vrow)
  | .vadd ty rnd sat m d a b => eVop 0xB0 (va m rnd sat ty) (vecCode d) (vecCode a) b 0
  | .vsub ty rnd sat m d a b => eVop 0xB1 (va m rnd sat ty) (vecCode d) (vecCode a) b 0
  | .vmul ty rnd sat m d a b => eVop 0xB2 (va m rnd sat ty) (vecCode d) (vecCode a) b 0
  | .vfma rnd m d a b c => eVop 0xB3 (va m rnd false .f32) (vecCode d) (vecCode a) b (vecCode c)
  | .vmin ty m d a b => eVop 0xB4 (va m .rne false ty) (vecCode d) (vecCode a) b 0
  | .vmax ty m d a b => eVop 0xB5 (va m .rne false ty) (vecCode d) (vecCode a) b 0
  | .vabs ty sat m d a => fT 0xB6 (0#1 ++ va m .rne sat ty) (vecCode d) (vecCode a) 0 0 0
  | .vneg ty sat m d a => fT 0xB7 (0#1 ++ va m .rne sat ty) (vecCode d) (vecCode a) 0 0 0
  | .vcmp ty m cond d a b => eVop 0xB8 (m ++ condCode cond ++ tyCode ty) (mskCode d) (vecCode a) b 0
  | .vsel m d a b => eVop 0xB9 (vx m) (vecCode d) (vecCode a) b 0
  | .vmov m d a => fT 0xBA (0#1 ++ vx m) (vecCode d) (vecCode a) 0 0 0
  | .vsplat ty m d b => eSop 0xBB (va m .rne false ty) (vecCode d) 0 b 0
  | .vand m d a b => eVop 0xBC (vx m) (vecCode d) (vecCode a) b 0
  | .vor m d a b => eVop 0xBD (vx m) (vecCode d) (vecCode a) b 0
  | .vxor m d a b => eVop 0xBE (vx m) (vecCode d) (vecCode a) b 0
  | .vshl m d a b => eVop 0xBF (vx m) (vecCode d) (vecCode a) b 0
  | .vshr m d a b => eVop 0xC0 (vx m) (vecCode d) (vecCode a) b 0
  | .vsra m d a b => eVop 0xC1 (vx m) (vecCode d) (vecCode a) b 0
  | .vcvt src dst rnd sat d a => fT 0xC2 (cvtMod src dst rnd sat) (vecCode d) (vecCode a) 0 0 0
  | .vqnt fmt rnd col d a c =>
    fT 0xC3 (0#3 ++ b1 col ++ rndCode rnd ++ 0#1 ++ fmtCode fmt) (vecCode d) (vecCode a) 0 (vecCode c) 0
  | .vdqnt fmt col d a b => fT 0xC4 (0#3 ++ b1 col ++ 0#4 ++ fmtCode fmt) (vecCode d) (vecCode a) (vecCode b) 0 0
  | .vpack w d a => fT 0xC5 (0#10 ++ widCode w) (vecCode d) (vecCode a) 0 0 0
  | .vunpk w d a => fT 0xC6 (0#10 ++ widCode w) (vecCode d) (vecCode a) 0 0 0
  | .vrotr m d a b => eVop 0xC7 (vx m) (vecCode d) (vecCode a) b 0
  | .vrotc m d a b => eVop 0xC8 (vx m) (vecCode d) (vecCode a) b 0
  | .vbcr m d a b => eVop 0xC9 (vx m) (vecCode d) (vecCode a) b 0
  | .vbcc m d a b => eVop 0xCA (vx m) (vecCode d) (vecCode a) b 0
  | .vredr op ty rnd m d a =>
    fT 0xCB (0#1 ++ m ++ rndCode rnd ++ redOpCode op ++ ty2Code ty) (vecCode d) (vecCode a) 0 0 0
  | .vredc op ty rnd m d a =>
    fT 0xCC (0#1 ++ m ++ rndCode rnd ++ redOpCode op ++ ty2Code ty) (vecCode d) (vecCode a) 0 0 0
  | .vtrn m d a => fT 0xCD (0#1 ++ vx m) (vecCode d) (vecCode a) 0 0 0
  | .vexp2 m d a => fT 0xCE (0#1 ++ vx m) (vecCode d) (vecCode a) 0 0 0
  | .vlog2 m d a => fT 0xCF (0#1 ++ vx m) (vecCode d) (vecCode a) 0 0 0
  | .vrcp m d a => fT 0xD0 (0#1 ++ vx m) (vecCode d) (vecCode a) 0 0 0
  | .vrsq m d a => fT 0xD1 (0#1 ++ vx m) (vecCode d) (vecCode a) 0 0 0
  | .vtanh m d a => fT 0xD2 (0#1 ++ vx m) (vecCode d) (vecCode a) 0 0 0
  | .vsincos m d a c => fT 0xD3 (0#1 ++ vx m) (vecCode d) (vecCode a) 0 (vecCode c) 0
  | .vrnd ty rnd sat m d a => fT 0xD4 (0#1 ++ va m rnd sat ty) (vecCode d) (vecCode a) 0 0 0
  | .vdrop m d a b => eVop 0xD5 (vx m) (vecCode d) (vecCode a) b 0
  | .mop tt d a b => fT 0xD6 (0#8 ++ tt) (mskCode d) (mskCode a) (mskCode b) 0 0
  | .vidx col d => fT 0xD7 (0#11 ++ b1 col) (vecCode d) 0 0 0 0
  | .rdrv l a hops row => fT 0xD8 0 (lanCode l) (vecCode a) 0 0 (0#17 ++ hops ++ 0#4 ++ row)
  | .rtap d l row => fT 0xD9 0 (vecCode d) (lanCode l) 0 0 (0#28 ++ row)
  | .cav op slot d a b anchor vrow =>
    fT 0xDA (0#1 ++ cavOpCode op ++ 0#5 ++ slot) (vecCode d) (vecCode a) (tspCode b) 0 (0#17 ++ anchor ++ 0#4 ++ vrow)
  | .cavd op slot d a vrow =>
    fT 0xDB (0#1 ++ cavOpCode op ++ 0#5 ++ slot) (vecCode d) (vecCode a) 0 0 (0#28 ++ vrow)
  | .acrd bf16 rnd north d clr half vrow =>
    fT 0xDC (0#4 ++ rndCode rnd ++ b1 north ++ (if bf16 then 3#4 else 0#4)) (vecCode d) 0 0 0
      (0#23 ++ b1 clr ++ 0#3 ++ b1 half ++ vrow)
  | .acwr north a half vrow => fT 0xDD (0#7 ++ b1 north ++ 0#4) 0 (vecCode a) 0 0 (0#27 ++ b1 half ++ vrow)
  | .rotset dn => fT 0xDE 0 0 0 0 0 (0#27 ++ dn)
  | .vfclass m d a => fT 0xDF (0#1 ++ vx m) (vecCode d) (vecCode a) 0 0 0
  | .nop
  -- the part's other steps have no word
  | .dieCycle _ | .sectionHeader .. | .farWait _ | .alignmentWaitEnd _ | .writeLand _ | .bankPortAAccess _
  | .ringItemEntry _ | .frontAdmit _ | .edgePointerAdvance _ | .frontTransit _ | .seatCommit _ | .liftCapture _
  | .accumulatorCycle _ | .cavitySweepCheck _ | .cavitySweepDrive _ | .cavityResult _ | .cavdSweepArrival _
  | .tlbWalkRead _ | .requestDepart _ | .farAccessPerform _ | .amoscPerform _ | .wheelMarkSend _ | .wheelMarkArrive _
  | .responseArrival _ | .errorResponse _ | .haulGranuleStart _ | .haulPortBRead _ | .haulPortBWrite _ | .haulComplete _
  | .rdvaArrival _ | .arrivalCount _ | .phasePropagate _ | .rdviApply _ | .trigRelease _ | .turnEffect _ | .deadTimeEnd _
  | .packetTake | .launch _ | .graphLoad _ | .graphRun _ | .wait _ | .signal _ | .copy _ | .copyGranule _ | .stop _
  | .packetComplete _ | .planeRestore _ | .dieStart _ | .graphOperationFire _ | .graphOperationComplete _
  | .preemptionFreeze _ | .teamResume _ | .causeReport _ | .teamStowEnd _ | .teamEnd _ | .handlerEntry _ | .stowEnd _
  | .unstowEnd _ | .xinval .. | .xinvalDone _ | .xreplay .. | .didtlimWrite _ | .lanelimWrite _ | .hostRegisterWrite ..
  | .bar2Access .. | .hostEvent .. | .telemetrySample | .dbgstop _ | .debugStop _ | .dbgdataAccess _ | .dbgres _
  | .traceRecordWrite | .noiseOff .. | .noiseLive .. | .noiseLog .. | .noiseReplay .. | .rotdWrite .. | .bootGo _
  | .hubResetDeassert | .powerRemoval | .memoryControllerReset .. | .filysXLinkDown _ | .getVersion _
  | .getCapabilities _ | .negotiateAlgorithms _ | .getDigests _ | .getCertificate _ | .challenge _ | .getMeasurements _
  | .spdmUnsupportedRequest _ | .gddr7Refresh | .rowClose _ | .preemptionStowEnd _ | .filysXLinkUp ..
  | .channelDataArrival .. | .resetPinAssert =>
    fT 0x00 0 0 0 0 0 0

/-- The word of an instruction with delay `dly` and guard `grd`. -/
def encodeWith (dly : Byte) (grd : BitVec 4) (i : Instr) : W96 := wordOf dly grd (encodeFields i)

/-- The word of an instruction with no delay and the guard q0. -/
def encode (i : Instr) : W96 := encodeWith 0 0 i

end Sys2Proof
end

