-- ==== Sys2Proof/Machine/Flags.lean ====
section
/-! DEFINITION. The five sticky floating-point flags and FPCTL (R73, R74). -/

namespace Sys2Proof.Machine

/-- The events that a rounding, conversion or quantization meets (R73). -/
structure FpFlags where
  nx : Bool := false
  uf : Bool := false
  dz : Bool := false
  ov : Bool := false
  nv : Bool := false
  deriving DecidableEq, Repr

def FpFlags.none : FpFlags := {}

/-- The events of either of two operations. -/
def FpFlags.or (a b : FpFlags) : FpFlags :=
  { nx := a.nx || b.nx, uf := a.uf || b.uf, dz := a.dz || b.dz, ov := a.ov || b.ov, nv := a.nv || b.nv }

/-- FPCTL[4:0] of a set of events (R73). -/
def FpFlags.bits (a : FpFlags) : BitVec 5 := b1 a.nx ++ b1 a.uf ++ b1 a.dz ++ b1 a.ov ++ b1 a.nv

/-- The writable bits of FPCTL (R73). -/
def fpctlMask : W64 := 0x71F

/-- FPCTL with the events of a landing cycle ORed in (R73). -/
def fpctlOr (fpctl : W64) (f : FpFlags) : W64 := fpctl ||| f.bits.setWidth 64

/-- The cause of an X-stream word that meets enabled events in its landing cycle (R74). -/
def fpctlCause (fpctl : W64) (f : FpFlags) : Option Cause :=
  if f.nv && bit fpctl 8 then some .vfpInvalid
  else if f.ov && bit fpctl 9 then some .vfpOverflow
  else if f.dz && bit fpctl 10 then some .vfpDivzero
  else none

end Sys2Proof.Machine
end

