-- ==== Sys2Proof/Machine/Float.lean ====
section
/-! DEFINITION. Number formats, rounding, arithmetic, conversions, blocks (R64 to R77) and the functions of the
special-function unit (R162, R163). Every result is the exact real value rounded once. -/

namespace Sys2Proof.Machine

-- ## Formats and exact values

/-- A floating-point operand read exactly: `num neg m e` is (-1)^neg m 2^e, a zero when m = 0. -/
inductive FVal where
  | nan
  | inf (neg : Bool)
  | num (neg : Bool) (m : Nat) (e : Int)
  deriving DecidableEq, Repr

/-- A signed floating-point format: mantissa width, bias, width, largest finite magnitude, canonical NaN (R64). -/
structure FFmt where
  mb : Nat
  bias : Int
  width : Nat
  maxFin : Nat
  nan : Nat
  hasInf : Bool
  deriving DecidableEq, Repr

def fmtF32 : FFmt := { mb := 23, bias := 127, width := 32, maxFin := 0x7F7FFFFF, nan := 0x7FC00000, hasInf := true }
def fmtBf16 : FFmt := { mb := 7, bias := 127, width := 16, maxFin := 0x7F7F, nan := 0x7FC0, hasInf := true }
def fmtE5m2 : FFmt := { mb := 2, bias := 15, width := 8, maxFin := 0x7B, nan := 0x7E, hasInf := true }
def fmtE4m3 : FFmt := { mb := 3, bias := 7, width := 8, maxFin := 0x7E, nan := 0x7F, hasInf := false }

/-- The canonical FP32 NaN (R71). -/
def nan32 : W32 := 0x7FC00000

/-- The value of a bit pattern of a signed floating-point format (R64). -/
def FFmt.read (f : FFmt) (x : Nat) : FVal :=
  let neg := x / 2 ^ (f.width - 1) % 2 == 1
  let mag := x % 2 ^ (f.width - 1)
  let ex := mag / 2 ^ f.mb
  let mt := mag % 2 ^ f.mb
  if mag > f.maxFin then (if f.hasInf && mt == 0 then .inf neg else .nan)
  else if ex = 0 then .num neg mt (1 - f.bias - f.mb)
  else .num neg (2 ^ f.mb + mt) ((ex : Int) - f.bias - f.mb)

/-- The value of an E8M0 byte (R65). -/
def readE8 (x : Nat) : FVal := if x % 256 = 255 then .nan else .num false 1 (((x % 256 : Nat) : Int) - 127)

/-- Width and signedness of an integer type. -/
def intTy : Ty → Option (Nat × Bool)
  | .i32 => some (32, true) | .n32 => some (32, false) | .i8 => some (8, true) | .n8 => some (8, false)
  | .i16 => some (16, true) | .n16 => some (16, false) | _ => none

/-- The signed floating-point format of a type; E8M0 has its own rules. -/
def fltTy : Ty → Option FFmt
  | .f32 => some fmtF32 | .bf16 => some fmtBf16 | .e4m3 => some fmtE4m3 | .e5m2 => some fmtE5m2 | _ => none

def readF32 (x : W32) : FVal := fmtF32.read x.toNat

def isNan32 (x : W32) : Bool := fld x 23 8 == 0xFF && fld x 0 23 != 0

-- ## Rounding (R68 to R70)

/-- The multiple of 2^q that m 2^e rounds to, and whether it is inexact; `odd` says which multiples are odd (R68). -/
def roundAt (rnd : Rnd) (neg : Bool) (noise : Nat) (odd : Nat → Bool) (m : Nat) (e q : Int) : Nat × Bool :=
  if q ≤ e then (m * 2 ^ (e - q).toNat, false)
  else
    let sh := (q - e).toNat
    let n := m / 2 ^ sh
    let r := m % 2 ^ sh
    let up := match rnd with
      | .rne => decide (2 * r > 2 ^ sh) || (2 * r == 2 ^ sh && odd n)
      | .rtz => false
      | .rdn => r != 0 && neg
      | .rup => r != 0 && !neg
      | .rsr => decide (r * 65536 / 2 ^ sh + noise ≥ 65536)
    (if up then n + 1 else n, r != 0)

def oddNat (n : Nat) : Bool := n % 2 == 1

/-- ⌊log2 (m 2^e)⌋ of m > 0. -/
def expOf (m : Nat) (e : Int) : Int := (m.log2 : Int) + e

/-- The bits of an overflowed magnitude and whether it is a NaN (R69). -/
def overflowBits (f : FFmt) (rnd : Rnd) (sat neg : Bool) : Nat × Bool :=
  let toMax := sat || (match rnd with
    | .rne | .rsr => false
    | .rtz => true
    | .rdn => !neg
    | .rup => neg)
  if toMax then (f.maxFin, false) else if f.hasInf then (f.maxFin + 1, false) else (f.nan, true)

/-- Sign bit of a format. -/
def FFmt.signed (f : FFmt) (neg : Bool) (mag : Nat) : Nat := (if neg then 2 ^ (f.width - 1) else 0) + mag

/-- (-1)^neg m 2^e rounded to a signed floating-point format, with its events (R68, R69, R73). -/
def roundFloat (f : FFmt) (rnd : Rnd) (sat : Bool) (noise : Nat) (neg : Bool) (m : Nat) (e : Int) : Nat × FpFlags :=
  if m = 0 then (f.signed neg 0, FpFlags.none)
  else
    let ex := expOf m e
    let emin : Int := 1 - f.bias
    let q := (if ex < emin then emin else ex) - f.mb
    let r := roundAt rnd neg noise oddNat m e q
    let mag := if ex < emin then r.1 else (ex - emin).toNat * 2 ^ f.mb + r.1
    if mag > f.maxFin then
      let o := overflowBits f rnd sat neg
      (if o.2 then o.1 else f.signed neg o.1, { nx := true, ov := true, nv := o.2 })
    else
      let un := roundAt rnd neg noise oddNat m e (ex - f.mb)
      let tiny := decide (ex < emin) && !(decide (ex + 1 = emin) && un.1 == 2 ^ (f.mb + 1))
      (f.signed neg mag, { nx := r.2, uf := r.2 && tiny })

/-- A value rounded to E8M0 (R65, R68, R69, R75); an integer that is zero or negative as such a floating-point source (DEDUCED, log 93). -/
def roundE8 (rnd : Rnd) (sat : Bool) (noise : Nat) (neg : Bool) (m : Nat) (e : Int) : Nat × FpFlags :=
  if neg || m = 0 then (if sat then (0, FpFlags.none) else (0xFF, { nv := true }))
  else
    let ex := expOf m e
    if ex < -127 then (0, { nx := true, uf := true })
    else
      let r := roundAt rnd false noise (fun _ => ((ex + 127) % 2 == 1)) m e ex
      let x := (ex + 127).toNat + (r.1 - 1)
      if x > 254 then
        let toMax := sat || rnd == .rtz || rnd == .rdn
        (if toMax then 254 else 0xFF, { nx := true, ov := true, nv := !toMax })
      else (x, { nx := r.2 })

/-- The exact integer of a value rounded with u = 1 (R68). -/
def roundInt (rnd : Rnd) (noise : Nat) (neg : Bool) (m : Nat) (e : Int) : Int × Bool :=
  let r := roundAt rnd neg noise oddNat m e 0
  (if neg then -(r.1 : Int) else r.1, r.2)

/-- FP32 rounding as used by the arithmetic words. -/
def round32 (rnd : Rnd) (noise : Nat) (neg : Bool) (m : Nat) (e : Int) : W32 × FpFlags :=
  let r := roundFloat fmtF32 rnd false noise neg m e
  (BitVec.ofNat 32 r.1, r.2)

-- ## Arithmetic (R70, R71)

def inf32 (neg : Bool) : W32 := if neg then 0xFF800000 else 0x7F800000

/-- The exact sum of two finite values, rounded; an exact zero takes its IEEE sign (R70). -/
def sumNum (rnd : Rnd) (noise : Nat) (n1 : Bool) (m1 : Nat) (e1 : Int) (n2 : Bool) (m2 : Nat) (e2 : Int) : W32 × FpFlags :=
  let e := if e1 ≤ e2 then e1 else e2
  let a : Int := (m1 * 2 ^ (e1 - e).toNat : Nat)
  let b : Int := (m2 * 2 ^ (e2 - e).toNat : Nat)
  let s := (if n1 then -a else a) + (if n2 then -b else b)
  if s = 0 then
    (if (if n1 == n2 then n1 else rnd == .rdn) then 0x80000000 else 0, FpFlags.none)
  else round32 rnd noise (decide (s < 0)) s.natAbs e

/-- A NaN made by an invalid operation. -/
def invalid32 : W32 × FpFlags := (nan32, { nv := true })

/-- a + b of exact values. -/
def addV (rnd : Rnd) (noise : Nat) : FVal → FVal → W32 × FpFlags
  | .nan, _ => (nan32, FpFlags.none)
  | _, .nan => (nan32, FpFlags.none)
  | .inf n, .inf n' => if n == n' then (inf32 n, FpFlags.none) else invalid32
  | .inf n, .num .. => (inf32 n, FpFlags.none)
  | .num .., .inf n => (inf32 n, FpFlags.none)
  | .num n1 m1 e1, .num n2 m2 e2 => sumNum rnd noise n1 m1 e1 n2 m2 e2

/-- The exact product; `none` for 0 × ∞ (R71). -/
def mulV : FVal → FVal → Option FVal
  | .nan, _ => some .nan
  | _, .nan => some .nan
  | .inf n, .inf n' => some (.inf (n != n'))
  | .inf n, .num n' m _ => if m = 0 then none else some (.inf (n != n'))
  | .num n' m _, .inf n => if m = 0 then none else some (.inf (n != n'))
  | .num n1 m1 e1, .num n2 m2 e2 => some (.num (n1 != n2) (m1 * m2) (e1 + e2))

/-- An exact value rounded to FP32. -/
def toF32 (rnd : Rnd) (noise : Nat) : FVal → W32 × FpFlags
  | .nan => (nan32, FpFlags.none)
  | .inf n => (inf32 n, FpFlags.none)
  | .num n m e => round32 rnd noise n m e

def fAdd (rnd : Rnd) (noise : Nat) (a b : W32) : W32 × FpFlags := addV rnd noise (readF32 a) (readF32 b)

def fNeg (a : W32) : W32 := a ^^^ 0x80000000

def fSub (rnd : Rnd) (noise : Nat) (a b : W32) : W32 × FpFlags := fAdd rnd noise a (fNeg b)

def fMul (rnd : Rnd) (noise : Nat) (a b : W32) : W32 × FpFlags :=
  match mulV (readF32 a) (readF32 b) with
  | none => invalid32
  | some v => toF32 rnd noise v

/-- a × b + c, exact, rounded once. A NaN operand raises no flag (DEDUCED, log 44). -/
def fFma (rnd : Rnd) (noise : Nat) (a b c : W32) : W32 × FpFlags :=
  if isNan32 a || isNan32 b || isNan32 c then (nan32, FpFlags.none)
  else match mulV (readF32 a) (readF32 b) with
    | none => invalid32
    | some v => addV rnd noise v (readF32 c)

/-- A key in the numeric order of non-NaN FP32 values, -0 below +0. -/
def orderKey (a : W32) : Int := if bit a 31 then -((fld a 0 31).toNat : Int) - 1 else ((fld a 0 31).toNat : Int)

/-- minimumNumber and maximumNumber (R72). -/
def fMinMax (mx : Bool) (a b : W32) : W32 :=
  if isNan32 a then (if isNan32 b then nan32 else b)
  else if isNan32 b then a
  else if (if mx then decide (orderKey a < orderKey b) else decide (orderKey b < orderKey a)) then b else a

/-- FP compare in the FP column of R56; -0 equals +0. -/
def fCond (c : Cond) (a b : W32) : Bool :=
  let un := isNan32 a || isNan32 b
  let key (x : W32) : Int := if fld x 0 31 == 0 then 0 else if bit x 31 then -((fld x 0 31).toNat : Int) else (fld x 0 31).toNat
  let x := key a
  let y := key b
  match c with
  | .eq => !un && x == y
  | .ne => un || x != y
  | .lt => !un && decide (x < y)
  | .le => !un && decide (x ≤ y)
  | .gt => !un && decide (y < x)
  | .ge => !un && decide (y ≤ x)
  | .uo => un
  | .ord => !un
  | .ltu | .leu | .gtu | .geu => false

/-- Integer compare in the integer column of R56; `sg` false reads signed codes as unsigned (VCMP `.n32`). -/
def iCond {w : Nat} (sg : Bool) (c : Cond) (a b : BitVec w) : Bool :=
  let lt (x y : BitVec w) : Bool := if sg then x.slt y else x.ult y
  match c with
  | .eq => a == b
  | .ne => a != b
  | .lt => lt a b
  | .le => !lt b a
  | .gt => lt b a
  | .ge => !lt a b
  | .ltu => a.ult b
  | .leu => !b.ult a
  | .gtu => b.ult a
  | .geu => !a.ult b
  | .uo | .ord => false

-- ## Conversions (R75)

/-- Ends of the range of an integer type. -/
def intRange (w : Nat) (sg : Bool) : Int × Int :=
  if sg then (-(2 ^ (w - 1) : Nat), (2 ^ (w - 1) : Nat) - 1) else (0, (2 ^ w : Nat) - 1)

/-- The low w bits of a lane as an integer, extended by its signedness (R67). -/
def readInt (w : Nat) (sg : Bool) (x : W32) : Int :=
  let v := x.toNat % 2 ^ w
  if sg && decide (v ≥ 2 ^ (w - 1)) then (v : Int) - (2 ^ w : Nat) else v

/-- The value that an operand of a type has. -/
def readTy (ty : Ty) (x : W32) : FVal :=
  match fltTy ty with
  | some f => f.read (x.toNat % 2 ^ f.width)
  | none =>
    match intTy ty with
    | some (w, sg) => let v := readInt w sg x; .num (decide (v < 0)) v.natAbs 0
    | none => readE8 x.toNat

/-- A finite value to an integer type (R75); one out of range sets OF alone, not NX beside it (DESIGN CHOICE, log 76). -/
def toInt (w : Nat) (sg : Bool) (sat : Bool) (v : Int) (inexact : Bool) : W32 × FpFlags :=
  let r := intRange w sg
  if r.1 ≤ v ∧ v ≤ r.2 then (BitVec.ofInt 32 v, { nx := inexact })
  else if sat then (BitVec.ofInt 32 (if v < r.1 then r.1 else r.2), { ov := true })
  else (BitVec.ofInt 32 (if sg then r.1 else r.2), { ov := true })

/-- Integer to integer, outside the range: the low bits extended by R67. -/
def wrapInt (w : Nat) (sg : Bool) (v : Int) : W32 :=
  BitVec.ofInt 32 (readInt w sg (BitVec.ofInt 32 v))

/-- cvt(x, FROM, TO, RND, SAT) of R75, in a lane (R67; DEDUCED, log 43). -/
def cvt (src dst : Ty) (rnd : Rnd) (sat : Bool) (noise : Nat) (x : W32) : W32 × FpFlags :=
  match intTy dst with
  | some (w, sg) =>
    let r := intRange w sg
    match intTy src with
    | some (w', sg') =>
      let v := readInt w' sg' x
      if r.1 ≤ v ∧ v ≤ r.2 then (BitVec.ofInt 32 v, FpFlags.none)
      else if sat then (BitVec.ofInt 32 (if v < r.1 then r.1 else r.2), { ov := true })
      else (wrapInt w sg v, { ov := true })
    | none =>
      match readTy src x with
      | .nan => (if sat then 0 else BitVec.ofInt 32 (if sg then r.1 else r.2), { nv := true })
      | .inf n => (BitVec.ofInt 32 (if sat then (if n then r.1 else r.2) else if sg then r.1 else r.2), { ov := true })
      | .num n m e =>
        let v := roundInt rnd noise n m e
        toInt w sg sat v.1 v.2
  | none =>
    match fltTy dst with
    | some f =>
      match readTy src x with
      | .nan => (BitVec.ofNat 32 f.nan, FpFlags.none)
      | .inf n =>
        if sat then (BitVec.ofNat 32 (f.signed n f.maxFin), FpFlags.none)
        else if f.hasInf then (BitVec.ofNat 32 (f.signed n (f.maxFin + 1)), FpFlags.none)
        else (BitVec.ofNat 32 f.nan, { nv := true })
      | .num n m e => let r := roundFloat f rnd sat noise n m e; (BitVec.ofNat 32 r.1, r.2)
    | none =>
      match readTy src x with
      | .nan => (0xFF, FpFlags.none)
      | .inf n =>
        if sat then (if n then 0 else 0xFE, FpFlags.none) else (0xFF, { nv := true })
      | .num n m e => let r := roundE8 rnd sat noise n m e; (BitVec.ofNat 32 r.1, r.2)

/-- Precision in bits, least and greatest exponent of a unit or value of a type, for `cvtDraws`. -/
def tyRange : Ty → Nat × Int × Int
  | .f32 => (24, -149, 128) | .bf16 => (8, -133, 128) | .e4m3 => (4, -9, 9) | .e5m2 => (3, -16, 16)
  | .i32 => (31, 0, 31) | .n32 => (32, 0, 32) | .i16 => (15, 0, 15) | .n16 => (16, 0, 16) | .i8 => (7, 0, 7)
  | .n8 => (8, 0, 8) | _ => (1, -127, 128)

/-- A conversion that is exact for every possible operand draws no noise (R154). -/
def cvtDraws (src dst : Ty) : Bool :=
  match intTy dst with
  | some _ => (intTy src).isNone
  | none =>
    if dst == .e8m0 then true
    else
      let s := tyRange src
      let d := tyRange dst
      decide (s.1 > d.1) || decide (s.2.1 < d.2.1) || decide (s.2.2 > d.2.2) || (!(dst == .f32 || dst == .bf16) && src != .e8m0 && (intTy src).isNone && !(src == dst))

/-- A result of FCVT in a 64-bit register (R67). -/
def place64 (ty : Ty) (x : W32) : W64 :=
  match intTy ty with
  | some (_, true) => x.signExtend 64
  | _ => x.setWidth 64

-- ## MX blocks (R76, R77)

/-- F of R66. -/
def fimgF : Fimg → Nat
  | .mx8 => 6 | .mx6 => 4 | .mx4 => 2

/-- Whether `qntBlock` rounds its elements, and so draws noise under `.rsr`. -/
def qntRounds (xs : List W32) : Bool :=
  !(xs.any fun x => fld x 23 8 == 0xFF) && xs.any fun x => fld x 0 31 != 0

/-- One element of `qntBlock`: e clamped to lim, and whether it changed. -/
def qntElem (f : Nat) (rnd : Rnd) (ex : Int) (x : W32) (noise : Nat) : Int × Bool :=
  match readF32 x with
  | .num n m e =>
    let v := roundInt rnd noise n m (e + f - ex)
    let lim : Int := (2 ^ (f + 1) : Nat) - 1
    if v.1 > lim then (lim, true) else if v.1 < -lim then (-lim, true) else (v.1, v.2)
  | _ => (0, false)

/-- qnt_block of R76: the scale byte, the elements, the events. `noise i` is the noise of element i. -/
def qntBlock (f : Nat) (rnd : Rnd) (noise : List Nat) (xs : List W32) : Nat × List Int × FpFlags :=
  if xs.any fun x => fld x 23 8 == 0xFF then (0xFF, xs.map fun _ => 0, { nv := true })
  else
    let amax := xs.foldl (fun a x => Nat.max a (fld x 0 31).toNat) 0
    if amax = 0 then (0, xs.map fun _ => 0, FpFlags.none)
    else
      let ex := match fmtF32.read amax with
        | .num _ m e => expOf m e
        | _ => 0
      let s : Int := if ex < -127 then 0 else if ex > 127 then 254 else ex + 127
      let es := xs.zipWith (fun x (n : Nat) => qntElem f rnd (s - 127) x n) noise
      (s.toNat, es.map (·.1), { nx := es.any (·.2) })

/-- dqnt of R77. -/
def dqnt (x : Nat) (e : Int) (f : Nat) : W32 × FpFlags :=
  if x = 255 then (nan32, FpFlags.none)
  else if e = 0 then (0, FpFlags.none)
  else round32 .rne 0 (decide (e < 0)) e.natAbs ((x : Int) - 127 - f)

-- ## The special-function unit (R162, R163)
-- Irrational results are computed to far more bits than FP32 holds, then given one more low bit 1: the exact value lies
-- strictly between two such multiples (PRESUMED, log 12).

/-- ⌊√n⌋ by bits, from bit k down. -/
def sqrtFrom (n : Nat) : Nat → Nat → Nat
  | 0, r => r
  | k + 1, r =>
    let r' := r + 2 ^ k
    sqrtFrom n k (if r' * r' ≤ n then r' else r)

/-- ⌊√n⌋. -/
def natSqrt (n : Nat) : Nat := sqrtFrom n (n.log2 / 2 + 1) 0

/-- An irrational magnitude in (m 2^e, (m + 1) 2^e), rounded. -/
def roundIrr (neg : Bool) (m : Nat) (e : Int) : W32 × FpFlags := round32 .rne 0 neg (2 * m + 1) (e - 1)

/-- 1 / (m 2^e), rounded. -/
def rcpNum (neg : Bool) (m : Nat) (e : Int) : W32 × FpFlags :=
  let n := 2 ^ 100
  if n % m = 0 then round32 .rne 0 neg (n / m) (-e - 100) else roundIrr neg (n / m) (-e - 100)

/-- 1 / √(m 2^e), rounded. -/
def rsqNum (m : Nat) (e : Int) : W32 × FpFlags :=
  let m' := if e % 2 = 0 then m else 2 * m
  let e' := if e % 2 = 0 then e else e - 1
  let n := 2 ^ 200 / m'
  let r := natSqrt n
  if r * r * m' = 2 ^ 200 then round32 .rne 0 false r (-(e' / 2) - 100) else roundIrr false r (-(e' / 2) - 100)

/-- Fraction bits of log2 of y / 2^256 in [1, 2), most significant first, by repeated squaring. -/
def log2Bits : Nat → Nat → Nat → Nat
  | 0, _, acc => acc
  | k + 1, y, acc =>
    let s := y * y / 2 ^ 256
    if s ≥ 2 ^ 257 then log2Bits k (s / 2) (2 * acc + 1) else log2Bits k s (2 * acc)

/-- log2 (m 2^e), rounded. -/
def log2Num (m : Nat) (e : Int) : W32 × FpFlags :=
  let ex := expOf m e
  if 2 ^ m.log2 = m then round32 .rne 0 (decide (ex < 0)) ex.natAbs 0
  else
    let fr := log2Bits 120 (m * 2 ^ (256 - m.log2)) 0
    let v : Int := ex * (2 ^ 120 : Nat) + fr
    if v < 0 then roundIrr true (v.natAbs - 1) (-120) else roundIrr false v.natAbs (-120)

/-- 2^(fraction): `f` holds `k` fraction bits still to read (most significant first), `c` is 2^(2^-i) and `p` the product
so far, both scaled by 2^320. -/
def exp2Frac : Nat → Nat → Nat → Nat → Nat
  | 0, _, _, p => p
  | k + 1, f, c, p =>
    let c' := natSqrt (c * 2 ^ 320)
    let p' := if f / 2 ^ k % 2 = 1 then p * c' / 2 ^ 320 else p
    exp2Frac k f c' p'

/-- 2^x for x = (-1)^neg m 2^e not zero, rounded. -/
def exp2Num (neg : Bool) (m : Nat) (e : Int) : W32 × FpFlags :=
  if expOf m e ≥ 9 then (if neg then round32 .rne 0 false 1 (-512) else round32 .rne 0 false 1 512)
  else
    let k := (-e).toNat
    let a : Int := (m * 2 ^ e.toNat : Nat)
    let v : Int := if neg then -a else a
    let i := v.fdiv (2 ^ k : Nat)
    let f := (v - i * (2 ^ k : Nat)).toNat
    if f = 0 then round32 .rne 0 false 1 i
    else roundIrr false (exp2Frac k f (2 ^ 321) (2 ^ 320)) (i - 320)

/-- Σ y^k / k! from term `k` on, `t` the current term, scaled by 2^400. -/
def expSeries (y : Nat) : Nat → Nat → Nat → Nat → Nat
  | 0, _, _, s => s
  | n + 1, k, t, s => expSeries y n (k + 1) (t * y / 2 ^ 400 / k) (s + t)

/-- tanh (m 2^e), rounded. -/
def tanhNum (neg : Bool) (m : Nat) (e : Int) : W32 × FpFlags :=
  let ex := expOf m e
  if ex ≥ 5 then roundIrr neg (2 ^ 200 - 1) (-200)
  else if ex < -12 then
    let x2 := if e ≥ -200 then m * m * 2 ^ (400 + 2 * e).toNat else 0
    let t := 2 ^ 400 - x2 / 3 + 2 * (x2 * x2 / 2 ^ 400) / 15
    let t' := if x2 = 0 then t - 1 else t
    roundIrr neg (m * t') (e - 400)
  else
    let y := m * 2 ^ (401 + e).toNat
    let ey := expSeries y 400 1 (2 ^ 400) 0
    roundIrr neg ((ey - 2 ^ 400) * 2 ^ 400 / (ey + 2 ^ 400)) (-400)

/-- ⌊π 2^400⌋. -/
def piFix : Nat :=
  0x3243f6a8885a308d313198a2e03707344a4093822299f31d0082efa98ec4e6c89452821e638d01377be5466cf34e90c6cc0ac

/-- 1 - z²/3! + z⁴/5! - … from term k on; `q` is z² and `t` the current term, scaled by 2^400. -/
def sincSeries (q : Nat) : Nat → Nat → Int → Int → Int
  | 0, _, _, s => s
  | n + 1, k, t, s =>
    let t' := -(t * q).tdiv (2 ^ 400 : Nat)
    sincSeries q n (k + 2) (t'.tdiv ((k + 1) * (k + 2) : Nat)) (s + t)

/-- sin (π m 2^e) for 0 < m 2^e ≤ 1/2, rounded. -/
def sinpiNum (neg : Bool) (m : Nat) (e : Int) : W32 × FpFlags :=
  if m = 0 then (if neg then 0x80000000 else 0, FpFlags.none)
  else if expOf m e = -1 then round32 .rne 0 neg 1 0
  else
    let q := if e ≥ -300 then piFix * piFix / 2 ^ 400 * (m * m) / 2 ^ (-(2 * e)).toNat else 0
    let s := (sincSeries q 80 1 (2 ^ 400 : Nat) 0).toNat
    roundIrr neg (m * piFix * s / 2 ^ 400) (e - 400)

/-- |x| mod 2 in units of 2^-k for x = m 2^e, k ≥ 1. -/
def mod2 (m : Nat) (e : Int) : Nat × Nat :=
  let k := (1 - e).toNat
  let v := m * 2 ^ (e + k).toNat
  (v % 2 ^ (k + 1), k)

/-- sin (π x) of a finite x. -/
def sinpi (neg : Bool) (m : Nat) (e : Int) : W32 × FpFlags :=
  let r := mod2 m e
  let one := 2 ^ r.2
  let neg' := neg != decide (r.1 ≥ one)
  let v := r.1 % one
  if v = 0 then (if neg then 0x80000000 else 0, FpFlags.none)
  else sinpiNum neg' (if 2 * v > one then one - v else v) (-(r.2 : Int))

/-- cos (π x) of a finite x. -/
def cospi (m : Nat) (e : Int) : W32 × FpFlags :=
  let r := mod2 m e
  let one := 2 ^ r.2
  let v := if r.1 > one then 2 * one - r.1 else r.1
  if v = 0 then (0x3F800000, FpFlags.none)
  else if v = one then (0xBF800000, FpFlags.none)
  else if 2 * v = one then (0, FpFlags.none)
  else if 2 * v < one then sinpiNum false (one - 2 * v) (-(r.2 : Int) - 1)
  else sinpiNum true (2 * v - one) (-(r.2 : Int) - 1)

/-- The functions of the special-function unit. -/
inductive Sfu where
  | exp2 | log2 | rcp | rsq | tanh | sin | cos
  deriving DecidableEq, Repr

/-- A subnormal is read as a zero of its sign (R71, R162). -/
def flushSub (x : W32) : W32 := if fld x 23 8 == 0 then x &&& 0x80000000 else x

/-- Every function of the unit, with the special operands of R163. -/
def sfu (op : Sfu) (x : W32) : W32 × FpFlags :=
  match readF32 (flushSub x) with
  | .nan => (nan32, FpFlags.none)
  | .inf n =>
    match op with
    | .exp2 => (if n then 0 else inf32 false, FpFlags.none)
    | .log2 => if n then invalid32 else (inf32 false, FpFlags.none)
    | .rcp => (if n then 0x80000000 else 0, FpFlags.none)
    | .rsq => if n then invalid32 else (0, FpFlags.none)
    | .tanh => (if n then 0xBF800000 else 0x3F800000, FpFlags.none)
    | .sin | .cos => invalid32
  | .num n m e =>
    if m = 0 then
      match op with
      | .exp2 | .cos => (0x3F800000, FpFlags.none)
      | .log2 => (inf32 true, { dz := true })
      | .rcp | .rsq => (inf32 n, { dz := true })
      | .tanh | .sin => (if n then 0x80000000 else 0, FpFlags.none)
    else
      match op with
      | .exp2 => exp2Num n m e
      | .log2 => if n then invalid32 else log2Num m e
      | .rcp => rcpNum n m e
      | .rsq => if n then invalid32 else rsqNum m e
      | .tanh => tanhNum n m e
      | .sin => sinpi n m e
      | .cos => cospi m e

end Sys2Proof.Machine
end

