-- ==== Sys2Proof/Machine/Store.lean ====
section
/-! DEFINITION. Sparse maps by number, the four-fold container, and byte order: the plain data operations that the state
and its meanings are written with. -/

namespace Sys2Proof

/-- The entry under key `k`, or the default (keys rise). -/
def kget {α : Type} (d : α) (k : Nat) : KMap α → α
  | [] => d
  | (k', v) :: t => if k' = k then v else kget d k t

/-- The map without key `k`. -/
def kdel {α : Type} (k : Nat) (m : KMap α) : KMap α := m.filter fun e => e.1 != k

/-- The map with `v` under key `k`; a value equal to the default is not listed. -/
def kput {α : Type} [DecidableEq α] (d : α) (k : Nat) (v : α) : KMap α → KMap α
  | [] => if v = d then [] else [(k, v)]
  | (k', v') :: t =>
    if k' < k then (k', v') :: kput d k v t
    else if v = d then kdel k ((k', v') :: t)
    else if k' = k then (k, v) :: t
    else (k, v) :: (k', v') :: t

/-- Keys rise strictly and no entry equals the default. -/
def kwf {α : Type} [DecidableEq α] (d : α) : KMap α → Bool
  | [] => true
  | [(_, v)] => decide (v ≠ d)
  | (k, v) :: (k', v') :: t => decide (v ≠ d) && decide (k < k') && kwf d ((k', v') :: t)

def Four.get {α : Type} (f : Four α) : Fin 4 → α
  | 0 => f.x0
  | 1 => f.x1
  | 2 => f.x2
  | 3 => f.x3

def Four.set {α : Type} (f : Four α) (i : Fin 4) (v : α) : Four α :=
  match i with
  | 0 => { f with x0 := v }
  | 1 => { f with x1 := v }
  | 2 => { f with x2 := v }
  | 3 => { f with x3 := v }

/-- Four copies of one value. -/
def Four.all {α : Type} (v : α) : Four α := { x0 := v, x1 := v, x2 := v, x3 := v }

def Four.map {α β : Type} (g : α → β) (f : Four α) : Four β := { x0 := g f.x0, x1 := g f.x1, x2 := g f.x2, x3 := g f.x3 }

def Four.toList {α : Type} (f : Four α) : List α := [f.x0, f.x1, f.x2, f.x3]

/-- The streams in the order C, L, S, X (R10). -/
def Strm.idx : Strm → Fin 4
  | .c => 0 | .l => 1 | .s => 2 | .x => 3

def Strm.all : List Strm := [.c, .l, .s, .x]

/-- A byte of a word, byte 0 the least significant (R3). -/
def byteOf {w : Nat} (x : BitVec w) (i : Nat) : Byte := fld x (8 * i) 8

/-- The little-endian value of a list of bytes (R3). -/
def leNat : List Byte → Nat
  | [] => 0
  | b :: t => b.toNat + 256 * leNat t

/-- The first `n` little-endian bytes of a word. -/
def leBytes {w : Nat} (x : BitVec w) (n : Nat) : List Byte := (List.range n).map (byteOf x)

/-- Lane `j` of a row (R3, R126). -/
def lane (r : Row) (j : Nat) : W32 := fld r (32 * j) 32

/-- A row from its lanes, lane 0 lowest. -/
def rowOfLanes (l : List W32) : Row := BitVec.ofNat 2048 (l.foldr (fun x n => x.toNat + 2 ^ 32 * n) 0)

/-- The 64 lanes of a row. -/
def lanesOf (r : Row) : List W32 := (List.range 64).map (lane r)

/-- A row from its 256 bytes, byte 0 lowest. -/
def rowOfBytes (l : List Byte) : Row := BitVec.ofNat 2048 (leNat l)

/-- `old` with the lanes of `mask` taken from `new` (bit j for lane j). -/
def mergeLanes (mask : BitVec 64) (old new : Row) : Row :=
  if mask = BitVec.allOnes 64 then new
  else rowOfLanes ((List.range 64).map fun j => if bit mask j then lane new j else lane old j)

/-- A register number that a BitVec names, as an index. -/
def idx {w : Nat} (n : BitVec w) : Nat := n.toNat

end Sys2Proof
end

