-- ==== Sys2Proof/Machine/State.lean ====
section
/-! DEFINITION. The whole state of the module as plain data, and the state right after reset. -/

namespace Sys2Proof.Machine

-- ## Streams

/-- A branch-target register: PREP, TGT, and the preparation cycle PC (R233, R295). -/
structure BReg where
  prep : Bool := false
  tgt : Parcel := 0
  pc : Nat := 0
  deriving DecidableEq, Repr

/-- A loop-stack entry (R237, R295). -/
structure LoopEntry where
  ctr : Nat
  rot : Bool
  first : Parcel
  last : Parcel
  deriving DecidableEq, Repr

/-- A call-stack entry: return parcel and loop depth (R236). -/
structure CallEntry where
  ret : Parcel
  depth : Nat
  deriving DecidableEq, Repr

/-- A section as its header describes it (R50); `hdr` is the header's first parcel. -/
structure Section where
  hdr : Parcel
  pre : Bool
  lbf : Bool
  xch : Bool
  snum : Byte
  len : BitVec 12
  deps : Four Byte
  deriving DecidableEq, Repr

/-- What a stream does next: nothing; read a header from cycle `at_` on, with its first word `wait` cycles later than its
DLY says (R240); or issue the word in cycle `at_` (R44, R51). -/
inductive Next where
  | off
  | hdr (parcel : Parcel) (at_ wait : Nat)
  | word (parcel : Parcel) (at_ : Nat)
  deriving DecidableEq, Repr

/-- The issue latch (R297). -/
structure IssueLatch where
  v : Bool := false
  replay : Bool := false
  parcel : Parcel := 0
  cause : Byte := 0
  deriving DecidableEq, Repr

/-- The context of one stream (R231, R233, R236, R237, R242, R295, R297). -/
structure Ctx where
  q : Byte := 0
  b : KMap BReg := []
  loops : List LoopEntry := []     -- innermost first
  calls : List CallEntry := []     -- top first
  next : Next := .off
  sect : Option Section := none
  entering : Bool := false         -- the next word is its section's first, entered by its header or by RET (R52)
  rsec : Byte := 0xFE
  lbuf : KMap (Option W96) := []   -- loop buffer: the words of the section in it, by their number in the section (R55)
  wp : KMap (BitVec 16) := []
  latch : IssueLatch := {}
  retired : Bool := true
  deriving DecidableEq, Repr

-- ## In-flight register writes

/-- A register write on its way: the unit and its new value (R128, R129). -/
inductive WTarget where
  | s (n : BitVec 6) (v : W64)
  | a (st : Strm) (n : BitVec 6) (v : W64)
  | v (phys : BitVec 5) (row : BitVec 4) (lanes : BitVec 64) (data : Row)
  | m (n : BitVec 3) (sel : MaskReg) (v : MaskReg)
  | q (st : Strm) (n : BitVec 3) (v : Bool)
  | e (n : BitVec 2) (v : W64)
  | gone                               -- a record whose V the handler has cleared (R295)
  deriving DecidableEq, Repr

/-- An in-flight write record: the issuing word, its cycle, the landing cycle and the write (R128, R295). -/
structure WriteRec where
  strm : Strm
  parcel : Parcel
  issued : Nat
  land : Nat
  name : Byte                      -- register field code as the word names it (R295)
  by_ : Pos                        -- station of the issuing word (the array advances other stations' pointers, R129)
  target : WTarget
  deriving DecidableEq, Repr

/-- FPCTL events that a word sets in its landing cycle (R73, R74); `bits` is FPCTL[4:0]. -/
structure FlagRec where
  strm : Strm
  parcel : Parcel
  issued : Nat
  land : Nat
  bits : BitVec 5
  deriving DecidableEq, Repr

-- ## Banks

/-- A buffer declaration and its state (R118 to R120): 0 empty, 1 filling, 2 full, 3 draining. -/
structure Buf where
  declared : Bool := false
  bank : BitVec 3 := 0
  first : BitVec 7 := 0
  last : BitVec 7 := 0
  reads : BitVec 10 := 0
  st : BitVec 2 := 0
  nread : Nat := 0
  writers : Nat := 0
  af : Bool := false
  failed : Bool := false
  seen : List (Pos × Strm × Nat) := [] -- words that have counted as reads since it was last empty (R119)
  deriving DecidableEq, Repr

/-- BANKFMT of a bank (R116). -/
structure BankFmt where
  ty : BitVec 4 := 0
  srow : BitVec 7 := 0
  deriving DecidableEq, Repr

/-- A bank load in progress (R137): the rows read so far by number. -/
structure LoadJob where
  parcel : Parcel
  issued : Nat
  raw : Bool
  col : Bool
  name : Byte
  phys : BitVec 5
  vrow : Nat
  nr : Nat
  epr : Nat
  fmt : BankFmt
  bank : BitVec 3
  row : Nat
  got : KMap (List W32 × BitVec 5)
  deriving DecidableEq, Repr

/-- A bank or remote store in progress (R125, R139): the register rows read so far. -/
structure StoreJob where
  parcel : Parcel
  issued : Nat
  phys : BitVec 5
  vrow : Nat
  nr : Nat
  raw : Bool
  epr : Nat
  fmt : BankFmt
  bank : BitVec 3
  row : Nat
  got : KMap Row
  deriving DecidableEq, Repr

-- ## Far requests

/-- The far operation of a request (R100 to R103, R108, R218). -/
inductive FarOp where
  | read
  | write (data : Row)
  | amo (op : AmoOp) (ret : Bool) (operand cmp : W32)
  | amosc (op : AmoOp) (operand cmp : W32) (stamp : Nat)
  deriving DecidableEq, Repr

/-- Who made a far request: a far queue of a station, its store path, granule `g` of the haul command `key`, or a table walk
(R87). -/
inductive FarSrc where
  | fq (q : BitVec 3)
  | path
  | haul (key : Nat) (g : Nat) (wr : Bool)
  | walk
  deriving DecidableEq, Repr

/-- Where a far request stands. Before it leaves: not yet translated (from cycle `from_` on); waiting on a walk; on a not-present
page; translated with an error (its response comes no earlier than `base`); or translated, its home known, leaving from
`from_` on. After it left: answered at its own die with an error in `respAt`; on its way, reaching its home in `at_` (none while
it waits for its link); at its home, not yet performed, its response to be ready there from `lo` to `by_` (`cost` is its
page-state cost); or performed, its response landing in `at_` (none while that waits for its link). -/
inductive FarPhase where
  | pend (from_ : Nat)
  | walk
  | np
  | bad (cause : Byte) (base : Nat)
  | home (h : DieId) (dla from_ : Nat)
  | dead (cause : Byte) (respAt : Nat)
  | sent (h : DieId) (dla : Nat) (at_ : Option Nat)
  | here (h : DieId) (dla lo by_ cost : Nat)
  | back (h : DieId) (data : Row) (err : Byte) (at_ : Option Nat)
  deriving DecidableEq, Repr

/-- One outstanding far request of a die. `seq` numbers the die's requests in issue order; `pos`, `strm`, `parcel` name the
word that formed it; `port` is the vault port of its own die that serves it (R97). -/
structure FarReq where
  seq : Nat
  src : FarSrc
  pos : Pos
  port : Pos
  strm : Strm
  parcel : Parcel
  issued : Nat
  va : Nat                         -- VA of the granule
  lo : Nat
  hi : Nat
  row : BitVec 4
  op : FarOp
  phase : FarPhase
  deriving DecidableEq, Repr

/-- A row of a far queue in push order: landed data and the lanes it fills (R100, R102). -/
structure FqSlot where
  seq : Nat
  row : BitVec 4
  lo : Nat
  hi : Nat
  va : Nat
  data : Option Row
  home : Option DieId
  dla : Nat
  deriving DecidableEq, Repr

/-- A fence in force (R248): the sequence numbers it was issued after, and the hauls it waits for. -/
structure FenceRec where
  upto : Nat
  set : FSet
  scope : FScope
  deriving DecidableEq, Repr

/-- An RDVA (point `pt`) or TRIG that waits for acknowledgements (R244, R249). -/
structure Release where
  pt : Option (BitVec 5)
  handle : BitVec 4
  ctr : Byte
  marks : List Nat
  err : Byte
  deriving DecidableEq, Repr

/-- One end of a haul (R105). -/
inductive HaulAddr where
  | far (va : Nat)
  | bank (pos : Pos) (bank : BitVec 3) (row : Nat)
  deriving DecidableEq, Repr

/-- A destination unit of a haul (R107, R111): granule or row `i`, its data in the low `bits` bits, the scales that go with it,
the cycle in which it is ready, whether its write has left, and its error. -/
structure Gran where
  i : Nat
  data : Row
  bits : Nat
  scales : List Byte
  readyAt : Nat
  sent : Bool
  err : Byte
  deriving DecidableEq, Repr

/-- A haul command from issue to completion (R106 to R111). `key` is the die's request number at its issue. -/
structure HaulCmd where
  key : Nat
  pos : Pos
  parcel : Parcel
  issued : Nat
  src : HaulAddr
  dst : HaulAddr
  n : Nat
  rnd : Rnd
  af : Bool
  pt : Option (BitVec 5)
  conv : Bool
  sfmt : BankFmt
  dfmt : BankFmt
  gen : W32                        -- noise generator of a converting copy (R107)
  started : Nat                    -- granules started
  srcRead : Nat                    -- source rows read
  lanes : List W32                 -- decoded elements that no destination row has taken yet
  made : Nat                       -- destination rows formed by a converting copy, or far writes formed
  grans : List Gran                -- destination units with data
  done : Nat                       -- destination units finished
  dstN : Nat                       -- destination units in all
  comp : Nat                       -- latest completion term so far (R111)
  fail : Option (Nat × Byte)       -- first failed granule and its cause
  writes : List (Pos × Nat)        -- the buffers that it writes
  deriving DecidableEq, Repr

-- ## Cavity

/-- A cavity slot of a station (R201, R202, R207, R208): the CAV or CAVD in it, its check cycles P and S, the cycle of its
result, and how its sweeps leave: hops on the ring for CAV, cycles to the next die for CAVD. -/
structure CavSlot where
  cavd : Bool
  op : CavOp
  parcel : Parcel
  issued : Nat
  anchor : Nat
  first : Bool                     -- participant 0: its prefix is empty
  last : Bool                      -- participant L: its suffix is empty
  pAt : Nat
  sAt : Nat
  eAt : Nat
  up : Nat
  dn : Nat
  nxt : DieId
  prv : DieId
  acc : Row                        -- the contribution
  pre : Option Row
  suf : Option Row
  phys : BitVec 5
  name : Byte
  vrow : BitVec 4
  deriving DecidableEq, Repr

-- ## Station

/-- The divider's latches (R227, R295): the results it is forming and the cycle from which it is free. -/
structure Divider where
  rem : W64 := 0
  quo : W64 := 0
  free : Nat := 0
  deriving DecidableEq, Repr, Inhabited

/-- ROTD (R133). -/
structure Rotd where
  pd : Nat := 0
  rb : Nat := 0
  d : Nat := 0
  deriving DecidableEq, Repr

/-- NOISE and the noise state S (R164). -/
structure Noise where
  seed : W32 := 0
  mode : BitVec 2 := 0
  s : W32 := 0
  deriving DecidableEq, Repr

/-- Hold-matrix counters of one station: VLT, GDR, RMT, RDV, GOV (R312). -/
structure HoldRec where
  vlt : W32 := 0
  gdr : W32 := 0
  rmt : W32 := 0
  rdv : W32 := 0
  gov : W32 := 0
  sdcyc : W64 := 0
  deriving DecidableEq, Repr

/-- One station (R10, R126). -/
structure Station where
  plane : KMap Parcel := []
  shadow : KMap Parcel := []
  kept : KMap Parcel := []             -- the base camp's protected copy of the active plane (R274)
  ctx : Four Ctx := Four.all {}
  s : KMap W64 := []
  aL : KMap W64 := []
  aS : KMap W64 := []
  v : KMap Row := []               -- key 16 · physical register + row
  m : KMap MaskReg := []
  e : KMap W64 := []
  pad : KMap W64 := []
  bank : KMap Row := []            -- key 128 · bank + row
  fmt : KMap BankFmt := []
  buf : KMap Buf := []
  writes : List WriteRec := []
  flags : List FlagRec := []
  loads : List LoadJob := []
  stores : List StoreJob := []
  fq : KMap (List FqSlot) := []    -- far queues, head first
  fences : List FenceRec := []
  releases : List Release := []
  div : Divider := {}
  pipeFree : Nat := 0
  rotd : Rotd := {}
  died : KMap Nat := []            -- by physical register: the die cycle at whose end it last became dead, plus 1 (R133)
  fpctl : W64 := 0
  noise : Noise := {}
  locreq : W64 := 0
  remreq : W64 := 0
  scslot : KMap W64 := []
  cav : KMap (Option CavSlot) := []
  live : HoldRec := {}
  snap : HoldRec := {}
  deriving DecidableEq, Repr

-- ## Array

/-- The window: row0, col0, WR, WC (R168, R187). -/
structure Window where
  row0 : Nat := 0
  col0 : Nat := 0
  wr : Nat := 1024
  wc : Nat := 1024
  deriving DecidableEq, Repr

/-- One cell: persistent state (R167) and transit latches (R196). FT and BT follow from the front that holds the cell. -/
structure Cell where
  fe0 : BitVec 16 := 0
  fe1 : BitVec 16 := 0
  be0 : BitVec 16 := 0
  be1 : BitVec 16 := 0
  seated : BitVec 4 := 0
  g : W32 := 0
  pg : W32 := 0
  pgv : Bool := false
  fx : BitVec 128 := 0
  fi : BitVec 160 := 0
  fc : BitVec 256 := 0
  bd : BitVec 16 := 0
  bx : BitVec 32 := 0
  bs : BitVec 96 := 0
  bc : BitVec 64 := 0
  sl : W32 := 0
  ll : W32 := 0
  par : Byte := 0
  deriving DecidableEq, Repr

/-- An edge accumulator: M, E, GW (R182). -/
structure Acc where
  m : W64 := 0
  e : BitVec 16 := 0
  gw : BitVec 16 := 0
  deriving DecidableEq, Repr

/-- The four kinds of front (R169). -/
inductive WorkKind where
  | fwd | bwd | seat | lift
  deriving DecidableEq, Repr

/-- An ADMIT, SEAT or LIFT whose fronts are in flight, with everything latched at issue (R186, R189, R191, R192). -/
structure Work where
  kind : WorkKind
  pos : Pos
  parcel : Parcel
  issued : Nat
  m : Nat
  adm : Nat                            -- fronts admitted so far
  win : Window
  fimg : Fimg
  gnan : Gnan
  pane : Bool
  img : Img
  clr : Bool
  deriving DecidableEq, Repr

/-- A row in the edge skew latches: fed by or going to station `pos`, front or row `i` of the word issued at `issued` (R173). -/
structure Skew where
  kind : WorkKind
  issued : Nat
  pos : Pos
  i : Nat
  data : Row
  until_ : Nat                         -- the latches let it go after this cycle
  deriving DecidableEq, Repr

/-- A phase of point `pt` that RDVT has shown in sidereal cycle `at_` to a stream of the station at `pos` (R246, R264). -/
structure TestRec where
  pos : Pos
  strm : Strm
  pt : Nat
  at_ : Nat
  deriving DecidableEq, Repr

/-- Words of which the array takes one in a die cycle (R190). -/
inductive OnceKind where
  | awin | amode | admits (k : WorkKind)
  deriving DecidableEq, Repr

/-- A word of that kind that has issued in die cycle `at_` (R190). -/
structure OnceRec where
  at_ : Nat
  kind : OnceKind
  pos : Pos
  deriving DecidableEq, Repr

/-- A dx promotion of a token that raised GRAD_NAN: the cell's key, the token, its image's scale, C_dx before it, and whether a FRZWR has
written the token's BS since (R197, R319). -/
structure HeldPromo where
  cell : Nat
  token : Nat
  scale : Nat
  bc : W32
  wrote : Bool := false
  deriving DecidableEq, Repr

/-- An array event of the current cycle in the order of R198, with what it writes into ASTAT (R181). -/
structure ArrEvent where
  order : Nat
  row : Option Nat
  col : Option Nat
  lane : Nat
  face : Option Bool                   -- HEADLOST: north
  sat : Bool
  headlost : Bool
  deriving DecidableEq, Repr

/-- An ACCLR, ACNORM, ACRD clear or ACWR addend on its way to the accumulators of a station (R193 to R195). -/
inductive AccAct where
  | clr (base : BitVec 16)
  | norm
  | rdClr
  | add (vals : List (Nat × W32))      -- key 8 j + u on the east face, 2 j + u on the north face
  deriving DecidableEq, Repr

structure AccJob where
  at_ : Nat
  pos : Pos
  act : AccAct
  by_ : Pos
  strm : Strm
  parcel : Parcel
  deriving DecidableEq, Repr

-- ## Ports, ring, causes

/-- What a scheduled port-A access does (R114). -/
inductive PKind where
  | load (j : Nat)                     -- row j of the bank load its issuer has in progress
  | ald (d : BitVec 6) (off : Nat)
  | store (j : Nat)                    -- row j of the BST in progress
  | ast (off : Nat) (v : W64)
  | rld (phys : BitVec 5) (name : Byte) (row : BitVec 4) (land : Nat)
  | rst (i : Nat)
  | feed (kind : WorkKind) (i : Nat) (until_ : Nat)
  | liftOut (i : Nat)
  | raw (data : Row)                   -- a write slot that the handler has written (R295)
  | probe                              -- a read that the handler has named for no word of the model: it delivers nothing (R295)
  | gone                               -- a slot whose V the handler has cleared (R295)
  deriving DecidableEq, Repr

/-- A port-A access of bank row `row` of station `pos` in die cycle `at_`, issued by a word of station `by_` (R114, R295). -/
structure PortA where
  at_ : Nat
  pos : Pos
  bank : BitVec 3
  row : BitVec 7
  wr : Bool
  by_ : Pos
  strm : Strm
  parcel : Parcel
  issued : Nat
  kind : PKind
  checked : Bool                       -- edge accesses are checked at issue (R175)
  deriving DecidableEq, Repr

/-- What a ring item is: a driven row, or a sweep of a cavity (R122, R203). -/
inductive ItemKind where
  | data
  | sweep (anchor : Nat) (op : CavOp)
  deriving DecidableEq, Repr

/-- An item on a lane: it stands at `pos` ± k in cycle `entry` + k, for k up to `hops` (R123). -/
structure Item where
  lane : Nat
  pos : Nat
  entry : Nat
  hops : Nat
  kind : ItemKind
  data : Row
  by_ : Pos
  parcel : Parcel
  deriving DecidableEq, Repr

/-- An RDRV whose item enters in cycle `at_` (R123). -/
structure Drive where
  at_ : Nat
  item : Item
  deriving DecidableEq, Repr

/-- A cause raised in the current cycle: its class in the order of R289 and the word it names (R291). -/
structure CauseRec where
  cause : Cause
  sub : Byte
  rank : Nat
  pos : Pos
  strm : Strm
  parcel : Parcel
  named : Bool
  order : Nat                          -- order within its rank beyond position and stream (R198)
  deriving DecidableEq, Repr

-- ## Rendezvous

/-- The master of a rendezvous point (R242). -/
structure RdvMaster where
  exp : Nat := 0
  arr : List (BitVec 9) := []          -- the arrivals counted, oldest first: 0, or bit 8 and the cause of an error arrival
  ph : BitVec 16 := 0
  errh : BitVec 16 := 0
  deriving DecidableEq, Repr

/-- A die's copy of a rendezvous point (R242). -/
structure RdvCopy where
  ph : BitVec 16 := 0
  errh : BitVec 16 := 0
  deriving DecidableEq, Repr

/-- An arrival, count, or phase on its way: it counts, applies or shows in sidereal cycle `at_` (R242, R243). -/
inductive RdvMsg where
  | arrive (pt : Nat) (err : BitVec 9) (at_ : Nat)
  | count (pt : Nat) (n : Nat) (at_ : Nat)
  | phase (pt : Nat) (ph errh : BitVec 16) (err : BitVec 9) (at_ : Nat)
  deriving DecidableEq, Repr

-- ## End-of-cycle effects

/-- An effect that a word of the cycle has at the end of the cycle, in issue order. -/
inductive Eoc where
  | csr (pos : Pos) (n : BitVec 12) (v : W64)
  | bufdecl (pos : Pos) (v : W32)
  | bufset (pos : Pos) (full : Bool) (bd : BitVec 4)
  | bankfmt (pos : Pos) (bank : BitVec 3) (f : BankFmt)
  | bufRead (pos : Pos) (bd : Nat) (word : Pos × Strm × Nat)
  | bufWrite (pos : Pos) (bd : Nat)
  | bufWriter (pos : Pos) (bd : Nat)
  | violog (pos : Pos) (strm : Strm) (parcel : Parcel) (va : Nat) (cause : Byte)
  | bankRow (pos : Pos) (bank : BitVec 3) (row : Nat) (data : Row)
  | heal (pos : Pos) (keys : List Nat) -- bank words that a write covers (R304)
  | rsec (pos : Pos) (st : Strm) (v : Byte) (pre : Bool)
  | fence (pos : Pos) (set : FSet) (scope : FScope)
  | release (pos : Pos) (pt : Option (BitVec 5)) (handle : BitVec 4) (ctr : Byte)
  | rotset (pos : Pos) (dn : Nat)
  | rotate (pos : Pos)
  | cavFree (pos : Pos) (slot : Nat)
  | cavdIssued
  | window (w : Window)
  | amode (fimg : Fimg) (gnan : Gnan)
  | frz (addr : Nat) (v : W64)
  | flags (pos : Pos) (bits : BitVec 5)
  | snap (pos : Pos)
  deriving DecidableEq, Repr

-- ## The handler and the frozen state

/-- What a die is doing (R18, R23, R24, R293). -/
inductive DieCond where
  | idle | running | held | waiting | frozen | handler
  deriving DecidableEq, Repr

/-- The timetable context of the handler station's C stream while the handler runs (R293). -/
structure SavedCtx where
  ctx : Ctx
  s : KMap W64
  div : Divider
  deriving DecidableEq, Repr

/-- For whom a die's state is stowed or unstowed (R282, R284, R292, R300, R301). -/
inductive StowFor where
  | handler | fault | preempt | resume
  deriving DecidableEq, Repr

/-- A STOW or UNSTOW in progress (R300, R301): the word that began it, the body bytes done, and the end of its scan, or of an
UNSTOW's read of open length, once that has begun. -/
structure StowOp where
  who : StowFor
  unstow : Bool
  parcel : Parcel
  va : Nat
  off : Nat
  until_ : Option Nat
  out : Option Byte                    -- its outcome, once it has ended
  deriving DecidableEq, Repr

/-- An invariant monitor (R314). -/
structure Monitor where
  cfg : W64 := 0
  cnt : W64 := 0
  fired : Bool := false
  deriving DecidableEq, Repr

/-- A 32-bit word of station storage with an uncorrectable error, or a parcel of the active or the shadow plane (R275, R304, R305). Keys count
32-bit words: lane j of bank row 128 b + r is 64 (128 b + r) + j; of register row 16 v + i, 64 (16 v + i) + j; of mask m,
32 m + word; of pad word w, 2 w + half; of the far-queue row or store-path entry with request number n, 64 n + j; of word w of
a loop buffer, 3 w + j; of accumulator a of a station, 3 a + j (M low, M high, E with GW). -/
inductive BadPlace where
  | bank (pos : Pos) (key : Nat)
  | vreg (pos : Pos) (key : Nat)
  | mask (pos : Pos) (key : Nat)
  | pad (pos : Pos) (key : Nat)
  | fqrow (pos : Pos) (key : Nat)
  | plane (pos : Pos) (parcel : Nat)
  | shadow (pos : Pos) (parcel : Nat)
  | path (pos : Pos) (key : Nat)
  | lbuf (pos : Pos) (strm : Strm) (key : Nat)
  | acc (pos : Pos) (key : Nat)
  deriving DecidableEq, Repr

/-- Counts of a die for telemetry and the completion record (R276, R311). -/
structure Tele where
  vlt : Nat := 0
  gdr : Nat := 0
  rmt : Nat := 0
  rdv : Nat := 0
  gov : Nat := 0
  await : Nat := 0
  breach : Nat := 0
  soft : Nat := 0
  deriving DecidableEq, Repr

/-- HSTA but for its read-only marks (R290). -/
structure Hsta where
  den : Bool := false
  dcls : BitVec 10 := 0
  entry : Parcel := 0
  svst : Byte := 0
  nest : Bool := false
  fbad : Bool := false
  pos : Pos := 0
  deriving DecidableEq, Repr

-- ## Compute die

/-- One compute die (R8). `dcyc` is the die cycle that executes next, or is held, waiting or frozen. -/
structure Die where
  cond : DieCond := .idle
  dcyc : Nat := 0
  notBefore : Nat := 0                 -- alignment wait: the next die cycle executes no earlier (R241)
  unexec : Bool := false
  xch : Bool := false                  -- the die is in exchange in the current die cycle (R22)
  team : BitVec 16 := 0
  holdcnt : Nat := 0
  holdmax : W32 := 0x10000
  stations : Vector Station 128 := Vector.replicate 128 {}
  window : Window := {}
  fimg : Fimg := .mx8
  gnan : Gnan := .gprop
  cells : KMap Cell := []
  accE : KMap Acc := []                -- key 8 row + lane
  accN : KMap Acc := []                -- key 2 column + lane
  works : List Work := []
  skew : List Skew := []
  accJobs : List AccJob := []
  once : List OnceRec := []            -- the AWINs, AMODEs and ADMITs of the latest die cycle that has any (R190)
  promos : List HeldPromo := []        -- dx promotions of trapped tokens, which RESUME makes anew on a rewritten BS (R197, R319)
  seatUntil : Nat := 0
  liftUntil : Nat := 0
  atrap : W64 := 0
  astat : W64 := 0
  nancnt : Nat := 0
  arrEvents : List ArrEvent := []      -- array events and zeroed elements of the current cycle
  nanAdd : Nat := 0
  violog : KMap W64 := []
  viotrap : W64 := 0
  rdverr : W64 := 0
  rdverrAt : Nat := 0                  -- sidereal cycle of the last write by a copy, plus 1 (R247)
  tested : List TestRec := []          -- phases that RDVT has shown to a stream and no RDVW of it has consumed (R246, R264)
  hsta : Hsta := {}
  trapcause : W64 := 0
  trappos : W64 := 0
  portA : List PortA := []
  latched : List PortA := []           -- port latch slots with V = 1 (R114, R295)
  items : List Item := []
  drives : List Drive := []
  cavdBusy : Bool := false             -- the cavity port holds an earlier CAVD (R207)
  masters : KMap RdvMaster := []
  copies : KMap RdvCopy := []
  msgs : List RdvMsg := []
  eoc : List Eoc := []
  ended : Option Bool := none          -- the die has executed a die cycle that is not settled; whether a PRE section retired in it
  causes : List CauseRec := []
  latchNow : List (Pos × Strm × Parcel × Byte) := []
  asyncs : List CauseRec := []
  late : List CauseRec := []           -- asynchronous causes that came while the die was frozen (R298)
  reports : List (Byte × Pos) := []    -- the causes of the last freeze that are reported, and the positions they name (R290)
  reportAt : Option Nat := none        -- the cycle in which the base camp learns of them (R292)
  rampLast : Option Nat := none
  rampEvent : Option Nat := none
  saved : Option SavedCtx := none
  hctx : Option SavedCtx := none       -- the handler context while RESUME replays words (R298)
  hpos : Pos := 0                      -- the handler station while the handler runs (R293)
  hwrites : List WriteRec := []        -- writes of the handler context, by sidereal cycle (R293)
  handlerNext : Bool := false
  stow : Option StowOp := none
  bivbase : Nat := 0
  bivend : Nat := 0
  sva : Nat := 0
  svoff : Nat := 0
  ghost : KMap (Option W64) := []      -- words by FSA that stand for no state of the model: entries not on their stack, empty
                                       -- records and slots, and open-layout words as FRZWR last left them (R295, R296)
  shade : KMap (Option (W64 × W64)) := [] -- frozen words by FSA with bits that no state of the model takes: as last written, and what
                                       -- that state showed then (R296)
  sfrz : Nat := 0                      -- SIDC at the end of the frozen cycle (R299)
  monitors : KMap Monitor := []
  debugAt : Option Nat := none
  stopAt : Option Nat := none          -- a STOP or a reported cause freezes the die in this sidereal cycle (R284, R292)
  restoreAt : Option Nat := none       -- the shadow planes equal the active ones again from this sidereal cycle on (R274)
  preemptAt : Option Nat := none
  tele : Tele := {}
  holds : Nat := 0
  bad : List BadPlace := []
  deriving DecidableEq, Repr

-- ## Far side of a die

/-- A region-table entry: its four words (R86). -/
structure Region where
  w0 : W64 := 0
  w1 : W64 := 0
  w2 : W64 := 0
  deriving DecidableEq, Repr

/-- A leaf held in the TLB: its level, the VA above its page, and the entry (R87). -/
structure TlbEntry where
  level : Nat
  vpn : Nat
  entry : W64
  deriving DecidableEq, Repr

/-- The read of a table entry by a walk: to be sent in cycle `at_`, or the request of the die with number `seq` (R87). -/
inductive WalkRead where
  | send (at_ : Nat)
  | out (seq : Nat)
  deriving DecidableEq, Repr

/-- A table walk in progress: the VA that missed, the cycle it began in, the level whose entry is being read and where the
entry stands (R87). -/
structure Walk where
  va : Nat
  pos : Pos
  began : Nat
  level : Nat
  home : DieId
  dla : Nat
  read : WalkRead
  deriving DecidableEq, Repr

/-- An open row of a GDDR 7 bank with its last access (R98). -/
structure OpenRow where
  row : Nat
  last : Nat
  deriving DecidableEq, Repr

/-- A wheel mark formed in cycle `sent` that another die has not received: it arrives no later than `by_` (none while it waits for
its link) (R224). -/
structure Mark where
  from_ : DieId
  stamp : Nat
  sent : Nat
  by_ : Option Nat
  deriving DecidableEq, Repr

/-- An invalidation in progress (R90). -/
structure Inval where
  value : W64
  at_ : Nat
  deriving DecidableEq, Repr

/-- A BAR2 access that waits at its home (R255, R307): its effective address, its size, a write's bytes, and the requests of its channels
that had reached the home before it. -/
structure HostAcc where
  e : Nat
  size : Nat
  data : Option (List Byte)
  seen : List (DieId × Nat)
  deriving DecidableEq, Repr

/-- Translation unit, memory controller and haul engines of one die. -/
structure FarSide where
  xroot : W64 := 0
  regions : KMap Region := []
  xinval : Option Inval := none
  xpage : W64 := 0                     -- PAGE and SIZE of XINVAL as last written
  xreplay : W64 := 0
  tlb : List TlbEntry := []
  walks : List Walk := []
  reported : List Nat := []            -- pages reported as not present (R88)
  mcReset : Bool := true
  seq : Nat := 0
  reqs : List FarReq := []             -- requests that have not left, in issue order
  flight : List FarReq := []           -- requests that have left or failed, in the order they left
  here : List (DieId × Nat) := []      -- requests at this home that it has not performed, in the order they arrived
  host : List HostAcc := []            -- BAR2 accesses that wait at this home, in the order they came (R307)
  touched : List Nat := []             -- granules of which an access was performed in cycle `touchedAt` (R255)
  touchedAt : Nat := 0
  portFree : KMap Nat := []            -- vault port of a ring position: its latest landing (R97)
  rows : KMap OpenRow := []            -- open row of bank b of channel k, key 16 k + b
  marks : KMap Nat := []               -- latest wheel mark received from each die, plus 1
  marksIn : List Mark := []
  hauls : List HaulCmd := []
  busy : List Nat := []                -- banks whose port A the executed die cycle used, key 8 p + bank
  busyAt : Nat := 0                    -- the sidereal cycle of `busy`
  badWords : List Nat := []            -- 4 B words of the die's far memory, by DLA / 4, with an uncorrectable error (R91)
  deriving DecidableEq, Repr

-- ## Links

/-- A turn-queue entry (R214, R217). -/
structure TurnEntry where
  at_ : Bool
  time : Nat
  timed : Bool
  dn : Bool
  group : BitVec 4
  issued : Nat
  deriving DecidableEq, Repr

/-- A CAVD sweep between two dies: it arrives at position `to_` of the chain in sidereal cycle `at_` (R208). -/
structure CavdItem where
  from_ : DieId
  to_ : DieId
  up : Bool
  at_ : Nat
  op : CavOp
  data : Row
  deriving DecidableEq, Repr

/-- Timed groups that an issued CAVD needs in a direction, until its last beat has crossed in sidereal cycle `until_` (R214). -/
structure LaneUse where
  groups : BitVec 16
  until_ : Nat
  deriving DecidableEq, Repr

/-- What a packet on a link carries: request `seq` of die `d` toward its home, its response on the way back, or a wheel mark
formed in cycle `sent` (R210, R224). -/
inductive PktOf where
  | req (d : DieId) (seq : Nat)
  | resp (d : DieId) (seq : Nat)
  | mark (d : DieId) (sent : Nat)
  deriving DecidableEq, Repr

/-- A packet that waits in a link's queue 0 (requests), 1 (responses) or 2 (haul data) from cycle `from_` on; what it carries
lands no earlier than `floor` (R99, R210). -/
structure Pkt where
  of : PktOf
  cls : Nat
  beats : Nat
  from_ : Nat
  floor : Nat
  deriving DecidableEq, Repr

/-- One direction of a link: the packets that wait, the beats left of the packet under way, and the queue whose turn is next
(R210). -/
structure Way where
  pkts : List Pkt := []
  left : Nat := 0
  turn : Nat := 0
  deriving DecidableEq, Repr

/-- A die-to-die link (R209 to R211): groups `.dn`, timed, in dead time, the turn queue, the last turn of each group, and the
packets of each direction. -/
structure Link where
  dir : BitVec 16 := 0xFF00
  cls : BitVec 16 := 0
  dead : BitVec 16 := 0
  deadEnd : KMap Nat := []
  queue : List TurnEntry := []
  lastTurn : KMap Nat := []            -- SIDC of the group's last turn plus 1
  uses : List LaneUse := []
  up : Way := {}
  dn : Way := {}
  deriving DecidableEq, Repr

-- ## Hub

/-- A packet in progress: its 256 bytes and what it has reached (R268, R270). -/
structure Packet where
  bytes : List Byte
  started : Nat
  team : BitVec 16                     -- its team once it is placed
  freed : List DieId                   -- dies of the teams that a LAUNCH pre-empts (R282)
  done : Option Byte                   -- its status once it has completed
  cause : Byte
  pos : W64
  off : Nat                            -- bytes of a COPY moved so far
  failed : Bool
  endAt : Nat                          -- the cycle in which its work of open duration ends
  deriving DecidableEq, Repr

/-- A hardware queue (R267, R269, R270). -/
structure Queue where
  base : W64 := 0
  en : Bool := false
  prio : BitVec 2 := 3
  lsz : BitVec 5 := 4
  tail : W32 := 0
  head : W32 := 0
  lstat : Byte := 0
  readyAt : Option Nat := none
  cur : List Packet := []              -- started packets that have not completed, oldest first
  deriving DecidableEq, Repr

/-- A record of a team image (R273). -/
structure ImgRec where
  ty : Byte
  die : Nat
  pos : Pos
  arg : W64
  body : List Byte
  deriving DecidableEq, Repr

/-- Where a team stands (R271 to R284, R292, R313): plane work before its start; started or about to; parked; frozen by a
cause or a STOP; frozen for a pre-emption; waiting to resume; plane work and unstowing before it resumes. -/
inductive TeamPhase where
  | preparing | running | parked | ending | preempting | preempted | resuming
  deriving DecidableEq, Repr

/-- A running or pre-empted team. -/
structure Team where
  num : BitVec 16
  queue : Fin 32
  pkt : List Byte
  dies : List DieId
  phase : TeamPhase
  recs : List ImgRec                   -- the records of its image (R273)
  planeAt : Nat                        -- its plane work ends in this cycle; 0 once its differences have been sent (R274)
  start : Nat                          -- S_0 (R277)
  delta : Nat                          -- its die starts' spacing (R278)
  begun : List DieId                   -- dies that have started, or resumed
  prio : Nat
  preok : Bool
  grants : List (DieId × Pos × Nat)
  status : Byte
  cause : Byte
  pos : W64
  sstart : Nat
  breach : Nat
  trigbad : Nat
  stowed : List DieId                  -- dies whose stow for a fault or a pre-emption has ended
  unsettled : List DieId := []         -- those of them whose far work had not ended by then (R282, R283)
  holds : Nat := 0                     -- held die cycles up to its pre-emption (R276, R282)
  deriving DecidableEq, Repr

/-- An operation of a graph run (R285): whether it has fired, and when it completes. -/
structure GraphOp where
  rec_ : Four W64
  fired : Bool
  startAt : Nat                        -- the cycle in which it fired
  endAt : Nat
  down : Bool                          -- its port's link went down while it ran (R309)
  doneOp : Bool
  deriving DecidableEq, Repr

/-- A graph handle of a queue (R285). -/
structure Handle where
  ops : List (Four W64) := []
  loaded : Bool := false
  ctrs : KMap Nat := []
  run : Option (List GraphOp × List W64) := none
  err : Option Byte := none
  deriving DecidableEq, Repr

/-- A Filys-X port (R309). -/
structure XPort where
  en : Bool := false
  up : Bool := false
  loss : Bool := false
  peer : BitVec 48 := 0
  rx : KMap (List (Bool × Byte)) := [] -- bytes by channel in arrival order, each with a mark of a compressed send (R287)
  tx : KMap (List (Bool × Byte)) := [] -- bytes sent
  deriving DecidableEq, Repr

/-- A TRIG on its way to the base camp (R249). -/
structure TrigMsg where
  team : BitVec 16
  handle : BitVec 4
  ctr : Byte
  deriving DecidableEq, Repr

/-- The hub die: base camp, host interface, governor, boot and security. -/
structure Hub where
  queues : KMap Queue := []
  lastQueue : Nat := 31
  qage : W32 := 0x10000
  fences : KMap W64 := []
  teams : List Team := []
  lastTeam : Nat := 0
  didtlim : W64 := 0x02580064
  lanelim : W64 := 0x010001000020
  lanelimNext : Option W64 := none
  lanelimTeams : List (BitVec 16) := [] -- the teams whose exits the value waits for (R212)
  ramps : List Nat := []
  handles : KMap Handle := []          -- key 16 queue + handle
  trigs : List TrigMsg := []
  ports : KMap XPort := []
  hevbase : W64 := 0
  heven : Bool := false
  hevvec : BitVec 11 := 0
  hevlsz : BitVec 5 := 8
  hevtail : W32 := 0
  hevhead : W32 := 0
  hevlost : W32 := 0
  hevheld : List (Four W64) := []
  repeats : List (Four W64) := []      -- type 1 reports that the store had no room for
  w2off : BitVec 8 := 0
  bar2 : Nat := 30                     -- log2 of the BAR2 size (DESIGN CHOICE, log 64)
  msix : KMap W64 := []                -- the table and pending-bit words by offset
  raised : List (BitVec 11) := []      -- vectors raised and not taken by the host
  telctl : W64 := 6
  telbase : W64 := 0
  templim : W32 := 0x550
  dbgctl : Bool := false
  dbgt : W64 := 0
  dbgat : Bool := false
  dbgmask : BitVec 4 := 0
  dbgfsa : W64 := 0
  dbgdata : W64 := 0
  dbgfbad : Bool := false
  trcctl : W64 := 0xA
  trcbase : W64 := 0
  trctail : W32 := 0
  trchead : W32 := 0
  trclost : W32 := 0
  hevnow : List (Four W64) := []       -- events that have reached the hub in this cycle
  latest : KMap (List W64) := []       -- the latest telemetry record of each die, which the sideband reads (R311)
  bar2Reads : List (Option (List Byte)) := [] -- completions of BAR2 reads, oldest first: data, or Completer Abort (R307)
  msixOn : Bool := false               -- MSI-X Enable and Function Mask of the configuration space (R308)
  msixMask : Bool := false
  trcstore : List (Four W64) := []
  trcseq : Nat := 0
  bootst : Byte := 0
  bootAt : Option Nat := none           -- the boot ROM's verification of a staged image ends in this cycle (R316)
  staging : KMap Byte := []
  capbase : W64 := 0
  caps : KMap W64 := []
  fwVersion : W64 := 0
  fwSecurity : W64 := 0
  fwDigest : BitVec 256 := 0
  spdm : Nat := 0                      -- how far an SPDM connection has come
  doe : List Byte := []                -- the last SPDM response
  gddrRefresh : KMap Nat := []         -- refresh of channel k ends in this cycle
  deriving DecidableEq, Repr

/-- Power and reset of the module (R316). -/
inductive Power where
  | off | inReset | boot | running
  deriving DecidableEq, Repr

/-- The word being issued: die, station, stream, its parcel and whether the handler issues it. -/
structure Focus where
  die : DieId := 0
  pos : Pos := 0
  strm : Strm := .c
  parcel : Parcel := 0
  handler : Bool := false
  replay : Bool := false
  moved : Bool := false                -- the word has set its stream's next-word state itself
  wait : Nat := 0                      -- cycles that the word adds before the next word (R240)
  deriving DecidableEq, Repr

/-- A write of the host to the function's configuration space: the size of BAR2 by its log2, or MSI-X Enable and Function Mask
(R306, R308). -/
inductive CfgWrite where
  | bar2 (n : Nat)
  | msix (on mask : Bool)
  deriving DecidableEq, Repr

/-- What is left to do in the current sidereal cycle (DESIGN CHOICE, log 2). -/
inductive Task where
  | ev (i : Instr)
  | issue (d : DieId) (p : Pos) (st : Strm)
  | close (d : DieId)
  | settle (d : DieId)
  | hissue (d : DieId)
  | hclose (d : DieId)
  | replay (d : DieId) (p : Pos) (st : Strm)
  | resumeEnd (d : DieId)
  | slot (d : DieId)
  | stow (d : DieId)
  | links
  | hub
  | hubEnd
  deriving DecidableEq, Repr

/-- A die as a stow image has saved it, for the parts whose layout the spec leaves open (DESIGN CHOICE, log 16). -/
structure Snap where
  die : DieId
  image : Die
  deriving DecidableEq, Repr

/-- A granule of far memory, by its address there, as it stood before one write of it: the cycle from which it no longer stood so; the
die, station and number of the write, and whether a haul made it; the points that have released it, and the stations whose own accesses
are ordered behind it (R244, R264). -/
structure OldRow where
  at_ : Nat
  row : Row
  from_ : Nat
  die : DieId
  pos : Pos
  seq : Nat
  haul : Bool
  pts : List Nat
  shut : List (DieId × Pos)
  deriving DecidableEq, Repr

/-- The module. -/
structure State where
  now : Nat
  sidc : Nat
  power : Power
  agenda : List Task
  focus : Focus
  inbox : List (Nat × Instr)
  cfg : List (Nat × CfgWrite)
  dies : Four Die
  far : Four FarSide
  links : KMap Link
  cavd : List CavdItem
  mem : List Host.Cell
  hostMem : List Host.Cell
  hub : Hub
  snaps : List Snap
  olds : List OldRow                   -- earlier values of far granules that a read may still take, newest first (R264, R266)
  ctr : Nat
  deriving DecidableEq, Repr

/-- Why a step can stop. -/
inductive Fault where
  /-- Raised by `step` when module power is off and no outside event is left to come: no later cycle exists (R316). Safe:
  the spec gives the part no behaviour without power. -/
  | powerOff
  deriving DecidableEq, Repr

/-- Why an instruction has no meaning here. -/
inductive Refusal where
  /-- Raised by the arm of an instruction that the model gives no meaning yet. Safe: nothing is claimed of it. -/
  | notModelled (mnemonic : String)
  deriving DecidableEq, Repr

/-- A station right after module reset: no stream has code (R52, R273); other values: DESIGN CHOICE, log 5, log 8. -/
def Station.reset : Station :=
  { plane := [(0, 0xFFFF), (1, 0xFFFF), (2, 0xFFFF), (3, 0xFFFF)],
    shadow := [(0, 0xFFFF), (1, 0xFFFF), (2, 0xFFFF), (3, 0xFFFF)],
    kept := [(0, 0xFFFF), (1, 0xFFFF), (2, 0xFFFF), (3, 0xFFFF)] }

/-- A die right after module reset. -/
def Die.reset : Die := { stations := Vector.replicate 128 Station.reset }

/-- The module right after the hub leaves reset: SIDC 0, boot state, dies and controllers in reset (R14, R316). -/
def State.reset : State :=
  { now := 0, sidc := 0, power := .boot, agenda := [], focus := {}, inbox := [], cfg := [], dies := Four.all Die.reset,
    far := Four.all {}, links := [], cavd := [], mem := [], hostMem := [], hub := {}, snaps := [], olds := [], ctr := 0 }

end Sys2Proof.Machine
end

