-- ==== Sys2Proof/Machine/Ops.lean ====
section
/-! DEFINITION. The named operations over memory, registers and the dies, and taking a trap and returning from one: what
every meaning is written with. -/

namespace Sys2Proof.Machine

/-- The outcome type of every meaning. -/
abbrev Out := Host.Outcome State Fault Refusal

-- ## Far and host memory

/-- A byte of memory; what is not listed reads 0 (DESIGN CHOICE, log 6, DESIGN CHOICE, log 7). -/
def memGet (m : List Host.Cell) (a : Nat) : Byte := kget 0 a m

/-- Memory with one byte written. -/
def memPut (m : List Host.Cell) (a : Nat) (b : Byte) : List Host.Cell := kput 0 a b m

/-- `n` bytes from address `a` upward. -/
def memRead (m : List Host.Cell) (a n : Nat) : List Byte := (List.range n).map fun i => memGet m (a + i)

/-- Bytes written from address `a` upward. -/
def memWrite (m : List Host.Cell) (a : Nat) : List Byte → List Host.Cell
  | [] => m
  | b :: t => memPut (memWrite m (a + 1) t) a b

/-- The canonical form: rising addresses, no zero entry. -/
abbrev Memory.wf (m : List Host.Cell) : Prop := kwf (0 : Byte) m = true

/-- The key of die-local address `dla` of die `d` (R82). -/
def memKey (d : DieId) (dla : Nat) : Nat := d.val * 2 ^ 37 + dla

/-- A little-endian 64-bit word of memory. -/
def memWord (m : List Host.Cell) (a : Nat) : W64 := BitVec.ofNat 64 (leNat (memRead m a 8))

/-- GDDR 7 or vault of a die (R82). -/
def dlaMapped (dla : Nat) : Bool := dla < 0x100A000000

/-- The vault part of the map (R82). -/
def dlaVault (dla : Nat) : Bool := decide (0x1000000000 ≤ dla) && decide (dla < 0x100A000000)

-- ## Dies, stations, contexts

def State.die (s : State) (d : DieId) : Die := s.dies.get d

def State.setDie (s : State) (d : DieId) (x : Die) : State := { s with dies := s.dies.set d x }

def State.fs (s : State) (d : DieId) : FarSide := s.far.get d

def State.setFs (s : State) (d : DieId) (x : FarSide) : State := { s with far := s.far.set d x }

def Die.sta (d : Die) (p : Pos) : Station := d.stations.get p

def Die.setSta (d : Die) (p : Pos) (x : Station) : Die := { d with stations := d.stations.set p.val x p.isLt }

def Station.ctxOf (x : Station) (st : Strm) : Ctx := x.ctx.get st.idx

def Station.setCtx (x : Station) (st : Strm) (c : Ctx) : Station := { x with ctx := x.ctx.set st.idx c }

/-- All ring positions, ascending. -/
def allPos : List Pos := List.finRange 128

/-- All dies, ascending. -/
def allDies : List DieId := [0, 1, 2, 3]

/-- The die of the word being issued. -/
def State.curDie (s : State) : Die := s.die s.focus.die

/-- The station of the word being issued. -/
def State.curSta (s : State) : Station := s.curDie.sta s.focus.pos

/-- The context of the stream that issues. -/
def State.curCtx (s : State) : Ctx := s.curSta.ctxOf s.focus.strm

def State.updDie (s : State) (f : Die → Die) : State := s.setDie s.focus.die (f s.curDie)

def State.updSta (s : State) (f : Station → Station) : State :=
  s.updDie fun d => d.setSta s.focus.pos (f (d.sta s.focus.pos))

def State.updCtx (s : State) (f : Ctx → Ctx) : State :=
  s.updSta fun x => x.setCtx s.focus.strm (f (x.ctxOf s.focus.strm))

/-- The cycle the issuing word counts by: the die cycle, or the sidereal cycle in handler mode (R15, R293). -/
def State.cyc (s : State) : Nat := if s.focus.handler then s.sidc else s.curDie.dcyc

/-- A fresh free number (DESIGN CHOICE, log 9). -/
def State.fresh (s : State) : Nat := Config.freeNat s.ctr

/-- The state after a free value has been taken. -/
def State.bump (s : State) : State := { s with ctr := s.ctr + 1 }

/-- A free 64-bit value, the k-th taken at this count (DESIGN CHOICE, log 9); the pair is numbered as Cantor's pairing does. -/
def freeAt (ctr k : Nat) : W64 := Config.freeWord ((ctr + k) * (ctr + k + 1) / 2 + k)

def State.freeW (s : State) (k : Nat) : W64 := freeAt s.ctr k

-- ## Registers (R126, R128)

/-- A scalar of the issuing stream or the mirror ts48 + n (R48, R49, R126). -/
def scalOfSta (x : Station) (st : Strm) : Scal → W64
  | .reg n => if n = 0 then 0 else match st with
    | .c => kget 0 (idx n) x.s
    | .l => kget 0 (idx n) x.aL
    | .s => kget 0 (idx n) x.aS
    | .x => 0
  | .ts n => kget 0 (48 + idx n) x.s

def State.scal (s : State) (a : Scal) : W64 := scalOfSta s.curSta s.focus.strm a

/-- `b|imm` of a scalar form: IMM sign-extended to 64 bits (R46, R47). -/
def State.sop (s : State) : SOp → W64
  | .r a => s.scal a
  | .i v => v.signExtend 64

/-- Predicate `n` of a context; q0 reads 1 (R231). -/
def Ctx.pred (c : Ctx) (n : BitVec 3) : Bool := n == 0 || bit c.q (idx n)

def State.pred (s : State) (n : BitVec 3) : Bool := s.curCtx.pred n

/-- The physical register that a name denotes; `none` for a dead name (R130). -/
def physOf (r : Rotd) (n : BitVec 5) : Option (BitVec 5) :=
  if n.toNat < 16 then some n
  else if n.toNat < 16 + r.d then some (BitVec.ofNat 5 (16 + (n.toNat - 16 + r.rb) % r.d))
  else none

/-- Row `i` of a physical vector register. -/
def Station.vrow (x : Station) (p : BitVec 5) (i : Nat) : Row := kget 0 (16 * p.toNat + i) x.v

/-- The sixteen rows of a physical vector register. -/
def Station.vrows (x : Station) (p : BitVec 5) : List Row := (List.range 16).map (x.vrow p)

/-- Mask `n`; m0 reads all ones (R126). -/
def Station.mask (x : Station) (n : BitVec 3) : MaskReg := if n = 0 then BitVec.allOnes 1024 else kget 0 (idx n) x.m

/-- A bank row. -/
def Station.bankRow (x : Station) (b : BitVec 3) (r : Nat) : Row := kget 0 (128 * b.toNat + r) x.bank

def Station.setBankRow (x : Station) (b : BitVec 3) (r : Nat) (v : Row) : Station :=
  { x with bank := kput 0 (128 * b.toNat + r) v x.bank }

-- ## Writes in flight (R128)

/-- Adds an in-flight write of the issuing word that lands `lat` cycles after its issue. -/
def State.putWrite (s : State) (lat : Nat) (name : Byte) (t : WTarget) : State :=
  let w : WriteRec :=
    { strm := s.focus.strm, parcel := s.focus.parcel, issued := s.cyc, land := s.cyc + lat, name := name,
      by_ := s.focus.pos, target := t }
  if s.focus.handler then s.updDie fun d => { d with hwrites := d.hwrites ++ [w] }
  else s.updSta fun x => { x with writes := x.writes ++ [w] }

/-- A scalar result of the issuing stream; a write to s0 or a0 is discarded in its landing cycle (R49, R128). -/
def State.putScal (s : State) (lat : Nat) (d : BitVec 6) (v : W64) : State :=
  s.putWrite lat (d.setWidth 8) (if s.focus.strm = .c then .s d v else .a s.focus.strm d v)

/-- A predicate result of the issuing stream; a write to q0 is discarded in its landing cycle (R49, R128, R231). -/
def State.putPred (s : State) (lat : Nat) (d : BitVec 3) (v : Bool) : State :=
  s.putWrite lat (prdCode d) (.q s.focus.strm d v)

/-- FPCTL events that the issuing word sets in its landing cycle; none in handler mode (R73, R294). -/
def State.putFlags (s : State) (lat : Nat) (f : FpFlags) : State :=
  if s.focus.handler || f.bits == 0 then s
  else
    let w : FlagRec :=
      { strm := s.focus.strm, parcel := s.focus.parcel, issued := s.cyc, land := s.cyc + lat, bits := f.bits }
    s.updSta fun x => { x with flags := x.flags ++ [w] }

-- ## Causes and traps

/-- The code of a cause (R302). -/
def causeCode : Cause → Byte
  | .illegalOpc => 0x01 | .illegalGuard => 0x02 | .wrongStream => 0x03 | .reservedBits => 0x04 | .reservedReg => 0x05
  | .reservedMod => 0x06 | .badHeader => 0x08 | .sectionOrder => 0x09 | .branchEarly => 0x0A | .loopDepth => 0x0B
  | .callDepth => 0x0C | .writeClash => 0x20 | .outOfAllotment => 0x21 | .schedMiss => 0x40 | .farWait => 0x41
  | .alignOverrun => 0x42 | .pipeClash => 0x43 | .unitBusy => 0x44 | .slotMiss => 0x45 | .rdvInExchange => 0x46
  | .bankClash => 0x60 | .laneClash => 0x61 | .bufState => 0x62 | .bankRange => 0x63 | .edgeRange => 0x64
  | .fqOverflow => 0x65 | .fqUnderflow => 0x66 | .admitClash => 0x80 | .paneEmpty => 0x81 | .gradNan => 0x82
  | .accHeadroom => 0x83 | .innerSat => 0x84 | .windowRange => 0x85 | .cellParity => 0x8A | .protection => 0xA1
  | .regionMiss => 0xA2 | .unmappedPa => 0xA3 | .mcNotReady => 0xA4 | .uncorrectable => 0xA5 | .turnRefused => 0xD0
  | .laneDirection => 0xD1 | .cavSlotBusy => 0xD2 | .vfpInvalid => 0xE0 | .vfpOverflow => 0xE1 | .vfpDivzero => 0xE2
  | .trapN n => 0xF0 + n.setWidth 8 | .imemUncorrectable => 0xF9 | .debugStop => 0xFA | .monitorFire => 0xFB

/-- The class of a cause (R290, R302). -/
def causeClass (c : Cause) : Nat :=
  let k := (causeCode c).toNat
  if k < 0x20 then 0 else if k < 0x40 then 1 else if k < 0x60 then 2 else if k < 0x80 then 3 else if k < 0xA0 then 4
  else if k < 0xD0 then 5 else if k < 0xE0 then 7 else if k < 0xF0 then 8 else 9

/-- An error response's cause from its code (R91). -/
def errCause (b : Byte) : Cause :=
  if b = 0xA1 then .protection else if b = 0xA2 then .regionMiss else if b = 0xA3 then .unmappedPa
  else if b = 0xA4 then .mcNotReady else .uncorrectable

/-- Subcode of a cause raised at issue: n for TRAP n, as given for OUT_OF_ALLOTMENT (R291). -/
def causeSub : Cause → Byte
  | .trapN n => n.setWidth 8
  | _ => 0

/-- A cause of the current cycle, kept for the freeze at its end (R288, R289). -/
def Die.raise (d : Die) (c : CauseRec) : Die := { d with causes := d.causes ++ [c] }

/-- A cause of an access or a landing, or of the array, named by the word that caused it (R289). -/
def Die.raiseAt (d : Die) (rank order : Nat) (c : Cause) (sub : Byte) (pos : Pos) (strm : Strm) (parcel : Parcel) : Die :=
  d.raise { cause := c, sub := sub, rank := rank, pos := pos, strm := strm, parcel := parcel, named := true, order := order }

/-- The issuing word raises a cause: it has no other effect, and its issue latch takes it (R288, R297). -/
def State.trapSub (s : State) (c : Cause) (sub : Byte) : State :=
  s.updDie fun d =>
    { d.raise { cause := c, sub := sub, rank := 2, pos := s.focus.pos,
                strm := s.focus.strm, parcel := s.focus.parcel, named := true, order := 0 } with
      latchNow := d.latchNow ++ [(s.focus.pos, s.focus.strm, s.focus.parcel, causeCode c)] }

/-- The issuing word raises a cause. -/
def State.trap (s : State) (c : Cause) : State := s.trapSub c (causeSub c)

/-- A meaning that raises a cause. -/
def raise (s : State) (c : Cause) : Out := .next (s.trap c)

/-- An effect of the issuing word at the end of its cycle. -/
def State.later (s : State) (e : Eoc) : State := s.updDie fun d => { d with eoc := d.eoc ++ [e] }

-- ## Bad words of station storage (R304)

/-- The 32-bit words below `n` of a piece of storage that have an uncorrectable error. -/
def Die.badIn (d : Die) (f : Nat → BadPlace) (n : Nat) : List Nat :=
  if d.bad.isEmpty then [] else (List.range n).filter fun k => d.bad.contains (f k)

/-- A row with 0xFFFF_FFFF in each bad word. -/
def poison (bad : List Nat) (r : Row) : Row :=
  if bad.isEmpty then r
  else rowOfLanes ((List.range 64).map fun j => if bad.contains j then 0xFFFFFFFF else lane r j)

/-- UNCORRECTABLE at a station SRAM read, named by the word that accesses it; nothing where no word is bad (R289, R304). -/
def Die.raiseBad (d : Die) (bad : List Nat) (pos : Pos) (strm : Strm) (parcel : Parcel) : Die :=
  if bad.isEmpty then d else d.raiseAt 1 1 .uncorrectable 0 pos strm parcel

/-- The issuing word reads storage with the bad words `bad`. -/
def State.raiseBad (s : State) (bad : List Nat) : State :=
  s.updDie fun d => d.raiseBad bad s.focus.pos s.focus.strm s.focus.parcel

/-- Words of a bank that are written hold no error any more. -/
def Die.healKeys (d : Die) (p : Pos) (keys : List Nat) : Die :=
  if d.bad.isEmpty then d else { d with bad := d.bad.filter fun b => !keys.any fun k => .bank p k == b }

/-- The places of `n` words are written, and hold no error any more (DESIGN CHOICE, log 17). -/
def Die.heal (d : Die) (f : Nat → BadPlace) (n : Nat) : Die :=
  if d.bad.isEmpty then d else { d with bad := d.bad.filter fun b => !(List.range n).any fun k => f k == b }

-- ## Taking a trap and returning from one

/-- Whether cause `a` is reported before cause `b` of one cycle (R289). -/
def CauseRec.before (a b : CauseRec) : Bool :=
  if a.rank != b.rank then a.rank < b.rank
  else if a.order != b.order then a.order < b.order
  else if a.pos != b.pos then a.pos < b.pos
  else a.strm.idx < b.strm.idx

/-- The first cause of a cycle in the order of R289. -/
def firstCause : List CauseRec → Option CauseRec
  | [] => none
  | c :: t =>
    match firstCause t with
    | none => some c
    | some d => if d.before c then some d else some c

/-- TRAPPOS of a cause in die cycle `dcyc` (R291). -/
def trapposOf (c : CauseRec) (dcyc : Nat) : W64 :=
  if c.named then
    0#2 ++ BitVec.ofNat 2 c.strm.idx.val ++ BitVec.ofNat 7 c.pos.val ++ 0#5 ++ c.parcel ++ BitVec.ofNat 32 dcyc
  else BitVec.ofNat 64 (dcyc % 2 ^ 32)

/-- TRAPCAUSE of a freeze (R291). -/
def trapcauseOf (c : CauseRec) (multi unexec : Bool) : W64 :=
  1#1 ++ b1 multi ++ b1 unexec ++ 0#37 ++ c.sub ++ 0#8 ++ causeCode c.cause

/-- A cause goes to the handler when divert is on for its class and it is not always reported (R290). -/
def diverted (h : Hsta) (c : Cause) : Bool :=
  h.den && bit h.dcls (causeClass c) && (match c with
    | .imemUncorrectable | .debugStop => false
    | _ => true)

/-- The causes of a cycle that are reported to the base camp, with the positions they name (R290). -/
def undiverted (h : Hsta) (l : List CauseRec) : List (Byte × Pos) :=
  (l.filter fun c => !diverted h c.cause).map fun c => (causeCode c.cause, c.pos)

/-- The issue latches after a freeze: the trapped words of the cycle, V = 0 everywhere else (R297). -/
def latchesOf (d : Die) : Vector Station 128 :=
  (Vector.finRange 128).map fun p =>
    let x := d.sta p
    { x with ctx :=
      let f (st : Strm) : Ctx :=
        let c := x.ctxOf st
        match d.latchNow.find? fun t => t.1 == p && t.2.1 == st with
        | some t => { c with latch := { v := true, replay := false, parcel := t.2.2.1, cause := t.2.2.2 } }
        | none => { c with latch := {} }
      { x0 := f .c, x1 := f .l, x2 := f .s, x3 := f .x } }

/-- Taking a trap: the die freezes on its causes, with TRAPCAUSE, TRAPPOS and the issue latches written by the first of them; the
handler is due in the next sidereal cycle when every cause is diverted, otherwise the base camp is told of those that are not
(R288 to R292; DEDUCED, log 74). -/
def Die.freeze (d : Die) (sidc : Nat) (unexec : Bool) : Die :=
  match firstCause d.causes with
  | none => d
  | some c =>
    { d with
      cond := .frozen, unexec := unexec, sfrz := sidc, causes := [], latchNow := [],
      trapcause := trapcauseOf c (decide (d.causes.length > 1)) unexec, trappos := trapposOf c d.dcyc,
      handlerNext := (undiverted d.hsta d.causes).isEmpty, reports := undiverted d.hsta d.causes,
      stations := latchesOf d }

/-- A freeze for which no cause is named: a STOP, another die's reported cause, or a pre-emption (R24, R282, R284, R292;
DEDUCED, log 38). -/
def Die.freezeQuiet (d : Die) (sidc : Nat) (unexec : Bool) : Die :=
  { d with
    cond := .frozen, unexec := unexec, sfrz := sidc, latchNow := [], stopAt := none,
    trapcause := 1#1 ++ 0#1 ++ b1 unexec ++ 0#61, trappos := BitVec.ofNat 64 (d.dcyc % 2 ^ 32), handlerNext := false,
    stations := latchesOf { d with latchNow := [] } }

/-- The die runs on from its frozen cycle in cycle `sidc` + 1: the next die cycle, d itself when it was not executed, or the
rest of an alignment wait; asynchronous causes that came while it was frozen wait for the next executed cycle (R241, R298). -/
def Die.unfreeze (d0 : Die) (sidc : Nat) : Die :=
  let d := { d0 with late := d0.late ++ d0.asyncs, asyncs := [] }
  if d.unexec then { d with cond := .running, unexec := false, handlerNext := false }
  else if sidc + 1 < d.notBefore then { d with cond := .waiting, handlerNext := false }
  else { d with cond := .running, dcyc := d.dcyc + 1, notBefore := 0, handlerNext := false }

end Sys2Proof.Machine
end

