-- ==== Sys2Proof/Machine/Operands.lean ====
section
/-! DEFINITION. Operand forms beyond the plain scalar: vector operands, typed scalar operands, effective addresses, and the
noise draws of a station (R46, R47, R67, R164, R165). -/

namespace Sys2Proof.Machine

-- ## Noise (R164, R165)

/-- One step of the noise register. -/
def lfsr (s : W32) : W32 := if bit s 0 then (s >>> 1) ^^^ 0x80200003 else s >>> 1

/-- `n` steps of the noise register. -/
def lfsrN : Nat → W32 → W32
  | 0, s => s
  | n + 1, s => lfsrN n (lfsr s)

/-- One draw (R165). -/
def Noise.draw (n : Noise) : BitVec 16 × Noise :=
  if n.mode = 0 then (0, n)
  else
    let s := lfsrN 16 n.s
    (s.setWidth 16, { n with s := s })

/-- `k` draws in order. -/
def Noise.draws : Nat → Noise → List (BitVec 16) × Noise
  | 0, n => ([], n)
  | k + 1, n =>
    let d := n.draw
    let r := Noise.draws k d.2
    (d.1 :: r.1, r.2)

/-- A draw of the issuing word if it draws; the noise value is 0 otherwise and in handler mode (R165, R294). -/
def State.noiseIf (s : State) (draws : Bool) : Nat × State :=
  if !draws || s.focus.handler then (0, s)
  else
    let d := s.curSta.noise.draw
    (d.1.toNat, s.updSta fun x => { x with noise := d.2 })

/-- What a CSRW of `v` to NOISE does at the end of its cycle (R164); `e` is a value from the entropy source (DESIGN CHOICE, log 13). -/
def Noise.write (n : Noise) (v : W64) (e : W32) : Noise :=
  let live : W32 := if e = 0 then 1 else e
  match (v.setWidth 2 : BitVec 2) with
  | 0 => { n with mode := 0 }
  | 1 => { seed := 0, mode := 1, s := live }
  | 2 => { seed := live, mode := 2, s := live }
  | _ =>
    let s : W32 := if fld v 32 32 = 0 then 1 else fld v 32 32
    { seed := s, mode := 3, s := s }

-- ## Scalars

/-- The FP32 pattern in bits [31:0] of a scalar operand; the I form's IMM as a bit pattern (R228). -/
def State.f32 (s : State) (a : Scal) : W32 := (s.scal a).setWidth 32

def State.f32op (s : State) : SOp → W32
  | .r a => s.f32 a
  | .i v => v

/-- The effective address a + sext(IMM) (R230, R296). -/
def State.ea (s : State) (a : Scal) (imm : W32) : W64 := s.scal a + imm.signExtend 64

/-- An FP32 result in a 64-bit register (R67). -/
def f64of (x : W32) : W64 := x.setWidth 64

-- ## Vectors (R47, R145)

/-- Row `i` of the vector operand `b|imm`: a register row, or the immediate in every lane. -/
def vopRow (x : Station) (b : Option (BitVec 5)) (imm : W32) (i : Nat) : Row :=
  match b with
  | some p => x.vrow p i
  | none => rowOfLanes (List.replicate 64 imm)

end Sys2Proof.Machine
end

