-- ==== Sys2Proof/Machine/Banks.lean ====
section
/-! DEFINITION. Bank formats and their rows, buffers, port A, the edge pointers, and the words of the L and S streams that
use them: bank loads and stores, RLD and RST, BANKFMT, BUFDECL, BUFSET, EDGESET (R78 to R80, R112 to R121, R125, R135 to
R141). -/

namespace Sys2Proof.Machine

-- ## Formats (R78 to R80)

/-- The element type of a bank format. -/
def BankFmt.type (f : BankFmt) : Ty := (tyOf f.ty).getD .f32

/-- The MX image of a type and its blocks per data row (R79). -/
def mxOf : Ty → Option (Fimg × Nat)
  | .mx8 => some (.mx8, 8)
  | .mx6 => some (.mx6, 10)
  | .mx4 => some (.mx4, 16)
  | _ => none

/-- Element width in bits (R79). -/
def tyBits : Ty → Nat
  | .f32 | .i32 | .n32 => 32
  | .bf16 | .i16 | .n16 => 16
  | .mx6 => 6
  | .mx4 => 4
  | _ => 8

/-- Elements per data row (R79). -/
def tyEpr : Ty → Nat
  | .f32 | .i32 | .n32 => 64
  | .bf16 | .i16 | .n16 => 128
  | .mx6 => 320
  | .mx4 => 512
  | _ => 256

/-- Greatest SROW of an MX type (R79). -/
def srowMax : Ty → Nat
  | .mx8 => 124
  | .mx6 => 123
  | _ => 120

/-- Row `row` of a bank of this format is raw: a scale-plane row (R80). -/
def BankFmt.rawRow (f : BankFmt) (row : Nat) : Bool := (mxOf f.type).isSome && decide (f.srow.toNat ≤ row)

/-- Where the scale of block `b` stands: row and byte (R79). -/
def BankFmt.scaleAt (f : BankFmt) (b : Nat) : Nat × Nat := (f.srow.toNat + b / 256, b % 256)

/-- Element `k` of a packed row (R78). -/
def elemOf (w : Nat) (r : Row) (k : Nat) : Nat := (fld r (w * k) w).toNat

/-- A signed element. -/
def signedOf (w v : Nat) : Int := if v ≥ 2 ^ (w - 1) then (v : Int) - (2 ^ w : Nat) else v

/-- Decoding of one element that is not MX (R80). -/
def decElem (t : Ty) (v : Nat) : W32 :=
  match intTy t with
  | some (w, sg) => BitVec.ofInt 32 (readInt w sg (BitVec.ofNat 32 v))
  | none => if t = .f32 then BitVec.ofNat 32 v else (cvt t .f32 .rne false 0 (BitVec.ofNat 32 v)).1

/-- dec_bank of row `row` of bank `b`: its lanes in element order, each with the OF and NX of R77 (R80). -/
def decRow (x : Station) (b : BitVec 3) (f : BankFmt) (raw : Bool) (row : Nat) (r : Row) : List (W32 × FpFlags) :=
  if raw then (lanesOf r).map fun v => (v, FpFlags.none)
  else
    let w := tyBits f.type
    (List.range (tyEpr f.type)).map fun k =>
      let e := elemOf w r k
      match mxOf f.type with
      | some (im, bpr) =>
        let sc := f.scaleAt (row * bpr + k / 32)
        dqnt (fld (x.bankRow b sc.1) (8 * sc.2) 8).toNat (signedOf w e) (fimgF im)
      | none => (decElem f.type e, FpFlags.none)

/-- A row with elements of `w` bits written from element 0 on (R78); what they do not fill, as bytes 240 to 255 of a full `.mx6` row, stays
(DESIGN CHOICE, log 104). -/
def packRow (w : Nat) (es : List Nat) (old : Row) : Row :=
  let v := es.foldr (fun e n => e % 2 ^ w + 2 ^ w * n) 0
  let m := 2 ^ (w * es.length) - 1
  (old &&& ~~~BitVec.ofNat 2048 m) ||| BitVec.ofNat 2048 v

/-- A byte of a row written. -/
def putByte (r : Row) (i v : Nat) : Row :=
  (r &&& ~~~BitVec.ofNat 2048 (255 * 2 ^ (8 * i))) ||| BitVec.ofNat 2048 (v % 256 * 2 ^ (8 * i))

/-- Groups of 32. -/
def chunks32 {α : Type} : Nat → List α → List (List α)
  | 0, _ => []
  | n + 1, l => if l.isEmpty then [] else l.take 32 :: chunks32 n (l.drop 32)

/-- Encoding of one lane that is not MX (R139). -/
def encElem (t : Ty) (v : W32) : Nat :=
  match intTy t with
  | some (_, sg) => (cvt (if sg then .i32 else .n32) t .rne false 0 v).1.toNat
  | none => if t = .f32 then v.toNat else (cvt .f32 t .rne false 0 v).1.toNat

/-- The rows that a store of `vals` into row `row` changes, with their new contents (R139): the data row, and the rows that
hold its blocks' scales. `noise` serves a rounding under `.rsr`; other modes do not read it. -/
def encRow (x : Station) (b : BitVec 3) (f : BankFmt) (raw : Bool) (row : Nat) (rnd : Rnd) (noise : List Nat)
    (vals : List W32) : List (Nat × Row) :=
  if raw then [(row, packRow 32 (vals.map (·.toNat)) (x.bankRow b row))]
  else
    let w := tyBits f.type
    match mxOf f.type with
    | none => [(row, packRow w (vals.map (encElem f.type)) (x.bankRow b row))]
    | some (im, bpr) =>
      let qs := (chunks32 16 vals).zipIdx.map fun (c, q) => qntBlock (fimgF im) rnd ((noise.drop (32 * q)).take 32) c
      let es := qs.flatMap fun q => q.2.1.map fun (e : Int) => (e % (2 ^ w : Nat)).toNat
      let data := (row, packRow w es (x.bankRow b row))
      let put (rows : KMap Row) (c : (Nat × List Int × FpFlags) × Nat) : KMap Row :=
        let sc := f.scaleAt (row * bpr + c.2)
        let old := match rows.find? fun e => e.1 == sc.1 with
          | some e => e.2
          | none => x.bankRow b sc.1
        (rows.filter fun e => e.1 != sc.1) ++ [(sc.1, putByte old sc.2 c.1.1)]
      data :: qs.zipIdx.foldl put []

/-- The rows that an access of row `row` touches: an MX data row brings the rows of its blocks' scales (R119, R137;
DEDUCED, log 49). -/
def touchedRows (f : BankFmt) (raw : Bool) (row : Nat) : List Nat :=
  if raw then [row]
  else
    match mxOf f.type with
    | none => [row]
    | some (_, bpr) =>
      let a := (f.scaleAt (row * bpr)).1
      let z := (f.scaleAt (row * bpr + bpr - 1)).1
      if a = z then [row, a] else [row, a, z]

-- ## Buffers (R118 to R121)

/-- The declared buffer that holds a row of a bank, with its number. -/
def Station.bufAt (x : Station) (b : BitVec 3) (row : Nat) : Option (Nat × Buf) :=
  x.buf.find? fun e => e.2.declared && e.2.bank == b && decide (e.2.first.toNat ≤ row) && decide (row ≤ e.2.last.toNat)

/-- A buffer by number. -/
def Station.bufN (x : Station) (n : Nat) : Buf := kget {} n x.buf

def Station.setBuf (x : Station) (n : Nat) (b : Buf) : Station := { x with buf := kput {} n b x.buf }

/-- The distinct buffers that hold any of the rows. -/
def Station.bufsOf (x : Station) (b : BitVec 3) (rows : List Nat) : List (Nat × Buf) :=
  x.buf.filter fun e => rows.any fun r => (x.bufAt b r).any fun f => f.1 == e.1

/-- The check of R119 for an access of rows whose buffers are `l`. -/
def bufsAllow (wr : Bool) (l : List (Nat × Buf)) : Bool :=
  l.all fun e => if wr then e.2.st == 0 || e.2.st == 1 else e.2.st == 2 || e.2.st == 3

/-- A buffer in a new state; nread returns to 0 when it becomes empty (R119). -/
def Buf.move (b : Buf) (st : BitVec 2) : Buf :=
  if st = 0 then { b with st := 0, nread := 0, seen := [] } else { b with st := st }

/-- The reads of a cycle by `words`: full becomes draining, each word counts once, however many rows it moves, from its first row
on (DEDUCED, log 80), and READS reached empties the buffer (R119). -/
def Buf.readBy (b : Buf) (words : List (Pos × Strm × Nat)) : Buf :=
  if words.isEmpty then b
  else
    let d := b.move 3
    if b.reads = 0 then d
    else
      let new := (words.filter fun w => !b.seen.contains w).eraseDups
      let e := { d with nread := d.nread + new.length, seen := new ++ d.seen }
      if e.nread ≥ b.reads.toNat then e.move 0 else e

/-- A write access: empty becomes filling (R119). -/
def Buf.written (b : Buf) : Buf := if b.st = 0 then b.move 1 else b

/-- BUFSET on a buffer in a state that allows it (R119, R121). -/
def Buf.set (b : Buf) (full : Bool) : Buf :=
  if full then (if b.st = 0 || b.st = 1 then b.move 2 else b) else b.move 0

/-- BUFSET's check (R119, R121). -/
def Buf.setOk (b : Buf) (full : Bool) : Bool :=
  b.declared && (if full then b.st != 3 else !(b.st == 1 && b.writers != 0))

/-- Fields of a BUFDECL immediate (R118). -/
def declOf (v : W32) : Buf :=
  { declared := true, bank := fld v 24 3, first := fld v 17 7, last := fld v 10 7, reads := fld v 0 10 }

/-- What BUFDECL raises (R118; DEDUCED, log 45). The check of a withdrawal's unused bits stands with the others of this rule: the
model makes it when the word acts, not at the encoding checks of R62 (DESIGN CHOICE, log 78). -/
def declCause (x : Station) (v : W32) : Option Cause :=
  let n := (fld v 28 4).toNat
  let b := x.bufN n
  let c := declOf v
  let busy := b.declared && b.st != 0
  if !bit v 27 then
    if fld v 0 27 != 0 then some .reservedBits else if busy then some .bufState else none
  else if c.last < c.first then some .bankRange
  else if x.buf.any fun e => e.1 != n && e.2.declared && e.2.bank == c.bank && e.2.first ≤ c.last && c.first ≤ e.2.last
    then some .bankRange
  else if busy then some .bufState
  else none

/-- The station after BUFDECL (R118). -/
def Station.declare (x : Station) (v : W32) : Station :=
  x.setBuf (fld v 28 4).toNat (if bit v 27 then declOf v else {})

-- ## Vector names (R130, R133)

/-- Subcode of OUT_OF_ALLOTMENT for a dead name (R133). -/
def deadSub (r : Rotd) (n : BitVec 5) : Byte := if n.toNat < 16 + r.pd then 2 else 1

/-- The physical register of a name, or the subcode of OUT_OF_ALLOTMENT. -/
def State.vphys (s : State) (n : BitVec 5) : Except Byte (BitVec 5) :=
  match physOf s.curSta.rotd n with
  | some p => .ok p
  | none => .error (deadSub s.curSta.rotd n)

/-- A meaning that raises OUT_OF_ALLOTMENT. -/
def raiseDead (s : State) (sub : Byte) : Out := .next (s.trapSub .outOfAllotment sub)

/-- All lanes. -/
def allLanes : BitVec 64 := BitVec.allOnes 64

/-- Row `i` of a physical register as the issuing word reads it, and its bad words (R128, R304). -/
def State.vread (s : State) (ph : BitVec 5) (i : Nat) : Row × List Nat :=
  let bad := s.curDie.badIn (fun k => .vreg s.focus.pos (64 * (16 * ph.toNat + i) + k)) 64
  (poison bad (s.curSta.vrow ph i), bad)

-- ## Port A (R114, R119)

/-- The word that issued a port-A access, as buffers count it. -/
def PortA.word (a : PortA) : Pos × Strm × Nat := (a.by_, a.strm, a.issued)

/-- A register write that the word behind a port-A access makes. -/
def PortA.write (a : PortA) (land : Nat) (name : Byte) (t : WTarget) : WriteRec :=
  { strm := a.strm, parcel := a.parcel, issued := a.issued, land := land, name := name, by_ := a.by_, target := t }

def Die.addWrite (d : Die) (p : Pos) (w : WriteRec) : Die :=
  d.setSta p { d.sta p with writes := (d.sta p).writes ++ [w] }

/-- FPCTL events of a station in its landing cycle. -/
def Die.addFlags (d : Die) (p : Pos) (f : FlagRec) : Die :=
  if f.bits = 0 then d else d.setSta p { d.sta p with flags := (d.sta p).flags ++ [f] }

/-- The events of some elements together. -/
def orFlags (l : List FpFlags) : FpFlags := l.foldl FpFlags.or FpFlags.none

/-- A register row that a bank load delivers, with the events of its lanes (R137). -/
def Die.loadRow (d : Die) (a : PortA) (j : LoadJob) (i land : Nat) (lanes : List (W32 × FpFlags)) : Die :=
  let w := a.write land j.name (.v j.phys (BitVec.ofNat 4 (j.vrow + i)) allLanes (rowOfLanes (lanes.map (·.1))))
  (d.addWrite a.by_ w).addFlags a.by_
    { strm := a.strm, parcel := a.parcel, issued := a.issued, land := land, bits := (orFlags (lanes.map (·.2))).bits }

/-- Events by the FPCTL bits they set. -/
def flagsOf (b : BitVec 5) : FpFlags := { nx := bit b 4, uf := bit b 3, dz := bit b 2, ov := bit b 1, nv := bit b 0 }

/-- Element `k` of a column load: rows that were never read deliver free lanes (R137, DESIGN CHOICE, log 9). -/
def colElem (j : LoadJob) (fr k : Nat) : W32 :=
  match j.got.find? fun e => e.1 == k / j.epr with
  | some e => e.2.1.getD (k % j.epr) 0
  | none => (freeAt fr k).setWidth 32

/-- Row `i` of bank load `j` has been read in cycle `t`, with the elements `es` (R137). -/
def Die.loadRead (d : Die) (a : PortA) (j : LoadJob) (i : Nat) (es : List (W32 × FpFlags)) (t fr : Nat) : Die :=
  let x := d.sta a.by_
  let jn := (64 * j.nr + j.epr - 1) / j.epr
  let keep (l : List LoadJob) : List LoadJob := l.filter fun k => k.issued != j.issued
  if !j.col then
    let rows := (List.range j.nr).filter fun k => 64 * k / j.epr == i
    let d1 := rows.foldl (fun d k => d.loadRow a j k (t + 4) ((es.drop (64 * k - i * j.epr)).take 64)) d
    if i + 1 = jn then
      let x1 := d1.sta a.by_
      d1.setSta a.by_ { x1 with loads := keep x1.loads }
    else d1
  else
    let fl := orFlags ((es.take (64 * j.nr - i * j.epr)).map (·.2))
    let j1 := { j with got := j.got ++ [(i, (es.map (·.1), fl.bits))] }
    if i + 1 = jn then
      let fin := flagsOf (j1.got.foldl (fun b e => b ||| e.2.2) 0)
      let d1 := (List.range j.nr).foldl (fun d r =>
        d.loadRow a j1 r (t + 4) ((List.range 64).map fun l => (colElem j1 fr (l * j.nr + r), fin))) d
      let x1 := d1.sta a.by_
      d1.setSta a.by_ { x1 with loads := keep x1.loads }
    else d.setSta a.by_ { x with loads := keep x.loads ++ [j1] }

/-- Row `i` of the vector side of a store: the row read, or free lanes where none was (DESIGN CHOICE, log 9). -/
def StoreJob.rowAt (j : StoreJob) (fr i : Nat) : Row :=
  match j.got.find? fun e => e.1 == i with
  | some e => e.2
  | none => rowOfLanes ((List.range 64).map fun l => (freeAt fr (64 * i + l)).setWidth 32)

/-- The elements that bank row `k` of a store takes (R139). -/
def StoreJob.elems (j : StoreJob) (fr k : Nat) : List W32 :=
  (List.range (min j.epr (64 * j.nr - k * j.epr))).map fun m =>
    let e := k * j.epr + m
    lane (j.rowAt fr (e / 64)) (e % 64)

/-- Bank rows that a store writes. -/
def StoreJob.rows (j : StoreJob) : Nat := (64 * j.nr + j.epr - 1) / j.epr

/-- The words of a bank's scale plane that hold the scales of data row `row`, as keys 64 · row + word (R79, R80). -/
def scaleWords (f : BankFmt) (raw : Bool) (row : Nat) : List Nat :=
  if raw then []
  else match mxOf f.type with
    | some (_, bpr) => ((List.range bpr).map fun q => let sc := f.scaleAt (row * bpr + q); 64 * sc.1 + sc.2 / 4).eraseDups
    | none => []

/-- Those of them that have an uncorrectable error (R304). -/
def Die.scaleBad (d : Die) (p : Pos) (b : BitVec 3) (f : BankFmt) (raw : Bool) (row : Nat) : List Nat :=
  if d.bad.isEmpty then []
  else (scaleWords f raw row).filter fun k => d.bad.contains (.bank p (64 * 128 * b.toNat + k))

/-- A station as a reader of scales sees it: 0xFFFF_FFFF in the bad words `keys` of bank `b` (R304). -/
def Station.poisoned (x : Station) (b : BitVec 3) (keys : List Nat) : Station :=
  keys.foldl (fun x k => x.setBankRow b (k / 64) (poison [k % 64] (x.bankRow b (k / 64)))) x

/-- The scale words that a port-A access reads beside its row. -/
def Die.loadScaleBad (d : Die) (a : PortA) : List Nat :=
  match a.kind with
  | .load i =>
    match (d.sta a.by_).loads.find? fun j => j.issued == a.issued with
    | some j => d.scaleBad a.pos a.bank j.fmt j.raw (j.row + i)
    | none => []
  | _ => []

/-- The words of row `row` of its bank that a port-A write covers (R304; DESIGN CHOICE, log 17). -/
def Die.writtenWords (d : Die) (a : PortA) (row : Nat) : List Nat :=
  let all := (List.range 64).map fun k => 64 * row + k
  match a.kind with
  | .ast off _ => [64 * row + off / 4, 64 * row + off / 4 + 1]
  | .store k =>
    match (d.sta a.by_).stores.find? fun j => j.issued == a.issued with
    | some j =>
      if row = a.row.toNat then
        let w := if j.raw then 32 else tyBits j.fmt.type
        (List.range ((w * min j.epr (64 * j.nr - k * j.epr) + 31) / 32)).map fun k => 64 * row + k
      else (scaleWords j.fmt j.raw a.row.toNat).filter fun k => k / 64 == row
    | none => all
  | _ => all

/-- Port-A access `a` is performed in die cycle `t`: the die, and the bank rows it writes (R114, R125, R137 to R140, R173).
A read returns the row as the bank holds it now. -/
def Die.performA (d : Die) (a : PortA) (t fr : Nat) : Die × List (Nat × Row) :=
  let x := d.sta a.pos
  let y := d.sta a.by_
  let key (r : Nat) : BadPlace := .bank a.pos (64 * (128 * a.bank.toNat + a.row.toNat) + r)
  let bad := if a.wr then [] else d.badIn key 64
  let scs := d.loadScaleBad a
  let r := poison bad (x.bankRow a.bank a.row.toNat)
  let d := d.raiseBad (bad ++ scs) a.by_ a.strm a.parcel
  match a.kind with
  | .load i =>
    match y.loads.find? fun j => j.issued == a.issued with
    | some j => (d.loadRead a j i (decRow (x.poisoned j.bank scs) j.bank j.fmt j.raw (j.row + i) r) t fr, [])
    | none => (d, [])
  | .gone | .probe => (d, [])
  | .raw v => (d, [(a.row.toNat, v)])
  | .ald n off =>
    (d.addWrite a.by_ (a.write (t + 4) (n.setWidth 8) (.a .l n (fld r (8 * off) 64))), [])
  | .rld ph nm i land => (d.addWrite a.by_ (a.write (t + (land - a.at_)) nm (.v ph i allLanes r)), [])
  | .feed k i u =>
    ({ d with skew := d.skew ++ [{ kind := k, issued := a.issued, pos := a.pos, i := i, data := r, until_ := u }] }, [])
  | .ast off v => (d, [(a.row.toNat, packRow 8 ((List.range 256).map fun i =>
      if off ≤ i ∧ i < off + 8 then (byteOf v (i - off)).toNat else (byteOf r i).toNat) r)])
  | .liftOut i =>
    let w := d.skew.find? fun k => k.kind == .lift && k.issued == a.issued && k.pos == a.pos && k.i == i
    ({ d with skew := d.skew.filter fun k => !(k.kind == .lift && k.issued == a.issued && k.pos == a.pos && k.i == i) },
      [(a.row.toNat, match w with | some k => k.data | none => 0)])
  | .store k =>
    match y.stores.find? fun j => j.issued == a.issued with
    | some j =>
      let last := k + 1 == j.rows
      (d.setSta a.by_ { y with stores := if last then y.stores.filter fun j => j.issued != a.issued else y.stores },
        encRow x a.bank j.fmt j.raw a.row.toNat .rne (List.replicate 512 0) (j.elems fr k))
    | none => (d, [])
  | .rst i =>
    match y.stores.find? fun j => j.issued == a.issued with
    | some j =>
      let last := i + 1 == j.nr
      (d.setSta a.by_ { y with stores := if last then y.stores.filter fun j => j.issued != a.issued else y.stores },
        [(a.row.toNat, j.rowAt fr i)])
    | none => (d, [])

/-- The rows that an access touches, for its buffer check. -/
def Die.accessRows (d : Die) (a : PortA) : List Nat :=
  let y := d.sta a.by_
  match a.kind with
  | .load _ =>
    match y.loads.find? fun j => j.issued == a.issued with
    | some j => touchedRows j.fmt j.raw a.row.toNat
    | none => [a.row.toNat]
  | .store _ =>
    match y.stores.find? fun j => j.issued == a.issued with
    | some j => touchedRows j.fmt j.raw a.row.toNat
    | none => [a.row.toNat]
  | _ => [a.row.toNat]

/-- One unclashed access: its buffer check, its transitions at the end of the cycle, and the access (R115, R119, R175). -/
def Die.accessA (d : Die) (fr : Nat) (a : PortA) : Die :=
  let x := d.sta a.pos
  let bufs := if a.checked then [] else x.bufsOf a.bank (d.accessRows a)
  if !bufsAllow a.wr bufs then d.raiseAt 3 0 .bufState 0 a.by_ a.strm a.parcel
  else
    let r := d.performA a d.dcyc fr
    let moves := bufs.map fun e => if a.wr then Eoc.bufWrite a.pos e.1 else Eoc.bufRead a.pos e.1 a.word
    let rows := r.2.map fun e => Eoc.bankRow a.pos a.bank e.1 e.2
    let heals := if d.bad.isEmpty then [] else r.2.map fun e =>
      Eoc.heal a.pos ((d.writtenWords a e.1).map fun k => 64 * 128 * a.bank.toNat + k)
    { r.1 with eoc := r.1.eoc ++ moves ++ rows ++ heals }

/-- The word that BANK_CLASH names among the accesses of one bank: the later issue, then the lower position, then the
stream order (R114). -/
def clashNamed (a : PortA) : List PortA → PortA
  | [] => a
  | b :: t =>
    let w := clashNamed a t
    if b.issued > w.issued || (b.issued == w.issued && (b.by_ < w.by_ || (b.by_ == w.by_ && b.strm.idx < w.strm.idx))) then b
    else w

/-- Two accesses meet at one bank (R114). -/
def PortA.meets (a b : PortA) : Bool := a.pos == b.pos && a.bank == b.bank

/-- The port-A accesses of a die cycle in order; those that clash stay in the latches (R114). -/
def Die.portStep (d : Die) (fr : Nat) : Die :=
  let now := d.portA.filter fun a => a.at_ == d.dcyc
  let d1 := { d with portA := d.portA.filter fun a => a.at_ != d.dcyc }
  let clash (a : PortA) : Bool := decide ((now.filter a.meets).length > 1)
  let go (acc : Die × List PortA) (a : PortA) : Die × List PortA :=
    if !clash a then (acc.1.accessA fr a, acc.2)
    else if acc.2.any a.meets then ({ acc.1 with latched := acc.1.latched ++ [a] }, acc.2)
    else
      let n := clashNamed a (now.filter a.meets)
      let d2 := { acc.1 with latched := acc.1.latched ++ [a] }
      (d2.raiseAt 3 0 .bankClash 0 n.by_ n.strm n.parcel, a :: acc.2)
  (now.foldl go (d1, [])).1

/-- Row `i` of a store in progress of station `p` as it reads it, and its bad words (R304). -/
def Die.storeRow (d : Die) (p : Pos) (j : StoreJob) (i : Nat) : Row × List Nat :=
  let bad := d.badIn (fun k => .vreg p (64 * (16 * j.phys.toNat + j.vrow + i) + k)) 64
  (poison bad ((d.sta p).vrow j.phys (j.vrow + i)), bad)

/-- The register rows that the stores of station `p` that are `due` read in die cycle `t`, after its writes have landed; a bad word
raises UNCORRECTABLE (R125, R139, R304). -/
def Die.storesRead (d : Die) (t : Nat) (due : StoreJob → Bool) (p : Pos) : Die :=
  let x := d.sta p
  if x.stores.isEmpty then d
  else
    let read (j : StoreJob) : StoreJob := if due j then { j with got := j.got ++ [(t - j.issued, (d.storeRow p j (t - j.issued)).1)] } else j
    (x.stores.filter due).foldl (fun d j => d.raiseBad (d.storeRow p j (t - j.issued)).2 p .s j.parcel)
      (d.setSta p { x with stores := x.stores.map read })

/-- A store that reads a row of its registers in die cycle `t`. -/
def StoreJob.reads (t : Nat) (j : StoreJob) : Bool := decide (j.issued ≤ t) && decide (t < j.issued + j.nr)

/-- The register rows that stores in progress read in die cycle `t`. -/
def Die.storeReads (d : Die) (t : Nat) (due : StoreJob → Bool) : Die := allPos.foldl (fun d p => d.storesRead t due p) d

/-- BANK_PORT_A_ACCESS (R114, R115, R119): port B learns which banks port A uses. -/
def execBankPortAAccess (d : DieId) (s : State) : Out :=
  let x := s.die d
  let x1 := x.storeReads x.dcyc (StoreJob.reads x.dcyc)
  let used := (x.portA.filter fun a => a.at_ == x.dcyc).map fun a => 8 * a.pos.val + a.bank.toNat
  let s1 := s.setFs d { s.fs d with busy := used, busyAt := s.sidc }
  .next ((s1.setDie d (x1.portStep s.ctr)).bump)

-- ## Loads and stores

/-- A port-A access by the issuing word. -/
def State.portA (s : State) (at_ : Nat) (pos : Pos) (bank : BitVec 3) (row : Nat) (wr checked : Bool) (k : PKind) : State :=
  let a : PortA := { at_ := at_, pos := pos, bank := bank, row := BitVec.ofNat 7 row, wr := wr, by_ := s.focus.pos,
                     strm := s.focus.strm, parcel := s.focus.parcel, issued := s.cyc, kind := k, checked := checked }
  s.updDie fun d => { d with portA := d.portA ++ [a] }

/-- The effective address a + ROFF × 256 of a bank load or store (R136). -/
def State.rowEa (s : State) (a : Scal) (roff : BitVec 24) : W64 := s.scal a + roff.signExtend 64 * 256

/-- What a bank load or store works on, from its issue (R136). -/
structure RowPlan where
  bank : BitVec 3
  row : Nat
  fmt : BankFmt
  raw : Bool
  epr : Nat
  rows : Nat
  ok : Bool

/-- The rows of a bank load or store, with the BANK_RANGE checks (R136). -/
def rowPlan (x : Station) (ea : W64) (nr : Nat) (vrow : Nat) (rawWord : Bool) : RowPlan :=
  let bank := fld ea 15 3
  let row := (fld ea 8 7).toNat
  let fmt := kget {} bank.toNat x.fmt
  let raw := rawWord || fmt.rawRow row
  let epr := if raw then 64 else tyEpr fmt.type
  let rows := (64 * nr + epr - 1) / epr
  let split := !rawWord && (mxOf fmt.type).isSome && decide (row < fmt.srow.toNat ∧ fmt.srow.toNat < row + rows)
  { bank := bank, row := row, fmt := fmt, raw := raw, epr := epr, rows := rows,
    ok := fld ea 18 46 == 0 && decide (vrow + nr ≤ 16) && decide (row + rows ≤ 128) && !split }

/-- A bank load (R136, R137). -/
def loadWord (s : State) (raw col : Bool) (nr : BitVec 4) (d : BitVec 5) (a : Scal) (roff : BitVec 24) (vrow : BitVec 4) : Out :=
  match s.vphys d with
  | .error sub => raiseDead s sub
  | .ok ph =>
    let n := nr.toNat + 1
    let p := rowPlan s.curSta (s.rowEa a roff) n vrow.toNat raw
    if !p.ok then raise s .bankRange
    else
      let j : LoadJob := { parcel := s.focus.parcel, issued := s.cyc, raw := p.raw, col := col, name := d.setWidth 8, phys := ph,
                           vrow := vrow.toNat, nr := n, epr := p.epr, fmt := p.fmt, bank := p.bank, row := p.row, got := [] }
      let s1 := s.updSta fun x => { x with loads := x.loads ++ [j] }
      .next ((List.range p.rows).foldl (fun s i =>
        s.portA (s.cyc + i) s.focus.pos p.bank (p.row + i) false false (.load i)) s1)

/-- BLD (R136, R137). -/
def execBld (nr : BitVec 4) (d : BitVec 5) (a : Scal) (roff : BitVec 24) (vrow : BitVec 4) (s : State) : Out :=
  loadWord s false false nr d a roff vrow

/-- BLDB (R136, R137). -/
def execBldb (nr : BitVec 4) (d : BitVec 5) (a : Scal) (roff : BitVec 24) (vrow : BitVec 4) (s : State) : Out :=
  loadWord s true false nr d a roff vrow

/-- BLDC (R136, R137). -/
def execBldc (nr : BitVec 4) (d : BitVec 5) (a : Scal) (roff : BitVec 24) (vrow : BitVec 4) (s : State) : Out :=
  loadWord s false true nr d a roff vrow

/-- An address of a 64-bit word in a station's banks that ALD and AST refuse (R138, R140). -/
def wordEaBad (ea : W64) : Bool := fld ea 18 46 != 0 || fld ea 0 3 != 0

/-- ALD (R138). -/
def execAld (d : BitVec 6) (a : Scal) (v : W32) (s : State) : Out :=
  let ea := s.ea a v
  if wordEaBad ea then raise s .bankRange
  else .next (s.portA s.cyc s.focus.pos (fld ea 15 3) (fld ea 8 7).toNat false false (.ald d (fld ea 0 8).toNat))

/-- A store in progress of the issuing word. -/
def State.addStore (s : State) (ph : BitVec 5) (vrow n : Nat) (p : RowPlan) : State :=
  let j : StoreJob := { parcel := s.focus.parcel, issued := s.cyc, phys := ph, vrow := vrow, nr := n, raw := p.raw, epr := p.epr,
                        fmt := p.fmt, bank := p.bank, row := p.row, got := [] }
  s.updSta fun x => { x with stores := x.stores ++ [j] }

/-- BST (R139). -/
def execBst (nr : BitVec 4) (a : Scal) (b : BitVec 5) (roff : BitVec 24) (vrow : BitVec 4) (s : State) : Out :=
  match s.vphys b with
  | .error sub => raiseDead s sub
  | .ok ph =>
    let n := nr.toNat + 1
    let p := rowPlan s.curSta (s.rowEa a roff) n vrow.toNat false
    if !p.ok then raise s .bankRange
    else
      .next ((List.range p.rows).foldl (fun s j =>
        s.portA (s.cyc + 1 + min (n - 1) ((j + 1) * p.epr / 64 - 1)) s.focus.pos p.bank (p.row + j) true false (.store j))
        (s.addStore ph vrow.toNat n p))

/-- AST (R140). -/
def execAst (a b : Scal) (v : W32) (s : State) : Out :=
  let ea := s.ea a v
  if wordEaBad ea then raise s .bankRange
  else .next (s.portA (s.cyc + 1) s.focus.pos (fld ea 15 3) (fld ea 8 7).toNat true false
    (.ast (fld ea 0 8).toNat (s.scal b)))

-- ## The remote path (R105, R125)

/-- The bank form of an address: station, bank, row (R105). -/
def bankForm (v : W64) : Option (Pos × BitVec 3 × Nat) :=
  if fld v 56 8 != 0 || !bit v 55 || fld v 18 30 != 0 then none
  else some (Fin.ofNat 128 (fld v 48 7).toNat, fld v 15 3, (fld v 8 7).toNat)

/-- Cycles of the remote path between two stations (R125). -/
def pathHops (p q : Pos) : Nat := min ((q.val + 128 - p.val) % 128) ((p.val + 128 - q.val) % 128)

/-- RLD (R125). -/
def execRld (nr : BitVec 4) (d : BitVec 5) (a : Scal) (vrow : BitVec 4) (s : State) : Out :=
  match s.vphys d with
  | .error sub => raiseDead s sub
  | .ok ph =>
    let n := nr.toNat + 1
    match bankForm (s.scal a) with
    | none => raise s .bankRange
    | some (q, bank, row) =>
      if row + n > 128 || vrow.toNat + n > 16 then raise s .bankRange
      else
        let h := pathHops s.focus.pos q
        .next ((List.range n).foldl (fun s i =>
          s.portA (s.cyc + h + 1 + i) q bank (row + i) false false
            (.rld ph (d.setWidth 8) (vrow + BitVec.ofNat 4 i) (s.cyc + 2 * h + 4 + i))) s)

/-- RST (R125). -/
def execRst (nr : BitVec 4) (a : Scal) (b : BitVec 5) (vrow : BitVec 4) (s : State) : Out :=
  match s.vphys b with
  | .error sub => raiseDead s sub
  | .ok ph =>
    let n := nr.toNat + 1
    match bankForm (s.scal a) with
    | none => raise s .bankRange
    | some (q, bank, row) =>
      if row + n > 128 || vrow.toNat + n > 16 then raise s .bankRange
      else
        let h := pathHops s.focus.pos q
        let p : RowPlan := { bank := bank, row := row, fmt := {}, raw := true, epr := 64, rows := n, ok := true }
        .next ((List.range n).foldl (fun s i =>
          s.portA (s.cyc + h + 1 + i) q bank (row + i) true false (.rst i)) (s.addStore ph vrow.toNat n p))

-- ## Edge pointers, formats and buffers

/-- EDGESET (R141). -/
def execEdgeset (e : BitVec 2) (a : Scal) (v : W32) (s : State) : Out :=
  let w := s.ea a v
  if fld w 18 46 != 0 || fld w 0 8 != 0 then raise s .edgeRange
  else .next (s.putWrite 2 (edgCode e) (.e e w))

/-- A format that BANKFMT refuses (R116). -/
def fmtBad (ty : BitVec 4) (srow : BitVec 7) : Bool :=
  match tyOf ty with
  | none => true
  | some t => (mxOf t).isSome && (srow == 0 || decide (srow.toNat > srowMax t))

/-- BANKFMT (R116, R117). -/
def execBankfmt (bank : BitVec 3) (ty : BitVec 4) (srow : BitVec 7) (s : State) : Out :=
  if fmtBad ty srow then raise s .bankRange
  else .next (s.later (.bankfmt s.focus.pos bank { ty := ty, srow := srow }))

/-- BUFDECL (R118). -/
def execBufdecl (v : W32) (s : State) : Out :=
  match declCause s.curSta v with
  | some c => raise s c
  | none => .next (s.later (.bufdecl s.focus.pos v))

/-- BUFSET (R119, R121). -/
def execBufset (full : Bool) (bd : BitVec 4) (s : State) : Out :=
  if !(s.curSta.bufN bd.toNat).setOk full then raise s .bufState
  else .next (s.later (.bufset s.focus.pos full bd))

end Sys2Proof.Machine
end

