-- ==== Sys2Proof/Machine/Array.lean ====
section
/-! DEFINITION. The wavefront array: cells, fronts, edge feed, edge accumulators, and the array words (R167 to R198). -/

namespace Sys2Proof.Machine

-- ## Cells (R167, R196)

/-- Key of cell (r, c). -/
def cellKey (r c : Nat) : Nat := 1024 * r + c

def Die.cell (d : Die) (r c : Nat) : Cell := kget {} (cellKey r c) d.cells

/-- A bit field written. -/
def setFld {n : Nat} (x : BitVec n) (lo w v : Nat) : BitVec n :=
  (x &&& ~~~BitVec.ofNat n ((2 ^ w - 1) * 2 ^ lo)) ||| BitVec.ofNat n (v % 2 ^ w * 2 ^ lo)

/-- The XOR of the bits of a word. -/
def xorBits (x : Nat) : Nat → Bool
  | 0 => false
  | n + 1 => (x.testBit n) ^^ xorBits x n

/-- An image of a cell: 0 FE0, 1 FE1, 2 BE0, 3 BE1, the order of SEATED and PAR. -/
def Cell.image (c : Cell) : Nat → BitVec 16
  | 0 => c.fe0
  | 1 => c.fe1
  | 2 => c.be0
  | _ => c.be1

/-- A cell with an image written, its parity bit recomputed (R196). -/
def Cell.setImage (c : Cell) (k : Nat) (v : BitVec 16) : Cell :=
  let p : Byte := setFld c.par k 1 (if xorBits v.toNat 16 then 1 else 0)
  match k with
  | 0 => { c with fe0 := v, par := p }
  | 1 => { c with fe1 := v, par := p }
  | 2 => { c with be0 := v, par := p }
  | _ => { c with be1 := v, par := p }

/-- A cell with G written. -/
def Cell.setG (c : Cell) (v : W32) : Cell :=
  let lo := if xorBits (fld v 0 16).toNat 16 then 1 else 0
  let hi := if xorBits (fld v 16 16).toNat 16 then 2 else 0
  { c with g := v, par := setFld c.par 4 2 (lo + hi) }

/-- A cell with PG written. -/
def Cell.setPg (c : Cell) (v : W32) (valid : Bool) : Cell :=
  let lo := if xorBits (fld v 0 16).toNat 16 then 1 else 0
  let hi := if xorBits (fld v 16 16).toNat 16 ^^ valid then 2 else 0
  { c with pg := v, pgv := valid, par := setFld c.par 6 2 (lo + hi) }

/-- A valid PG goes into G and becomes invalid, its value bits as they are (R197, R298; DESIGN CHOICE, log 86). -/
def Cell.applyPg (c : Cell) : Cell := if c.pgv then (c.setG c.pg).setPg c.pg false else c

/-- A read of image `k` meets a parity error. -/
def Cell.imageBad (c : Cell) (k : Nat) : Bool := xorBits (c.image k).toNat 16 != bit c.par k

/-- A read of G meets a parity error. -/
def Cell.gBad (c : Cell) : Bool :=
  xorBits (fld c.g 0 16).toNat 16 != bit c.par 4 || xorBits (fld c.g 16 16).toNat 16 != bit c.par 5

/-- A read of PG meets a parity error (R196). -/
def Cell.pgBad (c : Cell) : Bool :=
  xorBits (fld c.pg 0 16).toNat 16 != bit c.par 6 || (xorBits (fld c.pg 16 16).toNat 16 ^^ c.pgv) != bit c.par 7

/-- The image a transit uses, and the cause when it could not read it (R197). -/
def Cell.readImage (c : Cell) (k : Nat) : BitVec 16 × Option Cause :=
  if !bit c.seated k then (0x7F00, some .paneEmpty)
  else if c.imageBad k then (0x7F00, some .cellParity)
  else (c.image k, none)

-- ## Windows and regions (R171, R172)

def Window.hasRow (w : Window) (r : Nat) : Bool := decide (w.row0 ≤ r) && decide (r < w.row0 + w.wr)

def Window.hasCol (w : Window) (c : Nat) : Bool := decide (w.col0 ≤ c) && decide (c < w.col0 + w.wc)

def Window.dS (w : Window) : Nat := 1024 - w.row0 - w.wr

def Window.dE (w : Window) : Nat := 1024 - w.col0 - w.wc

/-- A FWD front passes cell (r, c): the columns of its window down to its last row, and its rows from the window east. -/
def Window.fwdHas (w : Window) (r c : Nat) : Bool :=
  (w.hasCol c && decide (r < w.row0 + w.wr)) || (w.hasRow r && decide (w.col0 ≤ c))

/-- A BWD front passes cell (r, c): the rows of its window east of its first column, and its columns. -/
def Window.bwdHas (w : Window) (r c : Nat) : Bool := (w.hasRow r && decide (w.col0 ≤ c)) || w.hasCol c

/-- The cells that a FWD front holds `a` cycles after its admission (R172; DEDUCED, log 51). -/
def fwdCells (w : Window) (a : Nat) : List (Nat × Nat) :=
  if a < 4 then []
  else (List.range (w.row0 + w.wr)).filterMap fun r =>
    if r ≤ a - 4 ∧ w.col0 + (a - 4 - r) < 1024 ∧ w.fwdHas r (w.col0 + (a - 4 - r)) then some (r, w.col0 + (a - 4 - r)) else none

/-- The cells that a BWD front holds `a` cycles after its admission (R172; DEDUCED, log 51). -/
def bwdCells (w : Window) (a : Nat) : List (Nat × Nat) :=
  if a < 4 then []
  else (List.range 1024).filterMap fun r =>
    if 1023 - r ≤ a - 4 ∧ a - 4 - (1023 - r) ≤ 1023 ∧ w.bwdHas r (1023 - (a - 4 - (1023 - r)))
    then some (r, 1023 - (a - 4 - (1023 - r))) else none

/-- Tokens, element width and F of a forward front (R66, R170). -/
def fimgShape : Fimg → Nat × Nat × Nat
  | .mx8 => (2, 8, 6)
  | .mx6 => (4, 6, 4)
  | .mx4 => (8, 4, 2)

/-- Row `i` held for station `pos` by the edge skew latches of a word; free where no row has come (DESIGN CHOICE, log 9). -/
def Die.skewRow (d : Die) (fr : Nat) (k : WorkKind) (issued : Nat) (pos : Pos) (i : Nat) : Row :=
  match d.skew.find? fun e => e.kind == k && e.issued == issued && e.pos == pos && e.i == i with
  | some e => e.data
  | none => rowOfLanes ((List.range 64).map fun l => (freeAt fr (64 * i + l)).setWidth 32)

/-- The station that owns a row or a column on a face, and the line of it there (R112, R174). -/
def northOf (c : Nat) : Pos := Fin.ofNat 128 (c / 32)

def eastOf (r : Nat) : Pos := Fin.ofNat 128 (32 + r / 32)

def southOf (c : Nat) : Pos := Fin.ofNat 128 (95 - c / 32)

def westOf (r : Nat) : Pos := Fin.ofNat 128 (127 - r / 32)

-- ## Transits (R177 to R180)

/-- The transit latches that a transit writes (R196). -/
inductive Latches where
  | fwd (fx : BitVec 128) (fi : BitVec 160) (fc : BitVec 256)
  | bwd (bd : BitVec 16) (bx : BitVec 32) (bs : BitVec 96) (bc : BitVec 64)

/-- A cell with the latches of a transit written. -/
def Cell.latch (c : Cell) : Latches → Cell
  | .fwd fx fi fc => { c with fx := fx, fi := fi, fc := fc }
  | .bwd bd bx bs bc => { c with bd := bd, bx := bx, bs := bs, bc := bc }

/-- What one cell does in a cycle: its new latches, the causes it detects with their token lanes, saturations, zeroed
elements, the G products' sum, and its dx promotions of tokens that raise GRAD_NAN. -/
structure CellOut where
  r : Nat
  c : Nat
  new : Latches
  causes : List (Cause × Nat)
  sats : List Nat
  nans : Nat
  prod : Option FVal
  promos : List HeldPromo := []

/-- FX entering at the north edge for front `f` (R174); lanes from the token count on hold 0 (DESIGN CHOICE, log 86). -/
def northIn (d : Die) (fr : Nat) (k : Work) (f c : Nat) : BitVec 128 :=
  let row := d.skewRow fr .fwd k.issued (northOf c) f
  let (t, w, _) := fimgShape k.fimg
  (List.range t).foldl (fun x u =>
    setFld x (16 * u) 16 ((fld row (32 * w * u + w * (c % 32)) w).toNat + 256 * (fld row (8 * (224 + u)) 8).toNat)) 0

/-- Saturation of an inner sum (R177). -/
def satInner (v : Int) : Int × Bool :=
  if v > 524287 then (524287, true) else if v < -524288 then (-524288, true) else (v, false)

/-- FWD transit of cell (r, c) by front `f` (R177, R197); FI and FC lanes from the token count on hold 0 (DESIGN CHOICE, log 86). -/
def fwdTransit (d : Die) (fr : Nat) (k : Work) (f r c : Nat) : CellOut :=
  let w := k.win
  let (t, ew, fb) := fimgShape k.fimg
  let fx := if !w.hasCol c || decide (r ≥ w.row0 + w.wr) then (d.cell r c).fx
            else if r = 0 then northIn d fr k f c else (d.cell (r - 1) c).fx
  let here := d.cell r c
  if !w.hasRow r then
    { r := r, c := c, new := .fwd fx here.fi here.fc, causes := [], sats := [], nans := 0, prod := none }
  else
    let src := if c = w.col0 then ({} : Cell) else d.cell r (c - 1)
    if !w.hasCol c then
      { r := r, c := c, new := .fwd fx src.fi src.fc, causes := [], sats := [], nans := 0, prod := none }
    else
      let im := (d.cell r c).readImage (if k.pane then 1 else 0)
      let e := signedOf ew (im.1.toNat % 2 ^ ew)
      let sw := (fld im.1 8 8).toNat
      let prom := c % 32 == 31 || c + 1 == w.col0 + w.wc
      let step (acc : BitVec 160 × BitVec 256 × List Nat) (u : Nat) : BitVec 160 × BitVec 256 × List Nat :=
        let i0 := signedOf 20 (fld src.fi (20 * u) 20).toNat
        let x := (fld fx (16 * u) 16).toNat
        let i1 := satInner (i0 + e * signedOf ew (x % 2 ^ ew))
        let c0 : W32 := fld src.fc (32 * u) 32
        let sx := x / 256
        let c1 : W32 := if !prom then c0
          else if sw = 255 ∨ sx = 255 then nan32
          else (addV .rne 0 (readF32 c0) (.num (decide (i1.1 < 0)) i1.1.natAbs ((sw : Int) + sx - 254 - 2 * fb))).1
        let i2 : Int := if prom then 0 else i1.1
        (setFld acc.1 (20 * u) 20 (i2 % (2 ^ 20 : Nat)).toNat, setFld acc.2.1 (32 * u) 32 c1.toNat,
          if i1.2 then acc.2.2 ++ [u] else acc.2.2)
      let o := (List.range t).foldl step (0, 0, [])
      { r := r, c := c, new := .fwd fx o.1 o.2.1,
        causes := (match im.2 with | some z => [(z, 0)] | none => []), sats := o.2.2, nans := 0, prod := none }

/-- Exact sum of two values (R179). -/
def exactAdd : FVal → FVal → FVal
  | .nan, _ => .nan
  | _, .nan => .nan
  | .inf n, .inf m => if n == m then .inf n else .nan
  | .inf n, .num .. => .inf n
  | .num .., .inf n => .inf n
  | .num n1 m1 e1, .num n2 m2 e2 =>
    let e := if e1 ≤ e2 then e1 else e2
    let a : Int := (m1 * 2 ^ (e1 - e).toNat : Nat)
    let b : Int := (m2 * 2 ^ (e2 - e).toNat : Nat)
    let s := (if n1 then -a else a) + (if n2 then -b else b)
    .num (if s = 0 then n1 && n2 else decide (s < 0)) s.natAbs e

/-- An E5M2 byte is an infinity or a NaN. -/
def nonFinite5 (b : Nat) : Bool := b % 128 ≥ 0x7C

/-- δ entering at the east edge for front `f` (R174). -/
def eastIn (d : Die) (fr : Nat) (k : Work) (f r : Nat) : BitVec 16 :=
  let row := d.skewRow fr .bwd k.issued (eastOf r) f
  fld row (8 * (32 + r % 32)) 8 ++ fld row (8 * (r % 32)) 8

/-- The x replay entering at the south edge for front `f` (R174). -/
def southIn (d : Die) (fr : Nat) (k : Work) (f c : Nat) : BitVec 32 :=
  let row := d.skewRow fr .bwd k.issued (southOf c) f
  fld row (8 * 225) 8 ++ fld row (8 * (32 + c % 32)) 8 ++ fld row (8 * 224) 8 ++ fld row (8 * (c % 32)) 8

/-- The marker of a non-finite δ in D (R178). -/
def dMark : Int := -(2 ^ 47 : Nat)

/-- C_dx after a promotion of D, by the scale of the promotion cell's image (R178). -/
def promoteDx (c : W32) (dx : Int) (scale : Nat) : W32 :=
  if scale = 255 ∨ dx = dMark then nan32
  else (addV .rne 0 (readF32 c) (.num (decide (dx < 0)) dx.natAbs ((scale : Int) - 149))).1

/-- BWD transit of cell (r, c) by front `f` (R178 to R180, R197). It notes the promotion of a token that raises GRAD_NAN (R319; DEDUCED,
log 87). -/
def bwdTransit (d : Die) (fr : Nat) (k : Work) (f r c : Nat) : CellOut :=
  let w := k.win
  let here := d.cell r c
  let bx := if !w.hasCol c || decide (r < w.row0) then here.bx
            else if r = 1023 then southIn d fr k f c else (d.cell (r + 1) c).bx
  let bd0 := if !w.hasRow r then here.bd else if c = 1023 then eastIn d fr k f r else (d.cell r (c + 1)).bd
  let src := if r + 1 = w.row0 + w.wr then ({} : Cell) else d.cell (r + 1) c
  if !(w.hasRow r && w.hasCol c) then
    { r := r, c := c, causes := [], sats := [], nans := 0, prod := none,
      new := if r < w.row0 then .bwd here.bd here.bx src.bs src.bc else .bwd bd0 bx here.bs here.bc }
  else
    let entry := c + 1 == w.col0 + w.wc
    let bad := if entry then (List.range 2).filter fun u => nonFinite5 (fld bd0 (8 * u) 8).toNat else []
    let bd := if k.gnan = .gzero then bad.foldl (fun x u => setFld x (8 * u) 8 0) bd0 else bd0
    let kk := if k.pane then 3 else 2
    let im := here.readImage kk
    let eb := signedOf 8 (im.1.toNat % 256)
    let sb := (fld im.1 8 8).toNat
    let prom := r % 32 == 0 || r == w.row0
    let step (acc : BitVec 96 × BitVec 64 × FVal) (u : Nat) : BitVec 96 × BitVec 64 × FVal :=
      let dv := fmtE5m2.read (fld bd (8 * u) 8).toNat
      let d0 := signedOf 48 (fld src.bs (48 * u) 48).toNat
      let d1 := if d0 = dMark then d0 else match dv with
        | .num n m e => d0 + eb * (if n then -1 else 1) * (m * 2 ^ (e + 16).toNat : Nat)
        | _ => dMark
      let c0 : W32 := fld src.bc (32 * u) 32
      let c1 : W32 := if prom then promoteDx c0 d1 sb else c0
      let d2 : Int := if prom then 0 else d1
      let xe := signedOf 8 (fld bx (16 * u) 8).toNat
      let xs := (fld bx (16 * u + 8) 8).toNat
      let xv := if xs = 255 then FVal.nan else .num (decide (xe < 0)) xe.natAbs ((xs : Int) - 133)
      let p := (mulV dv xv).getD .nan
      (setFld acc.1 (48 * u) 48 (d2 % (2 ^ 48 : Nat)).toNat, setFld acc.2.1 (32 * u) 32 c1.toNat,
        if u = 0 then p else exactAdd acc.2.2 p)
    let o := (List.range 2).foldl step (0, 0, .num false 0 0)
    { r := r, c := c, new := .bwd bd bx o.1 o.2.1,
      causes := (match im.2 with | some z => [(z, 0)] | none => []) ++ (if here.gBad then [(.cellParity, 0)] else []) ++
        (if k.gnan = .gtrap then bad.map fun u => (.gradNan, u) else []),
      sats := [], nans := if k.gnan = .gzero then bad.length else 0, prod := some o.2.2,
      promos := if prom ∧ k.gnan = .gtrap then
          bad.map fun u => { cell := cellKey r c, token := u, scale := sb, bc := fld src.bc (32 * u) 32 }
        else [] }

/-- The fronts of a word that hold cells in cycle `t`, with their ages. -/
def Work.fronts (k : Work) (t : Nat) : List (Nat × Nat) :=
  (List.range k.adm).filterMap fun f =>
    let a := t - (k.issued + f)
    if k.issued + f ≤ t ∧ 4 ≤ a ∧ a ≤ 2050 then some (f, a) else none

-- ## Causes of the array (R197, R198)

/-- The order of R198: cause, then row, column and lane. -/
def arrOrder (c : Cause) (r cc lane : Nat) : Nat :=
  let k := match c with
    | .cellParity => 0
    | .paneEmpty => 1
    | .gradNan => 2
    | .innerSat => 3
    | _ => 4
  ((k * 2048 + r) * 2048 + cc) * 16 + lane

/-- A cause detected in a cell: it is raised, and ASTAT may take its coordinates (R197). Of two words that raise one cause in one cell
and lane TRAPPOS names the one whose cause comes first here: a LIFT, else the first of the array's works (DESIGN CHOICE, log 86). -/
def Die.cellCause (d : Die) (k : Work) (c : Cause) (r cc lane : Nat) (raise : Bool) : Die :=
  let o := arrOrder c r cc lane
  let d1 := { d with arrEvents := d.arrEvents ++
    [{ order := o, row := some r, col := some cc, lane := lane, face := none, sat := decide (c = .innerSat), headlost := false }] }
  if raise then (if c = .cellParity then d1.raiseAt 1 (2 + o) c 0 k.pos .c k.parcel else d1.raiseAt 4 o c 0 k.pos .c k.parcel)
  else d1

/-- What a cell does becomes the die's. -/
def Die.putOut (d : Die) (k : Work) (o : CellOut) : Die :=
  let d1 := { d with cells := kput {} (cellKey o.r o.c) ((d.cell o.r o.c).latch o.new) d.cells, nanAdd := d.nanAdd + o.nans,
                     promos := d.promos ++ o.promos }
  let d2 := o.causes.foldl (fun d z => d.cellCause k z.1 o.r o.c z.2 true) d1
  o.sats.foldl (fun d u => d.cellCause k .innerSat o.r o.c u (bit d.atrap 0)) d2

/-- The G write of a BWD transit goes into PG, through which every write of G passes: rne_f32 of the base, +0 where a `.clr` capture
has cleared, plus the products (R176). A G whose parity has failed enters by its stored bits (DESIGN CHOICE, log 86). -/
def Cell.addG (c : Cell) (p : FVal) : Cell :=
  c.setPg (addV .rne 0 (readF32 (if c.pgv then c.pg else c.g)) p).1 true

/-- Cell (r, c) is captured by a LIFT in cycle `t` (R172, R192). -/
def Work.captures (k : Work) (t r c : Nat) : Bool :=
  k.kind == .lift && k.win.hasRow r && k.win.hasCol c && k.issued + 4 + (r - k.win.row0) == t

/-- The cells that a LIFT captures in cycle `t`. -/
def Work.captureCells (k : Work) (t : Nat) : List (Nat × Nat) :=
  if k.kind != .lift || t < k.issued + 4 || t - (k.issued + 4) ≥ k.win.wr then []
  else (List.range k.win.wc).map fun j => (k.win.row0 + (t - (k.issued + 4)), k.win.col0 + j)

/-- The addends that FWD fronts hand from the last column to the east accumulators, one cycle after it (R172, R177). -/
def Die.eastOut (d : Die) (k : Work) (t : Nat) : List AccJob :=
  (List.range k.adm).filterMap fun f =>
    let a := t - 1 - (k.issued + f)
    if k.issued + f + 5 ≤ t ∧ 4 + (1023 - k.win.col0) ≤ a ∧ k.win.hasRow (a - 4 - (1023 - k.win.col0)) then
      let r := a - 4 - (1023 - k.win.col0)
      let (n, _, _) := fimgShape k.fimg
      some { at_ := t + 1, pos := eastOf r, by_ := k.pos, strm := .c, parcel := k.parcel,
             act := .add ((List.range n).map fun u => (8 * (r % 32) + u, fld (d.cell r 1023).fc (32 * u) 32)) }
    else none

/-- The addends that BWD fronts hand from the first row to the north accumulators (R172, R178). -/
def Die.northOut (d : Die) (k : Work) (t : Nat) : List AccJob :=
  (List.range k.adm).filterMap fun f =>
    let a := t - 1 - (k.issued + f)
    if k.issued + f + 5 ≤ t ∧ 4 + 1023 ≤ a ∧ a - 4 - 1023 ≤ 1023 ∧ k.win.hasCol (1023 - (a - 4 - 1023)) then
      let c := 1023 - (a - 4 - 1023)
      some { at_ := t + 1, pos := northOf c, by_ := k.pos, strm := .c, parcel := k.parcel,
             act := .add ((List.range 2).map fun u => (2 * (c % 32) + u, fld (d.cell 0 c).bc (32 * u) 32)) }
    else none

/-- The cycle after which a word has left the array. -/
def Work.lastAt (k : Work) : Nat :=
  match k.kind with
  | .fwd => k.issued + k.m + 5 + (k.win.row0 + k.win.wr) + (1024 - k.win.col0)
  | .bwd => k.issued + k.m + 5 + 1024 + (1024 - k.win.col0)
  | .seat => k.issued + 4 + k.win.wr + k.win.col0 + k.win.wc
  | .lift => k.issued + 8 + k.win.wr + k.win.col0 + k.win.wc

/-- The last cycle in which a front of an ADMIT holds a cell (R172). -/
def Work.lastCell (k : Work) : Nat :=
  if k.kind = .fwd then k.issued + k.m + 2 + (k.win.row0 + k.win.wr) + (1023 - k.win.col0)
  else k.issued + k.m + 3 + 1023 + (1023 - k.win.col0)

/-- FRONT_TRANSIT of a die: every FWD and BWD transit of this cycle reads the cells as the cycle found them, then G is
written, or kept in PG where the cell has trapped (R176, R197). -/
def Die.transits (d : Die) (fr : Nat) : Die :=
  let t := d.dcyc
  let outs := d.works.flatMap fun k =>
    match k.kind with
    | .fwd => (k.fronts t).flatMap fun fa => (fwdCells k.win fa.2).map fun rc => (k, fwdTransit d fr k fa.1 rc.1 rc.2)
    | .bwd => (k.fronts t).flatMap fun fa => (bwdCells k.win fa.2).map fun rc => (k, bwdTransit d fr k fa.1 rc.1 rc.2)
    | _ => []
  let jobs := d.works.flatMap fun k =>
    match k.kind with
    | .fwd => d.eastOut k t
    | .bwd => d.northOut k t
    | _ => []
  let d1 := outs.foldl (fun d ko => d.putOut ko.1 ko.2) { d with accJobs := d.accJobs ++ jobs }
  let d2 := outs.foldl (fun d ko => match ko.2.prod with
    | some p => { d with cells := kput {} (cellKey ko.2.r ko.2.c) ((d.cell ko.2.r ko.2.c).addG p) d.cells }
    | none => d) d1
  let clr := (d.works.filter (·.clr)).flatMap fun k => k.captureCells t
  let wrote := (outs.filterMap fun ko => ko.2.prod.map fun _ => (ko.2.r, ko.2.c)) ++ clr
  let trapped (rc : Nat × Nat) : Bool :=
    (outs.any fun ko => ko.2.r == rc.1 && ko.2.c == rc.2 && !ko.2.causes.isEmpty) ||
      (d.works.any fun k => k.captures t rc.1 rc.2 && (d.cell rc.1 rc.2).gBad)
  wrote.foldl (fun d rc => if trapped rc then d
    else { d with cells := kput {} (cellKey rc.1 rc.2) (d.cell rc.1 rc.2).applyPg d.cells }) d2

/-- A dx promotion of the trap cycle, made anew at RESUME where the handler has rewritten the token's BS and not its C_dx, which the trap
has made NaN: BS then holds D, and C_dx starts from its value before (R197, R319; DEDUCED, log 87). -/
def Die.promote (d : Die) (h : HeldPromo) : Die :=
  let x : Cell := kget {} h.cell d.cells
  let b : BitVec 48 := fld x.bs (48 * h.token) 48
  if (h.wrote || b != 0) && fld x.bc (32 * h.token) 32 == nan32 then
    let y : Cell := { x with bc := setFld x.bc (32 * h.token) 32 (promoteDx h.bc (signedOf 48 b.toNat) h.scale).toNat,
                             bs := setFld x.bs (48 * h.token) 48 0 }
    { d with cells := kput {} h.cell y d.cells }
  else d

/-- The dx promotions of the trap cycle at RESUME. -/
def Die.promoteAll (d : Die) : Die := d.promos.foldl Die.promote { d with promos := [] }

/-- LIFT_CAPTURE of a die: captured G values enter the lift latches and a `.clr` capture prepares +0, the latches move one
cell west, and values at the west edge fill the write-back rows (R172 to R174, R176, R192). A G whose parity has failed is handed over
by its stored bits, and its CELL_PARITY has token lane 0 (DESIGN CHOICE, log 86). -/
def Die.liftStep (d : Die) : Die :=
  let t := d.dcyc
  let one (d0 d : Die) (k : Work) : Die :=
    if k.kind != .lift then d
    else
      let row (d : Die) (n : Nat) : Die :=
        let at_ := k.issued + 4 + n
        let r := k.win.row0 + n
        if t < at_ then d
        else if t = at_ then
          (List.range k.win.wc).foldl (fun d j =>
            let c := k.win.col0 + j
            let x := d0.cell r c
            let y := { d.cell r c with ll := x.g }
            let d1 := { d with cells := kput {} (cellKey r c) (if k.clr then y.setPg 0 true else y) d.cells }
            if x.gBad then d1.cellCause k .cellParity r c 0 true else d1) d
        else
          let a := t - at_
          let d1 := (List.range k.win.wc).foldl (fun d j =>
            if k.win.col0 + j < a then d
            else
              let c := k.win.col0 + j - a
              { d with cells := kput {} (cellKey r c) { d.cell r c with ll := (d0.cell r (c + 1)).ll } d.cells }) d
          if k.win.col0 + 1 ≤ a ∧ a ≤ k.win.col0 + k.win.wc then
            let q := a - 1 - k.win.col0
            let v := (d0.cell r 0).ll
            let p := westOf r
            let old := match d1.skew.find? fun e => e.kind == .lift && e.issued == k.issued && e.pos == p && e.i == q / 2 with
              | some e => e.data
              | none => 0
            let e : Skew := { kind := .lift, issued := k.issued, pos := p, i := q / 2,
                              data := setFld old (8 * (128 * (q % 2) + 4 * (r % 32))) 32 v.toNat, until_ := t + 40 }
            { d1 with skew := (d1.skew.filter fun e =>
                !(e.kind == .lift && e.issued == k.issued && e.pos == p && e.i == q / 2)) ++ [e] }
          else d1
      (List.range k.win.wr).foldl row d
  d.works.foldl (one d) d

/-- The images that SEAT injects into row `r` as its `j`-th column (R172, R174). -/
def seatIn (d : Die) (fr : Nat) (k : Work) (r j : Nat) : W32 :=
  fld (d.skewRow fr .seat k.issued (westOf r) (j / 2)) (8 * (128 * (j % 2) + 4 * (r % 32))) 32

/-- A window cell takes the images of its seat latch (R176, R191). -/
def Cell.seat (c : Cell) (img : Img) (pane : Bool) : Cell :=
  let p := if pane then 1 else 0
  let f (x : Cell) : Cell := { x.setImage p (fld x.sl 0 16) with seated := setFld x.seated p 1 1 }
  let b (x : Cell) : Cell := { x.setImage (2 + p) (fld x.sl 16 16) with seated := setFld x.seated (2 + p) 1 1 }
  match img with
  | .fimg => f c
  | .bimg => b c
  | .both => b (f c)

/-- SEAT_COMMIT of a die: seat latches move one cell east, and a row whose σ(n) it is commits (R172, R176, R191). -/
def Die.seatStep (d : Die) (fr : Nat) : Die :=
  let t := d.dcyc
  let one (d0 d : Die) (k : Work) : Die :=
    if k.kind != .seat then d
    else
      let row (d : Die) (n : Nat) : Die :=
        let at_ := k.issued + 4 + n
        let r := k.win.row0 + n
        if t < at_ ∨ t > at_ + k.win.col0 + k.win.wc - 1 then d
        else
          let w := t - at_
          let d1 := (List.range k.win.wc).foldl (fun d j =>
            if w < j then d
            else
              let c := w - j
              let v := if c = 0 then seatIn d0 fr k r j else (d0.cell r (c - 1)).sl
              { d with cells := kput {} (cellKey r c) { d.cell r c with sl := v } d.cells }) d
          if w + 1 = k.win.col0 + k.win.wc then
            (List.range k.win.wc).foldl (fun d j =>
              let c := k.win.col0 + j
              { d with cells := kput {} (cellKey r c) ((d.cell r c).seat k.img k.pane) d.cells }) d1
          else d1
      (List.range k.win.wr).foldl row d
  let d1 := d.works.foldl (one d) d
  { d1 with works := d1.works.filter (fun k => decide (t < k.lastAt)), skew := d1.skew.filter fun e => decide (t < e.until_) }

/-- FRONT_ADMIT of a die: the next front of each ADMIT is admitted in its cycle; a FWD or BWD front in the array keeps it
from being idle (R172, R279). -/
def Die.admitStep (d : Die) : Die :=
  let t := d.dcyc
  let works := d.works.map fun k =>
    if (k.kind == .fwd || k.kind == .bwd) && k.adm < k.m && k.issued + k.adm == t then { k with adm := k.adm + 1 } else k
  let busy := works.any fun k => (k.kind == .fwd || k.kind == .bwd) && 0 < k.adm && t ≤ k.lastCell
  { d with works := works, rampLast := if busy then some t else d.rampLast }

-- ## Edge accumulators (R182 to R185)

/-- X = M × 2¹² + GX. -/
def Acc.x (a : Acc) : Int := a.m.toInt * 4096 + (fld a.gw 0 12).toNat

/-- An accumulator with X and STICKY written. -/
def Acc.setX (a : Acc) (x : Int) (sticky : Bool) : Acc :=
  { a with m := BitVec.ofInt 64 (x / 4096), gw := setFld (setFld a.gw 0 12 (x % 4096).toNat) 12 1 (if sticky then 1 else 0) }

/-- The exact sum of finite addends as an integer at weight 2^-149, and the non-finite ones (R183). -/
def sumAddends (l : List W32) : Int × Bool × Bool × Bool :=
  l.foldl (fun acc v => match readF32 v with
    | .nan => (acc.1, true, acc.2.2.1, acc.2.2.2)
    | .inf false => (acc.1, acc.2.1, true, acc.2.2.2)
    | .inf true => (acc.1, acc.2.1, acc.2.2.1, true)
    | .num n m e => (acc.1 + (if n then -1 else 1) * (m * 2 ^ (e + 149).toNat : Nat), acc.2)) (0, false, false, false)

/-- acc_add of R183, and whether it lost headroom. -/
def Acc.add (a : Acc) (l : List W32) : Acc × Bool :=
  let s := sumAddends l
  let pinf := bit a.gw 14 || s.2.2.1
  let ninf := bit a.gw 13 || s.2.2.2
  let nan := bit a.gw 15 || s.2.1 || (pinf && ninf)
  let gw := setFld a.gw 13 3 ((if ninf then 1 else 0) + (if pinf then 2 else 0) + (if nan then 4 else 0))
  let sh : Int := 12 - a.e.toInt - 149
  let y : Int := if sh ≥ 0 then s.1 * (2 ^ sh.toNat : Nat) else s.1 / (2 ^ (-sh).toNat : Nat)
  let rem := decide (sh < 0) && decide (s.1 % (2 ^ (-sh).toNat : Nat) ≠ 0)
  let sticky := bit a.gw 12 || rem
  let x := a.x + y
  let b := { a with gw := gw }
  if x > (2 ^ 75 : Nat) - 1 then (b.setX ((2 ^ 75 : Nat) - 1) sticky, true)
  else if x < -(2 ^ 75 : Nat) then (b.setX (-(2 ^ 75 : Nat)) sticky, true)
  else (b.setX x sticky, false)

/-- The position of the highest bit of X that differs from its sign bit. -/
def topBit (x : Int) : Nat := (if x < 0 then (-x - 1).toNat else x.toNat).log2

/-- ACNORM on one accumulator (R193). -/
def Acc.norm (a : Acc) : Acc :=
  let x := a.x
  if x = 0 ∨ x = -1 then a
  else
    let s0 : Int := 73 - (topBit x : Int)
    let e := a.e.toInt
    let lo := e - 32767
    let hi := e + 32768
    let s := if s0 < lo then lo else if s0 > hi then hi else s0
    let y := if s > 0 then x * (2 ^ s.toNat : Nat) else x / (2 ^ (-s).toNat : Nat)
    let rem := decide (s < 0) && decide (x % (2 ^ (-s).toNat : Nat) ≠ 0)
    { a.setX y (bit a.gw 12 || rem) with e := BitVec.ofInt 16 (e - s) }

/-- Conversion of an accumulator (R185). -/
def Acc.read (a : Acc) (bf16 : Bool) (rnd : Rnd) (noise : Nat) : W32 × FpFlags :=
  let f := if bf16 then fmtBf16 else fmtF32
  if bit a.gw 15 then (BitVec.ofNat 32 f.nan, FpFlags.none)
  else if bit a.gw 14 then (BitVec.ofNat 32 (f.signed false (f.maxFin + 1)), FpFlags.none)
  else if bit a.gw 13 then (BitVec.ofNat 32 (f.signed true (f.maxFin + 1)), FpFlags.none)
  else
    let v := 2 * a.x + (if bit a.gw 12 then 1 else 0)
    if v = 0 then (0, FpFlags.none)
    else
      let r := roundFloat f rnd false noise (decide (v < 0)) v.natAbs (a.e.toInt - 13)
      (BitVec.ofNat 32 r.1, r.2)

/-- Accumulators of a station: north stations own their columns', east stations their rows' (R182). Lanes per line, and the
key of the first accumulator. -/
def accLanes (p : Pos) : Nat := if p.val < 32 then 2 else 8

def accBase (p : Pos) : Nat := if p.val < 32 then 64 * p.val else 256 * (p.val - 32)

/-- The face that a station has accumulators on: north, east, or none (R193). -/
def accFace (p : Pos) : Option Bool := if p.val < 32 then some true else if p.val < 64 then some false else none

def Die.accAt (d : Die) (p : Pos) (k : Nat) : Acc :=
  if p.val < 32 then kget {} (accBase p + k) d.accN else kget {} (accBase p + k) d.accE

def Die.setAcc (d : Die) (p : Pos) (k : Nat) (a : Acc) : Die :=
  if p.val < 32 then { d with accN := kput {} (accBase p + k) a d.accN }
  else { d with accE := kput {} (accBase p + k) a d.accE }

/-- The bad words of accumulator `k` of a station: M low, M high, E with GW (R304). -/
def Die.accBad (d : Die) (p : Pos) (k : Nat) : List Nat := d.badIn (fun j => .acc p (3 * k + j)) 3

/-- An accumulator with ones in each bad word (R304). -/
def Acc.poison (a : Acc) (bad : List Nat) : Acc :=
  bad.foldl (fun a j => match j with
    | 0 => { a with m := setFld a.m 0 32 0xFFFFFFFF }
    | 1 => { a with m := setFld a.m 32 32 0xFFFFFFFF }
    | _ => { a with e := 0xFFFF, gw := 0xFFFF }) a

/-- An accumulator as an access reads it (R304). -/
def Die.accSeen (d : Die) (p : Pos) (k : Nat) : Acc := (d.accAt p k).poison (d.accBad p k)

/-- The bad words among the accumulators of a station. -/
def Die.accsBad (d : Die) (p : Pos) : List Nat :=
  if d.bad.isEmpty then [] else (List.range (32 * accLanes p)).flatMap fun k => (d.accBad p k).map fun j => 3 * k + j

/-- Every accumulator of a station has been written, and holds no error any more (DESIGN CHOICE, log 17). -/
def Die.healAccs (d : Die) (p : Pos) : Die := d.heal (fun j => .acc p j) (96 * accLanes p)

/-- Every accumulator of a station. -/
def Die.mapAccs (d : Die) (p : Pos) (f : Acc → Acc) : Die :=
  (List.range (32 * accLanes p)).foldl (fun d k => d.setAcc p k (f (d.accAt p k))) d

/-- HEADLOST of accumulator `k` of a station (R183, R198). -/
def Die.headLost (d : Die) (p : Pos) (k : Nat) (j : AccJob) : Die :=
  let line := k / accLanes p
  let lane := k % accLanes p
  let north := decide (p.val < 32)
  let abs := 32 * (if north then p.val else p.val - 32) + line
  let o := arrOrder .accHeadroom (if north then 1024 + abs else abs) 0 lane
  let d1 := { d with arrEvents := d.arrEvents ++
    [{ order := o, row := if north then none else some abs, col := if north then some abs else none, lane := lane,
       face := some north, sat := false, headlost := true }] }
  if bit d.atrap 1 then d1.raiseAt 4 o .accHeadroom 0 j.by_ j.strm j.parcel else d1

/-- The addends of a cycle to the accumulators (R183): those of one accumulator are summed before they are added; the word
named for lost headroom is an ADMIT's before an ACWR's. -/
def Die.addAll (d : Die) (now : List AccJob) : Die :=
  let adds := now.flatMap fun j => match j.act with
    | .add l => l.map fun kv => (j, kv.1, kv.2)
    | _ => []
  let keys := (adds.map fun e => (e.1.pos, e.2.1)).eraseDups
  keys.foldl (fun d pk =>
    let mine := adds.filter fun e => e.1.pos == pk.1 && e.2.1 == pk.2
    let bad := d.accBad pk.1 pk.2
    let r := (d.accSeen pk.1 pk.2).add (mine.map fun e => e.2.2)
    let d1 := (d.setAcc pk.1 pk.2 r.1).heal (fun j => .acc pk.1 (3 * pk.2 + j)) 3
    match mine.find? (fun e => e.1.strm == .c), mine with
    | some e, _ | none, e :: _ =>
      let d2 := d1.raiseBad bad e.1.by_ e.1.strm e.1.parcel
      if r.2 then d2.headLost pk.1 pk.2 e.1 else d2
    | none, [] => d1) d

/-- ACNORM on every accumulator of a station (R193, R304). -/
def Die.normAll (d : Die) (j : AccJob) : Die :=
  let d1 := (List.range (32 * accLanes j.pos)).foldl (fun e k => e.setAcc j.pos k (d.accSeen j.pos k).norm) d
  (d1.raiseBad (d.accsBad j.pos) j.by_ j.strm j.parcel).healAccs j.pos

/-- ACCUMULATOR_CYCLE of a die: clears, normalizations and additions of this die cycle in the order of R184. -/
def Die.accStep (d : Die) : Die :=
  let now := d.accJobs.filter fun j => j.at_ == d.dcyc
  let cleared (p : Pos) : Bool := now.any fun j => j.pos == p && (match j.act with | .clr _ => true | _ => false)
  let d1 := now.foldl (fun d j => match j.act with
    | .clr b => (d.mapAccs j.pos fun _ => { m := 0, e := b, gw := 0 }).healAccs j.pos
    | .rdClr => if cleared j.pos then d else (d.mapAccs j.pos fun a => { a with m := 0, gw := 0 }).healAccs j.pos
    | _ => d) { d with accJobs := d.accJobs.filter fun j => j.at_ != d.dcyc }
  let d2 := now.foldl (fun d j => match j.act with
    | .norm => d.normAll j
    | _ => d) d1
  d2.addAll now

/-- ASTAT and NANCNT with the array events of a cycle, after its CSRW (R181, R198). -/
def Die.arrClose (d : Die) : Die :=
  let first := d.arrEvents.foldl (fun (b : Option ArrEvent) e => match b with
    | none => some e
    | some f => if e.order < f.order then some e else b) none
  let a0 := d.arrEvents.foldl (fun a e => a ||| (if e.sat then (1 : W64) else 0) ||| (if e.headlost then (2 : W64) else 0)) d.astat
  let a1 := match first with
    | none => a0
    | some e =>
      let a := setFld a0 8 3 e.lane
      let a := match e.row with | some r => setFld a 48 10 r | none => a
      let a := match e.col with | some c => setFld a 32 10 c | none => a
      match e.face with
      | some n => setFld a 4 1 (if n then 1 else 0)
      | none => a
  { d with astat := a1, nancnt := min 0xFFFFFFFF (d.nancnt + d.nanAdd), arrEvents := [], nanAdd := 0 }

-- ## Array words

/-- The lines of station index `i` of a face that lie in lines lo to lo + n − 1: lowest and highest, or none. -/
def lineRange (lo n i : Nat) : Option (Nat × Nat) :=
  let a := max lo (32 * i)
  let b := min (lo + n) (32 * i + 32)
  if a < b then some (a, b - 1) else none

/-- A participating station of an array word: position, pointer number, lowest and highest absolute line (R173). -/
abbrev Feed := Pos × BitVec 2 × Nat × Nat

/-- Participating stations by face: 0 north, 1 east, 2 south, 3 west. -/
def feedsOf (w : Window) (face : Nat) : List Feed :=
  (List.range 32).filterMap fun i =>
    let r := if face = 0 ∨ face = 2 then lineRange w.col0 w.wc i else lineRange w.row0 w.wr i
    let p := match face with
      | 0 => i
      | 1 => 32 + i
      | 2 => 95 - i
      | _ => 127 - i
    r.map fun ab => (Fin.ofNat 128 p, BitVec.ofNat 2 face, ab.1, ab.2)

/-- BANK:ROW of a pointer (R141, R173). -/
def Die.edgeRow (d : Die) (f : Feed) : Nat := (fld (kget 0 f.2.1.toNat (d.sta f.1).e : W64) 8 10).toNat

/-- A fed or filled row beyond 1,023. -/
def Die.edgeBad (d : Die) (fs : List Feed) (rows : Nat) : Bool := fs.any fun f => decide (d.edgeRow f + rows > 1024)

/-- The declared buffers of fed rows at a station (R175). -/
def Die.feedBufs (d : Die) (f : Feed) (rows : Nat) : List (Nat × Buf) :=
  let x := d.sta f.1
  x.buf.filter fun e => e.2.declared && (List.range rows).any fun i =>
    let g := d.edgeRow f + i
    e.2.bank.toNat == g / 128 && decide (e.2.first.toNat ≤ g % 128) && decide (g % 128 ≤ e.2.last.toNat)

/-- Every buffer of a fed row is full; of a written row, empty or filling (R175). -/
def Die.feedOk (d : Die) (fs : List Feed) (rows : Nat) (wr : Bool) : Bool :=
  fs.all fun f => (d.feedBufs f rows).all fun e => if wr then e.2.st == 0 || e.2.st == 1 else e.2.st == 2

/-- The buffer transitions of a passing word, the advance of each pointer in the next cycle, and the accesses of its rows:
`at_ f i` and `until_ f i` are the cycle of row i and the last cycle the latches keep it (R173, R175). -/
def State.feed (s : State) (fs : List Feed) (rows : Nat) (wr : Bool) (kind : Nat → Feed → PKind) (at_ : Feed → Nat → Nat) :
    State :=
  fs.foldl (fun s f =>
    let d := s.curDie
    let g0 := d.edgeRow f
    let s1 := (d.feedBufs f rows).foldl (fun s e =>
      s.later (if wr then .bufWrite f.1 e.1 else .bufRead f.1 e.1 (s.focus.pos, .c, s.cyc))) s
    let w : WriteRec := { strm := .c, parcel := s.focus.parcel, issued := s.cyc, land := s.cyc + 1, name := edgCode f.2.1,
                          by_ := s.focus.pos, target := .e f.2.1 (BitVec.ofNat 64 ((g0 + rows) % 1024 * 256)) }
    let s2 := s1.updDie fun d => d.addWrite f.1 w
    (List.range rows).foldl (fun s i =>
      s.portA (at_ f i) f.1 (BitVec.ofNat 3 ((g0 + i) / 128)) ((g0 + i) % 128) wr true (kind i f)) s2) s

/-- Two rectangles (row range, column range) share a cell. -/
def rectMeets (a b : Nat × Nat × Nat × Nat) : Bool :=
  decide (a.1 < b.2.1) && decide (b.1 < a.2.1) && decide (a.2.2.1 < b.2.2.2) && decide (b.2.2.1 < a.2.2.2)

/-- The rectangles that fronts of a window pass: first row, row end, first column, column end (R172). -/
def Window.rects (w : Window) (bwd : Bool) : List (Nat × Nat × Nat × Nat) :=
  [(w.row0, w.row0 + w.wr, w.col0, 1024),
   (0, if bwd then 1024 else w.row0 + w.wr, w.col0, w.col0 + w.wc)]

/-- Fronts of two ADMITs of one kind would hold one cell in one cycle (R190). -/
def sharedCell (bwd : Bool) (t1 m1 : Nat) (w1 : Window) (t2 m2 : Nat) (w2 : Window) : Bool :=
  let a1 : Int := if bwd then t1 else t1 - w1.col0
  let a2 : Int := if bwd then t2 else t2 - w2.col0
  decide (0 < m1) && decide (0 < m2) && decide (a1 < a2 + m2) && decide (a2 < a1 + m1) &&
    ((w1.rects bwd).any fun x => (w2.rects bwd).any fun y => rectMeets x y)

/-- A word of kind `k` has issued in die cycle `t` at a lower ring position than `p`, whatever came of it; one that RESUME replays below
another that has acted clashes with nothing (R190; DEDUCED, log 50). -/
def Die.onceTaken (d : Die) (t : Nat) (k : OnceKind) (p : Pos) : Bool :=
  d.once.any fun e => decide (e.at_ = t) && e.kind == k && decide (e.pos < p)

/-- The issuing word is one of kind `k` in its cycle (R190). -/
def State.markOnce (s : State) (k : OnceKind) : State :=
  s.updDie fun d => { d with once := { at_ := s.cyc, kind := k, pos := s.focus.pos } :: d.once.filter fun e => e.at_ == s.cyc }

/-- ADMIT_CLASH of an ADMIT of m fronts of a station (R190). -/
def Die.admitClash (d : Die) (t : Nat) (kind : WorkKind) (m : Nat) (p : Pos) : Bool :=
  d.onceTaken t (.admits kind) p || d.works.any fun k => k.kind == kind &&
    (decide (t < k.issued + k.m) || sharedCell (kind == .bwd) k.issued k.m k.win t m d.window)

/-- The faces that feed an ADMIT. -/
def admitFeeds (w : Window) : FKind → List Feed
  | .fwd => feedsOf w 0
  | .bwd => feedsOf w 1 ++ feedsOf w 2

def fkWork : FKind → WorkKind
  | .fwd => .fwd
  | .bwd => .bwd

/-- The first issue check that an ADMIT of m fronts of station `p` fails (R189); `wide` says that RG = 1 and bits [63:24] of A are
set. -/
def Die.admitCause (d : Die) (t : Nat) (kind : FKind) (m : Nat) (wide : Bool) (p : Pos) : Option Cause :=
  let fs := admitFeeds d.window kind
  if d.admitClash t (fkWork kind) m p then some .admitClash
  else if m = 0 then none
  else if wide || d.edgeBad fs m then some .edgeRange
  else if !d.feedOk fs m false then some .schedMiss
  else none

/-- The array is idle in cycle t: no front has been in it in the 2,047 cycles before, and none is admitted in t (R279). -/
def Die.idleArray (d : Die) (t : Nat) : Bool :=
  (match d.rampLast with
    | none => true
    | some b => decide (b + 2047 < t)) &&
    !(d.works.any fun k => (k.kind == .fwd || k.kind == .bwd) && decide (0 < k.m) && k.issued == t)

/-- The start spacing Δ (R278). -/
def rampDelta (didtlim : W64) : Nat :=
  let step := max 1 (fld didtlim 16 10).toNat
  let lim := max 1 (fld didtlim 0 10).toNat
  (step * 150 + lim - 1) / lim

/-- Another ramp event lies within Δ − 1 cycles of `s` (R280). -/
def rampNear (ramps : List Nat) (delta s : Nat) : Bool :=
  ramps.any fun r => decide (s < r + delta) && decide (r < s + delta)

/-- The count of an ADMIT: CNT, or the whole of scalar A (R189). -/
def State.admitCount (s : State) : Count → Nat × Bool
  | .cnt n => (n.toNat, false)
  | .reg a => ((s.scal a).toNat, fld (s.scal a) 24 40 != 0)

/-- A ramp event of the issuing die in this sidereal cycle is recorded; one too close to another is a breach (R280). -/
def State.ramp (s : State) : State :=
  let near := rampNear s.hub.ramps (rampDelta s.hub.didtlim) s.sidc
  let s1 := s.updDie fun d => { d with rampEvent := some s.sidc, tele := if near then { d.tele with breach := d.tele.breach + 1 } else d.tele }
  let t := s.curDie.team
  { s1 with hub := { s1.hub with
      ramps := s1.hub.ramps ++ [s.sidc],
      teams := if near then s1.hub.teams.map fun x => if x.num = t then { x with breach := x.breach + 1 } else x else s1.hub.teams } }

/-- The word of the array that starts `k`. -/
def State.work (s : State) (kind : WorkKind) (m : Nat) (pane : Bool) (img : Img) (clr : Bool) : State :=
  s.updDie fun d => { d with works := d.works ++
    [{ kind := kind, pos := s.focus.pos, parcel := s.focus.parcel, issued := s.cyc, m := m, adm := 0, win := d.window,
       fimg := d.fimg, gnan := d.gnan, pane := pane, img := img, clr := clr }] }

/-- The cycle in which row i of a participating station is read for an ADMIT issued in t (R173). -/
def admitRowAt (w : Window) (t : Nat) (f : Feed) (i : Nat) : Nat :=
  if f.2.1 = 0 then t + (f.2.2.1 - w.col0) + i
  else if f.2.1 = 1 then t + (1023 - f.2.2.2) + i
  else t + (1023 - f.2.2.2) + i

/-- ADMIT (R189, R190, R280). One that fails a check or has a count of zero still counts as an ADMIT of its cycle (DEDUCED,
log 50). -/
def execAdmitWork (kind : FKind) (pane : Bool) (m : Count) (s : State) : Out :=
  let n := s.admitCount m
  let w := s.curDie.window
  let s0 := s.markOnce (.admits (fkWork kind))
  match s.curDie.admitCause s.cyc kind n.1 n.2 s.focus.pos with
  | some c => .next (s0.trap c)
  | none =>
    if n.1 = 0 then .next s0
    else
      let s1 := if s.curDie.idleArray s.cyc then s0.ramp else s0
      .next ((s1.feed (admitFeeds w kind) n.1 false (fun i f => .feed (fkWork kind) i (admitRowAt w s.cyc f i + 36))
        (fun f i => admitRowAt w s.cyc f i)).work (fkWork kind) n.1 pane .both false)

/-- SEAT (R190, R191); one that fails a check does not occupy its path (DEDUCED, log 50). -/
def execSeat (img : Img) (pane : Bool) (s : State) : Out :=
  let d := s.curDie
  let w := d.window
  let rows := (w.wc + 1) / 2
  let fs := feedsOf w 3
  if s.cyc ≤ d.seatUntil ∧ 0 < d.seatUntil then raise s .admitClash
  else if d.edgeBad fs rows then raise s .edgeRange
  else if !d.feedOk fs rows false then raise s .schedMiss
  else
    let at_ (f : Feed) (i : Nat) : Nat := s.cyc + (f.2.2.1 - w.row0) + 2 * i
    .next (((s.feed fs rows false (fun i f => .feed .seat i (at_ f i + 37)) at_).work .seat 1 pane img false).updDie fun d =>
      { d with seatUntil := s.cyc + w.wr + w.wc + 2 })

/-- LIFT (R190, R192); one that fails a check does not occupy its path (DEDUCED, log 50). -/
def execLift (clr : Bool) (s : State) : Out :=
  let d := s.curDie
  let w := d.window
  let rows := (w.wc + 1) / 2
  let fs := feedsOf w 3
  if s.cyc ≤ d.liftUntil ∧ 0 < d.liftUntil then raise s .admitClash
  else if d.edgeBad fs rows then raise s .edgeRange
  else if !d.feedOk fs rows true then raise s .bufState
  else
    let at_ (f : Feed) (i : Nat) : Nat := s.cyc + 7 + (f.2.2.2 - w.row0) + w.col0 + 2 * i
    .next (((s.feed fs rows true (fun i _ => .liftOut i) at_).work .lift 1 false .both clr).updDie fun d =>
      { d with liftUntil := s.cyc + 3 + w.wr + w.col0 + w.wc })

/-- The window bits of AWIN's operand, and whether bits [63:40] are set (R187). -/
def State.winBits (s : State) : WinOp → BitVec 40 × Bool
  | .imm v => (v.setWidth 40, false)
  | .reg a => ((s.scal a).setWidth 40, fld (s.scal a) 40 24 != 0)

/-- A window from its bits (R187). -/
def windowOf (v : BitVec 40) : Window :=
  { row0 := (fld v 30 10).toNat, col0 := (fld v 20 10).toNat, wr := (fld v 10 10).toNat + 1, wc := (fld v 0 10).toNat + 1 }

/-- AWIN (R187, R190). -/
def execAwin (w : WinOp) (s : State) : Out :=
  let v := s.winBits w
  let n := windowOf v.1
  let s1 := s.markOnce .awin
  if s.curDie.onceTaken s.cyc .awin s.focus.pos then .next (s1.trap .admitClash)
  else if v.2 || decide (n.row0 + n.wr > 1024) || decide (n.col0 + n.wc > 1024) then .next (s1.trap .windowRange)
  else .next (s1.later (.window n))

/-- AMODE (R188, R190). -/
def execAmode (fimg : Fimg) (gnan : Gnan) (s : State) : Out :=
  let s1 := s.markOnce .amode
  if s.curDie.onceTaken s.cyc .amode s.focus.pos then .next (s1.trap .admitClash) else .next (s1.later (.amode fimg gnan))

/-- A job for the accumulators of the issuing station. -/
def State.accJob (s : State) (at_ : Nat) (act : AccAct) : State :=
  s.updDie fun d => { d with accJobs := d.accJobs ++
    [{ at_ := at_, pos := s.focus.pos, act := act, by_ := s.focus.pos, strm := s.focus.strm, parcel := s.focus.parcel }] }

/-- ACCLR (R193). -/
def execAcclr (north : Bool) (base : BitVec 16) (s : State) : Out :=
  if accFace s.focus.pos = some north then .next (s.accJob (s.cyc + 2) (.clr base)) else raise s .edgeRange

/-- ACNORM (R193). -/
def execAcnorm (north : Bool) (s : State) : Out :=
  if accFace s.focus.pos = some north then .next (s.accJob (s.cyc + 2) .norm) else raise s .edgeRange

/-- The lanes of a half (R194). -/
def halfMask (half : Bool) : BitVec 64 := if half then 0xFFFFFFFF00000000 else 0xFFFFFFFF

/-- ACRD (R194, R304). -/
def execAcrd (bf16 : Bool) (rnd : Rnd) (north : Bool) (d : BitVec 5) (clr half : Bool) (vrow : BitVec 4) (s : State) : Out :=
  let u := if north then 2 else 8
  match s.vphys d with
  | .error sub => raiseDead s sub
  | .ok ph =>
    if accFace s.focus.pos ≠ some north ∨ vrow.toNat + u > 16 then raise s .edgeRange
    else
      let nz := if rnd = .rsr then s.curSta.noise.draws (32 * u) else (List.replicate (32 * u) 0, s.curSta.noise)
      let s1 := (s.updSta fun x => { x with noise := nz.2 }).raiseBad (s.curDie.accsBad s.focus.pos)
      let rowOf (q : Nat) : List (W32 × FpFlags) := (List.range 32).map fun j =>
        (s.curDie.accSeen s.focus.pos (u * j + q)).read bf16 rnd ((nz.1.getD (32 * q + j) 0).toNat)
      let s2 := (List.range u).foldl (fun s q =>
        let l := (rowOf q).map (·.1)
        s.putWrite 4 (d.setWidth 8) (.v ph (vrow + BitVec.ofNat 4 q) (halfMask half)
          (rowOfLanes (if half then List.replicate 32 0 ++ l else l ++ List.replicate 32 0)))) s1
      let s3 := s2.putFlags 4 (orFlags ((List.range u).flatMap fun q => (rowOf q).map (·.2)))
      .next (if clr then s3.accJob s.cyc .rdClr else s3)

/-- ACWR (R195; DEDUCED, log 62). -/
def execAcwr (north : Bool) (a : BitVec 5) (half : Bool) (vrow : BitVec 4) (s : State) : Out :=
  let u := if north then 2 else 8
  match s.vphys a with
  | .error sub => raiseDead s sub
  | .ok ph =>
    if accFace s.focus.pos ≠ some north ∨ vrow.toNat + u > 16 then raise s .edgeRange
    else
      let row (q : Nat) : Row × List Nat := s.vread ph (vrow.toNat + q)
      .next ((s.raiseBad ((List.range u).flatMap fun q => (row q).2)).accJob (s.cyc + 3)
        (.add ((List.range u).flatMap fun q => (List.range 32).map fun j =>
          (u * j + q, lane (row q).1 ((if half then 32 else 0) + j)))))

-- ## Array events

/-- FRONT_ADMIT (R172). -/
def execFrontAdmit (d : DieId) (s : State) : Out := .next (s.setDie d (s.die d).admitStep)

/-- FRONT_TRANSIT (R176 to R180, R197). -/
def execFrontTransit (d : DieId) (s : State) : Out := .next ((s.setDie d ((s.die d).transits s.ctr)).bump)

/-- SEAT_COMMIT (R176, R191). -/
def execSeatCommit (d : DieId) (s : State) : Out := .next ((s.setDie d ((s.die d).seatStep s.ctr)).bump)

/-- LIFT_CAPTURE (R176, R192). -/
def execLiftCapture (d : DieId) (s : State) : Out := .next (s.setDie d (s.die d).liftStep)

/-- ACCUMULATOR_CYCLE (R184). -/
def execAccumulatorCycle (d : DieId) (s : State) : Out := .next (s.setDie d (s.die d).accStep)

end Sys2Proof.Machine
end

