-- ==== Sys2Proof/Machine/Control.lean ====
section
/-! DEFINITION. Sections, the next-word state, branches, calls, loops and the words that steer a stream (R43 to R54, R233 to
R241, R252, R253). -/

namespace Sys2Proof.Machine

-- ## Fetch (R43, R54)

/-- A parcel of the active plane. -/
def Station.parcelAt (x : Station) (p : Parcel) : Parcel := kget 0 (idx p) x.plane

/-- The word at a parcel: the parcel at the lowest address holds bits [15:0] (R43). -/
def Station.wordAt (x : Station) (p : Parcel) : W96 :=
  x.parcelAt (p + 5) ++ x.parcelAt (p + 4) ++ x.parcelAt (p + 3) ++ x.parcelAt (p + 2) ++ x.parcelAt (p + 1)
    ++ x.parcelAt p

/-- The header at a parcel (R50). -/
def Station.hdrAt (x : Station) (p : Parcel) : W64 :=
  x.parcelAt (p + 3) ++ x.parcelAt (p + 2) ++ x.parcelAt (p + 1) ++ x.parcelAt p

/-- DLY of the word at a parcel. -/
def Station.dlyAt (x : Station) (p : Parcel) : Nat := (wordDly (x.wordAt p)).toNat

/-- A header is bad (R51). -/
def hdrBad (w : W64) (p : Parcel) : Bool :=
  fld w 60 4 != 0xA || fld w 48 9 != 0 || fld w 24 4 != 0 || fld w 40 8 == 0xFF || fld w 28 12 == 0 ||
    decide (p.toNat + 4 + 6 * (fld w 28 12).toNat > 0x10000)

/-- The section that a header describes; deps of the header's own stream read 0xFF (R50). -/
def sectionOf (st : Strm) (w : W64) (p : Parcel) : Section :=
  let d0 := fld w 16 8
  let d1 := fld w 8 8
  let d2 := fld w 0 8
  { hdr := p, pre := bit w 59, lbf := bit w 58, xch := bit w 57, snum := fld w 40 8, len := fld w 28 12,
    deps := match st with
      | .c => { x0 := 0xFF, x1 := d0, x2 := d1, x3 := d2 }
      | .l => { x0 := d0, x1 := 0xFF, x2 := d1, x3 := d2 }
      | .s => { x0 := d0, x1 := d1, x2 := 0xFF, x3 := d2 }
      | .x => { x0 := d0, x1 := d1, x2 := d2, x3 := 0xFF } }

/-- First parcel of a section's words. -/
def Section.first (c : Section) : Nat := c.hdr.toNat + 4

/-- The parcel after a section's last word. -/
def Section.stop (c : Section) : Nat := c.hdr.toNat + 4 + 6 * c.len.toNat

/-- A parcel is a word of the section. -/
def Section.has (c : Section) (p : Nat) : Bool :=
  decide (c.first ≤ p) && decide (p < c.stop) && (p - c.first) % 6 == 0

/-- The header places reached from one entry parcel, valid headers or not: each section follows the one before, and a place that
begins with MAGIC holds a header whatever its other fields say (R51, R53, R54). -/
def places (x : Station) (st : Strm) : Nat → Nat → List Parcel
  | 0, _ => []
  | n + 1, p =>
    if p ≥ 0xFFFF then []
    else
      let q := BitVec.ofNat 16 p
      if fld (x.hdrAt q) 60 4 != 0xA then []
      else q :: (if hdrBad (x.hdrAt q) q then [] else places x st n (sectionOf st (x.hdrAt q) q).stop)

/-- The header places of a station: those its stream directory reaches, and the handler's on its station (R53, R54, R290;
DEDUCED, log 34). -/
def headers (x : Station) (st : Strm) (h : Hsta) (p : Pos) : List Parcel :=
  ([0, 1, 2, 3].map fun i => (x.parcelAt (BitVec.ofNat 16 i)).toNat).flatMap (places x st 6600) ++
    (if h.pos = p then places x st 6600 h.entry.toNat else [])

/-- The sections of a station: the header places whose header is valid (R51). -/
def sections (x : Station) (st : Strm) (h : Hsta) (p : Pos) : List Section :=
  ((headers x st h p).filter fun q => !hdrBad (x.hdrAt q) q).map fun q => sectionOf st (x.hdrAt q) q

/-- Header places that the issuing stream can transfer to. -/
def State.headers (s : State) : List Parcel := Machine.headers s.curSta s.focus.strm s.curDie.hsta s.focus.pos

/-- Sections that the issuing stream can enter. -/
def State.sections (s : State) : List Section := Machine.sections s.curSta s.focus.strm s.curDie.hsta s.focus.pos

-- ## Moving on (R44, R51, R52)

/-- The stream's next-word state is parcel `p`, which follows a word of cycle `t`; `wait` cycles are added (R44, R240;
DEDUCED, log 46). Past parcel 0xFFFF the parcels go on from 0 (DESIGN CHOICE, log 65). A section that is entered begins with an
empty loop buffer (R55). -/
def nextAt (x : Station) (hdrs : List Parcel) (secs : List Section) (handler : Bool) (c : Ctx) (p : Nat) (t wait : Nat) : Ctx :=
  let q := BitVec.ofNat 16 p
  match c.sect with
  | none => { c with next := .hdr q (t + 1) wait }
  | some k =>
    if k.has p then { c with next := .word q (t + 1 + wait + x.dlyAt q) }
    else if p = k.stop ∨ hdrs.any (·.toNat == p) then { c with next := .hdr q (t + 1) wait }
    else
      match secs.find? fun h => h.first == p with
      | some h => { c with sect := some h, entering := !handler, lbuf := [], next := .word q (t + 1 + wait + x.dlyAt q) }
      | none => { c with next := .hdr q (t + 1) wait }

/-- Control leaves the current section for parcel `p` (R52). -/
def leaves (c : Ctx) (p : Nat) : Bool :=
  match c.sect with
  | none => false
  | some k => !k.has p

/-- The issuing stream retires its section at the end of the cycle if control goes to parcel `p` outside it; handler sections
leave RSEC unchanged (R52, R293). -/
def State.retire (s : State) (p : Nat) : State :=
  if s.focus.handler || !leaves s.curCtx p then s
  else match s.curCtx.sect with
    | none => s
    | some k => s.later (.rsec s.focus.pos s.focus.strm k.snum k.pre)

/-- Control of the issuing stream goes to parcel `p` (R44, R235). -/
def State.goto (s : State) (p : Nat) : State :=
  let s1 := s.retire p
  let x := s1.curSta
  let hdrs := s1.headers
  let secs := s1.sections
  { s1.updCtx fun c => nextAt x hdrs secs s.focus.handler c p s.cyc s.focus.wait with
    focus := { s.focus with moved := true } }

/-- Loop-back (R238): the stack after the issue of a word at `w`, innermost entry first, and where it loops back to, with ROT. -/
def loopBack (w : Parcel) : List LoopEntry → List LoopEntry × Option (Parcel × Bool)
  | [] => ([], none)
  | e :: t =>
    if e.last = w then
      if e.ctr > 1 then ({ e with ctr := e.ctr - 1 } :: t, some (e.first, e.rot)) else loopBack w t
    else (e :: t, none)

/-- The parcel after the issuing word. -/
def State.after (s : State) : Nat := s.focus.parcel.toNat + 6

/-- The move on to parcel `p` unless a loop goes back (R238): the check of the loop stack that every issue makes. A replayed word
has had it in its own cycle (R288, R297). -/
def State.advanceTo (s : State) (p : Nat) : State :=
  if s.focus.replay then s.goto p
  else
    let r := loopBack s.focus.parcel s.curCtx.loops
    let s1 := s.updCtx fun c => { c with loops := r.1 }
    match r.2 with
    | some (q, rot) => (if rot then s1.later (.rotate s.focus.pos) else s1).goto q.toNat
    | none => s1.goto p

/-- The move that follows a word that has not transferred control itself: loop-back, or the next word (R44, R238). A replayed
word has moved on in its own cycle (R288, R297). -/
def State.advance (s : State) : State :=
  if s.focus.moved || s.focus.replay then s else s.advanceTo s.after

/-- A target that BR and CALL may transfer to (R53). -/
def State.targetOk (s : State) (p : Parcel) : Bool :=
  (match s.curCtx.sect with | some k => k.has p.toNat | none => false) || s.headers.contains p

/-- A parcel that RET may return to (R53); one that lies in no section at all is none (DESIGN CHOICE, log 65). -/
def State.returnOk (s : State) (p : Parcel) : Bool := s.targetOk p || s.sections.any fun h => h.first == p.toNat

/-- A b-register of the issuing stream. -/
def State.breg (s : State) (a : BitVec 3) : BReg := kget {} (idx a) s.curCtx.b

/-- A b-register is ready (R233). -/
def State.bready (s : State) (a : BitVec 3) : Bool := (s.breg a).prep && decide ((s.breg a).pc + 4 ≤ s.cyc)

/-- A loop whose body holds parcel `p`; the LOOP word lies outside (R239). -/
def LoopEntry.holds (e : LoopEntry) (p : Parcel) : Bool := decide (e.first.toNat ≤ p.toNat) && decide (p.toNat ≤ e.last.toNat)

/-- The loops that stay when control goes to `p`: an entry whose body does not hold `p` goes with every entry inside it. -/
def keepLoops (p : Parcel) : List LoopEntry → List LoopEntry
  | [] => []
  | e :: t => if t.all (LoopEntry.holds · p) && e.holds p then e :: t else keepLoops p t

/-- The loops that stay when every entry whose end parcel is `w` goes, with the entries inside it (DEDUCED, log 48). -/
def cutLoops (w : Parcel) : List LoopEntry → List LoopEntry
  | [] => []
  | e :: t => if (e :: t).any (·.last == w) then cutLoops w t else e :: t

/-- The loop stack after a BR at `w` taken to `p` (R239). -/
def brLoops (w p : Parcel) (l : List LoopEntry) : List LoopEntry := keepLoops p (cutLoops w l)

-- ## The words

/-- NOP (R240). -/
def execNop (s : State) : Out := .next s

/-- WAITC (R240). -/
def execWaitc (cnt : BitVec 24) (s : State) : Out := .next { s with focus := { s.focus with wait := cnt.toNat } }

/-- PBR (R234). -/
def execPbr (d : BitVec 3) (t : PTarget) (s : State) : Out :=
  let tgt : Parcel := match t with
    | .off o => s.focus.parcel + BitVec.ofInt 16 (6 * o.toInt)
    | .ind a => (s.scal a).setWidth 16
  .next (s.updCtx fun c => { c with b := kput {} (idx d) { prep := true, tgt := tgt, pc := s.cyc } c.b })

/-- BR (R233, R235, R239). -/
def execBr (a : BitVec 3) (s : State) : Out :=
  let p := (s.breg a).tgt
  if !s.bready a then raise s .branchEarly
  else if !s.targetOk p then raise s .sectionOrder
  else .next ((s.updCtx fun c => { c with loops := brLoops s.focus.parcel p c.loops }).goto p.toNat)

/-- CALL (R236). -/
def execCall (a : BitVec 3) (s : State) : Out :=
  let p := (s.breg a).tgt
  if !s.bready a then raise s .branchEarly
  else if s.curCtx.calls.length ≥ 8 then raise s .callDepth
  else if !s.targetOk p then raise s .sectionOrder
  else .next ((s.updCtx fun c =>
    { c with calls := { ret := BitVec.ofNat 16 s.after, depth := c.loops.length } :: c.calls }).goto p.toNat)

/-- RET (R236). -/
def execRet (s : State) : Out :=
  match s.curCtx.calls with
  | [] => raise s .callDepth
  | e :: t =>
    if !s.returnOk e.ret then raise s .sectionOrder
    else .next ((s.updCtx fun c =>
      { c with calls := t, loops := c.loops.drop (c.loops.length - e.depth) }).goto e.ret.toNat)

/-- The parcel of the end word of a LOOP at parcel `w`. -/
def loopEnd (w : Parcel) (off : BitVec 24) : Int := w.toNat + 6 * off.toInt

/-- A LOOP's end word lies after it in its section (R53, R237). -/
def State.loopOk (s : State) (off : BitVec 24) : Bool :=
  decide (0 < off.toInt) &&
    match s.curCtx.sect with
    | some k => decide (loopEnd s.focus.parcel off < k.stop)
    | none => false

/-- A LOOP that runs no iteration: control goes to the word after its end word, unless an outer loop that ends at the LOOP goes
back (R45, R237, R238; DEDUCED, log 47). -/
def loopSkip (off : BitVec 24) (s : State) : Out :=
  if !s.loopOk off then raise s .sectionOrder else .next (s.advanceTo ((loopEnd s.focus.parcel off).toNat + 6))

/-- The count of LOOP or ADMIT from a scalar or from CNT (R57). -/
def State.count (s : State) : Count → Nat
  | .cnt n => n.toNat
  | .reg a => ((s.scal a).setWidth 32).toNat

/-- LOOP (R237). -/
def execLoop (rot : Bool) (n : Count) (off : BitVec 24) (s : State) : Out :=
  if !s.loopOk off then raise s .sectionOrder
  else if s.curCtx.loops.length ≥ 4 then raise s .loopDepth
  else if s.count n = 0 then loopSkip off s
  else .next ((s.updCtx fun c => { c with loops :=
    { ctr := s.count n, rot := rot, first := BitVec.ofNat 16 s.after,
      last := BitVec.ofNat 16 (loopEnd s.focus.parcel off).toNat } :: c.loops }).goto s.after)

/-- The time of an ALIGN (R241). -/
def State.alignTime (s : State) : Wide → Nat
  | .imm v => v.toNat
  | .reg a v => (s.scal a + v.signExtend 64).toNat

/-- ALIGN (R23, R241). -/
def execAlign (late : Bool) (t : Wide) (s : State) : Out :=
  if s.focus.handler then raise s .wrongStream
  else if s.sidc ≤ s.alignTime t then
    .next (s.updDie fun d => { d with notBefore := max d.notBefore (s.alignTime t + 1) })
  else if late then .next s
  else raise s .alignOverrun

/-- QOP (R56, R231). -/
def execQop (tt : BitVec 4) (d a b : BitVec 3) (s : State) : Out :=
  .next (s.putPred 2 d (bit tt ((if s.pred a then 1 else 0) + 2 * (if s.pred b then 1 else 0))))

/-- TRAP (R252). -/
def execTrap (n : BitVec 3) (s : State) : Out := raise s (.trapN n)

/-- EXIT (R52, R253); in handler mode it ends handler mode at the close of the cycle (R294; DEDUCED, log 40). -/
def execExit (s : State) : Out :=
  let s1 := s.updCtx fun c => { c with retired := true, next := .off, loops := [], calls := [] }
  let pre := match s.curCtx.sect with | some k => k.pre | none => false
  let s2 := if s.focus.handler then s1 else s1.later (.rsec s.focus.pos s.focus.strm 0xFE pre)
  .next { s2 with focus := { s.focus with moved := true } }

end Sys2Proof.Machine
end

