-- ==== Sys2Proof/Machine/Ring.lean ====
section
/-! DEFINITION. The sixteen ring lanes: RDRV, RTAP and the entry of items (R122 to R124). -/

namespace Sys2Proof.Machine

/-- Lanes 0 to 7 run clockwise, 8 to 15 anticlockwise (R48, R122). -/
def laneCw (l : Nat) : Bool := decide (l < 8)

/-- The position `k` steps along a lane from `p` (R122). -/
def along (l p k : Nat) : Nat := if laneCw l then (p + k) % 128 else (p + 128 - k % 128) % 128

/-- An item stands at position `p` of its lane in cycle `t` (R123). -/
def Item.standsAt (i : Item) (p t : Nat) : Bool :=
  decide (i.entry ≤ t) && decide (t ≤ i.entry + i.hops) && along i.lane i.pos (t - i.entry) == p

/-- The item in a slot in cycle `t`. -/
def Die.slotAt (d : Die) (l p t : Nat) : Option Item := d.items.find? fun i => i.lane == l && i.standsAt p t

/-- RDRV (R123). -/
def execRdrv (lane : BitVec 4) (a : BitVec 5) (hops : BitVec 7) (row : BitVec 4) (s : State) : Out :=
  match s.vphys a with
  | .error sub => raiseDead s sub
  | .ok ph =>
    let r := s.vread ph row.toNat
    let item : Item := { lane := lane.toNat, pos := s.focus.pos.val, entry := s.cyc + 2,
                         hops := if hops = 0 then 127 else hops.toNat, kind := .data, data := r.1, by_ := s.focus.pos,
                         parcel := s.focus.parcel }
    .next ((s.raiseBad r.2).updDie fun d => { d with drives := d.drives ++ [{ at_ := s.cyc + 2, item := item }] })

/-- RTAP (R124). -/
def execRtap (d : BitVec 5) (lane : BitVec 4) (row : BitVec 4) (s : State) : Out :=
  match s.vphys d with
  | .error sub => raiseDead s sub
  | .ok ph =>
    match s.curDie.slotAt lane.toNat s.focus.pos.val s.cyc with
    | some i =>
      match i.kind with
      | .data => .next (s.putWrite 3 (d.setWidth 8) (.v ph row allLanes i.data))
      | .sweep .. => raise s .schedMiss
    | none => raise s .schedMiss

/-- An item enters the slot at its position, or its word raises LANE_CLASH and the item is discarded (R123). -/
def Die.enter (d : Die) (i : Item) : Die :=
  match d.slotAt i.lane i.pos i.entry with
  | some _ => d.raiseAt 3 0 .laneClash 0 i.by_ .x i.parcel
  | none => { d with items := d.items ++ [i] }

/-- The RDRV items that enter in this die cycle; items past their last station are gone (R122, R123). -/
def Die.ringStep (d : Die) : Die :=
  let d1 := { d with items := d.items.filter fun i => decide (d.dcyc ≤ i.entry + i.hops),
                     drives := d.drives.filter fun r => r.at_ != d.dcyc }
  (d.drives.filter fun r => r.at_ == d.dcyc).foldl (fun d r => d.enter r.item) d1

/-- RING_ITEM_ENTRY (R123). -/
def execRingItemEntry (d : DieId) (s : State) : Out := .next (s.setDie d (s.die d).ringStep)

end Sys2Proof.Machine
end

