-- ==== Sys2Proof/Machine/Vector.lean ====
section
/-! DEFINITION. The X-stream words of the vector pipe and the special-function unit (R143 to R166), and ROTSET (R132). -/

namespace Sys2Proof.Machine

-- ## The pipe (R145, R146)

/-- The physical register of a live name. -/
def State.phys (s : State) (n : BitVec 5) : BitVec 5 := (physOf s.curSta.rotd n).getD 0

/-- The dead name whose subcode OUT_OF_ALLOTMENT reports: of several the first in the order destinations, then a, b and c (R133;
DESIGN CHOICE, log 102). -/
def State.dead (s : State) (l : List (BitVec 5)) : Option (BitVec 5) :=
  l.find? fun n => (physOf s.curSta.rotd n).isNone

/-- Bad words of the sources that a word reads (R304). -/
def State.srcBad (s : State) (srcs : List (BitVec 5)) (masks : List (BitVec 3)) : List Nat :=
  srcs.flatMap (fun n => s.curDie.badIn (fun k => .vreg s.focus.pos (1024 * (s.phys n).toNat + k)) 1024) ++
    masks.flatMap fun m => s.curDie.badIn (fun k => .mask s.focus.pos (32 * m.toNat + k)) 32

/-- A word that occupies the pipe for `p` cycles: the check for dead names, then for the pipe, then its action (R133, R146). -/
def pipeWord (s : State) (p : Nat) (dsts srcs : List (BitVec 5)) (masks : List (BitVec 3)) (act : State → State) : Out :=
  match s.dead (dsts ++ srcs) with
  | some n => raiseDead s (deadSub s.curSta.rotd n)
  | none =>
    if s.cyc < s.curSta.pipeFree then raise s .pipeClash
    else .next (act ((s.updSta fun x => { x with pipeFree := s.cyc + p }).raiseBad (s.srcBad srcs masks)))

/-- The rows of a register as the issuing word reads them. -/
def State.rows (s : State) (n : BitVec 5) : List Row := (List.range 16).map fun i => (s.vread (s.phys n) i).1

/-- Element `k` of a register, in element order (R143). -/
def elAt (rows : List Row) (k : Nat) : W32 := lane (rows.getD (k / 64) 0) (k % 64)

/-- The rows of `b|imm` (R47). -/
def State.vopRows (s : State) : VOp → List Row
  | .r n => s.rows n
  | .i v => List.replicate 16 (rowOfLanes (List.replicate 64 v))

/-- The registers that `b|imm` names. -/
def vopSrc : VOp → List (BitVec 5)
  | .r n => [n]
  | .i _ => []

/-- A mask as the issuing word reads it: bad words deliver ones (R304). -/
def State.maskOf (s : State) (m : BitVec 3) : MaskReg :=
  (s.curDie.badIn (fun k => .mask s.focus.pos (32 * m.toNat + k)) 32).foldl
    (fun x k => x ||| (0xFFFFFFFF <<< (32 * k) : MaskReg)) (s.curSta.mask m)

/-- A vector result: sixteen rows, each under its lanes of the mask (R129, R144). -/
def State.putVec (s : State) (lat : Nat) (d : BitVec 5) (mask : MaskReg) (vals : List W32) : State :=
  (List.range 16).foldl (fun s i =>
    s.putWrite lat (d.setWidth 8) (.v (s.phys d) (BitVec.ofNat 4 i) (fld mask (64 * i) 64)
      (rowOfLanes ((vals.drop (64 * i)).take 64)))) s

/-- A whole-mask result; a write to m0 is discarded (R49, R129). -/
def State.putMask (s : State) (lat : Nat) (d : BitVec 3) (sel v : MaskReg) : State :=
  s.putWrite lat (0x20 + d.setWidth 8) (.m d sel v)

/-- `n` noise values of the issuing word if it draws, else zeros (R165). -/
def State.draws (s : State) (draw : Bool) (n : Nat) : List Nat × State :=
  if draw then
    let r := s.curSta.noise.draws n
    (r.1.map (·.toNat), s.updSta fun x => { x with noise := r.2 })
  else (List.replicate n 0, s)

/-- The elements that a mask selects, in element order (R143). -/
def selected (mask : MaskReg) : List Nat := (List.range 1024).filter fun k => bit mask k

/-- The results of the selected elements put into element order, zero elsewhere. -/
def spread (mask : MaskReg) : List Nat → List W32 → List W32
  | [], _ => []
  | k :: t, l => if bit mask k then l.headD 0 :: spread mask t l.tail else 0 :: spread mask t l

/-- A word that computes each selected element from its index and one noise value (R144, R148, R165). -/
def State.elementwise (s : State) (lat : Nat) (d : BitVec 5) (mask : MaskReg) (draw : Bool) (f : Nat → Nat → W32 × FpFlags) : State :=
  let sel := selected mask
  let ns := s.draws draw sel.length
  let rs := (sel.zip ns.1).map fun kn => f kn.1 kn.2
  (ns.2.putVec lat d mask (spread mask (List.range 1024) (rs.map (·.1)))).putFlags lat (orFlags (rs.map (·.2)))

/-- Whether an arithmetic word rounds its elements with noise. -/
def rsrF32 (ty : Ty) (rnd : Rnd) : Bool := ty == .f32 && rnd == .rsr

/-- A value without events. -/
def quiet (v : W32) : W32 × FpFlags := (v, FpFlags.none)

-- ## Arithmetic (R148)

/-- An exact integer result of a signed or unsigned form. -/
def intResult (sg sat : Bool) (r : Int) : W32 :=
  if !sat then BitVec.ofInt 32 r
  else
    let b := intRange 32 sg
    BitVec.ofInt 32 (if r < b.1 then b.1 else if r > b.2 then b.2 else r)

/-- An integer operand of a signed or unsigned form. -/
def intArg (sg : Bool) (x : W32) : Int := if sg then x.toInt else x.toNat

/-- VADD, VSUB, VMUL of one element: the floating-point and the integer operation. -/
def arith (ty : Ty) (sat : Bool) (ff : W32 → W32 → W32 × FpFlags) (fi : Int → Int → Int) (x y : W32) : W32 × FpFlags :=
  match ty with
  | .f32 => ff x y
  | .i32 => quiet (intResult true sat (fi x.toInt y.toInt))
  | _ => quiet (intResult false sat (fi x.toNat y.toNat))

/-- A word of two operands under a mask. -/
def vec2 (s : State) (p lat : Nat) (mask : BitVec 3) (d a : BitVec 5) (b : VOp) (draw : Bool)
    (f : W32 → W32 → Nat → W32 × FpFlags) : Out :=
  pipeWord s p [d] (a :: vopSrc b) [mask] fun s =>
    let x := s.rows a
    let y := s.vopRows b
    s.elementwise lat d (s.maskOf mask) draw fun k n => f (elAt x k) (elAt y k) n

/-- A word of one operand under a mask. -/
def vec1 (s : State) (p lat : Nat) (mask : BitVec 3) (d a : BitVec 5) (draw : Bool) (f : W32 → Nat → W32 × FpFlags) : Out :=
  pipeWord s p [d] [a] [mask] fun s =>
    let x := s.rows a
    s.elementwise lat d (s.maskOf mask) draw fun k n => f (elAt x k) n

def execVadd (ty : Ty) (rnd : Rnd) (sat : Bool) (mask : BitVec 3) (d a : BitVec 5) (b : VOp) (s : State) : Out :=
  vec2 s 2 5 mask d a b (rsrF32 ty rnd) fun x y n => arith ty sat (fAdd rnd n) (· + ·) x y

def execVsub (ty : Ty) (rnd : Rnd) (sat : Bool) (mask : BitVec 3) (d a : BitVec 5) (b : VOp) (s : State) : Out :=
  vec2 s 2 5 mask d a b (rsrF32 ty rnd) fun x y n => arith ty sat (fSub rnd n) (· - ·) x y

def execVmul (ty : Ty) (rnd : Rnd) (sat : Bool) (mask : BitVec 3) (d a : BitVec 5) (b : VOp) (s : State) : Out :=
  vec2 s 2 5 mask d a b (rsrF32 ty rnd) fun x y n => arith ty sat (fMul rnd n) (· * ·) x y

def execVfma (rnd : Rnd) (mask : BitVec 3) (d a : BitVec 5) (b : VOp) (c : BitVec 5) (s : State) : Out :=
  pipeWord s 2 [d] (a :: vopSrc b ++ [c]) [mask] fun s =>
    let x := s.rows a
    let y := s.vopRows b
    let z := s.rows c
    s.elementwise 6 d (s.maskOf mask) (rnd == .rsr) fun k n => fFma rnd n (elAt x k) (elAt y k) (elAt z k)

/-- VMIN and VMAX of one element. -/
def minMax (mx : Bool) (ty : Ty) (x y : W32) : W32 :=
  if ty = .f32 then fMinMax mx x y
  else
    let sg := ty == .i32
    if (if mx then iCond sg .lt x y else iCond sg .lt y x) then y else x

def execVmin (ty : Ty) (mask : BitVec 3) (d a : BitVec 5) (b : VOp) (s : State) : Out :=
  vec2 s 2 5 mask d a b false fun x y _ => quiet (minMax false ty x y)

def execVmax (ty : Ty) (mask : BitVec 3) (d a : BitVec 5) (b : VOp) (s : State) : Out :=
  vec2 s 2 5 mask d a b false fun x y _ => quiet (minMax true ty x y)

def execVabs (ty : Ty) (sat : Bool) (mask : BitVec 3) (d a : BitVec 5) (s : State) : Out :=
  vec1 s 2 5 mask d a false fun x _ =>
    quiet (if ty = .f32 then x &&& 0x7FFFFFFF else intResult true sat x.toInt.natAbs)

def execVneg (ty : Ty) (sat : Bool) (mask : BitVec 3) (d a : BitVec 5) (s : State) : Out :=
  vec1 s 2 5 mask d a false fun x _ => quiet (if ty = .f32 then fNeg x else intResult true sat (-x.toInt))

-- ## Compare, select, move and splat (R149, R150)

/-- The comparison of VCMP (R149). -/
def vcond (ty : Ty) (c : Cond) (x y : W32) : Bool :=
  match ty with
  | .f32 => fCond c x y
  | .i32 => iCond true c x y
  | _ => iCond false c x y

/-- A mask from its bits in element order. -/
def maskFrom (f : Nat → Bool) : MaskReg :=
  BitVec.ofNat 1024 ((List.range 1024).foldr (fun k n => (if f k then 1 else 0) + 2 * n) 0)

def execVcmp (ty : Ty) (mask : BitVec 3) (cond : Cond) (d : BitVec 3) (a : BitVec 5) (b : VOp) (s : State) : Out :=
  pipeWord s 2 [] (a :: vopSrc b) [mask] fun s =>
    let x := s.rows a
    let y := s.vopRows b
    s.putMask 5 d (s.maskOf mask) (maskFrom fun k => vcond ty cond (elAt x k) (elAt y k))

/-- Every element. -/
def allElems : MaskReg := BitVec.allOnes 1024

def execVsel (mask : BitVec 3) (d a : BitVec 5) (b : VOp) (s : State) : Out :=
  pipeWord s 2 [d] (a :: vopSrc b) [mask] fun s =>
    let x := s.rows a
    let y := s.vopRows b
    let m := s.maskOf mask
    s.elementwise 5 d allElems false fun k _ => quiet (if bit m k then elAt x k else elAt y k)

def execVmov (mask : BitVec 3) (d a : BitVec 5) (s : State) : Out := vec1 s 2 5 mask d a false fun x _ => quiet x

/-- VSPLAT: TYPE changes no bit of the result (R150). -/
def execVsplat (_ty : Ty) (mask : BitVec 3) (d : BitVec 5) (b : SOp) (s : State) : Out :=
  pipeWord s 2 [d] [] [mask] fun s =>
    let v := s.f32op b
    s.elementwise 5 d (s.maskOf mask) false fun _ _ => quiet v

-- ## Bitwise operations and shifts (R151)

def execVand (mask : BitVec 3) (d a : BitVec 5) (b : VOp) (s : State) : Out :=
  vec2 s 2 5 mask d a b false fun x y _ => quiet (x &&& y)

def execVor (mask : BitVec 3) (d a : BitVec 5) (b : VOp) (s : State) : Out :=
  vec2 s 2 5 mask d a b false fun x y _ => quiet (x ||| y)

def execVxor (mask : BitVec 3) (d a : BitVec 5) (b : VOp) (s : State) : Out :=
  vec2 s 2 5 mask d a b false fun x y _ => quiet (x ^^^ y)

def execVshl (mask : BitVec 3) (d a : BitVec 5) (b : VOp) (s : State) : Out :=
  vec2 s 2 5 mask d a b false fun x y _ => quiet (if y.toNat ≥ 32 then 0 else x <<< y.toNat)

def execVshr (mask : BitVec 3) (d a : BitVec 5) (b : VOp) (s : State) : Out :=
  vec2 s 2 5 mask d a b false fun x y _ => quiet (if y.toNat ≥ 32 then 0 else x >>> y.toNat)

def execVsra (mask : BitVec 3) (d a : BitVec 5) (b : VOp) (s : State) : Out :=
  vec2 s 2 5 mask d a b false fun x y _ => quiet (x.sshiftRight (min y.toNat 32))

-- ## Masks, indices and classes (R152, R153)

def execMop (tt : BitVec 4) (d a b : BitVec 3) (s : State) : Out :=
  pipeWord s 2 [] [] [a, b] fun s =>
    let x := s.maskOf a
    let y := s.maskOf b
    s.putMask 5 d allElems (maskFrom fun k => bit tt ((if bit x k then 1 else 0) + 2 * (if bit y k then 1 else 0)))

def execVidx (col : Bool) (d : BitVec 5) (s : State) : Out :=
  pipeWord s 2 [d] [] [] fun s =>
    s.elementwise 5 d allElems false fun k _ => quiet (BitVec.ofNat 32 (if col then k / 64 else k % 64))

/-- The class bit of an FP32 value (R153). -/
def fclass (x : W32) : Nat :=
  let neg := bit x 31
  let ex := fld x 23 8
  let mant := fld x 0 23
  if ex = 0xFF then (if mant = 0 then (if neg then 0 else 7) else if bit x 22 then 9 else 8)
  else if ex = 0 then (if mant = 0 then (if neg then 3 else 4) else if neg then 2 else 5)
  else if neg then 1 else 6

def execVfclass (mask : BitVec 3) (d a : BitVec 5) (s : State) : Out :=
  vec1 s 2 5 mask d a false fun x _ => quiet (BitVec.ofNat 32 (2 ^ fclass x))

-- ## Conversions (R154, R155)

def execVcvt (src dst : Ty) (rnd : Rnd) (sat : Bool) (d a : BitVec 5) (s : State) : Out :=
  pipeWord s 2 [d] [a] [] fun s =>
    let x := s.rows a
    s.elementwise 7 d allElems (rnd == .rsr && cvtDraws src dst) fun k n => cvt src dst rnd sat n (elAt x k)

def execVrnd (ty : Ty) (rnd : Rnd) (sat : Bool) (mask : BitVec 3) (d a : BitVec 5) (s : State) : Out :=
  vec1 s 2 5 mask d a (rnd == .rsr) fun x n =>
    let r := cvt .f32 ty rnd sat n x
    ((cvt ty .f32 .rne false 0 r.1).1, r.2)

-- ## Blocks (R143, R156, R157)

/-- Position `k` of block `m` on an axis, as an element index (R143). -/
def blockPos (col : Bool) (m k : Nat) : Nat :=
  if col then 64 * (k % 16) + 2 * m + k / 16 else 64 * (m / 2) + 32 * (m % 2) + k

/-- The block that holds element `e` on an axis, and the element's position there (R143). -/
def blockOf (col : Bool) (e : Nat) : Nat × Nat :=
  if col then (e % 64 / 2, e / 64 + 16 * (e % 2)) else (2 * (e / 64) + e % 64 / 32, e % 32)

/-- VQNT (R76, R156). Under `.rsr` the elements draw in element order 64 i + j on either axis (DEDUCED, log 99). -/
def execVqnt (fmt : Fimg) (rnd : Rnd) (col : Bool) (d a c : BitVec 5) (s : State) : Out :=
  pipeWord s 4 [d, c] [a] [] fun s =>
    let x := s.rows a
    let ns := s.draws (rnd == .rsr) 1024
    let qs := (List.range 32).map fun m =>
      let ks := (List.range 32).map (blockPos col m)
      qntBlock (fimgF fmt) rnd (ks.map fun k => ns.1.getD k 0) (ks.map (elAt x))
    let q (e : Nat) : Nat × List Int × FpFlags := qs.getD (blockOf col e).1 (0, [], FpFlags.none)
    let es := (List.range 1024).map fun e => BitVec.ofInt 32 ((q e).2.1.getD (blockOf col e).2 0)
    let xs := (List.range 1024).map fun e => BitVec.ofNat 32 (q e).1
    ((ns.2.putVec 12 d allElems es).putVec 12 c allElems xs).putFlags 12 (orFlags (qs.map (·.2.2)))

def execVdqnt (fmt : Fimg) (col : Bool) (d a b : BitVec 5) (s : State) : Out :=
  pipeWord s 2 [d] [a, b] [] fun s =>
    let x := s.rows a
    let y := s.rows b
    let w := match fmt with
      | .mx8 => 8
      | .mx6 => 6
      | .mx4 => 4
    s.elementwise 7 d allElems false fun e _ =>
      dqnt ((elAt y (blockPos col (blockOf col e).1 0)).toNat % 256) (signedOf w ((elAt x e).toNat % 2 ^ w)) (fimgF fmt)

-- ## Packing (R158)

/-- Width of VPACK and VUNPK. -/
def widBits : Wid → Nat
  | .w16 => 16
  | .w8 => 8
  | .w6 => 6
  | .w4 => 4

def execVpack (w : Wid) (d a : BitVec 5) (s : State) : Out :=
  pipeWord s 2 [d] [a] [] fun s =>
    let x := s.rows a
    let n := widBits w
    let v := (List.range 1024).foldr (fun k t => (elAt x k).toNat % 2 ^ n + 2 ^ n * t) 0
    s.elementwise 7 d allElems false fun k _ => quiet (BitVec.ofNat 32 (v / 2 ^ (32 * k)))

def execVunpk (w : Wid) (d a : BitVec 5) (s : State) : Out :=
  pipeWord s 2 [d] [a] [] fun s =>
    let n := widBits w
    let v := (s.rows a).foldr (fun r t => r.toNat + 2 ^ 2048 * t) 0
    s.elementwise 7 d allElems false fun k _ => quiet (BitVec.ofInt 32 (signedOf n (v / 2 ^ (n * k) % 2 ^ n)))

-- ## Moving along an axis (R159, R160)

/-- A word that moves elements: destination (i, j) takes the source element that `f` names, with the amount of its line. -/
def moveWord (s : State) (p lat : Nat) (mask : BitVec 3) (d a : BitVec 5) (b : VOp) (f : (Nat → Nat) → Nat → Nat → Nat × Nat)
    (amount : Nat → Nat → Nat) (bits : Nat) : Out :=
  pipeWord s p [d] (a :: vopSrc b) [mask] fun s =>
    let x := s.rows a
    let y := s.vopRows b
    s.elementwise lat d (s.maskOf mask) false fun k _ =>
      let q := f (fun e => (elAt y e).toNat % 2 ^ bits) (k / 64) (k % 64)
      let r := amount q.1 q.2
      quiet (elAt x r)

def execVrotr (mask : BitVec 3) (d a : BitVec 5) (b : VOp) (s : State) : Out :=
  moveWord s 2 5 mask d a b (fun amt i j => (i, (j + 64 - amt (64 * i)) % 64)) (fun i j => 64 * i + j) 6

def execVrotc (mask : BitVec 3) (d a : BitVec 5) (b : VOp) (s : State) : Out :=
  moveWord s 4 8 mask d a b (fun amt i j => ((i + 16 - amt j) % 16, j)) (fun i j => 64 * i + j) 4

def execVbcr (mask : BitVec 3) (d a : BitVec 5) (b : VOp) (s : State) : Out :=
  moveWord s 2 5 mask d a b (fun amt i _ => (i, amt (64 * i))) (fun i j => 64 * i + j) 6

def execVbcc (mask : BitVec 3) (d a : BitVec 5) (b : VOp) (s : State) : Out :=
  moveWord s 4 8 mask d a b (fun amt _ j => (amt j, j)) (fun i j => 64 * i + j) 4

def execVtrn (mask : BitVec 3) (d a : BitVec 5) (s : State) : Out :=
  pipeWord s 4 [d] [a] [mask] fun s =>
    let x := s.rows a
    s.elementwise 10 d (s.maskOf mask) false fun k _ =>
      quiet (elAt x (64 * (k % 64 % 16) + 16 * (k % 64 / 16) + k / 64))

-- ## Reductions (R161)

/-- The pairwise combination of a reduction, with one noise value. -/
def redOp (op : RedOp) (ty : Ty) (rnd : Rnd) (n : Nat) (x y : W32) : W32 × FpFlags :=
  match op with
  | .add => if ty = .f32 then fAdd rnd n x y else quiet (x + y)
  | .max => quiet (minMax true ty x y)
  | .min => quiet (minMax false ty x y)
  | .and => quiet (x &&& y)
  | .or => quiet (x ||| y)
  | .xor => quiet (x ^^^ y)

/-- The result of a line in which nothing takes part. -/
def redIdentity (op : RedOp) (ty : Ty) : W32 :=
  match op, ty with
  | .add, .f32 => 0x80000000
  | .max, .f32 => 0xFF800000
  | .min, .f32 => 0x7F800000
  | .max, .i32 => 0x80000000
  | .min, .i32 => 0x7FFFFFFF
  | .min, _ => 0xFFFFFFFF
  | .and, _ => 0xFFFFFFFF
  | _, _ => 0

/-- One level of the tree: neighbours combine, the lower index on the left; a draw for each combination of two values. -/
def redLevel (f : Nat → W32 → W32 → W32 × FpFlags) (draw : Bool) :
    List (Option W32) → Noise → FpFlags → List (Option W32) × Noise × FpFlags
  | some x :: some y :: t, n, fl =>
    let d := if draw then n.draw else (0, n)
    let r := f d.1.toNat x y
    let q := redLevel f draw t d.2 (fl.or r.2)
    (some r.1 :: q.1, q.2)
  | x :: y :: t, n, fl =>
    let q := redLevel f draw t n fl
    ((if x.isSome then x else y) :: q.1, q.2)
  | l, n, fl => (l, n, fl)

/-- A line through `levels` levels. -/
def redLine (f : Nat → W32 → W32 → W32 × FpFlags) (draw : Bool) :
    Nat → List (Option W32) → Noise → FpFlags → List (Option W32) × Noise × FpFlags
  | 0, l, n, fl => (l, n, fl)
  | k + 1, l, n, fl =>
    let r := redLevel f draw l n fl
    redLine f draw k r.1 r.2.1 r.2.2

/-- The lines of a reduction in ascending order, with the noise they draw. -/
def redLines (f : Nat → W32 → W32 → W32 × FpFlags) (draw : Bool) (levels : Nat) :
    List (List (Option W32)) → Noise → FpFlags → List (Option W32) × Noise × FpFlags
  | [], n, fl => ([], n, fl)
  | l :: t, n, fl =>
    let r := redLine f draw levels l n fl
    let q := redLines f draw levels t r.2.1 r.2.2
    ((r.1.headD none) :: q.1, q.2)

/-- VREDR and VREDC: lines of elements `line i k`, and the line of each element. -/
def redWord (s : State) (p lat : Nat) (op : RedOp) (ty : Ty) (rnd : Rnd) (mask : BitVec 3) (d a : BitVec 5)
    (lines len levels : Nat) (line : Nat → Nat → Nat) (lineOf : Nat → Nat) : Out :=
  pipeWord s p [d] [a] [mask] fun s =>
    let x := s.rows a
    let m := s.maskOf mask
    let ls := (List.range lines).map fun i => (List.range len).map fun k =>
      if bit m (line i k) then some (elAt x (line i k)) else none
    let draw := op == .add && rsrF32 ty rnd
    let r := redLines (redOp op ty rnd) draw levels ls s.curSta.noise FpFlags.none
    let s1 := s.updSta fun x => { x with noise := r.2.1 }
    let vals := (List.range 1024).map fun e => (r.1.getD (lineOf e) none).getD (redIdentity op ty)
    (s1.putVec lat d allElems vals).putFlags lat r.2.2

def execVredr (op : RedOp) (ty : Ty) (rnd : Rnd) (mask : BitVec 3) (d a : BitVec 5) (s : State) : Out :=
  redWord s 2 9 op ty rnd mask d a 16 64 6 (fun i k => 64 * i + k) (fun e => e / 64)

def execVredc (op : RedOp) (ty : Ty) (rnd : Rnd) (mask : BitVec 3) (d a : BitVec 5) (s : State) : Out :=
  redWord s 4 12 op ty rnd mask d a 64 16 4 (fun j k => 64 * k + j) (fun e => e % 64)

-- ## The special-function unit (R162, R163)

/-- A word of the special-function unit. -/
def sfuWord (s : State) (op : Sfu) (mask : BitVec 3) (d a : BitVec 5) : Out :=
  vec1 s 8 14 mask d a false fun x _ => sfu op x

def execVexp2 (mask : BitVec 3) (d a : BitVec 5) (s : State) : Out := sfuWord s .exp2 mask d a

/-- VLOG2 (R162, R163): a selected lane that holds +0 sets DZ, on every die (DEDUCED, log 96). -/
def execVlog2 (mask : BitVec 3) (d a : BitVec 5) (s : State) : Out := sfuWord s .log2 mask d a

def execVrcp (mask : BitVec 3) (d a : BitVec 5) (s : State) : Out := sfuWord s .rcp mask d a

def execVrsq (mask : BitVec 3) (d a : BitVec 5) (s : State) : Out := sfuWord s .rsq mask d a

def execVtanh (mask : BitVec 3) (d a : BitVec 5) (s : State) : Out := sfuWord s .tanh mask d a

def execVsincos (mask : BitVec 3) (d a c : BitVec 5) (s : State) : Out :=
  pipeWord s 8 [d, c] [a] [mask] fun s =>
    let x := s.rows a
    let m := s.maskOf mask
    (s.elementwise 14 d m false fun k _ => sfu .sin (elAt x k)).elementwise 14 c m false fun k _ => sfu .cos (elAt x k)

-- ## Dropping, and the rotating region (R132, R166)

def execVdrop (mask : BitVec 3) (d a : BitVec 5) (b : VOp) (s : State) : Out :=
  pipeWord s 2 [d] (a :: vopSrc b) [mask] fun s =>
    let x := s.rows a
    let y := s.vopRows b
    let on := s.curSta.noise.mode != 0
    s.elementwise 5 d (s.maskOf mask) on fun k n =>
      quiet (if on && decide (n < (elAt y k).toNat % 65536) then 0 else elAt x k)

/-- ROTSET (R132). -/
def execRotset (dn : BitVec 5) (s : State) : Out := .next (s.later (.rotset s.focus.pos dn.toNat))

end Sys2Proof.Machine
end

