-- ==== Sys2Proof/Machine/Cavity.lean ====
section
/-! DEFINITION. Cavity reductions: CAV on the ring of one die and CAVD along the chain of the team's dies, with their sweeps
and combines (R199 to R208). -/

namespace Sys2Proof.Machine

-- ## Combines (R199, R204, R205)

/-- Combine latency (R199). -/
def combLat : CavOp → Nat
  | .lse => 8
  | _ => 2

/-- The two components of the identity; element operators have one (R199). -/
def combIdentity : CavOp → W32 × W32
  | .addF => (0x80000000, 0x80000000)
  | .maxF => (0xFF800000, 0xFF800000)
  | .minF => (0x7F800000, 0x7F800000)
  | .addI | .maxN | .or | .xor => (0, 0)
  | .maxI => (0x80000000, 0x80000000)
  | .minI => (0x7FFFFFFF, 0x7FFFFFFF)
  | .minN | .and => (0xFFFFFFFF, 0xFFFFFFFF)
  | .lse => (0xFF800000, 0)
  | .argmax => (0xFF800000, 0xFFFFFFFF)

/-- log2 e in FP32 (R204). -/
def l2e : W32 := 0x3FB8AA3B

/-- fac of R204. -/
def lseFac (x m : W32) : W32 :=
  if fCond .eq x m then 0x3F800000
  else (sfu .exp2 (fMul .rne 0 (fSub .rne 0 x m).1 l2e).1).1

/-- lse_comb (R204). -/
def lseComb (a b : W32 × W32) : W32 × W32 :=
  if isNan32 a.1 || isNan32 a.2 || isNan32 b.1 || isNan32 b.2 then (nan32, nan32)
  else
    let m := if fCond .ge a.1 b.1 then a.1 else b.1
    (m, (fAdd .rne 0 (fMul .rne 0 a.2 (lseFac a.1 m)).1 (fMul .rne 0 b.2 (lseFac b.1 m)).1).1)

/-- The combine of `.argmax` (R205). -/
def argmaxComb (a b : W32 × W32) : W32 × W32 :=
  let lower := if b.2 < a.2 then b else a
  if isNan32 a.1 then (if isNan32 b.1 then lower else b)
  else if isNan32 b.1 then a
  else if orderKey a.1 > orderKey b.1 then a
  else if orderKey b.1 > orderKey a.1 then b
  else lower

/-- The combine of one element (R199). -/
def elemComb (op : CavOp) (x y : W32) : W32 :=
  match op with
  | .addF => (fAdd .rne 0 x y).1
  | .maxF => fMinMax true x y
  | .minF => fMinMax false x y
  | .addI => x + y
  | .maxI => if x.toInt < y.toInt then y else x
  | .minI => if y.toInt < x.toInt then y else x
  | .maxN => if x < y then y else x
  | .minN => if y < x then y else x
  | .and => x &&& y
  | .or => x ||| y
  | .xor => x ^^^ y
  | .lse | .argmax => x

/-- A row as 32 pairs of lanes. -/
def rowPairs (r : Row) : List (W32 × W32) := (List.range 32).map fun i => (lane r (2 * i), lane r (2 * i + 1))

/-- A row from its pairs. -/
def rowOfPairs (l : List (W32 × W32)) : Row := rowOfLanes (l.flatMap fun p => [p.1, p.2])

/-- The combine x ⊕ y of two rows; the left operand lies earlier in ring order (R199, R202). -/
def rowComb (op : CavOp) (x y : Row) : Row :=
  match op with
  | .lse => rowOfPairs (List.zipWith lseComb (rowPairs x) (rowPairs y))
  | .argmax => rowOfPairs (List.zipWith argmaxComb (rowPairs x) (rowPairs y))
  | _ => rowOfLanes (List.zipWith (elemComb op) (lanesOf x) (lanesOf y))

/-- A row of identities. -/
def identityRow (op : CavOp) : Row := rowOfPairs (List.replicate 32 (combIdentity op))

/-- The combine where either side may be empty (R202). -/
def optComb (op : CavOp) : Option Row → Option Row → Option Row
  | none, y => y
  | some x, none => some x
  | some x, some y => some (rowComb op x y)

-- ## CAV (R200 to R202)

/-- Ring distance of a position from the anchor. -/
def ringDist (anchor p : Nat) : Nat := (p + 128 - anchor) % 128

/-- Distances of the participants from the anchor, rising; the anchor takes part (R199, R200). -/
def cavDists (mask : BitVec 128) (anchor : Nat) : List Nat :=
  (List.range 128).filter fun k => k == 0 || bit mask ((anchor + k) % 128)

/-- The slot that CAV fills, participant at distance `dj` of the participants at `ds` (R202). -/
def cavSlotOf (ds : List Nat) (dj t0 c : Nat) (mk : Nat → Nat → Nat → Nat → Bool → Bool → Nat → CavSlot) : CavSlot :=
  let j := (ds.filter (· < dj)).length
  let n := ds.length - 1
  let dl := ds.getLastD 0
  let up := ((ds.filter (dj < ·)).headD dj) - dj
  let dn := dj - ((ds.filter (· < dj)).getLastD dj)
  let p := t0 + 3 + dj + c * j
  let q := t0 + 3 + (dl - dj) + c * (n - j)
  mk up dn p q (j == 0) (j == n) (max p q + c + 1)

/-- CAV (R200 to R202). -/
def execCav (op : CavOp) (slot : BitVec 2) (d a : BitVec 5) (b : BitVec 4) (anchor : BitVec 7) (vrow : BitVec 4) (s : State) : Out :=
  match s.dead [d, a] with
  | some n => raiseDead s (deadSub s.curSta.rotd n)
  | none =>
    let mask : BitVec 128 := s.scal (.ts (b + 1)) ++ s.scal (.ts b)
    let p := s.focus.pos.val
    let an := anchor.toNat
    if p != an && !bit mask p then raise s .schedMiss
    else if (kget none slot.toNat s.curSta.cav).isSome then raise s .cavSlotBusy
    else
      let r := s.vread (s.phys a) vrow.toNat
      let mk (up dn p q : Nat) (first last : Bool) (e : Nat) : CavSlot :=
        { cavd := false, op := op, parcel := s.focus.parcel, issued := s.cyc, anchor := an, first := first, last := last,
          pAt := p, sAt := q, eAt := e, up := up, dn := dn, nxt := s.focus.die, prv := s.focus.die, acc := r.1, pre := none,
          suf := none, phys := s.phys d, name := d.setWidth 8, vrow := vrow }
      let w := cavSlotOf (cavDists mask an) (ringDist an p) s.cyc (combLat op) mk
      .next ((s.raiseBad r.2).updSta fun x => { x with cav := kput none slot.toNat (some w) x.cav })

-- ## The sweeps of one die cycle (R202, R203, R208)

/-- A sweep item of this cavity (R203). -/
def Item.sweepOf (i : Item) (w : CavSlot) : Bool := i.kind == .sweep w.anchor w.op

/-- The busy slots of a die: position, slot number, content. -/
def Die.cavSlots (d : Die) : List (Pos × Nat × CavSlot) :=
  allPos.flatMap fun p => (d.sta p).cav.filterMap fun e => e.2.map fun w => (p, e.1, w)

def Die.setCav (d : Die) (p : Pos) (k : Nat) (w : Option CavSlot) : Die :=
  d.setSta p { d.sta p with cav := kput none k w (d.sta p).cav }

/-- What a check finds for the sweep that runs up (`up`) or down at position `p`: the row of the right item. -/
def Die.ringSweep (d : Die) (p : Pos) (w : CavSlot) (up : Bool) : Option Item :=
  match d.slotAt (if up then 7 else 15) p.val d.dcyc with
  | some i => if i.sweepOf w then some i else none
  | none => none

/-- The check of one sweep of one slot (R203): the row arrives, and its item stands in the slot for the last time in this cycle (R122,
R202), or SCHED_MISS; what then arrives is free (DESIGN CHOICE, log 9). -/
def Die.takeSweep (d : Die) (p : Pos) (k : Nat) (w : CavSlot) (up : Bool) (fr : Nat) : Die :=
  let put (w : CavSlot) (r : Row) : CavSlot := if up then { w with pre := some r } else { w with suf := some r }
  match d.ringSweep p w up with
  | some i =>
    { d.setCav p k (some (put w i.data)) with
      items := d.items.map fun j => if j == i then { j with hops := d.dcyc - j.entry } else j }
  | none =>
    (d.setCav p k (some (put w (rowOfLanes ((List.range 64).map fun l => (freeAt fr (64 * p.val + l)).setWidth 32))))).raiseAt
      3 0 .schedMiss 0 p .x w.parcel

/-- The checks of the CAV slots of a die in this cycle (R203). -/
def Die.sweepChecks (d : Die) (fr : Nat) : Die :=
  d.cavSlots.foldl (fun d e =>
    let w := e.2.2
    if w.cavd then d
    else
      let d1 := if !w.first && w.pAt == d.dcyc then d.takeSweep e.1 e.2.1 w true fr else d
      let w1 := (kget none e.2.1 (d1.sta e.1).cav).getD w
      if !w.last && w.sAt == d.dcyc then d1.takeSweep e.1 e.2.1 w1 false (fr + 1) else d1) d

/-- CAVITY_SWEEP_CHECK (R203). -/
def execCavitySweepCheck (d : DieId) (s : State) : Out :=
  .next { s.setDie d ((s.die d).sweepChecks s.ctr) with ctr := s.ctr + 2 }

/-- A sweep item that slot `w` at `p` drives (R202). -/
def CavSlot.item (w : CavSlot) (p : Pos) (up : Bool) (t : Nat) (r : Row) : Item :=
  { lane := if up then 7 else 15, pos := p.val, entry := t, hops := if up then w.up else w.dn,
    kind := .sweep w.anchor w.op, data := r, by_ := p, parcel := w.parcel }

/-- The prefix that a slot passes on, and the suffix (R202). -/
def CavSlot.onUp (w : CavSlot) : Row := (optComb w.op w.pre (some w.acc)).getD w.acc

def CavSlot.onDn (w : CavSlot) : Row := (optComb w.op (some w.acc) w.suf).getD w.acc

/-- The drives of this cycle on the ring, and the items that CAVD sends to the neighbour dies (R202, R203, R208). -/
def Die.sweepDrives (d : Die) (me : DieId) (sidc : Nat) : Die × List CavdItem :=
  d.cavSlots.foldl (fun acc e =>
    let w := e.2.2
    let t := acc.1.dcyc
    let up := !w.last && t == w.pAt + combLat w.op
    let dn := !w.first && t == w.sAt + combLat w.op
    if w.cavd then
      let u : List CavdItem :=
        if up then [{ from_ := me, to_ := w.nxt, up := true, at_ := sidc + w.up, op := w.op, data := w.onUp }] else []
      let v : List CavdItem :=
        if dn then [{ from_ := me, to_ := w.prv, up := false, at_ := sidc + w.dn, op := w.op, data := w.onDn }] else []
      (acc.1, acc.2 ++ u ++ v)
    else
      let d1 := if up then acc.1.enter (w.item e.1 true t w.onUp) else acc.1
      (if dn then d1.enter (w.item e.1 false t w.onDn) else d1, acc.2)) (d, [])

/-- CAVITY_SWEEP_DRIVE (R202, R208). -/
def execCavitySweepDrive (d : DieId) (s : State) : Out :=
  let r := (s.die d).sweepDrives d s.sidc
  .next { s.setDie d r.1 with cavd := s.cavd ++ r.2 }

/-- The row that a cavity writes (R202). -/
def CavSlot.result (w : CavSlot) : Row := (optComb w.op w.pre w.suf).getD (identityRow w.op)

/-- The results of this cycle, which land now; their slots are free from the next cycle on (R202, R207). -/
def Die.cavResults (d : Die) : Die :=
  d.cavSlots.foldl (fun d e =>
    let w := e.2.2
    if w.eAt == d.dcyc then
      let r : WriteRec := { strm := .x, parcel := w.parcel, issued := w.issued, land := d.dcyc, name := w.name, by_ := e.1,
                            target := .v w.phys w.vrow allLanes w.result }
      { d.addWrite e.1 r with eoc := d.eoc ++ [.cavFree e.1 e.2.1] }
    else d) d

/-- CAVITY_RESULT (R202). -/
def execCavityResult (d : DieId) (s : State) : Out := .next (s.setDie d (s.die d).cavResults)

/-- The end of a cavity's slot (R202, R207). -/
def Die.cavFree (d : Die) (p : Pos) (k : Nat) : Die :=
  let busy := match kget none k (d.sta p).cav with
    | some w => d.cavdBusy && !w.cavd
    | none => d.cavdBusy
  { d.setCav p k none with cavdBusy := busy }

-- ## CAVD (R206 to R208)

/-- One CAVD slot's checks of this cycle, against the items that arrive at die `me` (R208). -/
def Die.takeCavd (d : Die) (me : DieId) (sidc fr : Nat) (items : List CavdItem) (p : Pos) (k : Nat) (w : CavSlot) (up : Bool) : Die :=
  let put (w : CavSlot) (r : Row) : CavSlot := if up then { w with pre := some r } else { w with suf := some r }
  match items.find? fun i => i.to_ == me && i.up == up && i.at_ == sidc && i.op == w.op &&
      i.from_ == (if up then w.prv else w.nxt) with
  | some i => d.setCav p k (some (put w i.data))
  | none =>
    (d.setCav p k (some (put w (rowOfLanes ((List.range 64).map fun l => (freeAt fr l).setWidth 32))))).raiseAt
      3 0 .schedMiss 0 p .x w.parcel

/-- CAVD_SWEEP_ARRIVAL: the sweeps that CAVD slots of the die take in this cycle (R208). -/
def execCavdSweepArrival (d : DieId) (s : State) : Out :=
  let x := (s.die d).cavSlots.foldl (fun x e =>
    let w := e.2.2
    if !w.cavd then x
    else
      let x1 := if !w.first && w.pAt == x.dcyc then x.takeCavd d s.sidc s.ctr s.cavd e.1 e.2.1 w true else x
      let w1 := (kget none e.2.1 (x1.sta e.1).cav).getD w
      if !w.last && w.sAt == x.dcyc then x1.takeCavd d s.sidc (s.ctr + 1) s.cavd e.1 e.2.1 w1 false else x1) (s.die d)
  .next { s.setDie d x with ctr := s.ctr + 2, cavd := s.cavd.filter fun i => decide (s.sidc < i.at_) || i.to_ != d }

end Sys2Proof.Machine
end

