-- ==== Sys2Proof/Machine/Links.lean ====
section
/-! DEFINITION. The lane groups of the die-to-die links: TURN, LANEQ, turns and dead times, and CAVD, which crosses the
timed groups (R206 to R217). -/

namespace Sys2Proof.Machine

-- ## Links and teams (R9, R209)

/-- The two dies of a link, in the link order of R9. -/
def linkEnds : Nat → DieId × DieId
  | 0 => (0, 1)
  | 1 => (0, 2)
  | 2 => (0, 3)
  | 3 => (1, 2)
  | 4 => (1, 3)
  | _ => (2, 3)

/-- The link of two dies. -/
def linkOf (a b : DieId) : Nat :=
  ((List.range 6).find? fun k => linkEnds k == (a, b) || linkEnds k == (b, a)).getD 0

def State.link (s : State) (k : Nat) : Link := kget {} k s.links

def State.setLink (s : State) (k : Nat) (l : Link) : State := { s with links := kput {} k l s.links }

/-- The team that holds a die. -/
def State.teamOf (s : State) (d : DieId) : Option Team :=
  s.hub.teams.find? fun t => t.dies.contains d && t.phase != .preempted

/-- The dies of a die's team, ascending; a die outside a team counts alone. -/
def State.teamDies (s : State) (d : DieId) : List DieId :=
  match s.teamOf d with
  | some t => allDies.filter t.dies.contains
  | none => [d]

/-- Every link between two of the dies is reset: eight open groups each way, an empty turn queue; the packets on it go on (R209;
DEDUCED, log 54). -/
def State.resetLinks (s : State) (dies : List DieId) : State :=
  let inside (a b : DieId) : Bool := dies.contains a && dies.contains b
  (List.range 6).foldl (fun t k =>
      if inside (linkEnds k).1 (linkEnds k).2 then t.setLink k { up := (t.link k).up, dn := (t.link k).dn } else t)
    { s with cavd := s.cavd.filter fun i => !inside i.from_ i.to_ }

-- ## Lane groups in time (R214 to R216)

/-- A turn of group `group` at a known cycle. -/
structure Turn where
  group : Nat
  at_ : Nat
  dn : Bool
  timed : Bool
  deriving DecidableEq, Repr

/-- A group at one cycle. -/
structure Lane where
  dn : Bool
  timed : Bool
  deadTo : Nat
  deriving DecidableEq, Repr

/-- The queued `.at` turns of a link. -/
def Link.ats (l : Link) : List Turn :=
  (l.queue.filter (·.at_)).map fun e => { group := e.group.toNat, at_ := e.time, dn := e.dn, timed := e.timed }

/-- Turns in order of time. -/
def byTime (l : List Turn) : List Turn :=
  l.foldl (fun acc t => acc.takeWhile (fun u => decide (u.at_ ≤ t.at_)) ++ t :: acc.dropWhile fun u => decide (u.at_ ≤ t.at_)) []

/-- A group after one turn (R216). -/
def Lane.turn (a : Lane) (t : Turn) : Lane :=
  { dn := t.dn, timed := t.timed, deadTo := if t.dn != a.dn then t.at_ + 32 else a.deadTo }

/-- A group of a link as it stands now. -/
def Link.lane (l : Link) (g : Nat) : Lane :=
  { dn := bit l.dir g, timed := bit l.cls g, deadTo := if bit l.dead g then kget 0 g l.deadEnd else 0 }

/-- A group at cycle `t` after the turns `ts` that take effect by then. -/
def Link.laneAt (l : Link) (ts : List Turn) (g t : Nat) : Lane :=
  (byTime (ts.filter fun u => u.group == g && decide (u.at_ ≤ t))).foldl Lane.turn (l.lane g)

/-- Open groups outside dead time in a direction at cycle `t`. -/
def Link.openAt (l : Link) (ts : List Turn) (dn : Bool) (t : Nat) : Nat :=
  ((List.range 16).filter fun g =>
    let a := l.laneAt ts g t
    a.dn == dn && !a.timed && decide (a.deadTo ≤ t)).length

/-- MINOPEN and TGAP as they are taken (R212). -/
def minOpen (lanelim : W64) : Nat :=
  let m := (fld lanelim 40 4).toNat
  if m = 0 then 1 else min m 7

def tgap (lanelim : W64) : Nat := max (fld lanelim 16 16).toNat 64

/-- MINOPEN holds at every cycle from `t` on, given the turns `ts` (R214, R215). -/
def Link.openOk (l : Link) (ts : List Turn) (lim t : Nat) : Bool :=
  let points := t :: (ts.flatMap fun u => [u.at_, u.at_ + 32]) ++ l.deadEnd.map (·.2)
  (points.filter fun p => decide (t ≤ p)).all fun p =>
    decide (lim ≤ l.openAt ts false p) && decide (lim ≤ l.openAt ts true p)

/-- Two cycles lie within TGAP of one another. -/
def within (gap a b : Nat) : Bool := decide (a < b + gap) && decide (b < a + gap)

/-- The spacing of a turn of group `g` at `t` from the group's last turn and its queued `.at` turns (R214). -/
def Link.spaced (l : Link) (gap g t : Nat) : Bool :=
  (let n := kget 0 g l.lastTurn; n == 0 || !within gap t (n - 1)) &&
    l.ats.all fun u => u.group != g || !within gap t u.at_

/-- An issued CAVD still needs the group at `t` or later (R214). -/
def Link.needed (l : Link) (g t : Nat) : Bool := l.uses.any fun u => bit u.groups g && decide (t ≤ u.until_)

/-- What TURN checks with `.at` at cycle `t` (R214). -/
def Link.atOk (l : Link) (lanelim : W64) (sidc : Nat) (u : Turn) : Bool :=
  decide (sidc + 2 ≤ u.at_) && l.spaced (tgap lanelim) u.group u.at_ && l.openOk (u :: l.ats) (minOpen lanelim) u.at_ &&
    !l.needed u.group u.at_

/-- TURN (R213, R214). -/
def execTurn (dn timed : Bool) (at_ : Option Scal) (link : BitVec 3) (group : BitVec 4) (s : State) : Out :=
  let k := link.toNat
  let l := s.link k
  let dies := s.teamDies s.focus.die
  let time := match at_ with | some a => (s.scal a).toNat | none => 0
  let u : Turn := { group := group.toNat, at_ := time, dn := dn, timed := timed }
  let inTeam := dies.contains (linkEnds k).1 && dies.contains (linkEnds k).2
  if !inTeam || decide (8 ≤ l.queue.length) || (at_.isSome && !l.atOk s.hub.lanelim s.sidc u) then raise s .turnRefused
  else
    let e : TurnEntry := { at_ := at_.isSome, time := time, timed := timed, dn := dn, group := group, issued := s.sidc }
    .next (s.setLink k { l with queue := l.queue ++ [e] })

/-- The value that LANEQ reads (R217); an entry counts from the cycle after its issue (R214). -/
def Link.entryWord (l : Link) (sidc n : Nat) : W64 :=
  match (l.queue.filter fun e => decide (e.issued < sidc))[n]? with
  | some e =>
    (if e.at_ then BitVec.ofNat 48 e.time else 0) ++ 1#1 ++ b1 e.at_ ++ b1 e.timed ++ b1 e.dn ++ 0#8 ++ e.group
  | none => 0

/-- LANEQ (R217). -/
def execLaneq (d : BitVec 6) (link : BitVec 3) (entry : BitVec 3) (s : State) : Out :=
  .next (s.putScal 2 d ((s.link link.toNat).entryWord s.sidc entry.toNat))

/-- LANEDIR (R211). -/
def Link.laneDir (l : Link) (sidc : Nat) : W64 :=
  0#12 ++ BitVec.ofNat 4 (l.queue.filter fun e => decide (e.issued < sidc)).length ++ l.dead ++ l.cls ++ l.dir

/-- A mask with one bit set or cleared. -/
def setBit16 (m : BitVec 16) (g : Nat) (v : Bool) : BitVec 16 :=
  if v then m ||| BitVec.ofNat 16 (2 ^ g) else m &&& ~~~BitVec.ofNat 16 (2 ^ g)

/-- A turn takes effect in cycle `t` (R216). -/
def Link.apply (l : Link) (u : Turn) (t : Nat) : Link :=
  let g := u.group
  let change := bit l.dir g != u.dn
  { l with dir := setBit16 l.dir g u.dn, cls := setBit16 l.cls g u.timed,
           dead := if change then setBit16 l.dead g true else l.dead,
           deadEnd := if change then kput 0 g (t + 32) l.deadEnd else l.deadEnd,
           lastTurn := kput 0 g (t + 1) l.lastTurn }

/-- Whether the oldest `.asap` entry of a link takes effect in cycle `t` (R215). -/
def Link.asapDue (l : Link) (lanelim : W64) (t : Nat) (e : TurnEntry) : Bool :=
  let g := e.group.toNat
  let u : Turn := { group := g, at_ := t, dn := e.dn, timed := e.timed }
  decide (e.issued + 2 ≤ t) && l.spaced (tgap lanelim) g t && l.openOk (u :: l.ats) (minOpen lanelim) t && !l.needed g t

/-- The `.at` turns of cycle `t`, then the oldest `.asap` entry once nothing keeps it (R215, R216), one a cycle (DESIGN CHOICE,
log 106). -/
def Link.turns (l : Link) (lanelim : W64) (t : Nat) : Link :=
  let due := l.queue.filter fun e => e.at_ && e.time == t
  let l1 := due.foldl (fun l e => l.apply { group := e.group.toNat, at_ := t, dn := e.dn, timed := e.timed } t)
    { l with queue := l.queue.filter fun e => !(e.at_ && e.time == t) }
  match l1.queue.find? fun e => !e.at_ with
  | none => l1
  | some e =>
    if l1.asapDue lanelim t e then
      { l1.apply { group := e.group.toNat, at_ := t, dn := e.dn, timed := e.timed } t with queue := l1.queue.erase e }
    else l1

/-- TURN_EFFECT (R215, R216). -/
def execTurnEffect (l : Fin 6) (s : State) : Out := .next (s.setLink l ((s.link l).turns s.hub.lanelim s.sidc))

/-- The dead times that end in cycle `t` (R216). -/
def Link.revive (l : Link) (t : Nat) : Link :=
  let ended := (l.deadEnd.filter fun e => decide (e.2 ≤ t)).map (·.1)
  { l with dead := ended.foldl (fun m g => setBit16 m g false) l.dead, deadEnd := l.deadEnd.filter fun e => decide (t < e.2) }

/-- DEAD_TIME_END (R216). -/
def execDeadTimeEnd (l : Fin 6) (s : State) : Out := .next (s.setLink l ((s.link l).revive s.sidc))

-- ## CAVD (R206 to R208)

/-- Timed groups of a link in a direction, outside dead time. -/
def Link.timed (l : Link) (dn : Bool) : BitVec 16 := l.cls &&& ~~~l.dead &&& (if dn then l.dir else ~~~l.dir)

/-- Number of groups in a mask. -/
def popCount16 (m : BitVec 16) : Nat := ((List.range 16).filter fun g => bit m g).length

/-- Cycles of a hop over `g` groups of link `k` (R208). -/
def hopCycles (k g : Nat) : Nat := Config.lattab k + (2 + g - 1) / g

/-- One link of the chain as a CAVD sees it at issue: its number, the groups and hop cycles up and down. -/
structure ChainLink where
  k : Nat
  upG : BitVec 16
  dnG : BitVec 16
  upH : Nat
  dnH : Nat
  deriving DecidableEq, Repr

/-- The links of the chain of dies in ascending order. -/
def State.chainLinks (s : State) : List DieId → List ChainLink
  | a :: b :: t =>
    let k := linkOf a b
    let u := (s.link k).timed false
    let d := (s.link k).timed true
    { k := k, upG := u, dnG := d, upH := hopCycles k (popCount16 u), dnH := hopCycles k (popCount16 d) } :: s.chainLinks (b :: t)
  | _ => []

/-- P of each participant as cycles from the issue, and S (R208). -/
def cavdP (c : Nat) : Nat → List ChainLink → List Nat
  | t, [] => [t]
  | t, h :: r => t :: cavdP c (t + c + h.upH) r

def cavdS (c : Nat) : List ChainLink → List Nat
  | [] => [3]
  | h :: r =>
    let rest := cavdS c r
    (rest.headD 3 + c + h.dnH) :: rest

/-- A queued TURN changes a used group before the last beat has crossed (R207). -/
def Link.turnHits (l : Link) (mask : BitVec 16) (dn : Bool) (sidc until_ : Nat) : Bool :=
  l.ats.any fun u => bit mask u.group && decide (sidc < u.at_) && decide (u.at_ ≤ until_) && (u.dn != dn || !u.timed)

/-- Check 3 of R207 over the chain. -/
def State.lanesBad (s : State) (ls : List ChainLink) (ps ss : List Nat) : Bool :=
  ls.zipIdx.any fun e =>
    let h := e.1
    h.upG == 0 || h.dnG == 0 || (s.link h.k).turnHits h.upG false s.sidc (s.sidc + ps.getD (e.2 + 1) 0) ||
      (s.link h.k).turnHits h.dnG true s.sidc (s.sidc + ss.getD e.2 0)

/-- The groups that a CAVD needs are noted on its links (R214). -/
def State.useLanes (s : State) (ls : List ChainLink) (ps ss : List Nat) : State :=
  ls.zipIdx.foldl (fun t e =>
    let h := e.1
    let l := t.link h.k
    t.setLink h.k { l with uses := (l.uses.filter fun u => decide (s.sidc ≤ u.until_)) ++
      [{ groups := h.upG, until_ := s.sidc + ps.getD (e.2 + 1) 0 }, { groups := h.dnG, until_ := s.sidc + ss.getD e.2 0 }] }) s

/-- CAVD after its checks of R207. -/
def cavdStart (op : CavOp) (slot : BitVec 2) (d a : BitVec 5) (vrow : BitVec 4) (dies : List DieId) (ls : List ChainLink)
    (s : State) : State :=
  let c := combLat op
  let ps := cavdP c 3 ls
  let ss := cavdS c ls
  let j := dies.idxOf s.focus.die
  let n := dies.length - 1
  let p := s.cyc + ps.getD j 3
  let q := s.cyc + ss.getD j 3
  let r := s.vread (s.phys a) vrow.toNat
  let w : CavSlot :=
    { cavd := true, op := op, parcel := s.focus.parcel, issued := s.cyc, anchor := 0, first := j == 0, last := j == n,
      pAt := p, sAt := q, eAt := max p q + c + 1, up := ((ls[j]?).map (·.upH)).getD 0,
      dn := if j = 0 then 0 else ((ls[j - 1]?).map (·.dnH)).getD 0, nxt := dies.getD (j + 1) s.focus.die,
      prv := if j = 0 then s.focus.die else dies.getD (j - 1) s.focus.die, acc := r.1, pre := none, suf := none,
      phys := s.phys d, name := d.setWidth 8, vrow := vrow }
  let s1 := (s.raiseBad r.2).useLanes ls ps ss
  let s2 := s1.updSta fun x => { x with cav := kput none slot.toNat (some w) x.cav }
  s2.updDie fun d => { d with cavdBusy := true }

/-- CAVD (R206 to R208). -/
def execCavd (op : CavOp) (slot : BitVec 2) (d a : BitVec 5) (vrow : BitVec 4) (s : State) : Out :=
  let other := s.curDie.eoc.contains .cavdIssued
  let s1 := s.later .cavdIssued
  match s.dead [d, a] with
  | some n => raiseDead s1 (deadSub s.curSta.rotd n)
  | none =>
    let dies := s.teamDies s.focus.die
    let ls := s.chainLinks dies
    let c := combLat op
    let xch := match s.curCtx.sect with | some k => k.xch | none => false
    if !xch then raise s1 .schedMiss
    else if other || s.curDie.cavdBusy || (kget none slot.toNat s.curSta.cav).isSome then raise s1 .cavSlotBusy
    else if s.lanesBad ls (cavdP c 3 ls) (cavdS c ls) then raise s1 .laneDirection
    else .next (cavdStart op slot d a vrow dies ls s1)

end Sys2Proof.Machine
end

