-- ==== Sys2Proof/Machine/Report.lean ====
section
/-! DEFINITION. What the hub sends to the host by itself: MSI-X vectors and the host event ring (R308), and words in host
memory. -/

namespace Sys2Proof.Machine

/-- Bytes written into host memory (DESIGN CHOICE, log 19). -/
def State.hostWrite (s : State) (a : Nat) (l : List Byte) : State := { s with hostMem := memWrite s.hostMem a l }

/-- Little-endian 64-bit words as bytes. -/
def bytesOf (l : List W64) : List Byte := l.flatMap fun w => leBytes w 8

/-- Offset of the vector-control word of a vector in the MSI-X table, and of its pending bit's word (R308). -/
def msixCtl (v : BitVec 11) : Nat := 16 * v.toNat + 8

def msixPba (v : BitVec 11) : Nat := 0x8000 + 8 * (v.toNat / 64)

/-- A word of the MSI-X table or pending-bit array; a vector is masked at reset, as in the PCI Express standard (PRESUMED, log 27). -/
def msixWord (h : Hub) (off : Nat) : W64 :=
  kget (if off < 0x8000 ∧ off % 16 = 8 then 0x100000000 else 0) off h.msix

def msixPut (h : Hub) (off : Nat) (v : W64) : Hub :=
  { h with msix := kput (if off < 0x8000 ∧ off % 16 = 8 then 0x100000000 else 0) off v h.msix }

/-- A vector is masked: by its own mask, by Function Mask, or while MSI-X is off (R308; PRESUMED, log 27). -/
def Hub.masked (h : Hub) (v : BitVec 11) : Bool := !h.msixOn || h.msixMask || bit (msixWord h (msixCtl v)) 32

/-- A vector is raised: taken by the host, or its pending bit is set while it is masked (R308). -/
def State.raiseVec (s : State) (v : BitVec 11) : State :=
  let h := s.hub
  if h.masked v then
    { s with hub := msixPut h (msixPba v) (msixWord h (msixPba v) ||| BitVec.ofNat 64 (2 ^ (v.toNat % 64))) }
  else { s with hub := { h with raised := h.raised ++ [v] } }

/-- A vector that is pending and no longer masked is raised, and its pending bit goes (R308; PRESUMED, log 27). -/
def State.deliver (s : State) (v : BitVec 11) : State :=
  let w := msixWord s.hub (msixPba v)
  if bit w (v.toNat % 64) && !s.hub.masked v then
    { s with hub := msixPut s.hub (msixPba v) (w &&& ~~~(BitVec.ofNat 64 (2 ^ (v.toNat % 64)))) }.raiseVec v
  else s

/-- Every pending vector that a write of the configuration space unmasks is raised. -/
def State.deliverAll (s : State) : State :=
  if s.hub.msix.isEmpty then s else (List.range 2048).foldl (fun s k => s.deliver (BitVec.ofNat 11 k)) s

/-- log2 of the slots of a ring, clamped (R267, R308, R311, R315). -/
def clampLsz (lo hi : Nat) (l : BitVec 5) : Nat := min hi (max lo l.toNat)

/-- Slots of the host event ring. -/
def hevSlots (h : Hub) : Nat := 2 ^ clampLsz 4 16 h.hevlsz

/-- The ring takes another event. -/
def hevRoom (h : Hub) : Bool := h.heven && decide ((h.hevtail - h.hevhead).toNat < hevSlots h)

/-- One event into the ring, and its vector (R308). -/
def State.hevPut (s : State) (e : Four W64) : State :=
  let h := s.hub
  let a := (h.hevbase &&& ~~~255#64).toNat + 32 * (h.hevtail.toNat % hevSlots h)
  let s1 := s.hostWrite a (bytesOf e.toList)
  { s1 with hub := { s1.hub with hevtail := s1.hub.hevtail + 1 } }.raiseVec h.hevvec

/-- The held events go into the ring while it has room; the reports that had no room then move up (R308). -/
def hevDrain : Nat → State → State
  | 0, s => s
  | n + 1, s =>
    match s.hub.hevheld with
    | [] => s
    | e :: t =>
      if hevRoom s.hub then
        let h := s.hub
        let held := t ++ h.repeats.take 1
        hevDrain n ({ s with hub := { h with hevheld := held, repeats := h.repeats.drop 1 } }.hevPut e)
      else s

/-- An event reaches the hub (R308): the ring, else the store of 256, else its type decides. -/
def State.hubEvent (s : State) (e : Four W64) : State :=
  let h := s.hub
  if h.hevheld.isEmpty && hevRoom h then s.hevPut e
  else if h.hevheld.length < 256 then { s with hub := { h with hevheld := h.hevheld ++ [e] } }
  else if (fld e.x0 56 8 : BitVec 8) = 1 then { s with hub := { h with repeats := h.repeats ++ [e] } }
  else { s with hub := { h with hevlost := if h.hevlost = BitVec.allOnes 32 then h.hevlost else h.hevlost + 1 } }

/-- The words of a host event entry (R308). -/
def eventOf (ty cause : Byte) (team : BitVec 16) (d : DieId) (info : W64) (sidc : Nat) : Four W64 :=
  { x0 := ty ++ cause ++ team ++ 0#16 ++ BitVec.ofNat 2 d.val ++ 0#14, x1 := info, x2 := BitVec.ofNat 64 sidc, x3 := 0 }

/-- A host event of a die: it reaches the hub in this cycle (R308). -/
def State.hostEvent (s : State) (ty cause : Byte) (d : DieId) (info : W64) : State :=
  let team := match s.teamOf d with | some t => t.num | none => 0
  { s with hub := { s.hub with hevnow := s.hub.hevnow ++ [eventOf ty cause team d info s.sidc] } }

/-- The events that have reached the hub in this cycle are written, in ascending die number (R308). -/
def State.takeEvents (s : State) : State :=
  if s.hub.hevnow.isEmpty then s
  else
    let l := allDies.flatMap fun d : DieId => s.hub.hevnow.filter fun e => (fld e.x0 14 2 : BitVec 2).toNat == d.val
    l.foldl State.hubEvent { s with hub := { s.hub with hevnow := [] } }

/-- HOST_EVENT: an event of type `kind` with INFO `arg` reaches the hub from outside the dies (R308). -/
def execHostEvent (kind : BitVec 8) (arg : W64) (s : State) : Out :=
  .next (s.hubEvent (eventOf kind (if kind = 1 then 0xA0 else 0) 0 0 arg s.sidc))

end Sys2Proof.Machine
end

