-- ==== Sys2Proof/Machine/Far.lean ====
section
/-! DEFINITION. Far memory: translation, requests on their way, their performs and responses, far queues, far stores, far
atomics and the meridian wheel (R82 to R104, R218 to R224, R255 to R258, R330). -/

namespace Sys2Proof.Machine

-- ## Free picks

/-- A free number from `lo` to `hi` (DESIGN CHOICE, log 10). -/
def State.pick (s : State) (lo hi : Nat) : Nat := if hi ≤ lo then lo else lo + s.fresh % (hi - lo + 1)

-- ## Page tables (R83 to R86)

/-- log2 of the page size of a level. -/
def pageShift : Nat → Nat
  | 0 => 35
  | 1 => 25
  | _ => 16

/-- Index of a VA at a level (R83). -/
def levelIdx (va level : Nat) : Nat :=
  match level with
  | 0 => va / 2 ^ 35 % 8192
  | 1 => va / 2 ^ 25 % 1024
  | _ => va / 2 ^ 16 % 512

/-- Codes of the error responses (R91). -/
def cProt : Byte := 0xA1
def cMiss : Byte := 0xA2
def cUnmapped : Byte := 0xA3
def cNotReady : Byte := 0xA4
def cUncorr : Byte := 0xA5

/-- Whether a region entry matches a PA (R86). -/
def Region.matches (e : Region) (pa : Nat) : Bool :=
  let mask : BitVec 4 := fld e.w0 56 4
  let n := (fld e.w0 54 2).toNat + 1
  let shift := (fld e.w0 49 5).toNat
  bit e.w0 63 && mask != 0 && decide (12 ≤ shift) && decide (shift ≤ 25) &&
    decide (n ≤ ((List.range 4).filter fun i => bit mask i).length) && decide ((fld e.w0 16 28).toNat ≤ pa / 2 ^ 16) &&
    decide (pa / 2 ^ 16 ≤ (fld e.w1 16 28).toNat)

/-- home_of (R86). -/
def Region.homeOf (e : Region) (pa : Nat) : DieId × Nat :=
  let n := (fld e.w0 54 2).toNat + 1
  let stride := 2 ^ (fld e.w0 49 5).toNat
  let o := pa - (fld e.w0 16 28).toNat * 2 ^ 16
  let j := o / stride % n
  let dies := (List.range 4).filter fun i => bit (fld e.w0 56 4) i
  (Fin.ofNat 4 (dies.getD j 0), (fld e.w2 16 21).toNat * 2 ^ 16 + o / (stride * n) * stride + o % stride)

/-- The home and DLA of a spread PA, or the cause of its error response (R86). -/
def spreadTo (regions : KMap Region) (pa : Nat) : Except Byte (DieId × Nat) :=
  match ((List.range 64).map fun k => kget {} k regions).find? fun e => e.matches pa with
  | none => .error cMiss
  | some e =>
    let r := e.homeOf pa
    if dlaMapped r.2 then .ok r else .error cUnmapped

/-- Permission bits that an access needs, as bits [4:2] of the entry (R84). -/
def FarOp.lacks (op : FarOp) (e : W64) : Bool :=
  match op with
  | .read => !bit e 2
  | .write _ => !bit e 3
  | .amo .. | .amosc .. => !(bit e 2 && bit e 3 && bit e 4)

/-- Where a leaf entry of a level sends an access of `va` (R83, R84). -/
def leafTo (regions : KMap Region) (op : FarOp) (level : Nat) (e : W64) (va : Nat) : Except Byte (DieId × Nat) :=
  if op.lacks e then .error cProt
  else
    let sz := 2 ^ pageShift level
    let pa := (fld e 16 28).toNat * 2 ^ 16 / sz * sz + va % sz
    let place := (fld e 5 3).toNat
    if place = 0 then spreadTo regions pa
    else if dlaMapped pa then .ok (Fin.ofNat 4 (place - 4), pa)
    else .error cUnmapped

/-- PLACE of a leaf that no access can use (R84). -/
def badLeaf (e : W64) : Bool := fld e 5 3 == 1 || fld e 5 3 == 2 || fld e 5 3 == 3

/-- A non-leaf entry that ends the walk with UNMAPPED_PA (R83, R84), one whose table has an unmapped DLA among them (DESIGN CHOICE,
log 68: the outcome table does not list that case). -/
def badTable (level : Nat) (e : W64) : Bool :=
  decide (2 ≤ level) || decide ((fld e 5 3).toNat < 4) || fld e 37 7 != 0 || !dlaMapped ((fld e 16 21).toNat * 2 ^ 16)

/-- The TLB's entry for a VA. -/
def FarSide.tlbHit (f : FarSide) (va : Nat) : Option TlbEntry :=
  f.tlb.find? fun t => va / 2 ^ pageShift t.level == t.vpn

/-- A root that gives UNMAPPED_PA on every walk (R84, R85), one whose table has an unmapped DLA among them (DESIGN CHOICE, log 68). -/
def FarSide.noRoot (f : FarSide) : Bool :=
  !bit f.xroot 63 || decide ((fld f.xroot 5 3).toNat < 4) || !dlaMapped ((fld f.xroot 16 21).toNat * 2 ^ 16)

-- ## Requests

/-- Bytes that a request names (R101). -/
def FarReq.size (r : FarReq) : Nat := 4 * (r.hi + 1 - r.lo)

/-- Bytes of its response: its data, or none (R99). -/
def FarReq.respSize (r : FarReq) : Nat :=
  match r.op with
  | .read => r.size
  | .write _ => 0
  | .amo _ ret _ _ => if ret then 4 else 0
  | .amosc .. => 4

/-- Bytes of the request packet: its data and header (R210). -/
def FarReq.sentSize (r : FarReq) : Nat :=
  match r.op with
  | .write _ => r.size + 32
  | _ => 32

/-- A far write, or an atomic's write part (R103, R255). -/
def FarReq.isWrite (r : FarReq) : Bool :=
  match r.op with
  | .read => false
  | _ => true

/-- A read, or an atomic that returns (R248, R255). -/
def FarReq.isRead (r : FarReq) : Bool :=
  match r.op with
  | .read => true
  | .write _ => false
  | .amo _ ret _ _ => ret
  | .amosc .. => true

/-- A request of a haul. -/
def FarReq.ofHaul (r : FarReq) : Bool :=
  match r.src with
  | .haul .. => true
  | _ => false

/-- A request of one of its station's far queues or of its store path (R258). -/
def FarReq.ofQueue (r : FarReq) : Bool :=
  match r.src with
  | .fq _ | .path => true
  | _ => false

/-- Which requests of one cycle leave first: far queues, the store path, hauls (R330). -/
def FarSrc.rank : FarSrc → Nat
  | .fq q => q.toNat
  | .path => 8
  | .haul .. | .walk => 9

/-- Request `a` stands ahead of `b` in one queue (R87, R108). -/
def FarReq.ahead (a b : FarReq) : Bool :=
  a.pos == b.pos && match a.src, b.src with
  | .fq p, .fq q => p == q && decide (a.seq < b.seq)
  | .path, .path => decide (a.seq < b.seq)
  | .haul k g _, .haul k' g' _ => k == k' && decide (g < g')
  | _, _ => false

/-- Store-path entries of a station (R103). -/
def FarSide.pathN (f : FarSide) (p : Pos) : Nat := (f.reqs.filter fun r => r.pos == p && r.src == .path).length

/-- Outstanding far writes of a station, by number: FSTs, and the write parts of atomics (R103). -/
def FarSide.writesOut (f : FarSide) (p : Pos) : List Nat :=
  ((f.reqs ++ f.flight).filter fun r => r.pos == p && r.isWrite && !r.ofHaul).map (·.seq)

/-- The number by which fences order a request: a granule counts by its command (R248). -/
def FarReq.order (r : FarReq) : Nat :=
  match r.src with
  | .haul k _ _ => k
  | _ => r.seq

/-- The set E of a fence (R248). -/
def FenceRec.covers (k : FenceRec) (p : Pos) (r : FarReq) : Bool :=
  r.pos == p && decide (r.order < k.upto) && (r.ofQueue || (r.ofHaul && k.scope == .team)) && match k.set with
  | .ld => r.isRead
  | .st => r.isWrite
  | .ldst => true

/-- A haul still has far accesses of a fence's kinds to make (R248). -/
def FenceRec.waitsHaul (k : FenceRec) (p : Pos) (h : HaulCmd) : Bool :=
  let rd := match h.src with | .far _ => decide (h.started < h.n) | .bank .. => false
  let wr := match h.dst with | .far _ => true | .bank .. => false
  h.pos == p && decide (h.key < k.upto) && k.scope == .team && match k.set with
  | .ld => rd
  | .st => wr
  | .ldst => rd || wr

/-- A request that has left and that its home has not performed. -/
def FarReq.unperformed (r : FarReq) : Bool :=
  match r.phase with
  | .sent .. | .here .. => true
  | _ => false

/-- A request that has left still stands in a fence's set: it is not performed, or is a write not yet acknowledged (R248). -/
def FarReq.unfenced (r : FarReq) : Bool :=
  match r.phase with
  | .back .. => r.isWrite
  | _ => true

/-- A fence of station `p` holds its later requests (R248). -/
def FarSide.fenced (f : FarSide) (p : Pos) (k : FenceRec) : Bool :=
  f.reqs.any (k.covers p) || (k.scope != .sta && (f.hauls.any (k.waitsHaul p) || f.flight.any fun r => k.covers p r && r.unfenced))

/-- A fence of station `p` still has something to order (R248): it holds requests, or its set is not performed (R258). -/
def FarSide.fenceOn (f : FarSide) (p : Pos) (k : FenceRec) : Bool :=
  f.fenced p k || f.flight.any fun r => k.covers p r && r.unperformed

/-- A request is held back by one of the fences (R248). -/
def heldBack (l : List FenceRec) (r : FarReq) : Bool :=
  l.any fun k => decide (k.upto ≤ r.order)

/-- The next request number of a die. -/
def State.farSeq (s : State) : Nat := (s.fs s.focus.die).seq

/-- A request that the issuing word makes. -/
def State.farReq (s : State) (src : FarSrc) (va lo hi : Nat) (row : BitVec 4) (op : FarOp) : FarReq :=
  { seq := s.farSeq, src := src, pos := s.focus.pos, port := s.focus.pos, strm := s.focus.strm, parcel := s.focus.parcel, issued := s.sidc,
    va := va, lo := lo, hi := hi, row := row, op := op, phase := .pend s.sidc }

def State.addReq (s : State) (r : FarReq) : State :=
  let f := s.fs s.focus.die
  s.setFs s.focus.die { f with seq := f.seq + 1, reqs := f.reqs ++ [r] }

-- ## The words (R101 to R103, R218, R219, R223)

/-- The granule, first and last word of FQPUSH and FST (R101). -/
def pushSpan (a : W64) (off : BitVec 22) (nw : BitVec 6) : Nat × Nat × Nat :=
  let va := (a + off.signExtend 64).toNat % 2 ^ 48
  let lo := va % 256 / 4
  (va - va % 256, lo, min 63 (lo + nw.toNat))

/-- Rows of a far queue; their number is CNT (R100). -/
def Station.fqOf (x : Station) (q : BitVec 3) : List FqSlot := kget [] q.toNat x.fq

def Station.setFq (x : Station) (q : BitVec 3) (l : List FqSlot) : Station := { x with fq := kput [] q.toNat l x.fq }

/-- A request of the issuing word joins far queue `q` (R101, R219). -/
def State.pushFq (s : State) (q : BitVec 3) (r : FarReq) : State :=
  let slot : FqSlot := { seq := r.seq, row := r.row, lo := r.lo, hi := r.hi, va := r.va, data := none, home := none, dla := 0 }
  (s.updSta fun x => x.setFq q (x.fqOf q ++ [slot])).addReq r

/-- FQPUSH (R101). -/
def execFqpush (q : BitVec 3) (a : Scal) (row : BitVec 4) (nw : BitVec 6) (off : BitVec 22) (s : State) : Out :=
  if (s.curSta.fqOf q).length ≥ 16 then raise s .fqOverflow
  else
    let sp := pushSpan (s.scal a) off nw
    .next (s.pushFq q (s.farReq (.fq q) sp.1 sp.2.1 sp.2.2 row .read))

/-- The lanes `lo` to `hi` as a mask. -/
def laneSpan (lo hi : Nat) : BitVec 64 := BitVec.ofNat 64 ((2 ^ (hi + 1 - lo) - 1) * 2 ^ lo)

/-- FQPOP once its head row is present, or at once where CNT is 0 (R102). -/
def execFqpop (d : BitVec 5) (q : BitVec 3) (s : State) : Out :=
  match s.vphys d with
  | .error sub => raiseDead s sub
  | .ok ph =>
    match s.curSta.fqOf q with
    | [] => raise s .fqUnderflow
    | h :: t =>
      match h.data with
      | none => raise s .schedMiss
      | some r =>
        let bad := s.curDie.badIn (fun k => .fqrow s.focus.pos (64 * h.seq + k)) 64
        let s1 := (s.raiseBad bad).updSta fun x => x.setFq q t
        .next (s1.putWrite 3 (d.setWidth 8) (.v ph h.row (laneSpan h.lo h.hi) (poison bad r)))

/-- FST (R103). -/
def execFst (a : Scal) (b : BitVec 5) (row : BitVec 4) (nw : BitVec 6) (off : BitVec 22) (s : State) : Out :=
  match s.vphys b with
  | .error sub => raiseDead s sub
  | .ok ph =>
    if (s.fs s.focus.die).pathN s.focus.pos ≥ 32 then raise s .fqOverflow
    else
      let sp := pushSpan (s.scal a) off nw
      let r := s.vread ph row.toNat
      .next ((s.raiseBad (r.2.filter fun k => decide (sp.2.1 ≤ k) && decide (k ≤ sp.2.2))).addReq (s.farReq .path sp.1 sp.2.1 sp.2.2 row (.write r.1)))

/-- The granule and word of an atomic's address, and its ROW (R218). -/
def amoSpan (a : W64) : Nat × Nat × BitVec 4 :=
  let va := a.toNat % 2 ^ 48
  (va - va % 256, va % 256 / 4, fld a 48 4)

/-- AMO (R218, R219). -/
def execAmo (op : AmoOp) (q : BitVec 3) (a b c : Scal) (s : State) : Out :=
  if (s.curSta.fqOf q).length ≥ 16 then raise s .fqOverflow
  else
    let sp := amoSpan (s.scal a)
    .next (s.pushFq q (s.farReq (.fq q) sp.1 sp.2.1 sp.2.1 sp.2.2 (.amo op true (s.f32 b) (s.f32 c))))

/-- AMON (R218, R219). -/
def execAmon (op : AmoOp) (a b c : Scal) (s : State) : Out :=
  if (s.fs s.focus.die).pathN s.focus.pos ≥ 32 then raise s .fqOverflow
  else
    let sp := amoSpan (s.scal a)
    .next (s.addReq (s.farReq .path sp.1 sp.2.1 sp.2.1 sp.2.2 (.amo op false (s.f32 b) (s.f32 c))))

/-- The station owns a wheel position (R222). -/
def Station.ownsSlot (x : Station) (s : Nat) : Bool := bit (kget 0 (s % 256 / 64) x.scslot) (s % 64)

/-- AMOSC (R218, R219, R223). -/
def execAmosc (op : AmoOp) (q : BitVec 3) (a b c : Scal) (s : State) : Out :=
  if !s.curSta.ownsSlot s.sidc then raise s .slotMiss
  else if (s.curSta.fqOf q).length ≥ 16 then raise s .fqOverflow
  else
    let sp := amoSpan (s.scal a)
    .next (s.pushFq q (s.farReq (.fq q) sp.1 sp.2.1 sp.2.1 sp.2.2 (.amosc op (s.f32 b) (s.f32 c) s.sidc)))

-- ## Links as packets see them (R99, R210)

/-- The lane groups that carry packets from `a` to `b`, at least one (R99). -/
def State.openGroups (s : State) (a b : DieId) : Nat := max 1 ((s.link (linkOf a b)).openAt [] (decide (b < a)) s.sidc)

/-- The direction of a link from `a` to `b`. -/
def State.way (s : State) (a b : DieId) : Way := if b < a then (s.link (linkOf a b)).dn else (s.link (linkOf a b)).up

def State.setWay (s : State) (a b : DieId) (w : Way) : State :=
  let l := s.link (linkOf a b)
  s.setLink (linkOf a b) (if b < a then { l with dn := w } else { l with up := w })

/-- A packet joins its queue on the link from `a` to `b`. -/
def State.post (s : State) (a b : DieId) (p : Pkt) : State :=
  let w := s.way a b
  s.setWay a b { w with pkts := w.pkts ++ [p] }

/-- Beats of a packet of `n` bytes with its header (R210). -/
def beatsOf (n : Nat) : Nat := (n + 32 + 127) / 128

/-- W: cycles to send the packets that wait on the way from `a` to `b` (R99, R210). -/
def State.linkWait (s : State) (a b : DieId) : Nat :=
  let g := s.openGroups a b
  let w := s.way a b
  (w.left + (w.pkts.map (·.beats)).sum + g - 1) / g

/-- Cycles from die to die one way; none at home. -/
def hop (d h : DieId) : Nat := if d = h then 0 else Config.lattab (linkOf d h)

/-- The packet of queue `c` that has waited longest in cycle `t` (R210). -/
def Way.oldest (w : Way) (c t : Nat) : Option Pkt :=
  let l := w.pkts.filter fun p => p.cls == c && decide (p.from_ ≤ t)
  l.find? fun p => l.all fun q => decide (p.from_ ≤ q.from_)

/-- The packet whose turn is next: the three queues in turn, empty ones skipped (R210). -/
def Way.next (w : Way) (t : Nat) : Option Pkt := (List.range 3).findSome? fun i => w.oldest ((w.turn + i) % 3) t

/-- `n` beats cross in cycle `t`: the way after them, and the packets whose first beat is among them (R210). -/
def Way.beats (t : Nat) : Nat → Way → Way × List Pkt
  | 0, w => (w, [])
  | n + 1, w =>
    if 0 < w.left then Way.beats t n { w with left := w.left - 1 }
    else
      match w.next t with
      | none => (w, [])
      | some p =>
        let r := Way.beats t n { pkts := w.pkts.erase p, left := p.beats - 1, turn := (p.cls + 1) % 3 }
        (r.1, p :: r.2)

/-- Changes request `q` of those that have left. -/
def FarSide.inFlight (f : FarSide) (q : Nat) (g : FarReq → FarReq) : FarSide :=
  { f with flight := f.flight.map fun r => if r.seq = q then g r else r }

/-- A request knows when it reaches its home, or its response when it lands. -/
def FarReq.due (r : FarReq) (t : Nat) : FarReq :=
  match r.phase with
  | .sent h dla _ => { r with phase := .sent h dla (some t) }
  | .back h data err _ => { r with phase := .back h data err (some t) }
  | _ => r

/-- The first beat of a packet crosses from `a` to `b` in this cycle (R99, R210, R224). -/
def State.pktGo (s : State) (a b : DieId) (g : Nat) (p : Pkt) : State :=
  match p.of with
  | .req d q => s.setFs d ((s.fs d).inFlight q (·.due (s.sidc + hop a b)))
  | .resp d q => s.setFs d ((s.fs d).inFlight q (·.due (max p.floor (s.sidc + (p.beats + g - 1) / g + hop a b))))
  | .mark d t =>
    let f := s.fs b
    s.setFs b { f with marksIn := f.marksIn.map fun m =>
      if m.from_ = d ∧ m.sent = t then { m with by_ := some (s.sidc + hop a b + 1) } else m }

/-- One direction of a link in one cycle: a beat on every open group outside dead time (R210). A request's own wait here comes on top of
the bound that R99 gives from its issue (DEDUCED, log 89). -/
def State.wayStep (s : State) (a b : DieId) : State :=
  let g := (s.link (linkOf a b)).openAt [] (decide (b < a)) s.sidc
  let r := Way.beats s.sidc g (s.way a b)
  r.2.foldl (fun t p => t.pktGo a b (max 1 g) p) (s.setWay a b r.1)

/-- The links carry packets (R210). -/
def linksTask (s : State) : Out :=
  .next ((List.range 6).foldl (fun t k =>
    let e := linkEnds k
    (t.wayStep e.1 e.2).wayStep e.2 e.1) s)

-- ## Service at the home (R97, R98, R221)

/-- The channel of a GDDR 7 address, the key of its bank's open row, and its row (R98). -/
def gddrChan (dla : Nat) : Nat := dla / 2 ^ 8 % 8
def gddrKey (dla : Nat) : Nat := 16 * gddrChan dla + dla / 2 ^ 14 % 16
def gddrRow (dla : Nat) : Nat := dla / 2 ^ 18 % 2 ^ 18

/-- The page-state cost of an access in cycle `t` (R98). -/
def FarSide.pageCost (f : FarSide) (dla t : Nat) : Nat :=
  match f.rows.find? fun e => e.1 == gddrKey dla with
  | some e => if t < e.2.last + 128 then (if e.2.row = gddrRow dla then 0 else 52) else 28
  | none => 28

/-- Extra cycles where a refresh of channel `k` begins in the `n` cycles after `t` (R98). -/
def refreshWait (k t n : Nat) : Nat :=
  if (292 * k + 2340 * (t + 1) - (t + 1)) % 2340 < n then 180 else 0

/-- What R221 adds to the bound of an atomic. -/
def FarReq.slack (r : FarReq) : Nat :=
  match r.op with
  | .amo .. => 4
  | .amosc .. => 48
  | _ => 0

def FarReq.isAtomic (r : FarReq) : Bool :=
  match r.op with
  | .amo .. | .amosc .. => true
  | _ => false

/-- The requests at home `h`, in the order they arrived, each with its die. -/
def State.hereReqs (s : State) (h : DieId) : List (DieId × FarReq) :=
  (s.fs h).here.filterMap fun e => ((s.fs e.1).flight.find? fun r => r.seq == e.2).map fun r => (e.1, r)

/-- Address and page-state cost of a request that waits at a GDDR 7 (R98). -/
def FarReq.gddrAhead (r : FarReq) : Option (Nat × Nat) :=
  match r.phase with
  | .here _ dla _ _ c => if dlaVault dla then none else some (dla, c)
  | _ => none

/-- The page-state cost of an access behind those that wait in its channel, and the bound that R98 gives an arrival in cycle `t`;
a request whose row a refresh can close while it waits costs at least 28 c. -/
def FarSide.gddrBound (f : FarSide) (ahead : List (Nat × Nat)) (dla t : Nat) : Nat × Nat :=
  let q := ahead.filter fun e => gddrChan e.1 == gddrChan dla
  let c := match (q.filter fun e => gddrKey e.1 == gddrKey dla).getLast? with
    | some e => if gddrRow e.1 = gddrRow dla then 0 else 52
    | none => f.pageCost dla t
  let n := 72 + c + (q.map fun e => 2 + e.2).sum
  let w := refreshWait (gddrChan dla) t n
  if w = 0 then (c, t + n) else (max c 28, t + n - c + max c 28 + w)

/-- Request `r` of die `d` reaches home `h` in this cycle (R97 to R99, R221): when its response can be ready there. -/
def State.accept (s : State) (d h : DieId) (r : FarReq) (dla : Nat) : State :=
  let t := s.sidc
  let f := s.fs h
  let a := dla + 4 * r.lo
  let p := if d = h then r.port else r.pos
  let vault := dlaVault a
  let l := max (t + 36) (kget 0 p.val f.portFree) + (r.size + 127) / 128
  let g := f.gddrBound ((s.hereReqs h).filterMap (·.2.gddrAhead)) a t
  let by_ := (if vault then l else g.2) + r.slack
  let lo := if d ≠ h then t + 37 else if !vault then t + 72 else if r.isAtomic then t + 1 else l
  let f1 := { f with here := f.here ++ [(d, r.seq)], portFree := if vault then kput 0 p.val l f.portFree else f.portFree }
  let s1 := s.setFs h f1
  s1.setFs d ((s1.fs d).inFlight r.seq fun k => { k with phase := .here h dla lo by_ (if vault then 0 else g.1) })

/-- A request that reaches home `h` by cycle `t`, with the granule's address there. -/
def FarReq.reaches (r : FarReq) (h : DieId) (t : Nat) : Option Nat :=
  match r.phase with
  | .sent h' dla (some a) => if h' = h ∧ a ≤ t then some dla else none
  | _ => none

/-- The next request that reaches home `h`: of a free die, that die's in the order they left (R104, R330; DESIGN CHOICE, log 53). -/
def State.arrival (s : State) (h : DieId) : Option (DieId × FarReq × Nat) :=
  (List.range 4).findSome? fun i =>
    let d : DieId := Fin.ofNat 4 (s.fresh + i)
    (s.fs d).flight.findSome? fun r => (r.reaches h s.sidc).map fun dla => (d, r, dla)

/-- The requests that reach home `h` in this cycle, at most `n`. -/
def State.arrivals (h : DieId) : Nat → State → State
  | 0, s => s
  | n + 1, s =>
    match s.arrival h with
    | none => s
    | some e => State.arrivals h n (s.bump.accept e.1 h e.2.1 e.2.2)

-- ## Walks (R83, R84, R87, R88)

/-- Changes every waiting request of one page. -/
def FarSide.onPage (f : FarSide) (va : Nat) (g : FarReq → FarReq) : FarSide :=
  { f with reqs := f.reqs.map fun r => if r.va / 2 ^ 16 = va / 2 ^ 16 then g r else r }

def FarSide.setPhase (f : FarSide) (q : Nat) (p : FarPhase) : FarSide :=
  { f with reqs := f.reqs.map fun r => if r.seq = q then { r with phase := p } else r }

/-- The queue slot of a request learns its home (R18, R312). -/
def Station.slotHome (x : Station) (r : FarReq) (h : DieId) (dla : Nat) : Station :=
  match r.src with
  | .fq q => x.setFq q ((x.fqOf q).map fun k => if k.seq = r.seq then { k with home := some h, dla := dla } else k)
  | _ => x

/-- The home of a request is found: it is counted in this cycle, and may leave from cycle `from_` on (R87, R96). -/
def State.homeFound (s : State) (d h : DieId) (dla : Nat) (r : FarReq) (from_ : Nat) : State :=
  let x := (s.die d).sta r.pos
  let y := if h = d then { x with locreq := x.locreq + 1 } else { x with remreq := x.remreq + 1 }
  (s.setDie d ((s.die d).setSta r.pos (y.slotHome r h dla))).setFs d ((s.fs d).setPhase r.seq (.home h dla from_))

/-- The home of a request by a leaf entry, or the error that its response carries no earlier than in `base` (R84, R91). -/
def State.byLeaf (s : State) (d : DieId) (r : FarReq) (level : Nat) (e : W64) (from_ base : Nat) : State :=
  match leafTo (s.fs d).regions r.op level e r.va with
  | .ok (h, dla) => s.homeFound d h dla r from_
  | .error c => s.setFs d ((s.fs d).setPhase r.seq (.bad c base))

/-- The requests that wait on the walk of a page: misses are merged by 64 KiB page, the smallest one, since the size of the leaf is
not known before the walk ends (R87; DESIGN CHOICE, log 69). -/
def FarSide.onWalk (f : FarSide) (va : Nat) : List FarReq := f.reqs.filter fun r => r.va / 2 ^ 16 == va / 2 ^ 16 && r.phase == .walk

/-- A walk ends for the requests that wait on it. -/
def FarSide.endWalk (f : FarSide) (w : Walk) (p : FarPhase) : FarSide :=
  { f.onPage w.va (fun r => if r.phase = .walk then { r with phase := p } else r) with walks := f.walks.erase w }

/-- A leaf enters the TLB; a full TLB gives up a free one of its entries (R87, DESIGN CHOICE, log 25). -/
def FarSide.tlbPut (f : FarSide) (t : TlbEntry) (fr : Nat) : FarSide :=
  let l := if f.tlb.length < 4096 then f.tlb else f.tlb.eraseIdx (fr % 4096)
  { f with tlb := t :: l }

/-- Access kind in a not-present report (R308). -/
def FarOp.kind : FarOp → BitVec 2
  | .read => 0
  | .write _ => 1
  | .amo .. | .amosc .. => 2

/-- A page is not present: its requests wait, and the page is reported once (R88). -/
def State.notPresent (s : State) (d : DieId) (w : Walk) : State :=
  let f := s.fs d
  let page := w.va / 2 ^ 16
  let s1 := s.setFs d ((f.endWalk w .np))
  if f.reported.contains page then s1
  else
    let f1 := s1.fs d
    let info : W64 :=
      match (f.onWalk w.va).head? with
      | some r => 0#16 ++ BitVec.ofNat 32 page ++ 0#5 ++ BitVec.ofNat 7 r.pos.val ++ r.op.kind ++ 0#2
      | none => 0#16 ++ BitVec.ofNat 32 page ++ 0#16
    (s1.setFs d { f1 with reported := page :: f1.reported }).hostEvent 1 0xA0 d info

/-- A walk's leaf gives the walk's own address a home, so that it may enter the TLB (R87). -/
def leafKept (regions : KMap Region) (level : Nat) (e : W64) (va : Nat) : Bool :=
  match leafTo regions .read level (e ||| 4) va with
  | .ok _ => true
  | .error _ => false

/-- A walk ends in a leaf: it enters the TLB, and the walk's requests take their homes from it (R84, R87). -/
def State.walkLeaf (s : State) (d : DieId) (w : Walk) (e : W64) : State :=
  let f := s.fs d
  let f1 := { f with walks := f.walks.erase w }
  let f2 := if leafKept f.regions w.level e w.va then
      f1.tlbPut { level := w.level, vpn := w.va / 2 ^ pageShift w.level, entry := e } s.fresh
    else f1
  (f.onWalk w.va).foldl (fun t r => t.byLeaf d r w.level e (s.sidc + 1) (s.sidc + 2)) (s.setFs d f2).bump

/-- A table entry has landed for walk `w` (R83, R84, R87). -/
def State.walkEntry (s : State) (d : DieId) (w : Walk) (e : W64) (err : Byte) : State :=
  let f := s.fs d
  let fail (c : Byte) : State := s.setFs d (f.endWalk w (.bad c (s.sidc + 2)))
  if err != 0 then fail err
  else if !bit e 0 then s.notPresent d w
  else if bit e 1 then (if badLeaf e then fail cUnmapped else s.walkLeaf d w e)
  else if badTable w.level e then fail cUnmapped
  else
    let w1 : Walk :=
      { w with level := w.level + 1, home := Fin.ofNat 4 ((fld e 5 3).toNat - 4),
               dla := (fld e 16 21).toNat * 2 ^ 16 + 8 * levelIdx w.va (w.level + 1), read := .send (s.sidc + 1) }
    s.setFs d { f with walks := f.walks.map fun v => if v = w then w1 else v }

/-- A request of die `d` sets out toward its home `h`, over the link's request queue or, a haul's write, its haul queue (R210). -/
def State.setOut (s : State) (d h : DieId) (dla : Nat) (r : FarReq) : State :=
  let f := s.fs d
  let s1 := s.setFs d { f with flight := f.flight ++ [{ r with phase := .sent h dla (if h = d then some s.sidc else none) }] }
  if h = d then s1
  else s1.post d h { of := .req d r.seq, cls := if r.ofHaul && r.isWrite then 2 else 0, beats := beatsOf (r.sentSize - 32),
                     from_ := s.sidc, floor := 0 }

/-- The read of a table entry of a walk (R87). -/
def Walk.req (w : Walk) (seq t : Nat) : FarReq :=
  { seq := seq, src := .walk, pos := w.pos, port := w.pos, strm := .c, parcel := 0, issued := t, va := w.va,
    lo := w.dla % 256 / 4, hi := w.dla % 256 / 4 + 1, row := 0, op := .read, phase := .pend t }

/-- The entry that a walk's read has brought, with its error, once it has landed (R87). -/
def FarSide.walkGot (f : FarSide) (w : Walk) (q t : Nat) : Option (W64 × Byte) :=
  f.flight.findSome? fun r =>
    match r.phase with
    | .back _ data err (some l) => if r.seq = q ∧ l ≤ t then some (fld data (8 * (w.dla % 256)) 64, err) else none
    | _ => none

/-- One walk in this cycle (R87). -/
def State.walkStep (s : State) (d : DieId) (w : Walk) : State :=
  let f := s.fs d
  match w.read with
  | .send t =>
    if s.sidc < t then s
    else
      let w1 : Walk := { w with read := .out f.seq }
      (s.setFs d { f with seq := f.seq + 1, walks := f.walks.map fun v => if v = w then w1 else v }).setOut d w.home
        (w.dla - w.dla % 256) (w.req f.seq s.sidc)
  | .out q =>
    match f.walkGot w q s.sidc with
    | none => s
    | some e => (s.setFs d { f with flight := f.flight.filter (·.seq != q) }).walkEntry d w e.1 e.2

/-- TLB_WALK_READ (R87, R88). -/
def execTlbWalkRead (d : DieId) (s : State) : Out := .next ((s.fs d).walks.foldl (fun t w => t.walkStep d w) s)

-- ## Translating and leaving (R87, R91, R96, R103, R330)

/-- A miss joins the walk of its page, or starts one where a walker is free (R87; DESIGN CHOICE, log 69). -/
def FarSide.startWalk (f : FarSide) (r : FarReq) (from_ s : Nat) : FarSide :=
  if f.walks.any fun w => w.va / 2 ^ 16 == r.va / 2 ^ 16 then f.setPhase r.seq .walk
  else if f.walks.length < 32 then
    let w : Walk :=
      { va := r.va, pos := r.pos, began := s, level := 0, home := Fin.ofNat 4 ((fld f.xroot 5 3).toNat - 4),
        dla := (fld f.xroot 16 21).toNat * 2 ^ 16 + 8 * levelIdx r.va 0, read := .send (max (from_ + 2) s) }
    { f.setPhase r.seq .walk with walks := f.walks ++ [w] }
  else f

/-- The TLB's entry for a request; any translation may miss at any time (R87; DESIGN CHOICE, log 25). -/
def State.tlbAnswer (s : State) (d : DieId) (va : Nat) : Option TlbEntry := if s.fresh % 2 = 0 then (s.fs d).tlbHit va else none

/-- A request that is not translated in this cycle (R87, R91): a hit gives its home or its error at once, a miss joins a walk. With no
valid root there is no walk, and the error comes as after a hit (DESIGN CHOICE, log 68). -/
def State.translate (s : State) (d : DieId) (q : Nat) : State :=
  let f := s.fs d
  match f.reqs.find? fun r => r.seq == q with
  | none => s
  | some r =>
    match r.phase with
    | .pend t =>
      let base := max (r.issued + 4) (s.sidc + 2)
      if s.sidc < t then s
      else
        match s.tlbAnswer d r.va with
        | some e => s.bump.byLeaf d r e.level e.entry s.sidc base
        | none => s.bump.setFs d (if f.noRoot then f.setPhase q (.bad cUnmapped base) else f.startWalk r t s.sidc)
    | _ => s

/-- A request that has been translated. -/
def FarReq.translated (r : FarReq) : Bool :=
  match r.phase with
  | .bad .. | .home .. => true
  | _ => false

/-- The words of a store that its station's store path delivers with an error (R304). -/
def State.pathBad (s : State) (d : DieId) (r : FarReq) : List Nat :=
  if r.src = .path then (s.die d).badIn (fun k => .path r.pos (64 * r.seq + k)) 64 else []

/-- A store leaves the store path with 0xFFFF_FFFF in its bad words, which raise UNCORRECTABLE for its word (R304; DEDUCED, log 70). -/
def State.leavePath (s : State) (d : DieId) (r : FarReq) : State × FarReq :=
  let bad := s.pathBad d r
  (if bad.isEmpty then s else s.setDie d ((s.die d).raiseBad bad r.pos r.strm r.parcel),
   match r.op with
   | .write v => { r with op := .write (poison bad v) }
   | _ => r)

/-- A request that a fence stands before waits for its link in another queue than `r` will, on the way to the same home (R210, R248,
R258). -/
def FarSide.crosses (f : FarSide) (fences : List FenceRec) (h : DieId) (r : FarReq) : Bool :=
  r.ofHaul && r.isWrite && fences.any fun k => decide (k.upto ≤ r.order) && f.flight.any fun a => k.covers r.pos a &&
    match a.phase with | .sent h' _ none => h' == h | _ => false

/-- A translated request leaves in its turn, unless a fence holds it; a failed one is answered at its own die once every earlier
request of its queue has been translated (R87, R91, R248). -/
def State.leave (s : State) (d : DieId) (all fences : List FenceRec) (q : Nat) : State :=
  let f := s.fs d
  match f.reqs.find? fun r => r.seq == q with
  | none => s
  | some r =>
    let f1 := { f with reqs := f.reqs.filter (·.seq != q) }
    match r.phase with
    | .home h dla t =>
      if s.sidc < t || (f.reqs.any fun a => a.ahead r) || heldBack fences r || f.crosses all h r then s
      else
        let p := s.leavePath d r
        (p.1.setFs d f1).setOut d h dla p.2
    | .bad c base =>
      if f.reqs.any fun a => a.ahead r && !a.translated then s
      else s.setFs d { f1 with flight := f1.flight ++ [{ r with phase := .dead c (max base (s.sidc + 2)) }] }
    | _ => s

/-- The requests of a die in the order in which those of one cycle leave (R330). -/
def FarSide.order (f : FarSide) : List FarReq := (List.range 10).flatMap fun k => f.reqs.filter fun r => r.src.rank == k

/-- The fences of a die that have nothing left to order are dropped (R248). -/
def State.dropFences (s : State) (d : DieId) : State :=
  let x := s.die d
  let upd (p : Pos) : Station :=
    let y := x.sta p
    if y.fences.isEmpty then y else { y with fences := y.fences.filter ((s.fs d).fenceOn p) }
  if allPos.all fun p => (x.sta p).fences.isEmpty then s else s.setDie d { x with stations := (Vector.finRange 128).map upd }

/-- REQUEST_DEPART (R87, R96, R248). -/
def execRequestDepart (d : DieId) (s : State) : Out :=
  let f := s.fs d
  let all (p : Pos) : List FenceRec := ((s.die d).sta p).fences
  let live (p : Pos) : List FenceRec := (all p).filter (f.fenced p)
  let s1 := f.order.foldl (fun t r => t.translate d r.seq) s
  .next ((f.order.foldl (fun t r => t.leave d (all r.pos) (live r.pos) r.seq) s1).dropFences d)

-- ## Performing at the home (R92, R104, R220, R255 to R258)

/-- The new value of the word of an atomic (R220). -/
def amoNew (op : AmoOp) (old y c : W32) : W32 :=
  match op with
  | .addI => old + y
  | .addF => (fAdd .rne 0 old y).1
  | .maxI => if old.toInt < y.toInt then y else old
  | .minI => if y.toInt < old.toInt then y else old
  | .maxN => if old < y then y else old
  | .minN => if y < old then y else old
  | .maxF => fMinMax true old y
  | .minF => fMinMax false old y
  | .and => old &&& y
  | .or => old ||| y
  | .xor => old ^^^ y
  | .xchg => y
  | .cas => if old = c then y else old

/-- The row of a granule, as far memory holds it. -/
def memRow (m : List Host.Cell) (a : Nat) : Row := rowOfBytes (memRead m a 256)

/-- A row of the fill pattern (R91). -/
def fillRow : Row := BitVec.allOnes 2048

/-- A word of `n` bytes of a die's far memory from DLA `a` on has an uncorrectable error (R91). -/
def FarSide.badSpan (f : FarSide) (a n : Nat) : Bool :=
  f.badWords.any fun k => decide (a / 4 ≤ k) && decide (k ≤ (a + n - 1) / 4)

/-- A word among those that a request names has an uncorrectable error (R91). -/
def FarSide.badAt (f : FarSide) (dla : Nat) (r : FarReq) : Bool := f.badSpan (dla + 4 * r.lo) r.size

/-- A request is performed at its home: the memory, and the data or error that the response carries (R91, R92, R255). -/
def performFar (m : List Host.Cell) (home : FarSide) (h : DieId) (dla : Nat) (r : FarReq) : List Host.Cell × Row × Byte :=
  let a := memKey h dla
  if home.mcReset then (m, fillRow, cNotReady)
  else
    match r.op with
    | .read => if home.badAt dla r then (m, fillRow, cUncorr) else (m, memRow m a, 0)
    | .write v =>
      (memWrite m (a + 4 * r.lo) ((List.range r.size).map fun i => byteOf v (4 * r.lo + i)), 0, 0)
    | .amo op _ y c | .amosc op y c _ =>
      if home.badAt dla r then (m, fillRow, cUncorr)
      else
        let old := BitVec.ofNat 32 (leNat (memRead m (a + 4 * r.lo) 4))
        (memWrite m (a + 4 * r.lo) (leBytes (amoNew op old y c) 4), BitVec.ofNat 2048 (old.toNat * 2 ^ (32 * r.lo)), 0)

/-- Words that are written hold no error any more. -/
def FarSide.healed (f : FarSide) (dla : Nat) (r : FarReq) : FarSide :=
  match r.op with
  | .write _ =>
    if f.mcReset then f
    else { f with badWords := f.badWords.filter fun k => !(decide (dla / 4 + r.lo ≤ k) && decide (k ≤ dla / 4 + r.hi)) }
  | _ => f

/-- Home `h` has made its access of a granule in this cycle (R255). -/
def FarSide.isTouched (f : FarSide) (t g : Nat) : Bool := f.touchedAt == t && f.touched.contains g

/-- An access of DLA `dla` in cycle `t`: one for its granule (R255), and its bank's row stays open (R98). -/
def FarSide.touch (f : FarSide) (t dla : Nat) : FarSide :=
  { f with touched := dla / 256 :: (if f.touchedAt = t then f.touched else []), touchedAt := t,
           rows := if dlaVault dla then f.rows
             else kput { row := 0, last := 0 } (gddrKey dla) { row := gddrRow dla, last := t } f.rows }

/-- The granules of `n` bytes from DLA `dla` on. -/
def granules (dla n : Nat) : List Nat := (List.range ((dla % 256 + n + 255) / 256)).map (dla / 256 + ·)

/-- An access of `n` bytes from DLA `dla` on in cycle `t` (R98, R255). -/
def FarSide.touchSpan (f : FarSide) (t dla n : Nat) : FarSide :=
  (granules dla n).foldl (fun f g => f.touch t (256 * g)) f

/-- A BAR2 access touches a granule, or the channel of one (R98, R307). -/
def HostAcc.meets (a : HostAcc) (g : Nat) : Bool := decide (g < 2 ^ 28) && (granules a.e a.size).any fun k => k % 8 == g % 8

/-- The granules of the requests that wait at home `h`. -/
def State.waitingAt (s : State) (h : DieId) : List Nat :=
  (s.fs h).here.filterMap fun e => (s.fs e.1).flight.findSome? fun r => match r.phase with
    | .here _ dla .. => if r.seq = e.2 then some (dla / 256) else none
    | _ => none

/-- Home `h` can make an access of `n` bytes from DLA `dla` on that comes now: none of its granules has had its access of this cycle, and
no access of one waits there (R255). -/
def State.gransFree (s : State) (h : DieId) (dla n : Nat) : Bool :=
  (granules dla n).all fun g => !(s.fs h).isTouched s.sidc g && !(s.waitingAt h).contains g && !((s.fs h).host.any (·.meets g))

/-- Nor does one of its channels (R98). -/
def State.chansFree (s : State) (h : DieId) (dla n : Nat) : Bool :=
  s.gransFree h dla n && (granules dla n).all fun g => decide (2 ^ 28 ≤ g) || (s.waitingAt h).all fun k => decide (2 ^ 28 ≤ k) || k % 8 != g % 8

/-- The points a phase of which RDVT had shown to a station of die `d`, with no RDVW that has consumed it, when it issued request `r`
(R246, R264). -/
def Die.shownTo (x : Die) (r : FarReq) : List Nat := (x.tested.filter fun e => e.pos == r.pos && decide (e.at_ < r.issued)).map (·.pt)

/-- A write that a read of die `d` may leave out: a phase that RDVT alone has shown to its station has released it, and nothing orders
it before the station's reads (R264, R266). -/
def State.leavesOut (s : State) (d : DieId) (r : FarReq) (o : OldRow) : Bool :=
  o.pts.any ((s.die d).shownTo r).contains && (s.die o.die).team == (s.die d).team && !o.shut.contains (d, r.pos)

/-- The older values, newest first, of the granule at memory address `a` that a read of die `d` may take (R264, R266; DEDUCED, log 77). -/
def State.oldRows (s : State) (d : DieId) (r : FarReq) (a : Nat) : List OldRow :=
  if r.op == .read && r.src != .walk then (s.olds.filter (·.at_ == a)).takeWhile (s.leavesOut d r) else []

/-- How many writes of the granule the read leaves out, none where it takes the value that stands (R264; DEDUCED, log 77). -/
def State.goesBack (s : State) (d : DieId) (r : FarReq) (a : Nat) : Nat := (s.freeW 0).toNat % ((s.oldRows d r a).length + 1)

/-- The value of a granule that leaves out its last `k` writes; `v` is the one that stands. -/
def State.backRow (s : State) (a k : Nat) (v : Row) : Row :=
  match k with
  | 0 => v
  | k + 1 => (((s.olds.filter (·.at_ == a))[k]?).map (·.row)).getD v

/-- The cycle from which a granule has held the value that leaves out its last `k` writes, so far as earlier values of it stand. -/
def State.heldFrom (s : State) (a k : Nat) : Nat := (((s.olds.filter (·.at_ == a))[k]?).map (·.from_)).getD 0

/-- The points that release a write of die `d`: that of its haul, or those of the RDVAs that wait for it (R244, R264). -/
def State.releasedBy (s : State) (d : DieId) (r : FarReq) : List Nat :=
  match r.src with
  | .haul k _ _ => ((s.fs d).hauls.filter fun c => c.key == k).filterMap fun c => c.pt.map (·.toNat)
  | _ => (((s.die d).sta r.pos).releases.filter fun k => k.marks.contains r.seq).filterMap fun k => k.pt.map (·.toNat)

/-- Later reads of the station come behind its own access: a FENCE stands between, or it is an atomic of a far queue (R248, R258). -/
def State.leadsReads (s : State) (d : DieId) (r : FarReq) : Bool :=
  r.isWrite && (r.isRead || ((s.die d).sta r.pos).fences.any fun k => k.covers r.pos r)

/-- The earlier values that stand after an access of the granule at memory address `a` that met no error; a read leaves out the last `k`
writes. No later read goes behind what one has seen (R256, R258), nor one of the station behind its own ordered access. -/
def State.oldsAfter (s : State) (d : DieId) (r : FarReq) (a k : Nat) : List OldRow :=
  let l := if r.isRead then s.olds.filter fun o => decide (s.heldFrom a k < o.from_) else s.olds
  let m := if r.isWrite then { at_ := a, row := memRow s.mem a, from_ := s.sidc + 1, die := d, pos := r.pos, seq := r.seq, haul := r.ofHaul,
                               pts := s.releasedBy d r, shut := [] } :: l else l
  if s.leadsReads d r then m.map fun o => { o with shut := (d, r.pos) :: o.shut } else m

/-- The earlier values that stand where every read from now on comes behind the writes of a kind. -/
def State.oldsBehind (s : State) (p : OldRow → Bool) : List OldRow :=
  let m := s.olds.foldl (fun n o => if p o then max n o.from_ else n) 0
  s.olds.filter fun o => decide (m < o.from_)

/-- The earlier values once a phase of point `pt` of the team of die `d` has been consumed (R245, R258). -/
def State.oldsConsumed (s : State) (d : DieId) (pt : Nat) : List OldRow :=
  s.oldsBehind fun o => o.pts.contains pt && (s.die o.die).team == (s.die d).team

/-- What an RDVA or a FENCE of die `d` makes of the earlier values at the end of its cycle: the RDVA releases the writes that it marks,
the FENCE puts the station's reads behind its own writes (R244, R248). -/
def State.noteOrder (s : State) (d : DieId) (e : Eoc) : State :=
  match e with
  | .release p (some pt) _ _ =>
    let l := (s.fs d).writesOut p
    { s with olds := s.olds.map fun o =>
      if o.die = d ∧ o.pos = p ∧ o.haul = false ∧ o.seq ∈ l then { o with pts := pt.toNat :: o.pts } else o }
  | .fence p set scope =>
    let m := s.olds.foldl (fun n o => if o.die = d ∧ o.pos = p ∧ (o.haul = false ∨ scope = .team) then max n o.from_ else n) 0
    { s with olds := s.olds.map fun o => if set ≠ .ld ∧ o.from_ ≤ m then { o with shut := (d, p) :: o.shut } else o }
  | _ => s

/-- The home performs request `r` of die `d`, whose response is then ready from `lo` to `by_`: it lands, or joins the link's queue
(R99, R210, R255; DESIGN CHOICE, log 10). -/
def State.perform (s : State) (d h : DieId) (r : FarReq) (dla lo by_ : Nat) : State :=
  let p := performFar s.mem (s.fs h) h dla r
  let a := memKey h dla
  let k := if p.2.2 = 0 then s.goesBack d r a else 0
  let f := ((s.fs h).healed dla r).touch s.sidc dla
  let s0 := { s with mem := p.1, olds := if p.2.2 = 0 then s.oldsAfter d r a k else s.olds }
  let s1 := s0.setFs h { f with here := f.here.erase (d, r.seq) }
  let first := if d = h then max lo (s.sidc + 1) else s.sidc
  let at_ := s.pick first by_
  let ph : FarPhase := .back h (s.backRow a k p.2.1) p.2.2 (if d = h then some at_ else none)
  let s2 := (s1.setFs d ((s1.fs d).inFlight r.seq fun k => { k with phase := ph })).bump
  if d = h then s2
  else s2.post h d { of := .resp d r.seq, cls := if r.ofHaul && r.isRead then 2 else 1, beats := beatsOf r.respSize, from_ := at_,
                     floor := lo + hop h d }

/-- The granule of a request at its home. -/
def FarReq.granule (r : FarReq) : Nat :=
  match r.phase with
  | .here _ dla _ _ _ => dla / 256
  | _ => 0

def FarReq.isSc (r : FarReq) : Bool :=
  match r.op with
  | .amosc .. => true
  | _ => false

/-- The stamp of an AMOSC. -/
def FarReq.stamp (r : FarReq) : Nat :=
  match r.op with
  | .amosc _ _ _ st => st
  | _ => 0

/-- The cycle by which a home must perform a request that waits there, for its response to be in time: at its own die the response
comes a cycle later (R91, R97). -/
def FarReq.deadline (d : DieId) (r : FarReq) : Nat :=
  match r.phase with
  | .here h _ _ by_ _ => if d = h then by_ - 1 else by_
  | _ => 0

/-- Two requests at a home go to one channel of its GDDR 7 (R98). -/
def FarReq.sameChan (x y : FarReq) : Bool :=
  match x.gddrAhead, y.gddrAhead with
  | some a, some b => gddrChan a.1 == gddrChan b.1
  | _, _ => false

/-- Request `x` belongs to one queue with `y`, which came later (R104), or a FENCE stands between them (R248). -/
def State.mustLead (s : State) (x y : DieId × FarReq) : Bool :=
  x.1 == y.1 && x.2.pos == y.2.pos && ((x.2.src == y.2.src && x.2.ofQueue) ||
    ((s.die x.1).sta x.2.pos).fences.any fun k => k.covers x.2.pos x.2 && decide (k.upto ≤ y.2.order))

/-- The ordinary requests among those at a home, in the order they arrived, that follow an AMOSC there (R104, R248). -/
def State.stuck (s : State) (l : List (DieId × FarReq)) : List (DieId × FarReq) :=
  (l.foldl (fun (acc : List (DieId × FarReq) × List (DieId × FarReq)) e =>
    let behind := !e.2.isSc && acc.1.any fun a => (s.mustLead a e && (a.2.isSc || acc.2.contains a)) ||
      (a.2.granule == e.2.granule && acc.2.contains a)
    (acc.1 ++ [e], if behind then acc.2 ++ [e] else acc.2)) ([], [])).2

/-- Request `x`, which reached the home before `y`, is performed before it: they touch one granule (R255) or go to one channel (R98), belong
to one queue (R104), or a FENCE stands between them (R248). An AMOSC holds up none by its granule or channel (R224), nor does one of
the `stuck`, which follow an AMOSC, hold up an AMOSC, or another channel-mate. -/
def State.before (s : State) (stuck : List (DieId × FarReq)) (x y : DieId × FarReq) : Bool :=
  s.mustLead x y || (!x.2.isSc &&
    ((x.2.granule == y.2.granule && !(y.2.isSc && stuck.contains x)) || (x.2.sameChan y.2 && !stuck.contains x)))

/-- The AMOSCs of `l` and the requests that the turn of one may have to wait for, other than `r` itself. -/
def State.scLoad (s : State) (l stuck : List (DieId × FarReq)) (r : DieId × FarReq) : Nat :=
  (l.filter fun e => e != r && (e.2.isSc || stuck.contains e || l.any fun z => z.2.isSc &&
    (z.2.granule == e.2.granule || s.before stuck e z))).length

/-- The cycle from which the home puts AMOSC `y` of those that wait forward, so that neither it, nor a later stamp, nor a request that
follows an AMOSC is late (R221, R224). -/
def State.scNeed (s : State) (l : List (DieId × FarReq)) (y : DieId × FarReq) : Nat :=
  let st := s.stuck l
  l.foldl (fun n e => if (e.2.isSc && decide (y.2.stamp ≤ e.2.stamp)) || st.contains e then min n (e.2.deadline e.1) else n)
    (y.2.deadline y.1) - s.scLoad l st y

/-- The cycle in which `x`, of those that wait at a home, is performed at the latest where nothing has to follow it: AMOSCs may take
cycles of its granule. -/
def State.ownLatest (s : State) (l : List (DieId × FarReq)) (x : DieId × FarReq) : Nat :=
  if x.2.isSc then s.scNeed l x
  else x.2.deadline x.1 - (l.filter fun e => e.2.isSc && e.2.granule == x.2.granule).length

/-- The latest cycle in which `x` can be performed so that neither it nor those that must follow it are late; of one granule a cycle
takes one. -/
def State.latest (s : State) (l st : List (DieId × FarReq)) (x : DieId × FarReq) : List (DieId × FarReq × Nat) → Nat
  | [] => s.ownLatest l x
  | y :: t =>
    let n := s.latest l st x t
    if s.before st x (y.1, y.2.1) then min n (if x.2.granule = y.2.1.granule then y.2.2 - 1 else y.2.2) else n

/-- The requests at a home with their latest cycles; `l` are all that wait there. -/
def State.timed (s : State) (l st : List (DieId × FarReq)) : List (DieId × FarReq) → List (DieId × FarReq × Nat)
  | [] => []
  | x :: t =>
    let r := s.timed l st t
    (x.1, x.2, s.latest l st x r) :: r

/-- A BAR2 access that came before request `q` of die `d`, to its granule or channel, waits at the home (R255, R307). -/
def FarSide.hostFirst (f : FarSide) (d : DieId) (r : FarReq) : Bool :=
  f.host.any fun a => a.meets r.granule && !a.seen.contains (d, r.seq)

/-- A BAR2 access waits for the request. -/
def FarSide.hostWants (f : FarSide) (d : DieId) (r : FarReq) : Bool := f.host.any fun a => a.seen.contains (d, r.seq)

/-- The requests at home `h`, each now or later, in the order that R98, R104, R248 and R255 ask for and no later than its latest cycle;
AMOSCs wait for their turn (R224). `kept` are the earlier ones that still wait, `st` those that follow an AMOSC (DESIGN CHOICE,
log 10). Where more wait on one granule than R97's landings leave cycles for, R255's one access a cycle stands (DESIGN CHOICE, log 100). -/
def performEach (h : DieId) (st : List (DieId × FarReq)) : List (DieId × FarReq × Nat) → List (DieId × FarReq) → State → State
  | [], _, s => s
  | (d, r, n) :: t, kept, s =>
    match r.phase with
    | .here _ dla lo by_ _ =>
      if r.isSc || (kept.any fun e => s.before st e (d, r)) || (s.fs h).isTouched s.sidc r.granule || (s.fs h).hostFirst d r then
        performEach h st t (kept ++ [(d, r)]) s
      else if n ≤ s.sidc ∨ (s.fs h).hostWants d r ∨ s.fresh % 2 = 0 then performEach h st t kept (s.bump.perform d h r dla lo by_)
      else performEach h st t (kept ++ [(d, r)]) s.bump
    | _ => performEach h st t kept s

/-- FAR_ACCESS_PERFORM at home `h` (R255). -/
def execFarAccessPerform (h : DieId) (s : State) : Out :=
  let s1 := State.arrivals h ((allDies.map fun d => (s.fs d).flight.length).sum) s
  let l := s1.hereReqs h
  let st := s1.stuck l
  .next (performEach h st (s1.timed l st l) [] s1)

-- ## The meridian wheel (R222, R224)

/-- Every die of the issuer's team has sent home `h` a mark above `stamp` (R224). -/
def State.marked (s : State) (h d : DieId) (stamp : Nat) : Bool :=
  (s.teamDies d).all fun e => decide (stamp + 1 < kget 0 e.val (s.fs h).marks)

/-- The AMOSC of least stamp among some requests (R224). -/
def leastSc : List (DieId × FarReq) → Option (DieId × FarReq)
  | [] => none
  | x :: t =>
    if !x.2.isSc then leastSc t
    else match leastSc t with
      | none => some x
      | some y => if y.2.stamp < x.2.stamp then some y else some x

/-- The AMOSC that home `h` may apply next, with the place and time of its response: the least stamp that waits there, once it is
marked, the requests that go before it are performed and its granule is free (R98, R104, R224, R255). -/
def State.nextSc (s : State) (h : DieId) : Option (DieId × FarReq × Nat × Nat × Nat) :=
  match leastSc (s.hereReqs h) with
  | none => none
  | some (d, r) =>
    let ahead := (s.hereReqs h).takeWhile fun e => e != (d, r)
    let st := s.stuck (s.hereReqs h)
    match r.phase with
    | .here _ dla lo by_ _ =>
      if s.marked h d r.stamp && !(ahead.any fun e => s.before st e (d, r)) && !(s.fs h).isTouched s.sidc r.granule &&
          !(s.fs h).hostFirst d r then
        some (d, r, dla, lo, by_)
      else none
    | _ => none

/-- AMOSCs are applied at home `h` in stamp order, each now or later, and no later than its bound allows (R221, R224; DESIGN CHOICE,
log 10). -/
def amoscs (h : DieId) : Nat → State → State
  | 0, s => s
  | n + 1, s =>
    match s.nextSc h with
    | none => s
    | some (d, r, dla, lo, by_) =>
      if s.scNeed (s.hereReqs h) (d, r) ≤ s.sidc ∨ s.fresh % 2 = 0 then amoscs h n (s.bump.perform d h r dla lo by_) else s.bump

/-- AMOSC_PERFORM at home `h` (R224). -/
def execAmoscPerform (h : DieId) (s : State) : Out := .next (amoscs h (s.fs h).here.length s)

/-- The stamp of a die's mark: the least of its AMOSCs that are untranslated or unsent, else the cycle itself (R224; DEDUCED, log 82). -/
def FarSide.markStamp (f : FarSide) (s : Nat) : Nat :=
  f.reqs.foldl (fun n r => if r.isSc then min n r.stamp else n) s

/-- WHEEL_MARK_SEND (R224): at its own home the mark is known at once, to the others it goes in the link's request queue. -/
def execWheelMarkSend (d : DieId) (s : State) : Out :=
  if s.sidc % 16 != 0 then .next s
  else
    let stamp := (s.fs d).markStamp s.sidc
    .next ((s.teamDies d).foldl (fun t h =>
      let f := t.fs h
      if h = d then t.setFs h { f with marks := kput 0 d.val (stamp + 1) f.marks }
      else (t.setFs h { f with marksIn := f.marksIn ++ [{ from_ := d, stamp := stamp, sent := s.sidc, by_ := none }] }).post d h
        { of := .mark d s.sidc, cls := 0, beats := 1, from_ := s.sidc, floor := 0 }) s)

/-- An AMOSC that its die had sent before a mark is still on its way to home `h`: the mark comes after it (R210, R224). -/
def State.markHeld (s : State) (h : DieId) (m : Mark) : Bool :=
  (s.fs m.from_).flight.any fun r => match r.phase with
    | .sent h' _ _ => h' == h && r.isSc && decide (r.stamp < m.stamp)
    | _ => false

/-- A mark must have arrived by this cycle (R224). -/
def Mark.due (m : Mark) (t : Nat) : Bool :=
  match m.by_ with
  | some b => decide (b ≤ t)
  | none => false

/-- One mark on its way to home `h`: it arrives now or later (R224; DESIGN CHOICE, log 10). -/
def State.markStep (s : State) (h : DieId) (m : Mark) : State :=
  if !s.markHeld h m && (m.due s.sidc || s.fresh % 2 == 0) then
    let f := s.fs h
    (s.setFs h { f with marks := kput 0 m.from_.val (max (m.stamp + 1) (kget 0 m.from_.val f.marks)) f.marks,
                        marksIn := f.marksIn.erase m }).bump
  else s.bump

/-- WHEEL_MARK_ARRIVE at home `h` (R224). -/
def execWheelMarkArrive (h : DieId) (s : State) : Out := .next ((s.fs h).marksIn.foldl (fun t m => t.markStep h m) s)

-- ## Responses (R91, R94, R95, R100, R103, R244)

/-- A request's data lands in its far-queue slot (R100). -/
def Station.fqLand (x : Station) (q : BitVec 3) (seq : Nat) (r : Row) : Station :=
  x.setFq q ((x.fqOf q).map fun k => if k.seq = seq then { k with data := some r } else k)

/-- RDVAs and TRIGs that wait for a write learn of its acknowledgement (R244, R249). -/
def Station.acked (x : Station) (seq : Nat) (err : Byte) : Station :=
  { x with releases := x.releases.map fun k =>
    if k.marks.contains seq then
      { k with marks := k.marks.erase seq, err := if k.err = 0 then err else k.err }
    else k }

/-- A haul's granule `g` has been read, or its write acknowledged (R108, R111). -/
def HaulCmd.farDone (c : HaulCmd) (g : Nat) (wr : Bool) (r : Row) (err : Byte) (s : Nat) : HaulCmd :=
  let fail := if err = 0 then c.fail else match c.fail with
    | none => some (g, err)
    | some (g0, e0) => if g < g0 then some (g, err) else some (g0, e0)
  if wr then { c with done := c.done + 1, comp := max c.comp s, fail := fail, grans := c.grans.filter (·.i != g) }
  else
    { c with grans := c.grans ++ [{ i := g, data := r, bits := 2048, scales := [], readyAt := s, sent := false, err := err }],
             fail := fail }

/-- A response reaches its requester: a row for its queue or haul, an acknowledgement for its station (R91, R100, R103). -/
def State.respond (s : State) (d : DieId) (r : FarReq) (data : Row) (err : Byte) : State :=
  let f := s.fs d
  let f1 := { f with flight := f.flight.filter (·.seq != r.seq) }
  match r.src with
  | .walk => s
  | .haul k g wr =>
    s.setFs d { f1 with hauls := f1.hauls.map fun c => if c.key = k then c.farDone g wr data err s.sidc else c }
  | .path => (s.setFs d f1).setDie d ((s.die d).setSta r.pos (((s.die d).sta r.pos).acked r.seq err))
  | .fq q =>
    let x := ((s.die d).sta r.pos).fqLand q r.seq data
    (s.setFs d f1).setDie d ((s.die d).setSta r.pos (if r.isWrite then x.acked r.seq err else x))

/-- The responses without an error that arrive in this cycle; a walk takes its own. -/
def FarReq.landed (t : Nat) (r : FarReq) : Option Row :=
  match r.phase with
  | .back _ row e (some l) => if l ≤ t ∧ e = 0 ∧ r.src ≠ .walk then some row else none
  | _ => none

/-- RESPONSE_ARRIVAL (R100, R103). -/
def execResponseArrival (d : DieId) (s : State) : Out :=
  .next ((s.fs d).flight.foldl (fun t r =>
    match r.landed s.sidc with
    | some row => t.respond d r row 0
    | none => t) s)

/-- The error responses that arrive in this cycle, with their cause; a walk takes its own. -/
def FarReq.failed (t : Nat) (r : FarReq) : Option Byte :=
  match r.phase with
  | .dead c l => if l ≤ t then some c else none
  | .back _ _ e (some l) => if l ≤ t ∧ e ≠ 0 ∧ r.src ≠ .walk then some e else none
  | _ => none

/-- A violation log entry (R94). -/
def viologWord (pos : Pos) (st : Strm) (va : Nat) (cause : Byte) : W64 :=
  1#1 ++ BitVec.ofNat 2 st.idx.val ++ BitVec.ofNat 7 pos.val ++ cause ++ BitVec.ofNat 46 (va / 4)

/-- One log write (R94, R95). -/
def Die.logWrite (d : Die) (pos : Pos) (st : Strm) (va : Nat) (cause : Byte) : Die :=
  let head := (fld d.viotrap 8 4).toNat
  let ovf : BitVec 16 := fld d.viotrap 48 16
  let ovf1 := if bit (kget 0 head d.violog) 63 && ovf != BitVec.allOnes 16 then ovf + 1 else ovf
  { d with violog := kput 0 head (viologWord pos st va cause) d.violog,
           viotrap := ovf1 ++ 0#36 ++ BitVec.ofNat 4 ((head + 1) % 16) ++ 0#6 ++ 1#1 ++ b1 (bit d.viotrap 0) }

/-- A violation of the current cycle, whose log write comes at the end of the cycle (R94). -/
def Die.violate (d : Die) (pos : Pos) (st : Strm) (parcel : Parcel) (va : Nat) (cause : Byte) : Die :=
  { d with eoc := d.eoc ++ [.violog pos st parcel va cause] }

/-- Requests whose error responses arrive together, in the order of the log: position, then stream (R94); of one station and stream,
the order in which they left (DESIGN CHOICE, log 71). -/
def logOrder (l : List FarReq) : List FarReq :=
  allPos.flatMap fun p => Strm.all.flatMap fun st => l.filter fun r => r.pos == p && r.strm == st

/-- ERROR_RESPONSE (R91, R94, R95): the fill pattern lands or the write is dropped, and the violation log takes an entry. -/
def execErrorResponse (d : DieId) (s : State) : Out :=
  let l := (s.fs d).flight.filter fun r => (r.failed s.sidc).isSome
  if l.isEmpty then .next s
  else
    let s1 := l.foldl (fun t r => t.respond d r fillRow ((r.failed s.sidc).getD 0)) s
    .next ((logOrder l).foldl (fun t r =>
      t.setDie d ((t.die d).violate r.pos r.strm r.parcel (r.va + 4 * r.lo) ((r.failed s.sidc).getD 0))) s1)

-- ## The host's translation registers (R89, R90) and refresh (R92, R98)

/-- An XINVAL removes a TLB entry: each SIZE removes the leaf of that size that holds PAGE, and no leaf of another size (R90; DESIGN
CHOICE, log 72). -/
def invalHits (v : W64) (t : TlbEntry) : Bool :=
  let va := (fld v 16 32).toNat * 2 ^ 16
  match (fld v 0 2).toNat with
  | 3 => true
  | 0 => t.level == 2 && va / 2 ^ 16 == t.vpn
  | 1 => t.level == 1 && va / 2 ^ 25 == t.vpn
  | _ => t.level == 0 && va / 2 ^ 35 == t.vpn

/-- A host write of XINVAL; it is ignored while BUSY (R90). -/
def State.xinvalWrite (s : State) (d : DieId) (v : W64) : State :=
  let f := s.fs d
  if f.xinval.isSome then s
  else s.setFs d { f with xinval := some { value := v, at_ := s.sidc }, xpage := v &&& 0x0000FFFFFFFF0003 }

/-- XINVAL (R90). -/
def execXinval (d : DieId) (v : W64) (s : State) : Out := .next (s.xinvalWrite d v)

/-- XINVAL_DONE (R90; DESIGN CHOICE, log 53). -/
def execXinvalDone (d : DieId) (s : State) : Out :=
  let f := s.fs d
  match f.xinval with
  | none => .next s
  | some v =>
    if s.sidc < v.at_ + 2 || f.walks.any fun w => decide (w.began ≤ v.at_) then .next s
    else .next (s.setFs d { f with xinval := none, tlb := f.tlb.filter fun t => !invalHits v.value t })

/-- A host write of XREPLAY: the page's waiting requests walk again, and their walk's first read leaves 2 c after the write (R87, R89;
DESIGN CHOICE, log 101). -/
def State.xreplayWrite (s : State) (d : DieId) (v : W64) : State :=
  let f := s.fs d
  let va := (fld v 16 32).toNat * 2 ^ 16
  let f1 := f.onPage va fun r => if r.phase = .np then { r with phase := .pend s.sidc } else r
  s.setFs d { f1 with reported := f1.reported.filter (· != va / 2 ^ 16), xreplay := v &&& 0x0000FFFFFFFF0000 }

/-- XREPLAY (R89). -/
def execXreplay (d : DieId) (v : W64) (s : State) : Out := .next (s.xreplayWrite d v)

/-- MEMORY_CONTROLLER_RESET: the die's controller enters or leaves reset (R92). -/
def execMemoryControllerReset (d : DieId) (inReset : Bool) (s : State) : Out :=
  .next (s.setFs d { s.fs d with mcReset := inReset })

/-- GDDR7_REFRESH: the channel whose refresh begins in this cycle closes its rows on every die (R98). -/
def execGddr7Refresh (s : State) : Out :=
  match (List.range 8).find? fun k => s.sidc % 2340 == 292 * k with
  | none => .next s
  | some k =>
    let close (f : FarSide) : FarSide := { f with rows := f.rows.filter fun e => e.1 / 16 != k }
    .next { s with far := s.far.map close, hub := { s.hub with gddrRefresh := kput 0 k (s.sidc + 180) s.hub.gddrRefresh } }

/-- ROW_CLOSE: rows without an access for 128 c are closed (R98). -/
def execRowClose (d : DieId) (s : State) : Out :=
  let f := s.fs d
  .next (s.setFs d { f with rows := f.rows.filter fun e => decide (s.sidc < e.2.last + 128) })

end Sys2Proof.Machine
end

