-- ==== Sys2Proof/Machine/Haul.lean ====
section
/-! DEFINITION. The haul engines: HAUL, its granules, port B, converting copies and completion (R81, R105 to R111, R115,
R120). -/

namespace Sys2Proof.Machine

-- ## HAUL (R105 to R107)

/-- A haul address (R105). -/
def haulAddr (v : W64) : Option HaulAddr :=
  if fld v 48 16 == 0 then some (.far ((fld v 8 40).toNat * 256))
  else (bankForm v).map fun b => .bank b.1 b.2.1 b.2.2

/-- Data rows of a bank of a format. -/
def BankFmt.dataRows (f : BankFmt) : Nat := if (mxOf f.type).isSome then f.srow.toNat else 128

/-- What a HAUL works on (R105 to R107). -/
structure HaulPlan where
  src : HaulAddr
  dst : HaulAddr
  n : Nat
  conv : Bool
  sfmt : BankFmt
  dfmt : BankFmt
  dstN : Nat

/-- The format of a haul side. -/
def Die.fmtOf (d : Die) : HaulAddr → BankFmt
  | .far _ => {}
  | .bank p b _ => kget {} b.toNat (d.sta p).fmt

/-- The plan of a haul between two addresses. -/
def Die.haulPlan (d : Die) (src dst : HaulAddr) (n : Nat) : HaulPlan :=
  let sf := d.fmtOf src
  let df := d.fmtOf dst
  let conv := match src, dst with
    | .bank .., .bank .. => sf.type != df.type
    | _, _ => false
  let dn := if conv then (n * tyEpr sf.type + tyEpr df.type - 1) / tyEpr df.type else n
  { src := src, dst := dst, n := n, conv := conv, sfmt := sf, dfmt := df, dstN := dn }

/-- A side stays within its rows (R106). -/
def sideOk (a : HaulAddr) (n rows limit : Nat) (conv : Bool) : Bool :=
  match a with
  | .far _ => true
  | .bank _ _ row => decide (n ≤ 128) && decide (row + rows ≤ if conv then limit else 128)

def HaulPlan.ok (p : HaulPlan) : Bool :=
  sideOk p.src p.n p.n p.sfmt.dataRows p.conv && sideOk p.dst p.n p.dstN p.dfmt.dataRows p.conv

/-- The rows of a bank that a haul side touches: an MX data row between banks brings its scale rows (R107, R119). -/
def haulRows (f : BankFmt) (row n : Nat) (both : Bool) : List Nat :=
  ((List.range n).flatMap fun i => touchedRows f (!both || f.rawRow (row + i)) (row + i)).eraseDups

/-- The declared buffers of a haul side. -/
def Die.sideBufs (d : Die) (a : HaulAddr) (f : BankFmt) (n : Nat) (both : Bool) : List (Pos × Nat × Buf) :=
  match a with
  | .far _ => []
  | .bank p b row => ((d.sta p).bufsOf b (haulRows f row n both)).map fun e => (p, e.1, e.2)

def HaulAddr.isBank : HaulAddr → Bool
  | .far _ => false
  | .bank .. => true

def HaulPlan.both (p : HaulPlan) : Bool := p.src.isBank && p.dst.isBank

/-- Commands that a face's engine holds (R106). -/
def FarSide.faceHauls (f : FarSide) (p : Pos) : Nat := (f.hauls.filter fun h => h.pos.val / 32 == p.val / 32).length

/-- HAUL after its checks (R106, R107). -/
def haulStart (af : Bool) (pt : Option (BitVec 5)) (rnd : Rnd) (p : HaulPlan) (rd wr : List (Pos × Nat × Buf)) (s : State) : State :=
  let dr := s.noiseIf (p.conv && rnd == .rsr)
  let s1 := dr.2
  let f := s1.fs s.focus.die
  let c : HaulCmd :=
    { key := f.seq, pos := s.focus.pos, parcel := s.focus.parcel, issued := s.sidc, src := p.src, dst := p.dst, n := p.n,
      rnd := rnd, af := af, pt := pt, conv := p.conv, sfmt := p.sfmt, dfmt := p.dfmt,
      gen := if dr.1 = 0 then 1 else BitVec.ofNat 32 dr.1, started := 0, srcRead := 0, lanes := [], made := 0, grans := [],
      done := 0, dstN := p.dstN, comp := 0, fail := none, writes := wr.map fun e => (e.1, e.2.1) }
  let moves := rd.map (fun e => Eoc.bufRead e.1 e.2.1 (s.focus.pos, .l, s.cyc)) ++
    wr.flatMap fun e => [Eoc.bufWrite e.1 e.2.1, Eoc.bufWriter e.1 e.2.1]
  (s1.setFs s.focus.die { f with seq := f.seq + 1, hauls := f.hauls ++ [c] }).updDie fun d => { d with eoc := d.eoc ++ moves }

/-- HAUL (R105 to R107; DEDUCED, log 63). -/
def execHaul (af : Bool) (pt : Option (BitVec 5)) (rnd : Rnd) (d a b : Scal) (s : State) : Out :=
  match haulAddr (s.scal a), haulAddr (s.scal d) with
  | some src, some dst =>
    let p := s.curDie.haulPlan src dst ((fld (s.scal b) 0 20).toNat + 1)
    let rd := s.curDie.sideBufs src p.sfmt p.n p.both
    let wr := s.curDie.sideBufs dst p.dfmt p.dstN p.both
    if !p.ok then raise s .bankRange
    else if !bufsAllow false (rd.map (·.2)) || !bufsAllow true (wr.map (·.2)) then raise s .bufState
    else if (s.fs s.focus.die).faceHauls s.focus.pos ≥ 16 then raise s .fqOverflow
    else .next (haulStart af pt rnd p rd wr s)
  | _, _ => raise s .bankRange

-- ## Granules (R108, R111)

/-- The vault port that serves a haul on its own die: that of the station whose bank it transfers, else the issuer's (R97). -/
def HaulCmd.port (c : HaulCmd) : Pos :=
  match c.src, c.dst with
  | .bank p _ _, _ => p
  | _, .bank p _ _ => p
  | _, _ => c.pos

/-- A far request of granule `g` of a haul. -/
def HaulCmd.farReq (c : HaulCmd) (seq g va from_ : Nat) (wr : Bool) (op : FarOp) : FarReq :=
  { seq := seq, src := .haul c.key g wr, pos := c.pos, port := c.port, strm := .l, parcel := c.parcel,
    issued := from_, va := (va + 256 * g) % 2 ^ 48, lo := 0, hi := 63, row := 0, op := op, phase := .pend from_ }

def FarSide.setHaul (f : FarSide) (c : HaulCmd) : FarSide := { f with hauls := f.hauls.map fun h => if h.key = c.key then c else h }

/-- One command starts its next granule when it is due (R111). -/
def FarSide.haulGo (f : FarSide) (c : HaulCmd) (s : Nat) : FarSide :=
  if c.started < c.n ∧ c.issued + 2 + c.started ≤ s then
    let f1 := f.setHaul { c with started := c.started + 1 }
    match c.src with
    | .far va => { f1 with seq := f1.seq + 1, reqs := f1.reqs ++ [c.farReq f1.seq c.started va s false .read] }
    | .bank .. => f1
  else f

/-- HAUL_GRANULE_START (R111). -/
def execHaulGranuleStart (d : DieId) (s : State) : Out :=
  .next (s.setFs d ((s.fs d).hauls.foldl (fun f c => f.haulGo c s.sidc) (s.fs d)))

/-- Port A does not touch a bank in this cycle (R111, R115). -/
def FarSide.portFreeB (f : FarSide) (s : Nat) (p : Pos) (b : BitVec 3) : Bool :=
  f.busyAt != s || !f.busy.contains (8 * p.val + b.toNat)

/-- The scales of the blocks of a data row (R107). -/
def scaleBytes (x : Station) (b : BitVec 3) (f : BankFmt) (row : Nat) : List Byte :=
  match mxOf f.type with
  | some (_, bpr) =>
    if row < f.srow.toNat then (List.range bpr).map fun q =>
      let sc := f.scaleAt (row * bpr + q)
      byteOf (x.bankRow b sc.1) sc.2
    else []
  | none => []

/-- The lane type that decoding gives (R81). -/
def laneTy (t : Ty) : Ty :=
  match intTy t with
  | some (_, sg) => if sg then .i32 else .n32
  | none => .f32

/-- `n` element noise values of a converting copy, and the generator after them (R107). -/
def haulNoise : Nat → W32 → List Nat × W32
  | 0, g => ([], g)
  | n + 1, g =>
    let g1 := lfsr g
    let r := haulNoise n g1
    ((g1.setWidth 16).toNat :: r.1, r.2)

/-- A destination row of a converting copy from its lanes (R81): data, bits, scales. -/
def haulEnc (src dst : Ty) (rnd : Rnd) (noise : List Nat) (lanes : List W32) : Row × Nat × List Byte :=
  let w := tyBits dst
  match mxOf dst with
  | none =>
    let es := (List.zipWith (fun v n => (cvt (laneTy src) dst rnd false n v).1.toNat) lanes noise)
    (packRow w es 0, w * es.length, [])
  | some (im, _) =>
    let xs := if laneTy src = .f32 then lanes
      else List.zipWith (fun v n => (cvt (laneTy src) .f32 rnd false n v).1) lanes noise
    let qs := (chunks32 16 xs).zipIdx.map fun (c, q) => qntBlock (fimgF im) rnd ((noise.drop (32 * q)).take 32) c
    let es := qs.flatMap fun q => q.2.1.map fun (e : Int) => (e % (2 ^ w : Nat)).toNat
    (packRow w es 0, w * es.length, qs.map fun q => BitVec.ofNat 8 q.1)

/-- Destination rows whose lanes are complete (R107, R111). -/
def HaulCmd.form : Nat → HaulCmd → Nat → Byte → HaulCmd
  | 0, c, _, _ => c
  | k + 1, c, s, err =>
    let n := tyEpr c.dfmt.type
    let all := c.srcRead == c.n
    if c.made < c.dstN ∧ (n ≤ c.lanes.length ∨ (all ∧ c.lanes ≠ [])) then
      let l := c.lanes.take n
      let no := haulNoise l.length c.gen
      let e := haulEnc c.sfmt.type c.dfmt.type c.rnd no.1 l
      let g : Gran := { i := c.made, data := e.1, bits := e.2.1, scales := e.2.2, readyAt := s + 3, sent := false, err := err }
      HaulCmd.form k { c with lanes := c.lanes.drop n, gen := no.2, made := c.made + 1, grans := c.grans ++ [g] } s err
    else c

/-- The first failed granule in granule order (R109). -/
def HaulCmd.failed (c : HaulCmd) (g : Nat) (e : Byte) : HaulCmd :=
  if e = 0 then c
  else match c.fail with
    | some (g0, _) => if g < g0 then { c with fail := some (g, e) } else c
    | none => { c with fail := some (g, e) }

/-- A haul command has read its next source row, `r` with its bad words filled (R107, R111). -/
def HaulCmd.readRow (c : HaulCmd) (x : Station) (b : BitVec 3) (row : Nat) (r : Row) (err : Byte) (s : Nat) : HaulCmd :=
  let i := c.srcRead
  let c1 := { c with srcRead := i + 1 }.failed i err
  if c.conv then
    HaulCmd.form 8 { c1 with lanes := c1.lanes ++ (decRow x b c.sfmt false row r).map (·.1) } s err
  else
    let sc := if c.dst.isBank then scaleBytes x b c.sfmt row else []
    { c1 with grans := c1.grans ++
      [{ i := i, data := r, bits := 2048, scales := sc, readyAt := s + 1, sent := false, err := err }] }

/-- One command's port-B read, with the scales it reads beside its row (R111, R304). -/
def State.haulRead (s : State) (d : DieId) (k : Nat) : State :=
  let f := s.fs d
  match f.hauls.find? fun c => c.key == k with
  | none => s
  | some c =>
    match c.src with
    | .far _ => s
    | .bank p b row0 =>
      let row := row0 + c.srcRead
      if c.srcRead < c.started && f.portFreeB s.sidc p b then
        let x := (s.die d).sta p
        let bad := (s.die d).badIn (fun j => .bank p (64 * (128 * b.toNat + row) + j)) 64
        let scs := if c.dst.isBank then (s.die d).scaleBad p b c.sfmt (c.sfmt.rawRow row) row else []
        let err : Byte := if bad.isEmpty && scs.isEmpty then 0 else cUncorr
        let s1 := s.setFs d (f.setHaul (c.readRow (x.poisoned b scs) b row (poison bad (x.bankRow b row)) err s.sidc))
        if err = 0 then s1
        else
          let va := 2 ^ 55 + p.val * 2 ^ 48 + b.toNat * 2 ^ 15 + row * 256
          s1.setDie d ((s1.die d).violate c.pos .l c.parcel (va % 2 ^ 48) cUncorr)
      else s

/-- HAUL_PORT_B_READ (R111, R115). -/
def execHaulPortBRead (d : DieId) (s : State) : Out := .next ((s.fs d).hauls.foldl (fun t c => t.haulRead d c.key) s)

/-- A scale row with the bytes beyond the last block's scale at zero (R79); a haul that names a scale row directly leaves zero
there too (DEDUCED, log 67). -/
def trimScales (f : BankFmt) (bpr row : Nat) (r : Row) : Row :=
  let n := min 256 (f.srow.toNat * bpr - 256 * (row - f.srow.toNat))
  r &&& BitVec.ofNat 2048 (2 ^ (8 * n) - 1)

/-- A bank with one destination row of a haul written, and its scales (R79, R107). -/
def Station.haulPut (x : Station) (b : BitVec 3) (f : BankFmt) (row : Nat) (g : Gran) : Station :=
  let m := BitVec.ofNat 2048 (2 ^ g.bits - 1)
  let v := (x.bankRow b row &&& ~~~m) ||| (g.data &&& m)
  match mxOf f.type with
  | some (_, bpr) =>
    if row < f.srow.toNat then
      g.scales.zipIdx.foldl (fun y e =>
        let sc := f.scaleAt (row * bpr + e.2)
        y.setBankRow b sc.1 (trimScales f bpr sc.1 (putByte (y.bankRow b sc.1) sc.2 e.1.toNat))) (x.setBankRow b row v)
    else x.setBankRow b row (trimScales f bpr row v)
  | none => x.setBankRow b row v

/-- The words of a bank that a destination row of a haul covers, its scales' among them. -/
def haulKeys (b : BitVec 3) (f : BankFmt) (row : Nat) (g : Gran) : List Nat :=
  ((List.range ((g.bits + 31) / 32)).map fun k => 64 * (128 * b.toNat + row) + k) ++
    (if g.scales.isEmpty then [] else (scaleWords f (f.rawRow row) row).map fun k => 64 * 128 * b.toNat + k)

/-- The far writes of a command whose data is ready, in granule order: a landed granule waits for those before it (R87, R108; DEDUCED,
log 94). -/
def FarSide.haulSend (va s : Nat) : Nat → HaulCmd → FarSide → FarSide
  | 0, c, f => f.setHaul c
  | n + 1, c, f =>
    match c.grans.find? fun g => g.i == c.made && decide (g.readyAt ≤ s) with
    | none => f.setHaul c
    | some g =>
      FarSide.haulSend va s n { c with made := c.made + 1, grans := c.grans.map fun k => if k.i = g.i then { k with sent := true } else k }
        { f with seq := f.seq + 1, reqs := f.reqs ++ [c.farReq f.seq g.i va (max (g.readyAt + 1) s) true (.write g.data)] }

/-- One command's port-B write, or its far writes (R108, R111). -/
def State.haulWrite (s : State) (d : DieId) (k : Nat) : State :=
  let f := s.fs d
  match f.hauls.find? fun c => c.key == k with
  | none => s
  | some c =>
    match c.dst with
    | .far va => s.setFs d (f.haulSend va s.sidc c.grans.length c)
    | .bank p b row0 =>
      match c.grans.find? fun g => decide (g.readyAt < s.sidc) with
      | none => s
      | some g =>
        if f.portFreeB s.sidc p b then
          let x := ((s.die d).sta p).haulPut b c.dfmt (row0 + g.i) g
          let d1 := ((s.die d).setSta p x).healKeys p (haulKeys b c.dfmt (row0 + g.i) g)
          let c1 := { c with grans := c.grans.erase g, done := c.done + 1, comp := max c.comp (s.sidc + 2) }
          (s.setFs d (f.setHaul c1)).setDie d d1
        else s

/-- HAUL_PORT_B_WRITE (R81, R111, R115). -/
def execHaulPortBWrite (d : DieId) (s : State) : Out := .next ((s.fs d).hauls.foldl (fun t c => t.haulWrite d c.key) s)

-- ## Completion (R109, R120)

/-- A buffer after one of its writers has completed (R109, R120): full once none is left, whatever its state, if one carried `.af`
and none failed. Where a word of the same cycle moves it too, the completion stands (DESIGN CHOICE, log 98). -/
def Buf.writerDone (b : Buf) (af failed : Bool) : Buf :=
  let b1 := { b with writers := b.writers - 1, af := b.af || af, failed := b.failed || failed }
  if b.writers = 0 then b
  else if b1.writers != 0 then b1
  else
    let b2 := { b1 with af := false, failed := false }
    if b1.af && !b1.failed then b2.move 2 else b2

/-- The master die of a die's team (R242). -/
def State.masterOf (s : State) (d : DieId) : DieId := (s.teamDies d).headD d

/-- An arrival as the master counts it: 0, or bit 8 and the cause of an error arrival. -/
def errArr (c : Byte) : BitVec 9 := if c = 0 then 0 else 1#1 ++ c

/-- An arrival on point `pt` made on die `d` in this cycle; err is 0 or the cause of an error arrival (R242; DESIGN CHOICE,
log 11). -/
def State.arrive (s : State) (d : DieId) (pt : Nat) (err : BitVec 9) : State :=
  let m := s.masterOf d
  let x := s.die m
  let at_ := if m = d then s.sidc else s.pick (s.sidc + hop d m) (s.sidc + hop d m + 4 + s.linkWait d m)
  (s.setDie m { x with msgs := x.msgs ++ [.arrive pt err at_] }).bump

/-- The command's end (R109): its buffers, its arrival, and ASYNC_ERROR where no stream is left to see its failure. -/
def State.haulEnd (s : State) (d : DieId) (c : HaulCmd) : State :=
  let f := s.fs d
  let s1 := s.setFs d { f with hauls := f.hauls.filter (·.key != c.key) }
  let x := c.writes.foldl (fun x e =>
    x.setSta e.1 ((x.sta e.1).setBuf e.2 (((x.sta e.1).bufN e.2).writerDone c.af c.fail.isSome))) (s1.die d)
  let s2 := s1.setDie d x
  let err := match c.fail with | some e => e.2 | none => 0
  match c.pt with
  | none => s2
  | some p =>
    let allRetired := (s2.teamDies d).all fun k => allPos.all fun q => ((s2.die k).sta q).ctx.toList.all (·.retired)
    let mark (t : Team) : Team := if (t.dies.contains d) && t.status == 0 then { t with status := 6, cause := err } else t
    let teams := if err != 0 && allRetired then s2.hub.teams.map mark else s2.hub.teams
    { s2 with hub := { s2.hub with teams := teams } }.arrive d p.toNat (errArr err)

/-- HAUL_COMPLETE (R109). -/
def execHaulComplete (d : DieId) (s : State) : Out :=
  .next ((s.fs d).hauls.foldl (fun t c => if c.done = c.dstN ∧ c.comp ≤ s.sidc then t.haulEnd d c else t) s)

end Sys2Proof.Machine
end

