-- ==== Sys2Proof/Machine/Rendezvous.lean ====
section
/-! DEFINITION. Rendezvous points, FENCE, TRIG and CAIRN (R242 to R250). -/

namespace Sys2Proof.Machine

-- ## The words

/-- A die's copy of a point (R242). -/
def Die.copy (d : Die) (pt : Nat) : RdvCopy := kget {} pt d.copies

/-- A stream's waited phase (R242). -/
def Ctx.waited (c : Ctx) (pt : Nat) : BitVec 16 := kget 0 pt c.wp

/-- RDVI (R243). -/
def execRdvi (pt : BitVec 5) (b : SOp) (s : State) : Out :=
  let d := s.focus.die
  let m := s.masterOf d
  let at_ := if m = d then s.sidc else s.pick (s.sidc + hop d m) (s.sidc + hop d m + 4 + s.linkWait d m)
  let x := s.die m
  .next (s.setDie m { x with msgs := x.msgs ++ [.count pt.toNat (fld (s.sop b) 0 16).toNat at_] }).bump

/-- RDVA (R244): the station's outstanding writes are marked at the end of the issue cycle. -/
def execRdva (pt : BitVec 5) (s : State) : Out := .next (s.later (.release s.focus.pos (some pt) 0 0))

/-- The phases of a point that RDVT has shown to the current stream, with the one it shows in this cycle. -/
def State.testedPhase (s : State) (pt : Nat) (shown : Bool) : State :=
  let f := s.focus
  let l := s.curDie.tested.filter fun e => !(e.pos == f.pos && e.strm == f.strm && e.pt == pt)
  s.updDie fun d => { d with tested := if shown then l ++ [{ pos := f.pos, strm := f.strm, pt := pt, at_ := s.sidc }] else l }

/-- RDVW once its hold condition is met (R22, R245): no read can leave out any more what the phase has released (R258, R264). -/
def execRdvw (pt : BitVec 5) (d : BitVec 3) (s : State) : Out :=
  if s.curDie.xch then raise s .rdvInExchange
  else
    let w := s.curCtx.waited pt.toNat
    let ok := !bit (s.curDie.copy pt.toNat).errh (w.toNat % 16)
    let s1 := (s.updCtx fun c => { c with wp := kput 0 pt.toNat (w + 1) c.wp }).testedPhase pt.toNat false
    .next ({ s1 with olds := s.oldsConsumed s.focus.die pt.toNat }.putPred 2 d ok)

/-- RDVT (R246): a read that it alone guards may return an older value (R264; DEDUCED, log 77). -/
def execRdvt (pt : BitVec 5) (d : BitVec 3) (s : State) : Out :=
  let shown := (s.curDie.copy pt.toNat).ph != s.curCtx.waited pt.toNat
  .next ((s.testedPhase pt.toNat shown).putPred 2 d shown)

/-- FENCE (R248): its set is the station's requests up to the end of the issue cycle. -/
def execFence (set : FSet) (scope : FScope) (s : State) : Out := .next (s.later (.fence s.focus.pos set scope))

/-- TRIG (R249). -/
def execTrig (handle : BitVec 4) (ctr : BitVec 8) (s : State) : Out := .next (s.later (.release s.focus.pos none handle ctr))

/-- A trace record (R315). -/
def traceRec (s : State) (v : BitVec 48) : Four W64 :=
  { x0 := BitVec.ofNat 64 s.sidc, x1 := BitVec.ofNat 64 s.curDie.dcyc,
    x2 := BitVec.ofNat 2 s.focus.die.val ++ BitVec.ofNat 2 s.focus.strm.idx.val ++ BitVec.ofNat 7 s.focus.pos.val ++ 0#5 ++ v,
    x3 := BitVec.ofNat 64 s.hub.trcseq }

/-- CAIRN (R250, R315). -/
def execCairn (v : BitVec 48) (s : State) : Out :=
  let h := s.hub
  if !bit h.trcctl 63 then .next s
  else if h.trcstore.length < 4096 then
    .next { s with hub := { h with trcstore := h.trcstore ++ [traceRec s v], trcseq := h.trcseq + 1 } }
  else .next { s with hub := { h with trclost := h.trclost + 1 } }

-- ## Arrivals and phases (R242 to R244, R247)

/-- A release of a station is due once none of its marks is left. -/
def Release.due (r : Release) : Bool := r.marks.isEmpty

/-- RDVA_ARRIVAL (R244). -/
def execRdvaArrival (d : DieId) (s : State) : Out :=
  .next (allPos.foldl (fun t p =>
    let x := (t.die d).sta p
    let due := x.releases.filter fun r => r.due && r.pt.isSome
    if due.isEmpty then t
    else
      let t1 := t.setDie d ((t.die d).setSta p { x with releases := x.releases.filter fun r => !(r.due && r.pt.isSome) })
      due.foldl (fun u r => match r.pt with | some q => u.arrive d q.toNat (errArr r.err) | none => u) t1) s)

/-- TRIG_RELEASE (R249). -/
def execTrigRelease (d : DieId) (s : State) : Out :=
  .next (allPos.foldl (fun t p =>
    let x := (t.die d).sta p
    let due := x.releases.filter fun r => r.due && r.pt.isNone
    if due.isEmpty then t
    else
      let t1 := t.setDie d ((t.die d).setSta p { x with releases := x.releases.filter fun r => !(r.due && r.pt.isNone) })
      let new := due.map fun r => { team := (t.die d).team, handle := r.handle, ctr := r.ctr : TrigMsg }
      { t1 with hub := { t1.hub with trigs := t1.hub.trigs ++ new } }) s)

/-- A message whose cycle has come. -/
def RdvMsg.dueAt (m : RdvMsg) (s : Nat) : Bool :=
  match m with
  | .arrive _ _ t | .count _ _ t | .phase _ _ _ _ t => decide (t ≤ s)

def RdvMsg.isCount (m : RdvMsg) : Bool := match m with | .count .. => true | _ => false
def RdvMsg.isArrive (m : RdvMsg) : Bool := match m with | .arrive .. => true | _ => false
def RdvMsg.isPhase (m : RdvMsg) : Bool := match m with | .phase .. => true | _ => false

/-- RDVI_APPLY on the master die (R243). -/
def execRdviApply (d : DieId) (s : State) : Out :=
  let x := s.die d
  let due := x.msgs.filter fun m => m.isCount && m.dueAt s.sidc
  let masters := due.foldl (fun k m =>
    match m with
    | .count pt n _ =>
      let r := kget {} pt k
      if r.exp = 0 ∧ n ≠ 0 then kput {} pt { r with exp := n } k else k
    | _ => k) x.masters
  .next (s.setDie d { x with masters := masters, msgs := x.msgs.filter fun m => !(m.isCount && m.dueAt s.sidc) })

/-- The first error of some arrivals, 0 for none. -/
def firstErr (l : List (BitVec 9)) : BitVec 9 := (l.find? (· != 0)).getD 0

/-- A completed phase (R242). -/
def RdvMaster.complete (r : RdvMaster) : RdvMaster × BitVec 9 :=
  let e := firstErr (r.arr.take r.exp)
  let b := BitVec.ofNat 16 (2 ^ (r.ph.toNat % 16))
  ({ r with arr := r.arr.drop r.exp, ph := r.ph + 1, errh := if e = 0 then r.errh &&& ~~~b else r.errh ||| b }, e)

/-- The latest cycle in which a die already is to show a phase of a point. -/
def Die.lastPhase (d : Die) (pt : Nat) : Nat :=
  d.msgs.foldl (fun n m => match m with | .phase p _ _ _ t => if p = pt then max n t else n | _ => n) 0

/-- A completed phase goes to the copies of the team's dies (R242). -/
def State.sendPhase (s : State) (m : DieId) (pt : Nat) (r : RdvMaster) (err : BitVec 9) : State :=
  (s.teamDies m).foldl (fun t d =>
    let x := t.die d
    let at_ := if d = m then t.sidc + 1
      else max (x.lastPhase pt) (t.pick (t.sidc + hop m d) (t.sidc + hop m d + 4 + t.linkWait m d))
    (t.setDie d { x with msgs := x.msgs ++ [.phase pt r.ph r.errh err at_] }).bump) s

/-- A point's phase completes at the end of a cycle in which ARR ≥ EXP ≥ 1 (R242). -/
def State.tryPhase (s : State) (m : DieId) (pt : Nat) : State :=
  let x := s.die m
  let r := kget {} pt x.masters
  if r.exp = 0 ∨ r.arr.length < r.exp then s
  else
    let c := r.complete
    (s.setDie m { x with masters := kput {} pt c.1 x.masters }).sendPhase m pt c.1 c.2

/-- ARRIVAL_COUNT on the master die (R242; DESIGN CHOICE, log 11). -/
def execArrivalCount (d : DieId) (s : State) : Out :=
  let x := s.die d
  let due := x.msgs.filter fun m => m.isArrive && m.dueAt s.sidc
  let masters := due.foldl (fun k m =>
    match m with
    | .arrive pt e _ => let r := kget {} pt k; kput {} pt { r with arr := r.arr ++ [e] } k
    | _ => k) x.masters
  let s1 := s.setDie d { x with masters := masters, msgs := x.msgs.filter fun m => !(m.isArrive && m.dueAt s.sidc) }
  .next (masters.foldl (fun t e => t.tryPhase d e.1) s1)

/-- A copy shows a phase (R242, R247). -/
def Die.showPhase (d : Die) (s pt : Nat) (ph errh : BitVec 16) (err : BitVec 9) : Die :=
  let d1 := { d with copies := kput {} pt { ph := ph, errh := errh } d.copies }
  if err = 0 then d1
  else { d1 with rdverr := 0#48 ++ 1#1 ++ 0#2 ++ BitVec.ofNat 5 pt ++ err.setWidth 8, rdverrAt := s + 1 }

/-- PHASE_PROPAGATE (R242, R247). -/
def execPhasePropagate (d : DieId) (s : State) : Out :=
  let x := s.die d
  let due := x.msgs.filter fun m => m.isPhase && m.dueAt s.sidc
  let x1 := { x with msgs := x.msgs.filter fun m => !(m.isPhase && m.dueAt s.sidc) }
  .next (s.setDie d (due.foldl (fun x m =>
    match m with
    | .phase pt ph errh err _ => x.showPhase s.sidc pt ph errh err
    | _ => x) x1))

end Sys2Proof.Machine
end

