-- ==== Sys2Proof/Machine/Csr.lean ====
section
/-! DEFINITION. The special registers: CSRR, CSRW and what a write does at the end of its cycle (R17, R73, R94 to R96, R133,
R164, R181, R211, R222, R247, R251, R290, R291). -/

namespace Sys2Proof.Machine

/-- ROTD as read (R133). -/
def rotdWord (r : Rotd) : W64 := 0#43 ++ BitVec.ofNat 5 r.pd ++ 0#4 ++ BitVec.ofNat 4 r.rb ++ 0#3 ++ BitVec.ofNat 5 r.d

/-- ROTD as a CSRW leaves it (R133). -/
def rotdOf (v : W64) : Rotd :=
  let d := min 16 (fld v 0 5).toNat
  { pd := min 16 (fld v 16 5).toNat, rb := if d = 0 then 0 else (fld v 8 4).toNat % d, d := d }

/-- NOISE as read (R164). -/
def noiseWord (n : Noise) : W64 := n.seed ++ 0#30 ++ n.mode

/-- HSTA as read (R290). -/
def hstaWord (h : Hsta) (hmode : Bool) : W64 :=
  b1 h.den ++ 0#11 ++ h.dcls ++ h.entry ++ h.svst ++ b1 hmode ++ b1 h.nest ++ b1 h.fbad ++ 0#8 ++ BitVec.ofNat 7 h.pos.val

/-- HSTA after a CSRW: DEN, DCLS, ENTRY and POS are written, and a written FBAD of 0 clears FBAD (R290). -/
def hstaWrite (h : Hsta) (v : W64) : Hsta :=
  { h with den := bit v 63, dcls := fld v 42 10, entry := fld v 26 16, fbad := h.fbad && bit v 15,
           pos := Fin.ofNat 128 (fld v 0 7).toNat }

/-- The CSRs of a die as one of its stations reads them (R251; DESIGN CHOICE, log 1). -/
def State.csrRead (s : State) (d : DieId) (p : Pos) (n : Nat) : W64 :=
  let x := s.die d
  let y := x.sta p
  match n with
  | 0x000 => BitVec.ofNat 64 s.sidc
  | 0x001 => BitVec.ofNat 64 x.dcyc
  | 0x002 => BitVec.ofNat 64 d.val
  | 0x003 => BitVec.ofNat 64 p.val
  | 0x004 => x.team.setWidth 64
  | 0x008 => BitVec.ofNat 64 (x.holdcnt % 2 ^ 32)
  | 0x009 => x.holdmax.setWidth 64
  | 0x020 => rotdWord y.rotd
  | 0x021 => y.fpctl
  | 0x022 => noiseWord y.noise
  | 0x030 => x.atrap
  | 0x031 => BitVec.ofNat 64 x.nancnt
  | 0x032 => x.astat
  | 0x040 => y.locreq
  | 0x041 => y.remreq
  | 0x058 => x.viotrap
  | 0x060 => x.rdverr
  | 0x070 => hstaWord x.hsta (x.cond == .handler)
  | 0x071 => x.trapcause
  | 0x072 => x.trappos
  | _ =>
    if 0x010 ≤ n ∧ n ≤ 0x015 then BitVec.ofNat 64 (Config.lattab (n - 0x010))
    else if 0x048 ≤ n ∧ n ≤ 0x057 then kget 0 (n - 0x048) x.violog
    else if 0x080 ≤ n ∧ n ≤ 0x083 then kget 0 (n - 0x080) y.scslot
    else if 0x090 ≤ n ∧ n ≤ 0x095 then (s.link (n - 0x090)).laneDir s.sidc
    else 0

/-- CSRR (R49, R251). -/
def execCsrr (d : CsrReg) (n : BitVec 12) (s : State) : Out :=
  let v := s.csrRead s.focus.die s.focus.pos n.toNat
  match d with
  | .s (.reg r) => .next (s.putScal 2 r v)
  | .s (.ts _) => raise s .reservedReg
  | .v r =>
    match s.vphys r with
    | .error sub => raiseDead s sub
    | .ok ph => .next (s.putWrite 2 (r.setWidth 8) (.v ph 0 allLanes (v.setWidth 2048)))

/-- CSRW (R49, R251): the write comes at the end of the cycle. -/
def execCsrw (a : CsrReg) (n : BitVec 12) (s : State) : Out :=
  match a with
  | .s x => .next (s.later (.csr s.focus.pos n (s.scal x)))
  | .v r =>
    match s.vphys r with
    | .error sub => raiseDead s sub
    | .ok ph =>
      let row := s.vread ph 0
      .next ((s.raiseBad row.2).later (.csr s.focus.pos n (row.1.setWidth 64)))

-- ## Writes at the end of the cycle

/-- A CSRW of `v` to NOISE of a station takes effect (R164). -/
def State.noiseWrite (s : State) (d : DieId) (p : Pos) (v : W64) : State :=
  let x := (s.die d).sta p
  (s.setDie d ((s.die d).setSta p { x with noise := x.noise.write v ((s.freeW 0).setWidth 32) })).bump

/-- A new ROTD, with the registers that it makes dead at the end of die cycle `t` (R133). -/
def Station.setRotd (x : Station) (r : Rotd) (t : Nat) : Station :=
  { x with rotd := r, died := (List.range (x.rotd.d - r.d)).foldl (fun m k => kput 0 (16 + r.d + k) (t + 1) m) x.died }

/-- A CSRW of `v` to ROTD of a station takes effect (R133). -/
def State.rotdWrite (s : State) (d : DieId) (p : Pos) (v : W64) : State :=
  s.setDie d ((s.die d).setSta p (((s.die d).sta p).setRotd (rotdOf v) (s.die d).dcyc))

/-- A CSRW takes effect; numbers outside the map and read-only CSRs are left unchanged (R17, R251). -/
def State.csrWrite (s : State) (d : DieId) (p : Pos) (n : Nat) (v : W64) : State :=
  let x := s.die d
  let sta (y : Station) : State := s.setDie d (x.setSta p y)
  match n with
  | 0x009 => s.setDie d { x with holdmax := v.setWidth 32 }
  | 0x020 => s.rotdWrite d p v
  | 0x021 => sta { x.sta p with fpctl := v &&& fpctlMask }
  | 0x022 => s.noiseWrite d p v
  | 0x030 => s.setDie d { x with atrap := v &&& 3 }
  | 0x031 => s.setDie d { x with nancnt := (v.setWidth 32 : W32).toNat }
  | 0x032 => s.setDie d { x with astat := v &&& 0x03FF03FF00000713 }
  | 0x040 => sta { x.sta p with locreq := v }
  | 0x041 => sta { x.sta p with remreq := v }
  | 0x058 => s.setDie d { x with viotrap := v &&& 0xFFFF000000000F03 }
  | 0x060 => if x.rdverrAt = s.sidc + 1 then s else s.setDie d { x with rdverr := v &&& 0x9FFF }
  | 0x070 => s.setDie d { x with hsta := hstaWrite x.hsta v }
  | _ =>
    if 0x048 ≤ n ∧ n ≤ 0x057 then s.setDie d { x with violog := kput 0 (n - 0x048) v x.violog } else s

/-- NOISE_OFF (R164). -/
def execNoiseOff (d : DieId) (p : Pos) (s : State) : Out := .next (s.noiseWrite d p 0)

/-- NOISE_LIVE (R164). -/
def execNoiseLive (d : DieId) (p : Pos) (s : State) : Out := .next (s.noiseWrite d p 1)

/-- NOISE_LOG (R164). -/
def execNoiseLog (d : DieId) (p : Pos) (s : State) : Out := .next (s.noiseWrite d p 2)

/-- NOISE_REPLAY (R164). -/
def execNoiseReplay (d : DieId) (p : Pos) (seed : W32) (s : State) : Out := .next (s.noiseWrite d p (seed ++ 3#32))

/-- ROTD_WRITE (R133). -/
def execRotdWrite (d : DieId) (p : Pos) (v : W64) (s : State) : Out := .next (s.rotdWrite d p v)

end Sys2Proof.Machine
end

