-- ==== Sys2Proof/Machine/Land.lean ====
section
/-! DEFINITION. Register writes landing (R73, R74, R128, R129, R133) and the advance of the edge pointers (R173). -/

namespace Sys2Proof.Machine

-- ## Units and landing

/-- Two writes name one register unit (R129). -/
def WTarget.sameUnit : WTarget → WTarget → Bool
  | .s n .., .s k .. => n == k
  | .a t n .., .a u k .. => t == u && n == k
  | .v p r .., .v o u .. => p == o && r == u
  | .m n .., .m k .. => n == k
  | .q t n .., .q u k .. => t == u && n == k
  | .e n .., .e k .. => n == k
  | _, _ => false

/-- The write goes to s0, a0, m0 or q0: it is discarded in its landing cycle and clashes with nothing (R128). -/
def WTarget.null : WTarget → Bool
  | .s n _ => n == 0
  | .a _ n _ => n == 0
  | .m n .. => n == 0
  | .q _ n _ => n == 0
  | _ => false

/-- A predicate written; q0 reads 1 and is never a target (R231). -/
def Ctx.setPred (c : Ctx) (n : BitVec 3) (v : Bool) : Ctx := { c with q := setFld c.q n.toNat 1 (if v then 1 else 0) }

/-- One write takes effect in its station; a write to s0, a0, m0 or q0 is discarded (R128). -/
def Station.land (x : Station) (w : WTarget) : Station :=
  if w.null then x
  else match w with
  | .s n v => { x with s := kput 0 n.toNat v x.s }
  | .a st n v => if st = .l then { x with aL := kput 0 n.toNat v x.aL } else { x with aS := kput 0 n.toNat v x.aS }
  | .v p r lanes data =>
    { x with v := kput 0 (16 * p.toNat + r.toNat) (mergeLanes lanes (x.vrow p r.toNat) data) x.v }
  | .m n sel v => { x with m := kput 0 n.toNat ((kget 0 n.toNat x.m &&& ~~~sel) ||| (v &&& sel)) x.m }
  | .q st n v => x.setCtx st ((x.ctxOf st).setPred n v)
  | .e n v => { x with e := kput 0 n.toNat v x.e }
  | .gone => x

/-- The storage that a write covers holds no error any more (DESIGN CHOICE, log 17). -/
def Die.healWrite (d : Die) (p : Pos) : WTarget → Die
  | .v ph r _ _ => d.heal (fun k => .vreg p (64 * (16 * ph.toNat + r.toNat) + k)) 64
  | .m n _ _ => d.heal (fun k => .mask p (32 * n.toNat + k)) 32
  | _ => d

/-- The write goes to a register of the rotating region that is dead now, or has become dead since the word issued, live again or
not (R133). -/
def Station.deadWrite (x : Station) (w : WriteRec) : Bool :=
  match w.target with
  | .v ph _ _ _ => decide (16 + x.rotd.d ≤ ph.toNat) || decide (w.issued < kget 0 ph.toNat x.died)
  | _ => false

/-- The word that WRITE_CLASH names: the one issued later, then the first in the order C, L, S, X (R129); of two of one stream and cycle,
which two stations issue, the first of the list, at the lower ring position (DESIGN CHOICE, log 95). -/
def writeNamed (a : WriteRec) : List WriteRec → WriteRec
  | [] => a
  | b :: t =>
    let w := writeNamed a t
    if b.issued > w.issued || (b.issued == w.issued && b.strm.idx < w.strm.idx) then b else w

/-- The writes of a list that share their unit with another of it. -/
def clashing (l : List WriteRec) : List WriteRec :=
  l.filter fun w => !w.target.null && decide ((l.filter fun v => w.target.sameUnit v.target).length > 1)

/-- WRITE_CLASH once for each unit on which writes of `l` clash (R129). -/
def Die.raiseClashes (d : Die) (l : List WriteRec) : Die :=
  (l.foldl (fun (acc : Die × List WriteRec) w =>
    if acc.2.any fun v => v.target.sameUnit w.target then acc
    else
      let n := writeNamed w (l.filter fun v => w.target.sameUnit v.target)
      (acc.1.raiseAt 3 0 .writeClash 0 n.by_ n.strm n.parcel, w :: acc.2)) (d, [])).1

/-- The writes `due` of station `p` land: those to dead registers are discarded with OUT_OF_ALLOTMENT, those that clash stay,
the others take effect (R128, R129, R133). -/
def Die.landAll (d : Die) (p : Pos) (due rest : List WriteRec) : Die :=
  let dead := due.filter (d.sta p).deadWrite
  let live := due.filter fun w => !(d.sta p).deadWrite w
  let clash := clashing live
  let good := live.filter fun w => !clash.contains w
  let x := good.foldl (fun x w => x.land w.target) { d.sta p with writes := rest ++ clash }
  let d1 := good.foldl (fun d w => d.healWrite p w.target) (d.setSta p x)
  let d2 := dead.foldl (fun d w => d.raiseAt 3 0 .outOfAllotment 2 w.by_ w.strm w.parcel) d1
  d2.raiseClashes clash

/-- The words behind some flag records, each once, with the events they met. -/
def flagWords (l : List FlagRec) : List FlagRec :=
  l.foldl (fun acc f =>
    match acc.find? fun g => g.strm == f.strm && g.parcel == f.parcel && g.issued == f.issued with
    | some g => acc.map fun h => if h = g then { g with bits := g.bits ||| f.bits } else h
    | none => acc ++ [f]) []

/-- The events that words of station `p` meet in this landing cycle (R73, R74). -/
def Die.landFlags (d : Die) (p : Pos) (t : Nat) : Die :=
  let x := d.sta p
  let due := flagWords (x.flags.filter fun f => f.land == t)
  if due.isEmpty then d
  else
    let d1 := d.setSta p { x with flags := x.flags.filter fun f => f.land != t }
    let bits := due.foldl (fun b f => b ||| f.bits) 0
    let d2 := { d1 with eoc := d1.eoc ++ [.flags p bits] }
    due.foldl (fun d f =>
      if f.strm != .x then d
      else match fpctlCause x.fpctl (flagsOf f.bits) with
        | some c => d.raiseAt 3 0 c 0 p .x f.parcel
        | none => d) d2

/-- What lands in station `p` in die cycle `t`. -/
def Die.landSta (d : Die) (p : Pos) (t : Nat) : Die :=
  let x := d.sta p
  let due := x.writes.filter fun w => w.land == t
  let d1 := if due.isEmpty then d else d.landAll p due (x.writes.filter fun w => w.land != t)
  d1.landFlags p t

/-- WRITE_LAND (R73, R74, R128, R129, R133; DEDUCED, log 14). -/
def execWriteLand (d : DieId) (s : State) : Out :=
  let x := s.die d
  .next (s.setDie d (allPos.foldl (fun x p => x.landSta p x.dcyc) x))

/-- The advances of an edge pointer by the array that land in cycle `t` with no other write to the same pointer. -/
def Station.advances (x : Station) (t : Nat) : List WriteRec :=
  let due := x.writes.filter fun w => w.land == t
  (due.filter fun w => w.strm == .c && match w.target with | .e .. => true | _ => false).filter fun w =>
    (due.filter fun v => w.target.sameUnit v.target).length == 1

/-- EDGE_POINTER_ADVANCE (R129, R173): an advance that meets another write to its pointer is left to WRITE_LAND. -/
def execEdgePointerAdvance (d : DieId) (s : State) : Out :=
  let x := s.die d
  .next (s.setDie d (allPos.foldl (fun x p =>
    let y := x.sta p
    let adv := y.advances x.dcyc
    if adv.isEmpty then x
    else x.setSta p (adv.foldl (fun y w => y.land w.target) { y with writes := y.writes.filter fun w => !adv.contains w })) x))

/-- The die as the words of its current cycle will read it: the landings of the cycle done (R128). -/
def Die.landed (d : Die) : Die := allPos.foldl (fun x p => x.landSta p x.dcyc) d

-- ## Writes of a handler context (R293)

/-- The writes of a handler context that land in sidereal cycle `t`; of two to one register neither takes effect (R129). -/
def Die.landHandler (d : Die) (t : Nat) : Die :=
  let due := d.hwrites.filter fun w => w.land == t
  if due.isEmpty then d
  else
    let clash := clashing due
    let good := due.filter fun w => !clash.contains w
    let x := good.foldl (fun x w => x.land w.target) (d.sta d.hpos)
    { (d.setSta d.hpos x) with hwrites := d.hwrites.filter fun w => w.land != t }.raiseClashes clash

end Sys2Proof.Machine
end

