-- ==== Sys2Proof/Machine/Issue.lean ====
section
/-! DEFINITION. Section headers, the issue of a word, holds, and the start of a die cycle (R18 to R24, R44, R45, R51, R52, R62,
R238, R241, R280, R294, R305). -/

namespace Sys2Proof.Machine

-- ## Reading a word (R62, R294)

/-- OPC of a word. -/
def wordOpc (w : W96) : Byte := (fieldsOf w).opc

/-- Opcodes that only a handler context may issue (R294). -/
def handlerOnly (opc : Byte) : Bool := decide (0x59 ≤ opc) && decide (opc ≤ 0x5D)

/-- Opcodes that a handler context may issue (R294). -/
def handlerMay (opc : Byte) : Bool :=
  (decide (opc ≤ 0x0E) && opc != 0x07 && opc != 0x08) ||
    (decide (0x20 ≤ opc) && decide (opc ≤ 0x3D) && opc != 0x24 && opc != 0x25) || handlerOnly opc

/-- The instruction of a word, or the first encoding check it fails; the handler's restriction stands with check 2 (R62,
R294; DEDUCED, log 35). -/
def readWord (handler : Bool) (st : Strm) (w : W96) : Except Cause Instr :=
  match decodeWord st w with
  | .error .illegalOpc => .error .illegalOpc
  | r => if (if handler then !handlerMay (wordOpc w) else handlerOnly (wordOpc w)) then .error .wrongStream else r

/-- A word's guard reads 1: GRD[2:0] names a predicate, GRD[3] inverts it (R45, R232). -/
def guardOn (c : Ctx) (w : W96) : Bool := c.pred ((wordGrd w).setWidth 3) != bit (wordGrd w) 3

/-- The dependence assertions of a section hold (R52). -/
def depsOk (x : Station) (k : Section) : Bool :=
  Strm.all.all fun st =>
    let n := k.deps.get st.idx
    n == 0xFF || ((x.ctxOf st).rsec != 0xFF && decide (n ≤ (x.ctxOf st).rsec))

/-- One of the `n` parcels at `q` of the active plane has an uncorrectable error (R305). -/
def Die.imemBad (d : Die) (p : Pos) (q : Parcel) (n : Nat) : Bool :=
  !d.bad.isEmpty && (List.range n).any fun k => d.bad.contains (.plane p ((q.toNat + k) % 65536))

-- ## The loop buffer (R55, R304)

/-- The place in the stream's loop buffer of the word at `q`: in a section with LBF = 1 and at most 64 words, its number there. -/
def Ctx.lbPlace (c : Ctx) (q : Parcel) : Option Nat :=
  match c.sect with
  | some k => if k.lbf && decide (k.len.toNat ≤ 64) && k.has q.toNat then some ((q.toNat - k.first) / 6) else none
  | none => none

/-- The word that the stream's loop buffer holds for parcel `q`, and its place. -/
def Ctx.lbWord (c : Ctx) (q : Parcel) : Option (Nat × W96) :=
  match c.lbPlace q with
  | some n => (kget none n c.lbuf).map fun w => (n, w)
  | none => none

/-- A word with 0xFFFF_FFFF in each bad 32-bit part (R304). -/
def poison96 (bad : List Nat) (w : W96) : W96 := bad.foldl (fun w j => setFld w (32 * j) 32 0xFFFFFFFF) w

/-- What a stream fetches for the word at `q`: the word, whether a parcel of the active plane that it reads is bad (R305), and
the bad parts of a word that it reads from its loop buffer (R55, R304). -/
def Die.fetch (d : Die) (p : Pos) (st : Strm) (q : Parcel) : W96 × Bool × List Nat :=
  let x := d.sta p
  match (x.ctxOf st).lbWord q with
  | some (n, w) =>
    let bad := d.badIn (fun j => .lbuf p st (3 * n + j)) 3
    (poison96 bad w, false, bad)
  | none => (x.wordAt q, d.imemBad p q 6, [])

/-- The issuing word is copied into its stream's loop buffer, where its section runs from it (R55). -/
def Ctx.keep (c : Ctx) (q : Parcel) (w : W96) : Ctx :=
  match c.lbPlace q, c.lbWord q with
  | some n, none => { c with lbuf := kput none n (some w) c.lbuf }
  | _, _ => c

/-- The copy leaves no error at its place. -/
def State.lbKeep (s : State) (w : W96) : State :=
  match s.curCtx.lbPlace s.focus.parcel, s.curCtx.lbWord s.focus.parcel with
  | some n, none =>
    (s.updCtx fun c => c.keep s.focus.parcel w).updDie fun d => d.heal (fun j => .lbuf s.focus.pos s.focus.strm (3 * n + j)) 3
  | _, _ => s

-- ## Issue (R44, R45, R52, R62, R238)

/-- The word of a stream that is about to issue. -/
def State.focusOn (s : State) (d : DieId) (p : Pos) (st : Strm) (q : Parcel) (handler replay : Bool) : State :=
  { s with focus := { die := d, pos := p, strm := st, parcel := q, handler := handler, replay := replay } }

/-- What follows a meaning that has answered a next state. -/
def andThen (o : Out) (f : State → State) : Out :=
  match o with
  | .next s => .next (f s)
  | .fault e => .fault e
  | .refused r => .refused r

/-- The section whose assertions the word at `q` judges: it is the first word of a section that has just been entered (R52). -/
def Ctx.judged (c : Ctx) (q : Parcel) : Option Section := if c.entering then c.sect.filter fun k => k.first == q.toNat else none

/-- The section whose assertions the issuing word judges: on entering it, or in the replay of the first word that failed them (R52,
R297). -/
def State.judges (s : State) : Option Section :=
  let c := s.curCtx
  if s.focus.replay then
    (if c.latch.cause = 0x09 then c.sect.filter fun k => k.first == s.focus.parcel.toNat else none)
  else c.judged s.focus.parcel

/-- After a word: the stream moves on, and a loop entry popped takes a snapshot of the hold matrix (R44, R238, R312;
DEDUCED, log 47). -/
def State.moveOn (old : Nat) (s : State) : State :=
  let s1 := s.advance
  if !s.focus.handler && s1.curCtx.loops.length < old then s1.later (.snap s.focus.pos) else s1

/-- A parcel that the stream of the focus fetches is bad: the cause of its station, which no issue latch takes (R289, R297,
R305). -/
def State.imemTrap (s : State) : State :=
  s.updDie fun d => d.raiseAt 1 0 .imemUncorrectable 0 s.focus.pos s.focus.strm s.focus.parcel

/-- The word that the focus names issues: its fetch, its encoding checks, its section's assertions, its guard, its meaning, and the move
to the next word (R44, R45, R52, R55, R62, R305). A first word judges its section's assertions whatever its guard reads (DEDUCED,
log 84). -/
def issueWord (run : Instr → State → Out) (s : State) : Out :=
  let f := s.curDie.fetch s.focus.pos s.focus.strm s.focus.parcel
  let w := f.1
  let n := s.curCtx.loops.length
  if f.2.1 then .next s.imemTrap
  else
    let s1 := ((s.raiseBad f.2.2).lbKeep w).updCtx fun c => { c with entering := false }
    match readWord s.focus.handler s.focus.strm w with
    | .error e => .next ((s1.trap e).moveOn n)
    | .ok i =>
      if s.judges.any fun k => !depsOk s.curSta k then .next ((s1.trap .sectionOrder).moveOn n)
      else if guardOn s.curCtx w then andThen (run i s1) (State.moveOn n)
      else
        match i with
        | .loop _ _ off => andThen (loopSkip off s1) (State.moveOn n)
        | _ => .next (s1.moveOn n)

/-- The word of a stream that is due in the die cycle issues (DEDUCED, log 41). -/
def issueTask (run : Instr → State → Out) (d : DieId) (p : Pos) (st : Strm) (s : State) : Out :=
  match (((s.die d).sta p).ctxOf st).next with
  | .word q a => if a ≤ (s.die d).dcyc then issueWord run (s.focusOn d p st q false false) else .next s
  | _ => .next s

-- ## Section headers (R51)

/-- A stream whose header cycle is `t` reads its header: a bad one raises BAD_HEADER, and the stream's next-word state still
names it; a good one opens its section, with an empty loop buffer (R44, R51, R52, R55). A parcel of it with an uncorrectable
error raises IMEM_UNCORRECTABLE (R305; DEDUCED, log 66). -/
def State.readHeader (s : State) (d : DieId) (p : Pos) (st : Strm) (t : Nat) (handler : Bool) : State :=
  let x := (s.die d).sta p
  match (x.ctxOf st).next with
  | .hdr q a wait =>
    if t < a then s
    else if (s.die d).imemBad p q 4 then (s.focusOn d p st q handler false).imemTrap
    else if hdrBad (x.hdrAt q) q then (s.focusOn d p st q handler false).trap .badHeader
    else
      let c := { x.ctxOf st with sect := some (sectionOf st (x.hdrAt q) q), entering := !handler, lbuf := [],
                                 next := .word (q + 4) (t + wait + x.dlyAt (q + 4)) }
      s.setDie d ((s.die d).setSta p (x.setCtx st c))
  | _ => s

/-- SECTION_HEADER (R51). -/
def execSectionHeader (d : DieId) (p : Pos) (st : Strm) (s : State) : Out :=
  .next (s.readHeader d p st (s.die d).dcyc false)

-- ## Exchange and holds (R18 to R23, R280)

/-- A stream stands in an exchange section in die cycle `t` (R22). -/
def Station.standsXch (x : Station) (st : Strm) (t : Nat) : Bool :=
  match (x.ctxOf st).next with
  | .off => false
  | .word .. => match (x.ctxOf st).sect with | some k => k.xch | none => false
  | .hdr q a _ => decide (a ≤ t) && !hdrBad (x.hdrAt q) q && bit (x.hdrAt q) 57

/-- The die is in exchange in its current cycle (R22). -/
def Die.inExchange (d : Die) : Bool := allPos.any fun p => Strm.all.any fun st => (d.sta p).standsXch st d.dcyc

/-- The causes of a hold (R18). -/
inductive WaitKind where
  | vlt | gdr | rmt | rdv | gov
  deriving DecidableEq, Repr

/-- A word whose hold condition is unmet. -/
structure Wait where
  pos : Pos
  strm : Strm
  parcel : Parcel
  kind : WaitKind
  deriving DecidableEq, Repr

/-- The word that a stream issues in die cycle `t`, and the section whose assertions it judges. -/
def Station.wordDue (x : Station) (st : Strm) (t : Nat) : Option (Parcel × Option Section) :=
  let c := x.ctxOf st
  match c.next with
  | .off => none
  | .word q a => if a ≤ t then some (q, c.judged q) else none
  | .hdr q a wait =>
    if a ≤ t ∧ wait = 0 ∧ x.dlyAt (q + 4) = 0 ∧ !hdrBad (x.hdrAt q) q then some (q + 4, some (sectionOf st (x.hdrAt q) q))
    else none

/-- The hold cause of a far queue whose head row is absent (R18); a head whose translation has failed has no home (DEDUCED, log 83). -/
def headKind (d : DieId) (h : FqSlot) : WaitKind :=
  match h.home with
  | none => .rmt
  | some k => if k != d then .rmt else if dlaVault h.dla then .vlt else .gdr

/-- The unmet hold condition of an instruction about to issue (R18, R245, R280). -/
def State.waitKind (s : State) (i : Instr) : Option WaitKind :=
  match i with
  | .fqpop _ q =>
    match s.curSta.fqOf q with
    | [] => none
    | h :: _ => if h.data.isNone then some (headKind s.focus.die h) else none
  | .rdvw pt _ => if (s.curDie.copy pt.toNat).ph = s.curCtx.waited pt.toNat then some .rdv else none
  | .admitWork k _ m =>
    let n := s.admitCount m
    if n.1 ≠ 0 ∧ (s.curDie.admitCause s.cyc k n.1 n.2 s.focus.pos).isNone ∧ s.curDie.idleArray s.cyc ∧
        rampNear s.hub.ramps (rampDelta s.hub.didtlim) s.sidc then some .gov
    else none
  | _ => none

/-- The word that a stream issues in this cycle, with its instruction, if it acts: it can be fetched and read, its section's
assertions hold and its guard reads 1 (R45, R52, R62, R305). -/
def State.actsOf (s : State) (d : DieId) (p : Pos) (st : Strm) : Option (Pos × Strm × Parcel × Instr) :=
  let x := (s.die d).sta p
  match x.wordDue st (s.die d).dcyc with
  | none => none
  | some (q, k) =>
    let f := (s.die d).fetch p st q
    let opens := (match (x.ctxOf st).next with | .hdr h .. => (s.die d).imemBad p h 4 | _ => false)
    if f.2.1 || opens then none
    else
      match readWord false st f.1 with
      | .error _ => none
      | .ok i => if guardOn (x.ctxOf st) f.1 && !(k.any fun k => !depsOk x k) then some (p, st, q, i) else none

/-- Acting words without the ADMITs that issue behind another of their kind in one cycle, which fail with ADMIT_CLASH (R190, R280). -/
def admitFirst (seen : List FKind) : List (Pos × Strm × Parcel × Instr) → List (Pos × Strm × Parcel × Instr)
  | [] => []
  | (p, st, q, i) :: t =>
    match i with
    | .admitWork k _ _ => if seen.contains k then admitFirst seen t else (p, st, q, i) :: admitFirst (k :: seen) t
    | _ => (p, st, q, i) :: admitFirst seen t

/-- The acting words of a die cycle by position and stream, without the ADMITs that another of their kind makes fail. -/
def State.acting (s : State) (d : DieId) : List (Pos × Strm × Parcel × Instr) :=
  admitFirst [] (allPos.flatMap fun p => Strm.all.filterMap fun st => s.actsOf d p st)

/-- The words of a die cycle whose hold condition is unmet, by position and stream; none in exchange (R18, R22). -/
def State.waits (s : State) (d : DieId) : List Wait :=
  if (s.die d).xch then []
  else
    let t := s.setDie d (s.die d).landed
    (t.acting d).filterMap fun w =>
      ((t.focusOn d w.1 w.2.1 w.2.2.1 false false).waitKind w.2.2.2).map fun k =>
        { pos := w.1, strm := w.2.1, parcel := w.2.2.1, kind := k }

/-- A 32-bit count, saturating. -/
def inc32 (x : W32) : W32 := if x = BitVec.allOnes 32 then x else x + 1

/-- One held cycle charged to a cause (R20, R312). -/
def HoldRec.charge (h : HoldRec) : WaitKind → HoldRec
  | .vlt => { h with vlt := inc32 h.vlt }
  | .gdr => { h with gdr := inc32 h.gdr }
  | .rmt => { h with rmt := inc32 h.rmt }
  | .rdv => { h with rdv := inc32 h.rdv }
  | .gov => { h with gov := inc32 h.gov }

/-- One held cycle in the telemetry of a die (R311). -/
def Tele.charge (t : Tele) : WaitKind → Tele
  | .vlt => { t with vlt := t.vlt + 1 }
  | .gdr => { t with gdr := t.gdr + 1 }
  | .rmt => { t with rmt := t.rmt + 1 }
  | .rdv => { t with rdv := t.rdv + 1 }
  | .gov => { t with gov := t.gov + 1 }

/-- A held cycle (R18, R20): HOLDCNT, the hold matrix and telemetry. -/
def Die.hold (d : Die) (ws : List Wait) : Die :=
  let pairs := (ws.map fun w => (w.pos, w.kind)).eraseDups
  let kinds := (ws.map (·.kind)).eraseDups
  let d1 := { d with cond := .held, holdcnt := if d.cond = .held then d.holdcnt + 1 else 1, holds := d.holds + 1,
                     tele := kinds.foldl Tele.charge d.tele }
  pairs.foldl (fun d e => d.setSta e.1 { d.sta e.1 with live := (d.sta e.1).live.charge e.2 }) d1

-- ## The start of a die cycle

/-- What a stream does in die cycle `t`. -/
def Station.dueTasks (x : Station) (d : DieId) (p : Pos) (st : Strm) (t : Nat) : List Task :=
  match (x.ctxOf st).next with
  | .off => []
  | .hdr _ a _ => if a ≤ t then [.ev (.sectionHeader d p st), .issue d p st] else []
  | .word _ a => if a ≤ t then [.issue d p st] else []

/-- What an executed die cycle does, in order (DESIGN CHOICE, log 2). -/
def cycleTasks (d : DieId) (x : Die) : List Task :=
  [.ev (.cavitySweepCheck d), .ev (.cavdSweepArrival d), .ev (.cavitySweepDrive d), .ev (.cavityResult d),
    .ev (.edgePointerAdvance d), .ev (.writeLand d), .ev (.ringItemEntry d)] ++
  (allPos.flatMap fun p => Strm.all.flatMap fun st => (x.sta p).dueTasks d p st x.dcyc) ++
  [.ev (.bankPortAAccess d), .ev (.frontAdmit d), .ev (.liftCapture d), .ev (.frontTransit d), .ev (.seatCommit d),
    .ev (.accumulatorCycle d), .ev (.haulGranuleStart d), .ev (.haulPortBRead d), .ev (.errorResponse d), .ev (.debugStop d), .close d]

/-- What the far side of a die that executes no die cycle does in its place (R19). -/
def idleTasks (d : DieId) : List Task :=
  [.ev (.haulGranuleStart d), .ev (.haulPortBRead d), .ev (.errorResponse d), .close d]

/-- DIE_CYCLE (R18, R20, R22): the die evaluates its hold conditions and executes its next die cycle, or holds. -/
def execDieCycle (d : DieId) (s : State) : Out :=
  let x := { s.die d with xch := (s.die d).inExchange }
  let s0 := s.setDie d x
  let ws := s0.waits d
  if ws.isEmpty then .next { s0.setDie d { x with cond := .running } with agenda := cycleTasks d x ++ s.agenda }
  else .next { s0.setDie d (x.hold ws) with agenda := .ev (.farWait d) :: idleTasks d ++ s.agenda }

/-- FAR_WAIT (R21): a hold whose HOLDCNT reaches HOLDMAX with a far or rendezvous condition unmet; it names the first of all
the waiting words, by position and stream, an ADMIT that waits for the governor included (DEDUCED, log 37). -/
def execFarWait (d : DieId) (s : State) : Out :=
  let x := s.die d
  let ws := s.waits d
  if x.cond = .held ∧ x.holdmax.toNat ≤ x.holdcnt ∧ (ws.any fun w => w.kind != .gov) then
    match ws with
    | w :: _ => .next (s.setDie d (x.raiseAt 0 0 .farWait 0 w.pos w.strm w.parcel))
    | [] => .next s
  else .next s

/-- ALIGNMENT_WAIT_END (R23, R241): the die cycle after the ALIGN's executes in this sidereal cycle. -/
def execAlignmentWaitEnd (d : DieId) (s : State) : Out :=
  let x := s.die d
  if x.cond = .waiting ∧ x.notBefore ≤ s.sidc then
    .next (s.setDie d { x with cond := .running, dcyc := x.dcyc + 1, notBefore := 0 })
  else .next s

end Sys2Proof.Machine
end

