-- ==== Sys2Proof/Machine/Cycle.lean ====
section
/-! DEFINITION. The end of a die cycle: the effects that wait for it, the causes it has met, and what the die does next (R17,
R21, R24, R95, R114, R119, R131 to R133, R181, R248, R281, R288, R289, R312 to R314). -/

namespace Sys2Proof.Machine

-- ## Effects at the end of a cycle

/-- A rotation of the rotating region (R131). -/
def Rotd.rotate (r : Rotd) : Rotd := if r.d = 0 then r else { r with rb := (r.rb + r.d - 1) % r.d }

/-- A row of free lanes (DESIGN CHOICE, log 9). -/
def freeRow (fr k : Nat) : Row := rowOfLanes ((List.range 64).map fun l => (freeAt fr (64 * k + l)).setWidth 32)

/-- ROTSET takes effect (R132): newly live registers are zero, and physical registers 16 + DN to 31 lose their contents, which
read as free values from then on (DESIGN CHOICE, log 9) (DESIGN CHOICE, log 42). -/
def Station.rotset (x : Station) (dn t fr : Nat) : Station :=
  let pd := x.rotd.d
  let kept := x.v.filter fun e => decide (e.1 / 16 < 16 + min pd dn)
  let lost := (List.range (16 * (16 - dn))).map fun k => 16 * (16 + dn) + k
  { x.setRotd { pd := pd, rb := 0, d := dn } t with v := lost.foldl (fun m k => kput 0 k (freeRow fr k) m) kept }

/-- A station's ROTD is written by a CSRW of this cycle, which then stands alone (R133). -/
def rotdWritten (es : List Eoc) (p : Pos) : Bool :=
  es.any fun e => match e with | .csr q n _ => q == p && n == 0x020 | _ => false

/-- Rotations, then ROTSETs (R131, R132, R133). -/
def Die.applyRot (d : Die) (es : List Eoc) (fr : Nat) : Die :=
  let rot (d : Die) (e : Eoc) : Die :=
    match e with
    | .rotate p => if rotdWritten es p then d else d.setSta p { d.sta p with rotd := (d.sta p).rotd.rotate }
    | _ => d
  let set (d : Die) (e : Eoc) : Die :=
    match e with
    | .rotset p n => if rotdWritten es p then d else d.setSta p ((d.sta p).rotset n d.dcyc fr)
    | _ => d
  es.foldl set (es.foldl rot d)

/-- The buffer that an effect moves. -/
def Eoc.bufKey : Eoc → Option (Pos × Nat)
  | .bufRead p n _ | .bufWrite p n | .bufWriter p n => some (p, n)
  | .bufset p _ n => some (p, n.toNat)
  | .bufdecl p v => some (p, (fld v 28 4).toNat)
  | _ => none

/-- The words that read a buffer in a cycle. -/
def bufReads (es : List Eoc) : List (Pos × Strm × Nat) :=
  es.filterMap fun e => match e with | .bufRead _ _ w => some w | _ => none

/-- The hauls that a buffer gains as writers in a cycle. -/
def bufAdds (es : List Eoc) : Nat := (es.filter fun e => match e with | .bufWriter .. => true | _ => false).length

/-- What the accesses `es` of a cycle make of a buffer, from its state at the start of the cycle (R119, R120). -/
def Buf.accessed (b : Buf) (es : List Eoc) : Buf :=
  let wrote := es.any fun e => match e with | .bufWrite .. => true | _ => false
  let c := if wrote then b.written else if b.st = 2 ∨ b.st = 3 then b.readBy (bufReads es) else b
  { c with writers := c.writers + bufAdds es }

/-- What a BUFSET beside accesses makes of a buffer: its own change from the start of the cycle, unless an access has made
another one; which of two different changes stands is fixed for the part (R119; DESIGN CHOICE, log 17). -/
def Buf.setBeside (b acc : Buf) (full : Bool) : Buf :=
  let c := b.set full
  if c.st = b.st then acc
  else if acc.st = b.st || acc.st = c.st || Config.bufRace b.st c.st then acc.move c.st
  else acc

/-- A buffer declared anew beside accesses under its earlier declaration: its state is empty, unless the access stands
(R118, R119; DESIGN CHOICE, log 17). -/
def Buf.declBeside (b acc : Buf) (v : W32) : Buf :=
  if !bit v 27 then {}
  else if !b.declared || (acc.st = 0 && acc.writers = 0) || Config.bufRace 0 0 then declOf v
  else { declOf v with st := acc.st, writers := acc.writers }

/-- A buffer at the end of a cycle whose effects on it are `es`: every transition is judged on its state at the start of the cycle
(R118 to R120). -/
def Buf.close (b : Buf) (es : List Eoc) : Buf :=
  es.foldl (fun acc e => match e with
    | .bufset _ full _ => b.setBeside acc full
    | .bufdecl _ v => b.declBeside acc v
    | _ => acc) (b.accessed es)

/-- The buffers' transitions of a cycle (R118 to R121). -/
def Die.applyBufs (d : Die) (es : List Eoc) : Die :=
  ((es.filterMap Eoc.bufKey).eraseDups).foldl (fun x k =>
    x.setSta k.1 ((x.sta k.1).setBuf k.2 (((d.sta k.1).bufN k.2).close (es.filter fun e => e.bufKey == some k)))) d

/-- The effects on one die that no rule orders among themselves. -/
def Die.applyOne (fs : FarSide) (d : Die) (e : Eoc) : Die :=
  match e with
  | .bankfmt p b f => d.setSta p { d.sta p with fmt := kput {} b.toNat f (d.sta p).fmt }
  | .bankRow p b r v => d.setSta p ((d.sta p).setBankRow b r v)
  | .heal p keys => d.healKeys p keys
  | .rsec p st v _ => d.setSta p ((d.sta p).setCtx st { (d.sta p).ctxOf st with rsec := v })
  | .fence p set scope =>
    d.setSta p { d.sta p with fences := (d.sta p).fences ++ [{ upto := fs.seq, set := set, scope := scope }] }
  | .release p pt h c =>
    d.setSta p { d.sta p with releases := (d.sta p).releases ++
      [{ pt := pt, handle := h, ctr := c, marks := fs.writesOut p, err := 0 }] }
  | .cavFree p k => d.cavFree p k
  | .window w => { d with window := w }
  | .amode f g => { d with fimg := f, gnan := g }
  | .flags p b => d.setSta p { d.sta p with fpctl := (d.sta p).fpctl ||| b.setWidth 64 }
  | .snap p => d.setSta p { d.sta p with snap := { (d.sta p).live with sdcyc := BitVec.ofNat 64 d.dcyc } }
  | _ => d

/-- Station CSRs that a CSRW writes (R251). -/
def stationCsr (n : BitVec 12) : Bool := [0x020, 0x021, 0x022, 0x040, 0x041].contains n

/-- Two CSRWs write one register (R251). -/
def sameCsr (p q : Pos) (n m : BitVec 12) : Bool := n == m && (!stationCsr n || p == q)

/-- The CSRWs of a cycle that are kept: of several to one CSR the last by position and stream (R17, R95, R164, R181, R251). -/
def keptCsrs : List Eoc → List (Pos × BitVec 12 × W64)
  | [] => []
  | .csr p n v :: t =>
    if t.any fun e => match e with | .csr q m _ => sameCsr p q n m | _ => false then keptCsrs t else (p, n, v) :: keptCsrs t
  | _ :: t => keptCsrs t

/-- The violations of a cycle in the order of the log (R94). -/
def violations (es : List Eoc) : List (Pos × Strm × Parcel × Nat × Byte) :=
  let l := es.filterMap fun e => match e with | .violog p st q va c => some (p, st, q, va, c) | _ => none
  if l.isEmpty then []
  else allPos.flatMap fun p => Strm.all.flatMap fun st => l.filter fun v => v.1 == p && v.2.1 == st

/-- The log writes of a cycle and, with TEN = 1, the asynchronous cause of the first (R94, R95; DEDUCED, log 39). -/
def Die.applyViolog (d : Die) (es : List Eoc) (ten : Bool) : Die :=
  let l := violations es
  let d1 := l.foldl (fun d v => d.logWrite v.1 v.2.1 v.2.2.2.1 v.2.2.2.2) d
  match l with
  | [] => d1
  | v :: _ =>
    if !ten then d1
    else
      let c : CauseRec := { cause := errCause v.2.2.2.2, sub := 0, rank := 5, pos := v.1, strm := v.2.1, parcel := v.2.2.1,
                            named := true, order := 0 }
      { d1 with asyncs := d1.asyncs ++ [c] }

/-- Every effect that waits for the end of a cycle (R17, R95, R131 to R133, R164, R181, R251). A log write judges OVFCNT by the entry
as a CSRW of the same cycle has left it (DESIGN CHOICE, log 97). -/
def State.applyEoc (s : State) (d : DieId) : State :=
  let x := s.die d
  let es := x.eoc
  let ten := bit x.viotrap 0
  let s1 := s.setDie d (({ x with eoc := [] }.applyRot es s.ctr).applyBufs es)
  let s2 := (keptCsrs es).foldl (fun t e => t.csrWrite d e.1 e.2.1.toNat e.2.2) s1.bump
  es.foldl (fun t e => t.noteOrder d e)
    (s2.setDie d ((es.foldl (Die.applyOne (s2.fs d)) (s2.die d)).applyViolog es ten).arrClose)

-- ## Monitors (R314)

/-- What a monitor watches; `none` where its condition never holds. -/
def State.monValue (s : State) (d : DieId) (cfg : W64) : Option Nat :=
  let x := s.die d
  let p : Pos := Fin.ofNat 128 (fld cfg 48 7).toNat
  let sel := (fld cfg 40 8).toNat
  match (fld cfg 56 4).toNat with
  | 0 => if sel < 8 then some ((x.sta p).fqOf (BitVec.ofNat 3 sel)).length else none
  | 1 => some ((s.fs d).pathN p)
  | 2 =>
    if sel < 16 then
      some (128 - (x.items.filter fun i => i.lane == sel && decide (i.entry ≤ x.dcyc) && decide (x.dcyc ≤ i.entry + i.hops)).length)
    else none
  | 3 => if s.masterOf d = d ∧ sel < 24 then some (kget {} sel x.masters).arr.length else none
  | 4 => some x.holdcnt
  | _ => none

/-- The condition of a monitor. -/
def monHolds (cfg : W64) (v : Nat) : Bool :=
  let t := (fld cfg 0 32).toNat
  match (fld cfg 60 2).toNat with
  | 0 => decide (v < t)
  | 1 => decide (t ≤ v)
  | 2 => v == t
  | _ => v != t

/-- The condition of a monitor of the die holds. -/
def State.monHit (s : State) (d : DieId) (m : Monitor) : Bool :=
  bit m.cfg 63 && (match s.monValue d m.cfg with | some v => monHolds m.cfg v | none => false)

/-- A monitor whose condition holds counts, and has fired. -/
def Monitor.count (m : Monitor) : Monitor :=
  { m with cnt := if m.cnt = BitVec.allOnes 64 then m.cnt else m.cnt + 1, fired := true }

/-- The monitors of the die at the end of an executed die cycle (R314): those whose condition holds count; of those that fire first in
this cycle one with FRZ = 1 freezes the die, and the lowest is reported, with FRZ = 0 as a host event. -/
def State.monitors (s : State) (d : DieId) : State :=
  let x := s.die d
  let hits := x.monitors.filter fun e => s.monHit d e.2
  let new := hits.filter fun e => !e.2.fired
  let s1 := s.setDie d { x with monitors := hits.foldl (fun m e => kput {} e.1 e.2.count m) x.monitors }
  let s2 := if new.any fun e => bit e.2.cfg 62 then
      s1.setDie d ((s1.die d).raise { cause := .monitorFire, sub := 0, rank := 5, pos := 0, strm := .c, parcel := 0, named := false,
                                      order := 2 })
    else s1
  match new with
  | [] => s2
  | e :: _ => if bit e.2.cfg 62 then s2 else s2.hostEvent 4 0xFB d (BitVec.ofNat 64 (x.dcyc % 2 ^ 32))

-- ## Freezing and going on

/-- A STOP or another die's report freezes the die in this cycle (R284, R292). -/
def State.stopDue (s : State) (x : Die) : Bool := match x.stopAt with | some t => decide (t ≤ s.sidc) | none => false

/-- The base camp learns of a die's reported causes after a time that the spec does not give (R292; DESIGN CHOICE, log 75), of 99 c at
least, the time that a CAVD's sweeps take: until then its partners meet what the die no longer sends (R208, R324, R329). -/
def State.tellCamp (s : State) (d : DieId) : State :=
  (s.setDie d { s.die d with reportAt := some (s.sidc + 99 + s.fresh) }).bump

/-- The die freezes on the causes of its cycle, and those that are not diverted are reported (R24, R288, R290, R292); where a STOP
freezes it in the same cycle no handler follows (R284). -/
def State.freezeDie (s : State) (d : DieId) (unexec : Bool) : State :=
  let x := (s.die d).freeze s.sidc unexec
  let stop := s.stopDue (s.die d)
  let s1 := s.setDie d { x with stopAt := none, handlerNext := x.handlerNext && !stop }
  if x.handlerNext then s1 else s1.tellCamp d

/-- Causes that have reached the die from outside its timetable join those of the cycle (R95). -/
def Die.takeAsyncs (d : Die) : Die := { d with causes := d.causes ++ d.asyncs, asyncs := [] }

/-- Those that came while the die was frozen join those of its first executed cycle (R298). -/
def Die.takeLate (d : Die) : Die := { d with causes := d.causes ++ d.late, late := [] }

/-- A section whose header has PRE = 1 retires in the die cycle (R281). -/
def preRetires (es : List Eoc) : Bool := es.any fun e => match e with | .rsec _ _ _ pre => pre | _ => false

/-- The die cycle ends in a pre-emption point for a switch that is due (R281, R282). -/
def State.preemptHere (s : State) (x : Die) (pre : Bool) : Bool :=
  (match x.preemptAt with | some w => decide (w ≤ s.sidc) | none => false) && !x.xch && pre

/-- The next die cycle follows, after an alignment wait where one is due (R23, R241). -/
def Die.nextCycle (d : Die) (sidc : Nat) : Die :=
  if sidc + 1 < d.notBefore then { d with cond := .waiting } else { d with dcyc := d.dcyc + 1, notBefore := 0 }

/-- The end of an executed die cycle: its effects; what the die does next is settled once everything that lands in the cycle is in
place. -/
def State.closeRun (s : State) (d : DieId) : State :=
  let pre := preRetires (s.die d).eoc
  let s1 := s.applyEoc d
  s1.setDie d { s1.die d with ended := some pre }

/-- An executed die cycle is settled: its monitors, then a freeze, a pre-emption, or the next die cycle (R24, R281, R288, R314). -/
def State.settleRun (s : State) (d : DieId) (pre : Bool) : State :=
  let s1 := (s.setDie d ({ s.die d with ended := none }.takeLate.takeAsyncs)).monitors d
  let x := s1.die d
  if !x.causes.isEmpty then s1.freezeDie d false
  else if s1.stopDue x then s1.setDie d (x.freezeQuiet s1.sidc false)
  else if s1.preemptHere x pre then { s1 with agenda := .ev (.preemptionFreeze d) :: s1.agenda }
  else s1.setDie d (x.nextCycle s1.sidc)

/-- The settling of a die's cycle, where it has executed one. -/
def settleTask (d : DieId) (s : State) : Out :=
  .next (match (s.die d).ended with | some pre => s.settleRun d pre | none => s)

/-- The end of a sidereal cycle in which the die executed no die cycle (R19, R21, R95): its log writes, and what ends a hold
or an alignment wait. -/
def State.closeStill (s : State) (d : DieId) : State :=
  let s1 := s.applyEoc d
  let x := s1.die d
  match x.cond with
  | .held =>
    let y := x.takeAsyncs
    if !y.causes.isEmpty then (s1.setDie d y).freezeDie d true
    else if s1.stopDue x then s1.setDie d (x.freezeQuiet s1.sidc true)
    else s1
  | .waiting =>
    let y := { x.takeAsyncs with tele := { x.tele with await := x.tele.await + 1 } }
    if !y.causes.isEmpty then (s1.setDie d y).freezeDie d false
    else if s1.stopDue x then s1.setDie d (y.freezeQuiet s1.sidc false)
    else s1.setDie d y
  | .idle => s1.setDie d { x with asyncs := [], late := [], causes := [] }
  | _ => s1

/-- The end of a sidereal cycle on a die. -/
def closeTask (d : DieId) (s : State) : Out :=
  .next (if (s.die d).cond = .running then s.closeRun d else s.closeStill d)

/-- DEBUG_STOP (R313): the die's first executed cycle at or after the stop time raises it. -/
def execDebugStop (d : DieId) (s : State) : Out :=
  let x := s.die d
  match x.debugAt with
  | none => .next s
  | some t =>
    if t ≤ s.sidc then
      .next (s.setDie d ({ x with debugAt := none }.raise
        { cause := .debugStop, sub := 0, rank := 5, pos := 0, strm := .c, parcel := 0, named := false, order := 1 }))
    else .next s

end Sys2Proof.Machine
end

