-- ==== Sys2Proof/Machine/Frozen.lean ====
section
/-! DEFINITION. The frozen state of a die by frozen-state address, FRZRD and FRZWR (R295, R296). -/

namespace Sys2Proof.Machine

-- ## The frozen station

/-- A station as the frozen state shows it: in handler mode the handler station's timetable context (R293). -/
def Die.frozenSta (d : Die) (p : Pos) : Station :=
  match d.saved with
  | some k => if p = d.hpos then { (d.sta p).setCtx .c k.ctx with s := k.s, div := k.div } else d.sta p
  | none => d.sta p

/-- The frozen station `p` becomes `x`. -/
def Die.setFrozen (d : Die) (p : Pos) (x : Station) : Die :=
  match d.saved with
  | some _ =>
    if p = d.hpos then
      let y := d.sta p
      { d.setSta p { x.setCtx .c (y.ctxOf .c) with s := y.s, div := y.div } with
        saved := some { ctx := x.ctxOf .c, s := x.s, div := x.div } }
    else d.setSta p x
  | none => d.setSta p x

/-- Die cycles from the frozen one to cycle `t`, counted from the first cycle after RESUME as 1 (R295). -/
def Die.toGo (d : Die) (t : Nat) : Nat := t + (if d.unexec then 1 else 0) - d.dcyc

/-- The die cycle that is `n` cycles away. -/
def Die.goAt (d : Die) (n : Nat) : Nat := d.dcyc + n - (if d.unexec then 1 else 0)

/-- A word of the frozen state that stands for no state of the model, as it was last written. -/
def Die.held (d : Die) (a : Nat) : Option W64 := kget none a d.ghost

def Die.holdWord (d : Die) (a : Nat) (v : W64) : Die := { d with ghost := kput none a (some v) d.ghost }

/-- Several words from address `a` on. -/
def Die.holdWords (d : Die) (a : Nat) (l : List W64) : Die := l.zipIdx.foldl (fun d e => d.holdWord (a + 8 * e.2) e.1) d

/-- A frozen word at `a` that the state shows as `raw`: as it was last written, while the state still shows what it showed then
(R296; DESIGN CHOICE, log 15). -/
def Die.shown (d : Die) (a : Nat) (raw : W64) : W64 :=
  match kget none a d.shade with
  | some (v, r) => if r = raw then v else raw
  | none => raw

/-- The word `v` has been written at `a`, and the state shows `raw` in its place. -/
def Die.shadeWord (d : Die) (a : Nat) (v raw : W64) : Die :=
  { d with shade := kput none a (if v = raw then none else some (v, raw)) d.shade }

/-- The cycle whose low 32 bits are `w`, the latest up to cycle `t` where there is one (R295). -/
def cycNear (t : Nat) (w : W32) : Nat :=
  let k := (BitVec.ofNat 32 t - w).toNat
  if k ≤ t then t - k else w.toNat

-- ## Contexts (R295)

/-- Word 0 and word 1 of a loop entry. -/
def LoopEntry.words (e : LoopEntry) : W64 × W64 :=
  (BitVec.ofNat 64 e.ctr, 1#1 ++ 0#30 ++ b1 e.rot ++ e.first ++ e.last)

/-- The word of a call entry. -/
def CallEntry.word (e : CallEntry) : W64 := 1#1 ++ 0#44 ++ BitVec.ofNat 3 e.depth ++ e.ret

/-- An issue latch as a word (R297). -/
def IssueLatch.word (l : IssueLatch) : W64 := b1 l.v ++ b1 l.replay ++ 0#14 ++ l.parcel ++ 0#24 ++ l.cause

def latchOf (v : W64) : IssueLatch := { v := bit v 63, replay := bit v 62, parcel := fld v 32 16, cause := fld v 0 8 }

/-- The next word of a context (R295): its parcel, 0xFFFF where the stream has ended, and the idle cycles before it, in 8 bits, those
that a header's first word waits beside its DLY among them (R240; DESIGN CHOICE, log 15). -/
def Die.nextWord (d : Die) (c : Ctx) : W64 :=
  match c.next with
  | .off => 0#16 ++ 0xFFFF#16 ++ 0#32
  | .hdr q a wait => 0#16 ++ q ++ 0#24 ++ BitVec.ofNat 8 (d.toGo a - 1 + wait)
  | .word q a => 0#16 ++ q ++ 0#24 ++ BitVec.ofNat 8 (d.toGo a - 1)

/-- The register file at the start of a context. -/
def regGet (x : Station) (st : Strm) (n : Nat) : W64 :=
  match st with
  | .c => if n = 0 then 0 else kget 0 n x.s
  | .l => if n = 0 ∨ 32 ≤ n then 0 else kget 0 n x.aL
  | .s => if n = 0 ∨ 32 ≤ n then 0 else kget 0 n x.aS
  | .x => 0

def regPut (x : Station) (st : Strm) (n : Nat) (v : W64) : Station :=
  if n = 0 then x
  else match st with
    | .c => { x with s := kput 0 n v x.s }
    | .l => if n < 32 then { x with aL := kput 0 n v x.aL } else x
    | .s => if n < 32 then { x with aS := kput 0 n v x.aS } else x
    | .x => x

/-- A word of the divider at context FSA `g`; what it holds while a division is in progress, its step count aside, is a fixed function
of that division (R227; DESIGN CHOICE, log 15; DESIGN CHOICE, log 52). -/
def Die.divWord (d : Die) (x : Station) (g k : Nat) : W64 :=
  let left := d.toGo x.div.free - 1
  match k with
  | 0 => if left = 0 then x.div.rem else (d.held (g + 0x318)).getD (Config.openWord (x.div, left) 0)
  | 1 => if left = 0 then x.div.quo else (d.held (g + 0x320)).getD (Config.openWord (x.div, left) 1)
  | _ => if left = 0 then 0 else BitVec.ofNat 64 (34 - left)

/-- The result that a division in progress will write, once a word of the divider is written (R296; DESIGN CHOICE, log 15). -/
def WriteRec.divided (w : WriteRec) (free k : Nat) (v : W64) : WriteRec :=
  match w.target with
  | .s n r => if w.land = free then { w with target := .s n (Config.openPut r k v) } else w
  | _ => w

/-- FRZWR to the partial remainder (`k` = 0) or the quotient. -/
def Die.divPut (d : Die) (x : Station) (g k : Nat) (v : W64) : Die × Station :=
  if d.toGo x.div.free ≤ 1 then (d, { x with div := if k = 0 then { x.div with rem := v } else { x.div with quo := v } })
  else
    (d.holdWord (g + 0x318 + 8 * k) v,
      { x with div := Config.openPut x.div k v, writes := x.writes.map (·.divided x.div.free k v) })

/-- A word of the context of a stream at offset `o`; `g` is the context's FSA. -/
def Die.ctxGet (d : Die) (x : Station) (st : Strm) (g o : Nat) : W64 :=
  let c := x.ctxOf st
  if o < 0x200 then regGet x st (o / 8)
  else if o = 0x200 then c.q.setWidth 64 ||| 1
  else if o < 0x248 then
    let b := kget {} ((o - 0x208) / 8) c.b
    b1 b.prep ++ 0#15 ++ b.tgt ++ BitVec.ofNat 32 b.pc
  else if o = 0x248 then d.shown (g + o) (d.nextWord c)
  else if o = 0x250 then c.rsec.setWidth 64
  else if o < 0x260 then 0
  else if o < 0x2A0 then
    match c.loops.reverse[(o - 0x260) / 16]? with
    | some e => if o % 16 = 0 then e.words.1 else e.words.2
    | none => (d.held (g + o)).getD 0
  else if o < 0x2E0 then
    match c.calls.reverse[(o - 0x2A0) / 8]? with
    | some e => e.word
    | none => (d.held (g + o)).getD 0
  else if o < 0x310 then
    let n := (o - 0x2E0) / 2
    kget 0 (n + 3) c.wp ++ kget 0 (n + 2) c.wp ++ kget 0 (n + 1) c.wp ++ kget 0 n c.wp
  else if o = 0x310 then c.latch.word
  else if o = 0x328 ∧ st = .c then d.shown (g + o) (d.divWord x g 2)
  else if o < 0x328 ∧ st = .c then d.divWord x g ((o - 0x318) / 8)
  else 0

/-- The stack that some slots hold: those before the first with V = 0 (R295). -/
def loopStack : List (W64 × W64) → List LoopEntry
  | [] => []
  | (a, b) :: t =>
    if bit b 63 then { ctr := a.toNat, rot := bit b 32, first := fld b 16 16, last := fld b 0 16 } :: loopStack t else []

def callStack : List W64 → List CallEntry
  | [] => []
  | a :: t => if bit a 63 then { ret := fld a 0 16, depth := (fld a 16 3).toNat } :: callStack t else []

/-- FRZWR to a loop entry: the four slots as they then stand, and the stack among them. -/
def Die.loopPut (d : Die) (c : Ctx) (g o : Nat) (v : W64) : Die × Ctx :=
  let slot (n : Nat) : W64 × W64 := match c.loops.reverse[n]? with
    | some e => e.words
    | none => ((d.held (g + 0x260 + 16 * n)).getD 0, (d.held (g + 0x268 + 16 * n)).getD 0)
  let k := (o - 0x260) / 16
  let slots := (List.range 4).map fun n => if n = k then (if o % 16 = 0 then (v, (slot n).2) else ((slot n).1, v)) else slot n
  (d.holdWords (g + 0x260) (slots.flatMap fun e => [e.1, e.2]), { c with loops := (loopStack slots).reverse })

/-- FRZWR to a call entry. -/
def Die.callPut (d : Die) (c : Ctx) (g o : Nat) (v : W64) : Die × Ctx :=
  let slot (n : Nat) : W64 := match c.calls.reverse[n]? with
    | some e => e.word
    | none => (d.held (g + 0x2A0 + 8 * n)).getD 0
  let k := (o - 0x2A0) / 8
  let slots := (List.range 8).map fun n => if n = k then v else slot n
  (d.holdWords (g + 0x2A0) slots, { c with calls := (callStack slots).reverse })

/-- The next-word state that a written word names (R295): 0xFFFF ends the stream, and the idle cycles before a header become those that
its first word waits (DESIGN CHOICE, log 15). A word of another section is no entry into that section, and finds the loop buffer empty
(R52, R55; DEDUCED, log 85). -/
def Die.nextPut (d : Die) (x : Station) (p : Pos) (st : Strm) (c : Ctx) (v : W64) : Ctx :=
  let q : Parcel := fld v 32 16
  let idle := (fld v 0 8).toNat
  let at_ := d.goAt (idle + 1)
  let secs := sections x st d.hsta p
  if q = 0xFFFF then { c with next := .off, retired := true }
  else
    let c1 := { c with retired := false }
    if c.sect.any fun k => k.has q.toNat then { c1 with next := .word q at_ }
    else if secs.any fun k => k.hdr == q then { c1 with next := .hdr q (d.goAt 1) idle }
    else match secs.find? fun k => k.has q.toNat with
      | some k => { c1 with sect := some k, entering := false, lbuf := [], next := .word q at_ }
      | none => { c1 with next := .hdr q (d.goAt 1) idle }

/-- FRZWR to a word of a context. -/
def Die.ctxPut (d : Die) (p : Pos) (x : Station) (st : Strm) (g o : Nat) (v : W64) : Die × Station :=
  let c := x.ctxOf st
  let put (c : Ctx) : Die × Station := (d, x.setCtx st c)
  if o < 0x200 then (d, regPut x st (o / 8) v)
  else if o = 0x200 then put { c with q := fld v 0 8 }
  else if o < 0x248 then
    put { c with b := kput {} ((o - 0x208) / 8) { prep := bit v 63, tgt := fld v 32 16, pc := cycNear d.dcyc (fld v 0 32) } c.b }
  else if o = 0x248 then
    let c1 := d.nextPut x p st c v
    (d.shadeWord (g + o) (v &&& 0xFFFF000000FF) (d.nextWord c1), x.setCtx st c1)
  else if o = 0x250 then put { c with rsec := fld v 0 8 }
  else if o < 0x260 then (d, x)
  else if o < 0x2A0 then
    let r := d.loopPut c g o v
    (r.1, x.setCtx st r.2)
  else if o < 0x2E0 then
    let r := d.callPut c g o v
    (r.1, x.setCtx st r.2)
  else if o < 0x310 then
    let n := (o - 0x2E0) / 2
    put { c with wp := (List.range 4).foldl (fun m k => kput 0 (n + k) (fld v (16 * k) 16) m) c.wp }
  else if o = 0x310 then put { c with latch := latchOf v }
  else if o = 0x318 ∧ st = .c then d.divPut x g 0 v
  else if o = 0x320 ∧ st = .c then d.divPut x g 1 v
  else if o = 0x328 ∧ st = .c then
    let y := { x with div := { x.div with free := d.goAt (if fld v 0 6 == 0 then 1 else 35 - (fld v 0 6).toNat) } }
    (d.shadeWord (g + o) (v &&& 0x3F) (d.divWord y g 2), y)
  else (d, x)

-- ## In-flight write records (R295)

/-- Data of a record as a row. -/
def WTarget.data : WTarget → Row
  | .s _ x => x.setWidth 2048
  | .a _ _ x => x.setWidth 2048
  | .v _ _ _ r => r
  | .m _ _ x => x.setWidth 2048
  | .q _ _ x => if x then 1 else 0
  | .e _ x => x.setWidth 2048
  | .gone => 0

/-- Lane mask of a record. -/
def WTarget.lanes : WTarget → BitVec 64
  | .v _ _ l _ => l
  | .gone => 0
  | _ => 1

/-- Row number of a record. -/
def WTarget.rowNo : WTarget → BitVec 4
  | .v _ r _ _ => r
  | _ => 0

/-- The record has not been cleared. -/
def WTarget.live : WTarget → Bool
  | .gone => false
  | _ => true

/-- The bits of word `k` of a write record that hold something. -/
def recMask (k : Nat) : W64 := if k = 0 then 0xE0FFFFF0FFFFFFFF else if k ≤ 33 then BitVec.allOnes 64 else 0

/-- Word `k` of write record `i`, whose FSA is `g`, as the state has it; a record with V = 0 holds what was last written there. -/
def Die.recRaw (d : Die) (x : Station) (g i k : Nat) : W64 :=
  match (x.writes[i]?).filter (·.target.live) with
  | none => (d.held (g + 8 * k)).getD 0 &&& recMask k
  | some w =>
    if k = 0 then
      1#1 ++ BitVec.ofNat 2 w.strm.idx.val ++ 0#5 ++ BitVec.ofNat 8 (d.toGo w.land) ++ w.name ++ w.target.rowNo ++ 0#4 ++
        BitVec.ofNat 32 w.issued
    else if k ≤ 32 then fld w.target.data (64 * (k - 1)) 64
    else if k = 33 then w.target.lanes
    else 0

/-- Word `k` of write record `i`, whose FSA is `g`. -/
def Die.recGet (d : Die) (x : Station) (g i k : Nat) : W64 := d.shown (g + 8 * k) (d.recRaw x g i k)

/-- The streams by number. -/
def strmOf : BitVec 2 → Strm
  | 0 => .c
  | 1 => .l
  | 2 => .s
  | _ => .x

/-- The target that a record's fields name (R49): in the L and S streams a code below 0x20 is a vector register where lanes are
named or one was named before (DESIGN CHOICE, log 15). -/
def recTarget (x : Station) (old : WTarget) (oldName name : Byte) (st : Strm) (row : BitVec 4) (data : Row) (lanes : BitVec 64) :
    WTarget :=
  let code := name.toNat
  let vec := match old with
    | .v .. => true
    | .gone => st == .x
    | _ => false
  if 0x40 ≤ code ∧ code < 0x48 then .q st (name.setWidth 3) (bit data 0)
  else if 0x58 ≤ code ∧ code < 0x5C then .e (name.setWidth 2) (data.setWidth 64)
  else if st = .x ∧ 0x20 ≤ code ∧ code < 0x28 then
    .m (name.setWidth 3) (match old with | .m _ sel _ => sel | _ => BitVec.allOnes 1024) (data.setWidth 1024)
  else if vec && code < 0x20 then
    let ph := match old with
      | .v q .. => if name = oldName then q else (physOf x.rotd (name.setWidth 5)).getD (name.setWidth 5)
      | _ => (physOf x.rotd (name.setWidth 5)).getD (name.setWidth 5)
    .v ph row lanes data
  else if st = .c then .s (name.setWidth 6) (data.setWidth 64)
  else .a st (name.setWidth 6) (data.setWidth 64)

/-- The write record that the words `l` name, where `old` stood before. -/
def Die.recOf (d : Die) (x : Station) (old : WriteRec) (l : List W64) : WriteRec :=
  let w0 := l.headD 0
  let st := strmOf (fld w0 61 2)
  let name : Byte := fld w0 40 8
  { old with
    strm := st, name := name, issued := cycNear d.dcyc (fld w0 0 32), land := d.goAt (fld w0 48 8).toNat,
    target := recTarget x old.target old.name name st (fld w0 36 4) (rowOfBytes (bytesOf ((l.drop 1).take 32))) (l.getD 33 0) }

/-- An empty record. -/
def noRec (p : Pos) : WriteRec :=
  { strm := .c, parcel := 0, issued := 0, land := 0, name := 0, by_ := p, target := .gone }

/-- FRZWR to word `k` of record `i` of station `p`, whose FSA is `g`: the record that its words then name, or none where V = 0; what the
record has no place for reads back as written. -/
def Die.recPut (d : Die) (p : Pos) (x : Station) (g i k : Nat) (v : W64) : Die × Station :=
  let ws := (List.range 34).map fun n => if n = k then v &&& recMask k else d.recGet x g i n
  let l := x.writes ++ List.replicate (i + 1 - x.writes.length) (noRec p)
  let r : Die × Station :=
    if bit (ws.headD 0) 63 then
      (d, { x with writes := l.zipIdx.map fun e => if e.2 = i then d.recOf x e.1 ws else e.1 })
    else
      (d.holdWords g ws, { x with writes := x.writes.zipIdx.map fun e => if e.2 = i then { e.1 with target := .gone } else e.1 })
  (ws.zipIdx.foldl (fun y e => y.shadeWord (g + 8 * e.2) e.1 (y.recRaw r.2 g i e.2)) r.1, r.2)

-- ## Port-A latch slots (R295)

/-- The access in latch slot `s` of a bank. -/
def Die.latchAt (d : Die) (p : Pos) (bank s : Nat) : Option PortA :=
  (d.latched.filter fun a => a.pos == p && a.bank.toNat == bank)[s]?

/-- The row that a latched write will write. -/
def Die.latchRow (d : Die) (a : PortA) (fr : Nat) : Row :=
  match (d.performA a a.at_ fr).2.find? fun e => e.1 == a.row.toNat with
  | some e => e.2
  | none => 0

/-- The bits of word `k` of a latch slot that hold something. -/
def slotMask (k : Nat) : W64 :=
  if k = 0 then 0xFFE0FFFFFFFFFFFF else if k = 1 then 0x7F else if k ≤ 33 then BitVec.allOnes 64 else 0

/-- Word `k` of latch slot `s` of a bank, whose FSA is `g`; a slot with V = 0 holds what was last written there. -/
def Die.slotGet (d : Die) (p : Pos) (bank s g k fr : Nat) : W64 :=
  match (d.latchAt p bank s).filter (·.kind != .gone) with
  | none => (d.held (g + 8 * k)).getD 0 &&& slotMask k
  | some a =>
    if k = 0 then
      1#1 ++ b1 a.wr ++ BitVec.ofNat 2 a.strm.idx.val ++ BitVec.ofNat 7 a.by_.val ++ 0#5 ++ a.parcel ++ BitVec.ofNat 32 a.issued
    else if k = 1 then a.row.setWidth 64
    else if k ≤ 33 then (if a.wr then fld (d.latchRow a fr) (64 * (k - 2)) 64 else 0)
    else 0

/-- The access that the words `l` of a latch slot name once word `k` is written, where `old` stood before: a write of its 256 B, or
the read that stood there; a read that no word has issued delivers nothing (DESIGN CHOICE, log 15). -/
def slotAccess (t : Nat) (old : PortA) (l : List W64) (k : Nat) : PortA :=
  let w0 := l.headD 0
  let wr := bit w0 62
  let same := old.kind != .gone && old.wr == wr
  let kind : PKind :=
    if wr then (if same && k < 2 then old.kind else .raw (rowOfBytes (bytesOf ((l.drop 2).take 32))))
    else if same then old.kind else .probe
  { old with wr := wr, strm := strmOf (fld w0 60 2), by_ := Fin.ofNat 128 (fld w0 53 7).toNat, parcel := fld w0 32 16,
             issued := cycNear t (fld w0 0 32), row := fld (l.getD 1 0) 0 7, kind := kind }

/-- An empty slot of a bank. -/
def noAccess (p : Pos) (bank : Nat) : PortA :=
  { at_ := 0, pos := p, bank := BitVec.ofNat 3 bank, row := 0, wr := false, by_ := p, strm := .c, parcel := 0, issued := 0,
    kind := .gone, checked := true }

/-- FRZWR to word `k` of latch slot `s` of a bank, whose FSA is `g`: the access that its words then name, or none where V = 0
(R298). -/
def Die.slotPut (d : Die) (p : Pos) (bank s g k : Nat) (v : W64) (fr : Nat) : Die :=
  let ws := (List.range 34).map fun n => if n = k then v &&& slotMask k else d.slotGet p bank s g n fr
  let own (a : PortA) : Bool := a.pos == p && a.bank.toNat == bank
  let l := d.latched.filter own
  let l1 := l ++ List.replicate (s + 1 - l.length) (noAccess p bank)
  let set (f : PortA → PortA) (l : List PortA) : List PortA := l.zipIdx.map fun e => if e.2 = s then f e.1 else e.1
  if bit (ws.headD 0) 63 then { d with latched := d.latched.filter (!own ·) ++ set (slotAccess d.dcyc · ws k) l1 }
  else { d.holdWords g ws with latched := d.latched.filter (!own ·) ++ set ({ · with kind := .gone }) l }

-- ## Stations (R295)

-- ## Parts whose layout the spec leaves open (R295; DESIGN CHOICE, log 15)

/-- What the words of a station at +0x7_C000 hold beside its CSRs: edge pointers, BANKFMT, buffers, noise state S, the far queues'
addresses and CNT, the pipe's occupancy and the cavity slots. -/
structure OtherPart where
  e : KMap W64 := []
  fmt : KMap BankFmt := []
  buf : KMap Buf := []
  noiseS : W32 := 0
  fq : KMap (List FqSlot) := []
  pipe : Nat := 0
  cav : KMap (Option CavSlot) := []
  deriving DecidableEq, Repr, Inhabited

def Die.otherPart (d : Die) (x : Station) : OtherPart :=
  { e := x.e, fmt := x.fmt, buf := x.buf, noiseS := x.noise.s, fq := x.fq, pipe := d.toGo x.pipeFree, cav := x.cav }

def Die.setOther (d : Die) (x : Station) (o : OtherPart) : Station :=
  { x with e := o.e, fmt := o.fmt, buf := o.buf, noise := { x.noise with s := o.noiseS }, fq := o.fq, pipeFree := d.goAt o.pipe,
           cav := o.cav }

/-- The store path of a station. -/
def FarSide.pathPart (f : FarSide) (p : Pos) : List FarReq := f.reqs.filter fun r => r.pos == p && r.src == .path

def FarSide.setPath (f : FarSide) (p : Pos) (l : List FarReq) : FarSide :=
  { f with reqs := (f.reqs.filter fun r => !(r.pos == p && r.src == .path)) ++ l }

/-- The edge skew latches of a face. -/
def Die.skewPart (d : Die) (face : Nat) : List Skew := d.skew.filter fun e => e.pos.val / 32 == face

def Die.setSkew (d : Die) (face : Nat) (l : List Skew) : Die :=
  { d with skew := (d.skew.filter fun e => e.pos.val / 32 != face) ++ l }

/-- CSRs of a station that its frozen state holds at +8 × number. -/
def staCsrs : List Nat := [0x020, 0x021, 0x022, 0x040, 0x041, 0x080, 0x081, 0x082, 0x083]

/-- A word of a frozen station at offset `o` (R295); one whose layout the spec leaves open reads as it was last written, else as
its part has it (DESIGN CHOICE, log 15). -/
def State.staGet (s : State) (d : DieId) (p : Pos) (o : Nat) : Option W64 :=
  let y := s.die d
  let x := y.frozenSta p
  let g := p.val * 0x100000
  if o < 0x40000 then some (fld (x.bankRow (BitVec.ofNat 3 (o / 0x8000)) (o / 0x100 % 128)) (8 * (o % 0x100)) 64)
  else if o < 0x60000 then
    let k := o - 0x40000
    some (fld (x.vrow (BitVec.ofNat 5 (k / 0x1000)) (k / 0x100 % 16)) (8 * (k % 0x100)) 64)
  else if o < 0x60400 then
    let k := o - 0x60000
    some (fld (x.mask (BitVec.ofNat 3 (k / 0x80))) (8 * (k % 0x80)) 64)
  else if 0x61000 ≤ o ∧ o < 0x63000 then some (kget 0 ((o - 0x61000) / 8) x.pad)
  else if 0x64000 ≤ o ∧ o < 0x68000 then
    let st := strmOf (BitVec.ofNat 2 ((o - 0x64000) / 0x1000))
    some (y.ctxGet x st (g + o - o % 0x1000) (o % 0x1000))
  else if 0x68000 ≤ o ∧ o < 0x70000 then
    let k := o - 0x68000
    if k < 112 * 0x120 then some (y.recGet x (g + o - k % 0x120) (k / 0x120) (k % 0x120 / 8)) else some 0
  else if 0x70000 ≤ o ∧ o < 0x78000 then
    let k := o - 0x70000
    some (match ((x.fqOf (BitVec.ofNat 3 (k / 0x1000)))[k % 0x1000 / 0x100]?).bind (·.data) with
      | some r => fld r (8 * (k % 0x100)) 64
      | none => (y.held (g + o)).getD 0)
  else if 0x78000 ≤ o ∧ o < 0x78800 then some ((y.held (g + o)).getD (Config.openWord ((s.fs d).pathPart p) (o - 0x78000)))
  else if 0x7C000 ≤ o ∧ o < 0x7D000 then
    let n := (o - 0x7C000) / 8
    if n = 3 then some (BitVec.ofNat 64 p.val)
    else if n ∈ staCsrs then some (s.csrRead d p n)
    else some ((y.held (g + o)).getD (Config.openWord (y.otherPart x) n))
  else if 0x7D000 ≤ o ∧ o < 0x7F000 then
    let k := o - 0x7D000
    some (y.slotGet p (k / 0x400) (k % 0x400 / 0x200) (g + o - k % 0x200) (k % 0x200 / 8) s.ctr)
  else none

/-- A row with its 64-bit word at byte `b` written. -/
def rowPut (r : Row) (b : Nat) (v : W64) : Row := setFld r (8 * b) 64 v.toNat

/-- A station CSR written by FRZWR, its bits taken as they are (R296). -/
def Station.csrPut (x : Station) (n : Nat) (v : W64) : Station :=
  match n with
  | 0x020 => { x with rotd := { pd := (fld v 16 5).toNat, rb := (fld v 8 4).toNat, d := (fld v 0 5).toNat } }
  | 0x021 => { x with fpctl := v &&& fpctlMask }
  | 0x022 => { x with noise := { x.noise with seed := fld v 32 32, mode := fld v 0 2 } }
  | 0x040 => { x with locreq := v }
  | 0x041 => { x with remreq := v }
  | _ => { x with scslot := kput 0 (n - 0x080) v x.scslot }

/-- A write to a word of a frozen station; `none` where it is unmapped (R295, R296). A word of an open layout changes its part in a way
the spec does not give, and reads back (DESIGN CHOICE, log 15). -/
def State.staPut (s : State) (d : DieId) (p : Pos) (o : Nat) (v : W64) : Option State :=
  let y := s.die d
  let x := y.frozenSta p
  let g := p.val * 0x100000
  let put (x : Station) : Option State := some (s.setDie d (y.setFrozen p x))
  if o < 0x40000 then
    let b := BitVec.ofNat 3 (o / 0x8000)
    let r := o / 0x100 % 128
    some (s.setDie d ((y.setFrozen p (x.setBankRow b r (rowPut (x.bankRow b r) (o % 0x100) v))).heal
      (fun k => .bank p (o / 4 + k)) 2))
  else if o < 0x60000 then
    let k := o - 0x40000
    let key := k / 0x100
    some (s.setDie d ((y.setFrozen p { x with v := kput 0 key (rowPut (kget 0 key x.v) (k % 0x100) v) x.v }).heal
      (fun j => .vreg p (k / 4 + j)) 2))
  else if o < 0x60400 then
    let k := o - 0x60000
    let m := k / 0x80
    if m = 0 then some s
    else
      some (s.setDie d ((y.setFrozen p { x with m := kput 0 m (setFld (kget 0 m x.m) (8 * (k % 0x80)) 64 v.toNat) x.m }).heal
        (fun j => .mask p (k / 4 + j)) 2))
  else if 0x61000 ≤ o ∧ o < 0x63000 then
    let k := (o - 0x61000) / 8
    some (s.setDie d ((y.setFrozen p { x with pad := kput 0 k v x.pad }).heal (fun j => .pad p (2 * k + j)) 2))
  else if 0x64000 ≤ o ∧ o < 0x68000 then
    let st := strmOf (BitVec.ofNat 2 ((o - 0x64000) / 0x1000))
    let r := y.ctxPut p x st (g + o - o % 0x1000) (o % 0x1000) v
    some (s.setDie d (r.1.setFrozen p r.2))
  else if 0x68000 ≤ o ∧ o < 0x70000 then
    let k := o - 0x68000
    if k < 112 * 0x120 then
      let r := y.recPut p x (g + o - k % 0x120) (k / 0x120) (k % 0x120 / 8) v
      some (s.setDie d (r.1.setFrozen p r.2))
    else some s
  else if 0x70000 ≤ o ∧ o < 0x78000 then
    let k := o - 0x70000
    let q := BitVec.ofNat 3 (k / 0x1000)
    match ((x.fqOf q)[k % 0x1000 / 0x100]?).bind (·.data) with
    | none => some (s.setDie d (y.holdWord (g + o) v))
    | some r =>
      let n := k % 0x1000 / 0x100
      let e := (x.fqOf q)[n]?
      some (s.setDie d ((y.setFrozen p (x.setFq q ((x.fqOf q).zipIdx.map fun e =>
        if e.2 = n then { e.1 with data := some (rowPut r (k % 0x100) v) } else e.1))).heal
          (fun j => .fqrow p (64 * ((e.map (·.seq)).getD 0) + k % 0x100 / 4 + j)) 2))
  else if 0x78000 ≤ o ∧ o < 0x78800 then
    let l := (s.fs d).pathPart p
    some ((s.setFs d ((s.fs d).setPath p (Config.openPut l (o - 0x78000) v))).setDie d (y.holdWord (g + o) v))
  else if 0x7C000 ≤ o ∧ o < 0x7D000 then
    let n := (o - 0x7C000) / 8
    if n = 3 then some s
    else if n ∈ staCsrs then put (x.csrPut n v)
    else
      some (s.setDie d ((y.setFrozen p (y.setOther x (Config.openPut (y.otherPart x) n v))).holdWord (g + o) v))
  else if 0x7D000 ≤ o ∧ o < 0x7F000 then
    let k := o - 0x7D000
    some (s.setDie d (y.slotPut p (k / 0x400) (k % 0x400 / 0x200) (g + o - k % 0x200) (k % 0x200 / 8) v s.ctr))
  else none

-- ## Cells, accumulators and the die (R167, R182, R196, R295)

/-- A word of a cell; `ft` and `bt` are its FT and BT. -/
def Cell.word (c : Cell) (ft bt : W32) (k : Nat) : W64 :=
  match k with
  | 0 => c.be1 ++ c.be0 ++ c.fe1 ++ c.fe0
  | 1 => 0#48 ++ c.par ++ 0#4 ++ c.seated
  | 2 => c.pg ++ c.g
  | 3 => (b1 c.pgv).setWidth 64
  | 4 => 0#32 ++ ft
  | 5 => fld c.fx 0 64
  | 6 => fld c.fx 64 64
  | 7 => fld c.fi 0 64
  | 8 => fld c.fi 64 64
  | 9 => fld c.fi 128 64
  | 10 => fld c.fc 0 64
  | 11 => fld c.fc 64 64
  | 12 => fld c.fc 128 64
  | 13 => fld c.fc 192 64
  | 14 => 0#32 ++ bt
  | 15 => c.bd.setWidth 64
  | 16 => c.bx.setWidth 64
  | 17 => fld c.bs 0 64
  | 18 => fld c.bs 64 64
  | 19 => c.bc
  | 20 => c.sl.setWidth 64
  | 21 => c.ll.setWidth 64
  | _ => 0

/-- FRZWR to a word of a cell: parity follows where an image, G or PG is written, and FT and BT take none (R296). -/
def Cell.putWord (c : Cell) (k : Nat) (v : W64) : Cell :=
  match k with
  | 0 => (((c.setImage 0 (fld v 0 16)).setImage 1 (fld v 16 16)).setImage 2 (fld v 32 16)).setImage 3 (fld v 48 16)
  | 1 => { c with seated := fld v 0 4, par := fld v 8 8 }
  | 2 => (c.setG (fld v 0 32)).setPg (fld v 32 32) c.pgv
  | 3 => c.setPg c.pg (bit v 0)
  | 5 => { c with fx := setFld c.fx 0 64 v.toNat }
  | 6 => { c with fx := setFld c.fx 64 64 v.toNat }
  | 7 => { c with fi := setFld c.fi 0 64 v.toNat }
  | 8 => { c with fi := setFld c.fi 64 64 v.toNat }
  | 9 => { c with fi := setFld c.fi 128 32 v.toNat }
  | 10 => { c with fc := setFld c.fc 0 64 v.toNat }
  | 11 => { c with fc := setFld c.fc 64 64 v.toNat }
  | 12 => { c with fc := setFld c.fc 128 64 v.toNat }
  | 13 => { c with fc := setFld c.fc 192 64 v.toNat }
  | 15 => { c with bd := fld v 0 16 }
  | 16 => { c with bx := fld v 0 32 }
  | 17 => { c with bs := setFld c.bs 0 64 v.toNat }
  | 18 => { c with bs := setFld c.bs 64 32 v.toNat }
  | 19 => { c with bc := v }
  | 20 => { c with sl := fld v 0 32 }
  | 21 => { c with ll := fld v 0 32 }
  | _ => c

/-- A word of an accumulator. -/
def Acc.word (a : Acc) (k : Nat) : W64 := if k = 0 then a.m else 0#32 ++ a.e ++ a.gw

def Acc.putWord (a : Acc) (k : Nat) (v : W64) : Acc :=
  if k = 0 then { a with m := v } else { a with e := fld v 16 16, gw := fld v 0 16 }

/-- The window as AWIN's operand lays it out (R187). -/
def Window.word (w : Window) : W64 :=
  0#24 ++ BitVec.ofNat 10 w.row0 ++ BitVec.ofNat 10 w.col0 ++ BitVec.ofNat 10 (w.wr - 1) ++ BitVec.ofNat 10 (w.wc - 1)

/-- CSRs of a die that its frozen state holds (R295). -/
def dieCsrs : List Nat :=
  [0x001, 0x008, 0x009, 0x030, 0x031, 0x032, 0x058, 0x060, 0x071, 0x072] ++ (List.range 16).map (0x048 + ·)

/-- An absent cycle reads as all ones. -/
def cycWord (n : Option Nat) : W64 := match n with | some k => BitVec.ofNat 64 k | none => BitVec.allOnes 64

def cycOf (v : W64) : Option Nat := if v = BitVec.allOnes 64 then none else some v.toNat

/-- The mode as AMODE's MOD lays it out (DESIGN CHOICE, log 15). -/
def Die.modeWord (y : Die) : W64 := 0#60 ++ gnanCode y.gnan ++ fimgCode y.fimg

/-- A word of the die state at offset `o`. -/
def State.dieGet (s : State) (d : DieId) (o : Nat) : W64 :=
  let y := s.die d
  if o < 0x800 then (if o / 8 ∈ dieCsrs then s.csrRead d 0 (o / 8) else 0)
  else if o = 0x800 then y.window.word
  else if o = 0x808 then y.shown 0x21000808 y.modeWord
  else if o = 0x810 then cycWord y.rampLast
  else if o = 0x818 then cycWord y.rampEvent
  else if 0x820 ≤ o ∧ o < 0x850 then
    let n := (o - 0x820) / 2
    (y.copy (n + 3)).ph ++ (y.copy (n + 2)).ph ++ (y.copy (n + 1)).ph ++ (y.copy n).ph
  else 0

/-- A phase copy with PH written. -/
def Die.copyPut (d : Die) (n : Nat) (v : BitVec 16) : Die :=
  { d with copies := kput {} n { d.copy n with ph := v } d.copies }

/-- A write to a word of the die state; those that take no FRZWR are written by UNSTOW alone (R296, R301). A mode code that names no
mode reads back and leaves the mode (DESIGN CHOICE, log 15). -/
def State.dieSet (s : State) (d : DieId) (o : Nat) (v : W64) (unstow : Bool) : State :=
  let y := s.die d
  if o < 0x800 then
    match o / 8 with
    | 0x001 => if unstow then s.setDie d { y with dcyc := v.toNat } else s
    | 0x008 => if unstow then s.setDie d { y with holdcnt := (fld v 0 32).toNat } else s
    | 0x071 => if unstow then s.setDie d { y with trapcause := v, unexec := bit v 61 } else s
    | 0x072 => if unstow then s.setDie d { y with trappos := v } else s
    | 0x060 => s.setDie d { y with rdverr := v &&& 0x9FFF }
    | n => if n ∈ dieCsrs then s.csrWrite d 0 n v else s
  else if o = 0x800 then s.setDie d { y with window := windowOf (v.setWidth 40) }
  else if o = 0x808 then
    let f := match (fld v 0 2).toNat with | 0 => Fimg.mx8 | 1 => .mx6 | 2 => .mx4 | _ => y.fimg
    let g := match (fld v 2 2).toNat with | 0 => Gnan.gprop | 1 => .gzero | 2 => .gtrap | _ => y.gnan
    let z := { y with fimg := f, gnan := g }
    s.setDie d (z.shadeWord 0x21000808 (v &&& 0xF) z.modeWord)
  else if o = 0x810 then s.setDie d { y with rampLast := cycOf v }
  else if o = 0x818 then s.setDie d { y with rampEvent := cycOf v }
  else if 0x820 ≤ o ∧ o < 0x850 then
    let n := (o - 0x820) / 2
    s.setDie d ((List.range 4).foldl (fun y k => y.copyPut (n + k) (fld v (16 * k) 16)) y)
  else s

-- ## The whole map (R295)

/-- The ADMIT whose FWD (`bwd` false) or BWD front holds cell `k` in the frozen cycle (R172, R196). -/
def Die.frontAt (d : Die) (k : Nat) (bwd : Bool) : Option Work :=
  d.works.find? fun w => w.kind == (if bwd then .bwd else .fwd) && (w.fronts (d.goAt 0)).any fun fa =>
    (if bwd then bwdCells w.win fa.2 else fwdCells w.win fa.2).contains (k / 1024, k % 1024)

/-- FT (`bwd` false) or BT of cell `k`: a fixed function of the ADMIT whose front holds the cell, the same in every cell that it passes,
and of there being none (R196; DESIGN CHOICE, log 15). -/
def Die.frontWord (d : Die) (k : Nat) (bwd : Bool) : W32 :=
  (Config.openWord ((d.frontAt k bwd).map fun w => { w with adm := 0 }) 0).setWidth 32

/-- An FSA whose contents lie in an open layout (R295). -/
def openAddr (a : Nat) : Bool :=
  let o := a % 0x100000
  (decide (a < 0x8000000) && (decide (0x78000 ≤ o ∧ o < 0x78800) ||
    decide (0x7C000 ≤ o ∧ o < 0x7D000 ∧ (o - 0x7C000) / 8 ≠ 3 ∧ (o - 0x7C000) / 8 ∉ staCsrs))) ||
    decide (0x20040000 ≤ a ∧ a < 0x20080000) || decide (0x10000000 ≤ a ∧ a < 0x20000000 ∧ (a % 0x100 = 0x20 ∨ a % 0x100 = 0x70))

/-- The frozen word at an FSA; `none` where it is unmapped. -/
def State.frzGet (s : State) (d : DieId) (a : Nat) : Option W64 :=
  let y := s.die d
  if a % 8 ≠ 0 then none
  else if a < 0x8000000 then s.staGet d (Fin.ofNat 128 (a / 0x100000)) (a % 0x100000)
  else if 0x10000000 ≤ a ∧ a < 0x20000000 then
    let k := (a - 0x10000000) / 0x100
    some ((kget {} k y.cells : Cell).word (y.frontWord k false) (y.frontWord k true) (a % 0x100 / 8))
  else if 0x20000000 ≤ a ∧ a < 0x20020000 then some ((kget {} ((a - 0x20000000) / 16) y.accE : Acc).word (a % 16))
  else if 0x20020000 ≤ a ∧ a < 0x20028000 then some ((kget {} ((a - 0x20020000) / 16) y.accN : Acc).word (a % 16))
  else if 0x20040000 ≤ a ∧ a < 0x20080000 then
    some ((y.held a).getD (Config.openWord (y.skewPart ((a - 0x20040000) / 0x10000)) (a % 0x10000)))
  else if 0x21000000 ≤ a ∧ a < 0x21001000 then some (s.dieGet d (a - 0x21000000))
  else if a = 0x21001000 then some (BitVec.ofNat 64 y.bivbase)
  else if a = 0x21001008 then some (BitVec.ofNat 64 y.bivend)
  else if a = 0x21001010 then some (BitVec.ofNat 64 y.sva)
  else if a = 0x21001018 then some (BitVec.ofNat 64 y.svoff)
  else none

/-- A FRZWR has written word `n` of cell `k`: BS of token 0 lies in word 17, that of token 1 for the most part in word 18 (R318; DEDUCED,
log 87). -/
def HeldPromo.mark (h : HeldPromo) (k n : Nat) : HeldPromo := if h.cell = k ∧ n = 17 + h.token then { h with wrote := true } else h

/-- The frozen word at an FSA written; `none` where it is unmapped (R296, R301). UNSTOW leaves an open word that already reads as its
image has it. -/
def State.frzPut (s : State) (d : DieId) (a : Nat) (v : W64) (unstow : Bool) : Option State :=
  let y := s.die d
  let die (y : Die) : Option State := some (s.setDie d y)
  if a % 8 ≠ 0 then none
  else if unstow && openAddr a && s.frzGet d a == some v then some s
  else if a < 0x8000000 then s.staPut d (Fin.ofNat 128 (a / 0x100000)) (a % 0x100000) v
  else if 0x10000000 ≤ a ∧ a < 0x20000000 then
    let k := (a - 0x10000000) / 0x100
    die { y with cells := kput {} k ((kget {} k y.cells).putWord (a % 0x100 / 8) v) y.cells,
                 promos := if unstow then y.promos else y.promos.map (·.mark k (a % 0x100 / 8)) }
  else if 0x20000000 ≤ a ∧ a < 0x20020000 then
    let k := (a - 0x20000000) / 16
    die { y with accE := kput {} k ((kget {} k y.accE).putWord (a % 16) v) y.accE }
  else if 0x20020000 ≤ a ∧ a < 0x20028000 then
    let k := (a - 0x20020000) / 16
    die { y with accN := kput {} k ((kget {} k y.accN).putWord (a % 16) v) y.accN }
  else if 0x20040000 ≤ a ∧ a < 0x20080000 then
    let n := (a - 0x20040000) / 0x10000
    die ((y.setSkew n (Config.openPut (y.skewPart n) (a % 0x10000) v)).holdWord a v)
  else if 0x21000000 ≤ a ∧ a < 0x21001000 then some (s.dieSet d (a - 0x21000000) v unstow)
  else if a = 0x21001000 then die { y with bivbase := v.toNat }
  else if a = 0x21001008 then die { y with bivend := v.toNat }
  else if a = 0x21001010 then die { y with sva := (fld v 0 48).toNat }
  else if a = 0x21001018 then die { y with svoff := v.toNat }
  else none

-- ## FRZRD and FRZWR (R296)

/-- HSTA.FBAD is set on the die of the issuing word. -/
def State.setFbad (s : State) : State := s.updDie fun d => { d with hsta := { d.hsta with fbad := true } }

/-- FRZRD (R294, R296). -/
def execFrzrd (d : BitVec 6) (a : Scal) (v : W32) (s : State) : Out :=
  if !s.focus.handler then raise s .wrongStream
  else
    match s.frzGet s.focus.die (s.ea a v).toNat with
    | some w => .next (s.putScal 4 d w).bump
    | none => .next (s.setFbad.putScal 4 d 0)

/-- FRZWR (R294, R296): the write comes at the end of the cycle. -/
def execFrzwr (a b : Scal) (v : W32) (s : State) : Out :=
  if !s.focus.handler then raise s .wrongStream
  else
    let f := (s.ea a v).toNat
    if (s.frzGet s.focus.die f).isNone then .next s.setFbad else .next (s.later (.frz f (s.scal b)))

end Sys2Proof.Machine
end

