-- ==== Sys2Proof/Machine/Bivouac.lean ====
section
/-! DEFINITION. The bivouac area: the image of a frozen die in far memory, and the steps of STOW and UNSTOW (R282, R292, R299
to R301). -/

namespace Sys2Proof.Machine

-- ## CRC-32C

/-- `n` steps of the reflected Castagnoli register (CRC-32C of R273, R274, R299). -/
def crcBits : Nat → W32 → W32
  | 0, c => c
  | n + 1, c => crcBits n (if bit c 0 then (c >>> 1) ^^^ 0x82F63B78 else c >>> 1)

/-- CRC-32C of a byte string. -/
def crc32c (l : List Byte) : W32 := ~~~ (l.foldl (fun c b => crcBits 8 (c ^^^ b.setWidth 32)) (BitVec.allOnes 32))

-- ## Whole accesses of 256 B granules by the base camp and by STOW (R83 to R87, R255)

/-- Where an access of a VA goes: its home, a not-present page, or an error response. -/
inductive Xlate where
  | home (h : DieId) (dla : Nat)
  | absent
  | bad (cause : Byte)
  deriving DecidableEq, Repr

/-- A home and its address, or the error in their place. -/
def Xlate.of : Except Byte (DieId × Nat) → Xlate
  | .ok r => .home r.1 r.2
  | .error c => .bad c

/-- The walk from the table entry of a level at a home's DLA (R83, R84). -/
def State.walkFrom (s : State) (d : DieId) (op : FarOp) (va : Nat) : Nat → Nat → DieId → Nat → Xlate
  | 0, _, _, _ => .bad cUnmapped
  | n + 1, level, h, dla =>
    if (s.fs h).mcReset then .bad cNotReady
    else if (s.fs h).badSpan dla 8 then .bad cUncorr
    else
      let e := memWord s.mem (memKey h dla)
      if !bit e 0 then .absent
      else if bit e 1 then (if badLeaf e then .bad cUnmapped else Xlate.of (leafTo (s.fs d).regions op level e va))
      else if badTable level e then .bad cUnmapped
      else
        s.walkFrom d op va n (level + 1) (Fin.ofNat 4 ((fld e 5 3).toNat - 4))
          ((fld e 16 21).toNat * 2 ^ 16 + 8 * levelIdx va (level + 1))

/-- The translation of a VA on a die (R83 to R87). -/
def State.xlate (s : State) (d : DieId) (op : FarOp) (va : Nat) : Xlate :=
  let f := s.fs d
  match f.tlbHit va with
  | some e => Xlate.of (leafTo f.regions op e.level e.entry va)
  | none =>
    if f.noRoot then .bad cUnmapped
    else
      s.walkFrom d op va 3 0 (Fin.ofNat 4 ((fld f.xroot 5 3).toNat - 4)) ((fld f.xroot 16 21).toNat * 2 ^ 16 + 8 * levelIdx va 0)

/-- The far request of a whole granule. -/
def granuleReq (p : Pos) (parcel : Parcel) (va : Nat) (op : FarOp) : FarReq :=
  { seq := 0, src := .path, pos := p, port := p, strm := .c, parcel := parcel, issued := 0, va := va, lo := 0, hi := 63, row := 0, op := op,
    phase := .np }

/-- How a whole access of a granule has gone. -/
inductive Done where
  | ok (s : State) (data : Row)
  | absent
  | bad (cause : Byte)

/-- A granule of a home read or written whole, its row left open (R91, R92, R98, R255). -/
def State.atHome (s : State) (h : DieId) (dla : Nat) (op : FarOp) : Done :=
  let q := granuleReq 0 0 0 op
  let r := performFar s.mem (s.fs h) h dla q
  if r.2.2 = 0 then .ok ({ s with mem := r.1, olds := [] }.setFs h (((s.fs h).healed dla q).touch s.sidc dla)) r.2.1 else .bad r.2.2

/-- A granule of a die's VA read or written whole. -/
def State.granule (s : State) (d : DieId) (va : Nat) (op : FarOp) : Done :=
  match s.xlate d op va with
  | .home h dla => s.atHome h dla op
  | .absent => .absent
  | .bad c => .bad c

/-- A not-present page is reported to the host once, for the word at `p` that met it (R88). -/
def State.reportPage (s : State) (d : DieId) (p : Pos) (va : Nat) (kind : BitVec 2) : State :=
  let f := s.fs d
  let page := va / 2 ^ 16
  if f.reported.contains page then s
  else
    (s.setFs d { f with reported := page :: f.reported }).hostEvent 1 0xA0 d
      (0#16 ++ BitVec.ofNat 32 page ++ 0#5 ++ BitVec.ofNat 7 p.val ++ kind ++ 0#2)

-- ## The image (R299)

/-- The parts of a station's body with D live rotating registers, by offset and length. -/
def staParts (dn : Nat) : List (Nat × Nat) :=
  [(0, 0x40000), (0x40000, (16 + dn) * 0x1000), (0x60000, 0x400), (0x61000, 0x2000), (0x64000, 0x4000), (0x68000, 0x8000),
    (0x70000, 0x8000), (0x78000, 0x800), (0x7C000, 0x1000), (0x7D000, 0x2000)]

/-- The parts of a body by FSA and length, ascending; `dm` holds ROTD.D by position. -/
def bodyParts (dm : List Nat) : List (Nat × Nat) :=
  (dm.zipIdx.flatMap fun e => (staParts e.1).map fun r => (e.2 * 0x100000 + r.1, r.2)) ++
    [(0x10000000, 0x10000000), (0x20000000, 0x20000), (0x20020000, 0x8000), (0x20040000, 0x40000), (0x21000000, 0x1000)]

/-- The FSA of body byte `o`; padding has none. -/
def partAt : List (Nat × Nat) → Nat → Option Nat
  | [], _ => none
  | (b, n) :: t, o => if o < n then some (b + o) else partAt t (o - n)

/-- BODY, padded to 256 B (R299). -/
def bodyLen (dm : List Nat) : Nat := ((bodyParts dm).foldl (fun n r => n + r.2) 0 + 255) / 256 * 256

/-- ROTD.D of every station of a die, 16 where a handler has left more there (DESIGN CHOICE, log 15). -/
def Die.dmap (d : Die) : List Nat := allPos.map fun p => min 16 (d.sta p).rotd.d

/-- DMAP as ten words. -/
def dmapWords (dm : List Nat) : List W64 :=
  let n := dm.foldr (fun x n => x % 32 + 32 * n) 0
  (List.range 10).map fun k => BitVec.ofNat 64 (n / 2 ^ (64 * k))

/-- The 256 B header of a die's image (R299). -/
def State.bivHeader (s : State) (d : DieId) (off : Nat) (complete : Bool) : List Byte :=
  let x := s.die d
  let w0 : W64 := 0x42495655#32 ++ b1 complete ++ 0#13 ++ BitVec.ofNat 2 d.val ++ x.team
  let body : List W64 :=
    [w0, BitVec.ofNat 64 x.sfrz, BitVec.ofNat 64 (bodyLen x.dmap), BitVec.ofNat 64 off] ++ dmapWords x.dmap ++ List.replicate 17 0
  let l := bytesOf body ++ List.replicate 4 0
  l ++ leBytes (crc32c l) 4

/-- A granule of the body at offset `off`: its words of the frozen state, zero in the padding. -/
def State.bodyRow (s : State) (d : DieId) (dm : List Nat) (off : Nat) : Row :=
  let parts := bodyParts dm
  rowOfBytes (bytesOf ((List.range 32).map fun k =>
    match partAt parts (off + 8 * k) with
    | some a => (s.frzGet d a).getD 0
    | none => 0))

-- ## Far work in flight (R300)

/-- The request waits on a not-present page, or behind one that does (DEDUCED, log 28). -/
def FarSide.blocked (f : FarSide) (r : FarReq) : Bool :=
  r.phase == .np || f.reqs.any fun a => a.phase == .np && a.ahead r

/-- A request of haul `c`. -/
def FarReq.ofCmd (r : FarReq) (c : HaulCmd) : Bool := match r.src with | .haul k _ _ => k == c.key | _ => false

/-- Far work of a die is in flight that does not wait on a not-present page. -/
def FarSide.busyFar (f : FarSide) : Bool :=
  !f.flight.isEmpty || f.reqs.any (fun r => !f.blocked r) ||
    f.hauls.any fun c => !f.reqs.any fun r => r.ofCmd c && f.blocked r

/-- Far work of a die is in flight. -/
def FarSide.anyFar (f : FarSide) : Bool := !f.flight.isEmpty || !f.reqs.isEmpty || !f.hauls.isEmpty

-- ## STOW (R300)

/-- An error response that a stow or unstow meets (R94). -/
def State.stowError (s : State) (d : DieId) (k : StowOp) (va : Nat) (c : Byte) : State :=
  let x := s.die d
  s.setDie d (x.violate (if k.who = .handler then x.hpos else x.hsta.pos) .c k.parcel va c)

def State.setStow (s : State) (d : DieId) (k : StowOp) : State := s.setDie d { s.die d with stow := some k }

/-- The station that a stow or unstow is made for (R88, R94). -/
def Die.stowPos (d : Die) (k : StowOp) : Pos := if k.who = .handler then d.hpos else d.hsta.pos

/-- A granule of a stow's header or body is written; a failure is reported or logged. -/
def State.stowWrite (s : State) (d : DieId) (k : StowOp) (va : Nat) (r : Row) : State × Bool :=
  match s.granule d va (.write r) with
  | .ok t _ => (t, true)
  | .absent => (s.reportPage d ((s.die d).stowPos k) va 1, false)
  | .bad c => (s.stowError d k va c, false)

/-- stop(code) of R300: OFFSET and COMPLETE of the header are rewritten where its page allows. -/
def State.stowStop (s : State) (d : DieId) (k : StowOp) (code : Byte) : State :=
  let t :=
    match s.granule d k.va .read with
    | .ok u r =>
      let r1 := setFld (setFld r 31 1 0) 192 64 k.off
      match u.granule d k.va (.write r1) with
      | .ok t _ => t
      | _ => u
    | _ => s
  t.setDie d { t.die d with sva := k.va, svoff := k.off, stow := some { k with out := some code } }

/-- A die with its handler station's timetable context in place (R293). -/
def Die.unswapped (x : Die) : Die :=
  match x.saved with
  | some k => { x.setSta x.hpos { (x.sta x.hpos).setCtx .c k.ctx with s := k.s, div := k.div } with saved := none }
  | none => x

/-- The image in far memory holds the open-layout parts of the die as it stands (R299; DESIGN CHOICE, log 16). -/
def State.takeSnap (s : State) (d : DieId) : State :=
  let n : Snap := { die := d, image := (s.die d).unswapped }
  { s with snaps := n :: s.snaps.filter (· != n) }

/-- The final header of a STOW. -/
def State.stowFinish (s : State) (d : DieId) (k : StowOp) : State :=
  let r := s.stowWrite d k k.va (rowOfBytes (s.bivHeader d k.off true))
  if r.2 then (r.1.takeSnap d).setStow d { k with out := some 0 } else r.1.stowStop d k 0xC0

/-- Body granules of one cycle, `n` at most. -/
def State.stowBody (s : State) (d : DieId) (dm : List Nat) : Nat → StowOp → State
  | 0, k => if k.off ≥ bodyLen dm then s.stowFinish d k else s.setStow d k
  | n + 1, k =>
    if k.off ≥ bodyLen dm then s.stowFinish d k
    else if k.va + 256 + k.off + 256 > (s.die d).bivend then s.stowStop d k 0xC1
    else
      let r := s.stowWrite d k (k.va + 256 + k.off) (s.bodyRow d dm k.off)
      if r.2 then r.1.stowBody d dm n { k with off := k.off + 256 } else r.1.stowStop d k 0xC0

/-- One cycle of a STOW: the wait for far work, the header, the scan of 2,060 c, and 16,384 B of body per cycle. A pre-emption's stow
does not wait: its far work ends by itself (R282, R283; DEDUCED, log 28). -/
def State.stowStep (s : State) (d : DieId) (k : StowOp) : State :=
  let x := s.die d
  match k.until_ with
  | some t => if s.sidc < t then s else s.stowBody d x.dmap 64 k
  | none =>
    if k.who ≠ .preempt ∧ (s.fs d).busyFar then s
    else if k.who ≠ .preempt ∧ (s.fs d).anyFar then s.stowStop d k 0xC0
    else
      let cont := x.sva == k.va && x.svoff != 0
      let k1 := { k with off := if cont then x.svoff else 0, until_ := some (s.sidc + 2060) }
      if cont then s.setStow d k1
      else
        let r := s.stowWrite d k k.va (rowOfBytes (s.bivHeader d 0 false))
        if r.2 then r.1.setStow d k1 else r.1.stowStop d k1 0xC0

/-- STOW's first check: the image must begin inside the die's share. -/
def Die.stowFits (d : Die) (va : Nat) : Bool := decide (d.bivbase ≤ va) && decide (va + 256 ≤ d.bivend)

/-- A STOW or UNSTOW of a die begins. -/
def State.stowStart (s : State) (d : DieId) (who : StowFor) (unstow : Bool) (parcel : Parcel) (va : Nat) : State :=
  let x := s.die d
  let out : Option Byte := if !unstow && !x.stowFits va then some 0xC1 else none
  let k : StowOp := { who := who, unstow := unstow, parcel := parcel, va := va, off := 0,
                      until_ := if unstow then some (s.sidc + 1 + s.fresh) else none, out := out }
  (s.setStow d k).bump

/-- The granules of an image's body whose words have changed since they were stowed, from `off` on, `n` of them, are written again;
whether all could be. -/
def State.restow (s : State) (d : DieId) (dm : List Nat) (va : Nat) : Nat → Nat → State × Bool
  | 0, _ => (s, true)
  | n + 1, off =>
    let r := s.bodyRow d dm off
    let at_ := va + 256 + off
    match s.granule d at_ .read with
    | .ok u old =>
      if old = r then u.restow d dm va n (off + 256)
      else match u.granule d at_ (.write r) with
        | .ok t _ => t.restow d dm va n (off + 256)
        | _ => (u, false)
    | _ => (s, false)

-- ## UNSTOW (R301)

/-- The header of an image of this die and team is whole (R299, R301). -/
def headerOk (d : DieId) (team : BitVec 16) (r : Row) : Bool :=
  fld r 32 32 == (0x42495655 : W32) && bit r 31 && fld r 16 2 == BitVec.ofNat 2 d.val && fld r 0 16 == team &&
    fld r 2016 32 == crc32c ((List.range 252).map fun i => byteOf r i)

/-- DMAP of a header. -/
def headerDmap (r : Row) : List Nat := (List.range 128).map fun p => min 16 (fld r (256 + 5 * p) 5).toNat

/-- The words of a body granule written into the frozen state. -/
def State.putRow (s : State) (d : DieId) (parts : List (Nat × Nat)) (off : Nat) (r : Row) : State :=
  (List.range 32).foldl (fun t k =>
    match partAt parts (off + 8 * k) with
    | some a => (t.frzPut d a (fld r (64 * k) 64) true).getD t
    | none => t) s

/-- The granules of a body from `off` on, `n` of them, that can be read before one fails, what that one meets, and the state after the
reads (R98, R301). -/
def State.bodyRows (s : State) (d : DieId) (va : Nat) : Nat → Nat → State × List Row × Option (Nat × Xlate)
  | 0, _ => (s, [], none)
  | n + 1, off =>
    match s.granule d (va + 256 + off) .read with
    | .ok t r =>
      let u := t.bodyRows d va n (off + 256)
      (u.1, r :: u.2.1, u.2.2)
    | .absent => (s, [], some (va + 256 + off, .absent))
    | .bad c => (s, [], some (va + 256 + off, .bad c))

/-- The word at an FSA in the body's rows that have been read. -/
def wordIn (parts : List (Nat × Nat)) (rows : List Row) (a : Nat) : Option W64 :=
  rows.zipIdx.findSome? fun e =>
    ((List.range 32).find? fun k => partAt parts (256 * e.2 + 8 * k) == some a).map fun k => fld e.1 (64 * k) 64

/-- The handler station while the handler runs: the context that the image holds becomes its frozen one (R293, R301). -/
def Die.underHandler (img cur : Die) : Die :=
  match cur.saved with
  | none => { img with saved := none }
  | some _ =>
    let x := img.sta cur.hpos
    let y := cur.sta cur.hpos
    { img.setSta cur.hpos { x.setCtx .c (y.ctxOf .c) with s := y.s, div := y.div } with
      saved := some { ctx := x.ctxOf .c, s := x.s, div := x.div } }

/-- The parts of a snapshot that an UNSTOW brings back, with everything that is no part of the frozen state left as it stands
(R296, R301; DESIGN CHOICE, log 16). A whole team that resumes brings its own HSTA and rendezvous points back (R284). -/
def Die.fromSnap (cur img : Die) (team : Bool) : Die :=
  let sta (p : Pos) : Station :=
    let x := img.sta p
    let y := cur.sta p
    let z := { x with plane := y.plane, shadow := y.shadow, kept := y.kept }
    if team then z else { z with fences := y.fences, releases := y.releases, live := y.live, snap := y.snap }
  let base : Die :=
    { img with
      stations := (Vector.finRange 128).map sta,
      late := cur.late, reports := cur.reports, reportAt := cur.reportAt, cond := cur.cond, team := cur.team, holds := cur.holds,
      hctx := cur.hctx, hpos := cur.hpos, hwrites := cur.hwrites,
      handlerNext := cur.handlerNext, stow := cur.stow, monitors := cur.monitors, debugAt := cur.debugAt, stopAt := cur.stopAt,
      restoreAt := cur.restoreAt, preemptAt := none, tele := cur.tele, bad := cur.bad, eoc := cur.eoc, ended := cur.ended, asyncs := cur.asyncs,
      causes := cur.causes, latchNow := cur.latchNow, rdverrAt := cur.rdverrAt,
      sva := cur.sva, svoff := cur.svoff, bivbase := cur.bivbase, bivend := cur.bivend }
  let kept : Die :=
    if team then base
    else { base with hsta := cur.hsta, masters := cur.masters, copies := cur.copies, msgs := cur.msgs, xch := cur.xch }
  kept.underHandler cur

/-- A snapshot belongs to an image: its die and freeze are those of the header, and every open word that has been read is as the
snapshot has it (R299, R301; DESIGN CHOICE, log 16). -/
def State.snapFits (s : State) (d : DieId) (header : Row) (parts : List (Nat × Nat)) (rows : List Row) (n : Snap) : Bool :=
  let t := s.setDie d n.image
  n.die == d && decide (n.image.sfrz = (fld header 64 64).toNat) && rows.zipIdx.all fun e =>
    (List.range 32).all fun k =>
      match partAt parts (256 * e.2 + 8 * k) with
      | some a => !openAddr a || t.frzGet d a == some (fld e.1 (64 * k) 64)
      | none => true

/-- The frozen state from which the words of an image are written on: its snapshot where there is one, with only the stations
whose words have all been read where a granule fails. -/
def State.unstowBase (s : State) (d : DieId) (k : StowOp) (header : Row) (parts : List (Nat × Nat)) (rows : List Row)
    (whole : Bool) : State :=
  match s.snaps.find? (s.snapFits d header parts rows) with
  | none => s
  | some n =>
    let x := s.die d
    let y := x.fromSnap n.image (k.who == .resume)
    if whole then s.setDie d y
    else
      s.setDie d (allPos.foldl (fun z p =>
        if (wordIn parts rows (p.val * 0x100000 + 0x7EFF8)).isSome then z.setFrozen p (y.frozenSta p) else z) x)

/-- ROTD.D of every station from DMAP (R301). -/
def Die.putDmap (d : Die) (dm : List Nat) : Die :=
  (allPos.zip dm).foldl (fun d e =>
    if min 16 (d.sta e.1).rotd.d = e.2 then d
    else d.setSta e.1 { d.sta e.1 with rotd := { (d.sta e.1).rotd with d := e.2 } }) d

/-- UNSTOW at the end of its read: the header check, the body, or its granules before the first that fails (R301). -/
def State.unstowNow (s0 : State) (d : DieId) (k : StowOp) : State :=
  let p := (s0.die d).stowPos k
  let ends (t : State) (code : Byte) : State := t.setStow d { k with out := some code }
  match s0.granule d k.va .read with
  | .absent => ends (s0.reportPage d p k.va 0) 0xC0
  | .bad c => ends (s0.stowError d k k.va c) 0xC0
  | .ok s1 h =>
    if !headerOk d (s1.die d).team h then ends s1 0xC2
    else
      let dm := headerDmap h
      let parts := bodyParts dm
      let all := s1.bodyRows d k.va (bodyLen dm / 256) 0
      let s := all.1
      let b := all.2
      let t := s.unstowBase d k h parts b.1 b.2.isNone
      let x := t.die d
      let cyc := (wordIn parts b.1 0x21000008).map (·.toNat)
      let cause := wordIn parts b.1 0x21000388
      let y := { x with dcyc := cyc.getD x.dcyc, unexec := match cause with | some v => bit v 61 | none => x.unexec }
      let u := b.1.zipIdx.foldl (fun t e => t.putRow d parts (256 * e.2) e.1) (t.setDie d y)
      match b.2 with
      | none => ends (u.setDie d ((u.die d).putDmap dm)) 0
      | some (va, .bad c) => ends (u.stowError d k va c) 0xC0
      | some (va, _) => ends (u.reportPage d p va 0) 0xC0

/-- One cycle of a STOW or UNSTOW in progress. -/
def State.stowTask (s : State) (d : DieId) : State :=
  match (s.die d).stow with
  | none => s
  | some k =>
    if k.out.isSome then s
    else if !k.unstow then s.stowStep d k
    else match k.until_ with
      | some t => if s.sidc < t then s else s.unstowNow d k
      | none => s

/-- What the end of a stow or unstow leads to (R282, R284, R292, R300, R301). -/
def stowEndTask (d : DieId) (k : StowOp) (team : BitVec 16) : Task :=
  match k.who with
  | .handler => .ev (if k.unstow then .unstowEnd d else .stowEnd d)
  | .fault => .ev (.teamStowEnd d)
  | .preempt => .ev (.preemptionStowEnd d)
  | .resume => .ev (.teamResume team)

/-- The cycle's step of a stow or unstow, and its end where that falls in the cycle. -/
def stowCycle (d : DieId) (s : State) : Out :=
  let t := s.stowTask d
  match (t.die d).stow with
  | some k => .next (if k.out.isSome then { t with agenda := stowEndTask d k (t.die d).team :: t.agenda } else t)
  | none => .next t

/-- STOW (R300): the next word of the handler waits for its end. -/
def execStow (a : Scal) (s : State) : Out :=
  if !s.focus.handler then raise s .wrongStream
  else .next (s.stowStart s.focus.die .handler false s.focus.parcel ((fld (s.scal a) 8 40).toNat * 256))

/-- UNSTOW (R301): the next word of the handler waits for its end. -/
def execUnstow (a : Scal) (s : State) : Out :=
  if !s.focus.handler then raise s .wrongStream
  else .next (s.stowStart s.focus.die .handler true s.focus.parcel ((fld (s.scal a) 8 40).toNat * 256))

/-- The outcome of a handler's STOW or UNSTOW goes into SVST. -/
def State.stowDone (s : State) (d : DieId) (unstow : Bool) : State :=
  let x := s.die d
  match x.stow with
  | none => s
  | some k =>
    match k.out with
    | none => s
    | some c =>
      if k.who ≠ .handler ∨ k.unstow ≠ unstow then s
      else
        s.setDie d { x with stow := none, hsta := { x.hsta with svst := c },
                            svoff := if !unstow && c == 0 then 0 else x.svoff }

/-- STOW_END (R300). -/
def execStowEnd (d : DieId) (s : State) : Out := .next (s.stowDone d false)

/-- UNSTOW_END (R301). -/
def execUnstowEnd (d : DieId) (s : State) : Out := .next (s.stowDone d true)

end Sys2Proof.Machine
end

