-- ==== Sys2Proof/Machine/Handler.lean ====
section
/-! DEFINITION. Handler mode: its entry, the issue of its words, its end by RESUME, by EXIT or by a cause, and what the base camp
does with a reported cause (R291 to R298, R305, R313). -/

namespace Sys2Proof.Machine

-- ## The swap (R293)

/-- The timetable context returns to its station; the handler context waits in `hctx` while words replay (R297, R298). -/
def Die.swapIn (d : Die) : Die :=
  match d.saved with
  | none => d
  | some k =>
    let x := d.sta d.hpos
    { d.setSta d.hpos { x.setCtx .c k.ctx with s := k.s, div := k.div } with
      saved := none, hctx := some { ctx := x.ctxOf .c, s := x.s, div := x.div } }

/-- The handler context comes back after a RESUME that failed (R298). -/
def Die.swapOut (d : Die) : Die :=
  match d.hctx with
  | none => d
  | some h =>
    let x := d.sta d.hpos
    { d.setSta d.hpos { x.setCtx .c h.ctx with s := h.s, div := h.div } with
      hctx := none, saved := some { ctx := x.ctxOf .c, s := x.s, div := x.div } }

/-- Handler mode ends and its context is discarded; the die stays frozen (R293, R294). -/
def Die.handlerOver (d : Die) : Die :=
  { d.swapIn with hctx := none, hwrites := [], cond := .frozen, handlerNext := false, latchNow := [], causes := [],
                  stow := match d.stow with
                    | some k => if k.who = .handler then none else some k
                    | none => none }

/-- HANDLER_ENTRY (R293): a diverted cause puts the die into handler mode in the cycle after its freeze. -/
def execHandlerEntry (d : DieId) (s : State) : Out :=
  let x := s.die d
  if !x.handlerNext || x.cond ≠ .frozen then .next s
  else
    let p := x.hsta.pos
    let y := x.sta p
    let c : Ctx := { next := .hdr x.hsta.entry s.sidc 0, retired := false }
    let y1 := { y.setCtx .c c with s := y.s.filter fun e => decide (48 ≤ e.1), div := {} }
    .next (s.setDie d { x.setSta p y1 with
      cond := .handler, handlerNext := false, hpos := p, hwrites := [], ghost := [], shade := [],
      saved := some { ctx := y.ctxOf .c, s := y.s, div := y.div } })

-- ## The words of the handler (R293, R294)

/-- The handler context in this cycle: its landings, its header or its word; while a STOW or UNSTOW runs no word issues. -/
def hissueTask (run : Instr → State → Out) (d : DieId) (s : State) : Out :=
  let x := s.die d
  if x.cond ≠ .handler then .next s
  else
    let s1 := s.setDie d (x.landHandler s.sidc)
    if x.stow.isSome then .next s1
    else
      let s2 := s1.readHeader d x.hpos .c s.sidc true
      match (((s2.die d).sta x.hpos).ctxOf .c).next with
      | .word q a => if a ≤ s.sidc then issueWord run (s2.focusOn d x.hpos .c q true false) else .next s2
      | _ => .next s2

/-- A cause that arises in handler mode (R294): NEST and NCAUSE are set, CAUSE and TRAPPOS stay. -/
def Die.nest (d : Die) (c : CauseRec) : Die :=
  { d with hsta := { d.hsta with nest := true },
           trapcause := setFld (setFld d.trapcause 60 1 1) 8 8 (causeCode c.cause).toNat }

/-- The FRZWR of a cycle takes effect (R296). -/
def State.applyFrz (s : State) (d : DieId) : State :=
  (s.die d).eoc.foldl (fun t e => match e with | .frz a v => (t.frzPut d a v false).getD t | _ => t) s

/-- The end of a cycle of handler mode: what waits for it, then a cause or an EXIT that ends the mode (R294). -/
def hcloseTask (d : DieId) (s : State) : Out :=
  let s1 := (s.applyFrz d).applyEoc d
  let x := s1.die d
  let report (y : Die) (l : List (Byte × Pos)) : Out := .next ((s1.setDie d { y.handlerOver with reports := l }).tellCamp d)
  if x.cond ≠ .handler then .next s1
  else match firstCause x.causes with
    | some c => report (x.nest c) (x.causes.map fun k => (causeCode k.cause, k.pos))
    | none =>
      if ((x.sta x.hpos).ctxOf .c).retired then report x [(fld x.trapcause 0 8, Fin.ofNat 128 (fld x.trappos 53 7).toNat)]
      else .next s1

-- ## RESUME (R298)

/-- The word whose front or capture has left PG in cell `k` (R197). -/
def Die.pgWord (d : Die) (k : Nat) : Option Work :=
  match d.frontAt k true with
  | some w => some w
  | none => d.works.find? fun w => w.captures (d.goAt 0) (k / 1024) (k % 1024)

/-- The read of PG of cell `k` meets a parity error: CELL_PARITY, with token lane 0, in the first die cycle after RESUME (R197, R298);
nothing where no front or capture holds the cell, and so no word can be named (DEDUCED, log 88). -/
def Die.pgParity (d : Die) (k : Nat) : Die :=
  match d.pgWord k with
  | none => d
  | some w =>
    let y := { d with causes := [] }.cellCause w .cellParity (k / 1024) (k % 1024) 0 true
    { y with causes := d.causes, late := d.late ++ y.causes }

/-- A valid PG of cell `k` is written into G. -/
def Die.putPg (d : Die) (k : Nat) (c : Cell) : Die :=
  let d1 := { d with cells := kput {} k c.applyPg d.cells }
  if c.pgBad then d1.pgParity k else d1

/-- Step 1: every valid PG is written into G, after the dx promotions that repairs call for. -/
def Die.putPgs (d : Die) : Die := d.cells.foldl (fun x e => if e.2.pgv then x.putPg e.1 (kget {} e.1 x.cells) else x) d.promoteAll

/-- The write records of a station with remaining latency 0 take effect; those that meet on one unit stay. -/
def Die.landFrozen (d : Die) (p : Pos) : Die × List WriteRec :=
  let x := d.sta p
  if x.writes.isEmpty then (d, [])
  else
    let live := x.writes.filter (·.target.live)
    let due := live.filter fun w => d.toGo w.land == 0 && !x.deadWrite w
    let rest := live.filter fun w => d.toGo w.land != 0
    let clash := clashing due
    let good := due.filter fun w => !clash.contains w
    let y := good.foldl (fun x w => x.land w.target) { x with writes := rest ++ clash }
    (good.foldl (fun d w => d.healWrite p w.target) (d.setSta p y), clash)

/-- An access in its place among writes: older issue first, then in the order C, L, S, X. -/
def insertOld (a : PortA) : List PortA → List PortA
  | [] => [a]
  | b :: t =>
    if a.issued < b.issued || (a.issued == b.issued && a.strm.idx < b.strm.idx) then a :: b :: t else b :: insertOld a t

/-- A latched access is performed (R114, R298); a bad word that it reads raises UNCORRECTABLE in the first die cycle after RESUME (R304;
DEDUCED, log 88). -/
def Die.performLatched (d : Die) (fr : Nat) (a : PortA) : Die :=
  let r := { d with causes := [] }.performA a d.dcyc fr
  let d1 := r.2.foldl (fun d e =>
    (d.setSta a.pos ((d.sta a.pos).setBankRow a.bank e.1 e.2)).heal
      (fun k => .bank a.pos (64 * (128 * a.bank.toNat + e.1) + k)) 64) r.1
  { d1 with causes := d.causes, late := d1.late ++ d1.causes }

/-- The transitions that an access makes on buffers; those of an edge access were made at issue (R119, R175). -/
def Die.latchedMoves (d : Die) (a : PortA) : List Eoc :=
  if a.checked then []
  else ((d.sta a.pos).bufsOf a.bank (d.accessRows a)).map fun e =>
    if a.wr then .bufWrite a.pos e.1 else .bufRead a.pos e.1 a.word

/-- The accesses in the latch slots: reads before writes, older writes first, and then their transitions (R298). -/
def Die.performAll (d : Die) (fr : Nat) : Die :=
  let live := d.latched.filter fun a => a.kind != .gone
  let l := (live.filter fun a => !a.wr) ++ (live.filter (·.wr)).foldr insertOld []
  (l.foldl (Die.performLatched · fr) { d with latched := [] }).applyBufs (l.flatMap d.latchedMoves)

/-- The WRITE_CLASH causes of a station's writes that meet in step 2, one for each unit (R129). -/
def Die.clashCauses (d : Die) (l : List WriteRec) : List CauseRec := ({ d with causes := [] }.raiseClashes l).causes

/-- Steps 1 and 2 of R298, with the causes of the writes that meet on one unit. -/
def Die.settle (d : Die) (fr : Nat) : Die × List CauseRec :=
  let r := allPos.foldl (fun (acc : Die × List CauseRec) p =>
    let r := acc.1.landFrozen p
    (r.1, acc.2 ++ acc.1.clashCauses r.2)) (d.putPgs, [])
  (r.1.performAll fr, r.2)

/-- TRAPCAUSE and TRAPPOS take the cause that makes RESUME fail (R298). -/
def Die.failResume (d : Die) (cs : List CauseRec) : Die :=
  match firstCause cs with
  | none => d
  | some c => { d with trapcause := trapcauseOf c (decide (cs.length > 1)) d.unexec, trappos := trapposOf c d.dcyc }

/-- The words that replay in step 3 (R297): BAD_HEADER has nothing to replay. -/
def Die.replays (d : Die) (me : DieId) : List Task :=
  allPos.flatMap fun p => Strm.all.filterMap fun st =>
    let l := ((d.sta p).ctxOf st).latch
    if l.v && l.replay && l.cause != 0x08 then some (.replay me p st) else none

/-- Steps 1 and 2 on a frozen die, and the tasks of steps 3 and 4, none where step 2 has failed. -/
def State.resumeSteps (s : State) (d : DieId) : State × List Task :=
  let r := (s.die d).swapIn.settle s.ctr
  if r.2.isEmpty then ((s.setDie d r.1.swapOut).bump, r.1.replays d ++ [.resumeEnd d])
  else ((s.setDie d (r.1.failResume r.2).swapOut).bump, [])

/-- RESUME (R294, R298). -/
def execResume (s : State) : Out :=
  if !s.focus.handler then raise s .wrongStream
  else
    let r := s.resumeSteps s.focus.die
    .next { r.1 with agenda := r.2 ++ r.1.agenda }

/-- The issue latch of a replayed word: empty, or the cause that it has raised (R297). -/
def Die.afterReplay (d : Die) (p : Pos) (st : Strm) : Die :=
  let x := d.sta p
  let c := x.ctxOf st
  let l : IssueLatch := match d.latchNow.find? fun t => t.1 == p && t.2.1 == st with
    | some t => { v := true, replay := false, parcel := t.2.2.1, cause := t.2.2.2 }
    | none => {}
  d.setSta p (x.setCtx st { c with latch := l })

/-- A word replays as if issued in the frozen cycle (R297; DEDUCED, log 36), with the register mapping that ROTD gives at RESUME (R130; DEDUCED,
log 103). -/
def replayTask (run : Instr → State → Out) (d : DieId) (p : Pos) (st : Strm) (s : State) : Out :=
  let x := (s.die d).swapIn
  let q := ((x.sta p).ctxOf st).latch.parcel
  andThen (issueWord run ((s.setDie d x).focusOn d p st q false true)) fun t => t.setDie d ((t.die d).afterReplay p st)

/-- A store that has been replayed in the frozen cycle `t` reads its first row in it. -/
def StoreJob.replayed (t : Nat) (j : StoreJob) : Bool := decide (j.issued = t) && j.got.isEmpty

/-- A parked team none of whose dies is frozen any more runs again (R313). -/
def State.unpark (s : State) : State :=
  let f (t : Team) : Team :=
    if t.phase = .parked ∧ t.dies.all (fun d => (s.die d).cond ≠ .frozen) then { t with phase := .running } else t
  { s with hub := { s.hub with teams := s.hub.teams.map f } }

/-- What the replayed words still do in the frozen cycle; one that has not executed does it as it executes (R288, R298, R303). -/
def Die.replayed (x : Die) (fr : Nat) : Die :=
  if x.unexec then x else ((x.storeReads x.dcyc (StoreJob.replayed x.dcyc)).portStep fr).admitStep.accStep

/-- The end of RESUME: what the replayed words still do in the frozen cycle, then its failure, or step 4 (R298). -/
def resumeEndTask (d : DieId) (s : State) : Out :=
  let s1 := (s.setDie d ((s.die d).swapIn.replayed s.ctr)).bump.applyEoc d
  let z := s1.die d
  if z.causes.isEmpty then
    .next (s1.setDie d ({ z with hctx := none, hwrites := [], ghost := [], shade := [], latchNow := [] }.unfreeze s.sidc)).unpark
  else .next (s1.setDie d { z.failResume z.causes with causes := [], latchNow := [] }.swapOut)

-- ## Reported causes (R292, R305, R313)

/-- The team with its record changed. -/
def State.setTeam (s : State) (t : Team) : State :=
  { s with hub := { s.hub with teams := s.hub.teams.map fun u => if u.num = t.num then t else u } }

/-- The dies freeze as at a STOP in the next sidereal cycle (R284, R292). -/
def State.stopDies (s : State) (l : List DieId) : State :=
  l.foldl (fun s d => s.setDie d { s.die d with stopAt := some (s.sidc + 1) }) s

/-- Every die of a team has a whole image at the start of its share (R305). -/
def State.imagesWhole (s : State) (t : Team) : Bool :=
  t.dies.all fun d => (s.die d).stowFits (s.die d).bivbase && match s.granule d (s.die d).bivbase .read with
    | .ok _ r => headerOk d t.num r
    | _ => false

/-- The station's active and shadow planes come back from the base camp's copy (R305). -/
def Die.reload (d : Die) (p : Pos) : Die :=
  { d.setSta p { d.sta p with plane := (d.sta p).kept, shadow := (d.sta p).kept } with
    bad := d.bad.filter fun b => match b with | .plane q _ | .shadow q _ => q != p | _ => true }

/-- TRAPPOS with the die in bits [63:62] (R276). -/
def Die.posOf (d : Die) (me : DieId) : W64 := setFld d.trappos 62 2 me.val

/-- Every reported cause of a die is a debug stop or a monitor fire (R313). -/
def Die.debugReport (x : Die) : Bool := !x.reports.isEmpty && x.reports.all fun e => e.1 == 0xFA || e.1 == 0xFB

/-- The base camp learns in this cycle of a die's reported causes. -/
def State.reportDue (s : State) (d : DieId) : Bool := match (s.die d).reportAt with | some t => decide (t ≤ s.sidc) | none => false

/-- A pre-emption's stow or the unstow of a die that resumes is given up, and a pre-emption point freezes the die no more (R284,
R292). -/
def Die.dropCamp (d : Die) : Die :=
  { d with preemptAt := none, stow := match d.stow with
      | some k => if k.who = .resume ∨ k.who = .preempt then none else some k
      | none => none }

/-- What pre-empts a team, or brings it back, ends on its dies (R284, R292). -/
def State.dropCamp (s : State) (t : Team) : State :=
  if t.phase = .resuming ∨ t.phase = .preempting then t.dies.foldl (fun s d => s.setDie d (s.die d).dropCamp) s else s

/-- CAUSE_REPORT (R292, R305, R313): the other dies freeze, and the base camp parks the team, brings it back from its
pre-emption image, or ends it with status FAULT. -/
def execCauseReport (d : DieId) (s0 : State) : Out :=
  if !s0.reportDue d then .next s0
  else
  let s := s0.setDie d { s0.die d with reportAt := none }
  match s.teamOf d with
  | none => .next s
  | some t =>
    let x := s.die d
    let cause : Byte := fld x.trapcause 0 8
    let others := t.dies.filter fun e => e != d && ((s.die e).cond ≠ .frozen || (s.die e).handlerNext)
    let s1 := s.stopDies others
    if t.phase = .ending then .next s1
    else if s.hub.dbgctl && x.debugReport then
      .next ((s1.setTeam { t with phase := .parked }).hostEvent 3 cause d x.trappos)
    else
      let imem := x.reports.filter fun e => e.1 == 0xF9
      let s2 := imem.foldl (fun s e => s.setDie d ((s.die d).reload e.2)) s1
      if !imem.isEmpty && s2.imagesWhole t then
        .next ((s2.setTeam { t with phase := .preempting, stowed := t.dies, unsettled := [] }).hostEvent 2 cause d x.trappos)
      else
        .next (((s2.dropCamp t).setTeam { t with phase := .ending, status := 1, cause := cause, pos := x.posOf d, stowed := [] }).hostEvent
          2 cause d x.trappos)

/-- The stow of a die for its team has ended. -/
def State.stowCleared (s : State) (d : DieId) : State := s.setDie d { s.die d with stow := none }

/-- TEAM_STOW_END (R292). -/
def execTeamStowEnd (d : DieId) (s : State) : Out :=
  match (s.die d).stow, s.teamOf d with
  | some k, some t =>
    if k.who = .fault ∧ k.out.isSome then .next ((s.stowCleared d).setTeam { t with stowed := t.stowed ++ [d] }) else .next s
  | _, _ => .next s

-- ## Pre-emption (R281, R282)

/-- PREEMPTION_FREEZE: the die freezes at the end of its pre-emption point, and the stow of its whole state begins (R282; DEDUCED,
log 28). -/
def execPreemptionFreeze (d : DieId) (s : State) : Out :=
  let x := s.die d
  let s1 := s.setDie d { x.freezeQuiet s.sidc false with preemptAt := none, svoff := 0 }
  .next (s1.stowStart d .preempt false 0 x.bivbase)

/-- Far requests, hauls and fences' work of a team's dies have all ended. -/
def State.farDone (s : State) (l : List DieId) : Bool := l.all fun d => !(s.fs d).anyFar

/-- The snapshot of a die that a pre-emption has stowed takes what has reached it since, the arrivals at its points among it (R265,
R303). -/
def State.freshSnap (s : State) (d : DieId) : State :=
  if s.snaps.any fun n => n.die == d && n.image.sfrz == (s.die d).sfrz then s.takeSnap d else s

/-- What far work has brought to a pre-empted die since its stow goes into its image too; where a granule cannot be written, the die is
stowed again (R282, R283; DEDUCED, log 28). -/
def State.settleDie (s : State) (d : DieId) : State :=
  let x := s.die d
  let r := s.restow d x.dmap x.bivbase (bodyLen x.dmap / 256) 0
  if r.2 then r.1 else r.1.stowStart d .preempt false 0 x.bivbase

/-- Once every die of a pre-empted team is frozen and stowed and its far work has ended, its dies are free. -/
def State.preempted (s : State) (t : Team) : State :=
  if t.phase = .preempting ∧ t.dies.all (fun d => t.stowed.contains d && (s.die d).cond == .frozen) ∧ s.farDone t.dies then
    let s1 := t.unsettled.foldl State.settleDie s
    let again := t.unsettled.filter fun d => (s1.die d).stow.isSome
    if again.isEmpty then
      let s2 := t.dies.foldl (fun s d => (s.freshSnap d).setDie d { s.die d with cond := .idle, team := 0 }) s1
      s2.setTeam { t with phase := .preempted, begun := [], unsettled := [],
                          holds := t.dies.foldl (fun n d => n + (s.die d).holds) t.holds }
    else s1.setTeam { t with stowed := t.stowed.filter (!again.contains ·), unsettled := [] }
  else s

/-- PREEMPTION_STOW_END: a stow that has stopped is begun again and goes on from SVOFF (DEDUCED, log 28). -/
def execPreemptionStowEnd (d : DieId) (s : State) : Out :=
  match s.teamOf d with
  | none => .next s
  | some t =>
    match (s.die d).stow with
    | none => .next (s.preempted t)
    | some k =>
      if k.who ≠ .preempt then .next s
      else match k.out with
        | none => .next s
        | some c =>
          if c = 0 then
            let t1 := { t with stowed := t.stowed ++ [d], unsettled := if (s.fs d).anyFar then t.unsettled ++ [d] else t.unsettled }
            let s1 := s.setDie d { s.die d with stow := none, svoff := 0 }
            .next ((s1.setTeam t1).preempted t1)
          else .next (s.stowStart d .preempt false 0 k.va)

end Sys2Proof.Machine
end

