-- ==== Sys2Proof/Machine/Image.lean ====
section
/-! DEFINITION. Team images and packets as the base camp reads them, and the state that a launch gives a die (R22, R52, R96, R100,
R116, R118, R127, R133, R164, R168, R181, R230, R242, R247, R267, R268, R272 to R277, R290, R299, R312). -/

namespace Sys2Proof.Machine

-- ## Words of byte strings

/-- Little-endian 64-bit word `n` of a byte string. -/
def qword (l : List Byte) (n : Nat) : W64 := BitVec.ofNat 64 (leNat ((l.drop (8 * n)).take 8))

/-- Bits hi to lo. -/
def bitRange (hi lo : Nat) : W64 := BitVec.ofNat 64 ((2 ^ (hi + 1 - lo) - 1) * 2 ^ lo)

/-- A word has no bit outside the named fields. -/
def onlyBits (allowed w : W64) : Bool := w &&& ~~~allowed == 0

-- ## Packets (R268)

/-- Bits of body word `n` that a packet of a type uses. -/
def packetUses (ty : Byte) (n : Nat) : W64 :=
  let addr := bitRange 38 0
  match ty.toNat with
  | 1 => if n = 2 then 0x3071F else if n = 3 then addr else if (4 ≤ n ∧ n ≤ 6) ∨ (8 ≤ n ∧ n ≤ 23) then BitVec.allOnes 64 else 0
  | 2 => if n = 2 then 0xF else if n = 3 then addr else if n = 4 then 0x1FF else 0
  | 3 => if n = 2 then 0xF else if 4 ≤ n ∧ n ≤ 19 then addr else 0
  | 4 | 5 => if n = 2 then 0xFF else if n = 3 then BitVec.allOnes 64 else 0
  | 6 => if 2 ≤ n ∧ n ≤ 4 then BitVec.allOnes 64 else 0
  | 7 => if n = 2 then 0xFFFF else 0
  | _ => 0

def packetType (b : List Byte) : Byte := (qword b 0).setWidth 8

def packetNowait (b : List Byte) : Bool := bit (qword b 0) 26

/-- Values of a body that complete a packet at once with BAD_PACKET: a LAUNCH that selects no dies, a COPY of no whole granules,
and a GRAPH.LOAD whose count is out of range (R268, R271; DEDUCED, log 32). -/
def bodyBad (b : List Byte) : Bool :=
  match (packetType b).toNat with
  | 1 =>
    let w := qword b 2
    let k := (fld w 8 3).toNat
    if bit w 4 then k == 0 || decide (4 < k) else fld w 0 4 == 0
  | 2 =>
    let n := (fld (qword b 4) 0 9).toNat
    n == 0 || decide (256 < n)
  | 6 => qword b 4 == 0 || fld (qword b 4) 0 8 != 0
  | _ => false

/-- A packet that completes at once with status BAD_PACKET (R268, R271). -/
def packetBad (b : List Byte) : Bool :=
  let ty := packetType b
  ty == 0 || decide (7 < ty.toNat) || !onlyBits 0xFFFFFC0000FF (qword b 0) ||
    (List.range 30).any (fun k => !onlyBits (packetUses ty (k + 2)) (qword b (k + 2))) || bodyBad b

-- ## Reading die memory by DLA

/-- The cause of the error response to any access of `n` bytes of a die from a DLA on (R91, R92). -/
def State.dlaRefused (s : State) (h : DieId) (dla n : Nat) : Option Byte :=
  if !dlaMapped (dla + n - 1) then some cUnmapped
  else if (s.fs h).mcReset then some cNotReady
  else none

/-- `n` bytes of a die from a DLA, or the cause of the error response (R91, R92). -/
def State.dlaBytes (s : State) (h : DieId) (dla n : Nat) : Except Byte (List Byte) :=
  match s.dlaRefused h dla n with
  | some c => .error c
  | none => if (s.fs h).badSpan dla n then .error cUncorr else .ok (memRead s.mem (memKey h dla) n)

/-- Bytes read from a die's far memory leave their rows open (R98, R255). -/
def State.dlaTouch (s : State) (h : DieId) (dla n : Nat) : State := { s with olds := [] }.setFs h ((s.fs h).touchSpan s.sidc dla n)

/-- Bytes written into a die's far memory from a DLA on; the 4 B words that they cover whole hold no error any more (R91), and the rows
stay open (R98, R255). -/
def State.dlaPut (s : State) (h : DieId) (dla : Nat) (l : List Byte) : State :=
  let f := (s.fs h).touchSpan s.sidc dla l.length
  { s with mem := memWrite s.mem (memKey h dla) l, olds := [] }.setFs h { f with
    badWords := f.badWords.filter fun k => !(decide (dla ≤ 4 * k) && decide (4 * k + 4 ≤ dla + l.length)) }

/-- Die and DLA of a word in the form of W3 of LAUNCH (R268). -/
def dlaOf (w : W64) : DieId × Nat := (Fin.ofNat 4 (fld w 37 2).toNat, (fld w 0 37).toNat)

-- ## Team images (R273)

/-- Records of an image: `n` of them and nothing after. -/
def readRecs : Nat → List Byte → Option (List ImgRec)
  | 0, l => if l = [] then some [] else none
  | n + 1, l =>
    let w := qword l 0
    let blen := (fld w 0 32).toNat
    let rest := l.drop 16
    if l.length < 16 || blen % 16 != 0 || decide (rest.length < blen) || fld w 32 15 != 0 then none
    else
      let r : ImgRec := { ty := fld w 56 8, die := (fld w 54 2).toNat, pos := Fin.ofNat 128 (fld w 47 7).toNat,
                          arg := qword l 1, body := rest.take blen }
      (readRecs n (rest.drop blen)).map fun t => r :: t

/-- First parcel and parcel count of a PLANE record. -/
def ImgRec.parcels (r : ImgRec) : Nat × Nat := ((fld r.arg 0 16).toNat, (fld r.arg 16 16).toNat + 1)

/-- Bank, first row and row count of a BANK record. -/
def ImgRec.rows (r : ImgRec) : BitVec 3 × Nat × Nat := (fld r.arg 0 3, (fld r.arg 8 7).toNat, (fld r.arg 16 7).toNat + 1)

/-- BANKFMT of bank `k` in a FORMAT record, 16 bits. -/
def ImgRec.format (r : ImgRec) (k : Nat) : BitVec 16 := fld (qword r.body (k / 4)) (16 * (k % 4)) 16

/-- The BUFDECL operands of a BUFFERS record. -/
def ImgRec.decls (r : ImgRec) : List W64 := (List.range (r.body.length / 8)).map (qword r.body)

/-- The words of region entry `k` of an XLATE record keep to their fields (R86). -/
def regionOk (l : List Byte) (k : Nat) : Bool :=
  onlyBits (bitRange 63 63 ||| bitRange 59 49 ||| bitRange 43 16) (qword l (2 + 4 * k)) &&
    onlyBits (bitRange 43 16) (qword l (3 + 4 * k)) && onlyBits (bitRange 36 16) (qword l (4 + 4 * k)) &&
    qword l (5 + 4 * k) == 0

/-- One record is well formed (R273). -/
def ImgRec.ok (ndie : Nat) (r : ImgRec) : Bool :=
  decide (r.die < ndie) && match r.ty.toNat with
    | 1 =>
      let p := r.parcels
      fld r.arg 32 32 == 0 && decide (p.1 + p.2 ≤ 0x10000) && r.body.length == (2 * p.2 + 15) / 16 * 16 &&
        (r.body.drop (2 * p.2)).all (· == 0)
    | 2 => fld r.arg 32 32 == 0 && r.body.isEmpty
    | 3 =>
      let p := r.rows
      onlyBits (bitRange 22 16 ||| bitRange 14 8 ||| bitRange 2 0) r.arg && decide (p.2.1 + p.2.2 ≤ 128) &&
        r.body.length == 256 * p.2.2
    | 4 =>
      r.arg == 0 && r.body.length == 16 && (List.range 8).all fun k =>
        let f := r.format k
        fld f 11 5 == 0 && !fmtBad (fld f 7 4) (fld f 0 7)
    | 5 => r.arg == 0 && r.decls.all fun w => fld w 32 32 == 0
    | 6 => r.arg == 0 && r.body.length == 32
    | 7 =>
      r.die == 0 && r.pos == 0 && r.arg == 0 && r.body.length == 2064 && qword r.body 1 == 0 &&
        onlyBits (bitRange 63 63 ||| bitRange 36 16 ||| bitRange 7 5) (qword r.body 0) && (List.range 64).all (regionOk r.body)
    | 8 =>
      r.pos == 0 && r.arg == 0 && r.body.length == 16 && qword r.body 1 == 0 &&
        onlyBits (bitRange 63 63 ||| bitRange 51 26 ||| bitRange 6 0) (qword r.body 0)
    | _ => false

/-- Every two things of a list agree with a test. -/
def pairsOk {α : Type} (f : α → α → Bool) : List α → Bool
  | [] => true
  | a :: t => t.all (f a) && pairsOk f t

/-- Two records may stand in one image (R272, R273). -/
def recsFit (a b : ImgRec) : Bool :=
  let same := a.die == b.die && a.pos == b.pos
  if a.ty = 6 ∧ b.ty = 6 then !same && (List.range 4).all fun k => qword a.body k &&& qword b.body k == 0
  else if a.ty ≠ b.ty then true
  else match a.ty.toNat with
    | 1 => !same || decide (a.parcels.1 + a.parcels.2 ≤ b.parcels.1) || decide (b.parcels.1 + b.parcels.2 ≤ a.parcels.1)
    | 3 =>
      !same || a.rows.1 != b.rows.1 || decide (a.rows.2.1 + a.rows.2.2 ≤ b.rows.2.1) ||
        decide (b.rows.2.1 + b.rows.2.2 ≤ a.rows.2.1)
    | 7 => false
    | 8 => a.die != b.die
    | _ => !same

/-- The record of a type for a station. -/
def recOf (l : List ImgRec) (ty : Byte) (die : Nat) (p : Pos) : Option ImgRec :=
  l.find? fun r => r.ty == ty && r.die == die && r.pos == p

/-- Bank formats of a station (R116). -/
def imgFormats (l : List ImgRec) (die : Nat) (p : Pos) : KMap BankFmt :=
  match recOf l 4 die p with
  | none => []
  | some r => (List.range 8).foldl (fun m k => kput {} k { ty := fld (r.format k) 7 4, srow := fld (r.format k) 0 7 } m) []

/-- Buffer declarations of a station in body order, or none where one would trap (R118, R273). -/
def imgBuffers (l : List ImgRec) (die : Nat) (p : Pos) : Option Station :=
  let x : Station := { fmt := imgFormats l die p }
  match recOf l 5 die p with
  | none => some x
  | some r =>
    r.decls.foldl (fun x w => x.bind fun x =>
      if (declCause x (w.setWidth 32)).isSome then none else some (x.declare (w.setWidth 32))) (some x)

/-- The records of a whole image of `ndie` dies, or none where it is malformed (R273). -/
def parseImage (l : List Byte) (ndie : Nat) : Option (List ImgRec) :=
  let w0 := qword l 0
  let head := w0 == 0x5445414D00010000 ||| BitVec.ofNat 64 ndie && (List.range 5).all (fun k => qword l (k + 2) == 0) &&
    qword l 7 == crc32c (l.take 60) ++ 0#32
  if !head then none
  else match readRecs (fld (qword l 1) 32 32).toNat (l.drop 64) with
    | none => none
    | some rs =>
      if rs.all (ImgRec.ok ndie) && pairsOk recsFit rs && rs.all (fun r => (imgBuffers rs r.die r.pos).isSome) then some rs
      else none

/-- The image that a LAUNCH names: its records, or status and cause of its failure (R273). -/
def State.image (s : State) (b : List Byte) (ndie : Nat) : Except (Byte × Byte) (List ImgRec) :=
  let a := dlaOf (qword b 3)
  match s.dlaBytes a.1 a.2 64 with
  | .error c => .error (5, c)
  | .ok h =>
    let len := (fld (qword h 1) 0 32).toNat
    if len < 64 ∨ len % 16 ≠ 0 then .error (5, 0)
    else match s.dlaBytes a.1 a.2 len with
      | .error c => .error (5, c)
      | .ok l => match parseImage l ndie with
        | none => .error (5, 0)
        | some rs => .ok rs

/-- Wheel positions that an image grants: station and position (R222, R272). -/
def imgGrants (l : List ImgRec) (dies : List DieId) : List (DieId × Pos × Nat) :=
  (l.filter fun r => r.ty == 6).flatMap fun r =>
    ((List.range 256).filter fun k => bit (qword r.body (k / 64)) (k % 64)).map fun k => (dies.getD r.die 0, r.pos, k)

-- ## Planes (R273 to R275)

/-- The plane that an image gives a station. -/
def imgPlane (l : List ImgRec) (die : Nat) (p : Pos) : KMap Parcel :=
  let rs := l.filter fun r => r.ty == 1 && r.die == die && r.pos == p
  if rs.isEmpty then [(0, 0xFFFF), (1, 0xFFFF), (2, 0xFFFF), (3, 0xFFFF)]
  else rs.foldl (fun m r => (List.range r.parcels.2).foldl (fun m k =>
    kput 0 (r.parcels.1 + k) (BitVec.ofNat 16 (leNat ((r.body.drop (2 * k)).take 2))) m) m) []

/-- The 128 KiB of a plane. -/
def planeBytes (m : KMap Parcel) : List Byte := (List.range 65536).flatMap fun k => leBytes (kget 0 k m : Parcel) 2

/-- The parcels of an image's plane that differ from the base camp's copy of the active plane (R274). -/
def diffParcels (img kept : KMap Parcel) : List Nat :=
  ((img ++ kept).map (·.1)).eraseDups.filter fun k => (kget 0 k img : Parcel) != kget 0 k kept

/-- A shadow plane once it has taken the difference records (R274). -/
def takeDiffs (img kept shadow : KMap Parcel) : KMap Parcel :=
  (diffParcels img kept).foldl (fun m k => kput 0 k (kget 0 k img : Parcel) m) shadow

/-- The CRC-32C that the image gives for a station's plane, or that of the plane it gives (R273). -/
def imgCrc (l : List ImgRec) (die : Nat) (p : Pos) : W32 :=
  match recOf l 2 die p with
  | some r => fld r.arg 0 32
  | none => crc32c (planeBytes (imgPlane l die p))

/-- A station mismatches (R274, R275): a soft error stands in its shadow plane, or the shadow's CRC-32C is not the image's. A
shadow that is the image's plane, where the image names no CRC, has the CRC of that plane. -/
def planeFails (x : Die) (l : List ImgRec) (die : Nat) (p : Pos) : Bool :=
  x.bad.any (fun b => match b with | .shadow q _ => q == p | _ => false) ||
    (((recOf l 2 die p).isSome || (x.sta p).shadow != imgPlane l die p) &&
      crc32c (planeBytes (x.sta p).shadow) != imgCrc l die p)

/-- The first station of a team that fails its check, in die order, then ring position (R275). -/
def State.firstBadPlane (s : State) (l : List ImgRec) (dies : List DieId) : Option (DieId × Pos) :=
  (dies.zipIdx.flatMap fun e => allPos.map fun p => (e.1, e.2, p)).findSome? fun e =>
    if planeFails (s.die e.1) l e.2.1 e.2.2 then some (e.1, e.2.2) else none

/-- After an exchange of the planes, an error of the active plane stands in the shadow, and the other way round. -/
def swapBad (b : BadPlace) : BadPlace :=
  match b with
  | .plane p k => .shadow p k
  | .shadow p k => .plane p k
  | b => b

-- ## The state that a launch gives a die (R277)

/-- The context of a stream at launch: 0xFFFF in its directory entry means that it has no code (R12, R52, R53). -/
def launchCtx (x : Station) (k : Nat) : Ctx :=
  let q := x.parcelAt (BitVec.ofNat 16 k)
  if q = 0xFFFF then {} else { next := .hdr q 0 0, rsec := 0xFF, retired := false }

/-- A station at launch: registers, formats, buffers, wheel grant, pad and counters (R96, R100, R116, R118, R127, R133, R164, R222,
R230, R312); bank rows that no record names stay. ROTD is zero (R133; DEDUCED, log 105). -/
def Station.launched (y : Station) (l : List ImgRec) (die : Nat) (p : Pos) (scalars : List W64) (entropy : W32) : Station :=
  let b := (imgBuffers l die p).getD {}
  let x : Station := { plane := y.shadow, shadow := y.plane, kept := imgPlane l die p }
  let rows := (l.filter fun r => r.ty == 3 && r.die == die && r.pos == p).foldl (fun z r =>
    (List.range r.rows.2.2).foldl (fun z k =>
      z.setBankRow r.rows.1 (r.rows.2.1 + k) (rowOfBytes ((r.body.drop (256 * k)).take 256))) z) { x with bank := y.bank }
  { rows with
    ctx := { x0 := launchCtx x 0, x1 := launchCtx x 1, x2 := launchCtx x 2, x3 := launchCtx x 3 },
    s := scalars.zipIdx.foldl (fun m e => kput 0 (48 + e.2) e.1 m) [],
    fmt := b.fmt, buf := b.buf, noise := y.noise.write 1 entropy,
    scslot := match recOf l 6 die p with
      | none => []
      | some r => (List.range 4).foldl (fun m k => kput 0 k (qword r.body k) m) [] }

/-- A cell at launch (R168): FE and BE stay. -/
def Cell.launched (c : Cell) : Cell := ({ c with seated := 0 }.setG 0).setPg c.pg false

/-- HSTA of a die at launch (R290). -/
def imgHsta (l : List ImgRec) (die : Nat) : Hsta :=
  match l.find? fun r => r.ty == 8 && r.die == die with
  | none => {}
  | some r => hstaWrite {} (qword r.body 0)

/-- Bytes of a die's share of a bivouac area (R299). -/
def shareOf (b : List Byte) (k : Nat) : Nat := (qword b 6).toNat / (256 * k) * 256

/-- The errors after the planes are exchanged; bank words that a launch writes hold none any more (DESIGN CHOICE, log 17). -/
def launchBad (l : List ImgRec) (die : Nat) (bad : List BadPlace) : List BadPlace :=
  (bad.filter fun e => match e with
    | .bank p k => !(l.any fun r => r.ty == 3 && r.die == die && r.pos == p && r.rows.1.toNat == k / 8192 &&
        decide (r.rows.2.1 ≤ k / 64 % 128) && decide (k / 64 % 128 < r.rows.2.1 + r.rows.2.2))
    | .plane .. | .shadow .. => true
    | _ => false).map swapBad

/-- A die made ready for its start, as the first die of its team is (R127, R168, R181, R242, R247, R277, R299): `i` is its place in
the die order. -/
def Die.launched (x : Die) (t : Team) (i sidc fr : Nat) : Die :=
  let scal := (List.range 16).map fun k => qword t.pkt (8 + k)
  let share := shareOf t.pkt t.dies.length
  let base := (qword t.pkt 5).toNat + i * share
  { team := t.num,
    stations := (Vector.finRange 128).map fun p => (x.sta p).launched t.recs i p scal ((freeAt fr (128 * i + p.val)).setWidth 32),
    cells := x.cells.foldl (fun m e => kput {} e.1 e.2.launched m) x.cells,
    violog := x.violog, viotrap := x.viotrap, hsta := imgHsta t.recs i,
    trapcause := setFld x.trapcause 63 1 0, trappos := x.trappos,
    bivbase := base, bivend := base + share, sfrz := x.sfrz,
    monitors := x.monitors, debugAt := x.debugAt, preemptAt := x.preemptAt,
    restoreAt := some (sidc + 512), tele := x.tele, bad := launchBad t.recs i x.bad }

/-- Die cycle 0 executes in `sidc` (R277, R279). -/
def Die.begin (x : Die) (sidc : Nat) : Die := { x with cond := .running, rampEvent := some sidc }

/-- XROOT and the region table of a team's die (R85, R273); the TLB keeps its entries (R87, R90), and an image with no XLATE leaves
no region (DESIGN CHOICE, log 73). -/
def FarSide.launched (f : FarSide) (l : List ImgRec) : FarSide :=
  match l.find? fun r => r.ty == 7 with
  | none => { f with xroot := 0, regions := [], reported := [] }
  | some r =>
    { f with xroot := qword r.body 0, reported := [],
             regions := (List.range 64).foldl (fun m k =>
               kput {} k { w0 := qword r.body (2 + 4 * k), w1 := qword r.body (3 + 4 * k), w2 := qword r.body (4 + 4 * k) } m) [] }

end Sys2Proof.Machine
end

