-- ==== Sys2Proof/Machine/Queues.lean ====
section
/-! DEFINITION. The hardware queues: readiness, the taking and completion of packets, WAIT, SIGNAL, COPY and STOP (R267 to R272,
R284). -/

namespace Sys2Proof.Machine

-- ## Queues

def State.queue (s : State) (q : Nat) : Queue := kget {} q s.hub.queues

def State.setQueue (s : State) (q : Nat) (k : Queue) : State := { s with hub := { s.hub with queues := kput {} q k s.hub.queues } }

/-- All queues, ascending. -/
def allQueues : List (Fin 32) := List.finRange 32

/-- log2 of a queue's slots (R267). -/
def Queue.slots (k : Queue) : Nat := 2 ^ clampLsz 4 16 k.lsz

/-- The 256 bytes of a queue's head packet. -/
def State.headPacket (s : State) (q : Nat) : List Byte :=
  let k := s.queue q
  memRead s.hostMem ((k.base &&& ~~~255#64).toNat + 256 * (k.head.toNat % k.slots)) 256

/-- A fence counter (R268). -/
def State.fenceCtr (s : State) (n : Nat) : W64 := kget 0 n s.hub.fences

def State.setFence (s : State) (n : Nat) (v : W64) : State := { s with hub := { s.hub with fences := kput 0 n v s.hub.fences } }

/-- Packets of a queue changed. -/
def State.mapPackets (s : State) (q : Nat) (f : Packet → Packet) : State :=
  s.setQueue q { s.queue q with cur := (s.queue q).cur.map f }

/-- A packet has completed with a status. -/
def Packet.finish (p : Packet) (st : Byte) : Packet := { p with done := some st }

/-- A started packet of a type that has not completed. -/
def Packet.live (p : Packet) (ty : Byte) : Bool := p.done.isNone && packetType p.bytes == ty

-- ## Dies for a LAUNCH (R271, R282)

/-- A die is free: it belongs to no team and holds none that waits to resume on it. -/
def State.dieFree (s : State) (d : DieId) : Bool := !s.hub.teams.any fun t => t.dies.contains d

/-- A die is kept for a LAUNCH that has pre-empted its team and waits for its dies (R271, R282). -/
def State.claimed (s : State) (d : DieId) : Bool :=
  allQueues.any fun q => (s.queue q.val).cur.any fun p => p.live 1 && p.team == 0 && p.freed.contains d

/-- A LAUNCH may take a die: it is free, and kept for no other; `freed` are those kept for it. -/
def State.dieOpen (s : State) (freed : List DieId) (d : DieId) : Bool := s.dieFree d && (freed.contains d || !s.claimed d)

/-- A die of a team pre-empted for a LAUNCH has been released to it. -/
def State.released (s : State) (freed : List DieId) (d : DieId) : Bool :=
  freed.contains d && (s.teamOf d).isNone

/-- The dies that a LAUNCH takes from those a test allows, or none. -/
def takeDies (b : List Byte) (ok : DieId → Bool) : Option (List DieId) :=
  let w := qword b 2
  let free := allDies.filter ok
  if bit w 4 then
    let k := (fld w 8 3).toNat
    if k ≤ free.length then some (free.take k) else none
  else
    let mask := allDies.filter fun d => bit w d.val
    if mask.all ok then some mask else none

/-- The LAUNCH may pre-empt. -/
def launchPreempts (b : List Byte) : Bool := bit (qword b 2) 17

/-- A running team that may be pre-empted. -/
def Team.yields (t : Team) : Bool := t.preok && t.phase == .running

/-- Teams that may be pre-empted in the order in which they are chosen: highest PRIO number, then most recent start (R282). -/
def insertVictim (t : Team) : List Team → List Team
  | [] => [t]
  | u :: l => if u.prio < t.prio || (u.prio == t.prio && u.start < t.start) then t :: u :: l else u :: insertVictim t l

def State.victims (s : State) : List Team := (s.hub.teams.filter (·.yields)).foldr insertVictim []

/-- The least number of victims, in their order, whose dies let a LAUNCH have its dies; those a LAUNCH by mask does not need are
left out. -/
def pickVictims (b : List Byte) (ok : DieId → Bool) : List Team → List Team → Option (List Team)
  | acc, [] => if (takeDies b fun d => ok d || acc.any fun t => t.dies.contains d).isSome then some acc else none
  | acc, t :: l =>
    if (takeDies b fun d => ok d || acc.any fun t => t.dies.contains d).isSome then some acc
    else
      let w := qword b 2
      if !bit w 4 && t.dies.all fun d => !bit w d.val then pickVictims b ok acc l else pickVictims b ok (acc ++ [t]) l

/-- The dies of a LAUNCH can be had, now or by pre-emption. -/
def State.diesHad (s : State) (b : List Byte) : Bool :=
  (takeDies b (s.dieOpen [])).isSome || (launchPreempts b && (pickVictims b (s.dieOpen []) [] s.victims).isSome)

/-- Number of dies that a LAUNCH names. -/
def launchDies (b : List Byte) : Nat :=
  let w := qword b 2
  if bit w 4 then (fld w 8 3).toNat else (allDies.filter fun d => bit w d.val).length

/-- No wheel position that an image grants is held by a team (R272). -/
def State.grantsOpen (s : State) (l : List ImgRec) : Bool :=
  (imgGrants l allDies).all fun g => !s.hub.teams.any fun t => t.grants.any fun h => h.2.2 == g.2.2

/-- A LAUNCH's wheel grants can be had; an image that is no good has none (R269, R272). -/
def State.grantsFree (s : State) (b : List Byte) : Bool :=
  match s.image b (launchDies b) with
  | .error _ => true
  | .ok l => s.grantsOpen l

-- ## Readiness (R269, R284)

/-- The previous packet of the queue has completed, or has started with NOWAIT. -/
def Queue.inOrder (k : Queue) : Bool :=
  match k.cur.getLast? with
  | none => true
  | some p => packetNowait p.bytes

/-- A graph handle of a queue. -/
def State.handle (s : State) (q h : Nat) : Handle := kget {} (16 * q + h) s.hub.handles

/-- The pre-empted team that waits at the head of a queue. -/
def State.waiting (s : State) (q : Nat) : Option Team := s.hub.teams.find? fun t => t.queue.val == q && t.phase == .preempted

/-- The dies of a pre-empted team can be its own again: no other team holds them, and they are kept for no LAUNCH (R282, R284). -/
def State.canResume (s : State) (t : Team) : Bool := t.dies.all fun d => (s.teamOf d).isNone && !s.claimed d

/-- The queue's head is ready: a team that waits to resume, whether or not packets of the queue are read (R284), else its head packet
(R269). -/
def State.ready (s : State) (q : Nat) : Bool :=
  let k := s.queue q
  match s.waiting q with
  | some t => s.canResume t
  | none =>
    if !k.en || k.head == k.tail || !k.inOrder then false
    else
      let b := s.headPacket q
      if packetBad b then true
      else match (packetType b).toNat with
        | 1 => s.diesHad b && s.grantsFree b
        | 4 => decide (qword b 3 ≤ s.fenceCtr (fld (qword b 2) 0 8).toNat)
        | 3 => (s.handle q (fld (qword b 2) 0 4).toNat).run.isNone
        | _ => true

/-- EPRI of a queue (R270); a queue that is not ready does not age. -/
def State.epri (s : State) (q : Nat) : Nat :=
  let k := s.queue q
  match k.readyAt with
  | none => k.prio.toNat
  | some t => if s.hub.qage = 0 then k.prio.toNat else k.prio.toNat - (s.sidc - t) / s.hub.qage.toNat

/-- Readiness at this cycle: since when a queue has been ready. -/
def State.refresh (s : State) (q : Nat) : State :=
  let k := s.queue q
  let r := if s.ready q then some (k.readyAt.getD s.sidc) else none
  if r = k.readyAt then s else s.setQueue q { k with readyAt := r }

/-- The queue that is taken: lowest EPRI, then the first after the queue taken last (R270). -/
def State.pickQueue (s : State) : Option (Fin 32) :=
  let order := (List.range 32).map fun k => (Fin.ofNat 32 (s.hub.lastQueue + 1 + k) : Fin 32)
  (order.filter fun q : Fin 32 => s.ready q.val).foldl (fun (b : Option (Fin 32)) q =>
    match b with
    | none => some q
    | some p => if s.epri q.val < s.epri p.val then some q else b) none

-- ## The completion record (R276)

/-- A completion record. The spec leaves open SSTART where no die has started (`start` none), and TEAM and SEND too where no team
came of the LAUNCH (`num` none) (DESIGN CHOICE, log 9). -/
def State.record (s : State) (b : List Byte) (st cause : Byte) (num : Option (BitVec 16)) (pos : W64) (start : Option Nat)
    (holds breach trigbad : Nat) : State :=
  let team : BitVec 16 := num.getD ((s.freeW 0).setWidth 16)
  let w0 : W64 := st ++ cause ++ team ++ 0#32
  let sstart := match start with | some n => BitVec.ofNat 64 n | none => s.freeW 1
  let send := if num.isSome then BitVec.ofNat 64 s.sidc else s.freeW 2
  let words : List W64 := [w0, pos, sstart, send, BitVec.ofNat 64 holds, BitVec.ofNat 64 breach,
    BitVec.ofNat 64 (min trigbad 0xFFFFFFFF), 0]
  (s.hostWrite (qword b 4).toNat (bytesOf words)).bump

-- ## Taking packets (R269, R270)

/-- The step that starts a packet of a type. -/
def startTask (q : Fin 32) (ty : Byte) : List Task :=
  match ty.toNat with
  | 1 => [.ev (.launch q)]
  | 2 => [.ev (.graphLoad q)]
  | 3 => [.ev (.graphRun q)]
  | 4 => [.ev (.wait q)]
  | 5 => [.ev (.signal q)]
  | 6 => [.ev (.copy q)]
  | 7 => [.ev (.stop q)]
  | _ => []

/-- The head packet of a queue starts (R270); a LAUNCH that is no good leaves its record (R268, R276). -/
def State.startPacket (s : State) (q : Fin 32) : State :=
  let k := s.queue q
  let b := s.headPacket q
  let bad := packetBad b
  let p : Packet := { bytes := b, started := s.sidc, team := 0, freed := [], done := if bad then some 4 else none, cause := 0,
                      pos := 0, off := 0, failed := false, endAt := 0 }
  let s0 := if bad ∧ packetType b = 1 then s.record b 4 0 none 0 none 0 0 0 else s
  let s1 := s0.setQueue q { k with head := k.head + 1, readyAt := none, cur := k.cur ++ [p] }
  { s1 with hub := { s1.hub with lastQueue := q.val },
            agenda := (if bad then [] else startTask q (packetType b)) ++ s1.agenda }

/-- A pre-empted team is taken from the head of its queue (R284): its plane work begins, of open length (DESIGN CHOICE, log 24). -/
def State.startResume (s : State) (q : Fin 32) (t : Team) : State :=
  let s1 := t.dies.foldl (fun s d =>
    let x := s.die d
    let i := (t.dies.takeWhile (· != d)).length
    let share := shareOf t.pkt t.dies.length
    let base := (qword t.pkt 5).toNat + i * share
    (s.setDie d { x with cond := .frozen, team := t.num, handlerNext := false, stopAt := none, stow := none, saved := none, holds := 0,
                         bivbase := base, bivend := base + share }).setFs d ((s.fs d).launched t.recs)) s
  let s2 := s1.setTeam { t with phase := .resuming, planeAt := s.sidc + 1 + s.fresh, stowed := [], begun := [] }
  let s3 := s2.setQueue q { s2.queue q with readyAt := none }
  { s3 with hub := { s3.hub with lastQueue := q.val } }.bump

/-- PACKET_TAKE (R269, R270): readiness in every cycle; one packet in one cycle of every 16, whose phase is fixed for the part
(DESIGN CHOICE, log 23). -/
def execPacketTake (s : State) : Out :=
  let s1 := allQueues.foldl (fun s q => s.refresh q.val) s
  if s1.sidc % 16 ≠ Config.takePhase % 16 then .next s1
  else match s1.pickQueue with
    | none => .next s1
    | some q => match s1.waiting q.val with
      | some t => .next (s1.startResume q t)
      | none => .next (s1.startPacket q)

-- ## Completion (R270)

/-- The completion actions of a packet. -/
def State.complete (s : State) (q : Nat) (p : Packet) (st : Byte) : State :=
  let w := qword p.bytes 0
  let s1 := if bit w 39 then s.setFence (fld w 40 8).toNat (qword p.bytes 1) else s
  let s2 := if bit w 38 then s1.raiseVec (fld w 27 11) else s1
  s2.setQueue q { s2.queue q with lstat := st }

/-- PACKET_COMPLETE (R270; DEDUCED, log 61). -/
def execPacketComplete (q : Fin 32) (s : State) : Out :=
  let k := s.queue q
  let s1 := s.setQueue q { k with cur := k.cur.filter (·.done.isNone) }
  .next (k.cur.foldl (fun s p => match p.done with | some st => s.complete q p st | none => s) s1)

-- ## WAIT, SIGNAL, STOP (R268, R284)

/-- WAIT (R268): it is taken once its counter has reached the value, and completes. -/
def execWait (q : Fin 32) (s : State) : Out := .next (s.mapPackets q fun p => if p.live 4 then p.finish 0 else p)

/-- SIGNAL (R268). -/
def execSignal (q : Fin 32) (s : State) : Out :=
  let ps := (s.queue q).cur.filter (·.live 5)
  let s1 := ps.foldl (fun s p => s.setFence (fld (qword p.bytes 2) 0 8).toNat (qword p.bytes 3)) s
  .next (s1.mapPackets q fun p => if p.live 5 then p.finish 0 else p)

/-- The team of a number that holds dies now (DEDUCED, log 55). -/
def State.runningTeam (s : State) (n : BitVec 16) : Option Team :=
  s.hub.teams.find? fun t => t.num == n && t.phase != .preparing && t.phase != .preempted

/-- The dies of a team freeze at its STOP; what pre-empts a team or brings it back ends (R284). -/
def State.haltTeam (s : State) (t : Team) : State := (s.stopDies t.dies).dropCamp t

/-- One STOP packet as it starts. -/
def State.stopPacket (s : State) (q : Fin 32) (p : Packet) : State :=
  match s.runningTeam ((qword p.bytes 2).setWidth 16) with
  | none => s.mapPackets q fun k => if k = p then p.finish 0 else k
  | some t =>
    let s1 := (s.haltTeam t).mapPackets q fun k => if k = p then { p with team := t.num } else k
    if t.phase = .ending then s1 else s1.setTeam { t with phase := .ending, status := 2 }

/-- STOP (R284): its team's dies freeze at the end of the next sidereal cycle; the packet completes when the team has ended. -/
def execStop (q : Fin 32) (s : State) : Out :=
  .next (((s.queue q).cur.filter fun p => p.live 7 && p.team == 0).foldl (fun s p => s.stopPacket q p) s)

-- ## COPY (R268)

/-- COPY: its granules follow one by one. -/
def execCopy (q : Fin 32) (s : State) : Out :=
  .next (s.mapPackets q fun p => if p.live 6 ∧ p.off = 0 then { p with failed := false } else p)

/-- The die on which a COPY's VAs are translated: the lowest free one (R268). -/
def State.copyDie (s : State) : Option DieId := allDies.find? s.dieFree

/-- The VA of a granule of a COPY. -/
def copyVa (a : W64) (off : Nat) : Nat := (a.toNat - 2 ^ 63 + off) % 2 ^ 48

/-- One side of a granule must wait in this cycle: its home has others of its granule or channel to serve first (R98, R255; DEDUCED,
log 90). -/
def State.copyHeld (s : State) (a : W64) (off : Nat) (op : FarOp) : Bool :=
  bit a 63 && match s.copyDie with
    | none => false
    | some d => match s.xlate d op (copyVa a off) with
      | .home h dla => !s.chansFree h dla 256
      | _ => false

/-- One side of a granule, read or written: a host address, whose access may end in a PCI Express error, or a device VA translated as
on the lowest free die (R268; DESIGN CHOICE, log 19). -/
def State.copySide (s : State) (a : W64) (off : Nat) (op : FarOp) : Done :=
  if !bit a 63 then
    let n := (a.toNat + off)
    match op with
    | .write r => if s.fresh / 4 % 2 = 1 then .bad 0 else .ok (s.hostWrite n ((List.range 256).map (byteOf r))) 0
    | _ => if s.fresh / 2 % 2 = 1 then .bad 0 else .ok s (rowOfBytes (memRead s.hostMem n 256))
  else
    let va := copyVa a off
    match s.copyDie with
    | none => .absent
    | some d => if (s.fs d).reported.contains (va / 2 ^ 16) then .absent else s.granule d va op

/-- A granule that meets a not-present page is reported once and waits (R88). No station waits for it, and the report's POS is 0 (DESIGN
CHOICE, log 91). -/
def State.copyWaits (s : State) (a : W64) (off : Nat) (kind : BitVec 2) : State :=
  match s.copyDie with
  | none => s
  | some d => s.reportPage d 0 (copyVa a off) kind

/-- The copy goes on after a granule, or completes with it. -/
def Packet.granuleDone (p : Packet) (failed : Bool) : Packet :=
  let q := { p with off := p.off + 256, failed := p.failed || failed }
  if q.off < (qword p.bytes 4).toNat then q else q.finish (if q.failed then 8 else 0)

/-- One granule of a copy: read and written whole; a failed read delivers the fill pattern, a failed write is dropped. No word of a die
has sent it, and its error writes no VIOLOG (DESIGN CHOICE, log 91). -/
def State.copyGranule (s : State) (q : Fin 32) (p : Packet) : State :=
  let src := qword p.bytes 2
  let dst := qword p.bytes 3
  let put (s : State) (r : Row) (failed : Bool) : State :=
    let goOn (s : State) (f : Bool) : State := s.mapPackets q fun k => if k = p then p.granuleDone f else k
    match s.copySide dst p.off (.write r) with
    | .ok t _ => goOn t failed
    | .absent => s.copyWaits dst p.off 1
    | .bad _ => goOn s true
  if s.copyHeld src p.off .read || s.copyHeld dst p.off (.write 0) then s
  else match s.copySide src p.off .read with
  | .ok t r => put t r false
  | .absent => s.copyWaits src p.off 0
  | .bad _ => put s fillRow true

/-- COPY_GRANULE (R268): in a cycle in which the copy makes progress (DESIGN CHOICE, log 26), its next granule is moved. -/
def execCopyGranule (q : Fin 32) (s : State) : Out :=
  match (s.queue q).cur.find? (·.live 6) with
  | none => .next s
  | some p => if s.fresh % 2 = 0 then .next (s.copyGranule q p).bump else .next s.bump

end Sys2Proof.Machine
end

