-- ==== Sys2Proof/Machine/Launch.lean ====
section
/-! DEFINITION. Teams from launch to end: LAUNCH, die starts, pre-emption of victims, resumption, and the completion record (R209,
R212, R253, R271 to R284, R292). -/

namespace Sys2Proof.Machine

-- ## Launches that come to no team (R268, R273)

/-- A LAUNCH that comes to no team completes with its record (R268, R273). -/
def State.launchFails (s : State) (q : Fin 32) (p : Packet) (st cause : Byte) : State :=
  (s.record p.bytes st cause none 0 none 0 0 0).mapPackets q.val fun k => if k = p then { p.finish st with cause := cause } else k

-- ## Placing a team (R271 to R275, R282)

/-- A team number that no team holds (DESIGN CHOICE, log 33). -/
def State.freeNum (s : State) : Nat :=
  ((List.range 65535).map fun k => (s.hub.lastTeam + k) % 65535 + 1).find? (fun n =>
    !s.hub.teams.any fun t => t.num.toNat == n) |>.getD 1

/-- The team is placed on its dies: their shadow planes take differences for a time of open length (DESIGN CHOICE, log 24). -/
def State.place (s : State) (q : Fin 32) (p : Packet) (dies : List DieId) (l : List ImgRec) : State :=
  let n := s.freeNum
  let k := s.queue q.val
  let t : Team := { num := BitVec.ofNat 16 n, queue := q, pkt := p.bytes, dies := dies, phase := .preparing, recs := l,
                    planeAt := s.sidc + s.fresh, start := 0, delta := 0, begun := [],
                    prio := k.prio.toNat, preok := bit (qword p.bytes 2) 16, grants := imgGrants l dies, status := 0, cause := 0,
                    pos := 0, sstart := 0, breach := 0, trigbad := 0, stowed := [] }
  let s1 := s.mapPackets q.val fun k => if k = p then { p with team := t.num, freed := [] } else k
  { s1 with hub := { s1.hub with teams := s1.hub.teams ++ [t], lastTeam := n } }.bump

/-- A LAUNCH pre-empts: its victims get a switch SIDC of open distance (R282; DESIGN CHOICE, log 24). -/
def State.preempts (s : State) (q : Fin 32) (p : Packet) (vs : List Team) : State :=
  let w := s.sidc + 1 + s.fresh
  let s1 := vs.foldl (fun s t => (t.dies.foldl (fun s d => s.setDie d { s.die d with preemptAt := some w }) s).setTeam
    { t with phase := .preempting, stowed := [] }) s
  (s1.mapPackets q.val fun k => if k = p then { p with freed := vs.flatMap (·.dies) } else k).bump

/-- A LAUNCH that waits for its dies: its image is judged before any die is touched; it takes its dies once its wheel positions
are free too, or pre-empts once (R271 to R273, R282). -/
def State.tryPlace (s : State) (q : Fin 32) (p : Packet) : State :=
  match s.image p.bytes (launchDies p.bytes) with
  | .error e => s.launchFails q p e.1 e.2
  | .ok l =>
    if !s.grantsOpen l then s
    else match takeDies p.bytes fun d => s.dieOpen p.freed d || s.released p.freed d with
      | some dies => s.place q p dies l
      | none =>
        if !launchPreempts p.bytes || !p.freed.isEmpty then s
        else match pickVictims p.bytes (s.dieOpen []) [] s.victims with
          | some vs => s.preempts q p vs
          | none => s

/-- A team leaves: LANELIM as written while it ran takes effect once every team that ran then has left (R212; DEDUCED, log 58). -/
def Hub.leaves (h : Hub) (n : BitVec 16) : Hub :=
  let l := h.lanelimTeams.filter (· != n)
  match h.lanelimNext with
  | some v => if l.isEmpty then { h with lanelim := v, lanelimNext := none, lanelimTeams := [] } else { h with lanelimTeams := l }
  | none => h

/-- A team's dies are free again, and its packet completes (R275). -/
def State.dropTeam (s : State) (t : Team) (st : Byte) : State :=
  let s1 := allQueues.foldl (fun s q => s.mapPackets q.val fun p =>
    if p.team = t.num ∧ p.done.isNone then p.finish (if packetType p.bytes = 1 then st else 0) else p) s
  { s1 with hub := { s1.hub with teams := s1.hub.teams.filter (·.num != t.num) }.leaves t.num }

/-- The shadow planes of a team's stations take the differences of the planes of its image; a parcel that is written holds no error
any more (R274; DESIGN CHOICE, log 17). -/
def Die.sendPlanes (x : Die) (l : List ImgRec) (die : Nat) : Die :=
  let sent (p : Pos) : Station :=
    { x.sta p with shadow := takeDiffs (imgPlane l die p) (x.sta p).kept (x.sta p).shadow }
  { x with
    stations := (Vector.finRange 128).map sent,
    bad := x.bad.filter fun b => match b with
      | .shadow p k => !(diffParcels (imgPlane l die p) (x.sta p).kept).contains k
      | _ => true }

def State.sendPlanes (s : State) (t : Team) : State :=
  t.dies.zipIdx.foldl (fun s e => s.setDie e.1 ((s.die e.1).sendPlanes t.recs e.2)) s

/-- The stations of some dies copy their active planes back into their shadow planes, which takes 512 c (R274, R275). -/
def State.restorePlanes (s : State) (dies : List DieId) : State :=
  dies.foldl (fun s d => s.setDie d { s.die d with restoreAt := some (s.sidc + 512) }) s

/-- The least start of a team that keeps clear of every ramp event (R277). -/
def State.startCycle (s : State) (delta : Nat) : Nat := s.hub.ramps.foldl (fun n r => max n (r + delta)) (s.sidc + 1)

/-- A team's die starts are placed and recorded as ramp events (R277, R279). -/
def State.schedule (s : State) (t : Team) : State :=
  let delta := rampDelta s.hub.didtlim
  let start := s.startCycle delta
  let s1 := s.setTeam { t with phase := .running, planeAt := 0, start := start, delta := delta, begun := [],
                               sstart := if t.sstart = 0 then start else t.sstart }
  { s1 with hub := { s1.hub with ramps := s1.hub.ramps ++ (List.range t.dies.length).map fun i => start + i * delta } }

/-- A team whose first station to mismatch is `b` fails (R275); one that has been pre-empted has run before (R276, R284). -/
def State.planeFailure (s : State) (t : Team) (b : DieId × Pos) : State :=
  let pos : W64 := BitVec.ofNat 2 b.1.val ++ 0#2 ++ BitVec.ofNat 7 b.2.val ++ 0#53
  ((s.restorePlanes t.dies).record t.pkt 3 0 (some t.num) pos (if t.sstart = 0 then none else some t.sstart) t.holds t.breach
    t.trigbad).dropTeam t 3

/-- The plane work of a placed team has ended: the checks of its stations fail it, or its starts are placed (R274, R275, R277). -/
def State.planesDone (s : State) (t : Team) : State :=
  let s1 := s.sendPlanes t
  match s1.firstBadPlane t.recs t.dies with
  | some b => s1.planeFailure t b
  | none => s1.schedule t

/-- A team's plane work ends: its time is over, and no station of its dies still restores its shadow plane (R274). -/
def State.planesReady (s : State) (t : Team) : Bool := decide (t.planeAt ≤ s.sidc) && t.dies.all fun d => (s.die d).restoreAt.isNone

/-- LAUNCH (R271 to R277, R282): a packet that has started finds its dies, and its team's plane work comes to its end
(DEDUCED, log 59). -/
def execLaunch (q : Fin 32) (s : State) : Out :=
  let s1 := ((s.queue q.val).cur.filter fun p => p.live 1 && p.team == 0).foldl (fun s p => s.tryPlace q p) s
  let due := s1.hub.teams.filter fun t => t.queue == q && t.phase == .preparing && s1.planesReady t
  .next (due.foldl State.planesDone s1)

-- ## Starting and resuming dies (R274, R277, R284)

/-- Place of a die in its team's die order. -/
def Team.place (t : Team) (d : DieId) : Nat := (t.dies.takeWhile (· != d)).length

/-- A die of a pre-empted team runs on from its frozen cycle; its planes are exchanged (R274, R284). -/
def Die.resumed (x : Die) (t : Team) (i sidc : Nat) : Die :=
  let swap (p : Pos) : Station :=
    { x.sta p with plane := (x.sta p).shadow, shadow := (x.sta p).plane, kept := imgPlane t.recs i p }
  let y : Die := { x with stations := (Vector.finRange 128).map swap, bad := x.bad.map swapBad,
                          restoreAt := some (sidc + 512), rampEvent := some sidc }
  y.unfreeze (sidc - 1)

/-- As a launch's first die starts, every die of the team is made ready, and its links are reset (R209, R242, R277); no read of its own
goes behind what an earlier team of its dies has written (R256). -/
def State.makeReady (s : State) (t : Team) : State :=
  if !t.begun.isEmpty then s
  else
    let s1 := t.dies.zipIdx.foldl (fun s e =>
      (s.setDie e.1 ((s.die e.1).launched t e.2 s.sidc s.ctr)).setFs e.1 ((s.fs e.1).launched t.recs)) (s.resetLinks t.dies)
    { s1 with olds := s.oldsBehind fun o => t.dies.contains o.die }.bump

/-- DIE_START (R277, R279, R284): a die starts or resumes in its cycle S_i, a ramp event (DEDUCED, log 60). -/
def execDieStart (d : DieId) (s : State) : Out :=
  match s.teamOf d with
  | none => .next s
  | some t =>
    if (t.phase ≠ .running ∧ t.phase ≠ .preempting) ∨ t.begun.contains d ∨ s.sidc < t.start + t.place d * t.delta then .next s
    else
      let s1 := s.setTeam { t with begun := t.begun ++ [d] }
      if (s.die d).cond = .frozen then .next (s1.setDie d ((s.die d).resumed t (t.place d) s.sidc))
      else
        let s2 := s1.makeReady t
        .next (s2.setDie d ((s2.die d).begin s.sidc))

/-- PLANE_RESTORE (R274): the shadow planes equal the active ones again, and no word of them has an error. -/
def execPlaneRestore (d : DieId) (s : State) : Out :=
  let x := s.die d
  match x.restoreAt with
  | none => .next s
  | some t =>
    if s.sidc < t then .next s
    else
      let copy (k : Station) : Station := { k with shadow := k.plane }
      .next (s.setDie d { x with restoreAt := none, stations := x.stations.map copy,
                                  bad := x.bad.filter fun b => match b with | .shadow .. => false | _ => true })

/-- The unstow of a resuming die begins; one that has failed begins again (DEDUCED, log 28). -/
def State.unstowDie (s : State) (t : Team) (d : DieId) : State :=
  match (s.die d).stow with
  | none => s.stowStart d .resume true 0 (s.die d).bivbase
  | some k =>
    match k.out with
    | none => s
    | some c =>
      let s1 := s.setDie d { s.die d with stow := none }
      if c = 0 then s1.setTeam { t with stowed := t.stowed ++ [d] } else s1.stowStart d .resume true 0 (s.die d).bivbase

/-- A die leaves its team. -/
def Die.leave (d : Die) : Die :=
  { d with cond := .idle, team := 0, handlerNext := false, stopAt := none, preemptAt := none, causes := [], asyncs := [],
           latchNow := [], late := [], reports := [], reportAt := none }

/-- The planes of a team that resumes have been sent: a station that fails its check ends the team (R274, R275, R284; DEDUCED,
log 92). -/
def State.planesBack (s : State) (t : Team) : State :=
  let s1 := s.sendPlanes t
  match s1.firstBadPlane t.recs t.dies with
  | some b => t.dies.foldl (fun s d => s.setDie d (s.die d).leave) (s1.planeFailure t b)
  | none => s1.setTeam { t with planeAt := 0 }

/-- The dies of a team that resumes are unstowed; once all are, their starts are placed. -/
def State.unstowTeam (s : State) (team : BitVec 16) (dies : List DieId) : State :=
  let the (s : State) := s.hub.teams.find? fun u => u.num == team
  let s1 := dies.foldl (fun s d =>
    match the s with
    | some u => if u.stowed.contains d then s else s.unstowDie u d
    | none => s) s
  match the s1 with
  | some u => if u.dies.all u.stowed.contains then s1.schedule u else s1
  | none => s1

/-- TEAM_RESUME (R284, R305): once the plane work has ended, the planes are checked and the dies are unstowed. -/
def execTeamResume (team : BitVec 16) (s : State) : Out :=
  match s.hub.teams.find? fun t => t.num == team && t.phase == .resuming with
  | none => .next s
  | some t =>
    if t.planeAt = 0 then .next (s.unstowTeam team t.dies)
    else if s.planesReady t then .next (s.planesBack t)
    else .next s

-- ## The end of a team (R253, R276, R284, R292)

/-- Every stream of a station has retired and everything that it has issued has landed. -/
def Station.quiet (x : Station) : Bool :=
  x.ctx.toList.all (·.retired) && x.writes.isEmpty && x.flags.isEmpty && x.loads.isEmpty && x.stores.isEmpty &&
    x.releases.isEmpty && x.cav.all fun e => e.2.isNone

/-- A die of a team has nothing left to do. -/
def Die.quiet (d : Die) : Bool :=
  d.cond == .running && d.works.isEmpty && d.portA.isEmpty && d.drives.isEmpty && d.accJobs.isEmpty &&
    allPos.all fun p => (d.sta p).quiet

/-- A frozen team may end (R284, R292): every die stands still, every stow has ended, and no far work is left. -/
def State.stopped (s : State) (t : Team) : Bool :=
  t.dies.all (fun d =>
    let x := s.die d
    (x.cond == .frozen || x.cond == .idle) && x.stow.isNone && x.stopAt.isNone &&
      (t.status != 1 || decide (x.bivend ≤ x.bivbase) || x.cond == .idle || t.stowed.contains d)) && s.farDone t.dies

/-- The team has ended (DEDUCED, log 60). -/
def State.teamOver (s : State) (t : Team) : Bool :=
  match t.phase with
  | .running | .preempting => t.dies.all (fun d => t.begun.contains d && (s.die d).quiet) && s.farDone t.dies
  | .ending => s.stopped t
  | _ => false

/-- Starts that will not come are no ramp events. -/
def State.unschedule (s : State) (t : Team) : State :=
  let l := (t.dies.filter fun d => !t.begun.contains d).map fun d => t.start + t.place d * t.delta
  if t.start = 0 then s else { s with hub := { s.hub with ramps := s.hub.ramps.filter fun r => !l.contains r } }

/-- The dies of a team whose stations have taken differences and have not exchanged their planes (R274). -/
def Team.unswapped (t : Team) : List DieId := if t.planeAt = 0 then t.dies.filter (!t.begun.contains ·) else []

/-- The held die cycles of a team, those before its pre-emptions among them (R276). -/
def State.teamHolds (s : State) (t : Team) : Nat := t.dies.foldl (fun n d => n + (s.die d).holds) t.holds

/-- TEAM_END (R209, R212, R253, R274, R276): the record, the links, and the dies, which are free again. -/
def execTeamEnd (team : BitVec 16) (s : State) : Out :=
  match s.hub.teams.find? fun t => t.num == team with
  | none => .next s
  | some t =>
    if !s.teamOver t then .next s
    else
      let s1 := (s.record t.pkt t.status t.cause (some t.num) t.pos (some t.sstart) (s.teamHolds t) t.breach t.trigbad).unschedule t
      let s2 := t.dies.foldl (fun s d => s.setDie d (s.die d).leave) ((s1.resetLinks t.dies).restorePlanes t.unswapped)
      .next (s2.dropTeam t t.status)

/-- Stows that a reported cause calls for begin on the dies that stand still (R292). -/
def State.faultStows (s : State) (t : Team) : State :=
  if t.phase ≠ .ending ∨ t.status ≠ 1 then s
  else
    t.dies.foldl (fun s d =>
      let x := s.die d
      if x.cond = .frozen ∧ x.stow.isNone ∧ x.bivbase < x.bivend ∧ !t.stowed.contains d then
        s.stowStart d .fault false 0 x.bivbase
      else s) s

end Sys2Proof.Machine
end

