-- ==== Sys2Proof/Machine/Graph.lean ====
section
/-! DEFINITION. Collective graphs (R249, R285 to R287) and the Filys-X ports (R309). -/

namespace Sys2Proof.Machine

-- ## Operation records (R285)

/-- KIND of an operation. -/
def opKind (r : Four W64) : Nat := (fld r.x0 56 8).toNat

def opPort (r : Four W64) : Nat := (fld r.x0 20 3).toNat

def opChan (r : Four W64) : Nat := (fld r.x0 12 8).toNat

def opComb (r : Four W64) : Nat := (fld r.x0 8 4).toNat

def opK (r : Four W64) : Nat := (fld r.x0 0 8).toNat

def opLen (r : Four W64) : Nat := (fld r.x2 0 32).toNat

/-- An operation record that GRAPH.LOAD takes: its KIND is known and its fields lie in their ranges (DEDUCED, log 32). -/
def opOk (r : Four W64) : Bool :=
  decide (opKind r ≤ 2) && (if opKind r = 1 then decide (opComb r ≤ 4) else opComb r == 0) &&
    (if opKind r = 2 then decide (1 ≤ opK r) && decide (opK r ≤ 64) else opK r == 0) && opLen r % 256 == 0 &&
    (!bit r.x3 63 || decide ((fld r.x3 56 5).toNat < 24))

/-- The operation records of a graph image. -/
def graphOps (l : List Byte) (n : Nat) : List (Four W64) :=
  (List.range n).map fun k =>
    { x0 := qword l (4 * k), x1 := qword l (4 * k + 1), x2 := qword l (4 * k + 2), x3 := qword l (4 * k + 3) }

def State.setHandle (s : State) (q h : Nat) (k : Handle) : State :=
  { s with hub := { s.hub with handles := kput {} (16 * q + h) k s.hub.handles } }

/-- The handle that a graph packet names. -/
def graphHandle (b : List Byte) : Nat := (fld (qword b 2) 0 4).toNat

/-- A GRAPH.LOAD as it ends: the image replaces what its handle held, or fails. -/
def State.graphLoaded (s : State) (q : Fin 32) (p : Packet) : State :=
  let n := (fld (qword p.bytes 4) 0 9).toNat
  let a := dlaOf (qword p.bytes 3)
  let ends (s : State) (st : Byte) : State := s.mapPackets q fun k => if k = p then p.finish st else k
  match s.dlaBytes a.1 a.2 (32 * n) with
  | .error _ => ends s 7
  | .ok l =>
    let ops := graphOps l n
    if ops.all opOk then
      ends (s.setHandle q (graphHandle p.bytes) { s.handle q (graphHandle p.bytes) with ops := ops, loaded := true }) 0
    else ends s 7

/-- GRAPH.LOAD (R268, R285): the copy takes a time of open length (DESIGN CHOICE, log 26) (DEDUCED, log 57). -/
def execGraphLoad (q : Fin 32) (s : State) : Out :=
  .next (((s.queue q).cur.filter (·.live 2)).foldl (fun s p =>
    if p.endAt = 0 then (s.mapPackets q fun k => if k = p then { p with endAt := s.sidc + 1 + s.fresh } else k).bump
    else if p.endAt ≤ s.sidc then s.graphLoaded q p
    else s) s)

/-- A run begins: the handle's operations are queued in record order. -/
def State.graphStarts (s : State) (q : Fin 32) (p : Packet) : State :=
  let h := graphHandle p.bytes
  let k := s.handle q h
  if k.run.isSome then s
  else
    let ops := k.ops.map fun r => { rec_ := r, fired := false, startAt := 0, endAt := 0, down := false, doneOp := false : GraphOp }
    (s.setHandle q h { k with run := some (ops, (List.range 16).map fun n => qword p.bytes (4 + n)), err := none }).mapPackets q
      fun k => if k = p then { p with endAt := s.sidc + 1 } else k

/-- GRAPH.RUN (R285). -/
def execGraphRun (q : Fin 32) (s : State) : Out :=
  .next (((s.queue q).cur.filter fun p => p.live 3 && p.endAt == 0).foldl (fun s p => s.graphStarts q p) s)

-- ## TRIG (R249)

/-- A counter of a handle increased by 1, saturating. -/
def Handle.count (h : Handle) (c : Nat) : Handle := { h with ctrs := kput 0 c (min 0xFFFF (kget 0 c h.ctrs + 1)) h.ctrs }

/-- The TRIGs that have reached the base camp. -/
def State.takeTrigs (s : State) : State :=
  s.hub.trigs.foldl (fun s m =>
    match s.hub.teams.find? fun t => t.num == m.team with
    | none => s
    | some t =>
      let h := s.handle t.queue.val m.handle.toNat
      if h.loaded then s.setHandle t.queue.val m.handle.toNat (h.count m.ctr.toNat)
      else s.setTeam { t with trigbad := t.trigbad + 1 }) { s with hub := { s.hub with trigs := [] } }

-- ## Firing (R285)

/-- Operations of a run whose counter has reached its threshold fire in record order; each takes a time of open length
(DESIGN CHOICE, log 26). -/
def fireOps (h : Handle) (sidc ctr : Nat) : Nat → List GraphOp → List GraphOp
  | _, [] => []
  | n, o :: t =>
    let go := !o.fired && decide ((fld o.rec_.x0 32 16).toNat ≤ kget 0 (fld o.rec_.x0 48 8).toNat h.ctrs)
    (if go then { o with fired := true, startAt := sidc, endAt := sidc + 1 + (freeAt ctr n).toNat } else o) :: fireOps h sidc ctr (n + 1) t

/-- GRAPH_OPERATION_FIRE: the handles of queue `q` (R285). -/
def execGraphOperationFire (q : Fin 32) (s : State) : Out :=
  .next ((List.range 16).foldl (fun s h =>
    let k := s.handle q h
    match k.run with
    | none => s
    | some r => (s.setHandle q h { k with run := some (fireOps k s.sidc s.ctr 0 r.1, r.2) }).bump) s)

-- ## The operations (R286, R287)

def State.port (s : State) (p : Nat) : XPort := kget {} p s.hub.ports

def State.setPort (s : State) (p : Nat) (x : XPort) : State := { s with hub := { s.hub with ports := kput {} p x s.hub.ports } }

/-- Where an operation's memory lies: the base-table entry's die, its DLA plus OFFSET. -/
def opPlace (bases : List W64) (r : Four W64) : DieId × Nat :=
  let a := dlaOf (bases.getD (fld r.x1 60 4).toNat 0)
  (a.1, (a.2 + (fld r.x1 0 37).toNat) % 2 ^ 37)

/-- 32-bit words of a byte string. -/
def words32 : List Byte → List W32
  | a :: b :: c :: d :: t => (d ++ c ++ b ++ a) :: words32 t
  | _ => []

def bytes32 (l : List W32) : List Byte := l.flatMap fun w => leBytes w 4

/-- Element `i` of a block ranks before element `j` when it is kept: NaN first, then larger magnitude, then the lower index. -/
def ranksBefore (l : List W32) (i j : Nat) : Bool :=
  let mag (k : Nat) : Nat := (l.getD k 0 &&& 0x7FFFFFFF).toNat
  let rank (k : Nat) : Nat := if mag k > 0x7F800000 then 0x7F800001 else mag k
  decide (rank j < rank i) || (rank i == rank j && decide (i < j))

/-- The elements of a block of 64 that are kept. -/
def keptOf (l : List W32) (k : Nat) : List Nat :=
  (List.range 64).filter fun i => decide (((List.range 64).filter fun j => ranksBefore l j i).length < k)

/-- A block on the wire: its mask and the elements kept. -/
def packBlock (l : List W32) (k : Nat) : List Byte :=
  let kept := keptOf l k
  let mask : W64 := BitVec.ofNat 64 (kept.foldl (fun n i => n + 2 ^ i) 0)
  leBytes mask 8 ++ bytes32 (kept.map fun i => l.getD i 0)

/-- The bytes that a send puts on its channel. -/
def sendBytes (r : Four W64) (l : List Byte) : List (Bool × Byte) :=
  if opKind r = 2 then ((List.range (l.length / 256)).flatMap fun b => packBlock (words32 ((l.drop (256 * b)).take 256)) (opK r)).map
    fun x => (true, x)
  else l.map fun x => (false, x)

/-- local ⊕ received (R220, R286). -/
def combine (c : Nat) (old new : W32) : W32 :=
  match c with
  | 0 => new
  | 1 => amoNew .addF old new 0
  | 2 => amoNew .maxF old new 0
  | 3 => amoNew .minF old new 0
  | _ => amoNew .addI old new 0

/-- Compressed blocks added to `n` blocks of words: the result and the bytes taken, or none where more must arrive. -/
def scatter : Nat → List W32 → List Byte → Option (List W32 × Nat)
  | 0, _, _ => some ([], 0)
  | n + 1, ws, l =>
    if l.length < 8 then none
    else
      let mask : W64 := BitVec.ofNat 64 (leNat (l.take 8))
      let on := (List.range 64).filter fun i => bit mask i
      let size := 8 + 4 * on.length
      if l.length < size then none
      else
        let vals := words32 ((l.drop 8).take (4 * on.length))
        let block := (ws.take 64).zipIdx.map fun e =>
          match on.zip vals |>.find? fun k => k.1 == e.2 with
          | some k => (fAdd .rne 0 e.1 k.2).1
          | none => e.1
        (scatter n (ws.drop 64) (l.drop size)).map fun r => (block ++ r.1, size + r.2)

/-- How an operation stands. -/
inductive OpEnd where
  | waits
  | done (s : State)
  | failed (cause : Byte)

/-- A send at its end. -/
def State.runSend (s : State) (r : Four W64) (a : DieId × Nat) : OpEnd :=
  match s.dlaBytes a.1 a.2 (opLen r) with
  | .error c => .failed c
  | .ok l =>
    let x := s.port (opPort r)
    .done ((s.dlaTouch a.1 a.2 (opLen r)).setPort (opPort r) { x with tx := kput [] (opChan r) (kget [] (opChan r) x.tx ++ sendBytes r l) x.tx })

/-- The local words of a receive; one that copies does not read them (R91, R286). -/
def State.localBytes (s : State) (r : Four W64) (a : DieId × Nat) : Except Byte (List Byte) :=
  if opComb r = 0 then
    match s.dlaRefused a.1 a.2 (opLen r) with
    | some c => .error c
    | none => .ok (memRead s.mem (memKey a.1 a.2) (opLen r))
  else s.dlaBytes a.1 a.2 (opLen r)

/-- A receive-and-combine at its end, once its bytes have arrived. -/
def State.runReceive (s : State) (r : Four W64) (a : DieId × Nat) : OpEnd :=
  let x := s.port (opPort r)
  let rx := kget [] (opChan r) x.rx
  match s.localBytes r a with
  | .error c => .failed c
  | .ok old =>
    let put (l : List W32) (n : Nat) : OpEnd :=
      let s1 := s.setPort (opPort r) { x with rx := kput [] (opChan r) (rx.drop n) x.rx }
      .done (s1.dlaPut a.1 a.2 (bytes32 l))
    let packed := match rx with | (b, _) :: _ => b && opComb r == 1 | [] => false
    if packed then
      match scatter (opLen r / 256) (words32 old) (rx.map (·.2)) with
      | some e => put e.1 e.2
      | none => .waits
    else if rx.length < opLen r then .waits
    else
      let new := words32 ((rx.take (opLen r)).map (·.2))
      put (((words32 old).zip new).map fun e => combine (opComb r) e.1 e.2) (opLen r)

/-- Two operations send on, or take from, one channel. -/
def oneChannel (a b : Four W64) : Bool :=
  opPort a == opPort b && opChan a == opChan b && decide (opKind a = 1) == decide (opKind b = 1)

/-- An operation of the run of handle `key`, at place `i` of it, has another before it on its channel that started earlier, or earlier
in record order, and has not ended: what is sent and taken follows the order in which the operations start (R285, R286). -/
def State.behind (s : State) (key i : Nat) (o : GraphOp) : Bool :=
  s.hub.handles.any fun e =>
    match e.2.run with
    | none => false
    | some r => r.1.zipIdx.any fun k =>
      k.1.fired && !k.1.doneOp && oneChannel k.1.rec_ o.rec_ &&
        (decide (k.1.startAt < o.startAt) || (e.1 == key && k.1.startAt == o.startAt && decide (k.2 < i)))

/-- An operation whose time has come. -/
def State.runOp (s : State) (key i : Nat) (bases : List W64) (o : GraphOp) : OpEnd :=
  if o.down || !(s.port (opPort o.rec_)).up then .failed 0
  else if opLen o.rec_ = 0 then .done s
  else if s.behind key i o then .waits
  else if opKind o.rec_ = 1 then s.runReceive o.rec_ (opPlace bases o.rec_)
  else s.runSend o.rec_ (opPlace bases o.rec_)

/-- The arrival of an operation on a point of the queue's running team (R286); `err` is 0, or bit 8 and a cause. -/
def State.opArrives (s : State) (q : Fin 32) (r : Four W64) (err : BitVec 9) : State :=
  if !bit r.x3 63 then s
  else match s.hub.teams.find? fun t => t.queue == q && (t.phase == .running || t.phase == .preempting) with
    | some t => match t.dies with
      | d :: _ => s.arrive d (fld r.x3 56 5).toNat err
      | [] => s
    | none => s

/-- An operation has completed: its counter, its arrival, and the run's error. -/
def State.opEnds (s : State) (q : Fin 32) (h i : Nat) (o : GraphOp) (err : BitVec 9) : State :=
  let k := s.handle q h
  let k1 := if bit o.rec_.x0 23 then k.count (fld o.rec_.x0 24 8).toNat else k
  let k2 := if err = 0 ∨ k1.err.isSome then k1 else { k1 with err := some (err.setWidth 8) }
  let ops := k2.run.map fun r => (r.1.zipIdx.map fun e => if e.2 = i then { e.1 with doneOp := true } else e.1, r.2)
  (s.setHandle q h { k2 with run := ops }).opArrives q o.rec_ err

/-- The end of a run: its counters return to 0, and its packet completes (R285, R286). -/
def State.runEnds (s : State) (q : Fin 32) (h : Nat) : State :=
  let k := s.handle q h
  match k.run with
  | none => s
  | some r =>
    if !r.1.all (·.doneOp) then s
    else
      let st : Byte := if k.err.isSome then 7 else 0
      let cause := k.err.getD 0
      (s.setHandle q h { k with run := none, ctrs := [], err := none }).mapPackets q fun p =>
        if p.live 3 ∧ graphHandle p.bytes = h ∧ p.endAt ≠ 0 then { p.finish st with cause := cause } else p

/-- GRAPH_OPERATION_COMPLETE: the handles of queue `q` (R285 to R287; DEDUCED, log 57). -/
def execGraphOperationComplete (q : Fin 32) (s : State) : Out :=
  .next ((List.range 16).foldl (fun s h =>
    match (s.handle q h).run with
    | none => s
    | some r =>
      let s1 := r.1.zipIdx.foldl (fun s e =>
        if !e.1.fired || e.1.doneOp || s.sidc < e.1.endAt then s
        else match s.runOp (16 * q + h) e.2 r.2 e.1 with
          | .waits => s
          | .done t => t.opEnds q h e.2 e.1 0
          | .failed c => s.opEnds q h e.2 e.1 (1#1 ++ c)) s
      s1.runEnds q h) s)

-- ## Ports (R309)

/-- Every operation that uses a port fails when its link goes down (R309). -/
def State.portLost (s : State) (port : Nat) : State :=
  let mark (o : GraphOp) : GraphOp := if o.fired && !o.doneOp && opPort o.rec_ == port then { o with down := true } else o
  let hs := s.hub.handles.map fun e => (e.1, { e.2 with run := e.2.run.map fun r => (r.1.map mark, r.2) })
  { s with hub := { s.hub with handles := hs } }

/-- FILYS_X_LINK_DOWN (R309). -/
def execFilysXLinkDown (port : Fin 8) (s : State) : Out :=
  let x := s.port port
  .next ((s.setPort port { x with up := false, loss := x.loss || x.en }).portLost port.val)

/-- FILYS_X_LINK_UP: a port with EN = 1 finishes its training. -/
def execFilysXLinkUp (port : Fin 8) (peer : W64) (s : State) : Out :=
  let x := s.port port
  .next (if x.en then s.setPort port { x with up := true, peer := peer.setWidth 48 } else s)

/-- CHANNEL_DATA_ARRIVAL (R286, R287, R309): bytes arrive in the order sent; `packed` marks those of a compressed send. -/
def execChannelDataArrival (port : Fin 8) (chan : Byte) (packed : Bool) (bytes : List Byte) (s : State) : Out :=
  let x := s.port port
  .next (s.setPort port { x with rx := kput [] chan.toNat (kget [] chan.toNat x.rx ++ bytes.map fun b => (packed, b)) x.rx })

end Sys2Proof.Machine
end

