-- ==== Sys2Proof/Machine/Host.lean ====
section
/-! DEFINITION. The host's registers in BAR0, BAR2, telemetry, debug, monitors and trace (R85, R89, R90, R212, R267, R268, R278, R306
to R315). -/

namespace Sys2Proof.Machine

-- ## Limits (R212, R278)

/-- DIDTLIM as written (R278). -/
def State.didtlimPut (s : State) (v : W64) : State := { s with hub := { s.hub with didtlim := v &&& 0x03FF03FF } }

/-- DIDTLIM_WRITE (R278). -/
def execDidtlimWrite (v : W64) (s : State) : Out := .next (s.didtlimPut v)

/-- A team runs: its dies have started, or return to where they were frozen (R212). -/
def Team.runs (t : Team) : Bool := t.phase != .preempted && t.phase != .preparing

/-- LANELIM as written; while a team runs it waits for a team's exit (R212). -/
def State.lanelimPut (s : State) (v : W64) : State :=
  let w := (v &&& 0x0F00FFFF0000) ||| 0x20
  let l := (s.hub.teams.filter Team.runs).map (·.num)
  if l.isEmpty then { s with hub := { s.hub with lanelim := w, lanelimNext := none, lanelimTeams := [] } }
  else { s with hub := { s.hub with lanelimNext := some w, lanelimTeams := l } }

/-- LANELIM_WRITE (R212; DEDUCED, log 58). -/
def execLanelimWrite (v : W64) (s : State) : Out := .next (s.lanelimPut v)

-- ## Debug (R313)

/-- A die of a parked team stands frozen. -/
def State.parked (s : State) (d : DieId) : Bool :=
  (s.die d).cond == .frozen && match s.teamOf d with
    | some t => t.phase == .parked
    | none => false

/-- DBGSTOP as written. -/
def State.dbgstopPut (s : State) (v : W64) : State :=
  let s1 := { s with hub := { s.hub with dbgat := bit v 62, dbgmask := v.setWidth 4 } }
  if !bit v 63 then s1
  else
    let t := if bit v 62 then s.hub.dbgt.toNat else s.sidc + 1
    (allDies.filter fun d => bit v d.val && (s.teamOf d).isSome).foldl (fun s d =>
      s.setDie d { s.die d with debugAt := some t }) s1

/-- DBGSTOP (R313). -/
def execDbgstop (v : W64) (s : State) : Out := .next (s.dbgstopPut v)

/-- Die and FSA of DBGFSA. -/
def Hub.dbgPlace (h : Hub) : DieId × Nat := (Fin.ofNat 4 (fld h.dbgfsa 62 2).toNat, (fld h.dbgfsa 0 32).toNat)

/-- DBGDATA written or read (R313): the frozen word of a parked die; outside parking what a read gives is open (DESIGN CHOICE, log 9). -/
def State.dbgdata (s : State) (v : Option W64) : State :=
  let a := s.hub.dbgPlace
  let hub (s : State) (h : Hub) : State := { s with hub := h }
  if !s.parked a.1 then
    match v with
    | some _ => s
    | none => (hub s { s.hub with dbgdata := s.freeW 0 }).bump
  else match v with
    | some w => match s.frzPut a.1 a.2 w false with
      | some t => t
      | none => hub s { s.hub with dbgfbad := true }
    | none => match s.frzGet a.1 a.2 with
      | some w => (hub s { s.hub with dbgdata := w }).bump
      | none => hub s { s.hub with dbgdata := 0, dbgfbad := true }

/-- DBGDATA_ACCESS (R313). -/
def execDbgdataAccess (v : Option W64) (s : State) : Out := .next (s.dbgdata v)

/-- The steps of R298 on every parked die of a mask, after the die cycles of this cycle. -/
def State.dbgresPut (s : State) (v : W64) : State :=
  (allDies.filter fun d => bit v d.val && s.parked d).foldl (fun s d =>
    let r := s.resumeSteps d
    { r.1 with agenda := r.1.agenda ++ r.2 }) s

/-- DBGRES (R298, R313; DEDUCED, log 56). -/
def execDbgres (v : W64) (s : State) : Out := .next (s.dbgresPut v)

-- ## BAR0 as the host reads it (R306)

/-- The monitor that an offset from 0x0090_0200 names: die and number (R314). -/
def monitorAt (o : Nat) : DieId × Nat := (Fin.ofNat 4 (o / 0x100), o % 0x100 / 16)

/-- A word of a hold matrix record (R312). -/
def HoldRec.word (h : HoldRec) (k : Nat) : W64 :=
  match k with
  | 0 => h.gdr ++ h.vlt
  | 1 => h.rdv ++ h.rmt
  | 2 => h.gov.setWidth 64
  | _ => h.sdcyc

/-- A word of a die's translation block (R85). -/
def FarSide.blockWord (f : FarSide) (o : Nat) : W64 :=
  if o = 0 then f.xroot
  else if o = 8 then b1 f.xinval.isSome ++ (f.xpage.setWidth 63 : BitVec 63)
  else if o = 16 then f.xreplay
  else if 0x1000 ≤ o ∧ o < 0x1800 then
    let e := kget {} ((o - 0x1000) / 32) f.regions
    match o % 32 / 8 with
    | 0 => e.w0
    | 1 => e.w1
    | 2 => e.w2
    | _ => 0
  else 0

/-- A queue has a head, packet or team, that is not ready; the head packet of a queue with EN 0 is never ready (R267, R269). -/
def State.blocked (s : State) (q : Nat) : Bool :=
  let k := s.queue q
  ((s.waiting q).isSome || k.head != k.tail) && !s.ready q

/-- The status words of a queue (R267). -/
def State.qstat (s : State) (q : Nat) : W64 :=
  let k := s.queue q
  b1 (s.blocked q) ++ 0#53 ++ BitVec.ofNat 2 (s.epri q) ++ k.lstat

/-- The bit mask of the parked dies. -/
def State.parkedMask (s : State) : BitVec 4 := BitVec.ofNat 4 ((allDies.filter s.parked).foldl (fun n d => n + 2 ^ d.val) 0)

/-- The register at an 8 B-aligned BAR0 offset while the firmware runs; unnamed bits and offsets read as zero (R306 to R316). -/
def State.bar0 (s : State) (o : Nat) : W64 :=
  let h := s.hub
  if o = 0 then h.capbase
  else if o = 0x10000 then h.hevbase
  else if o = 0x10008 then b1 h.heven ++ 0#4 ++ h.hevvec ++ 0#43 ++ h.hevlsz
  else if o = 0x10010 then h.hevtail.setWidth 64
  else if o = 0x10018 then h.hevhead.setWidth 64
  else if o = 0x10020 then h.hevlost.setWidth 64
  else if o = 0x10040 then 0#26 ++ h.w2off ++ 0#30
  else if 0x20000 ≤ o ∧ o < 0x28100 then msixWord h (o - 0x20000)
  else if 0x400000 ≤ o ∧ o < 0x400800 then
    let k := s.queue ((o - 0x400000) / 0x40)
    match o % 0x40 with
    | 0x00 => k.base
    | 0x08 => b1 k.en ++ 0#45 ++ k.prio ++ 0#11 ++ k.lsz
    | 0x10 => k.tail.setWidth 64
    | 0x18 => k.head.setWidth 64
    | 0x20 => s.qstat ((o - 0x400000) / 0x40)
    | _ => 0
  else if o = 0x400800 then h.qage.setWidth 64
  else if 0x410000 ≤ o ∧ o < 0x410800 then s.fenceCtr ((o - 0x410000) / 8)
  else if o = 0x800000 then h.didtlim
  else if o = 0x800100 then h.lanelim
  else if o = 0x800200 then h.telctl
  else if o = 0x800208 then h.telbase
  else if o = 0x800210 then h.templim.setWidth 64
  else if o = 0x900000 then (b1 h.dbgctl).setWidth 64
  else if o = 0x900008 then 0#1 ++ b1 h.dbgat ++ 0#58 ++ h.dbgmask
  else if o = 0x900010 then h.dbgt
  else if o = 0x900018 then h.dbgfsa
  else if o = 0x900020 then h.dbgdata
  else if o = 0x900030 then 0#59 ++ b1 h.dbgfbad ++ s.parkedMask
  else if o = 0x900100 then h.trcctl
  else if o = 0x900108 then h.trcbase
  else if o = 0x900110 then h.trctail.setWidth 64
  else if o = 0x900118 then h.trchead.setWidth 64
  else if o = 0x900120 then h.trclost.setWidth 64
  else if 0x900200 ≤ o ∧ o < 0x900600 then
    let m := monitorAt (o - 0x900200)
    let k := kget {} m.2 (s.die m.1).monitors
    if o % 16 = 0 then k.cfg else k.cnt
  else if 0x910000 ≤ o ∧ o < 0x918000 then
    let x := (s.die (Fin.ofNat 4 ((o - 0x910000) / 0x2000))).sta (Fin.ofNat 128 (o % 0x1000 / 32))
    if o % 0x2000 < 0x1000 then { x.live with sdcyc := 0 }.word (o % 32 / 8) else x.snap.word (o % 32 / 8)
  else if o = 0xA00008 then h.bootst.setWidth 64
  else if 0x1000000 ≤ o ∧ o < 0x1400000 then (s.fs (Fin.ofNat 4 ((o - 0x1000000) / 0x100000))).blockWord (o % 0x100000)
  else if 0x2000000 ≤ o ∧ o < 0x2000800 ∧ o % 0x100 = 0 then
    let x := s.port ((o - 0x2000000) / 0x100)
    b1 x.en ++ b1 x.up ++ b1 x.loss ++ 0#13 ++ x.peer
  else kget 0 o h.caps

/-- An 8 B word of the staging window (R316). -/
def Hub.stagedWord (h : Hub) (o : Nat) : W64 := BitVec.ofNat 64 (leNat ((List.range 8).map fun k => (kget 0 (o + k) h.staging : Byte)))

/-- The register at an 8 B-aligned offset by the module's power: in boot state only CAPBASE, which reads 0, the boot registers and the
staging window are there (R316). -/
def State.register (s : State) (o : Nat) : W64 :=
  match s.power with
  | .running => s.bar0 o
  | .boot =>
    if o = 0xA00008 then s.hub.bootst.setWidth 64 else if 0x3000000 ≤ o then s.hub.stagedWord (o - 0x3000000) else 0
  | _ => 0

/-- What a BAR0 read of `size` bytes gives the host: the register, a half of it, or none for Unsupported Request, and where no link is
up (R306). -/
def State.hostRead (s : State) (off : BitVec 26) (size : Nat) : Option W64 :=
  let o := off.toNat
  let w := s.register (o / 8 * 8)
  if s.power ≠ .running ∧ s.power ≠ .boot then none
  else if size = 8 ∧ o % 8 = 0 then some w
  else if size = 4 ∧ o % 4 = 0 then some ((fld w (o % 8 * 8) 32 : W32).setWidth 64)
  else none

-- ## Writes (R306)

/-- A queue's registers written (R267): QBASE and LSZ stand while EN = 1. -/
def Queue.write (k : Queue) (o : Nat) (v : W64) : Queue :=
  match o with
  | 0x00 => if k.en then k else { k with base := v &&& ~~~255#64 }
  | 0x08 => { k with en := bit v 63, prio := fld v 16 2, lsz := if k.en then k.lsz else fld v 0 5 }
  | 0x10 => { k with tail := v.setWidth 32 }
  | _ => k

/-- A word of the MSI-X table written; a vector unmasked with its pending bit set is raised (R308). -/
def State.msixWrite (s : State) (o : Nat) (v : W64) : State :=
  if 0x8000 ≤ o then s
  else
    let h := if o % 16 = 8 then msixPut s.hub o (v &&& 0x1FFFFFFFF) else msixPut s.hub o v
    let s1 := { s with hub := h }
    if o % 16 ≠ 8 then s1 else s1.deliver (BitVec.ofNat 11 (o / 16))

/-- A monitor's registers written (R314). -/
def Monitor.write (m : Monitor) (cfg : Bool) (v : W64) : Monitor :=
  if cfg then { m with cfg := v &&& 0xFF7FFF00FFFFFFFF }
  else { m with cnt := v, fired := m.fired && v != 0 }

/-- A word of a die's translation block written (R85, R89, R90). -/
def State.blockWrite (s : State) (d : DieId) (o : Nat) (v : W64) : State :=
  let f := s.fs d
  if o = 0 then s.setFs d { f with xroot := v &&& 0x8000001FFFFF00E0 }
  else if o = 8 then s.xinvalWrite d v
  else if o = 16 then s.xreplayWrite d v
  else if 0x1000 ≤ o ∧ o < 0x1800 then
    let k := (o - 0x1000) / 32
    let e := kget {} k f.regions
    let e1 : Region := match o % 32 / 8 with
      | 0 => { e with w0 := v &&& 0x8FFE0FFFFFFF0000 }
      | 1 => { e with w1 := v &&& 0x00000FFFFFFF0000 }
      | 2 => { e with w2 := v &&& 0x0000001FFFFF0000 }
      | _ => e
    s.setFs d { f with regions := kput {} k e1 f.regions }
  else s

/-- A Filys-X port's control register written (R309): a port that is disabled loses its link. -/
def State.portWrite (s : State) (p : Nat) (v : W64) : State :=
  let x := s.port p
  let s1 := s.setPort p { x with en := bit v 63, up := x.up && bit v 63, loss := x.loss && bit v 61 }
  if x.up && !bit v 63 then s1.portLost p else s1

/-- The registers of the hub that are plain to write. -/
def Hub.write (h : Hub) (o : Nat) (v : W64) : Hub :=
  match o with
  | 0x10000 => { h with hevbase := v &&& ~~~255#64 }
  | 0x10008 => { h with heven := bit v 63, hevvec := fld v 48 11, hevlsz := fld v 0 5 }
  | 0x10018 => { h with hevhead := v.setWidth 32 }
  | 0x10020 => if (v.setWidth 32 : W32) = 0 then { h with hevlost := 0 } else h
  | 0x10040 => { h with w2off := fld v 30 8 }
  | 0x400800 => { h with qage := v.setWidth 32 }
  | 0x800200 => { h with telctl := v &&& 0x87FF00000000001F }
  | 0x800208 => { h with telbase := v &&& ~~~255#64 }
  | 0x800210 => { h with templim := v.setWidth 32 }
  | 0x900000 => { h with dbgctl := bit v 0 }
  | 0x900010 => { h with dbgt := v }
  | 0x900018 => { h with dbgfsa := v &&& 0xC0000000FFFFFFFF }
  | 0x900030 => { h with dbgfbad := h.dbgfbad && bit v 4 }
  | 0x900100 => { h with trcctl := v &&& 0xC7FF00000000001F }
  | 0x900108 => { h with trcbase := v &&& ~~~255#64 }
  | 0x900118 => { h with trchead := v.setWidth 32 }
  | 0x900120 => if (v.setWidth 32 : W32) = 0 then { h with trclost := 0 } else h
  | _ => h

/-- A whole register written while the firmware runs. -/
def State.bar0Write (s : State) (o : Nat) (v : W64) : State :=
  if 0x20000 ≤ o ∧ o < 0x28100 then s.msixWrite (o - 0x20000) v
  else if 0x400000 ≤ o ∧ o < 0x400800 then
    let q := (o - 0x400000) / 0x40
    s.setQueue q ((s.queue q).write (o % 0x40) v)
  else if 0x410000 ≤ o ∧ o < 0x410800 then s.setFence ((o - 0x410000) / 8) v
  else if o = 0x800000 then s.didtlimPut v
  else if o = 0x800100 then s.lanelimPut v
  else if o = 0x900008 then s.dbgstopPut v
  else if o = 0x900020 then s.dbgdata (some v)
  else if o = 0x900028 then s.dbgresPut v
  else if 0x900200 ≤ o ∧ o < 0x900600 then
    let m := monitorAt (o - 0x900200)
    let x := s.die m.1
    s.setDie m.1 { x with monitors := kput {} m.2 ((kget {} m.2 x.monitors).write (o % 16 == 0) v) x.monitors }
  else if 0x1000000 ≤ o ∧ o < 0x1400000 then s.blockWrite (Fin.ofNat 4 ((o - 0x1000000) / 0x100000)) (o % 0x100000) v
  else if 0x2000000 ≤ o ∧ o < 0x2000800 ∧ o % 0x100 = 0 then s.portWrite ((o - 0x2000000) / 0x100) v
  else { s with hub := s.hub.write o v }

/-- Bytes written into the staging window in boot state (R316). -/
def State.stage (s : State) (o : Nat) (l : List Byte) : State :=
  let put (m : KMap Byte) (e : Byte × Nat) : KMap Byte := kput 0 (o + e.2) e.1 m
  { s with hub := { s.hub with staging := l.zipIdx.foldl put s.hub.staging } }

/-- The boot ROM begins to verify the staged image; it takes a time of open length (R316; DESIGN CHOICE, log 24). -/
def State.bootStart (s : State) (v : W64) : State :=
  if bit v 63 ∧ s.hub.bootAt.isNone then { s with hub := { s.hub with bootAt := some (s.sidc + 1 + s.fresh) } }.bump else s

/-- A register as a half write finds it: DBGDATA the frozen word, LANELIM as last written (R212, R313). -/
def State.lastWritten (s : State) (r : Nat) : W64 :=
  if r = 0x900020 then (s.frzGet s.hub.dbgPlace.1 s.hub.dbgPlace.2).getD 0
  else if r = 0x800100 then s.hub.lanelimNext.getD s.hub.lanelim
  else s.bar0 r

/-- A register as a write of one of its halves leaves the other. -/
def mergeHalf (old : W64) (hi : Bool) (v : W32) : W64 :=
  if hi then v ++ (old.setWidth 32 : W32) else (fld old 32 32 : W32) ++ v

/-- HOST_REGISTER_WRITE (R306, R316): an aligned 64-bit write, or an aligned 32-bit write of one half; any other is dropped. In
boot state only the boot registers and the staging window are there (DESIGN CHOICE, log 19). -/
def execHostRegisterWrite (off : BitVec 26) (size : Nat) (v : W64) (s : State) : Out :=
  let o := off.toNat
  let whole := size = 8 ∧ o % 8 = 0
  let half := size = 4 ∧ o % 4 = 0
  if ¬ whole ∧ ¬ half then .next s
  else
    let r := o / 8 * 8
    let hi := decide (o % 8 = 4)
    match s.power with
    | .running =>
      let w := if whole then v else mergeHalf (s.lastWritten r) hi (v.setWidth 32)
      .next (s.bar0Write r w)
    | .boot =>
      if 0x3000000 ≤ o then .next (s.stage (o - 0x3000000) (leBytes v size))
      else if r = 0xA00000 then .next (s.bootStart (if whole then v else mergeHalf 0 hi (v.setWidth 32)))
      else .next s
    | _ => .next s

-- ## BAR2 (R307)

/-- The effective address of a BAR2 offset. -/
def Hub.bar2At (h : Hub) (off : Nat) : Nat := (h.w2off.toNat * 2 ^ 30 / 2 ^ h.bar2 * 2 ^ h.bar2 + off) % 2 ^ 38

/-- A write from DLA `dla` on covers a word with an uncorrectable error only in part, so that the controller must merge it
(R91, R307; DEDUCED, log 81). -/
def FarSide.badEdge (f : FarSide) (dla n : Nat) : Bool :=
  (decide (dla % 4 ≠ 0) && f.badSpan dla 1) || (decide ((dla + n) % 4 ≠ 0) && f.badSpan (dla + n - 1) 1)

/-- A BAR2 access that its controller fails: the event of type 6 with INFO e (R307, R308). -/
def State.bar2Fails (s : State) (d : DieId) (e : Nat) (cause : Byte) : State := s.hostEvent 6 cause d (BitVec.ofNat 64 e)

/-- A BAR2 read completes (R307). -/
def State.bar2Reply (s : State) (l : Option (List Byte)) : State :=
  { s with hub := { s.hub with bar2Reads := s.hub.bar2Reads ++ [l] } }

/-- A BAR2 access is made (R307): a write changes memory, a read gives its data; a write that fails is dropped, a read that fails
completes with Completer Abort, and either writes a host event of type 6. -/
def State.bar2Make (s : State) (e size : Nat) (data : Option (List Byte)) : State :=
  let d : DieId := Fin.ofNat 4 (e / 2 ^ 36)
  let dla := e % 2 ^ 36
  match data with
  | some l =>
    if (s.fs d).mcReset then s.bar2Fails d e cNotReady
    else if (s.fs d).badEdge dla (l.take size).length then s.bar2Fails d e cUncorr
    else s.dlaPut d dla (l.take size)
  | none =>
    match s.dlaBytes d dla size with
    | .ok l => (s.dlaTouch d dla size).bar2Reply (some l)
    | .error c => (s.bar2Fails d e c).bar2Reply none

/-- The requests that wait at home `h` in the channels of an access: the access comes after them (R98, R255). -/
def State.bar2Seen (s : State) (h : DieId) (a : HostAcc) : List (DieId × Nat) :=
  (s.hereReqs h).filterMap fun e => if a.meets e.2.granule then some (e.1, e.2.seq) else none

/-- BAR2_ACCESS (R255, R307): the access is made at once where its home can make it, else it waits there. -/
def execBar2Access (off : BitVec 38) (size : Nat) (data : Option (List Byte)) (s : State) : Out :=
  if s.power ≠ .running then .next s
  else
    let e := s.hub.bar2At off.toNat
    let d : DieId := Fin.ofNat 4 (e / 2 ^ 36)
    if (s.fs d).host.isEmpty && s.chansFree d (e % 2 ^ 36) size then .next (s.bar2Make e size data)
    else
      let a : HostAcc := { e := e, size := size, data := data, seen := [] }
      .next (s.setFs d { s.fs d with host := (s.fs d).host ++ [{ a with seen := s.bar2Seen d a }] })

/-- A request for which a BAR2 access waits is still at its home; an AMOSC holds none up (R224, R255). -/
def State.waitsFor (s : State) (h : DieId) (a : HostAcc) : Bool :=
  (s.hereReqs h).any fun e => !e.2.isSc && a.seen.contains (e.1, e.2.seq)

/-- The BAR2 accesses that wait at home `h` are made in the order they came, `n` of them at most, each once nothing goes before it and
none of its granules has had its access of this cycle (R255, R307). -/
def State.bar2Step (s : State) (h : DieId) : Nat → State
  | 0 => s
  | n + 1 =>
    match (s.fs h).host with
    | [] => s
    | a :: l =>
      if s.waitsFor h a || (granules (a.e % 2 ^ 36) a.size).any ((s.fs h).isTouched s.sidc) then s
      else ((s.setFs h { s.fs h with host := l }).bar2Make a.e a.size a.data).bar2Step h n

/-- The BAR2 accesses that wait at the homes, in this cycle. -/
def State.bar2Steps (s : State) : State := allDies.foldl (fun s h => s.bar2Step h (s.fs h).host.length) s

-- ## The configuration space (R306, R308)

/-- A write of the configuration space takes effect: a size of BAR2 that the function offers, or the two bits of MSI-X
(R306, R308). -/
def State.cfgWrite (s : State) (c : CfgWrite) : State :=
  match c with
  | .bar2 n => if 30 ≤ n ∧ n ≤ 38 then { s with hub := { s.hub with bar2 := n } } else s
  | .msix on mask => { s with hub := { s.hub with msixOn := on, msixMask := mask } }.deliverAll

-- ## Telemetry (R311)

/-- The record of a die for window `k`, whose last cycle is the one before this; its power, current, temperature and soft-error fields are open (DESIGN CHOICE, log 22). -/
def State.teleRecord (s : State) (d : DieId) (k : Nat) : List W64 :=
  let x := s.die d
  let t := x.tele
  let n (v : Nat) : W32 := BitVec.ofNat 32 v
  let f (i : Nat) : W64 := s.freeW (8 * d.val + i)
  let sum (g : Station → W64) : W64 := allPos.foldl (fun a p => a + g (x.sta p)) 0
  [0#30 ++ BitVec.ofNat 2 d.val ++ n k, BitVec.ofNat 64 (s.sidc - 1), f 0, f 1, f 2, n t.gdr ++ n t.vlt, n t.rdv ++ n t.rmt,
    n t.await ++ n t.gov, (f 3).setWidth 32 ++ n t.breach, sum (·.locreq), sum (·.remreq), 0, 0, 0, 0, 0]

/-- A die's sample: its record where records are written, and the thermal event. -/
def State.sample (s : State) (d : DieId) (k : Nat) : State :=
  let h := s.hub
  let l := s.teleRecord d k
  let slots := 2 ^ clampLsz 2 16 (fld h.telctl 0 5)
  let s1 := if bit h.telctl 63 then s.hostWrite ((h.telbase &&& ~~~255#64).toNat + 128 * ((4 * k + d.val) % slots)) (bytesOf l)
    else s
  let temp := l.getD 4 0
  let s0 := { s1 with hub := { s1.hub with latest := kput [] d.val l s1.hub.latest } }
  let s2 := if h.templim.toInt ≤ (temp.setWidth 16 : BitVec 16).toInt then s0.hostEvent 5 0 d temp else s0
  s2.setDie d { s2.die d with tele := {} }

/-- TELEMETRY_SAMPLE (R311): the window has ended with the cycle before this; it comes before everything else in its cycle. -/
def execTelemetrySample (s : State) : Out :=
  let k := s.sidc / 600000 - 1
  let s1 := allDies.foldl (fun t d => t.sample d k) s
  let v : BitVec 11 := fld s.hub.telctl 48 11
  .next (if bit s.hub.telctl 63 ∧ v ≠ 0 then s1.raiseVec v else s1).bump

-- ## Trace (R315)

/-- The trace ring takes another record. -/
def traceRoom (h : Hub) : Bool :=
  bit h.trcctl 62 || decide ((h.trctail - h.trchead).toNat < 2 ^ clampLsz 4 20 (fld h.trcctl 0 5))

/-- Held records written while the ring has room, and the vector each half ring. -/
def traceDrain : Nat → State → State
  | 0, s => s
  | n + 1, s =>
    match s.hub.trcstore with
    | [] => s
    | e :: t =>
      if !traceRoom s.hub then s
      else
        let h := s.hub
        let lsz := clampLsz 4 20 (fld h.trcctl 0 5)
        let s1 := s.hostWrite ((h.trcbase &&& ~~~255#64).toNat + 32 * (h.trctail.toNat % 2 ^ lsz)) (bytesOf e.toList)
        let s2 := { s1 with hub := { s1.hub with trcstore := t, trctail := h.trctail + 1 } }
        let v : BitVec 11 := fld h.trcctl 48 11
        traceDrain n (if v ≠ 0 ∧ (h.trctail.toNat + 1) % 2 ^ (lsz - 1) = 0 then s2.raiseVec v else s2)

/-- TRACE_RECORD_WRITE (R315; DEDUCED, log 29). -/
def execTraceRecordWrite (s : State) : Out := .next (traceDrain s.hub.trcstore.length s)

end Sys2Proof.Machine
end

