-- ==== Sys2Proof/Machine/Boot.lean ====
section
/-! DEFINITION. Power, reset, boot, the capability list and attestation (R310, R316, R317). -/

namespace Sys2Proof.Machine

-- ## The capability list (R310)

/-- A capability's identifier and body. -/
structure Capability where
  id : BitVec 16
  body : List W64

/-- Three 16-bit counts in one word, the first lowest. -/
def counts (a b c : Nat) : W64 := 0#16 ++ BitVec.ofNat 16 c ++ BitVec.ofNat 16 b ++ BitVec.ofNat 16 a

/-- The capabilities of the running firmware; its stepping and the mask of usable controllers are open (DESIGN CHOICE, log 30). -/
def capList (fw sec : W64) (fr : Nat) : List Capability :=
  [{ id := 1, body := [0#24 ++ (freeAt fr 0).setWidth 8 ++ 0x4E580004#32, fw, sec] },
    { id := 2, body := [600000, counts 4 128 1024] },
    { id := 3, body := [0x1000000000, 0x1000000000, 0x1000000000, 0x1000000000, 0xA000000, (freeAt fr 1) &&& 0xF] },
    { id := 4, body := [(List.range 6).foldr (fun k w => w * 256 + BitVec.ofNat 64 (Config.lattab k)) 0, counts 16 16 0] },
    { id := 5, body := [counts 32 16 256] },
    { id := 6, body := [600000] },
    { id := 7, body := [counts 16 4096 0] },
    { id := 8, body := [0x12, 3] },
    { id := 9, body := [counts 8 32 256] }]

/-- A capability in the list: their order, which is not that of their IDs, is fixed for the part (R310; DESIGN CHOICE, log 30). -/
def insertCap (c : Capability) : List Capability → List Capability
  | [] => [c]
  | d :: t => if Config.capRank c.id ≤ Config.capRank d.id then c :: d :: t else d :: insertCap c t

/-- The list in its order. -/
def capsInOrder (l : List Capability) : List Capability := l.foldr insertCap []

/-- The words of the list from BAR0 offset `o` on, each capability after the one before (DESIGN CHOICE, log 30). -/
def layCaps : Nat → List Capability → KMap W64 → KMap W64
  | _, [], m => m
  | o, c :: t, m =>
    let next := o + 8 + 8 * c.body.length
    let head : W64 := BitVec.ofNat 32 (if t.isEmpty then 0 else next) ++ BitVec.ofNat 8 c.body.length ++ 1#8 ++ c.id
    let m1 := (head :: c.body).zipIdx.foldl (fun m e => kput 0 (o + 8 * e.2) e.1 m) m
    layCaps next t m1

-- ## Boot (R316)

/-- The staged image's bytes. -/
def Hub.staged (h : Hub) : List Byte := (List.range 0x1000000).map fun k => kget 0 k h.staging

/-- BOOTST after the ROM's checks, and the image's version, security version and digest (R316). -/
def bootResult (l : List Byte) : Byte × Nat × Nat × BitVec 256 :=
  match Config.parseFirmware l with
  | none => (0x10, 0, 0, 0)
  | some (body, sig, key, sec, ver) =>
    let digest := Config.sha256 body
    let code : Byte :=
      if Config.sha256 key ≠ Config.vendorDigest then 0x11
      else if !Config.rsaVerify body sig key then 0x12
      else if sec < Config.fusedMin then 0x13
      else 0x01
    (code, ver, sec, digest)

/-- The ROM's verification has ended: the firmware runs, or BOOTST takes the reason. -/
def State.bootEnd (s : State) : State :=
  let r := bootResult s.hub.staged
  let h := { s.hub with bootAt := none, bootst := r.1 }
  if r.1 ≠ 1 then { s with hub := h }
  else
    let fw := BitVec.ofNat 64 r.2.1
    let sec := BitVec.ofNat 64 r.2.2.1
    let caps := layCaps 0x100 (capsInOrder (capList fw sec s.ctr)) []
    { s with power := .running,
             hub := { h with staging := [], capbase := 0x100, caps := caps, fwVersion := fw, fwSecurity := sec,
                             fwDigest := r.2.2.2 } }.bump

/-- BOOT_GO (R316): a GO begins the verification of the staged image, which ends some cycles later. -/
def execBootGo (v : W64) (s : State) : Out :=
  match s.power with
  | .boot =>
    match s.hub.bootAt with
    | some t => .next (if t ≤ s.sidc then s.bootEnd else s)
    | none => .next (s.bootStart v)
  | _ => .next s

-- ## Power and reset (R14, R316)

/-- The module in reset or without power; `mem` is what far memory holds then. -/
def State.down (s : State) (p : Power) (mem : List Host.Cell) : State :=
  { State.reset with now := s.now, power := p, inbox := s.inbox, cfg := s.cfg, hostMem := s.hostMem, mem := mem, ctr := s.ctr }

/-- HUB_RESET_DEASSERT (R14, R316): the hub leaves reset in boot state, with SIDC at zero. -/
def execHubResetDeassert (s : State) : Out :=
  match s.power with
  | .off | .inReset => .next (s.down .boot s.mem)
  | _ => .next s

/-- POWER_REMOVAL (R316): all state is lost. -/
def execPowerRemoval (s : State) : Out := .next (s.down .off [])

/-- RESET_PIN_ASSERT (R316): the module is in reset, and the reset values apply; far memory keeps its bytes (DESIGN CHOICE, log 4). -/
def execResetPinAssert (s : State) : Out :=
  match s.power with
  | .off => .next s
  | _ => .next (s.down .inReset s.mem)

-- ## Attestation (R317)

/-- The firmware answers; `k` is how far the SPDM connection has come by then. Without firmware nothing answers. -/
def State.answers (s : State) (k : Nat) (l : List Byte) : State :=
  match s.power with
  | .running => { s with hub := { s.hub with spdm := k, doe := l } }
  | _ => s

/-- The answer to an SPDM request (DESIGN CHOICE, log 20). -/
def State.answer (s : State) (k : Nat) (req : List Byte) : State := s.answers k (Config.spdmAnswer k req)

/-- Words of the whole capability list. -/
def capWords : Nat := (capList 0 0 0).foldl (fun n c => n + 1 + c.body.length) 0

/-- SHA-256 of the capability list, in list order (R317). -/
def State.capsDigest (s : State) : BitVec 256 :=
  Config.sha256 (bytesOf ((List.range capWords).map fun k => kget 0 (0x100 + 8 * k) s.hub.caps))

/-- The VERSION response: one version, 1.2, whose update and alpha numbers are open (R317; PRESUMED, log 79). -/
def spdmVersion (free : List Byte) : List Byte := [0x10, 0x04, 0, 0, 0, 1, free.getD 6 0, 0x12]

/-- GET_VERSION (R317): a connection begins. -/
def execGetVersion (req : List Byte) (s : State) : Out := .next (s.answers 1 (spdmVersion (Config.spdmAnswer 1 req)))

/-- GET_CAPABILITIES (R317). -/
def execGetCapabilities (req : List Byte) (s : State) : Out := .next (s.answer (max s.hub.spdm 2) req)

/-- The ALGORITHMS response: of what the request names, RSASSA-3072 and SHA-256 alone are selected; the rest of it is open
(R317; PRESUMED, log 79). -/
def spdmAlgorithms (req free : List Byte) : List Byte :=
  let sel (k : Nat) (b : Byte) : List Byte := [req.getD k 0 &&& b, 0, 0, 0]
  [0x12, 0x63] ++ (List.range 10).map (fun k => free.getD (k + 2) 0) ++ sel 8 4 ++ sel 12 1 ++ free.drop 20

/-- NEGOTIATE_ALGORITHMS (R317): RSASSA-3072 and SHA-256 only. -/
def execNegotiateAlgorithms (req : List Byte) (s : State) : Out :=
  .next (s.answers (max s.hub.spdm 3) (spdmAlgorithms req (Config.spdmAnswer 3 req)))

/-- GET_DIGESTS (R317). -/
def execGetDigests (req : List Byte) (s : State) : Out := .next (s.answer (max s.hub.spdm 4) req)

/-- GET_CERTIFICATE (R317). -/
def execGetCertificate (req : List Byte) (s : State) : Out := .next (s.answer (max s.hub.spdm 5) req)

/-- CHALLENGE (R317). -/
def execChallenge (req : List Byte) (s : State) : Out := .next (s.answer (max s.hub.spdm 6) req)

/-- A digest as bytes, the first on the left (PRESUMED, log 79). -/
def digestBytes (w : BitVec 256) : List Byte := (leBytes w 32).reverse

/-- The measurements of the running firmware, by index (R317). -/
def State.measurements (s : State) : List (Byte × List Byte) :=
  [(1, digestBytes Config.romDigest), (2, digestBytes s.hub.fwDigest),
    (3, Config.spdmVersions s.hub.fwSecurity.toNat Config.fusedMin), (4, digestBytes Config.fuseDigest), (5, digestBytes s.capsDigest)]

/-- A length as two bytes. -/
def len2 (n : Nat) : List Byte := leBytes (BitVec.ofNat 16 n) 2

/-- The block of a measurement; its value's type is open (R317; PRESUMED, log 79). -/
def spdmBlock (free : List Byte) (m : Byte × List Byte) : List Byte :=
  [m.1, 1] ++ len2 (m.2.length + 3) ++ [free.getD m.1.toNat 0] ++ len2 m.2.length ++ m.2

/-- The MEASUREMENTS response: for operation 0 the number of the measurements, for 0xFF all of them, else the one of that index; an index
that there is not has an open answer (R317; PRESUMED, log 79). -/
def State.spdmMeasured (s : State) (req free : List Byte) : List Byte :=
  let op := req.getD 3 0
  let l := if op = 0 then [] else if op = 0xFF then s.measurements else s.measurements.filter (·.1 == op)
  if op ≠ 0 ∧ l = [] then free
  else
    let record := l.flatMap (spdmBlock free)
    let head := [0x12, 0x60, if op = 0 then 5 else 0, free.getD 0 0, BitVec.ofNat 8 l.length] ++
      leBytes (BitVec.ofNat 24 record.length) 3 ++ record
    head ++ Config.spdmTail head req

/-- GET_MEASUREMENTS (R317): each index answers with its measurement of the running firmware. -/
def execGetMeasurements (req : List Byte) (s : State) : Out :=
  .next (s.answers (max s.hub.spdm 7) (s.spdmMeasured req (Config.spdmAnswer 7 req)))

/-- ERROR UnsupportedRequest, with the code of the request (R317; PRESUMED, log 79). -/
def spdmError (req : List Byte) : List Byte := [0x12, 0x7F, 0x07, req.getD 1 0]

/-- Any other SPDM request (R317): ERROR UnsupportedRequest. -/
def execSpdmUnsupportedRequest (req : List Byte) (s : State) : Out := .next (s.answers s.hub.spdm (spdmError req))

end Sys2Proof.Machine
end

