-- ==== Sys2Proof/Machine/Agenda.lean ====
section
/-! DEFINITION. What the module does in each sidereal cycle, in order: the agenda of a cycle, its tasks, and the placing of a word
where the next step fetches it (R13 to R26, R54, R293, R316; DESIGN CHOICE, log 2, DESIGN CHOICE, log 31). -/

namespace Sys2Proof.Machine

-- ## The dies' part of a cycle

/-- A STOP or another die's report reaches a die that does not run: handler mode ends at once (R284, R294). -/
def Die.stopSlot (d : Die) : Die :=
  match d.cond with
  | .handler => { d.handlerOver with stopAt := none }
  | .frozen => { d with handlerNext := false, stopAt := none }
  | .idle => { d with stopAt := none }
  | _ => d

/-- What a die does in a sidereal cycle, by its condition (R18, R19, R23, R293). -/
def Die.slotTasks (x : Die) (d : DieId) : List Task :=
  let far : List Task := [.ev (.haulGranuleStart d), .ev (.haulPortBRead d), .ev (.errorResponse d)]
  let stow : List Task := if x.stow.isSome then [.stow d] else []
  match x.cond with
  | .running | .held => [.ev (.dieCycle d)]
  | .handler => far ++ [.hissue d] ++ stow ++ [.hclose d]
  | _ => far ++ stow ++ [.close d]

/-- The slot of a die in a sidereal cycle. -/
def slotTask (d : DieId) (s : State) : Out :=
  let x0 := s.die d
  let x := if s.stopDue x0 then x0.stopSlot else x0
  let s1 := s.setDie d x
  .next { s1 with agenda := x.slotTasks d ++ s1.agenda }

-- ## The hub's part of a cycle

/-- A queue has a started packet of a type. -/
def State.hasPacket (s : State) (q : Fin 32) (ty : Byte) : Bool := (s.queue q.val).cur.any (·.live ty)

/-- A queue's LAUNCH still waits for dies, or its team for its planes. -/
def State.launching (s : State) (q : Fin 32) : Bool :=
  ((s.queue q.val).cur.any fun p => p.live 1 && p.team == 0) || s.hub.teams.any fun t => t.queue == q && t.phase == .preparing

/-- A handle of a queue has a run in progress. -/
def State.graphs (s : State) (q : Fin 32) : Bool := s.hub.handles.any fun e => e.1 / 16 == q.val && e.2.run.isSome

/-- What the hub does for a team in this cycle. -/
def State.teamTasks (s : State) (t : Team) : List Task :=
  match t.phase with
  | .preempting => if s.teamOver t then [.ev (.teamEnd t.num)] else (t.dies.take 1).map fun d => .ev (.preemptionStowEnd d)
  | .resuming => [.ev (.teamResume t.num)]
  | .running | .ending => if s.teamOver t then [.ev (.teamEnd t.num)] else []
  | _ => []

/-- The hub's tasks of a cycle. -/
def State.hubTasks (s : State) : List Task :=
  (allDies.filter fun d => match (s.die d).restoreAt with | some t => decide (t ≤ s.sidc) | none => false).map
    (fun d => .ev (.planeRestore d)) ++
  (allQueues.filter s.graphs).flatMap (fun q => [.ev (.graphOperationComplete q), .ev (.graphOperationFire q)]) ++
  (allQueues.filter (s.hasPacket · 2)).map (fun q => .ev (.graphLoad q)) ++
  (allQueues.filter s.launching).map (fun q => .ev (.launch q)) ++
  (allQueues.filter (s.hasPacket · 6)).map (fun q => .ev (.copyGranule q)) ++
  s.hub.teams.flatMap s.teamTasks ++
  [.ev .packetTake] ++
  (if s.hub.trcstore.isEmpty then [] else [.ev .traceRecordWrite]) ++
  [.hubEnd]

/-- The hub's part begins: BAR2 accesses that have waited, TRIGs and host events that have reached it, and the stows of faulted
teams. -/
def hubTask (s : State) : Out :=
  let s1 := hevDrain s.hub.hevheld.length s.bar2Steps.takeTrigs
  let s2 := s1.hub.teams.foldl State.faultStows s1
  .next { s2 with agenda := s2.hubTasks ++ s2.agenda }

/-- The events and the packets of this cycle come to their end. -/
def hubEndTask (s0 : State) : Out :=
  let s := s0.takeEvents
  let qs := allQueues.filter fun q => (s.queue q.val).cur.any (·.done.isSome)
  .next { s with agenda := qs.map (fun q => .ev (.packetComplete q)) ++ s.agenda }

-- ## The cycle

/-- An outside event that the module takes in a state of its power: nothing but power and reset without it, the boot registers
in boot state too, and everything from outside once the firmware runs (R316; DESIGN CHOICE, log 18). -/
def takesEvent (p : Power) (i : Instr) : Bool :=
  match i with
  | .hubResetDeassert | .powerRemoval | .resetPinAssert => true
  | .hostRegisterWrite .. | .bootGo _ => p == .boot || p == .running
  | .xinval .. | .xreplay .. | .didtlimWrite _ | .lanelimWrite _ | .bar2Access .. | .hostEvent .. | .dbgstop _ | .dbgdataAccess _
  | .dbgres _ | .memoryControllerReset .. | .filysXLinkDown _ | .filysXLinkUp .. | .channelDataArrival .. | .getVersion _
  | .getCapabilities _ | .negotiateAlgorithms _ | .getDigests _ | .getCertificate _ | .challenge _ | .getMeasurements _
  | .spdmUnsupportedRequest _ => p == .running
  | _ => false

/-- The outside events of a cycle, in their order (DESIGN CHOICE, log 18). -/
def State.dueEvents (s : State) (now : Nat) : List Task :=
  (s.inbox.filter fun e => decide (e.1 ≤ now) && takesEvent s.power e.2).map fun e => .ev e.2

/-- The tasks of a cycle in which the firmware runs (DESIGN CHOICE, log 2); a telemetry window has ended with the cycle before
(R311). AMOSCs that must be performed take their granules first (R221); of two dies that report in one cycle the lower-numbered comes
first (R292). -/
def cycleAgenda (sidc : Nat) : List Task :=
  let each (f : DieId → Instr) : List Task := allDies.map fun d => .ev (f d)
  let links (f : Fin 6 → Instr) : List Task := (List.finRange 6).map fun l => .ev (f l)
  (if sidc % 600000 = 0 ∧ 0 < sidc then [.ev .telemetrySample] else []) ++ links .turnEffect ++ links .deadTimeEnd ++
    [.ev .gddr7Refresh] ++ each .rowClose ++ each .dieStart ++ each .phasePropagate ++
    each .handlerEntry ++ each .alignmentWaitEnd ++ allDies.map .slot ++ each .haulPortBWrite ++ each .tlbWalkRead ++
    each .requestDepart ++ each .amoscPerform ++ each .farAccessPerform ++ each .amoscPerform ++ each .wheelMarkArrive ++
    each .wheelMarkSend ++ [.links] ++
    each .responseArrival ++ each .haulComplete ++ each .rdvaArrival ++ each .trigRelease ++ each .rdviApply ++
    each .arrivalCount ++ allDies.map .settle ++ each .xinvalDone ++ each .causeReport ++ [.hub]

/-- The boot ROM's verification ends in this cycle. -/
def State.bootTasks (s : State) (sidc : Nat) : List Task :=
  match s.hub.bootAt with
  | some t => if t ≤ sidc then [.ev (.bootGo 0)] else []
  | none => []

/-- The writes of the configuration space that are due; without a host link there is none to take them (R306, R308, R316). -/
def State.takeCfg (s : State) (now : Nat) : State :=
  if s.cfg.isEmpty then s
  else
    let due := (s.cfg.filter fun e => decide (e.1 ≤ now)).map (·.2)
    let s1 := { s with cfg := s.cfg.filter fun e => decide (now < e.1) }
    if s.power = .boot ∨ s.power = .running then due.foldl State.cfgWrite s1 else s1

/-- The next cycle begins (R13, R14, R316): time passes, and without power and with no outside event to come there is none
(DESIGN CHOICE, log 3). -/
def tick (s0 : State) : Out :=
  let now := s0.now + 1
  let s := s0.takeCfg now
  let due := s.dueEvents now
  let later := s.inbox.filter fun e => decide (now < e.1)
  match s.power with
  | .off => if s.inbox = [] then .fault .powerOff else .next { s with now := now, inbox := later, agenda := due }
  | .inReset => .next { s with now := now, inbox := later, agenda := due }
  | .boot => .next { s with now := now, sidc := s.sidc + 1, inbox := later, agenda := due ++ s.bootTasks (s.sidc + 1) }
  | .running => .next { s with now := now, sidc := s.sidc + 1, inbox := later, agenda := due ++ cycleAgenda (s.sidc + 1) }

/-- One task of the agenda; `run` gives an instruction or event its effect. -/
def runTask (run : Instr → State → Out) (t : Task) (s : State) : Out :=
  match t with
  | .ev i => run i s
  | .issue d p st => issueTask run d p st s
  | .close d => closeTask d s
  | .settle d => settleTask d s
  | .links => linksTask s
  | .hissue d => hissueTask run d s
  | .hclose d => hcloseTask d s
  | .replay d p st => replayTask run d p st s
  | .resumeEnd d => resumeEndTask d s
  | .slot d => slotTask d s
  | .stow d => stowCycle d s
  | .hub => hubTask s
  | .hubEnd => hubEndTask s

/-- One step: the next task of the cycle, or the next cycle's agenda. -/
def stepWith (run : Instr → State → Out) (s : State) : Out :=
  match s.agenda with
  | [] => tick s
  | t :: rest => runTask run t { s with agenda := rest }

-- ## Placing a word (DESIGN CHOICE, log 31)

/-- The section in which a placed word stands: its header is at parcel 0x10, its words from 0x14 on. -/
def placedSection : Section :=
  { hdr := 0x10, pre := false, lbf := false, xch := false, snum := 0, len := 16, deps := { x0 := 0xFF, x1 := 0xFF, x2 := 0xFF, x3 := 0xFF } }

/-- The six parcels of a word from parcel 0x14 on. -/
def placeParcels (m : KMap Parcel) (w : W96) : KMap Parcel :=
  (List.range 6).foldl (fun m k => kput 0 (0x14 + k) (fld w (16 * k) 16) m) m

/-- The stream in which a word is an instruction: the first of C, L, S, X. -/
def placedStream (w : W96) : Strm :=
  let ok (st : Strm) : Bool := match decodeWord st w with | .ok _ => true | .error _ => false
  if ok .c then .c else if ok .l then .l else if ok .s then .s else .x

/-- The word stands at parcel 0x14 of station N0's plane on die 0 and is what its stream issues next; a word that only a handler
context may issue is the handler's next word (R294). -/
def State.placeWord (s : State) (w : W96) : State :=
  let st := placedStream w
  let d := s.die 0
  let x := d.sta 0
  let h := handlerOnly (wordOpc w)
  let c : Ctx := { x.ctxOf st with next := .word 0x14 (if h then s.sidc else d.dcyc), sect := some placedSection, entering := false,
                                   retired := false }
  let y : Station := { x.setCtx st c with plane := placeParcels x.plane w }
  if h then { s.setDie 0 { d.setSta 0 y with cond := .handler, hpos := 0, stow := none } with agenda := [.hissue 0] }
  else { s.setDie 0 (d.setSta 0 y) with agenda := [.issue 0 0 st] }

end Sys2Proof.Machine
end

