-- ==== Sys2Proof/Machine/Scalar.lean ====
section
/-! DEFINITION. The scalar words of the C stream and the address words of the L and S streams (R134, R226 to R231). -/

namespace Sys2Proof.Machine

/-- A scalar word: a result that lands `lat` cycles after its issue (R226). -/
def scalarWord (s : State) (lat : Nat) (d : BitVec 6) (v : W64) : Out := .next (s.putScal lat d v)

/-- Bits [127:64] of the exact product (R226). -/
def mulHigh (u : Bool) (a b : W64) : W64 :=
  if u then BitVec.ofNat 64 (a.toNat * b.toNat / 2 ^ 64) else BitVec.ofInt 64 ((a.toInt * b.toInt) / 2 ^ 64)

/-- Quotient and remainder of R227. -/
def divide (a b : W64) (u : Bool) : W64 × W64 :=
  if b = 0 then (BitVec.allOnes 64, a)
  else if u then (a / b, a % b)
  else (a.sdiv b, a.srem b)

/-- Leading zeros below bit `n`. -/
def leadZeros (a : W64) : Nat → Nat
  | 0 => 0
  | n + 1 => if bit a n then 0 else leadZeros a n + 1

/-- Ones below bit `n`. -/
def popCount (a : W64) : Nat → Nat
  | 0 => 0
  | n + 1 => popCount a n + (if bit a n then 1 else 0)

/-- Width of a field of BEXT or BINS that ends at bit 63 at the latest (R229). -/
def fieldWidth (wm1 p : BitVec 6) : Nat := min (wm1.toNat + 1) (64 - p.toNat)

/-- BEXT's result (R229). -/
def bextOf (sx : Bool) (a : W64) (wm1 p : BitVec 6) : W64 :=
  let w := fieldWidth wm1 p
  let f := (a.toNat / 2 ^ p.toNat) % 2 ^ w
  if sx && decide (f ≥ 2 ^ (w - 1)) then BitVec.ofInt 64 ((f : Int) - (2 ^ w : Nat)) else BitVec.ofNat 64 f

/-- BINS's result (R229). -/
def binsOf (d a : W64) (wm1 p : BitVec 6) : W64 :=
  let m : W64 := BitVec.ofNat 64 ((2 ^ fieldWidth wm1 p - 1) * 2 ^ p.toNat)
  (d &&& ~~~m) ||| ((a <<< p.toNat) &&& m)

/-- Shift count b mod 64. -/
def shiftBy (b : W64) : Nat := b.toNat % 64

-- ## Integer work (R226)

def execAdd (d : BitVec 6) (a : Scal) (b : SOp) (s : State) : Out := scalarWord s 2 d (s.scal a + s.sop b)

def execSub (d : BitVec 6) (a : Scal) (b : SOp) (s : State) : Out := scalarWord s 2 d (s.scal a - s.sop b)

def execMul (d : BitVec 6) (a : Scal) (b : SOp) (s : State) : Out := scalarWord s 4 d (s.scal a * s.sop b)

def execMulh (u : Bool) (d : BitVec 6) (a : Scal) (b : SOp) (s : State) : Out :=
  scalarWord s 4 d (mulHigh u (s.scal a) (s.sop b))

def execAnd (d : BitVec 6) (a : Scal) (b : SOp) (s : State) : Out := scalarWord s 2 d (s.scal a &&& s.sop b)

def execOr (d : BitVec 6) (a : Scal) (b : SOp) (s : State) : Out := scalarWord s 2 d (s.scal a ||| s.sop b)

def execXor (d : BitVec 6) (a : Scal) (b : SOp) (s : State) : Out := scalarWord s 2 d (s.scal a ^^^ s.sop b)

def execAndn (d : BitVec 6) (a : Scal) (b : SOp) (s : State) : Out := scalarWord s 2 d (s.scal a &&& ~~~s.sop b)

def execShl (d : BitVec 6) (a : Scal) (b : SOp) (s : State) : Out := scalarWord s 2 d (s.scal a <<< shiftBy (s.sop b))

def execShr (d : BitVec 6) (a : Scal) (b : SOp) (s : State) : Out := scalarWord s 2 d (s.scal a >>> shiftBy (s.sop b))

def execSra (d : BitVec 6) (a : Scal) (b : SOp) (s : State) : Out :=
  scalarWord s 2 d ((s.scal a).sshiftRight (shiftBy (s.sop b)))

def execRol (d : BitVec 6) (a : Scal) (b : SOp) (s : State) : Out :=
  scalarWord s 2 d ((s.scal a).rotateLeft (shiftBy (s.sop b)))

def execMin (u : Bool) (d : BitVec 6) (a : Scal) (b : SOp) (s : State) : Out :=
  scalarWord s 2 d (if iCond (!u) .lt (s.sop b) (s.scal a) then s.sop b else s.scal a)

def execMax (u : Bool) (d : BitVec 6) (a : Scal) (b : SOp) (s : State) : Out :=
  scalarWord s 2 d (if iCond (!u) .lt (s.scal a) (s.sop b) then s.sop b else s.scal a)

def execClz (d : BitVec 6) (a : Scal) (s : State) : Out := scalarWord s 2 d (BitVec.ofNat 64 (leadZeros (s.scal a) 64))

def execPopc (d : BitVec 6) (a : Scal) (s : State) : Out := scalarWord s 2 d (BitVec.ofNat 64 (popCount (s.scal a) 64))

def execSel (d : BitVec 6) (a : Scal) (b : SOp) (c : BitVec 3) (s : State) : Out :=
  scalarWord s 2 d (if s.pred c then s.scal a else s.sop b)

/-- CMP (R231). -/
def execCmp (cond : Cond) (d : BitVec 3) (a : Scal) (b : SOp) (s : State) : Out :=
  .next (s.putPred 2 d (iCond true cond (s.scal a) (s.sop b)))

-- ## The divider (R227)

/-- DIV or REM with its divider results `r` and the one that it writes. -/
def divWord (s : State) (d : BitVec 6) (r : W64 × W64) (v : W64) : Out :=
  if s.focus.handler then raise s .wrongStream
  else if s.cyc < s.curSta.div.free then raise s .unitBusy
  else .next ((s.updSta fun x => { x with div := { rem := r.2, quo := r.1, free := s.cyc + 34 } }).putScal 34 d v)

def execDiv (u : Bool) (d : BitVec 6) (a : Scal) (b : SOp) (s : State) : Out :=
  let r := divide (s.scal a) (s.sop b) u
  divWord s d r r.1

def execRem (u : Bool) (d : BitVec 6) (a : Scal) (b : SOp) (s : State) : Out :=
  let r := divide (s.scal a) (s.sop b) u
  divWord s d r r.2

-- ## Building, cutting and choosing (R229)

def execMovi (d : BitVec 6) (v : BitVec 48) (s : State) : Out := scalarWord s 2 d (v.signExtend 64)

def execMovhi (d : BitVec 6) (v : BitVec 16) (s : State) : Out :=
  scalarWord s 2 d (v ++ (s.scal (.reg d)).setWidth 48)

def execBext (sx : Bool) (d : BitVec 6) (a : Scal) (wm1 p : BitVec 6) (s : State) : Out :=
  scalarWord s 2 d (bextOf sx (s.scal a) wm1 p)

def execBins (d : BitVec 6) (a : Scal) (wm1 p : BitVec 6) (s : State) : Out :=
  scalarWord s 2 d (binsOf (s.scal (.reg d)) (s.scal a) wm1 p)

-- ## Floating point (R228)

/-- An FP32 result with its events (R73, R228). -/
def floatWord (s : State) (d : BitVec 6) (r : W64 × FpFlags) : Out := .next ((s.putScal 4 d r.1).putFlags 4 r.2)

/-- The state after the draw of an `.rsr` word, and the noise value (R165, R228). -/
def State.rsrDraw (s : State) (rnd : Rnd) : Nat × State := s.noiseIf (rnd == .rsr)

def execFadd (rnd : Rnd) (d : BitVec 6) (a : Scal) (b : SOp) (s : State) : Out :=
  let n := s.rsrDraw rnd
  let r := fAdd rnd n.1 (s.f32 a) (s.f32op b)
  floatWord n.2 d (f64of r.1, r.2)

def execFmul (rnd : Rnd) (d : BitVec 6) (a : Scal) (b : SOp) (s : State) : Out :=
  let n := s.rsrDraw rnd
  let r := fMul rnd n.1 (s.f32 a) (s.f32op b)
  floatWord n.2 d (f64of r.1, r.2)

def execFfma (rnd : Rnd) (d : BitVec 6) (a : Scal) (b : SOp) (c : Scal) (s : State) : Out :=
  let n := s.rsrDraw rnd
  let r := fFma rnd n.1 (s.f32 a) (s.f32op b) (s.f32 c)
  floatWord n.2 d (f64of r.1, r.2)

def execFcmp (cond : Cond) (d : BitVec 3) (a : Scal) (b : SOp) (s : State) : Out :=
  .next (s.putPred 4 d (fCond cond (s.f32 a) (s.f32op b)))

def execFcvt (src dst : Ty) (rnd : Rnd) (sat : Bool) (d : BitVec 6) (a : Scal) (s : State) : Out :=
  let n := s.noiseIf (rnd == .rsr && cvtDraws src dst)
  let r := cvt src dst rnd sat n.1 (s.f32 a)
  floatWord n.2 d (place64 dst r.1, r.2)

def execFmnx (mx : Bool) (d : BitVec 6) (a : Scal) (b : SOp) (s : State) : Out :=
  floatWord s d (f64of (fMinMax mx (s.f32 a) (s.f32op b)), FpFlags.none)

-- ## Scalar pad (R230)

/-- A pad address that a word may not use. -/
def padBad (ea : W64) : Bool := fld ea 13 51 != 0 || fld ea 0 3 != 0

def execSld (d : BitVec 6) (a : Scal) (v : W32) (s : State) : Out :=
  if s.focus.handler then raise s .wrongStream
  else if padBad (s.ea a v) then raise s .bankRange
  else scalarWord s 5 d (kget 0 (idx (fld (s.ea a v) 3 10)) s.curSta.pad)

/-- SST: only the C stream reaches the pad and it issues one word a cycle, so the word is written at once. -/
def execSst (a b : Scal) (v : W32) (s : State) : Out :=
  if s.focus.handler then raise s .wrongStream
  else if padBad (s.ea a v) then raise s .bankRange
  else .next (s.updSta fun x => { x with pad := kput 0 (idx (fld (s.ea a v) 3 10)) (s.scal b) x.pad })

-- ## Address words (R134)

def execAadd (d : BitVec 6) (a : Scal) (b : SOp) (s : State) : Out := scalarWord s 2 d (s.scal a + s.sop b)

def execAsub (d : BitVec 6) (a : Scal) (b : SOp) (s : State) : Out := scalarWord s 2 d (s.scal a - s.sop b)

def execAmul (d : BitVec 6) (a : Scal) (b : SOp) (s : State) : Out := scalarWord s 4 d (s.scal a * s.sop b)

def execAmovi (d : BitVec 6) (v : BitVec 48) (s : State) : Out := scalarWord s 2 d (v.signExtend 64)

def execAshl (d : BitVec 6) (a : Scal) (b : SOp) (s : State) : Out := scalarWord s 2 d (s.scal a <<< shiftBy (s.sop b))

def execAand (d : BitVec 6) (a : Scal) (b : SOp) (s : State) : Out := scalarWord s 2 d (s.scal a &&& s.sop b)

def execAcmp (cond : Cond) (d : BitVec 3) (a : Scal) (b : SOp) (s : State) : Out :=
  .next (s.putPred 2 d (iCond true cond (s.scal a) (s.sop b)))

end Sys2Proof.Machine
end

