-- ==== Sys2Proof/Machine/Dispatch.lean ====
section
/-! DEFINITION. The dispatch: one arm per constructor of Instr, each one direct call of its meaning. -/

namespace Sys2Proof.Machine

def exec (i : Instr) (s : State) : Host.Outcome State Fault Refusal :=
  match i with
  | .nop => Sys2Proof.Machine.execNop s
  | .waitc cnt => Sys2Proof.Machine.execWaitc cnt s
  | .pbr d t => Sys2Proof.Machine.execPbr d t s
  | .br a => Sys2Proof.Machine.execBr a s
  | .call a => Sys2Proof.Machine.execCall a s
  | .ret => Sys2Proof.Machine.execRet s
  | .loop rot n off => Sys2Proof.Machine.execLoop rot n off s
  | .align late t => Sys2Proof.Machine.execAlign late t s
  | .cairn v => Sys2Proof.Machine.execCairn v s
  | .qop tt d a b => Sys2Proof.Machine.execQop tt d a b s
  | .csrr d n => Sys2Proof.Machine.execCsrr d n s
  | .csrw a n => Sys2Proof.Machine.execCsrw a n s
  | .trap n => Sys2Proof.Machine.execTrap n s
  | .exit => Sys2Proof.Machine.execExit s
  | .fence set scope => Sys2Proof.Machine.execFence set scope s
  | .rdvi pt b => Sys2Proof.Machine.execRdvi pt b s
  | .rdva pt => Sys2Proof.Machine.execRdva pt s
  | .rdvw pt d => Sys2Proof.Machine.execRdvw pt d s
  | .rdvt pt d => Sys2Proof.Machine.execRdvt pt d s
  | .add d a b => Sys2Proof.Machine.execAdd d a b s
  | .sub d a b => Sys2Proof.Machine.execSub d a b s
  | .mul d a b => Sys2Proof.Machine.execMul d a b s
  | .mulh u d a b => Sys2Proof.Machine.execMulh u d a b s
  | .div u d a b => Sys2Proof.Machine.execDiv u d a b s
  | .rem u d a b => Sys2Proof.Machine.execRem u d a b s
  | .and d a b => Sys2Proof.Machine.execAnd d a b s
  | .or d a b => Sys2Proof.Machine.execOr d a b s
  | .xor d a b => Sys2Proof.Machine.execXor d a b s
  | .andn d a b => Sys2Proof.Machine.execAndn d a b s
  | .shl d a b => Sys2Proof.Machine.execShl d a b s
  | .shr d a b => Sys2Proof.Machine.execShr d a b s
  | .sra d a b => Sys2Proof.Machine.execSra d a b s
  | .rol d a b => Sys2Proof.Machine.execRol d a b s
  | .min u d a b => Sys2Proof.Machine.execMin u d a b s
  | .max u d a b => Sys2Proof.Machine.execMax u d a b s
  | .clz d a => Sys2Proof.Machine.execClz d a s
  | .popc d a => Sys2Proof.Machine.execPopc d a s
  | .sel d a b c => Sys2Proof.Machine.execSel d a b c s
  | .cmp cond d a b => Sys2Proof.Machine.execCmp cond d a b s
  | .movi d v => Sys2Proof.Machine.execMovi d v s
  | .movhi d v => Sys2Proof.Machine.execMovhi d v s
  | .bext sx d a wm1 p => Sys2Proof.Machine.execBext sx d a wm1 p s
  | .bins d a wm1 p => Sys2Proof.Machine.execBins d a wm1 p s
  | .fadd rnd d a b => Sys2Proof.Machine.execFadd rnd d a b s
  | .fmul rnd d a b => Sys2Proof.Machine.execFmul rnd d a b s
  | .ffma rnd d a b c => Sys2Proof.Machine.execFfma rnd d a b c s
  | .fcmp cond d a b => Sys2Proof.Machine.execFcmp cond d a b s
  | .fcvt src dst rnd sat d a => Sys2Proof.Machine.execFcvt src dst rnd sat d a s
  | .fmnx mx d a b => Sys2Proof.Machine.execFmnx mx d a b s
  | .sld d a v => Sys2Proof.Machine.execSld d a v s
  | .sst a b v => Sys2Proof.Machine.execSst a b v s
  | .trig handle ctr => Sys2Proof.Machine.execTrig handle ctr s
  | .awin w => Sys2Proof.Machine.execAwin w s
  | .amode fimg gnan => Sys2Proof.Machine.execAmode fimg gnan s
  | .admitWork kind pane m => Sys2Proof.Machine.execAdmitWork kind pane m s
  | .seat img pane => Sys2Proof.Machine.execSeat img pane s
  | .lift clr => Sys2Proof.Machine.execLift clr s
  | .acclr north base => Sys2Proof.Machine.execAcclr north base s
  | .acnorm north => Sys2Proof.Machine.execAcnorm north s
  | .frzrd d a v => Sys2Proof.Machine.execFrzrd d a v s
  | .frzwr a b v => Sys2Proof.Machine.execFrzwr a b v s
  | .resume => Sys2Proof.Machine.execResume s
  | .stow a => Sys2Proof.Machine.execStow a s
  | .unstow a => Sys2Proof.Machine.execUnstow a s
  | .turn dn timed at_ link group => Sys2Proof.Machine.execTurn dn timed at_ link group s
  | .laneq d link entry => Sys2Proof.Machine.execLaneq d link entry s
  | .aadd d a b => Sys2Proof.Machine.execAadd d a b s
  | .asub d a b => Sys2Proof.Machine.execAsub d a b s
  | .amul d a b => Sys2Proof.Machine.execAmul d a b s
  | .amovi d v => Sys2Proof.Machine.execAmovi d v s
  | .ashl d a b => Sys2Proof.Machine.execAshl d a b s
  | .aand d a b => Sys2Proof.Machine.execAand d a b s
  | .acmp cond d a b => Sys2Proof.Machine.execAcmp cond d a b s
  | .bld nr d a roff vrow => Sys2Proof.Machine.execBld nr d a roff vrow s
  | .bldb nr d a roff vrow => Sys2Proof.Machine.execBldb nr d a roff vrow s
  | .bldc nr d a roff vrow => Sys2Proof.Machine.execBldc nr d a roff vrow s
  | .ald d a v => Sys2Proof.Machine.execAld d a v s
  | .fqpush q a row nw off => Sys2Proof.Machine.execFqpush q a row nw off s
  | .fqpop d q => Sys2Proof.Machine.execFqpop d q s
  | .haul af pt rnd d a b => Sys2Proof.Machine.execHaul af pt rnd d a b s
  | .edgeset e a v => Sys2Proof.Machine.execEdgeset e a v s
  | .bufdecl v => Sys2Proof.Machine.execBufdecl v s
  | .bufset full bd => Sys2Proof.Machine.execBufset full bd s
  | .bankfmt bank ty srow => Sys2Proof.Machine.execBankfmt bank ty srow s
  | .rld nr d a vrow => Sys2Proof.Machine.execRld nr d a vrow s
  | .bst nr a b roff vrow => Sys2Proof.Machine.execBst nr a b roff vrow s
  | .ast a b v => Sys2Proof.Machine.execAst a b v s
  | .fst a b row nw off => Sys2Proof.Machine.execFst a b row nw off s
  | .amo op q a b c => Sys2Proof.Machine.execAmo op q a b c s
  | .amon op a b c => Sys2Proof.Machine.execAmon op a b c s
  | .amosc op q a b c => Sys2Proof.Machine.execAmosc op q a b c s
  | .rst nr a b vrow => Sys2Proof.Machine.execRst nr a b vrow s
  | .vadd ty rnd sat mask d a b => Sys2Proof.Machine.execVadd ty rnd sat mask d a b s
  | .vsub ty rnd sat mask d a b => Sys2Proof.Machine.execVsub ty rnd sat mask d a b s
  | .vmul ty rnd sat mask d a b => Sys2Proof.Machine.execVmul ty rnd sat mask d a b s
  | .vfma rnd mask d a b c => Sys2Proof.Machine.execVfma rnd mask d a b c s
  | .vmin ty mask d a b => Sys2Proof.Machine.execVmin ty mask d a b s
  | .vmax ty mask d a b => Sys2Proof.Machine.execVmax ty mask d a b s
  | .vabs ty sat mask d a => Sys2Proof.Machine.execVabs ty sat mask d a s
  | .vneg ty sat mask d a => Sys2Proof.Machine.execVneg ty sat mask d a s
  | .vcmp ty mask cond d a b => Sys2Proof.Machine.execVcmp ty mask cond d a b s
  | .vsel mask d a b => Sys2Proof.Machine.execVsel mask d a b s
  | .vmov mask d a => Sys2Proof.Machine.execVmov mask d a s
  | .vsplat ty mask d b => Sys2Proof.Machine.execVsplat ty mask d b s
  | .vand mask d a b => Sys2Proof.Machine.execVand mask d a b s
  | .vor mask d a b => Sys2Proof.Machine.execVor mask d a b s
  | .vxor mask d a b => Sys2Proof.Machine.execVxor mask d a b s
  | .vshl mask d a b => Sys2Proof.Machine.execVshl mask d a b s
  | .vshr mask d a b => Sys2Proof.Machine.execVshr mask d a b s
  | .vsra mask d a b => Sys2Proof.Machine.execVsra mask d a b s
  | .vcvt src dst rnd sat d a => Sys2Proof.Machine.execVcvt src dst rnd sat d a s
  | .vqnt fmt rnd col d a c => Sys2Proof.Machine.execVqnt fmt rnd col d a c s
  | .vdqnt fmt col d a b => Sys2Proof.Machine.execVdqnt fmt col d a b s
  | .vpack w d a => Sys2Proof.Machine.execVpack w d a s
  | .vunpk w d a => Sys2Proof.Machine.execVunpk w d a s
  | .vrotr mask d a b => Sys2Proof.Machine.execVrotr mask d a b s
  | .vrotc mask d a b => Sys2Proof.Machine.execVrotc mask d a b s
  | .vbcr mask d a b => Sys2Proof.Machine.execVbcr mask d a b s
  | .vbcc mask d a b => Sys2Proof.Machine.execVbcc mask d a b s
  | .vredr op ty rnd mask d a => Sys2Proof.Machine.execVredr op ty rnd mask d a s
  | .vredc op ty rnd mask d a => Sys2Proof.Machine.execVredc op ty rnd mask d a s
  | .vtrn mask d a => Sys2Proof.Machine.execVtrn mask d a s
  | .vexp2 mask d a => Sys2Proof.Machine.execVexp2 mask d a s
  | .vlog2 mask d a => Sys2Proof.Machine.execVlog2 mask d a s
  | .vrcp mask d a => Sys2Proof.Machine.execVrcp mask d a s
  | .vrsq mask d a => Sys2Proof.Machine.execVrsq mask d a s
  | .vtanh mask d a => Sys2Proof.Machine.execVtanh mask d a s
  | .vsincos mask d a c => Sys2Proof.Machine.execVsincos mask d a c s
  | .vrnd ty rnd sat mask d a => Sys2Proof.Machine.execVrnd ty rnd sat mask d a s
  | .vdrop mask d a b => Sys2Proof.Machine.execVdrop mask d a b s
  | .mop tt d a b => Sys2Proof.Machine.execMop tt d a b s
  | .vidx col d => Sys2Proof.Machine.execVidx col d s
  | .vfclass mask d a => Sys2Proof.Machine.execVfclass mask d a s
  | .rdrv lane a hops row => Sys2Proof.Machine.execRdrv lane a hops row s
  | .rtap d lane row => Sys2Proof.Machine.execRtap d lane row s
  | .cav op slot d a b anchor vrow => Sys2Proof.Machine.execCav op slot d a b anchor vrow s
  | .cavd op slot d a vrow => Sys2Proof.Machine.execCavd op slot d a vrow s
  | .acrd bf16 rnd north d clr half vrow => Sys2Proof.Machine.execAcrd bf16 rnd north d clr half vrow s
  | .acwr north a half vrow => Sys2Proof.Machine.execAcwr north a half vrow s
  | .rotset dn => Sys2Proof.Machine.execRotset dn s
  | .dieCycle d => Sys2Proof.Machine.execDieCycle d s
  | .sectionHeader d p st => Sys2Proof.Machine.execSectionHeader d p st s
  | .farWait d => Sys2Proof.Machine.execFarWait d s
  | .alignmentWaitEnd d => Sys2Proof.Machine.execAlignmentWaitEnd d s
  | .writeLand d => Sys2Proof.Machine.execWriteLand d s
  | .bankPortAAccess d => Sys2Proof.Machine.execBankPortAAccess d s
  | .ringItemEntry d => Sys2Proof.Machine.execRingItemEntry d s
  | .frontAdmit d => Sys2Proof.Machine.execFrontAdmit d s
  | .edgePointerAdvance d => Sys2Proof.Machine.execEdgePointerAdvance d s
  | .frontTransit d => Sys2Proof.Machine.execFrontTransit d s
  | .seatCommit d => Sys2Proof.Machine.execSeatCommit d s
  | .liftCapture d => Sys2Proof.Machine.execLiftCapture d s
  | .accumulatorCycle d => Sys2Proof.Machine.execAccumulatorCycle d s
  | .cavitySweepCheck d => Sys2Proof.Machine.execCavitySweepCheck d s
  | .cavitySweepDrive d => Sys2Proof.Machine.execCavitySweepDrive d s
  | .cavityResult d => Sys2Proof.Machine.execCavityResult d s
  | .cavdSweepArrival d => Sys2Proof.Machine.execCavdSweepArrival d s
  | .tlbWalkRead d => Sys2Proof.Machine.execTlbWalkRead d s
  | .requestDepart d => Sys2Proof.Machine.execRequestDepart d s
  | .farAccessPerform d => Sys2Proof.Machine.execFarAccessPerform d s
  | .amoscPerform d => Sys2Proof.Machine.execAmoscPerform d s
  | .wheelMarkSend d => Sys2Proof.Machine.execWheelMarkSend d s
  | .wheelMarkArrive d => Sys2Proof.Machine.execWheelMarkArrive d s
  | .responseArrival d => Sys2Proof.Machine.execResponseArrival d s
  | .errorResponse d => Sys2Proof.Machine.execErrorResponse d s
  | .haulGranuleStart d => Sys2Proof.Machine.execHaulGranuleStart d s
  | .haulPortBRead d => Sys2Proof.Machine.execHaulPortBRead d s
  | .haulPortBWrite d => Sys2Proof.Machine.execHaulPortBWrite d s
  | .haulComplete d => Sys2Proof.Machine.execHaulComplete d s
  | .rdvaArrival d => Sys2Proof.Machine.execRdvaArrival d s
  | .arrivalCount d => Sys2Proof.Machine.execArrivalCount d s
  | .phasePropagate d => Sys2Proof.Machine.execPhasePropagate d s
  | .rdviApply d => Sys2Proof.Machine.execRdviApply d s
  | .trigRelease d => Sys2Proof.Machine.execTrigRelease d s
  | .turnEffect l => Sys2Proof.Machine.execTurnEffect l s
  | .deadTimeEnd l => Sys2Proof.Machine.execDeadTimeEnd l s
  | .packetTake => Sys2Proof.Machine.execPacketTake s
  | .launch q => Sys2Proof.Machine.execLaunch q s
  | .graphLoad q => Sys2Proof.Machine.execGraphLoad q s
  | .graphRun q => Sys2Proof.Machine.execGraphRun q s
  | .wait q => Sys2Proof.Machine.execWait q s
  | .signal q => Sys2Proof.Machine.execSignal q s
  | .copy q => Sys2Proof.Machine.execCopy q s
  | .copyGranule q => Sys2Proof.Machine.execCopyGranule q s
  | .stop q => Sys2Proof.Machine.execStop q s
  | .packetComplete q => Sys2Proof.Machine.execPacketComplete q s
  | .planeRestore d => Sys2Proof.Machine.execPlaneRestore d s
  | .dieStart d => Sys2Proof.Machine.execDieStart d s
  | .graphOperationFire h => Sys2Proof.Machine.execGraphOperationFire h s
  | .graphOperationComplete h => Sys2Proof.Machine.execGraphOperationComplete h s
  | .preemptionFreeze d => Sys2Proof.Machine.execPreemptionFreeze d s
  | .teamResume team => Sys2Proof.Machine.execTeamResume team s
  | .causeReport d => Sys2Proof.Machine.execCauseReport d s
  | .teamStowEnd d => Sys2Proof.Machine.execTeamStowEnd d s
  | .teamEnd team => Sys2Proof.Machine.execTeamEnd team s
  | .handlerEntry d => Sys2Proof.Machine.execHandlerEntry d s
  | .stowEnd d => Sys2Proof.Machine.execStowEnd d s
  | .unstowEnd d => Sys2Proof.Machine.execUnstowEnd d s
  | .xinval d v => Sys2Proof.Machine.execXinval d v s
  | .xinvalDone d => Sys2Proof.Machine.execXinvalDone d s
  | .xreplay d v => Sys2Proof.Machine.execXreplay d v s
  | .didtlimWrite v => Sys2Proof.Machine.execDidtlimWrite v s
  | .lanelimWrite v => Sys2Proof.Machine.execLanelimWrite v s
  | .hostRegisterWrite off size v => Sys2Proof.Machine.execHostRegisterWrite off size v s
  | .bar2Access off size data => Sys2Proof.Machine.execBar2Access off size data s
  | .hostEvent kind arg => Sys2Proof.Machine.execHostEvent kind arg s
  | .telemetrySample => Sys2Proof.Machine.execTelemetrySample s
  | .dbgstop v => Sys2Proof.Machine.execDbgstop v s
  | .debugStop d => Sys2Proof.Machine.execDebugStop d s
  | .dbgdataAccess v => Sys2Proof.Machine.execDbgdataAccess v s
  | .dbgres v => Sys2Proof.Machine.execDbgres v s
  | .traceRecordWrite => Sys2Proof.Machine.execTraceRecordWrite s
  | .noiseOff d p => Sys2Proof.Machine.execNoiseOff d p s
  | .noiseLive d p => Sys2Proof.Machine.execNoiseLive d p s
  | .noiseLog d p => Sys2Proof.Machine.execNoiseLog d p s
  | .noiseReplay d p seed => Sys2Proof.Machine.execNoiseReplay d p seed s
  | .rotdWrite d p v => Sys2Proof.Machine.execRotdWrite d p v s
  | .bootGo v => Sys2Proof.Machine.execBootGo v s
  | .hubResetDeassert => Sys2Proof.Machine.execHubResetDeassert s
  | .powerRemoval => Sys2Proof.Machine.execPowerRemoval s
  | .memoryControllerReset d inReset => Sys2Proof.Machine.execMemoryControllerReset d inReset s
  | .filysXLinkDown port => Sys2Proof.Machine.execFilysXLinkDown port s
  | .getVersion req => Sys2Proof.Machine.execGetVersion req s
  | .getCapabilities req => Sys2Proof.Machine.execGetCapabilities req s
  | .negotiateAlgorithms req => Sys2Proof.Machine.execNegotiateAlgorithms req s
  | .getDigests req => Sys2Proof.Machine.execGetDigests req s
  | .getCertificate req => Sys2Proof.Machine.execGetCertificate req s
  | .challenge req => Sys2Proof.Machine.execChallenge req s
  | .getMeasurements req => Sys2Proof.Machine.execGetMeasurements req s
  | .spdmUnsupportedRequest req => Sys2Proof.Machine.execSpdmUnsupportedRequest req s
  | .gddr7Refresh => Sys2Proof.Machine.execGddr7Refresh s
  | .rowClose d => Sys2Proof.Machine.execRowClose d s
  | .preemptionStowEnd d => Sys2Proof.Machine.execPreemptionStowEnd d s
  | .filysXLinkUp port peer => Sys2Proof.Machine.execFilysXLinkUp port peer s
  | .channelDataArrival port chan packed bytes => Sys2Proof.Machine.execChannelDataArrival port chan packed bytes s
  | .resetPinAssert => Sys2Proof.Machine.execResetPinAssert s

end Sys2Proof.Machine
end

