-- ==== Sys2Proof/Machine/Step.lean ====
section
/-! DEFINITION. The step of the module, and the placing of one instruction where the next step fetches it. -/

namespace Sys2Proof.Machine

/-- One step of the module: the next task of the current sidereal cycle, or the start of the next cycle (DESIGN CHOICE, log 2). -/
def step (s : State) : Host.Outcome State Fault Refusal := stepWith exec s

/-- `s` with the instruction word `w` (`nbits` bits of it given, the rest 0) where `step` fetches its next instruction (DESIGN CHOICE, log 31). -/
def State.withFetchWord (s : State) (nbits w : Nat) : State := s.placeWord (BitVec.ofNat 96 (w % 2 ^ nbits))

end Sys2Proof.Machine
end

