-- ==== Sys2Proof/Safety.lean ====
section
/-! DEFINITION. The vocabulary of the claims: what a word adds to its station and leaves alone, what a word that raises a cause
leaves, the canonical form of the two memories, and the tables of number formats and of special operands. -/

namespace Sys2Proof.Machine

-- ## Parts set aside

/-- A die without the in-flight writes of its handler context. -/
def Die.noHwrites (d : Die) : Die := { d with hwrites := [] }

/-- A die without the end-of-cycle effects of its current cycle. -/
def Die.noEoc (d : Die) : Die := { d with eoc := [] }

/-- A die without the causes and latched words of its current cycle. -/
def Die.noCauses (d : Die) : Die := { d with causes := [], latchNow := [] }

/-- A die without its rendezvous points' masters, copies and messages, and RDVERR. -/
def Die.noRdv (d : Die) : Die := { d with masters := [], copies := [], msgs := [], rdverr := 0, rdverrAt := 0 }

/-- A die without the releases of one station. -/
def Die.noReleases (p : Pos) (d : Die) : Die := d.setSta p { d.sta p with releases := [] }

/-- A die without its port-A accesses to come and the bank loads and stores in progress at one station. -/
def Die.noPorts (p : Pos) (d : Die) : Die :=
  { d.setSta p { d.sta p with loads := [], stores := [] } with portA := [] }

/-- A message that may set the expected count of a point in cycle `now`: a due count that is not zero (R243). -/
def RdvMsg.sets (pt now : Nat) : RdvMsg → Bool
  | .count q n at_ => q == pt && n != 0 && decide (at_ ≤ now)
  | _ => false

/-- A step changes one die and nothing else. -/
def OnlyDie (d : DieId) (s t : State) : Prop := t = s.setDie d (t.die d)

-- ## Memory

/-- Far memory and host memory are in their canonical form. -/
def State.memoriesCanonical (s : State) : Prop := Memory.wf s.mem ∧ Memory.wf s.hostMem

/-- Every byte of far memory and of host memory reads as before. -/
def SameMemory (s t : State) : Prop :=
  (∀ a, memGet t.mem a = memGet s.mem a) ∧ ∀ a, memGet t.hostMem a = memGet s.hostMem a

-- ## What a word adds

/-- The in-flight register writes of the issuing context: the handler's while it runs, else the station's (R128, R293). -/
def State.pending (s : State) : List WriteRec := if s.focus.handler then s.curDie.hwrites else s.curSta.writes

/-- A station with what its words add set aside: in-flight writes, FPCTL events, the pipe's and the noise generator's state. -/
def Station.bare (x : Station) : Station := { x with writes := [], flags := [], pipeFree := 0, noise := {} }

/-- The state with what the issuing word may add set aside. Two states whose bare states are equal agree in everything else:
every register, bank, special register, die, link, queue and byte of memory. -/
def State.bare (s : State) : State :=
  if s.focus.handler then s.updDie Die.noHwrites else s.updSta Station.bare

/-- From `s` to `t` the issuing word adds the in-flight writes `w` and the FPCTL events `f`, leaves the pipe taken until
cycle `pipe` and the noise generator as `n`, and changes nothing else. -/
structure Effect (s t : State) (w : List WriteRec) (f : List FlagRec) (pipe : Nat) (n : Noise) : Prop where
  others : t.bare = s.bare
  writes : t.pending = s.pending ++ w
  flags : t.curSta.flags = s.curSta.flags ++ f
  pipe : t.curSta.pipeFree = pipe
  noise : t.curSta.noise = n
  memory : ∀ a, memGet t.mem a = memGet s.mem a
  hostMemory : ∀ a, memGet t.hostMem a = memGet s.hostMem a

/-- The issuing word adds the in-flight writes `w` and changes nothing else. -/
abbrev Adds (s t : State) (w : List WriteRec) : Prop := Effect s t w [] s.curSta.pipeFree s.curSta.noise

/-- An in-flight write of the issuing word that lands `lat` cycles after its issue (R128). -/
def State.inFlight (s : State) (lat : Nat) (name : Byte) (t : WTarget) : WriteRec :=
  { strm := s.focus.strm, parcel := s.focus.parcel, issued := s.cyc, land := s.cyc + lat, name := name, by_ := s.focus.pos,
    target := t }

/-- The in-flight write of a scalar result `v` for register `d`; s0 and a0 discard it as it lands (R49, R126, R128). -/
def State.scalarWrites (s : State) (lat : Nat) (d : BitVec 6) (v : W64) : List WriteRec :=
  [s.inFlight lat (d.setWidth 8) (if s.focus.strm = .c then .s d v else .a s.focus.strm d v)]

/-- The in-flight write of a predicate result; q0 discards it as it lands (R49, R128, R231). -/
def State.predWrites (s : State) (lat : Nat) (d : BitVec 3) (v : Bool) : List WriteRec :=
  [s.inFlight lat (prdCode d) (.q s.focus.strm d v)]

/-- The FPCTL events of a result that lands `lat` cycles after the issue; none in handler mode (R73, R294). -/
def State.flagWrites (s : State) (lat : Nat) (f : FpFlags) : List FlagRec :=
  if s.focus.handler || f.bits == 0 then []
  else [{ strm := s.focus.strm, parcel := s.focus.parcel, issued := s.cyc, land := s.cyc + lat, bits := f.bits }]

/-- The word completes with the scalar result `v`, and has no other effect. -/
def ScalarResult (i : Instr) (s : State) (lat : Nat) (d : BitVec 6) (v : W64) : Prop :=
  ∃ t, exec i s = .next t ∧ Adds s t (s.scalarWrites lat d v)

/-- The word completes with the predicate result `v`, and has no other effect. -/
def PredResult (i : Instr) (s : State) (lat : Nat) (d : BitVec 3) (v : Bool) : Prop :=
  ∃ t, exec i s = .next t ∧ Adds s t (s.predWrites lat d v)

/-- The word completes with the scalar result and the FPCTL events of `r`, after `n` is what its draw leaves of the noise. -/
def FloatResult (i : Instr) (s : State) (d : BitVec 6) (r : W64 × FpFlags) (n : Noise) : Prop :=
  ∃ t, exec i s = .next t ∧ Effect s t (s.scalarWrites 4 d r.1) (s.flagWrites 4 r.2) s.curSta.pipeFree n

/-- The word completes and has no effect of its own. -/
def NoEffect (i : Instr) (s : State) : Prop := exec i s = .next s

-- ## What a word starts

/-- A port-A access of the issuing word in die cycle `at_` (R114). -/
def State.access (s : State) (at_ : Nat) (pos : Pos) (bank : BitVec 3) (row : Nat) (wr : Bool) (k : PKind) : PortA :=
  { at_ := at_, pos := pos, bank := bank, row := BitVec.ofNat 7 row, wr := wr, by_ := s.focus.pos, strm := s.focus.strm,
    parcel := s.focus.parcel, issued := s.cyc, kind := k, checked := false }

/-- From `s` to `t` the issuing word adds the port-A accesses `l` of its die and the loads and stores in progress `lj` and `sj` of
its station, and changes nothing else. -/
structure Accesses (s t : State) (l : List PortA) (lj : List LoadJob) (sj : List StoreJob) : Prop where
  others : t.updDie (Die.noPorts s.focus.pos) = s.updDie (Die.noPorts s.focus.pos)
  ports : t.curDie.portA = s.curDie.portA ++ l
  loads : t.curSta.loads = s.curSta.loads ++ lj
  stores : t.curSta.stores = s.curSta.stores ++ sj

-- ## Landings (R128)

/-- From `x` to `y` one write takes effect: the lanes of the register row, the bits of the mask, the scalar, predicate or pointer that
it names have their new value; every other register, and everything else of the station, is as before. A write to s0, a0, m0 or q0 is
discarded. -/
def Landed (x y : Station) (w : WTarget) : Prop := if w.null then y = x else match w with
  | .s n v => y = { x with s := y.s } ∧ ∀ k, kget 0 k y.s = if k = n.toNat then v else kget 0 k x.s
  | .a st n v =>
    (st = .l → y = { x with aL := y.aL } ∧ ∀ k, kget 0 k y.aL = if k = n.toNat then v else kget 0 k x.aL) ∧
    (st ≠ .l → y = { x with aS := y.aS } ∧ ∀ k, kget 0 k y.aS = if k = n.toNat then v else kget 0 k x.aS)
  | .v p r lanes data =>
    y = { x with v := y.v } ∧ (∀ k, k ≠ 16 * p.toNat + r.toNat → kget 0 k y.v = kget 0 k x.v) ∧
    ∀ j < 64, lane (y.vrow p r.toNat) j = if lanes.getLsbD j then lane data j else lane (x.vrow p r.toNat) j
  | .m n sel v =>
    y = { x with m := y.m } ∧ (∀ k, k ≠ n.toNat → kget 0 k y.m = kget 0 k x.m) ∧
    ∀ j < 1024, (kget 0 n.toNat y.m).getLsbD j = if sel.getLsbD j then v.getLsbD j else (kget 0 n.toNat x.m).getLsbD j
  | .q st n v =>
    y = x.setCtx st { x.ctxOf st with q := (y.ctxOf st).q } ∧
    ∀ k < 8, (y.ctxOf st).q.getLsbD k = if k = n.toNat then v else (x.ctxOf st).q.getLsbD k
  | .e n v => y = { x with e := y.e } ∧ ∀ k, kget 0 k y.e = if k = n.toNat then v else kget 0 k x.e
  | .gone => y = x

/-- No register write of station `x` lands in cycle `t`. -/
def Station.quietAt (x : Station) (t : Nat) : Prop := ∀ w ∈ x.writes, w.land ≠ t

/-- No FPCTL event of station `x` comes in cycle `t`. -/
def Station.calmAt (x : Station) (t : Nat) : Prop := ∀ f ∈ x.flags, f.land ≠ t

-- ## Vector words (R143 to R148, R165)

/-- Element `k` of the register that name `n` denotes, in element order (R143). -/
def State.elem (s : State) (n : BitVec 5) (k : Nat) : W32 :=
  lane (s.curSta.vrow ((physOf s.curSta.rotd n).getD 0) (k / 64)) (k % 64)

/-- Element `k` of `b|imm` (R47). -/
def State.operand (s : State) (b : VOp) (k : Nat) : W32 :=
  match b with
  | .r n => s.elem n k
  | .i v => v

/-- The name of a vector operand is live. -/
def State.operandLive (s : State) (b : VOp) : Prop := ∀ n ∈ vopSrc b, (physOf s.curSta.rotd n).isSome = true

/-- How many elements below `k` a mask selects. -/
def rank (m : MaskReg) (k : Nat) : Nat := ((List.range k).filter fun j => bit m j).length

/-- The noise value of element `k` of a word under mask `m`: the selected elements draw in element order (R165). -/
def State.noiseAt (s : State) (draw : Bool) (m : MaskReg) (k : Nat) : Nat :=
  if draw then ((s.curSta.noise.draws (rank m 1024)).1.getD (rank m k) 0).toNat else 0

/-- The noise generator after a word under mask `m`. -/
def State.noiseAfter (s : State) (draw : Bool) (m : MaskReg) : Noise :=
  if draw then (s.curSta.noise.draws (rank m 1024)).2 else s.curSta.noise

/-- The in-flight writes of a vector result: sixteen rows, each under its lanes of the mask (R129, R144). -/
def State.vecWrites (s : State) (lat : Nat) (d : BitVec 5) (m : MaskReg) (val : Nat → W32) : List WriteRec :=
  (List.range 16).map fun i => s.inFlight lat (d.setWidth 8)
    (.v ((physOf s.curSta.rotd d).getD 0) (BitVec.ofNat 4 i) (fld m (64 * i) 64)
      (rowOfLanes ((List.range 64).map fun j => if bit m (64 * i + j) then val (64 * i + j) else 0)))

/-- The word writes `f k n` into each element `k` that `m` selects, with `n` its noise value; its events come with it, the pipe is
taken for `pipe` cycles, and nothing else changes. -/
def ElementResult (i : Instr) (s : State) (lat pipe : Nat) (d : BitVec 5) (m : MaskReg) (draw : Bool)
    (f : Nat → Nat → W32 × FpFlags) : Prop :=
  ∃ t, exec i s = .next t ∧
    Effect s t (s.vecWrites lat d m fun k => (f k (s.noiseAt draw m k)).1)
      (s.flagWrites lat (orFlags ((selected m).map fun k => (f k (s.noiseAt draw m k)).2))) (s.cyc + pipe) (s.noiseAfter draw m)

/-- The word writes bit `f k` into each bit `k` of mask `d` that `sel` selects; a write to m0 is discarded as it lands (R49, R128, R129). -/
def MaskResult (i : Instr) (s : State) (d : BitVec 3) (sel : MaskReg) (f : Nat → Bool) : Prop :=
  ∃ t v, exec i s = .next t ∧ (∀ k < 1024, v.getLsbD k = f k) ∧
    Effect s t [s.inFlight 5 (0x20 + d.setWidth 8) (.m d sel v)] [] (s.cyc + 2) s.curSta.noise

/-- The issuing word meets a free pipe, and its station's storage has no bad word (R146, R304). -/
def State.pipeReady (s : State) : Prop :=
  s.focus.handler = false ∧ s.curSta.pipeFree ≤ s.cyc ∧ s.curDie.bad = []

/-- One level of the reduction tree of R161. -/
def pairUp (f : W32 → W32 → W32) (u : Nat → Option W32) (k : Nat) : Option W32 :=
  match u (2 * k), u (2 * k + 1) with
  | some x, some y => some (f x y)
  | some x, none => some x
  | none, y => y

/-- The reduction tree of R161 over 2^n values. -/
def treeOf (f : W32 → W32 → W32) : Nat → (Nat → Option W32) → Option W32
  | 0, u => u 0
  | n + 1, u => treeOf f n (pairUp f u)

/-- The vector words with a destination `d` and a source `a`. -/
def pipeWords (ty : Ty) (rnd : Rnd) (sat col : Bool) (m : BitVec 3) (op : RedOp) (w : Wid) (fmt : Fimg) (d a c : BitVec 5) (b : VOp) :
    List Instr :=
  [.vadd ty rnd sat m d a b, .vsub ty rnd sat m d a b, .vmul ty rnd sat m d a b, .vfma rnd m d a b c, .vmin ty m d a b,
    .vmax ty m d a b, .vabs ty sat m d a, .vneg ty sat m d a, .vsel m d a b, .vmov m d a, .vand m d a b, .vor m d a b,
    .vxor m d a b, .vshl m d a b, .vshr m d a b, .vsra m d a b, .vcvt ty .f32 rnd sat d a, .vqnt fmt rnd col d a c,
    .vdqnt fmt col d a c, .vpack w d a, .vunpk w d a, .vrotr m d a b, .vrotc m d a b, .vbcr m d a b, .vbcc m d a b,
    .vredr op ty rnd m d a, .vredc op ty rnd m d a, .vtrn m d a, .vexp2 m d a, .vlog2 m d a, .vrcp m d a, .vrsq m d a,
    .vtanh m d a, .vsincos m d a c, .vrnd ty rnd sat m d a, .vdrop m d a b, .vfclass m d a]

/-- The table of R163 for the zeros, the infinities and a NaN: operation, operand, result, and whether DZ and NV are set. -/
def sfuSpecials : List (Sfu × W32 × W32 × Bool × Bool) :=
  ([.exp2, .log2, .rcp, .rsq, .tanh, .sin, .cos].map fun op => (op, 0x7FC00001, 0x7FC00000, false, false)) ++
  [(.exp2, 0, 0x3F800000, false, false), (.exp2, 0x80000000, 0x3F800000, false, false),
    (.exp2, 0x7F800000, 0x7F800000, false, false), (.exp2, 0xFF800000, 0, false, false),
    (.log2, 0, 0xFF800000, true, false), (.log2, 0x80000000, 0xFF800000, true, false),
    (.log2, 0x7F800000, 0x7F800000, false, false), (.log2, 0xFF800000, 0x7FC00000, false, true),
    (.rcp, 0, 0x7F800000, true, false), (.rcp, 0x80000000, 0xFF800000, true, false),
    (.rcp, 0x7F800000, 0, false, false), (.rcp, 0xFF800000, 0x80000000, false, false),
    (.rsq, 0, 0x7F800000, true, false), (.rsq, 0x80000000, 0xFF800000, true, false),
    (.rsq, 0x7F800000, 0, false, false), (.rsq, 0xFF800000, 0x7FC00000, false, true)] ++
  [(.tanh, 0, 0, false, false), (.tanh, 0x80000000, 0x80000000, false, false),
    (.tanh, 0x7F800000, 0x3F800000, false, false), (.tanh, 0xFF800000, 0xBF800000, false, false),
    (.sin, 0, 0, false, false), (.sin, 0x80000000, 0x80000000, false, false),
    (.sin, 0x7F800000, 0x7FC00000, false, true), (.sin, 0xFF800000, 0x7FC00000, false, true),
    (.cos, 0, 0x3F800000, false, false), (.cos, 0x80000000, 0x3F800000, false, false),
    (.cos, 0x7F800000, 0x7FC00000, false, true), (.cos, 0xFF800000, 0x7FC00000, false, true)]

-- ## Far requests

/-- The state without the far requests of the issuing die that have not left, their numbers, and the far queues of its station. -/
def State.noRequests (s : State) : State :=
  (s.updSta fun x => { x with fq := [] }).setFs s.focus.die { s.fs s.focus.die with reqs := [], seq := 0 }

/-- From `s` to `t` the issuing word makes the far request `r`, whose row, if it has one, waits in far queue `q` behind the rows there;
nothing else changes (R100, R101, R103). -/
structure Requests (s t : State) (r : FarReq) (q : Option (BitVec 3)) : Prop where
  others : t.noRequests = s.noRequests
  requests : (t.fs s.focus.die).reqs = (s.fs s.focus.die).reqs ++ [r]
  numbers : (t.fs s.focus.die).seq = (s.fs s.focus.die).seq + 1
  queues : ∀ k, t.curSta.fqOf k = s.curSta.fqOf k ++ (if q = some k then
    [{ seq := r.seq, row := r.row, lo := r.lo, hi := r.hi, va := r.va, data := none, home := none, dla := 0 }] else [])

/-- The far request that the issuing word makes for words `lo` to `hi` of the granule at `va`. -/
def State.request (s : State) (src : FarSrc) (va lo hi : Nat) (row : BitVec 4) (op : FarOp) : FarReq :=
  { seq := (s.fs s.focus.die).seq, src := src, pos := s.focus.pos, port := s.focus.pos, strm := s.focus.strm, parcel := s.focus.parcel,
    issued := s.sidc, va := va, lo := lo, hi := hi, row := row, op := op, phase := .pend s.sidc }

/-- Far sides of the four dies that differ only on die `d`. -/
def OnlyFar (d : DieId) (s t : State) : Prop := t = s.setFs d (t.fs d)

-- ## The array (R168, R173, R189 to R192)

/-- What an array word of the issuing station starts, with the window and the formats latched at its issue (R186). -/
def State.workOf (s : State) (kind : WorkKind) (m : Nat) (pane : Bool) (img : Img) (clr : Bool) : Work :=
  { kind := kind, pos := s.focus.pos, parcel := s.focus.parcel, issued := s.cyc, m := m, adm := 0, win := s.curDie.window,
    fimg := s.curDie.fimg, gnan := s.curDie.gnan, pane := pane, img := img, clr := clr }

/-- The accesses of one participating station: `rows` rows from its edge pointer on, row `i` in cycle `at_ i` (R173). -/
def State.feedAccesses (s : State) (f : Feed) (rows : Nat) (wr : Bool) (kind : Nat → PKind) (at_ : Nat → Nat) : List PortA :=
  (List.range rows).map fun i =>
    { s.access (at_ i) f.1 (BitVec.ofNat 3 ((s.curDie.edgeRow f + i) / 128)) ((s.curDie.edgeRow f + i) % 128) wr (kind i) with
      checked := true }

/-- The advance of the edge pointer of a participating station, in the next cycle (R129, R173). -/
def State.pointerAdvance (s : State) (f : Feed) (rows : Nat) : WriteRec :=
  { strm := .c, parcel := s.focus.parcel, issued := s.cyc, land := s.cyc + 1, name := edgCode f.2.1, by_ := s.focus.pos,
    target := .e f.2.1 (BitVec.ofNat 64 ((s.curDie.edgeRow f + rows) % 1024 * 256)) }

/-- From `s` to `t` an array word starts `k`, with the accesses `l`; the pointer of each station of `fs` advances by `rows` rows, and no
other station has a new write; nothing is trapped, and memory is as before. -/
structure Starts (s t : State) (k : Work) (fs : List Feed) (rows : Nat) (l : List PortA) : Prop where
  works : t.curDie.works = s.curDie.works ++ [k]
  accesses : t.curDie.portA = s.curDie.portA ++ l
  pointers : ∀ f ∈ fs, (t.curDie.sta f.1).writes = (s.curDie.sta f.1).writes ++
    ((fs.filter fun g => g.1 == f.1).map fun g => s.pointerAdvance g rows)
  others : ∀ p, (∀ f ∈ fs, f.1 ≠ p) → t.curDie.sta p = s.curDie.sta p
  causes : t.curDie.causes = s.curDie.causes
  cells : t.curDie.cells = s.curDie.cells
  memory : SameMemory s t

-- ## Causes

/-- The state without the causes and the latched words of the current cycle on the issuing die. -/
def State.calm (s : State) : State := s.updDie Die.noCauses

/-- The cause that the issuing word raises, as the freeze at the end of the cycle takes it (R288, R289, R291). -/
def State.ownCause (s : State) (c : Cause) (sub : Byte) : CauseRec :=
  { cause := c, sub := sub, rank := 2, pos := s.focus.pos, strm := s.focus.strm,
    parcel := s.focus.parcel, named := true, order := 0 }

/-- A cause that an access or a landing of a word raises, naming that word (R289, R291). -/
def accessCause (c : Cause) (sub : Byte) (pos : Pos) (strm : Strm) (parcel : Parcel) : CauseRec :=
  { cause := c, sub := sub, rank := 3, pos := pos, strm := strm, parcel := parcel, named := true, order := 0 }

/-- The issuing word raises cause `c` with subcode `sub`, its issue latch takes it, and nothing else changes (R288, R297). -/
structure Trapped (s t : State) (c : Cause) (sub : Byte) : Prop where
  others : t.calm = s.calm
  causes : t.curDie.causes = s.curDie.causes ++ [s.ownCause c sub]
  latches : t.curDie.latchNow = s.curDie.latchNow ++ [(s.focus.pos, s.focus.strm, s.focus.parcel, causeCode c)]
  memory : ∀ a, memGet t.mem a = memGet s.mem a

/-- The word raises cause `c` and has no other effect. -/
def Raises (i : Instr) (s : State) (c : Cause) (sub : Byte) : Prop := ∃ t, exec i s = .next t ∧ Trapped s t c sub

-- ## Where control goes

/-- The state with what a word that steers its stream may change set aside: the stream's context, the end-of-cycle effects of
its die, and the mark that the stream has moved. -/
def State.steered (s : State) : State :=
  let u := (s.updCtx fun _ => {}).updDie Die.noEoc
  { u with focus := { s.focus with moved := false } }

/-- The end-of-cycle effects of leaving the current section for parcel `p`: the section retires, but not in handler mode (R52,
R293). -/
def State.retirement (s : State) (p : Nat) : List Eoc :=
  match s.curCtx.sect with
  | some k => if s.focus.handler || k.has p then [] else [.rsec s.focus.pos s.focus.strm k.snum k.pre]
  | none => []

/-- The next-word state of a stream whose control goes to parcel `p`, a word of its section or a section header: the word
issues, or the header is read, in the next cycle or after the word's DLY (R44, R235). -/
def State.target (s : State) (p : Nat) : Next :=
  match s.curCtx.sect with
  | some k =>
    if k.has p then .word (BitVec.ofNat 16 p) (s.cyc + 1 + s.focus.wait + s.curSta.dlyAt (BitVec.ofNat 16 p))
    else .hdr (BitVec.ofNat 16 p) (s.cyc + 1) s.focus.wait
  | none => .hdr (BitVec.ofNat 16 p) (s.cyc + 1) s.focus.wait

/-- From `s` to `t` the issuing stream's context becomes `c`, control goes to parcel `p`, and nothing else changes. -/
structure Steers (s t : State) (c : Ctx) (p : Nat) : Prop where
  others : t.steered = s.steered
  context : t.curCtx = c
  retires : t.curDie.eoc = s.curDie.eoc ++ s.retirement p
  moved : t.focus.moved = true

/-- The die's record of the words of which the array takes one in a die cycle, with the issuing word as one of kind `k` (R190). -/
def State.onceMore (s : State) (k : OnceKind) : State :=
  s.updDie fun d => { d with once := { at_ := s.cyc, kind := k, pos := s.focus.pos } :: d.once.filter fun e => decide (e.at_ = s.cyc) }

/-- The issuing word leaves `l` to be done at the end of the cycle, and changes nothing else. -/
def Defers (s t : State) (l : List Eoc) : Prop :=
  t.updDie Die.noEoc = s.updDie Die.noEoc ∧ t.curDie.eoc = s.curDie.eoc ++ l

-- ## Numbers (R64 to R75)

/-- The signed floating-point formats of R64: the type, its format in the model, the widths of its mantissa and of its values, its
bias, its largest finite value as M 2^G and as bits, its canonical NaN, and whether it has infinities. -/
def floatFormats : List (Ty × FFmt × Nat × Nat × Int × Nat × Int × Nat × Nat × Bool) :=
  [(.f32, fmtF32, 23, 32, 127, 2 ^ 24 - 1, 104, 0x7F7FFFFF, 0x7FC00000, true),
    (.bf16, fmtBf16, 7, 16, 127, 2 ^ 8 - 1, 120, 0x7F7F, 0x7FC0, true),
    (.e5m2, fmtE5m2, 2, 8, 15, 7, 13, 0x7B, 0x7E, true), (.e4m3, fmtE4m3, 3, 8, 7, 14, 5, 0x7E, 0x7F, false)]

/-- The integer types: width and signedness (R67, R75). -/
def integerFormats : List (Ty × Nat × Bool) :=
  [(.i32, 32, true), (.n32, 32, false), (.i16, 16, true), (.n16, 16, false), (.i8, 8, true), (.n8, 8, false)]

/-- m 2^e with its sign, in units of 2^k for k ≤ e. -/
def inUnits (neg : Bool) (m : Nat) (e k : Int) : Int := if neg then -((m * 2 ^ (e - k).toNat : Nat) : Int) else (m * 2 ^ (e - k).toNat : Nat)

/-- The sum of two finite values, exact and then rounded once; an exact zero takes the common sign, or + but for `.rdn` (R70, R71). -/
def exactSum (rnd : Rnd) (noise : Nat) (n₁ n₂ : Bool) (m₁ m₂ : Nat) (e₁ e₂ : Int) (r : W32 × FpFlags) : Prop :=
  ∀ S : Int, S = inUnits n₁ m₁ e₁ (min e₁ e₂) + inUnits n₂ m₂ e₂ (min e₁ e₂) →
    (S ≠ 0 → r = round32 rnd noise (decide (S < 0)) S.natAbs (min e₁ e₂)) ∧
    (S = 0 → r = (if n₁ = n₂ then (if n₁ then 0x80000000 else 0) else if rnd = .rdn then 0x80000000 else 0, FpFlags.none))

/-- The value of an FP32 lane is less than another's, with -0 below +0: by sign and magnitude (R72). -/
def below32 (a b : W32) : Prop :=
  (a.getLsbD 31 = true ∧ b.getLsbD 31 = false) ∨ (a.getLsbD 31 = false ∧ b.getLsbD 31 = false ∧ a.toNat < b.toNat) ∨
    (a.getLsbD 31 = true ∧ b.getLsbD 31 = true ∧ b.toNat < a.toNat)

-- ## The array, the links and the records of teams

/-- Every declared buffer of a participating station that holds one of `rows` rows from its edge pointer on is in a state that `ok`
allows (R175). -/
def fedBuffers (d : Die) (fs : List Feed) (rows : Nat) (ok : BitVec 2 → Prop) : Prop :=
  ∀ f ∈ fs, ∀ e ∈ (d.sta f.1).buf, e.2.declared = true → (∃ i < rows, e.2.bank.toNat = (d.edgeRow f + i) / 128 ∧
    e.2.first.toNat ≤ (d.edgeRow f + i) % 128 ∧ (d.edgeRow f + i) % 128 ≤ e.2.last.toNat) → ok e.2.st

/-- Link `m` is link `l` once the turns of `us`, each of a group of its own, have taken effect in cycle `t`: the group has its direction
and class and this as its last turn, and a change of direction makes it dead for 32 cycles (R216). -/
def TurnsTaken (l m : Link) (us : List TurnEntry) (t : Nat) : Prop :=
  m = { l with dir := m.dir, cls := m.cls, dead := m.dead, deadEnd := m.deadEnd, lastTurn := m.lastTurn, queue := m.queue } ∧
  (∀ g < 16, (∀ e ∈ us, e.group.toNat ≠ g) → m.dir.getLsbD g = l.dir.getLsbD g ∧ m.cls.getLsbD g = l.cls.getLsbD g ∧
    m.dead.getLsbD g = l.dead.getLsbD g ∧ kget 0 g m.deadEnd = kget 0 g l.deadEnd ∧ kget 0 g m.lastTurn = kget 0 g l.lastTurn) ∧
  ∀ e ∈ us, ∀ g, g = e.group.toNat → m.dir.getLsbD g = e.dn ∧ m.cls.getLsbD g = e.timed ∧
    m.dead.getLsbD g = (l.dead.getLsbD g || l.dir.getLsbD g != e.dn) ∧
    kget 0 g m.deadEnd = (if l.dir.getLsbD g ≠ e.dn then t + 32 else kget 0 g l.deadEnd) ∧ kget 0 g m.lastTurn = t + 1

/-- What keeps a turn `u` of a link at bay, with the turns `us` queued for known cycles (R214, R215): it lies within TGAP of the group's
last turn or of a queued turn of the group; a direction would have fewer than MINOPEN open groups outside dead time at some cycle from it
on; or an issued CAVD needs the group then or later. -/
def TurnFree (l : Link) (lanelim : W64) (us : List Turn) (u : Turn) : Prop :=
  ∀ gap m : Nat, gap = max (lanelim.toNat / 2 ^ 16 % 2 ^ 16) 64 → m = max 1 (min 7 (lanelim.toNat / 2 ^ 40 % 16)) →
    (kget 0 u.group l.lastTurn ≠ 0 → u.at_ + gap + 1 ≤ kget 0 u.group l.lastTurn ∨ kget 0 u.group l.lastTurn + gap ≤ u.at_ + 1) ∧
    (∀ v ∈ us, v.group = u.group → u.at_ + gap ≤ v.at_ ∨ v.at_ + gap ≤ u.at_) ∧
    (∀ c dn, u.at_ ≤ c → m ≤ ((List.range 16).filter fun g =>
      let a := l.laneAt (u :: us) g c
      a.dn == dn && !a.timed && decide (a.deadTo ≤ c)).length) ∧
    ∀ x ∈ l.uses, x.groups.getLsbD u.group = true → x.until_ < u.at_

/-- The completion record of a team's LAUNCH holds HOLDS, BREACH and TRIGBAD at its bytes 32, 40 and 48 (R276). -/
def recorded (t : State) (g : Team) (holds : Nat) : Prop := ∀ i < 8,
  memGet t.hostMem ((qword g.pkt 4).toNat + 32 + i) = byteOf (BitVec.ofNat 64 holds) i ∧
  memGet t.hostMem ((qword g.pkt 4).toNat + 40 + i) = byteOf (BitVec.ofNat 64 g.breach) i ∧
  memGet t.hostMem ((qword g.pkt 4).toNat + 48 + i) = byteOf (BitVec.ofNat 64 (min g.trigbad 0xFFFFFFFF)) i

end Sys2Proof.Machine
end

