-- ==== Sys2Proof/Certificates/Slice0/Obligations.lean ====
section
/-! DEFINITION. The statements for the provers. -/

open Sys2Proof Sys2Proof.Machine

-- ## Operands

/-- What a scalar operand reads (R46 to R49, R126, R231): s0 and a0 read 0 and q0 reads 1 in every context, ts48 + n is the
team's scalar s48 + n in every stream, the immediate of a scalar form is sign-extended, and every name of the X stream's own
registers reads no scalar: 0. -/
def Obligations.ScalarOperandsRead : Prop :=
  (∀ s : State, s.scal (.reg 0) = 0) ∧ (∀ s : State, s.pred 0 = true) ∧
  (∀ (s : State) (n : BitVec 4), s.scal (.ts n) = kget 0 (48 + n.toNat) s.curSta.s) ∧
  (∀ (s : State) (n : BitVec 6), n ≠ 0 → s.focus.strm = .c → s.scal (.reg n) = kget 0 n.toNat s.curSta.s) ∧
  (∀ (s : State) (n : BitVec 6), n ≠ 0 → s.focus.strm = .l → s.scal (.reg n) = kget 0 n.toNat s.curSta.aL) ∧
  (∀ (s : State) (n : BitVec 6), n ≠ 0 → s.focus.strm = .s → s.scal (.reg n) = kget 0 n.toNat s.curSta.aS) ∧
  (∀ (s : State) (n : BitVec 6), s.focus.strm = .x → s.scal (.reg n) = 0) ∧
  (∀ (s : State) (v : W32), (s.sop (.i v)).toInt = v.toInt) ∧
  (∀ (s : State) (n : BitVec 3), n ≠ 0 → s.pred n = s.curCtx.q.getLsbD n.toNat)

-- ## Scalar and address words (R134, R226 to R231)

/-- ADD, SUB, MUL, MULH and AADD, ASUB, AMUL (R134, R226): 64-bit results of exact arithmetic, with the landing latency, for
every destination (s0 and a0 discard), and nothing else changes.

AND, OR, XOR, ANDN, AAND, SHL, SHR, SRA, ROL and ASHL (R134, R226): the first five bit by bit, the shifts and the rotation
by b mod 64, arithmetic to the right for SRA; and nothing else changes. -/
def Obligations.ArithmeticAndLogicWords : Prop :=
  (∀ (s : State) (d : BitVec 6) (a : Scal) (b : SOp),
    (∃ v : W64, v.toNat = ((s.scal a).toNat + (s.sop b).toNat) % 2 ^ 64 ∧
      ScalarResult (.add d a b) s 2 d v ∧ ScalarResult (.aadd d a b) s 2 d v) ∧
    (∃ v : W64, (v.toNat : Int) = ((s.scal a).toNat - (s.sop b).toNat : Int) % 2 ^ 64 ∧
      ScalarResult (.sub d a b) s 2 d v ∧ ScalarResult (.asub d a b) s 2 d v) ∧
    (∃ v : W64, v.toNat = ((s.scal a).toNat * (s.sop b).toNat) % 2 ^ 64 ∧
      ScalarResult (.mul d a b) s 4 d v ∧ ScalarResult (.amul d a b) s 4 d v) ∧
    (∃ v : W64, v.toNat = ((s.scal a).toNat * (s.sop b).toNat) / 2 ^ 64 ∧ ScalarResult (.mulh true d a b) s 4 d v) ∧
    (∃ v : W64, v.toInt = ((s.scal a).toInt * (s.sop b).toInt) / 2 ^ 64 ∧ ScalarResult (.mulh false d a b) s 4 d v)) ∧
  (∀ (s : State) (d : BitVec 6) (a : Scal) (b : SOp) (n : Nat), n = (s.sop b).toNat % 64 →
    (∃ v : W64, (∀ k, v.getLsbD k = ((s.scal a).getLsbD k && (s.sop b).getLsbD k)) ∧
      ScalarResult (.and d a b) s 2 d v ∧ ScalarResult (.aand d a b) s 2 d v) ∧
    (∃ v : W64, (∀ k, v.getLsbD k = ((s.scal a).getLsbD k || (s.sop b).getLsbD k)) ∧ ScalarResult (.or d a b) s 2 d v) ∧
    (∃ v : W64, (∀ k, v.getLsbD k = ((s.scal a).getLsbD k != (s.sop b).getLsbD k)) ∧ ScalarResult (.xor d a b) s 2 d v) ∧
    (∃ v : W64, (∀ k < 64, v.getLsbD k = ((s.scal a).getLsbD k && !(s.sop b).getLsbD k)) ∧ ScalarResult (.andn d a b) s 2 d v) ∧
    (∃ v : W64, v.toNat = (s.scal a).toNat * 2 ^ n % 2 ^ 64 ∧
      ScalarResult (.shl d a b) s 2 d v ∧ ScalarResult (.ashl d a b) s 2 d v) ∧
    (∃ v : W64, v.toNat = (s.scal a).toNat / 2 ^ n ∧ ScalarResult (.shr d a b) s 2 d v) ∧
    (∃ v : W64, v.toInt = (s.scal a).toInt / 2 ^ n ∧ ScalarResult (.sra d a b) s 2 d v) ∧
    (∃ v : W64, (∀ k < 64, v.getLsbD ((k + n) % 64) = (s.scal a).getLsbD k) ∧ ScalarResult (.rol d a b) s 2 d v))

/-- MIN, MAX, CLZ, POPC and SEL (R226, R229).

MOVI, MOVHI, BEXT, BINS and AMOVI (R134, R229): a field has w = min(WM1 + 1, 64 − P) bits from bit P on. -/
def Obligations.ChoiceCountAndFieldWords : Prop :=
  (∀ (s : State) (d : BitVec 6) (a : Scal) (b : SOp) (c : BitVec 3),
    (∃ v : W64, v.toInt = min (s.scal a).toInt (s.sop b).toInt ∧ ScalarResult (.min false d a b) s 2 d v) ∧
    (∃ v : W64, v.toInt = max (s.scal a).toInt (s.sop b).toInt ∧ ScalarResult (.max false d a b) s 2 d v) ∧
    (∃ v : W64, v.toNat = min (s.scal a).toNat (s.sop b).toNat ∧ ScalarResult (.min true d a b) s 2 d v) ∧
    (∃ v : W64, v.toNat = max (s.scal a).toNat (s.sop b).toNat ∧ ScalarResult (.max true d a b) s 2 d v) ∧
    (∃ v : W64, v.toNat ≤ 64 ∧ (∀ k < 64, 64 ≤ k + v.toNat → (s.scal a).getLsbD k = false) ∧
      (v.toNat < 64 → (s.scal a).getLsbD (63 - v.toNat) = true) ∧ ScalarResult (.clz d a) s 2 d v) ∧
    (∃ v : W64, v.toNat = ((List.range 64).filter fun k => (s.scal a).getLsbD k).length ∧ ScalarResult (.popc d a) s 2 d v) ∧
    ScalarResult (.sel d a b c) s 2 d (if c = 0 ∨ s.pred c = true then s.scal a else s.sop b)) ∧
  (∀ (s : State) (d : BitVec 6) (a : Scal) (i48 : BitVec 48) (i16 : BitVec 16) (sx : Bool) (wm1 p : BitVec 6) (w : Nat),
    w = min (wm1.toNat + 1) (64 - p.toNat) →
    (∃ v : W64, v.toInt = i48.toInt ∧ ScalarResult (.movi d i48) s 2 d v ∧ ScalarResult (.amovi d i48) s 2 d v) ∧
    (∃ v : W64, (∀ k < 64, v.getLsbD k = if k < 48 then (s.scal (.reg d)).getLsbD k else i16.getLsbD (k - 48)) ∧
      ScalarResult (.movhi d i16) s 2 d v) ∧
    (∃ v : W64, (∀ k < 64, v.getLsbD k =
        if k < w then (s.scal a).getLsbD (p.toNat + k) else sx && (s.scal a).getLsbD (p.toNat + w - 1)) ∧
      ScalarResult (.bext sx d a wm1 p) s 2 d v) ∧
    (∃ v : W64, (∀ k < 64, v.getLsbD k =
        if p.toNat ≤ k ∧ k < p.toNat + w then (s.scal a).getLsbD (k - p.toNat) else (s.scal (.reg d)).getLsbD k) ∧
      ScalarResult (.bins d a wm1 p) s 2 d v))

/-- The integer relation of a COND code (R56); `.uo` and `.ord` hold of no integers. -/
def intRelation (c : Cond) (x y : W64) : Prop :=
  match c with
  | .eq => x = y
  | .ne => x ≠ y
  | .lt => x.toInt < y.toInt
  | .le => x.toInt ≤ y.toInt
  | .gt => x.toInt > y.toInt
  | .ge => x.toInt ≥ y.toInt
  | .ltu => x.toNat < y.toNat
  | .leu => x.toNat ≤ y.toNat
  | .gtu => x.toNat > y.toNat
  | .geu => x.toNat ≥ y.toNat
  | .uo | .ord => False

/-- CMP, ACMP and QOP (R56, R134, R231): the predicate lands two cycles later, q0 discards it, and nothing else changes. -/
def Obligations.PredicateWords : Prop :=
  ∀ (s : State) (cond : Cond) (d : BitVec 3) (a : Scal) (b : SOp) (tt : BitVec 4) (p q : BitVec 3),
    (∃ v : Bool, (v = true ↔ intRelation cond (s.scal a) (s.sop b)) ∧
      PredResult (.cmp cond d a b) s 2 d v ∧ PredResult (.acmp cond d a b) s 2 d v) ∧
    PredResult (.qop tt d p q) s 2 d (tt.getLsbD ((s.pred p).toNat + 2 * (s.pred q).toNat))

/-- DIV and REM (R227) where the divider is free, outside handler mode: the quotient is truncated toward zero and wrapped to 64
bits, a zero divisor gives all ones and the dividend, the result lands 34 cycles later, and the divider is busy until then; its
latches hold both results. A DIV or REM while the divider is busy raises UNIT_BUSY. In handler mode both raise WRONG_STREAM, whatever
the divider does, and have no effect (R294). -/
def Obligations.DivideWords : Prop :=
  (∀ (s : State) (u : Bool) (d : BitVec 6) (a : Scal) (b : SOp), s.focus.handler = true →
    Raises (.div u d a b) s .wrongStream 0 ∧ Raises (.rem u d a b) s .wrongStream 0) ∧
  ∀ (s : State) (u : Bool) (d : BitVec 6) (a : Scal) (b : SOp), s.focus.handler = false →
    (s.cyc < s.curSta.div.free → Raises (.div u d a b) s .unitBusy 0 ∧ Raises (.rem u d a b) s .unitBusy 0) ∧
    (s.curSta.div.free ≤ s.cyc → ∃ q r : W64,
      (s.sop b = 0 → q = BitVec.allOnes 64 ∧ r = s.scal a) ∧
      (s.sop b ≠ 0 → u = true → q.toNat = (s.scal a).toNat / (s.sop b).toNat ∧ r.toNat = (s.scal a).toNat % (s.sop b).toNat) ∧
      (s.sop b ≠ 0 → u = false → q = BitVec.ofInt 64 ((s.scal a).toInt.tdiv (s.sop b).toInt) ∧
        r = BitVec.ofInt 64 ((s.scal a).toInt.tmod (s.sop b).toInt)) ∧
      (∃ t, exec (.div u d a b) s = .next t ∧ t.curSta.div = { rem := r, quo := q, free := s.cyc + 34 } ∧
        Adds (s.updSta fun x => { x with div := t.curSta.div }) t (s.scalarWrites 34 d q)) ∧
      (∃ t, exec (.rem u d a b) s = .next t ∧ t.curSta.div = { rem := r, quo := q, free := s.cyc + 34 } ∧
        Adds (s.updSta fun x => { x with div := t.curSta.div }) t (s.scalarWrites 34 d r)))

/-- FADD, FMUL, FFMA, FCVT, FMNX and FCMP (R67 to R73, R75, R228, R231): the rounded result, its FPCTL events with it four cycles later,
one draw of the noise generator for a form under `.rsr` that can round, and nothing else. Outside handler mode the draw is the
generator's; in handler mode the noise value is 0 and nothing is drawn. The functions that give the results are pinned below.

Reading by R64's fields. Rounding of m 2^e to a multiple of 2^q (R68), exact or with bits below 2^q, in each mode; to a format at the
spacing of its binade or its subnormals, with NX and, tiny after rounding, UF; beyond the largest value R69's table with OF (R73). Sums,
products and the fused form are exact, then rounded once, with the sign of an exact zero (R70, R71); a NaN operand gives 0x7FC00000
and no flag, 0 × ∞ + NaN among them (log 44), ∞ - ∞ and 0 × ∞ set NV; minimumNumber and the compares by sign and magnitude (R56, R72).
R75's table: NaN, ∞, E8M0, and integers in and out of range; a finite value out of an integer's range sets OF alone (log 76), an
integer out of another's range sets OF (log 43), an integer that is not positive goes to E8M0 as such a float (log 93).
Choices and readings of the model that clauses rest on: DEDUCED, logs 43, 44, 93, DESIGN CHOICE, log 76. -/
def Obligations.FloatWordsAndRounding : Prop :=
  (∀ (s : State) (rnd : Rnd) (d : BitVec 6) (p : BitVec 3) (a c : Scal) (b : SOp) (src dst : Ty) (sat mx : Bool) (cond : Cond)
    (draw : Bool → BitVec 16 × Noise),
    (∀ on, draw on = if on && !s.focus.handler then s.curSta.noise.draw else (0, s.curSta.noise)) →
    FloatResult (.fadd rnd d a b) s d
      (let r := fAdd rnd (draw (rnd == .rsr)).1.toNat (s.f32 a) (s.f32op b); (r.1.setWidth 64, r.2)) (draw (rnd == .rsr)).2 ∧
    FloatResult (.fmul rnd d a b) s d
      (let r := fMul rnd (draw (rnd == .rsr)).1.toNat (s.f32 a) (s.f32op b); (r.1.setWidth 64, r.2)) (draw (rnd == .rsr)).2 ∧
    FloatResult (.ffma rnd d a b c) s d
      (let r := fFma rnd (draw (rnd == .rsr)).1.toNat (s.f32 a) (s.f32op b) (s.f32 c); (r.1.setWidth 64, r.2))
      (draw (rnd == .rsr)).2 ∧
    FloatResult (.fcvt src dst rnd sat d a) s d
      (let r := cvt src dst rnd sat (draw (rnd == .rsr && cvtDraws src dst)).1.toNat (s.f32 a); (place64 dst r.1, r.2))
      (draw (rnd == .rsr && cvtDraws src dst)).2 ∧
    FloatResult (.fmnx mx d a b) s d ((fMinMax mx (s.f32 a) (s.f32op b)).setWidth 64, FpFlags.none) s.curSta.noise ∧
    PredResult (.fcmp cond p a b) s 4 p (fCond cond (s.f32 a) (s.f32op b))) ∧
  (∀ (neg : Bool) (odd : Nat → Bool) (noise m : Nat) (e q : Int), noise < 65536 →
    let r (rnd : Rnd) := roundAt rnd neg noise odd m e q
    (q ≤ e → ∀ rnd, r rnd = (m * 2 ^ (e - q).toNat, false)) ∧
    (∀ sh : Nat, q = e + sh → 0 < sh →
      let lo := m / 2 ^ sh
      let rest := m % 2 ^ sh
      (∀ rnd, (r rnd).2 = true ↔ rest ≠ 0) ∧ (rest = 0 → ∀ rnd, (r rnd).1 = lo) ∧ (r .rtz).1 = lo ∧
      (r .rne).1 = (if 2 ^ sh < 2 * rest ∨ 2 * rest = 2 ^ sh ∧ odd lo = true then lo + 1 else lo) ∧
      ((r .rdn).1 = if neg = true ∧ rest ≠ 0 then lo + 1 else lo) ∧
      ((r .rup).1 = if neg = false ∧ rest ≠ 0 then lo + 1 else lo) ∧
      ((r .rsr).1 = if 65536 ≤ rest * 65536 / 2 ^ sh + noise then lo + 1 else lo))) ∧
  (∀ ty f mb w bias M G top nan infs, (ty, f, mb, w, bias, M, G, top, nan, infs) ∈ floatFormats →
    (∀ (neg : Bool) (E F : Nat), E < 2 ^ (w - 1 - mb) → F < 2 ^ mb →
      f.read ((if neg then 2 ^ (w - 1) else 0) + E * 2 ^ mb + F) =
        if E = 2 ^ (w - 1 - mb) - 1 ∧ infs = true then (if F = 0 then .inf neg else .nan)
        else if E = 2 ^ (w - 1 - mb) - 1 ∧ F = 2 ^ mb - 1 then .nan
        else if E = 0 then .num neg F (1 - bias - mb) else .num neg (2 ^ mb + F) (E - bias - mb)) ∧
    (∀ x, readTy ty x = f.read (x.toNat % 2 ^ w)) ∧ (∀ x, readF32 x = fmtF32.read x.toNat) ∧
    ∀ (rnd : Rnd) (sat neg : Bool) (noise m : Nat) (e : Int), noise < 65536 →
      let r := roundFloat f rnd sat noise neg m e
      let sign := if neg then 2 ^ (w - 1) else 0
      (f = fmtF32 → sat = false → round32 rnd noise neg m e = (BitVec.ofNat 32 r.1, r.2)) ∧
      (m = 0 → r = (sign, FpFlags.none)) ∧
      ∀ (ex q : Int) (n : Nat) (nx : Bool), 0 < m → ex = m.log2 + e → q = max ex (1 - bias) - mb →
        (n, nx) = roundAt rnd neg noise (fun k => k % 2 == 1) m e q →
        (q ≤ G ∧ n ≤ M * 2 ^ (G - q).toNat → ∃ k c, f.read r.1 = .num neg k c ∧ q ≤ c ∧ k * 2 ^ (c - q).toNat = n ∧ r.1 < 2 ^ w ∧
          r.2 = { nx := nx, uf := nx && decide (ex < 1 - bias ∧
            ¬(ex + 1 = 1 - bias ∧ (roundAt rnd neg noise (fun k => k % 2 == 1) m e (ex - mb)).1 = 2 ^ (mb + 1))) }) ∧
        (¬(q ≤ G ∧ n ≤ M * 2 ^ (G - q).toNat) →
          let toMax := sat = true ∨ rnd = .rtz ∨ rnd = .rdn ∧ neg = false ∨ rnd = .rup ∧ neg = true
          (toMax → r = (sign + top, { nx := true, ov := true })) ∧
          (¬toMax → infs = true → r = (sign + (top + 1), { nx := true, ov := true })) ∧
          (¬toMax → infs = false → r = (nan, { nx := true, ov := true, nv := true })))) ∧
  (∀ (rnd : Rnd) (noise : Nat) (a b c : W32), noise < 65536 →
    let one : W32 × FpFlags := (0x7FC00000, FpFlags.none)
    let bad : W32 × FpFlags := (0x7FC00000, { nv := true })
    let inf (n : Bool) : W32 × FpFlags := (if n then 0xFF800000 else 0x7F800000, FpFlags.none)
    (readF32 a = .nan ∨ readF32 b = .nan → fAdd rnd noise a b = one ∧ fMul rnd noise a b = one) ∧
    (readF32 a = .nan ∨ readF32 b = .nan ∨ readF32 c = .nan → fFma rnd noise a b c = one) ∧
    (∀ n n', readF32 a = .inf n → readF32 b = .inf n' →
      fAdd rnd noise a b = (if n = n' then inf n else bad) ∧ fMul rnd noise a b = inf (n != n') ∧
      (∀ k, readF32 c = .inf k → fFma rnd noise a b c = if k = (n != n') then inf k else bad) ∧
      (∀ k m e, readF32 c = .num k m e → fFma rnd noise a b c = inf (n != n'))) ∧
    (∀ n n' m e, (readF32 a = .inf n ∧ readF32 b = .num n' m e ∨ readF32 b = .inf n ∧ readF32 a = .num n' m e) →
      fAdd rnd noise a b = inf n ∧ fMul rnd noise a b = (if m = 0 then bad else inf (n != n')) ∧
      (m = 0 → readF32 c ≠ .nan → fFma rnd noise a b c = bad) ∧
      (∀ k, m ≠ 0 → readF32 c = .inf k → fFma rnd noise a b c = if k = (n != n') then inf k else bad) ∧
      (∀ k l j, m ≠ 0 → readF32 c = .num k l j → fFma rnd noise a b c = inf (n != n'))) ∧
    (∀ n n' m m' e e', readF32 a = .num n m e → readF32 b = .num n' m' e' →
      exactSum rnd noise n n' m m' e e' (fAdd rnd noise a b) ∧
      fMul rnd noise a b = round32 rnd noise (n != n') (m * m') (e + e') ∧
      (∀ k, readF32 c = .inf k → fFma rnd noise a b c = inf k) ∧
      (∀ k l j, readF32 c = .num k l j → exactSum rnd noise (n != n') k (m * m') l (e + e') j (fFma rnd noise a b c))) ∧
    (∀ mx, (readF32 a = .nan → readF32 b = .nan → fMinMax mx a b = 0x7FC00000) ∧
      (readF32 a = .nan → readF32 b ≠ .nan → fMinMax mx a b = b) ∧ (readF32 b = .nan → readF32 a ≠ .nan → fMinMax mx a b = a) ∧
      (readF32 a ≠ .nan → readF32 b ≠ .nan → (below32 a b → fMinMax mx a b = if mx then b else a) ∧
        (below32 b a → fMinMax mx a b = if mx then a else b) ∧ (a = b → fMinMax mx a b = a))) ∧
    (let un := readF32 a = .nan ∨ readF32 b = .nan
     let same := a = b ∨ a.toNat % 2 ^ 31 = 0 ∧ b.toNat % 2 ^ 31 = 0
     (fCond .uo a b = true ↔ un) ∧ (fCond .ord a b = true ↔ ¬un) ∧ (fCond .eq a b = true ↔ ¬un ∧ same) ∧
     (fCond .ne a b = true ↔ un ∨ ¬same) ∧ (fCond .lt a b = true ↔ ¬un ∧ ¬same ∧ below32 a b) ∧
     (fCond .gt a b = true ↔ ¬un ∧ ¬same ∧ below32 b a) ∧ (fCond .le a b = true ↔ ¬un ∧ (same ∨ below32 a b)) ∧
     (fCond .ge a b = true ↔ ¬un ∧ (same ∨ below32 b a)) ∧ ∀ k ∈ [Cond.ltu, .leu, .gtu, .geu], fCond k a b = false)) ∧
  (∀ (rnd : Rnd) (sat : Bool) (noise : Nat) (src : Ty) (x : W32), noise < 65536 →
    (readTy .e8m0 x = if x.toNat % 256 = 255 then .nan else .num false 1 ((x.toNat % 256 : Nat) - 127)) ∧
    (∀ w sg, (src, w, sg) ∈ integerFormats → ∃ v : Int, v = readInt w sg x ∧ (∃ k : Int, (x.toNat : Int) = v + k * 2 ^ w) ∧
      (if sg then -(2 ^ (w - 1)) ≤ v ∧ v < 2 ^ (w - 1) else 0 ≤ v ∧ v < 2 ^ w) ∧ readTy src x = .num (decide (v < 0)) v.natAbs 0) ∧
    (∀ ty f mb w bias M G top nan infs, (ty, f, mb, w, bias, M, G, top, nan, infs) ∈ floatFormats →
      (readTy src x = .nan → cvt src ty rnd sat noise x = (BitVec.ofNat 32 nan, FpFlags.none)) ∧
      (∀ n, readTy src x = .inf n → cvt src ty rnd sat noise x =
        if sat = false ∧ infs = false then (BitVec.ofNat 32 nan, { nv := true })
        else (BitVec.ofNat 32 ((if n then 2 ^ (w - 1) else 0) + if sat then top else top + 1), FpFlags.none)) ∧
      (∀ n m e, readTy src x = .num n m e → cvt src ty rnd sat noise x =
        (BitVec.ofNat 32 (roundFloat f rnd sat noise n m e).1, (roundFloat f rnd sat noise n m e).2))) ∧
    ((readTy src x = .nan → cvt src .e8m0 rnd sat noise x = (0xFF, FpFlags.none)) ∧
      (readTy src x = .inf false → cvt src .e8m0 rnd sat noise x = if sat then (0xFE, FpFlags.none) else (0xFF, { nv := true })) ∧
      (readTy src x = .inf true ∨ (∃ m e, readTy src x = .num true m e) ∨ (∃ n e, readTy src x = .num n 0 e) →
        cvt src .e8m0 rnd sat noise x = if sat then (0, FpFlags.none) else (0xFF, { nv := true })) ∧
      ∀ (m : Nat) (e ex : Int) (n : Nat) (nx : Bool) (X : Int), readTy src x = .num false m e → 0 < m → ex = m.log2 + e →
        (n, nx) = roundAt rnd false noise (fun _ => (ex + 127) % 2 == 1) m e ex → X = ex + 127 + (n - 1) →
        (ex < -127 → cvt src .e8m0 rnd sat noise x = (0, { nx := true, uf := true })) ∧
        (-127 ≤ ex → X ≤ 254 → cvt src .e8m0 rnd sat noise x = (BitVec.ofInt 32 X, { nx := nx })) ∧
        (254 < X → cvt src .e8m0 rnd sat noise x = if sat = true ∨ rnd = .rtz ∨ rnd = .rdn then (254, { nx := true, ov := true })
          else (0xFF, { nx := true, ov := true, nv := true }))) ∧
    ∀ dst w sg, (dst, w, sg) ∈ integerFormats → ∀ lo hi : Int, lo = (if sg then -(2 ^ (w - 1)) else 0) →
      hi = (if sg then 2 ^ (w - 1) - 1 else 2 ^ w - 1) →
      let none_ : Int := if sg then lo else hi
      (intTy src = none →
        (readTy src x = .nan → cvt src dst rnd sat noise x = (BitVec.ofInt 32 (if sat then 0 else none_), { nv := true })) ∧
        (∀ n, readTy src x = .inf n → cvt src dst rnd sat noise x =
          (BitVec.ofInt 32 (if sat then (if n then lo else hi) else none_), { ov := true })) ∧
        ∀ (n : Bool) (m k : Nat) (e v : Int) (nx : Bool), readTy src x = .num n m e →
          (k, nx) = roundAt rnd n noise (fun j => j % 2 == 1) m e 0 → v = (if n then -(k : Int) else k) →
          cvt src dst rnd sat noise x = if lo ≤ v ∧ v ≤ hi then (BitVec.ofInt 32 v, { nx := nx })
            else (BitVec.ofInt 32 (if sat then (if v < lo then lo else hi) else none_), { ov := true })) ∧
      ∀ w' sg' v, (src, w', sg') ∈ integerFormats → v = readInt w' sg' x →
        (lo ≤ v → v ≤ hi → cvt src dst rnd sat noise x = (BitVec.ofInt 32 v, FpFlags.none)) ∧
        (¬(lo ≤ v ∧ v ≤ hi) → sat = true →
          cvt src dst rnd sat noise x = (BitVec.ofInt 32 (if v < lo then lo else hi), { ov := true })) ∧
        (¬(lo ≤ v ∧ v ≤ hi) → sat = false → ∃ u k : Int, cvt src dst rnd sat noise x = (BitVec.ofInt 32 u, { ov := true }) ∧
          lo ≤ u ∧ u ≤ hi ∧ v = u + k * 2 ^ w))

/-- SLD and SST outside handler mode (R230): at a multiple of 8 below 8 KiB SLD's word lands five cycles later, SST writes its
word and leaves every other one, and nothing else changes; at any other address both raise BANK_RANGE. In handler mode both raise
WRONG_STREAM (R294). -/
def Obligations.PadWords : Prop :=
  (∀ (s : State) (d : BitVec 6) (a b : Scal) (v : W32), s.focus.handler = true →
    Raises (.sld d a v) s .wrongStream 0 ∧ Raises (.sst a b v) s .wrongStream 0) ∧
  ∀ (s : State) (d : BitVec 6) (a b : Scal) (v : W32) (ea : Nat), s.focus.handler = false →
    ea = (s.scal a + v.signExtend 64).toNat →
    (ea % 8 = 0 → ea < 8192 → ScalarResult (.sld d a v) s 5 d (kget 0 (ea / 8) s.curSta.pad) ∧
      ∃ t, exec (.sst a b v) s = .next t ∧ Adds (s.updSta fun x => { x with pad := t.curSta.pad }) t [] ∧
        ∀ k, kget 0 k t.curSta.pad = if k = ea / 8 then s.scal b else kget 0 k s.curSta.pad) ∧
    ((ea % 8 ≠ 0 ∨ 8192 ≤ ea) → Raises (.sld d a v) s .bankRange 0 ∧ Raises (.sst a b v) s .bankRange 0)

-- ## Words that steer a stream (R44, R45, R52, R53, R233 to R241, R252, R253)

/-- BR and CALL check their b-register as R233 says: an unprepared one, and one that is named before cycle PC + 4, raises
BRANCH_EARLY and transfers nothing; from PC + 4 on the register is ready, and a word whose target is one that R53 allows
transfers control to it. At launch every b-register is unprepared. -/
def Obligations.BranchRegisterChecks : Prop :=
  (∀ (x : Station) (k : Nat) (a : BitVec 3), (kget {} a.toNat (launchCtx x k).b : BReg).prep = false) ∧
  ∀ (s : State) (a : BitVec 3),
    ((s.breg a).prep = false → Raises (.br a) s .branchEarly 0 ∧ Raises (.call a) s .branchEarly 0) ∧
    (s.cyc < (s.breg a).pc + 4 → Raises (.br a) s .branchEarly 0 ∧ Raises (.call a) s .branchEarly 0) ∧
    ((s.breg a).prep = true → (s.breg a).pc + 4 ≤ s.cyc → s.targetOk (s.breg a).tgt = true →
      (∃ t c, exec (.br a) s = .next t ∧ Steers s t c (s.breg a).tgt.toNat ∧ c.next = s.target (s.breg a).tgt.toNat) ∧
      (s.curCtx.calls.length < 8 →
        ∃ t c, exec (.call a) s = .next t ∧ Steers s t c (s.breg a).tgt.toNat ∧ c.next = s.target (s.breg a).tgt.toNat))

/-- PBR (R234): its b-register is prepared in the issue cycle with the target that the word names; nothing else changes.

A taken BR (R235, R239): the next-word state names the target, the loops that end at the BR's own word go, and so does every
loop whose body does not hold the target with every loop inside it; the loops outside these all stay, and nothing else of the
context changes.

CALL and RET (R53, R236): a CALL pushes the parcel after it and the loop depth and goes to its target; a RET pops the entry and
the loops opened since, and goes to the return parcel: a word of the section or a header, or the first word of a section that
it then enters.
Choices and readings of the model that clauses rest on: DEDUCED, log 34, DEDUCED, log 47, DEDUCED, log 48. -/
def Obligations.TransfersOfControl : Prop :=
  (∀ (s : State) (d : BitVec 3) (o : BitVec 24) (a : Scal),
    (∃ t, exec (.pbr d (.off o)) s = .next t ∧ (t.updCtx fun c => { c with b := [] }) = (s.updCtx fun c => { c with b := [] }) ∧
      (∀ k, k ≠ d → t.breg k = s.breg k) ∧
      ∃ p : Parcel, t.breg d = { prep := true, tgt := p, pc := s.cyc } ∧
        (p.toNat : Int) = (s.focus.parcel.toNat + 6 * o.toInt) % 65536) ∧
    (∃ t, exec (.pbr d (.ind a)) s = .next t ∧ (t.updCtx fun c => { c with b := [] }) = (s.updCtx fun c => { c with b := [] }) ∧
      (∀ k, k ≠ d → t.breg k = s.breg k) ∧
      ∃ p : Parcel, t.breg d = { prep := true, tgt := p, pc := s.cyc } ∧ p.toNat = (s.scal a).toNat % 65536)) ∧
  (∀ (s : State) (a : BitVec 3), s.bready a = true → s.targetOk (s.breg a).tgt = true →
    ∃ t stay, exec (.br a) s = .next t ∧
      Steers s t { s.curCtx with loops := stay, next := s.target (s.breg a).tgt.toNat } (s.breg a).tgt.toNat ∧
      (∃ gone, s.curCtx.loops = gone ++ stay) ∧ (∀ e ∈ stay, e.holds (s.breg a).tgt = true) ∧
      (∀ e ∈ stay, e.last ≠ s.focus.parcel) ∧
      (∀ gone other, s.curCtx.loops = gone ++ other →
        (∀ e ∈ other, e.holds (s.breg a).tgt = true ∧ e.last ≠ s.focus.parcel) → other.length ≤ stay.length) ∧
      ((∀ e ∈ s.curCtx.loops, e.holds (s.breg a).tgt = true ∧ e.last ≠ s.focus.parcel) → stay = s.curCtx.loops)) ∧
  ((∀ (s : State) (a : BitVec 3), s.bready a = true → s.targetOk (s.breg a).tgt = true → s.curCtx.calls.length < 8 →
    ∃ t, exec (.call a) s = .next t ∧
      Steers s t { s.curCtx with
        calls := { ret := BitVec.ofNat 16 (s.focus.parcel.toNat + 6), depth := s.curCtx.loops.length } :: s.curCtx.calls,
        next := s.target (s.breg a).tgt.toNat } (s.breg a).tgt.toNat) ∧
  (∀ (s : State) (e : CallEntry) (rest : List CallEntry) (loops : List LoopEntry), s.curCtx.calls = e :: rest →
    s.targetOk e.ret = true → (∃ gone, s.curCtx.loops = gone ++ loops) → loops.length = min e.depth s.curCtx.loops.length →
    ∃ t, exec .ret s = .next t ∧
      Steers s t { s.curCtx with calls := rest, loops := loops, next := s.target e.ret.toNat } e.ret.toNat) ∧
  (∀ (s : State) (e : CallEntry) (rest : List CallEntry) (loops : List LoopEntry) (h k : Section), s.curCtx.calls = e :: rest →
    s.targetOk e.ret = false → s.curCtx.sect = some k → k.stop ≠ e.ret.toNat →
    s.sections.find? (fun h => h.first == e.ret.toNat) = some h →
    (∃ gone, s.curCtx.loops = gone ++ loops) → loops.length = min e.depth s.curCtx.loops.length →
    ∃ t, exec .ret s = .next t ∧
      Steers s t { s.curCtx with
        calls := rest, loops := loops, sect := some h, entering := !s.focus.handler,
        next := .word e.ret (s.cyc + 1 + s.focus.wait + s.curSta.dlyAt e.ret) } e.ret.toNat))

/-- LOOP whose end word lies ahead in its section, with room on the loop stack (R237): with a count of n ≥ 1 it pushes an entry
and goes to the first body word; with 0 it pushes nothing, the outer entries that end at the LOOP word itself and have a counter of
at most 1 go, and control goes to the word after the end word, unless the next outer entry ends there too and goes back, as at every
issue (R238); a replayed LOOP has had that check in its own cycle.

Where the words that steer a stream raise a cause (R53, R236, R237, R252): TRAP n always raises 0xF0 + n; BR, CALL and RET to a parcel that R53
does not allow; a CALL with 8 entries present and a RET with none; a LOOP whose end word is not ahead in its section, whatever
its count; a LOOP with 4 entries present, whatever its count.
Choices and readings of the model that clauses rest on: DEDUCED, log 34, DEDUCED, log 47, DESIGN CHOICE, log 65. -/
def Obligations.LoopsAndSteeringTraps : Prop :=
  (∀ (s : State) (rot : Bool) (n : Count) (off : BitVec 24) (k : Section), s.curCtx.sect = some k → k.has s.focus.parcel.toNat = true →
    k.stop ≤ 65536 → 0 < off.toInt → s.focus.parcel.toNat + 6 * off.toNat < k.stop → s.curCtx.loops.length < 4 →
    (s.count n ≠ 0 → ∃ t, exec (.loop rot n off) s = .next t ∧
      Steers s t { s.curCtx with
        loops := { ctr := s.count n, rot := rot, first := s.focus.parcel + 6,
                   last := BitVec.ofNat 16 (s.focus.parcel.toNat + 6 * off.toNat) } :: s.curCtx.loops,
        next := .word (s.focus.parcel + 6) (s.cyc + 1 + s.focus.wait + s.curSta.dlyAt (s.focus.parcel + 6)) }
        (s.focus.parcel.toNat + 6)) ∧
    (s.count n = 0 → s.focus.replay = true → ∃ t, exec (.loop rot n off) s = .next t ∧
      Steers s t { s.curCtx with next := s.target (s.focus.parcel.toNat + 6 * off.toNat + 6) }
        (s.focus.parcel.toNat + 6 * off.toNat + 6)) ∧
    (∀ gone rest, s.count n = 0 → s.focus.replay = false → s.curCtx.loops = gone ++ rest →
      (∀ e ∈ gone, e.last = s.focus.parcel ∧ e.ctr ≤ 1) → (∀ e ∈ rest.head?, e.last ≠ s.focus.parcel) →
      ∃ t, exec (.loop rot n off) s = .next t ∧
        Steers s t { s.curCtx with loops := rest, next := s.target (s.focus.parcel.toNat + 6 * off.toNat + 6) }
          (s.focus.parcel.toNat + 6 * off.toNat + 6)) ∧
    (∀ gone e rest, s.count n = 0 → s.focus.replay = false → s.curCtx.loops = gone ++ e :: rest →
      (∀ e ∈ gone, e.last = s.focus.parcel ∧ e.ctr ≤ 1) → e.last = s.focus.parcel → 1 < e.ctr →
      k.has e.first.toNat = true → ∃ t u, exec (.loop rot n off) s = .next t ∧
        Steers u t { s.curCtx with
          loops := { e with ctr := e.ctr - 1 } :: rest,
          next := .word e.first (s.cyc + 1 + s.focus.wait + s.curSta.dlyAt e.first) } e.first.toNat ∧
        Defers s u (if e.rot then [.rotate s.focus.pos] else []))) ∧
  (∀ (s : State) (a n : BitVec 3) (rot : Bool) (c : Count) (off : BitVec 24),
    (Raises (.trap n) s (.trapN n) (n.setWidth 8) ∧ (causeCode (.trapN n)).toNat = 0xF0 + n.toNat) ∧
    (s.bready a = true → s.targetOk (s.breg a).tgt = false → Raises (.br a) s .sectionOrder 0 ∧
      (s.curCtx.calls.length < 8 → Raises (.call a) s .sectionOrder 0)) ∧
    (s.bready a = true → 8 ≤ s.curCtx.calls.length → Raises (.call a) s .callDepth 0) ∧
    (s.curCtx.calls = [] → Raises .ret s .callDepth 0) ∧
    (∀ e ∈ s.curCtx.calls.head?, s.returnOk e.ret = false → Raises .ret s .sectionOrder 0) ∧
    (off.toInt < 1 → Raises (.loop rot c off) s .sectionOrder 0) ∧
    (∀ k, s.curCtx.sect = some k → 0 < off.toInt → k.stop ≤ s.focus.parcel.toNat + 6 * off.toNat →
      Raises (.loop rot c off) s .sectionOrder 0) ∧
    (∀ k, s.curCtx.sect = some k → 0 < off.toInt → s.focus.parcel.toNat + 6 * off.toNat < k.stop → 4 ≤ s.curCtx.loops.length →
      Raises (.loop rot c off) s .loopDepth 0))

/-- ALIGN outside handler mode (R23, R241), in sidereal cycle s with time T: with s ≤ T the die's next die cycle executes no
earlier than T + 1, nor than any other ALIGN of the cycle has said, and nothing else changes; past T, `.late` does nothing, and
without it the word raises ALIGN_OVERRUN. In handler mode it raises WRONG_STREAM (R294). -/
def Obligations.AlignWord : Prop :=
  (∀ (s : State) (late : Bool) (w : Wide), s.focus.handler = true → Raises (.align late w) s .wrongStream 0) ∧
  ∀ (s : State) (late : Bool) (w : Wide) (T : Nat), s.focus.handler = false →
    (match w with
      | .imm v => T = v.toNat
      | .reg a v => T = (s.scal a + v.signExtend 64).toNat) →
    (s.sidc ≤ T → ∃ t, exec (.align late w) s = .next t ∧ t.curDie.notBefore = max s.curDie.notBefore (T + 1) ∧
      (t.updDie fun d => { d with notBefore := 0 }) = (s.updDie fun d => { d with notBefore := 0 })) ∧
    (T < s.sidc → NoEffect (.align true w) s ∧ Raises (.align false w) s .alignOverrun 0)

/-- NOP, WAITC and the move to the next word (R44, R238, R240): NOP has no effect; after a word that has not steered its stream
and is the end of no loop, the next word of its section issues 1 + its DLY cycles later, and CNT cycles later still after a
WAITC; at a loop's end word a counter above 1 falls by one and control goes back to the first body word, rotating where ROT says
so, while an innermost entry whose counter is 1 goes and the next outer one is judged in the same cycle. After the last word of a section, where
no loop goes back, the section retires in that cycle (R52) and its stream reads the header that follows in the next one, which costs
no cycle: the CNT of a WAITC goes with it to the first word behind the header.
Choices and readings of the model that clauses rest on: DEDUCED, log 46, DEDUCED, log 47. -/
def Obligations.NextWord : Prop :=
  (∀ s, NoEffect .nop s) ∧
  (∀ (s : State) (cnt : BitVec 24), exec (.waitc cnt) s = .next { s with focus := { s.focus with wait := cnt.toNat } }) ∧
  (∀ (s : State) (k : Section) (n : Nat), s.focus.moved = false → s.focus.replay = false → s.curCtx.sect = some k →
    k.has (s.focus.parcel.toNat + 6) = true → (∀ e ∈ s.curCtx.loops, e.last ≠ s.focus.parcel) → n = s.curCtx.loops.length →
    Steers s (s.moveOn n) { s.curCtx with
      next := .word (BitVec.ofNat 16 (s.focus.parcel.toNat + 6))
        (s.cyc + 1 + s.focus.wait + s.curSta.dlyAt (BitVec.ofNat 16 (s.focus.parcel.toNat + 6))) } (s.focus.parcel.toNat + 6)) ∧
  (∀ (s : State) (k : Section) (n : Nat), s.focus.moved = false → s.focus.replay = false → s.curCtx.sect = some k →
    s.focus.parcel.toNat + 6 = k.stop → k.stop ≤ 65536 → (∀ e ∈ s.curCtx.loops, e.last ≠ s.focus.parcel) → n = s.curCtx.loops.length →
    Steers s (s.moveOn n) { s.curCtx with next := .hdr (BitVec.ofNat 16 k.stop) (s.cyc + 1) s.focus.wait } k.stop ∧
      (s.focus.handler = false →
        (s.moveOn n).curDie.eoc = s.curDie.eoc ++ [.rsec s.focus.pos s.focus.strm k.snum k.pre])) ∧
  (∀ (w : Parcel) (e : LoopEntry) (rest : List LoopEntry), e.last = w → 1 < e.ctr →
    loopBack w (e :: rest) = ({ e with ctr := e.ctr - 1 } :: rest, some (e.first, e.rot))) ∧
  (∀ (w : Parcel) (e : LoopEntry) (rest : List LoopEntry), e.last = w → e.ctr ≤ 1 → loopBack w (e :: rest) = loopBack w rest) ∧
  (∀ (w : Parcel) (l : List LoopEntry), (∀ e ∈ l.head?, e.last ≠ w) → loopBack w l = (l, none)) ∧
  (∀ (s : State) (k : Section) (e : LoopEntry) (rest : List LoopEntry) (n : Nat), s.focus.moved = false → s.focus.replay = false →
    s.curCtx.sect = some k → s.curCtx.loops = e :: rest → e.last = s.focus.parcel → 1 < e.ctr → k.has e.first.toNat = true →
    n ≤ (e :: rest).length →
    ∃ u, Steers u (s.moveOn n) { s.curCtx with
      loops := { e with ctr := e.ctr - 1 } :: rest,
      next := .word e.first (s.cyc + 1 + s.focus.wait + s.curSta.dlyAt e.first) } e.first.toNat ∧
      Defers s u (if e.rot then [.rotate s.focus.pos] else []))

/-- EXIT (R52, R253): its stream retires, no later word of it issues, its loop and call stacks are emptied, and outside handler
mode its section retires, with its PRE, RSEC taking 0xFE at the end of the cycle and not before, so that it reads 0xFE from the next
cycle on; nothing else changes, so what it issued before still lands. -/
def Obligations.ExitRetires : Prop :=
  ∀ s : State, ∃ t, exec .exit s = .next t ∧ t.steered = s.steered ∧ t.focus.moved = true ∧
    t.curCtx = { s.curCtx with retired := true, next := .off, loops := [], calls := [] } ∧
    (s.focus.handler = true → t.curDie.eoc = s.curDie.eoc) ∧
    (s.focus.handler = false → ∀ k ∈ s.curCtx.sect,
      t.curDie.eoc = s.curDie.eoc ++ [.rsec s.focus.pos s.focus.strm 0xFE k.pre]) ∧
    (s.focus.handler = false → s.curCtx.sect = none →
      t.curDie.eoc = s.curDie.eoc ++ [.rsec s.focus.pos s.focus.strm 0xFE false]) ∧
    (∀ (d : DieId) (p : Pos) (st : Strm) (pre : Bool), (s.die d).eoc = [.rsec p st 0xFE pre] →
      (((s.applyEoc d).die d).sta p |>.ctxOf st).rsec = 0xFE)

-- ## Special registers (R17, R49, R251)

/-- A number that the CSR index of R251 lists. -/
def csrListed (n : Nat) : Prop :=
  n ≤ 4 ∨ n = 8 ∨ n = 9 ∨ 0x010 ≤ n ∧ n ≤ 0x015 ∨ 0x020 ≤ n ∧ n ≤ 0x022 ∨ 0x030 ≤ n ∧ n ≤ 0x032 ∨ 0x040 ≤ n ∧ n ≤ 0x041 ∨
    0x048 ≤ n ∧ n ≤ 0x058 ∨ n = 0x060 ∨ 0x070 ≤ n ∧ n ≤ 0x072 ∨ 0x080 ≤ n ∧ n ≤ 0x083 ∨ 0x090 ≤ n ∧ n ≤ 0x095

/-- CSRR (R49, R251): the CSR as it reads in the issue cycle goes to the destination two cycles later and nothing else changes; in
the X stream to row 0 of a live vector register, above it zeros; SIDC, DCYC, DIEID, STAID, TEAMID, HOLDCNT, HOLDMAX, FPCTL and
LATTAB read as R17, R73 and R211 say, and every number outside the index reads 0.

CSRW (R17, R49, R251): the word leaves its operand to be written at the end of its cycle and changes nothing else; the write
leaves a read-only CSR, and every number outside the index, as it is; HOLDMAX, FPCTL, ATRAP, NANCNT, ASTAT, LOCREQ, REMREQ, VIOLOG,
VIOTRAP and, but in a cycle in which an error phase reaches the die, RDVERR then read the written value in their writable bits; HSTA
takes DEN, DCLS, ENTRY and POS, a written FBAD of 0 clears FBAD, and SVST, HMODE and NEST stay; every other CSR reads as before.

Writes of NOISE and ROTD as the part's own steps (R133, R164). NOISE: mode 0 keeps SEED and stops drawing, mode 1 takes S from the entropy
source with SEED 0, mode 2 logs that value in SEED, mode 3 replays SEED, 1 where the value is 0; S is never 0 in modes 1 to 3.
The entropy value is free (DESIGN CHOICE, log 13). Nothing but that station's NOISE and the free-value count changes. ROTD: D and PD are
clamped to 16, RB is taken modulo D, and is 0 with D = 0; only that station's ROTD changes, and the note of when a register that it
makes dead became so.
Choices and readings of the model that clauses rest on: DEDUCED, log 14. -/
def Obligations.CsrWords : Prop :=
  (∀ (s : State) (r : BitVec 6) (v ph : BitVec 5) (n : BitVec 12) (x : W64), x = s.csrRead s.focus.die s.focus.pos n.toNat →
    ScalarResult (.csrr (.s (.reg r)) n) s 2 r x ∧
    (physOf s.curSta.rotd v = some ph → ∃ t, exec (.csrr (.v v) n) s = .next t ∧
      Adds s t [s.inFlight 2 (v.setWidth 8) (.v ph 0 (BitVec.allOnes 64) (x.setWidth 2048))]) ∧
    (n = 0x000 → x = BitVec.ofNat 64 s.sidc) ∧ (n = 0x001 → x = BitVec.ofNat 64 s.curDie.dcyc) ∧
    (n = 0x002 → x.toNat = s.focus.die.val) ∧ (n = 0x003 → x.toNat = s.focus.pos.val) ∧
    (n = 0x004 → x.toNat = s.curDie.team.toNat) ∧ (n = 0x008 → x.toNat = s.curDie.holdcnt % 2 ^ 32) ∧
    (n = 0x009 → x.toNat = s.curDie.holdmax.toNat) ∧ (n = 0x021 → x = s.curSta.fpctl) ∧
    ((n = 0x010 ∨ n = 0x011 ∨ n = 0x014 ∨ n = 0x015) → x = 20) ∧ ((n = 0x012 ∨ n = 0x013) → x = 26) ∧
    (¬csrListed n.toNat → x = 0)) ∧
  ((∀ (s : State) (a : Scal) (n : BitVec 12), ∃ t, exec (.csrw (.s a) n) s = .next t ∧
    Defers s t [.csr s.focus.pos n (s.scal a)]) ∧
  (∀ (s : State) (v ph : BitVec 5) (n : BitVec 12), physOf s.curSta.rotd v = some ph → s.curDie.bad = [] →
    ∃ t, exec (.csrw (.v v) n) s = .next t ∧ Defers s t [.csr s.focus.pos n ((s.curSta.vrow ph 0).setWidth 64)]) ∧
  (∀ (s : State) (d : DieId) (p : Pos) (n : Nat) (v : W64),
    (n ∈ [0x000, 0x001, 0x002, 0x003, 0x004, 0x008, 0x071, 0x072] ∨ 0x010 ≤ n ∧ n ≤ 0x015 ∨ 0x080 ≤ n ∨ ¬csrListed n) →
    s.csrWrite d p n v = s) ∧
  (∀ (s : State) (d : DieId) (p : Pos) (v : W64) (n : Nat) (mask : W64),
    (n, mask) ∈ [(0x009, 0xFFFFFFFF), (0x021, 0x71F), (0x030, 3), (0x031, 0xFFFFFFFF), (0x040, BitVec.allOnes 64),
      (0x041, BitVec.allOnes 64), (0x032, 0x03FF03FF00000713), (0x058, 0xFFFF000000000F03)] ∨
      0x048 ≤ n ∧ n ≤ 0x057 ∧ mask = BitVec.allOnes 64 ∨ n = 0x060 ∧ mask = 0x9FFF ∧ (s.die d).rdverrAt ≠ s.sidc + 1 →
    (s.csrWrite d p n v).csrRead d p n = v &&& mask ∧
    ∀ k, k ≠ n → (s.csrWrite d p n v).csrRead d p k = s.csrRead d p k) ∧
  (∀ (s : State) (d : DieId) (p : Pos) (v : W64) (x y : W64), x = s.csrRead d p 0x070 → y = (s.csrWrite d p 0x070 v).csrRead d p 0x070 →
    y.getLsbD 63 = v.getLsbD 63 ∧ (∀ k < 64, 26 ≤ k → k < 52 → y.getLsbD k = v.getLsbD k) ∧ y.toNat % 128 = v.toNat % 128 ∧
    y.getLsbD 15 = (x.getLsbD 15 && v.getLsbD 15) ∧ (∀ k, 16 ≤ k → k < 26 → y.getLsbD k = x.getLsbD k) ∧
    (∀ k < 64, 7 ≤ k → k < 15 ∨ 52 ≤ k ∧ k < 63 → y.getLsbD k = false) ∧
    ∀ k, k ≠ 0x070 → (s.csrWrite d p 0x070 v).csrRead d p k = s.csrRead d p k)) ∧
  (∀ (s : State) (d : DieId) (p : Pos) (seed : W32) (v : W64),
    (∃ t r dead, exec (.rotdWrite d p v) s = .next t ∧
      t = s.setDie d ((s.die d).setSta p { (s.die d).sta p with rotd := r, died := dead }) ∧
      (∀ k, (kget 0 k dead : Nat) = if 16 + r.d ≤ k ∧ k < 16 + ((s.die d).sta p).rotd.d then (s.die d).dcyc + 1
        else kget 0 k ((s.die d).sta p).died) ∧
      r.d = min 16 (v.toNat % 32) ∧ r.pd = min 16 (v.toNat / 2 ^ 16 % 32) ∧
      (r.d = 0 → r.rb = 0) ∧ (0 < r.d → r.rb = v.toNat / 2 ^ 8 % 16 % r.d)) ∧
    ∃ live : W32, live ≠ 0 ∧ ∀ (i : Instr) (n : Noise),
      ((i, n) ∈ [(.noiseOff d p, { ((s.die d).sta p).noise with mode := 0 }), (.noiseLive d p, { seed := 0, mode := 1, s := live }),
        (.noiseLog d p, { seed := live, mode := 2, s := live }),
        (.noiseReplay d p seed, if seed = 0 then { seed := 1, mode := 3, s := 1 } else { seed := seed, mode := 3, s := seed })]) →
      ∃ t, exec i s = .next t ∧ t.ctr = s.ctr + 1 ∧
        { t with ctr := s.ctr } = s.setDie d ((s.die d).setSta p { (s.die d).sta p with noise := n }))

-- ## Rendezvous, fences and marks (R242 to R250)

/-- RDVT tests without waiting (R246): two cycles later its predicate takes 1 if the die's copy of PH differs from the stream's WP,
and 0 otherwise; no WP changes and nothing else does, in exchange sections too, beside `tested`, a note of the model's own that no rule
names and that carries the reading of log 77; it never holds the die; and where it finds 1 an RDVW of that point does not hold.
Choices and readings of the model that clauses rest on: DEDUCED, log 77, only the note `tested`. -/
def Obligations.RendezvousTestAndWait : Prop :=
  ∀ (s : State) (pt : BitVec 5) (d e : BitVec 3),
    (∃ t l, exec (.rdvt pt d) s = .next t ∧ Adds (s.updDie fun x => { x with tested := l }) t
      (s.predWrites 2 d (decide ((s.curDie.copy pt.toNat).ph ≠ s.curCtx.waited pt.toNat)))) ∧
    s.waitKind (.rdvt pt d) = none ∧
    ((s.curDie.copy pt.toNat).ph ≠ s.curCtx.waited pt.toNat → s.waitKind (.rdvw pt e) = none) ∧
    (encode (.rdvt pt d)).toNat / 2 ^ 76 % 256 = 0x13

/-- The arrivals of a point that count on the master's die in this cycle, oldest first. -/
def countedNow (s : State) (d : DieId) (pt : Nat) : List (BitVec 9) :=
  (s.die d).msgs.filterMap fun m => match m with
    | .arrive q e at_ => if q = pt ∧ at_ ≤ s.sidc then some e else none
    | _ => none

/-- The master of a point with the arrivals of this cycle counted, before its phase completes. -/
def countedMaster (s : State) (d : DieId) (pt : Nat) : RdvMaster :=
  let r := kget {} pt (s.die d).masters
  { r with arr := r.arr ++ countedNow s d pt }

/-- RDVI_APPLY and ARRIVAL_COUNT on the master's die (R242, R243): a due count sets EXP only where EXP is 0 and the count is not, and
later ones are ignored; every due arrival of every point is counted after those before it, and a phase completes when ARR ≥ EXP ≥ 1:
EXP arrivals go, PH rises by one and bit (PH mod 16) of ERRH says whether one of them was an error; otherwise they are kept. Each die
of the team gets one phase message for each completed point, the master's own for the next cycle, another's no earlier than the link's
latency and at most 4 cycles and the link's queue later, but behind an earlier phase of the point; no other die, and nothing else, changes. PHASE_PROPAGATE: each due phase of a point shows in the die's copy, and an error phase writes VAL, PT and
CAUSE into RDVERR. Messages that are not due stay, and nothing else of the die changes.

RDVW (R18, R22, R245): its hold condition is that the die's copy of PH differs from WP; in exchange it raises
RDV_IN_EXCHANGE; else WP of that point alone rises by one and two cycles later the predicate takes 1 exactly when bit
(WP mod 16) of ERRH, with WP before the increment, is 0; no phase of that point stands as tested any more, and no
older value of far memory is left that would leave out a write that the point has released in the team. RDVT notes a phase that it has shown, in the place of one noted before.
Choices and readings of the model that clauses rest on: DESIGN CHOICE, log 11; DEDUCED, log 77. -/
def Obligations.RendezvousPhases : Prop :=
  (∀ (s : State) (pt : BitVec 5) (d : BitVec 3) (w : BitVec 16), w = s.curCtx.waited pt.toNat →
    (s.waitKind (.rdvw pt d) = none ↔ (s.curDie.copy pt.toNat).ph ≠ w) ∧
    (s.curDie.xch = true → Raises (.rdvw pt d) s .rdvInExchange 0) ∧
    (s.curDie.xch = false → ∃ t u l, exec (.rdvw pt d) s = .next t ∧
      u = { (s.updCtx (fun c => { c with wp := u.curCtx.wp })).updDie (fun x => { x with tested := l }) with olds := u.olds } ∧
      (∀ o : OldRow, 0 < o.from_ → (o ∈ u.olds ↔ o ∈ s.olds ∧
        ∀ w ∈ s.olds, pt.toNat ∈ w.pts → (s.die w.die).team = s.curDie.team → w.from_ < o.from_)) ∧
      (∀ e : TestRec, e ∈ l ↔ e ∈ s.curDie.tested ∧ ¬(e.pos = s.focus.pos ∧ e.strm = s.focus.strm ∧ e.pt = pt.toNat)) ∧
      Adds u t (s.predWrites 2 d (!(s.curDie.copy pt.toNat).errh.getLsbD (w.toNat % 16))) ∧
      u.curCtx.waited pt.toNat = w + 1 ∧ ∀ k, k ≠ pt.toNat → u.curCtx.waited k = s.curCtx.waited k) ∧
    ∃ t, exec (.rdvt pt d) s = .next t ∧
      ∀ e : TestRec, e ∈ t.curDie.tested ↔ (e ∈ s.curDie.tested ∧ ¬(e.pos = s.focus.pos ∧ e.strm = s.focus.strm ∧ e.pt = pt.toNat)) ∨
        ((s.curDie.copy pt.toNat).ph ≠ w ∧ e = { pos := s.focus.pos, strm := s.focus.strm, pt := pt.toNat, at_ := s.sidc })) ∧
  (∀ (s : State) (d : DieId), ∃ t, exec (.rdviApply d) s = .next t ∧ OnlyDie d s t ∧ (t.die d).noRdv = (s.die d).noRdv ∧
    (t.die d).copies = (s.die d).copies ∧ (t.die d).rdverr = (s.die d).rdverr ∧
    (t.die d).msgs = (s.die d).msgs.filter (fun m => !(m.isCount && m.dueAt s.sidc)) ∧
    (∀ pt r, r = kget {} pt (s.die d).masters → (r.exp ≠ 0 → kget {} pt (t.die d).masters = r) ∧
      ∀ n at_, r.exp = 0 → (s.die d).msgs.find? (RdvMsg.sets pt s.sidc) = some (.count pt n at_) →
        kget {} pt (t.die d).masters = { r with exp := n }) ∧
    ∀ pt, (s.die d).msgs.find? (RdvMsg.sets pt s.sidc) = none → kget {} pt (t.die d).masters = (kget {} pt (s.die d).masters : RdvMaster)) ∧
  (∀ (s : State) (d : DieId), kwf ({} : RdvMaster) (s.die d).masters = true → ∃ t, exec (.arrivalCount d) s = .next t ∧
    t = { s with dies := t.dies, ctr := t.ctr } ∧
    (∀ pt r, r = countedMaster s d pt → kget {} pt (t.die d).masters = if 1 ≤ r.exp ∧ r.exp ≤ r.arr.length then r.complete.1 else r) ∧
    (∀ e, e ≠ d → e ∉ s.teamDies d → t.die e = s.die e) ∧
    ∀ e, (t.die e).noRdv = (s.die e).noRdv ∧ (t.die e).copies = (s.die e).copies ∧ (t.die e).rdverr = (s.die e).rdverr ∧
      (e ≠ d → (t.die e).masters = (s.die e).masters) ∧
      (e ∈ s.teamDies d → ∃ l,
        (t.die e).msgs = (s.die e).msgs.filter (fun m => !(e == d && m.isArrive && m.dueAt s.sidc)) ++ l ∧
        (∀ m ∈ l, ∃ pt r at_, r = countedMaster s d pt ∧ 1 ≤ r.exp ∧ r.exp ≤ r.arr.length ∧
          m = .phase pt (r.ph + 1) r.complete.1.errh r.complete.2 at_ ∧ (e = d → at_ = s.sidc + 1) ∧
          (e ≠ d → s.sidc + Config.lattab (linkOf d e) ≤ at_ ∧
            (∀ ph eh k b, .phase pt ph eh k b ∈ (s.die e).msgs → b ≤ at_) ∧
            (at_ ≤ s.sidc + Config.lattab (linkOf d e) + 4 + s.linkWait d e ∨ ∃ ph eh k, .phase pt ph eh k at_ ∈ (s.die e).msgs))) ∧
        ∀ pt r, r = countedMaster s d pt → 1 ≤ r.exp → r.exp ≤ r.arr.length →
          ∃ at_, .phase pt (r.ph + 1) r.complete.1.errh r.complete.2 at_ ∈ l)) ∧
  (∀ r : RdvMaster, 1 ≤ r.exp → r.exp ≤ r.arr.length →
    (RdvMaster.complete r).1.arr.length = r.arr.length - r.exp ∧ (RdvMaster.complete r).1.ph = r.ph + 1 ∧
    (RdvMaster.complete r).1.exp = r.exp ∧
    (∀ k < 16, (RdvMaster.complete r).1.errh.getLsbD k =
      if k = r.ph.toNat % 16 then (r.arr.take r.exp).any (· != 0) else r.errh.getLsbD k) ∧
    ((∀ e ∈ r.arr.take r.exp, e = 0) → (RdvMaster.complete r).2 = 0) ∧
    ∀ ok e bad, r.arr.take r.exp = ok ++ e :: bad → (∀ k ∈ ok, k = 0) → e ≠ 0 → (RdvMaster.complete r).2 = e) ∧
  (∀ (s : State) (d : DieId) (pt at_ : Nat) (e : BitVec 9) (r : RdvMaster), (s.die d).msgs = [.arrive pt e at_] →
    at_ ≤ s.sidc → s.teamDies d = [d] → (s.die d).masters = [(pt, r)] → r.arr.length + 1 = r.exp →
    ∃ t, exec (.arrivalCount d) s = .next t ∧ kget {} pt (t.die d).masters = (RdvMaster.complete { r with arr := r.arr ++ [e] }).1 ∧
      (t.die d).msgs = [.phase pt (r.ph + 1) (RdvMaster.complete { r with arr := r.arr ++ [e] }).1.errh
        (RdvMaster.complete { r with arr := r.arr ++ [e] }).2 (s.sidc + 1)]) ∧
  (∀ (s : State) (d : DieId), ∃ t, exec (.phasePropagate d) s = .next t ∧ OnlyDie d s t ∧ (t.die d).noRdv = (s.die d).noRdv ∧
    (t.die d).masters = (s.die d).masters ∧ (t.die d).msgs = (s.die d).msgs.filter (fun m => !(m.isPhase && m.dueAt s.sidc)) ∧
    ∀ pt, (∀ ph eh e a, .phase pt ph eh e a ∈ (s.die d).msgs → s.sidc < a) → (t.die d).copy pt = (s.die d).copy pt) ∧
  (∀ (s : State) (d : DieId) (pt : Nat) (ph eh : BitVec 16) (e : BitVec 9) (a : Nat), (s.die d).msgs = [.phase pt ph eh e a] →
    a ≤ s.sidc → pt < 24 → ∃ t, exec (.phasePropagate d) s = .next t ∧ (t.die d).copy pt = { ph := ph, errh := eh } ∧
      (e = 0 → (t.die d).rdverr = (s.die d).rdverr) ∧
      (e ≠ 0 → (t.die d).rdverr.toNat = 2 ^ 15 + pt * 256 + e.toNat % 256))

/-- RDVI, RDVA, TRIG, FENCE and CAIRN (R243, R244, R248 to R250, R315): RDVI sends the count in bits [15:0] of its operand to the point's master,
where it applies in this cycle on the master's own die, else no earlier than the link's latency and at most 4 cycles and the link's
queue later, as an arrival does; RDVA, TRIG and FENCE take the
station's requests up to the end of their cycle, and change nothing before it. CAIRN has no effect with tracing off; with it on
the trace store takes a record of SIDC, DCYC, the die, the stream, the station and IMM48, or, full, counts a lost one.

RDVA_ARRIVAL and TRIG_RELEASE on a die (R244, R249): a station's release whose marked writes are all acknowledged makes its
arrival at the point's master, an error arrival with the cause that one of them met, or sends its increment to the base camp;
a release with marks left stays.
Choices and readings of the model that clauses rest on: DESIGN CHOICE, log 11. -/
def Obligations.ReleasesAndMarks : Prop :=
  (∀ (s : State) (pt : BitVec 5) (b : SOp) (h : BitVec 4) (c : Byte) (set : FSet) (scope : FScope) (v : BitVec 48),
    (∃ t at_, exec (.rdvi pt b) s = .next t ∧ t.ctr = s.ctr + 1 ∧
      (t.die (s.masterOf s.focus.die)).msgs =
        (s.die (s.masterOf s.focus.die)).msgs ++ [.count pt.toNat ((s.sop b).toNat % 65536) at_] ∧
      { t with ctr := s.ctr }.setDie (s.masterOf s.focus.die) (t.die (s.masterOf s.focus.die)).noRdv =
        s.setDie (s.masterOf s.focus.die) (s.die (s.masterOf s.focus.die)).noRdv ∧
      (s.masterOf s.focus.die = s.focus.die → at_ = s.sidc) ∧
      (s.masterOf s.focus.die ≠ s.focus.die →
        s.sidc + Config.lattab (linkOf s.focus.die (s.masterOf s.focus.die)) ≤ at_ ∧
        at_ ≤ s.sidc + Config.lattab (linkOf s.focus.die (s.masterOf s.focus.die)) + 4 + s.linkWait s.focus.die (s.masterOf s.focus.die))) ∧
    (∃ t, exec (.rdva pt) s = .next t ∧ Defers s t [.release s.focus.pos (some pt) 0 0]) ∧
    (∃ t, exec (.trig h c) s = .next t ∧ Defers s t [.release s.focus.pos none h c]) ∧
    (∃ t, exec (.fence set scope) s = .next t ∧ Defers s t [.fence s.focus.pos set scope]) ∧
    (s.hub.trcctl.getLsbD 63 = false → NoEffect (.cairn v) s) ∧
    (s.hub.trcctl.getLsbD 63 = true → ∃ t, exec (.cairn v) s = .next t ∧
      { t with hub := { t.hub with trcstore := [], trclost := 0, trcseq := 0 } } =
        { s with hub := { s.hub with trcstore := [], trclost := 0, trcseq := 0 } } ∧
      (s.hub.trcstore.length < 4096 → t.hub.trclost = s.hub.trclost ∧ ∃ r : Four W64, t.hub.trcstore = s.hub.trcstore ++ [r] ∧
        r.x0 = BitVec.ofNat 64 s.sidc ∧ r.x1 = BitVec.ofNat 64 s.curDie.dcyc ∧ r.x2.toNat % 2 ^ 48 = v.toNat ∧
        r.x2.toNat / 2 ^ 53 % 128 = s.focus.pos.val ∧ r.x2.toNat / 2 ^ 60 % 4 = s.focus.strm.idx.val ∧
        r.x2.toNat / 2 ^ 62 = s.focus.die.val) ∧
      (4096 ≤ s.hub.trcstore.length → t.hub.trcstore = s.hub.trcstore ∧ t.hub.trclost = s.hub.trclost + 1))) ∧
  ((∀ (s : State) (d : DieId), (∀ p, ∀ r ∈ ((s.die d).sta p).releases, r.marks ≠ []) →
    exec (.rdvaArrival d) s = .next s ∧ exec (.trigRelease d) s = .next s) ∧
  (∀ (s : State) (d : DieId) (p : Pos) (pt : BitVec 5) (e : Byte),
    (∀ q, ((s.die d).sta q).releases = if q = p then [{ pt := some pt, handle := 0, ctr := 0, marks := [], err := e }] else []) →
    exec (.trigRelease d) s = .next s ∧
    ∃ t u at_, exec (.rdvaArrival d) s = .next t ∧ u = s.setDie d ((s.die d).setSta p { (s.die d).sta p with releases := [] }) ∧
      (t.die (s.masterOf d)).msgs = (s.die (s.masterOf d)).msgs ++ [.arrive pt.toNat (if e = 0 then 0 else 1#1 ++ e) at_] ∧
      (s.masterOf d = d → at_ = s.sidc) ∧
      (s.masterOf d ≠ d → s.sidc + Config.lattab (linkOf d (s.masterOf d)) ≤ at_ ∧
        at_ ≤ s.sidc + Config.lattab (linkOf d (s.masterOf d)) + 4 + s.linkWait d (s.masterOf d)) ∧ t.ctr = s.ctr + 1 ∧
      { t with ctr := s.ctr }.setDie (s.masterOf d) (t.die (s.masterOf d)).noRdv =
        u.setDie (s.masterOf d) (u.die (s.masterOf d)).noRdv) ∧
  (∀ (s : State) (d : DieId) (p : Pos) (h : BitVec 4) (c e : Byte),
    (∀ q, ((s.die d).sta q).releases = if q = p then [{ pt := none, handle := h, ctr := c, marks := [], err := e }] else []) →
    exec (.rdvaArrival d) s = .next s ∧
    ∃ t, exec (.trigRelease d) s = .next t ∧
      t.hub.trigs = s.hub.trigs ++ [{ team := (s.die d).team, handle := h, ctr := c }] ∧
      { t with hub := { t.hub with trigs := s.hub.trigs } } =
        s.setDie d ((s.die d).setSta p { (s.die d).sta p with releases := [] })))
-- ## Banks, buffers and landings (R105, R112 to R121, R125, R128, R129, R135 to R141)

/-- Which rows a bank load or store of `n` register rows works on, and its BANK_RANGE checks (R79, R136): bank in EA bits [17:15],
row in [14:8]; a raw access has 64 elements a row, another one as many as the bank's format; ceil(64 n / elements) rows; the
address has no bit above 17, the register rows stay within the register, the bank rows within the bank, and the rows of an MX
bank do not straddle SROW.

BLD, BLDB, BLDC and BST (R114, R136, R137, R139) with a live register name: within range the word starts one port-A access per bank
row, a load's in the issue cycle and the following ones, a store's one cycle after the register rows that the bank row takes
have been read, and nothing else changes; out of range it raises BANK_RANGE.
Choices and readings of the model that clauses rest on: DESIGN CHOICE, log 9. -/
def Obligations.BankRowsLoadedAndStored : Prop :=
  (∀ (x : Station) (ea : W64) (n vrow : Nat) (raw : Bool) (p : RowPlan), p = rowPlan x ea n vrow raw →
    p.bank.toNat = ea.toNat / 2 ^ 15 % 8 ∧ p.row = ea.toNat / 2 ^ 8 % 128 ∧ p.fmt = kget {} p.bank.toNat x.fmt ∧
    p.raw = (raw || ((mxOf p.fmt.type).isSome && decide (p.fmt.srow.toNat ≤ p.row))) ∧
    p.epr = (if p.raw then 64 else tyEpr p.fmt.type) ∧
    64 * n ≤ p.rows * p.epr ∧ (1 ≤ n → (p.rows - 1) * p.epr < 64 * n) ∧
    (p.ok = true ↔ ea.toNat < 2 ^ 18 ∧ vrow + n ≤ 16 ∧ p.row + p.rows ≤ 128 ∧
      ¬(raw = false ∧ (mxOf p.fmt.type).isSome = true ∧ p.row < p.fmt.srow.toNat ∧ p.fmt.srow.toNat < p.row + p.rows))) ∧
  (∀ (s : State) (nr vrow : BitVec 4) (v ph : BitVec 5) (a : Scal) (roff : BitVec 24) (n : Nat) (ea : W64),
    physOf s.curSta.rotd v = some ph → n = nr.toNat + 1 → ea = s.scal a + roff.signExtend 64 * 256 →
    (∀ (i : Instr) (raw col : Bool) (p : RowPlan), p = rowPlan s.curSta ea n vrow.toNat raw →
      (i, raw, col) ∈ [(.bld nr v a roff vrow, false, false), (.bldb nr v a roff vrow, true, false),
        (.bldc nr v a roff vrow, false, true)] →
      (p.ok = true → ∃ t, exec i s = .next t ∧
        Accesses s t ((List.range p.rows).map fun k => s.access (s.cyc + k) s.focus.pos p.bank (p.row + k) false (.load k))
          [{ parcel := s.focus.parcel, issued := s.cyc, raw := p.raw, col := col, name := v.setWidth 8, phys := ph,
             vrow := vrow.toNat, nr := n, epr := p.epr, fmt := p.fmt, bank := p.bank, row := p.row, got := [] }] []) ∧
      (p.ok = false → Raises i s .bankRange 0)) ∧
    (∀ p : RowPlan, p = rowPlan s.curSta ea n vrow.toNat false →
      (p.ok = true → ∃ t, exec (.bst nr a v roff vrow) s = .next t ∧
        Accesses s t ((List.range p.rows).map fun k =>
            s.access (s.cyc + 1 + min (n - 1) ((k + 1) * p.epr / 64 - 1)) s.focus.pos p.bank (p.row + k) true (.store k)) []
          [{ parcel := s.focus.parcel, issued := s.cyc, phys := ph, vrow := vrow.toNat, nr := n, raw := p.raw, epr := p.epr,
             fmt := p.fmt, bank := p.bank, row := p.row, got := [] }]) ∧
      (p.ok = false → Raises (.bst nr a v roff vrow) s .bankRange 0)))

/-- ALD and AST (R138, R140), and RLD and RST over the remote path (R105, R125): a word address that is a multiple of 8 below 2^18
starts one access of its bank row, ALD's in the issue cycle and AST's in the next; RLD and RST start one access per row, the
first 1 + H cycles after the issue with H the hops of the path, of the station that the address names. Nothing else changes.
Any other address, and rows beyond the register or the bank, raise BANK_RANGE. -/
def Obligations.WordAndRemoteAccess : Prop :=
  ∀ (s : State) (d : BitVec 6) (a b : Scal) (imm : W32) (ea : Nat) (nr vrow : BitVec 4) (v ph : BitVec 5) (n : Nat),
    ea = (s.scal a + imm.signExtend 64).toNat → n = nr.toNat + 1 →
    (ea % 8 = 0 → ea < 2 ^ 18 →
      (∃ t, exec (.ald d a imm) s = .next t ∧ Accesses s t
        [s.access s.cyc s.focus.pos (BitVec.ofNat 3 (ea / 2 ^ 15)) (ea / 2 ^ 8 % 128) false (.ald d (ea % 256))] [] []) ∧
      (∃ t, exec (.ast a b imm) s = .next t ∧ Accesses s t
        [s.access (s.cyc + 1) s.focus.pos (BitVec.ofNat 3 (ea / 2 ^ 15)) (ea / 2 ^ 8 % 128) true (.ast (ea % 256) (s.scal b))]
        [] [])) ∧
    ((ea % 8 ≠ 0 ∨ 2 ^ 18 ≤ ea) → Raises (.ald d a imm) s .bankRange 0 ∧ Raises (.ast a b imm) s .bankRange 0) ∧
    (physOf s.curSta.rotd v = some ph →
      (∀ (q : Pos) (bank : BitVec 3) (row h : Nat), bankForm (s.scal a) = some (q, bank, row) → row + n ≤ 128 →
        vrow.toNat + n ≤ 16 → h = min ((q.val + 128 - s.focus.pos.val) % 128) ((s.focus.pos.val + 128 - q.val) % 128) →
        (∃ t, exec (.rld nr v a vrow) s = .next t ∧ Accesses s t ((List.range n).map fun k =>
          s.access (s.cyc + h + 1 + k) q bank (row + k) false
            (.rld ph (v.setWidth 8) (vrow + BitVec.ofNat 4 k) (s.cyc + 2 * h + 4 + k))) [] []) ∧
        (∃ t, exec (.rst nr a v vrow) s = .next t ∧ Accesses s t ((List.range n).map fun k =>
          s.access (s.cyc + h + 1 + k) q bank (row + k) true (.rst k)) []
          [{ parcel := s.focus.parcel, issued := s.cyc, phys := ph, vrow := vrow.toNat, nr := n, raw := true, epr := 64,
             fmt := {}, bank := bank, row := row, got := [] }])) ∧
      ((∀ r ∈ bankForm (s.scal a), 128 < r.2.2 + n ∨ 16 < vrow.toNat + n) →
        Raises (.rld nr v a vrow) s .bankRange 0 ∧ Raises (.rst nr a v vrow) s .bankRange 0))

/-- BANKFMT, BUFDECL, BUFSET and EDGESET (R116, R118 to R121, R141): a legal format, declaration, setting or pointer takes effect at
the end of the cycle (an edge pointer two cycles later) and nothing else changes; a reserved TYPE, an MX format with SROW 0 or
past its maximum raises BANK_RANGE; a BUFSET of an undeclared buffer, of `.full` on a draining one or of `.empty` on one that a haul
is filling raises BUF_STATE; a pointer with a bit outside [17:8] raises EDGE_RANGE. A withdrawal with another bit set raises
RESERVED_BITS, a declaration whose rows are out of order or overlap another declared buffer of the bank BANK_RANGE, and either, of a
declared buffer that is not empty, BUF_STATE (R118).

The life of a buffer (R119, R120): a write makes an empty one filling, BUFSET.full fills an empty or a filling one; the first read of a
full one makes it draining, each word counts as one read however many rows it reads, and the READS-th word empties it, with no
reads left over; READS = 0 never empties it; BUFSET.empty empties any. At the end of a cycle each buffer has the transition that the
cycle's accesses, BUFSET or BUFDECL make from its state at the start of the cycle, and no other buffer moves.
Choices and readings of the model that clauses rest on: DESIGN CHOICE, log 17, DEDUCED, log 45, DESIGN CHOICE, log 78, DEDUCED, log 80. -/
def Obligations.FormatsBuffersAndEdges : Prop :=
  (∀ (s : State) (bank : BitVec 3) (ty : BitVec 4) (srow : BitVec 7) (imm : W32) (full : Bool) (bd : BitVec 4) (e : BitVec 2) (a : Scal)
    (b : Buf) (w : W64), b = kget {} bd.toNat s.curSta.buf → w = s.scal a + imm.signExtend 64 →
    (((∃ t, tyOf ty = some t ∧ ((mxOf t).isSome = true → 1 ≤ srow.toNat ∧ srow.toNat ≤ srowMax t)) →
        ∃ t, exec (.bankfmt bank ty srow) s = .next t ∧ Defers s t [.bankfmt s.focus.pos bank { ty := ty, srow := srow }]) ∧
      ((∀ t, tyOf ty = some t → (mxOf t).isSome = true ∧ (srow = 0 ∨ srowMax t < srow.toNat)) →
        Raises (.bankfmt bank ty srow) s .bankRange 0)) ∧
    ((declCause s.curSta imm = none → ∃ t, exec (.bufdecl imm) s = .next t ∧ Defers s t [.bufdecl s.focus.pos imm]) ∧
      (∀ c, declCause s.curSta imm = some c → Raises (.bufdecl imm) s c 0 ∧
        c ∈ [Cause.reservedBits, Cause.bufState, Cause.bankRange])) ∧
    ((b.declared = true ∧ (full = true → b.st ≠ 3) ∧ (full = false → b.st = 1 → b.writers = 0) →
        ∃ t, exec (.bufset full bd) s = .next t ∧ Defers s t [.bufset s.focus.pos full bd]) ∧
      ((b.declared = false ∨ full = true ∧ b.st = 3 ∨ full = false ∧ b.st = 1 ∧ b.writers ≠ 0) →
        Raises (.bufset full bd) s .bufState 0)) ∧
    ((w.toNat % 256 = 0 → w.toNat < 2 ^ 18 → ∃ t, exec (.edgeset e a imm) s = .next t ∧
        Adds s t [s.inFlight 2 (edgCode e) (.e e w)]) ∧
      ((w.toNat % 256 ≠ 0 ∨ 2 ^ 18 ≤ w.toNat) → Raises (.edgeset e a imm) s .edgeRange 0))) ∧
  (∀ (x : Station) (v : W32) (n d bank first last lo : Nat) (b : Buf), n = v.toNat / 2 ^ 28 → d = v.toNat / 2 ^ 27 % 2 →
    bank = v.toNat / 2 ^ 24 % 8 → first = v.toNat / 2 ^ 17 % 128 → last = v.toNat / 2 ^ 10 % 128 → lo = v.toNat % 2 ^ 27 →
    b = kget {} n x.buf →
    let busy := b.declared = true ∧ b.st ≠ 0
    let wide := last < first ∨ ∃ e ∈ x.buf, e.1 ≠ n ∧ e.2.declared = true ∧ e.2.bank.toNat = bank ∧ e.2.first.toNat ≤ last ∧
      first ≤ e.2.last.toNat
    (declCause x v = some .reservedBits ↔ d = 0 ∧ lo ≠ 0) ∧ (declCause x v = some .bankRange ↔ d = 1 ∧ wide) ∧
    (declCause x v = some .bufState ↔ busy ∧ (d = 0 → lo = 0) ∧ (d = 1 → ¬wide)) ∧
    (declCause x v = none ↔ ¬busy ∧ (d = 0 → lo = 0) ∧ (d = 1 → ¬wide))) ∧
  (∀ (b : Buf) (l : List (Pos × Strm × Nat)) (n : Nat), n = ((l.filter fun w => !b.seen.contains w).eraseDups).length → l ≠ [] →
    (b.st = 0 → b.written.st = 1) ∧ (b.st ≠ 0 → b.written = b) ∧
    ((b.st = 0 ∨ b.st = 1) → (b.set true).st = 2) ∧ (b.set false).st = 0 ∧ (b.set false).nread = 0 ∧
    (b.st = 2 ∨ b.st = 3 → b.reads = 0 → (b.readBy l).st = 3 ∧ (b.readBy l).nread = b.nread) ∧
    (b.st = 2 ∨ b.st = 3 → b.reads ≠ 0 → b.nread + n < b.reads.toNat →
      (b.readBy l).st = 3 ∧ (b.readBy l).nread = b.nread + n ∧ ∀ w ∈ l, w ∈ (b.readBy l).seen) ∧
    (b.st = 2 ∨ b.st = 3 → b.reads ≠ 0 → b.reads.toNat ≤ b.nread + n → (b.readBy l).st = 0 ∧ (b.readBy l).nread = 0)) ∧
  (∀ (b : Buf) (es : List Eoc) (p : Pos) (full : Bool) (bd : BitVec 4) (v : W32) (k : Nat),
    (b.close [.bufset p full bd]).st = (b.set full).st ∧
    (bit v 27 = false → b.close [.bufdecl p v] = {}) ∧
    (bit v 27 = true → b.declared = false ∨ b.st = 0 ∧ b.writers = 0 → b.close [.bufdecl p v] = declOf v) ∧
    ((∀ e ∈ es, ∃ q w, e = .bufRead q k w) → es ≠ [] →
      (b.st = 2 ∨ b.st = 3 → b.close es = b.readBy (bufReads es)) ∧ (b.st = 0 ∨ b.st = 1 → b.close es = b)) ∧
    ((∀ e ∈ es, (∃ q w, e = .bufRead q k w) ∨ ∃ q, e = .bufWrite q k) → (∃ q, .bufWrite q k ∈ es) → b.close es = b.written)) ∧
  (∀ (d : Die) (es : List Eoc) (p : Pos) (n : Nat), kget {} n ((d.applyBufs es).sta p).buf =
    if ∃ e ∈ es, e.bufKey = some (p, n) then (kget {} n (d.sta p).buf).close (es.filter fun e => e.bufKey == some (p, n))
    else kget {} n (d.sta p).buf)

/-- BANK_PORT_A_ACCESS with one access due in the die's cycle (R114, R119, R125, R137 to R140, R173). A buffer whose state does not
allow it raises BUF_STATE, and nothing is performed. On rows in no declared buffer: an
AST leaves the row, with the eight bytes replaced, to be written at the end of the cycle; an ALD reads its eight bytes as the bank
holds them now and writes them four cycles later. A bank load decodes its row, and writes the register rows whose elements begin in it
four cycles later; a BST leaves the row with the elements of its lanes encoded in place and the other elements as they are. RLD
delivers the whole row, RST writes it, and the row of an array word enters the skew latches. Two accesses of one bank raise BANK_CLASH,
neither is performed, and both stay in the latches. Where none is due no bank row is written. A store in progress reads a bad register
word as 0xFFFF_FFFF and raises UNCORRECTABLE. BLDC delivers its elements by columns.

The elements of a row (R78, R80): a raw row has 64 lanes of 32 bits; any other row the elements of its format, element k in bits
w k to w k + w - 1; f32 as it is, an integer extended to 32 bits, another float converted, and an MX element under the scale of its
block of 32, which stands in the rows from SROW on. A store of an MX row quantizes each block of 32 lanes and writes its elements and
its scale byte, and no other byte of a scale row. -/
def Obligations.BankPortAccess : Prop :=
  (∀ (s : State) (d : DieId), (∀ a ∈ (s.die d).portA, a.at_ ≠ (s.die d).dcyc) → ∃ t, exec (.bankPortAAccess d) s = .next t ∧
    (t.die d).eoc = (s.die d).eoc ∧ (t.die d).portA = (s.die d).portA ∧ ((s.die d).bad = [] → (t.die d).causes = (s.die d).causes) ∧
    (∀ c, c ∈ (t.die d).causes → c ∈ (s.die d).causes ∨ c.cause = .uncorrectable) ∧
    ∀ p b r, ((t.die d).sta p).bankRow b r = ((s.die d).sta p).bankRow b r) ∧
  (∀ (d : Die) (p : Pos) (j : StoreJob) (i : Nat) (r : Row × List Nat) (x : Die), r = d.storeRow p j i →
    (∀ k, k ∈ r.2 ↔ k < 64 ∧ BadPlace.vreg p (64 * (16 * j.phys.toNat + j.vrow + i) + k) ∈ d.bad) ∧
    (∀ k < 64, lane r.1 k = if k ∈ r.2 then 0xFFFFFFFF else lane ((d.sta p).vrow j.phys (j.vrow + i)) k) ∧
    ((d.sta p).stores = [j] → j.issued + i = d.dcyc → i < j.nr → x = d.storesRead d.dcyc (StoreJob.reads d.dcyc) p →
      (x.sta p).stores = [{ j with got := j.got ++ [(i, r.1)] }] ∧
      (r.2 = [] → x.causes = d.causes) ∧ (r.2 ≠ [] → x.causes ≠ d.causes))) ∧
  (∀ (s : State) (d : DieId) (a : PortA) (x y : Station) (row : Row) (now : Nat), (s.die d).portA = [a] → a.at_ = (s.die d).dcyc →
    now = (s.die d).dcyc → x = (s.die d).sta a.pos → y = (s.die d).sta a.by_ → row = x.bankRow a.bank a.row.toNat →
    (s.die d).bad = [] → (∀ e ∈ x.buf, e.2.declared = false) →
    let w (land : Nat) (name : Byte) (g : WTarget) : WriteRec :=
      { strm := a.strm, parcel := a.parcel, issued := a.issued, land := land, name := name, by_ := a.by_, target := g }
    ∃ t, exec (.bankPortAAccess d) s = .next t ∧ (t.die d).portA = [] ∧ (t.die d).causes = (s.die d).causes ∧
    (∀ off v, a.kind = .ast off v → off + 8 ≤ 256 → ∃ r, (t.die d).eoc = (s.die d).eoc ++ [.bankRow a.pos a.bank a.row.toNat r] ∧
      ∀ i < 256, byteOf r i = if off ≤ i ∧ i < off + 8 then byteOf v (i - off) else byteOf row i) ∧
    (∀ n off, a.kind = .ald n off → (t.die d).eoc = (s.die d).eoc ∧ ((t.die d).sta a.by_).writes = y.writes ++
      [w (now + 4) (n.setWidth 8) (.a .l n (fld row (8 * off) 64))]) ∧
    (∀ i (j : LoadJob), a.kind = .load i → y.loads = [j] → j.issued = a.issued → j.col = false →
      (t.die d).eoc = (s.die d).eoc ∧ ((t.die d).sta a.by_).writes = y.writes ++
        ((List.range j.nr).filter fun k => 64 * k / j.epr == i).map fun k => w (now + 4) j.name
          (.v j.phys (BitVec.ofNat 4 (j.vrow + k)) allLanes (rowOfLanes (((decRow x j.bank j.fmt j.raw (j.row + i) row).map
            (·.1)).drop (64 * k - i * j.epr) |>.take 64)))) ∧
    (∀ i (j : LoadJob) (got : Nat → List W32 × BitVec 5) (all : Nat → W32), a.kind = .load i → y.loads = [j] → j.issued = a.issued →
      j.col = true → j.got = (List.range i).map (fun m => (m, got m)) → (i + 1 = (64 * j.nr + j.epr - 1) / j.epr) → 0 < j.epr →
      (∀ e, all e = (if e / j.epr = i then (decRow x j.bank j.fmt j.raw (j.row + i) row).map (·.1)
        else (got (e / j.epr)).1).getD (e % j.epr) 0) →
      (t.die d).eoc = (s.die d).eoc ∧ ((t.die d).sta a.by_).writes = y.writes ++
        (List.range j.nr).map fun k => w (now + 4) j.name (.v j.phys (BitVec.ofNat 4 (j.vrow + k)) allLanes
          (rowOfLanes ((List.range 64).map fun l => all (l * j.nr + k))))) ∧
    (∀ k (j : StoreJob) (got : Nat → Row) (m : Nat), a.kind = .store k → y.stores = [j] → j.issued = a.issued →
      j.got = (List.range m).map (fun i => (i, got i)) → min ((k + 1) * j.epr) (64 * j.nr) ≤ 64 * m → m ≤ j.nr →
      j.raw = true ∨ mxOf j.fmt.type = none → j.epr = (if j.raw then 64 else tyEpr j.fmt.type) →
      ∃ r, (t.die d).eoc = (s.die d).eoc ++ [.bankRow a.pos a.bank a.row.toNat r] ∧
        let width := if j.raw then 32 else tyBits j.fmt.type
        ∀ e < j.epr, elemOf width r e = if k * j.epr + e < 64 * j.nr then
            (let v := lane (got ((k * j.epr + e) / 64)) ((k * j.epr + e) % 64)
             if j.raw then v.toNat else encElem j.fmt.type v % 2 ^ width)
          else elemOf width row e) ∧
    (∀ ph nm i land, a.kind = .rld ph nm i land → (t.die d).eoc = (s.die d).eoc ∧ ((t.die d).sta a.by_).writes = y.writes ++
      [w (now + (land - now)) nm (.v ph i allLanes row)]) ∧
    (∀ i (j : StoreJob) (r : Row), a.kind = .rst i → y.stores = [j] → j.issued = a.issued → (j.got.find? fun e => e.1 == i) = some (i, r) →
      (t.die d).eoc = (s.die d).eoc ++ [.bankRow a.pos a.bank a.row.toNat r]) ∧
    (∀ k i u, a.kind = .feed k i u → (t.die d).eoc = (s.die d).eoc ∧ (t.die d).skew = (s.die d).skew ++
      [{ kind := k, issued := a.issued, pos := a.pos, i := i, data := row, until_ := u }])) ∧
  (∀ (s : State) (d : DieId) (a : PortA), (s.die d).portA = [a] → a.at_ = (s.die d).dcyc → a.checked = false → (s.die d).bad = [] →
    (∃ e ∈ ((s.die d).sta a.pos).bufsOf a.bank ((s.die d).accessRows a),
      if a.wr then e.2.st ≠ 0 ∧ e.2.st ≠ 1 else e.2.st ≠ 2 ∧ e.2.st ≠ 3) →
    ∃ t, exec (.bankPortAAccess d) s = .next t ∧ (t.die d).portA = [] ∧ (t.die d).eoc = (s.die d).eoc ∧
      (t.die d).causes = (s.die d).causes ++ [accessCause .bufState 0 a.by_ a.strm a.parcel] ∧
      ∀ p, ((t.die d).sta p).writes = ((s.die d).sta p).writes) ∧
  (∀ (x : Station) (b : BitVec 3) (f : BankFmt) (row k : Nat) (r : Row) (w v : Nat), w = tyBits f.type →
    v = r.toNat / 2 ^ (w * k) % 2 ^ w →
    (decRow x b f true row r).map (·.1) = (List.range 64).map (lane r) ∧
    (decRow x b f false row r).length = tyEpr f.type ∧ w * tyEpr f.type ≤ 2048 ∧
    (k < tyEpr f.type →
      (f.type = .f32 → (decRow x b f false row r)[k]? = some (BitVec.ofNat 32 v, FpFlags.none)) ∧
      (∀ sg, intTy f.type = some (w, sg) → (decRow x b f false row r)[k]? =
        some (BitVec.ofInt 32 (if sg ∧ 2 ^ (w - 1) ≤ v then (v : Int) - (2 ^ w : Nat) else v), FpFlags.none)) ∧
      (intTy f.type = none → mxOf f.type = none → f.type ≠ .f32 →
        (decRow x b f false row r)[k]? = some ((cvt f.type .f32 .rne false 0 (BitVec.ofNat 32 v)).1, FpFlags.none)) ∧
      (∀ im bpr, mxOf f.type = some (im, bpr) → (decRow x b f false row r)[k]? =
        let c := row * bpr + k / 32
        some (dqnt (byteOf (x.bankRow b (f.srow.toNat + c / 256)) (c % 256)).toNat (signedOf w v) (fimgF im))))) ∧
  (∀ (x : Station) (b : BitVec 3) (f : BankFmt) (row bpr : Nat) (im : Fimg) (vals : List W32) (q : Nat → Nat × List Int × FpFlags),
    mxOf f.type = some (im, bpr) → vals.length ≤ tyEpr f.type → vals.length % 32 = 0 →
    (∀ c, q c = qntBlock (fimgF im) .rne (List.replicate 32 0) ((vals.drop (32 * c)).take 32)) →
    ∃ r l, encRow x b f false row .rne (List.replicate 512 0) vals = (row, r) :: l ∧
      (∀ e < tyEpr f.type, elemOf (tyBits f.type) r e = if e < vals.length then
        ((q (e / 32)).2.1.getD (e % 32) 0 % (2 ^ tyBits f.type : Nat)).toNat else elemOf (tyBits f.type) (x.bankRow b row) e) ∧
      (∀ c < vals.length / 32, ∃ e ∈ l, e.1 = f.srow.toNat + (row * bpr + c) / 256 ∧
        byteOf e.2 ((row * bpr + c) % 256) = BitVec.ofNat 8 (q c).1) ∧
      ∀ e ∈ l, ∀ i < 256, (∀ c < vals.length / 32, (row * bpr + c) % 256 = i → e.1 ≠ f.srow.toNat + (row * bpr + c) / 256) →
        byteOf e.2 i = byteOf (x.bankRow b e.1) i) ∧
  (∀ (s : State) (d : DieId) (a b : PortA), (s.die d).portA = [a, b] → a.at_ = (s.die d).dcyc → b.at_ = (s.die d).dcyc →
    a.pos = b.pos → a.bank = b.bank → (s.die d).bad = [] → ∃ t c, exec (.bankPortAAccess d) s = .next t ∧ (t.die d).portA = [] ∧
    (t.die d).eoc = (s.die d).eoc ∧ (t.die d).latched = (s.die d).latched ++ [a, b] ∧
    (t.die d).causes = (s.die d).causes ++ [c] ∧ c.cause = .bankClash ∧
    (b.issued < a.issued → c.pos = a.by_ ∧ c.strm = a.strm ∧ c.parcel = a.parcel) ∧
    (a.issued < b.issued → c.pos = b.by_ ∧ c.strm = b.strm ∧ c.parcel = b.parcel))


/-- WRITE_LAND and EDGE_POINTER_ADVANCE (R128, R129, R173) on a die where one write of one live unit lands in the cycle: it takes
effect, and nothing else changes. Where none lands, and where no FPCTL event comes, nothing changes.

What a landing can raise (R74, R129, R133). Two writes of one unit in one cycle: WRITE_CLASH names the word issued later, or the first
in the order C, L, S, X; neither write takes effect, both stay in flight, and nothing else changes. A write whose register has
become dead since the word issued, live again or not, is discarded with OUT_OF_ALLOTMENT, subcode 2. The events of an X word whose traps are enabled raise their cause, and
FPCTL takes the events of every word at the end of the cycle.

The end of a cycle (R131, R132, R139, R187, R244, R248, R251): each of a cycle's effects that waits for it (a bank row, a format, the
window, AMODE, RSEC, FPCTL events, a FENCE, an RDVA or TRIG, a rotation, a ROTSET, a CSRW) is made once, and nothing else changes; of two
CSRWs of one register the later position and stream stands. An RDVA also names its point as the releaser of the writes it marks that
have been performed, and a FENCE orders the station's reads behind its own, in the model's note of older values.
Choices and readings of the model that clauses rest on: DEDUCED, log 14, DEDUCED, log 77. -/
def Obligations.WritesLand : Prop :=
  ((∀ (s : State) (d : DieId), (∀ q, ((s.die d).sta q).quietAt (s.die d).dcyc ∧ ((s.die d).sta q).calmAt (s.die d).dcyc) →
    exec (.writeLand d) s = .next s ∧ exec (.edgePointerAdvance d) s = .next s) ∧
  (∀ (s : State) (d : DieId) (p : Pos) (w : WriteRec) (rest : List WriteRec), ((s.die d).sta p).writes = w :: rest →
    w.land = (s.die d).dcyc → (∀ v ∈ rest, v.land ≠ (s.die d).dcyc) → (∀ q, q ≠ p → ((s.die d).sta q).quietAt (s.die d).dcyc) →
    (∀ q, ((s.die d).sta q).calmAt (s.die d).dcyc) → (s.die d).bad = [] →
    ((∀ ph r l v, w.target = .v ph r l v → ph.toNat < 16 + ((s.die d).sta p).rotd.d ∧
        kget 0 ph.toNat ((s.die d).sta p).died ≤ w.issued) →
      ∃ y, exec (.writeLand d) s = .next (s.setDie d ((s.die d).setSta p y)) ∧
        Landed { (s.die d).sta p with writes := rest } y w.target) ∧
    (∀ n v, w.target = .e n v → w.strm = .c →
      ∃ y, exec (.edgePointerAdvance d) s = .next (s.setDie d ((s.die d).setSta p y)) ∧
        Landed { (s.die d).sta p with writes := rest } y w.target))) ∧
  (∀ (s : State) (d : DieId) (p : Pos), (∀ q, q ≠ p → ((s.die d).sta q).quietAt (s.die d).dcyc) →
    (∀ q, q ≠ p → ((s.die d).sta q).calmAt (s.die d).dcyc) → (s.die d).bad = [] →
    (∀ a b : WriteRec, ((s.die d).sta p).writes = [a, b] → a.land = (s.die d).dcyc → b.land = (s.die d).dcyc →
      ((s.die d).sta p).calmAt (s.die d).dcyc → a.target.sameUnit b.target = true → a.target.null = false →
      (∀ ph r l v, a.target = .v ph r l v → ph.toNat < 16 + ((s.die d).sta p).rotd.d ∧
        kget 0 ph.toNat ((s.die d).sta p).died ≤ a.issued ∧ kget 0 ph.toNat ((s.die d).sta p).died ≤ b.issued) →
      ∃ n : WriteRec, (n = a ∨ n = b) ∧ (b.issued < a.issued → n = a) ∧ (a.issued < b.issued → n = b) ∧
        (a.issued = b.issued → n.strm.idx ≤ a.strm.idx ∧ n.strm.idx ≤ b.strm.idx) ∧
        exec (.writeLand d) s = .next (s.setDie d
          { s.die d with causes := (s.die d).causes ++ [accessCause .writeClash 0 n.by_ n.strm n.parcel] })) ∧
    (∀ (w : WriteRec) (ph : BitVec 5) (r : BitVec 4) (l : BitVec 64) (v : Row), ((s.die d).sta p).writes = [w] →
      w.land = (s.die d).dcyc → w.target = .v ph r l v →
      (16 + ((s.die d).sta p).rotd.d ≤ ph.toNat ∨ w.issued < kget 0 ph.toNat ((s.die d).sta p).died) →
      ((s.die d).sta p).calmAt (s.die d).dcyc →
      exec (.writeLand d) s = .next (s.setDie d (((s.die d).setSta p { (s.die d).sta p with writes := [] }).raise
        (accessCause .outOfAllotment 2 w.by_ w.strm w.parcel)))) ∧
    (∀ f : FlagRec, ((s.die d).sta p).writes = [] → ((s.die d).sta p).flags = [f] → f.land = (s.die d).dcyc →
      ∃ t, exec (.writeLand d) s = .next t ∧ ((t.die d).sta p).flags = [] ∧
        (t.die d).eoc = (s.die d).eoc ++ [.flags p f.bits] ∧
        let on (k : Nat) : Bool := f.strm == .x && f.bits.getLsbD k && ((s.die d).sta p).fpctl.getLsbD (8 + k)
        (t.die d).causes.map (·.cause) = (s.die d).causes.map (·.cause) ++
          (if on 0 then [.vfpInvalid] else if on 1 then [.vfpOverflow] else if on 2 then [.vfpDivzero] else []))) ∧
  (∀ (s : State) (d : DieId) (x : Die) (p : Pos), x = s.die d → x.arrEvents = [] → x.nanAdd = 0 → x.nancnt < 2 ^ 32 →
    let y (t : State) : Station := (t.die d).sta p
    let z : Station := x.sta p
    let one (e : Eoc) (f : State → Prop) : Prop := x.eoc = [e] → ∃ t, s.applyEoc d = t ∧ (t.die d).eoc = [] ∧ f t ∧
      ((∀ q set scope, e ≠ .fence q set scope) → (∀ q pt h c, e ≠ .release q (some pt) h c) → t.olds = s.olds) ∧
      t = { s.bump.setDie d
        { x.setSta p (y t) with eoc := [], window := (t.die d).window, fimg := (t.die d).fimg, gnan := (t.die d).gnan } with olds := t.olds }
    let still (t : State) : Prop := (t.die d).window = x.window ∧ (t.die d).fimg = x.fimg ∧ (t.die d).gnan = x.gnan
    (x.eoc = [] → s.applyEoc d = s.bump) ∧
    (∀ (b : BitVec 3) (f : BankFmt), one (.bankfmt p b f) fun t => still t ∧ y t = { z with fmt := (y t).fmt } ∧
      ∀ k, kget {} k (y t).fmt = if k = b.toNat then f else kget {} k z.fmt) ∧
    (∀ (b : BitVec 3) (r : Nat) (v : Row), one (.bankRow p b r v) fun t => still t ∧ y t = { z with bank := (y t).bank } ∧
      ∀ k, kget 0 k (y t).bank = if k = 128 * b.toNat + r then v else kget 0 k z.bank) ∧
    (∀ (st : Strm) (v : Byte) (pre : Bool), one (.rsec p st v pre) fun t => still t ∧
      y t = z.setCtx st { z.ctxOf st with rsec := v }) ∧
    (∀ (set : FSet) (scope : FScope), one (.fence p set scope) fun t => still t ∧
      y t = { z with fences := z.fences ++ [{ upto := (s.fs d).seq, set := set, scope := scope }] } ∧
      ((∀ o ∈ s.olds, 0 < o.from_) → t.olds = s.olds.map fun o => if set ≠ .ld ∧ (∃ w ∈ s.olds, w.die = d ∧ w.pos = p ∧
        (w.haul = false ∨ scope = .team) ∧ o.from_ ≤ w.from_) then { o with shut := (d, p) :: o.shut } else o)) ∧
    (∀ (pt : Option (BitVec 5)) (h : BitVec 4) (c : Byte), one (.release p pt h c) fun t => still t ∧
      y t = { z with releases := z.releases ++ [{ pt := pt, handle := h, ctr := c, marks := (s.fs d).writesOut p, err := 0 }] } ∧
      ∀ q, pt = some q → t.olds = s.olds.map fun o => if o.die = d ∧ o.pos = p ∧ o.haul = false ∧ o.seq ∈ (s.fs d).writesOut p then
        { o with pts := q.toNat :: o.pts } else o) ∧
    (∀ b : BitVec 5, one (.flags p b) fun t => still t ∧ y t = { z with fpctl := z.fpctl ||| b.setWidth 64 }) ∧
    (one (.rotate p) fun t => still t ∧ y t = { z with rotd := z.rotd.rotate }) ∧
    (∀ n, one (.rotset p n) fun t => still t ∧ y t = z.rotset n x.dcyc s.ctr) ∧
    (∀ w, one (.window w) fun t => (t.die d).window = w ∧ (t.die d).fimg = x.fimg ∧ (t.die d).gnan = x.gnan ∧ y t = z) ∧
    (∀ f g, one (.amode f g) fun t => (t.die d).window = x.window ∧ (t.die d).fimg = f ∧ (t.die d).gnan = g ∧ y t = z) ∧
    (∀ (n : BitVec 12) (v : W64), x.eoc = [.csr p n v] →
      s.applyEoc d = (s.bump.setDie d { x with eoc := [] }).csrWrite d p n.toNat v) ∧
    (∀ (q : Pos) (n : BitVec 12) (v w : W64), keptCsrs [.csr p n v, .csr q n w] =
      if [0x020, 0x021, 0x022, 0x040, 0x041].contains n ∧ p ≠ q then [(p, n, v), (q, n, w)] else [(q, n, w)]))

/-- A word that names a dead vector register raises OUT_OF_ALLOTMENT at issue and has no other effect (R133): subcode 2 for a name that
was live before the last ROTSET, 1 for another. The check comes before that of the pipe; with live names a word of the vector
pipe that issues while the pipe is taken raises PIPE_CLASH (R146). -/
def Obligations.DeadNamesAndPipeClashes : Prop :=
  ∀ (s : State) (n l : BitVec 5) (ty : Ty) (rnd : Rnd) (sat col half : Bool) (m : BitVec 3) (op : RedOp) (w : Wid) (fmt : Fimg)
    (b : VOp) (x : Scal) (y : SOp) (nr row : BitVec 4) (roff : BitVec 24) (nw : BitVec 6) (off : BitVec 22) (q : BitVec 3)
    (k : BitVec 12) (hops : BitVec 7) (c : Cond) (sub : Byte), (physOf s.curSta.rotd l).isSome = true →
    (physOf s.curSta.rotd n = none → sub = (if n.toNat < 16 + s.curSta.rotd.pd then 2 else 1) →
      (∀ i ∈ [.bld nr n x roff row, .bldb nr n x roff row, .bldc nr n x roff row, .bst nr x n roff row, .rld nr n x row,
          .rst nr x n row, .fqpop n q, .fst x n row nw off, .rdrv row n hops row, .rtap n row row, .csrr (.v n) k, .csrw (.v n) k,
          .acrd sat rnd col n half half row, .acwr col n half row, .vsplat ty m n y, .vidx col n, .vcmp ty m c m n b,
          .vsel m l l (.r n), .vfma rnd m l l b n, .vqnt fmt rnd col l l n, .vsincos m l l n],
        s.operandLive b → Raises i s .outOfAllotment sub) ∧
      (∀ i ∈ pipeWords ty rnd sat col m op w fmt n l l b, Raises i s .outOfAllotment sub) ∧
      (∀ i ∈ pipeWords ty rnd sat col m op w fmt l n l b, s.operandLive b → Raises i s .outOfAllotment sub)) ∧
    (s.cyc < s.curSta.pipeFree → s.operandLive b →
      (∀ i ∈ pipeWords ty rnd sat col m op w fmt l l l b, Raises i s .pipeClash 0) ∧
      ∀ i ∈ [.vsplat ty m l y, .vidx col l, .vcmp ty m c m l b, .mop nr m m m], Raises i s .pipeClash 0)

-- ## Vector words (R143 to R166)

/-- VADD, VSUB, VMUL, VFMA, VMIN, VMAX, VABS and VNEG (R144, R145, R148) with live names and a free pipe: each element that the mask
selects takes its result, floating-point forms with their events and one draw per element under `.rsr`, integer forms modulo 2^32
or clamped; the word takes the pipe for its occupancy and lands with its latency; nothing else changes. -/
def Obligations.VectorArithmetic : Prop :=
  (∀ r : Int, (intResult true false r).toInt % 2 ^ 32 = r % 2 ^ 32 ∧ (intResult false false r).toInt % 2 ^ 32 = r % 2 ^ 32 ∧
    (intResult true true r).toInt = max (-2 ^ 31) (min (2 ^ 31 - 1) r) ∧
    ((intResult false true r).toNat : Int) = max 0 (min (2 ^ 32 - 1) r)) ∧
  ∀ (s : State) (rnd : Rnd) (sat : Bool) (q : BitVec 3) (d a c : BitVec 5) (b : VOp) (m : MaskReg) (x y z : Nat → W32),
    s.pipeReady → (physOf s.curSta.rotd d).isSome = true → (physOf s.curSta.rotd a).isSome = true →
    (physOf s.curSta.rotd c).isSome = true → s.operandLive b → m = s.curSta.mask q → x = s.elem a → y = s.operand b → z = s.elem c →
    ElementResult (.vadd .f32 rnd sat q d a b) s 5 2 d m (rnd == .rsr) (fun k n => fAdd rnd n (x k) (y k)) ∧
    ElementResult (.vsub .f32 rnd sat q d a b) s 5 2 d m (rnd == .rsr) (fun k n => fSub rnd n (x k) (y k)) ∧
    ElementResult (.vmul .f32 rnd sat q d a b) s 5 2 d m (rnd == .rsr) (fun k n => fMul rnd n (x k) (y k)) ∧
    ElementResult (.vfma rnd q d a b c) s 6 2 d m (rnd == .rsr) (fun k n => fFma rnd n (x k) (y k) (z k)) ∧
    ElementResult (.vadd .i32 rnd sat q d a b) s 5 2 d m false (fun k _ => quiet (intResult true sat ((x k).toInt + (y k).toInt))) ∧
    ElementResult (.vsub .i32 rnd sat q d a b) s 5 2 d m false (fun k _ => quiet (intResult true sat ((x k).toInt - (y k).toInt))) ∧
    ElementResult (.vmul .i32 rnd sat q d a b) s 5 2 d m false (fun k _ => quiet (intResult true sat ((x k).toInt * (y k).toInt))) ∧
    ElementResult (.vadd .n32 rnd sat q d a b) s 5 2 d m false (fun k _ => quiet (intResult false sat ((x k).toNat + (y k).toNat))) ∧
    ElementResult (.vsub .n32 rnd sat q d a b) s 5 2 d m false (fun k _ => quiet (intResult false sat ((x k).toNat - (y k).toNat))) ∧
    ElementResult (.vmul .n32 rnd sat q d a b) s 5 2 d m false (fun k _ => quiet (intResult false sat ((x k).toNat * (y k).toNat))) ∧
    ElementResult (.vmin .f32 q d a b) s 5 2 d m false (fun k _ => quiet (fMinMax false (x k) (y k))) ∧
    ElementResult (.vmax .f32 q d a b) s 5 2 d m false (fun k _ => quiet (fMinMax true (x k) (y k))) ∧
    ElementResult (.vmin .i32 q d a b) s 5 2 d m false (fun k _ => quiet (BitVec.ofInt 32 (min (x k).toInt (y k).toInt))) ∧
    ElementResult (.vmax .i32 q d a b) s 5 2 d m false (fun k _ => quiet (BitVec.ofInt 32 (max (x k).toInt (y k).toInt))) ∧
    ElementResult (.vmin .n32 q d a b) s 5 2 d m false (fun k _ => quiet (BitVec.ofNat 32 (min (x k).toNat (y k).toNat))) ∧
    ElementResult (.vmax .n32 q d a b) s 5 2 d m false (fun k _ => quiet (BitVec.ofNat 32 (max (x k).toNat (y k).toNat))) ∧
    ElementResult (.vabs .f32 sat q d a) s 5 2 d m false (fun k _ => quiet (x k &&& 0x7FFFFFFF)) ∧
    ElementResult (.vneg .f32 sat q d a) s 5 2 d m false (fun k _ => quiet (x k ^^^ 0x80000000)) ∧
    ElementResult (.vabs .i32 sat q d a) s 5 2 d m false (fun k _ => quiet (intResult true sat (max (x k).toInt (-(x k).toInt)))) ∧
    ElementResult (.vneg .i32 sat q d a) s 5 2 d m false (fun k _ => quiet (intResult true sat (-(x k).toInt)))

/-- VAND, VOR, VXOR, VSHL, VSHR, VSRA, VMOV, VSPLAT, VIDX, VFCLASS, VDROP, and VSEL, which writes every element (R149 to R153, R166): a
shift by 32 or more leaves no bit, or the sign in every bit; VFCLASS sets the one bit of the value's class: from −∞ and the negative
normals, subnormals and zero (0 to 3) to +0 and the positive subnormals, normals and +∞ (4 to 7), and NaN with bit 22 clear or set (8,
9); VDROP draws for each
selected element unless NOISE is off, and drops those whose noise is below b. -/
def Obligations.VectorBitsMovesAndClasses : Prop :=
  ∀ (s : State) (ty : Ty) (q : BitVec 3) (d a : BitVec 5) (b : VOp) (e : SOp) (m : MaskReg) (x y : Nat → W32),
    s.pipeReady → (physOf s.curSta.rotd d).isSome = true → (physOf s.curSta.rotd a).isSome = true → s.operandLive b →
    m = s.curSta.mask q → x = s.elem a → y = s.operand b →
    ElementResult (.vand q d a b) s 5 2 d m false (fun k _ => quiet (x k &&& y k)) ∧
    ElementResult (.vor q d a b) s 5 2 d m false (fun k _ => quiet (x k ||| y k)) ∧
    ElementResult (.vxor q d a b) s 5 2 d m false (fun k _ => quiet (x k ^^^ y k)) ∧
    ElementResult (.vshl q d a b) s 5 2 d m false (fun k _ => quiet (BitVec.ofNat 32 ((x k).toNat * 2 ^ (y k).toNat))) ∧
    ElementResult (.vshr q d a b) s 5 2 d m false (fun k _ => quiet (BitVec.ofNat 32 ((x k).toNat / 2 ^ (y k).toNat))) ∧
    ElementResult (.vsra q d a b) s 5 2 d m false (fun k _ => quiet (BitVec.ofInt 32 ((x k).toInt / 2 ^ (y k).toNat))) ∧
    ElementResult (.vmov q d a) s 5 2 d m false (fun k _ => quiet (x k)) ∧
    ElementResult (.vsplat ty q d e) s 5 2 d m false (fun _ _ => quiet ((s.sop e).setWidth 32)) ∧
    ElementResult (.vidx false d) s 5 2 d (BitVec.allOnes 1024) false (fun k _ => quiet (BitVec.ofNat 32 (k % 64))) ∧
    ElementResult (.vidx true d) s 5 2 d (BitVec.allOnes 1024) false (fun k _ => quiet (BitVec.ofNat 32 (k / 64))) ∧
    ElementResult (.vsel q d a b) s 5 2 d (BitVec.allOnes 1024) false (fun k _ => quiet (if m.getLsbD k then x k else y k)) ∧
    ElementResult (.vfclass q d a) s 5 2 d m false (fun k _ => quiet (BitVec.ofNat 32 (2 ^ fclass (x k)))) ∧
    ElementResult (.vdrop q d a b) s 5 2 d m (s.curSta.noise.mode != 0)
      (fun k n => quiet (if s.curSta.noise.mode ≠ 0 ∧ n < (y k).toNat % 2 ^ 16 then 0 else x k)) ∧
    (∀ (v : W32) (mag : Nat), mag = v.toNat % 2 ^ 31 → fclass v =
      if 0x7F800000 < mag then (if mag / 2 ^ 22 % 2 = 1 then 9 else 8)
      else if v.getLsbD 31 then (if mag = 0x7F800000 then 0 else if 0x800000 ≤ mag then 1 else if 0 < mag then 2 else 3)
      else if mag = 0x7F800000 then 7 else if 0x800000 ≤ mag then 6 else if 0 < mag then 5 else 4)

/-- VCMP and MOP (R149, R152): VCMP writes, under its mask, the comparison of each element into mask d; MOP writes every bit from its
truth table, whose bit a + 2b is the result for bits a and b; m0 discards. -/
def Obligations.MaskWords : Prop :=
  ∀ (s : State) (q d e f : BitVec 3) (a : BitVec 5) (b : VOp) (c : Cond) (tt : BitVec 4) (m : MaskReg) (x y : Nat → W32),
    s.pipeReady → (physOf s.curSta.rotd a).isSome = true → s.operandLive b → m = s.curSta.mask q → x = s.elem a → y = s.operand b →
    MaskResult (.vcmp .f32 q c d a b) s d m (fun k => fCond c (x k) (y k)) ∧
    MaskResult (.vcmp .i32 q c d a b) s d m (fun k => iCond true c (x k) (y k)) ∧
    MaskResult (.vcmp .n32 q c d a b) s d m (fun k => iCond false c (x k) (y k)) ∧
    MaskResult (.mop tt d e f) s d (BitVec.allOnes 1024) (fun k =>
      tt.getLsbD (((s.curSta.mask e).getLsbD k).toNat + 2 * ((s.curSta.mask f).getLsbD k).toNat))

/-- VCVT and VRND (R75, R77, R154, R155), VDQNT and VQNT (R156, R157), VPACK and VUNPK (R158): VPACK puts the low bits of the elements
side by side from bit 0 of the register on, with zeros above, and VUNPK takes them apart again, sign-extended; VQNT writes both
registers, every element from its block of 32 along the axis.
Choices and readings of the model that clauses rest on: DEDUCED, log 43, DESIGN CHOICE, log 76. -/
def Obligations.VectorConversions : Prop :=
  ∀ (s : State) (src dst ty : Ty) (rnd : Rnd) (sat col : Bool) (q : BitVec 3) (fmt : Fimg) (w : Wid) (d a c : BitVec 5) (m : MaskReg)
    (x z : Nat → W32) (all : MaskReg), s.pipeReady → (physOf s.curSta.rotd d).isSome = true →
    (physOf s.curSta.rotd a).isSome = true → (physOf s.curSta.rotd c).isSome = true → m = s.curSta.mask q → x = s.elem a →
    z = s.elem c → all = BitVec.allOnes 1024 →
    ElementResult (.vcvt src dst rnd sat d a) s 7 2 d all (rnd == .rsr && cvtDraws src dst) (fun k n => cvt src dst rnd sat n (x k)) ∧
    ElementResult (.vrnd ty rnd sat q d a) s 5 2 d m (rnd == .rsr)
      (fun k n => let r := cvt .f32 ty rnd sat n (x k); ((cvt ty .f32 .rne false 0 r.1).1, r.2)) ∧
    ElementResult (.vdqnt fmt col d a c) s 7 2 d all false (fun e _ =>
      let bits := match fmt with | .mx8 => 8 | .mx6 => 6 | .mx4 => 4
      dqnt ((z (blockPos col (blockOf col e).1 0)).toNat % 256)
        (((x e).setWidth bits).toInt) (fimgF fmt)) ∧
    ElementResult (.vpack w d a) s 7 2 d all false (fun k _ => quiet (BitVec.ofNat 32
      ((List.range 32).map fun i =>
        let e := (32 * k + i) / widBits w
        if e < 1024 ∧ (x e).getLsbD ((32 * k + i) % widBits w) then 2 ^ i else 0).sum)) ∧
    ElementResult (.vunpk w d a) s 7 2 d all false (fun k _ => quiet (BitVec.ofInt 32 (BitVec.ofNat (widBits w)
      ((List.range (widBits w)).map fun i =>
        let e := widBits w * k + i
        if (x (e / 32)).getLsbD (e % 32) then 2 ^ i else 0).sum).toInt)) ∧
    (∃ t, exec (.vqnt fmt rnd col d a c) s = .next t ∧
      let draw := rnd == .rsr
      let block (i : Nat) : Nat × List Int × FpFlags :=
        qntBlock (fimgF fmt) rnd ((List.range 32).map fun k => s.noiseAt draw all (blockPos col i k))
          ((List.range 32).map fun k => x (blockPos col i k))
      Effect s t
        (s.vecWrites 12 d all (fun e => BitVec.ofInt 32 ((block (blockOf col e).1).2.1.getD (blockOf col e).2 0)) ++
          s.vecWrites 12 c all (fun e => BitVec.ofNat 32 (block (blockOf col e).1).1))
        (s.flagWrites 12 (orFlags ((List.range 32).map fun i => (block i).2.2))) (s.cyc + 4) (s.noiseAfter draw all)) ∧
    (∀ e < 1024, (blockOf col e).1 < 32 ∧ (blockOf col e).2 < 32 ∧ blockPos col (blockOf col e).1 (blockOf col e).2 = e)

/-- VROTR, VROTC, VBCR, VBCC (R159) and VTRN (R160): each selected element (i, j) takes the element that the word's rule names, by the
amount in column 0 of its row or in row 0 of its column, or the transposed element of its 16 × 16 tile.

VREDR and VREDC (R161): every element of a row, or of a column, takes the line's result; the first conjunct says that without noise
a line's result is the tree of R161 over the elements that take part, the second and the third that the lines are reduced in
ascending order with the draws of R161, that a line in which none takes part gives the identity, and that nothing else changes. -/
def Obligations.MovementAndReductions : Prop :=
  (∀ (s : State) (q : BitVec 3) (d a : BitVec 5) (b : VOp) (m : MaskReg) (x y : Nat → W32), s.pipeReady →
    (physOf s.curSta.rotd d).isSome = true → (physOf s.curSta.rotd a).isSome = true → s.operandLive b → m = s.curSta.mask q →
    x = s.elem a → y = s.operand b →
    let put (i : Instr) (lat pipe : Nat) (f : Nat → Nat → Nat × Nat) : Prop :=
      ElementResult i s lat pipe d m false fun k _ => quiet (x (64 * (f (k / 64) (k % 64)).1 + (f (k / 64) (k % 64)).2))
    put (.vrotr q d a b) 5 2 (fun i j => (i, (j + 64 - (y (64 * i)).toNat % 64) % 64)) ∧
    put (.vrotc q d a b) 8 4 (fun i j => ((i + 16 - (y j).toNat % 16) % 16, j)) ∧
    put (.vbcr q d a b) 5 2 (fun i _ => (i, (y (64 * i)).toNat % 64)) ∧
    put (.vbcc q d a b) 8 4 (fun _ j => ((y j).toNat % 16, j)) ∧
    put (.vtrn q d a) 10 4 (fun i j => (j % 16, 16 * (j / 16) + i))) ∧
  ((∀ (f : W32 → W32 → W32) (levels : Nat) (l : List (Option W32)) (n : Noise), l.length = 2 ^ levels →
    redLine (fun _ x y => (f x y, FpFlags.none)) false levels l n FpFlags.none = ([treeOf f levels fun k => l.getD k none], n, FpFlags.none)) ∧
  ∀ (s : State) (op : RedOp) (ty : Ty) (rnd : Rnd) (q : BitVec 3) (d a : BitVec 5) (m : MaskReg) (x : Nat → W32), s.pipeReady →
    (physOf s.curSta.rotd d).isSome = true → (physOf s.curSta.rotd a).isSome = true → m = s.curSta.mask q → x = s.elem a →
    let draw := op == .add && (ty == .f32 && rnd == .rsr)
    let part (k : Nat) : Option W32 := if m.getLsbD k then some (x k) else none
    let rows := redLines (redOp op ty rnd) draw 6 ((List.range 16).map fun i => (List.range 64).map fun j => part (64 * i + j))
      s.curSta.noise FpFlags.none
    let cols := redLines (redOp op ty rnd) draw 4 ((List.range 64).map fun j => (List.range 16).map fun i => part (64 * i + j))
      s.curSta.noise FpFlags.none
    (∃ t, exec (.vredr op ty rnd q d a) s = .next t ∧
      Effect s t (s.vecWrites 9 d (BitVec.allOnes 1024) fun k => (rows.1.getD (k / 64) none).getD (redIdentity op ty))
        (s.flagWrites 9 rows.2.2) (s.cyc + 2) rows.2.1) ∧
    ∃ t, exec (.vredc op ty rnd q d a) s = .next t ∧
      Effect s t (s.vecWrites 12 d (BitVec.allOnes 1024) fun k => (cols.1.getD (k % 64) none).getD (redIdentity op ty))
        (s.flagWrites 12 cols.2.2) (s.cyc + 4) cols.2.1)

/-- VEXP2, VLOG2, VRCP, VRSQ, VTANH and VSINCOS (R162, R163): each selected element takes the unit's function of it (how
the model computes the irrational ones is PRESUMED, log 12), VSINCOS the sine into d and the cosine into c. The table of R163: the operands 0 and ∞ of either sign and NaN; a subnormal as the zero
of its sign; a negative finite operand of VLOG2 and VRSQ gives NaN with NV; 2^n at an integer, ∞ with OF from 128 on; the sine and the
cosine at an integer and at an integer and a half; and log2 and the reciprocal of a power of two, exact. -/
def Obligations.SpecialFunctionWords : Prop :=
  ∀ (s : State) (q : BitVec 3) (d a c : BitVec 5) (m : MaskReg) (x : Nat → W32), s.pipeReady →
    (physOf s.curSta.rotd d).isSome = true → (physOf s.curSta.rotd a).isSome = true → (physOf s.curSta.rotd c).isSome = true →
    m = s.curSta.mask q → x = s.elem a →
    (∀ i op, (i, op) ∈ [(.vexp2 q d a, .exp2), (.vlog2 q d a, .log2), (.vrcp q d a, .rcp), (.vrsq q d a, .rsq), (.vtanh q d a, .tanh)] →
      ElementResult i s 14 8 d m false fun k _ => sfu op (x k)) ∧
    (∃ t, exec (.vsincos q d a c) s = .next t ∧
      Effect s t ((s.vecWrites 14 d m fun k => (sfu .sin (x k)).1) ++ s.vecWrites 14 c m fun k => (sfu .cos (x k)).1)
        ((s.flagWrites 14 (orFlags ((selected m).map fun k => (sfu .sin (x k)).2))) ++
          s.flagWrites 14 (orFlags ((selected m).map fun k => (sfu .cos (x k)).2))) (s.cyc + 8) s.curSta.noise) ∧
    (∀ op v r dz nv, (op, v, r, dz, nv) ∈ sfuSpecials → sfu op v = (r, { dz := dz, nv := nv })) ∧
    (∀ op v, readF32 v = .nan → sfu op v = (0x7FC00000, FpFlags.none)) ∧
    (∀ op v, v.toNat / 2 ^ 23 % 256 = 0 → sfu op v = sfu op (if v.getLsbD 31 then 0x80000000 else 0)) ∧
    ∀ v n w e, readF32 v = .num n w e → 2 ^ 23 ≤ w →
      (n = true → ∀ op, op = .log2 ∨ op = .rsq → sfu op v = (0x7FC00000, { nv := true })) ∧
      (w = 2 ^ 23 → sfu .rcp v = round32 .rne 0 n 1 (-(e + 23)) ∧
        (n = false → sfu .log2 v = round32 .rne 0 (decide (e + 23 < 0)) (e + 23).natAbs 0)) ∧
      ∀ K : Int,
        (inUnits n w e (min e 0) = K * 2 ^ (-(min e 0)).toNat →
          (128 ≤ K → sfu .exp2 v = (0x7F800000, { nx := true, ov := true })) ∧
          (-126 ≤ K → K < 128 → sfu .exp2 v = (BitVec.ofInt 32 ((K + 127) * 2 ^ 23), FpFlags.none)) ∧
          (-149 ≤ K → K < -126 → sfu .exp2 v = (BitVec.ofNat 32 (2 ^ (K + 149).toNat), FpFlags.none)) ∧
          (K < -149 → sfu .exp2 v = (0, { nx := true, uf := true })) ∧
          sfu .sin v = (if n then 0x80000000 else 0, FpFlags.none) ∧
          sfu .cos v = (if K % 2 = 0 then 0x3F800000 else 0xBF800000, FpFlags.none)) ∧
        (2 * inUnits n w e (min e 0) = (2 * K + 1) * 2 ^ (-(min e 0)).toNat →
          sfu .sin v = (if K % 2 = 0 then 0x3F800000 else 0xBF800000, FpFlags.none) ∧ sfu .cos v = (0, FpFlags.none))

-- ## Far queues, far stores and atomics (R100 to R103, R218 to R224)

/-- FQPUSH, FQPOP and FST (R100 to R103): FQPUSH sends a read of the words of one granule from the one that its address names on, at most to
the granule's end, and adds a row behind those of its queue, or raises FQ_OVERFLOW where the queue holds sixteen; FQPOP takes the head
row, whose words land three cycles later in their lanes, or raises FQ_UNDERFLOW on an empty queue and SCHED_MISS while the head is
absent; FST sends a write of the register row over the store path, or raises FQ_OVERFLOW where 32 stores stand there. -/
def Obligations.FarQueueWords : Prop :=
  ∀ (s : State) (q : BitVec 3) (a : Scal) (row : BitVec 4) (nw : BitVec 6) (off : BitVec 22) (d ph : BitVec 5) (va lo hi : Nat),
    va = (s.scal a + off.signExtend 64).toNat % 2 ^ 48 → lo = va % 256 / 4 → hi = min 63 (lo + nw.toNat) →
    physOf s.curSta.rotd d = some ph → s.curDie.bad = [] →
    ((s.curSta.fqOf q).length < 16 → ∃ t, exec (.fqpush q a row nw off) s = .next t ∧
      Requests s t (s.request (.fq q) (va / 256 * 256) lo hi row .read) (some q)) ∧
    (16 ≤ (s.curSta.fqOf q).length → Raises (.fqpush q a row nw off) s .fqOverflow 0) ∧
    ((s.curSta.fqOf q) = [] → Raises (.fqpop d q) s .fqUnderflow 0) ∧
    (∀ (h : FqSlot) (rest : List FqSlot), s.curSta.fqOf q = h :: rest →
      (h.data = none → Raises (.fqpop d q) s .schedMiss 0) ∧
      (∀ r : Row, h.data = some r → ∃ t, exec (.fqpop d q) s = .next t ∧ t.curSta.fqOf q = rest ∧
        Adds (s.updSta fun x => x.setFq q rest) t [s.inFlight 3 (d.setWidth 8) (.v ph h.row (laneSpan h.lo h.hi) r)])) ∧
    (((s.fs s.focus.die).reqs.filter fun r => r.pos == s.focus.pos && r.src == .path).length < 32 →
      ∃ t, exec (.fst a d row nw off) s = .next t ∧
        Requests s t (s.request .path (va / 256 * 256) lo hi row (.write (s.curSta.vrow ph row.toNat))) none) ∧
    (32 ≤ ((s.fs s.focus.die).reqs.filter fun r => r.pos == s.focus.pos && r.src == .path).length →
      Raises (.fst a d row nw off) s .fqOverflow 0) ∧
    ∀ l h j : Nat, l ≤ h → h < 64 → ((laneSpan l h).getLsbD j = true ↔ l ≤ j ∧ j ≤ h)

/-- AMO, AMON and AMOSC (R218, R219, R222, R223): the request names one word of a granule and the operands in bits [31:0] of b and c; AMO and
AMOSC add a row to their queue, AMON goes over the store path; FQ_OVERFLOW is raised as for FQPUSH and FST. AMOSC is stamped with its
issue cycle and raises SLOT_MISS, before that, where the station does not own the wheel position of the cycle.

The new value of the word of an atomic (R220), in exact arithmetic for the integer operations. -/
def Obligations.AtomicWordsAndResults : Prop :=
  (∀ (s : State) (op : AmoOp) (q : BitVec 3) (a b c : Scal) (va : Nat) (row : BitVec 4) (y z : W32) (own : Bool),
    va = (s.scal a).toNat % 2 ^ 48 → row.toNat = (s.scal a).toNat / 2 ^ 48 % 16 → y = (s.scal b).setWidth 32 →
    z = (s.scal c).setWidth 32 → own = (kget 0 (s.sidc % 256 / 64) s.curSta.scslot).getLsbD (s.sidc % 64) →
    ((s.curSta.fqOf q).length < 16 →
      (∃ t, exec (.amo op q a b c) s = .next t ∧
        Requests s t (s.request (.fq q) (va / 256 * 256) (va % 256 / 4) (va % 256 / 4) row (.amo op true y z)) (some q)) ∧
      (own = true → ∃ t, exec (.amosc op q a b c) s = .next t ∧
        Requests s t (s.request (.fq q) (va / 256 * 256) (va % 256 / 4) (va % 256 / 4) row (.amosc op y z s.sidc)) (some q))) ∧
    (16 ≤ (s.curSta.fqOf q).length → Raises (.amo op q a b c) s .fqOverflow 0 ∧
      (own = true → Raises (.amosc op q a b c) s .fqOverflow 0)) ∧
    (own = false → Raises (.amosc op q a b c) s .slotMiss 0) ∧
    (((s.fs s.focus.die).reqs.filter fun r => r.pos == s.focus.pos && r.src == .path).length < 32 →
      ∃ t, exec (.amon op a b c) s = .next t ∧
        Requests s t (s.request .path (va / 256 * 256) (va % 256 / 4) (va % 256 / 4) row (.amo op false y z)) none) ∧
    (32 ≤ ((s.fs s.focus.die).reqs.filter fun r => r.pos == s.focus.pos && r.src == .path).length →
      Raises (.amon op a b c) s .fqOverflow 0)) ∧
  (∀ old y c : W32,
    (amoNew .addI old y c).toNat = (old.toNat + y.toNat) % 2 ^ 32 ∧ amoNew .addF old y c = (fAdd .rne 0 old y).1 ∧
    (amoNew .maxI old y c).toInt = max old.toInt y.toInt ∧ (amoNew .minI old y c).toInt = min old.toInt y.toInt ∧
    (amoNew .maxN old y c).toNat = max old.toNat y.toNat ∧ (amoNew .minN old y c).toNat = min old.toNat y.toNat ∧
    (amoNew .maxF old y c = fMinMax true old y) ∧ (amoNew .minF old y c = fMinMax false old y) ∧
    (∀ k, (amoNew .and old y c).getLsbD k = (old.getLsbD k && y.getLsbD k)) ∧
    (∀ k, (amoNew .or old y c).getLsbD k = (old.getLsbD k || y.getLsbD k)) ∧
    (∀ k, (amoNew .xor old y c).getLsbD k = (old.getLsbD k != y.getLsbD k)) ∧
    amoNew .xchg old y c = y ∧ amoNew .cas old y c = if old = c then y else old)

/-- A request performed at its home (R91, R92, R220, R255): while the controller is in reset it gets MC_NOT_READY and touches nothing; a read
delivers the granule's 256 bytes; a write changes the bytes of the words it names and no other; an atomic replaces its word and
delivers the old one; a read or an atomic with an uncorrectable error among the words it names gets UNCORRECTABLE.

FAR_ACCESS_PERFORM at home `h` with one request on its way there or waiting there (R97, R98, R221, R255). In the cycle in which it
arrives it gets the bound of its home: the port's turn for a vault, 72 cycles, the page state and a refresh for GDDR 7, and the
allowance of an atomic. It is performed in that cycle or a later one, in time for its bound, on far memory as it then stands; its
response lands at its own die no earlier than the rule allows, or joins the link's queue. A granule that has had an access in the cycle
has no other. A write makes the words it covers good. An AMOSC waits. A read whose station has issued it after RDVT had shown a phase may
deliver the granule as it stood before its newest writes, as far back as each was released by a point so shown in the team, none of them
ordered before the station's reads; a later read goes behind no version that one has seen. Where nothing is on its way or waits, nothing changes.
Choices and readings of the model that clauses rest on: DESIGN CHOICE, log 10, DESIGN CHOICE, log 17, DESIGN CHOICE, log 53,
DEDUCED, log 77. -/
def Obligations.FarAccessesPerformed : Prop :=
  (∀ (m : List Host.Cell) (f : FarSide) (h : DieId) (dla : Nat) (r : FarReq) (p : List Host.Cell × Row × Byte) (bad : Prop),
    p = performFar m f h dla r → r.lo ≤ r.hi → r.hi < 64 → dla % 256 = 0 →
    bad = (∃ k ∈ f.badWords, dla / 4 + r.lo ≤ k ∧ k ≤ dla / 4 + r.hi) →
    (f.mcReset = true → p = (m, BitVec.allOnes 2048, 0xA4)) ∧
    (f.mcReset = false →
      (r.op = .read → ¬bad → p.1 = m ∧ p.2.2 = 0 ∧ ∀ i < 256, byteOf p.2.1 i = memGet m (memKey h dla + i)) ∧
      (∀ v, r.op = .write v → p.2 = (0, 0) ∧ ∀ a, memGet p.1 a =
        if memKey h dla + 4 * r.lo ≤ a ∧ a < memKey h dla + 4 * (r.hi + 1) then byteOf v (a - memKey h dla) else memGet m a) ∧
      (∀ op y c, (r.op = .amo op true y c ∨ r.op = .amo op false y c ∨ ∃ st, r.op = .amosc op y c st) → ¬bad → ∃ old : W32,
        (∀ i < 4, byteOf old i = memGet m (memKey h dla + 4 * r.lo + i)) ∧ p.2.2 = 0 ∧ lane p.2.1 r.lo = old ∧
        ∀ a, memGet p.1 a = if memKey h dla + 4 * r.lo ≤ a ∧ a < memKey h dla + 4 * r.lo + 4 then
          byteOf (amoNew op old y c) (a - (memKey h dla + 4 * r.lo)) else memGet m a) ∧
      (bad → (∀ v, r.op ≠ .write v) → p = (m, BitVec.allOnes 2048, 0xA5)))) ∧
  (∀ (s : State) (h : DieId), (s.fs h).here = [] → (∀ d, ∀ r ∈ (s.fs d).flight, r.reaches h s.sidc = none) →
    exec (.farAccessPerform h) s = .next s) ∧
  (∀ (s : State) (d h : DieId) (r : FarReq) (dla lo by_ cost : Nat) (p : List Host.Cell × Row × Byte), (s.fs h).here = [(d, r.seq)] →
    (s.fs d).flight = [r] → (∀ e, e ≠ d → (s.fs e).flight = []) → r.phase = .here h dla lo by_ cost →
    p = performFar s.mem (s.fs h) h dla r → (s.fs h).host = [] →
    ((∃ op y c st, r.op = .amosc op y c st) ∨ (s.fs h).touchedAt = s.sidc ∧ dla / 256 ∈ (s.fs h).touched →
      exec (.farAccessPerform h) s = .next s) ∧
    ((∀ op y c st, r.op ≠ .amosc op y c st) → ¬((s.fs h).touchedAt = s.sidc ∧ dla / 256 ∈ (s.fs h).touched) →
      (∃ t, exec (.farAccessPerform h) s = .next t ∧ t.dies = s.dies ∧ t.hostMem = s.hostMem ∧
        (t = s.bump ∧ s.sidc < (if d = h then by_ - 1 else by_) ∨
          t.mem = p.1 ∧ (t.fs h).here = [] ∧ (t.fs h).touchedAt = s.sidc ∧ dla / 256 ∈ (t.fs h).touched ∧
          (∃ v at_ old, (t.fs d).flight = [{ r with phase := .back h v p.2.2 (if d = h then some at_ else none) }] ∧
            old ≤ (s.oldRows d r (memKey h dla)).length ∧ (old = 0 → v = p.2.1) ∧
            (0 < old → p.2.2 = 0 ∧ (s.oldRows d r (memKey h dla))[old - 1]?.map (·.row) = some v) ∧
            t.olds = (if p.2.2 = 0 then s.oldsAfter d r (memKey h dla) old else s.olds) ∧
            let first := if d = h then max lo (s.sidc + 1) else s.sidc
            first ≤ at_ ∧ at_ ≤ max first by_ ∧
            (d ≠ h → (t.way h d).pkts = (s.way h d).pkts ++
              [{ of := .resp d r.seq, cls := if r.ofHaul && r.isRead then 2 else 1, beats := (r.respSize + 32 + 127) / 128,
                 from_ := at_, floor := lo + hop h d }])) ∧
          (∀ v, r.op = .write v → (s.fs h).mcReset = false → dla % 4 = 0 → ∀ k, k ∈ (t.fs h).badWords ↔
            k ∈ (s.fs h).badWords ∧ ¬(dla / 4 + r.lo ≤ k ∧ k ≤ dla / 4 + r.hi)))))) ∧
  (∀ (s : State) (d : DieId) (r : FarReq) (a : Nat) (l : List OldRow), l = s.olds.filter (fun o => o.at_ == a) →
    (∃ rest, l = s.oldRows d r a ++ rest ∧ (r.op = .read → r.src ≠ .walk → ∀ o ∈ rest.head?, s.leavesOut d r o = false)) ∧
    (∀ o ∈ s.oldRows d r a, r.op = .read ∧ r.src ≠ .walk ∧ s.leavesOut d r o = true) ∧
    (∀ o, s.leavesOut d r o = true ↔ (∃ e ∈ (s.die d).tested, e.pos = r.pos ∧ e.at_ < r.issued ∧ e.pt ∈ o.pts) ∧
      (s.die o.die).team = (s.die d).team ∧ (d, r.pos) ∉ o.shut) ∧
    (∀ v, r.op = .write v → (∀ k ∈ ((s.die d).sta r.pos).fences, k.covers r.pos r = false) →
      ∃ o, s.oldsAfter d r a 0 = o :: s.olds ∧ o.at_ = a ∧ o.row = memRow s.mem a ∧ o.from_ = s.sidc + 1 ∧ o.die = d ∧ o.pos = r.pos ∧
        o.seq = r.seq ∧ o.haul = r.ofHaul ∧ o.shut = []) ∧
    (∀ k, ∀ o : OldRow, r.op = .read → 0 < o.from_ →
      (o ∈ s.oldsAfter d r a k ↔ o ∈ s.olds ∧ ∀ w, l[k]? = some w → w.from_ < o.from_))) ∧
  (∀ (s : State) (d h : DieId) (r : FarReq) (dla a slack port : Nat) (at_ : Nat), (s.fs h).here = [] → (s.fs d).flight = [r] →
    (∀ e, e ≠ d → (s.fs e).flight = []) → r.phase = .sent h dla (some at_) → at_ ≤ s.sidc → a = dla + 4 * r.lo →
    slack = (match r.op with | .amo .. => 4 | .amosc .. => 48 | _ => 0) → port = (if d = h then r.port else r.pos).val →
    ∃ t lo by_ cost, exec (.farAccessPerform h) s = .next t ∧ t.dies = s.dies ∧ t.hostMem = s.hostMem ∧
      ((t.fs d).flight = [{ r with phase := .here h dla lo by_ cost }] ∧ (t.fs h).here = [(d, r.seq)] ∧ t.mem = s.mem ∨
        (∀ op y c st, r.op ≠ .amosc op y c st) ∧ t.mem = (performFar s.mem (s.fs h) h dla r).1 ∧ (t.fs h).here = []) ∧
      (d ≠ h → lo = s.sidc + 37) ∧ (d = h → dlaVault a = false → lo = s.sidc + 72) ∧
      (d = h → dlaVault a = true → slack = 0 → lo = by_) ∧ s.sidc < lo ∧
      (dlaVault a = true → by_ = max (s.sidc + 36) (kget 0 port (s.fs h).portFree) + (r.size + 127) / 128 + slack ∧
        kget 0 port (t.fs h).portFree = by_ - slack) ∧
      (dlaVault a = false → ∃ c ∈ [0, 28, 52], c = (s.fs h).pageCost a s.sidc ∧
        ((∃ u, s.sidc < u ∧ u ≤ s.sidc + 72 + c ∧ u % 2340 = 292 * (a / 2 ^ 8 % 8)) → by_ = s.sidc + 72 + max c 28 + 180 + slack) ∧
        ((∀ u, s.sidc < u → u ≤ s.sidc + 72 + c → u % 2340 ≠ 292 * (a / 2 ^ 8 % 8)) → by_ = s.sidc + 72 + c + slack)))

/-- REQUEST_DEPART (R84, R87, R91, R96, R330): a waiting request whose page the TLB gives, with the permission that it needs, leaves for the
home of its address, and LOCREQ or REMREQ of its station counts it; without the permission it fails at its own die with PROTECTION; a
miss with no valid root fails with UNMAPPED_PA, and with one it starts a walk; a hit may be taken as a miss. Of two requests that may
leave in one cycle the one of the lower far queue leaves first, then the store path, then a haul. Nothing is lost.

The meridian wheel (R222, R224). WHEEL_MARK_SEND in a cycle that is a multiple of 16 sends each die of the team a mark stamped with the
least stamp of the die's unsent AMOSCs, or the cycle; in another cycle it sends none. WHEEL_MARK_ARRIVE keeps the greatest mark of
each die, in the cycle in which a mark is due at the latest, but behind the AMOSCs that left before it. AMOSC_PERFORM applies the
waiting AMOSC of the least stamp once every die of its team has sent a mark above that stamp, and not before; of two that wait, the one
with the greater stamp never before the other. Each of the four completes in every state.
Choices and readings of the model that clauses rest on: DESIGN CHOICE, log 10, log 25, log 53, log 68, DEDUCED, log 82. -/
def Obligations.RequestsLeaveInWheelOrder : Prop :=
  (∀ (s : State) (d : DieId),
    (∃ t, exec (.requestDepart d) s = .next t ∧ SameMemory s t) ∧ (∃ t, exec (.wheelMarkSend d) s = .next t ∧ SameMemory s t) ∧
    (∃ t, exec (.wheelMarkArrive d) s = .next t ∧ SameMemory s t) ∧ (∃ t, exec (.amoscPerform d) s = .next t ∧ t.dies = s.dies)) ∧
  (∀ (s : State) (d : DieId) (r : FarReq) (t0 base : Nat), (s.fs d).reqs = [r] → r.phase = .pend t0 → t0 ≤ s.sidc →
    base = max (r.issued + 4) (s.sidc + 2) → (s.die d).bad = [] →
    (∀ p, ((s.die d).sta p).fences = []) → ∃ t, exec (.requestDepart d) s = .next t ∧ SameMemory s t ∧
      (∀ e, s.tlbAnswer d r.va = some e → (s.fs d).tlbHit r.va = some e) ∧
      (∀ (e : TlbEntry) (h : DieId) (dla : Nat), s.tlbAnswer d r.va = some e →
        leafTo (s.fs d).regions r.op e.level e.entry r.va = .ok (h, dla) →
        (t.fs d).reqs = [] ∧ ((t.fs d).flight = (s.fs d).flight ++
          [{ r with phase := .sent h dla (if h = d then some s.sidc else none) }]) ∧
        (h ≠ d → (t.way d h).pkts = (s.way d h).pkts ++
          [{ of := .req d r.seq, cls := if r.ofHaul && r.isWrite then 2 else 0,
             beats := (r.sentSize + 127) / 128, from_ := s.sidc, floor := 0 }]) ∧
        ((t.die d).sta r.pos).locreq = ((s.die d).sta r.pos).locreq + (if h = d then 1 else 0) ∧
        ((t.die d).sta r.pos).remreq = ((s.die d).sta r.pos).remreq + (if h = d then 0 else 1)) ∧
      (∀ (e : TlbEntry) (c : Byte), s.tlbAnswer d r.va = some e → leafTo (s.fs d).regions r.op e.level e.entry r.va = .error c →
        (t.fs d).reqs = [] ∧ (t.fs d).flight = (s.fs d).flight ++ [{ r with phase := .dead c base }]) ∧
      (s.tlbAnswer d r.va = none → (s.fs d).noRoot = true → (t.fs d).reqs = [] ∧
        (t.fs d).flight = (s.fs d).flight ++ [{ r with phase := .dead 0xA3 base }]) ∧
      (s.tlbAnswer d r.va = none → (s.fs d).noRoot = false → (s.fs d).walks = [] →
        (t.fs d).reqs = [{ r with phase := .walk }] ∧ ∃ w, (t.fs d).walks = [w] ∧ w.va = r.va ∧ w.level = 0 ∧
          w.dla = (s.fs d).xroot.toNat / 2 ^ 16 % 2 ^ 21 * 2 ^ 16 + 8 * (r.va / 2 ^ 35 % 8192) ∧
          w.read = .send (max (t0 + 2) s.sidc)) ∧
      (∀ (e : W64) (level : Nat), (¬ e.getLsbD 2 = true → leafTo (s.fs d).regions .read level e r.va = .error 0xA1) ∧
        (∀ v, ¬ e.getLsbD 3 = true → leafTo (s.fs d).regions (.write v) level e r.va = .error 0xA1) ∧
        (∀ op ret y c, ¬ (e.getLsbD 2 = true ∧ e.getLsbD 3 = true ∧ e.getLsbD 4 = true) →
          leafTo (s.fs d).regions (.amo op ret y c) level e r.va = .error 0xA1))) ∧
  (∀ (s : State) (d ha hb : DieId) (a b : FarReq) (da ta db tb : Nat), ((s.fs d).reqs = [a, b] ∨ (s.fs d).reqs = [b, a]) →
    a.phase = .home ha da ta → b.phase = .home hb db tb → ta ≤ s.sidc → tb ≤ s.sidc → a.seq ≠ b.seq → (s.die d).bad = [] →
    (∀ p, ((s.die d).sta p).fences = []) →
    (match a.src with | .fq q => q.toNat | .path => 8 | _ => 9) < (match b.src with | .fq q => q.toNat | .path => 8 | _ => 9) →
    ∃ t, exec (.requestDepart d) s = .next t ∧ SameMemory s t ∧ (t.fs d).reqs = [] ∧ (t.fs d).flight = (s.fs d).flight ++
      [{ a with phase := .sent ha da (if ha = d then some s.sidc else none) },
       { b with phase := .sent hb db (if hb = d then some s.sidc else none) }]) ∧
  ((∀ (s : State) (d : DieId), s.sidc % 16 ≠ 0 → exec (.wheelMarkSend d) s = .next s) ∧
  (∀ (s : State) (d : DieId), s.sidc % 16 = 0 →
    ∃ t stamp, exec (.wheelMarkSend d) s = .next t ∧ SameMemory s t ∧ t.dies = s.dies ∧ stamp ≤ s.sidc ∧
      (stamp = s.sidc ∨ ∃ r ∈ (s.fs d).reqs, ∃ op y c, r.op = .amosc op y c stamp) ∧
      (∀ r ∈ (s.fs d).reqs, ∀ op y c st, r.op = .amosc op y c st → stamp ≤ st) ∧
      ∀ h ∈ s.teamDies d, (h = d → kget 0 d.val (t.fs d).marks = stamp + 1) ∧
        (h ≠ d → (t.fs h).marksIn = (s.fs h).marksIn ++ [{ from_ := d, stamp := stamp, sent := s.sidc, by_ := none }] ∧
          (t.way d h).pkts = (s.way d h).pkts ++ [{ of := .mark d s.sidc, cls := 0, beats := 1, from_ := s.sidc, floor := 0 }])) ∧
  (∀ (s : State) (h : DieId) (m : Mark) (held : Prop), (s.fs h).marksIn = [m] →
    held = (∃ r ∈ (s.fs m.from_).flight, (∃ dla a, r.phase = .sent h dla a) ∧ ∃ op y c st, r.op = .amosc op y c st ∧ st < m.stamp) →
    let here (t : State) : Prop := OnlyFar h { s with ctr := t.ctr } t ∧ (t.fs h).marksIn = [] ∧
      ∀ e : DieId, kget 0 e.val (t.fs h).marks =
        if e = m.from_ then max (m.stamp + 1) (kget 0 e.val (s.fs h).marks) else kget 0 e.val (s.fs h).marks
    (held → exec (.wheelMarkArrive h) s = .next s.bump) ∧
    (¬held → ∃ t, exec (.wheelMarkArrive h) s = .next t ∧ (here t ∨ t = s.bump ∧ ∀ b, m.by_ = some b → s.sidc < b)))) ∧
  (∀ (s : State) (d h : DieId) (r : FarReq) (dla lo by_ cost : Nat) (p : List Host.Cell × Row × Byte), (s.fs h).here = [(d, r.seq)] →
    (s.fs d).flight = [r] → (∃ op y c st, r.op = .amosc op y c st) → r.phase = .here h dla lo by_ cost →
    p = performFar s.mem (s.fs h) h dla r → (s.fs h).host = [] →
    ((∃ e ∈ s.teamDies d, kget 0 e.val (s.fs h).marks ≤ r.stamp + 1) → exec (.amoscPerform h) s = .next s) ∧
    ((∀ e ∈ s.teamDies d, r.stamp + 1 < kget 0 e.val (s.fs h).marks) → (s.fs h).touchedAt ≠ s.sidc →
      ∃ t, exec (.amoscPerform h) s = .next t ∧ t.dies = s.dies ∧ (t = s.bump ∧ s.sidc < (if d = h then by_ - 1 else by_) ∨ t.mem = p.1 ∧ (t.fs h).here = [] ∧
        ∃ at_, (t.fs d).flight = [{ r with phase := .back h p.2.1 p.2.2 at_ }]))) ∧
  ∀ (s : State) (d e h : DieId) (x y : FarReq) (dx lx bx cx dy ly by_ cy : Nat) (px py : List Host.Cell × Row × Byte),
    ((s.fs h).here = [(d, x.seq), (e, y.seq)] ∨ (s.fs h).here = [(e, y.seq), (d, x.seq)]) →
    (s.fs d).flight.find? (fun r => r.seq == x.seq) = some x → (s.fs e).flight.find? (fun r => r.seq == y.seq) = some y →
    (d ≠ e ∨ x.pos ≠ y.pos ∧ x.seq ≠ y.seq) → (∃ op u c st, x.op = .amosc op u c st) → (∃ op u c st, y.op = .amosc op u c st) →
    x.stamp < y.stamp → x.phase = .here h dx lx bx cx → y.phase = .here h dy ly by_ cy → (s.fs h).touchedAt ≠ s.sidc →
    (s.fs h).host = [] → px = performFar s.mem (s.fs h) h dx x → py = performFar px.1 (s.fs h) h dy y →
    ((∃ g ∈ s.teamDies d, kget 0 g.val (s.fs h).marks ≤ x.stamp + 1) → exec (.amoscPerform h) s = .next s) ∧
    ((∀ g ∈ s.teamDies d, x.stamp + 1 < kget 0 g.val (s.fs h).marks) → ∃ t, exec (.amoscPerform h) s = .next t ∧ t.dies = s.dies ∧
      (t.mem = s.mem ∧ (t.fs h).here = (s.fs h).here ∧ s.sidc < bx ∨
       t.mem = px.1 ∧ (t.fs h).here = [(e, y.seq)] ∨
       t.mem = py.1 ∧ (t.fs h).here = [] ∧ dx / 256 ≠ dy / 256 ∧
         ∀ g ∈ s.teamDies e, y.stamp + 1 < kget 0 g.val (s.fs h).marks))

/-- RESPONSE_ARRIVAL and ERROR_RESPONSE (R91, R94, R100, R103) with one request in flight: before its landing nothing happens; a read's row
becomes its queue slot's data; an error response delivers the fill pattern of ones in a read's row, and either kind leaves an entry
for the violation log. The request is then over. -/
def Obligations.FarResponses : Prop :=
  ∀ (s : State) (d : DieId) (r : FarReq), (s.fs d).flight = [r] → r.src ≠ .walk →
    ((∃ h dla, (∃ a, r.phase = .sent h dla a) ∨ (∃ l b c, r.phase = .here h dla l b c) ∨
        ∃ row c l, r.phase = .back h row c l ∧ ∀ n, l = some n → s.sidc < n) →
      exec (.responseArrival d) s = .next s ∧ exec (.errorResponse d) s = .next s) ∧
    (∀ h l row, r.phase = .back h row 0 (some l) → l ≤ s.sidc → exec (.errorResponse d) s = .next s ∧
      ∃ t, exec (.responseArrival d) s = .next t ∧ SameMemory s t ∧ (t.fs d).flight = [] ∧ (t.die d).eoc = (s.die d).eoc ∧
        (∀ q, r.src = .fq q → ((t.die d).sta r.pos).fqOf q =
          (((s.die d).sta r.pos).fqOf q).map fun k => if k.seq = r.seq then { k with data := some row } else k) ∧
        (∀ q, r.src ≠ .fq q → ((t.die d).sta r.pos).fqOf q = ((s.die d).sta r.pos).fqOf q)) ∧
    ∀ c : Byte, c ≠ 0 → (∃ l, l ≤ s.sidc ∧ (r.phase = .dead c l ∨ ∃ h row, r.phase = .back h row c (some l))) →
      exec (.responseArrival d) s = .next s ∧
      ∃ t, exec (.errorResponse d) s = .next t ∧ SameMemory s t ∧ (t.fs d).flight = [] ∧
        (t.die d).eoc = (s.die d).eoc ++ [.violog r.pos r.strm r.parcel (r.va + 4 * r.lo) c] ∧
        (∀ q, r.src = .fq q → ((t.die d).sta r.pos).fqOf q =
          (((s.die d).sta r.pos).fqOf q).map fun k => if k.seq = r.seq then { k with data := some (BitVec.allOnes 2048) } else k)

/-- TLB_WALK_READ (R83, R84, R87, R88) on a die with one walk: a read that is due is sent as a request of the die; when its entry has landed,
an error or an unusable entry fails the requests that wait on the walk, a leaf enters the TLB and gives each of them its home, which
LOCREQ or REMREQ counts, or its error, an entry that is not present makes them wait and is reported, and a table entry takes the walk
one level down.

XINVAL, XINVAL_DONE and XREPLAY (R89, R90), MEMORY_CONTROLLER_RESET (R92), ROW_CLOSE and GDDR7_REFRESH (R98): a write of XINVAL is ignored while
BUSY; the invalidation ends, and its entries leave the TLB, after at least two cycles and once every walk that was in progress has
ended; XREPLAY lets the waiting requests of its page walk again; rows close 128 cycles after their last access or when their channel's
refresh begins.
Choices and readings of the model that clauses rest on: DESIGN CHOICE, log 10, log 25, log 53, log 68, log 69. -/
def Obligations.TranslationAndTableWalks : Prop :=
  (∀ (s : State) (d : DieId) (w : Walk), (s.fs d).walks = [w] → ((s.fs d).reqs.map (·.seq)).Nodup →
    ∃ t, exec (.tlbWalkRead d) s = .next t ∧ t.mem = s.mem ∧
    let f := s.fs d
    let mine (r : FarReq) : Bool := r.va / 2 ^ 16 == w.va / 2 ^ 16 && r.phase == .walk
    let waiting (p : FarPhase) : List FarReq := f.reqs.map fun r => if mine r then { r with phase := p } else r
    (∀ at_, w.read = .send at_ → s.sidc < at_ → t = s) ∧
    (∀ at_, w.read = .send at_ → at_ ≤ s.sidc → t.dies = s.dies ∧ (t.fs d).walks = [{ w with read := .out f.seq }] ∧
      (t.fs d).seq = f.seq + 1 ∧ (t.fs d).reqs = f.reqs ∧ ∃ r, (t.fs d).flight = f.flight ++ [r] ∧ r.seq = f.seq ∧ r.src = .walk ∧
        r.op = .read ∧ r.lo = w.dla % 256 / 4 ∧ r.hi = r.lo + 1 ∧
        r.phase = .sent w.home (w.dla / 256 * 256) (if w.home = d then some s.sidc else none)) ∧
    ∀ q, w.read = .out q → (f.walkGot w q s.sidc = none → t = s) ∧
    ∀ e err, f.walkGot w q s.sidc = some (e, err) → (t.fs d).flight = f.flight.filter (fun r => r.seq != q) ∧
      (err ≠ 0 → (t.fs d).walks = [] ∧ (t.fs d).reqs = waiting (.bad err (s.sidc + 2)) ∧ (t.fs d).tlb = f.tlb ∧ t.dies = s.dies) ∧
      (err = 0 → e.getLsbD 0 = false → (t.fs d).walks = [] ∧ (t.fs d).reqs = waiting .np ∧ w.va / 2 ^ 16 ∈ (t.fs d).reported ∧
        (t.fs d).tlb = f.tlb ∧ t.dies = s.dies) ∧
      (err = 0 → e.getLsbD 0 = true → e.getLsbD 1 = true → badLeaf e = false → (t.fs d).walks = [] ∧
        (t.fs d).reqs = (f.reqs.map fun r => if mine r then { r with phase := match leafTo f.regions r.op w.level e r.va with
          | .ok (h, dla) => .home h dla (s.sidc + 1)
          | .error c => .bad c (s.sidc + 2) } else r) ∧
        (∀ p : Pos, let n (own : Bool) : W64 := BitVec.ofNat 64 (f.reqs.filter fun r => mine r && r.pos == p &&
            (match leafTo f.regions r.op w.level e r.va with | .ok (h, _) => (h == d) == own | .error _ => false)).length
          ((t.die d).sta p).locreq = ((s.die d).sta p).locreq + n true ∧
          ((t.die d).sta p).remreq = ((s.die d).sta p).remreq + n false) ∧
        ((∃ h, leafTo f.regions .read w.level (e ||| 4) w.va = .ok h) →
          (t.fs d).tlb.head? = some { level := w.level, vpn := w.va / 2 ^ pageShift w.level, entry := e }) ∧
        ((∀ h, leafTo f.regions .read w.level (e ||| 4) w.va ≠ .ok h) → (t.fs d).tlb = f.tlb) ∧
        (f.tlb.length ≤ 4096 → (t.fs d).tlb.length ≤ 4096)) ∧
      (err = 0 → e.getLsbD 0 = true → (if e.getLsbD 1 then badLeaf e else badTable w.level e) = true →
        (t.fs d).walks = [] ∧ (t.fs d).reqs = waiting (.bad 0xA3 (s.sidc + 2)) ∧ (t.fs d).tlb = f.tlb ∧ t.dies = s.dies) ∧
      (err = 0 → e.getLsbD 0 = true → e.getLsbD 1 = false → badTable w.level e = false → (t.fs d).reqs = f.reqs ∧ t.dies = s.dies ∧
        ∃ v, (t.fs d).walks = [v] ∧ v.va = w.va ∧ v.level = w.level + 1 ∧ v.home.val + 4 = e.toNat / 2 ^ 5 % 8 ∧
          v.dla = e.toNat / 2 ^ 16 % 2 ^ 21 * 2 ^ 16 + 8 * levelIdx w.va (w.level + 1) ∧ v.read = .send (s.sidc + 1))) ∧
  (∀ (s : State) (d : DieId) (v : W64) (b : Bool),
    ((s.fs d).xinval ≠ none → exec (.xinval d v) s = .next s) ∧
    ((s.fs d).xinval = none → ∃ t, exec (.xinval d v) s = .next t ∧ OnlyFar d s t ∧
      (t.fs d).xinval = some { value := v, at_ := s.sidc } ∧ (t.fs d).tlb = (s.fs d).tlb ∧ (t.fs d).reqs = (s.fs d).reqs) ∧
    ((s.fs d).xinval = none → exec (.xinvalDone d) s = .next s) ∧
    (∀ i, (s.fs d).xinval = some i → (s.sidc < i.at_ + 2 ∨ (∃ w ∈ (s.fs d).walks, w.began ≤ i.at_) → exec (.xinvalDone d) s = .next s) ∧
      (i.at_ + 2 ≤ s.sidc → (∀ w ∈ (s.fs d).walks, i.at_ < w.began) → ∃ t, exec (.xinvalDone d) s = .next t ∧ OnlyFar d s t ∧
        (t.fs d).xinval = none ∧ ∀ e, e ∈ (t.fs d).tlb ↔ e ∈ (s.fs d).tlb ∧ invalHits i.value e = false)) ∧
    (∃ t, exec (.xreplay d v) s = .next t ∧ OnlyFar d s t ∧
      (t.fs d).reqs = ((s.fs d).reqs.map fun r =>
        if r.va / 2 ^ 16 = v.toNat / 2 ^ 16 % 2 ^ 32 ∧ r.phase = .np then { r with phase := .pend s.sidc } else r) ∧
      v.toNat / 2 ^ 16 % 2 ^ 32 ∉ (t.fs d).reported) ∧
    (∃ t, exec (.memoryControllerReset d b) s = .next t ∧ OnlyFar d s t ∧ t.fs d = { s.fs d with mcReset := b }) ∧
    (∃ t, exec (.rowClose d) s = .next t ∧ OnlyFar d s t ∧ ∀ e, e ∈ (t.fs d).rows ↔ e ∈ (s.fs d).rows ∧ s.sidc < e.2.last + 128) ∧
    (∃ t, exec .gddr7Refresh s = .next t ∧ t.dies = s.dies ∧ SameMemory s t ∧
      ∀ (h : DieId) (e : Nat × OpenRow), e ∈ (t.fs h).rows ↔
        e ∈ (s.fs h).rows ∧ ∀ k < 8, s.sidc % 2340 = 292 * k → e.1 / 16 ≠ k))

-- ## Hauls (R81, R105 to R111, R115, R120)

/-- HAUL (R105 to R107, R119, R120): a legal haul between two addresses whose rows stay in range and whose buffers allow it joins the engine
of its face with nothing done, and its buffers are read and written, with one writer more, at the end of the cycle; an address that is
neither a VA nor a bank, or rows out of range, raise BANK_RANGE, a buffer that does not allow it BUF_STATE, and a seventeenth command of
the face FQ_OVERFLOW.

An address below 2^48 names a granule of far memory; one with bit 55 as its highest and bits [47:18] zero names row [14:8] of bank
[17:15] of the station [54:48]. Between two banks whose types differ a haul converts: its elements then fill as many destination rows as
they need, and an MX side ends before SROW. A bank side has at most 128 rows, within the bank.
Choices and readings of the model that clauses rest on: DEDUCED, log 63. -/
def Obligations.HaulWord : Prop :=
  ∀ (s : State) (af : Bool) (pt : Option (BitVec 5)) (rnd : Rnd) (d a b : Scal) (n : Nat), n = (s.scal b).toNat % 2 ^ 20 + 1 →
    ((haulAddr (s.scal a) = none ∨ haulAddr (s.scal d) = none) → Raises (.haul af pt rnd d a b) s .bankRange 0) ∧
    (∀ v : W64, (v.toNat < 2 ^ 48 → haulAddr v = some (.far (v.toNat / 256 * 256))) ∧
      (2 ^ 48 ≤ v.toNat → ∀ (p : Pos) (k : BitVec 3) (row : Nat), haulAddr v = some (.bank p k row) ↔ v.toNat / 2 ^ 55 = 1 ∧
        v.toNat / 2 ^ 18 % 2 ^ 30 = 0 ∧ p.val = v.toNat / 2 ^ 48 % 128 ∧ k.toNat = v.toNat / 2 ^ 15 % 8 ∧
        row = v.toNat / 2 ^ 8 % 128) ∧
      (2 ^ 48 ≤ v.toNat → ∀ va, haulAddr v ≠ some (.far va))) ∧
    (∀ (x : Die) (src dst : HaulAddr) (p : HaulPlan), p = x.haulPlan src dst n →
      (p.conv = true ↔ p.sfmt.type ≠ p.dfmt.type ∧ (∃ q k r, src = .bank q k r) ∧ ∃ q k r, dst = .bank q k r) ∧
      (p.conv = false → p.dstN = n) ∧ (p.conv = true → n * tyEpr p.sfmt.type ≤ p.dstN * tyEpr p.dfmt.type ∧
        (p.dstN - 1) * tyEpr p.dfmt.type < n * tyEpr p.sfmt.type) ∧
      (∀ q k r, src = .bank q k r → p.sfmt = kget {} k.toNat (x.sta q).fmt) ∧
      (∀ q k r, dst = .bank q k r → p.dfmt = kget {} k.toNat (x.sta q).fmt) ∧
      let fits (a : HaulAddr) (rows : Nat) (f : BankFmt) : Prop := ∀ q k r, a = .bank q k r →
        n ≤ 128 ∧ r + rows ≤ if p.conv = true ∧ (mxOf f.type).isSome = true then f.srow.toNat else 128
      (p.ok = true ↔ fits src n p.sfmt ∧ fits dst p.dstN p.dfmt)) ∧
    ∀ (src dst : HaulAddr) (p : HaulPlan) (rd wr : List (Pos × Nat × Buf)), haulAddr (s.scal a) = some src →
      haulAddr (s.scal d) = some dst → p = s.curDie.haulPlan src dst n → rd = s.curDie.sideBufs src p.sfmt n p.both →
      wr = s.curDie.sideBufs dst p.dfmt p.dstN p.both →
      (p.ok = false → Raises (.haul af pt rnd d a b) s .bankRange 0) ∧
      (p.ok = true → (bufsAllow false (rd.map (·.2)) = false ∨ bufsAllow true (wr.map (·.2)) = false) →
        Raises (.haul af pt rnd d a b) s .bufState 0) ∧
      (p.ok = true → bufsAllow false (rd.map (·.2)) = true → bufsAllow true (wr.map (·.2)) = true →
        (16 ≤ (s.fs s.focus.die).faceHauls s.focus.pos → Raises (.haul af pt rnd d a b) s .fqOverflow 0) ∧
        ((s.fs s.focus.die).faceHauls s.focus.pos < 16 → ∃ t c, exec (.haul af pt rnd d a b) s = .next t ∧ SameMemory s t ∧
          (t.fs s.focus.die).hauls = (s.fs s.focus.die).hauls ++ [c] ∧ (t.fs s.focus.die).seq = (s.fs s.focus.die).seq + 1 ∧
          (t.fs s.focus.die).reqs = (s.fs s.focus.die).reqs ∧
          c.src = src ∧ c.dst = dst ∧ c.n = n ∧ c.rnd = rnd ∧ c.af = af ∧ c.pt = pt ∧ c.key = (s.fs s.focus.die).seq ∧
          c.issued = s.sidc ∧ c.started = 0 ∧ c.done = 0 ∧ c.grans = [] ∧ c.fail = none ∧ c.dstN = p.dstN ∧ c.pos = s.focus.pos ∧
          c.parcel = s.focus.parcel ∧ c.conv = p.conv ∧ c.sfmt = p.sfmt ∧ c.dfmt = p.dfmt ∧ c.srcRead = 0 ∧ c.made = 0 ∧ c.lanes = [] ∧
          c.writes = wr.map (fun e => (e.1, e.2.1)) ∧ t.curDie.eoc = s.curDie.eoc ++
            rd.map (fun e => .bufRead e.1 e.2.1 (s.focus.pos, .l, s.cyc)) ++
            wr.flatMap (fun e => [.bufWrite e.1 e.2.1, .bufWriter e.1 e.2.1]) ∧
          t.curSta.writes = s.curSta.writes ∧ t.curSta.bank = s.curSta.bank ∧ t.curDie.causes = s.curDie.causes))

/-- HAUL_GRANULE_START, HAUL_PORT_B_READ and HAUL_PORT_B_WRITE (R108, R111, R115) with one command that does not convert: a granule starts when it
is due, with a far read where the source is far; a started bank row is read in a cycle in which port A leaves its bank alone; a row
that is ready is written into the bank, and no other row changes; rows for far memory go out as far writes in granule order, each once
its data is there and those before it have gone (log 94). In an MX bank a data row brings its
scales, and the unused bytes of the scale rows are zero (R79, R107).

HAUL_COMPLETE (R109, R120): a command whose destination is done leaves its engine in its completion cycle and not before; each buffer
it writes loses one writer and becomes full once none is left, if one carried `.af` and none failed, and no other buffer moves; its
rendezvous point gets an arrival, an error arrival where a granule failed.
Choices and readings of the model that clauses rest on: DESIGN CHOICE, log 10, log 11, log 98, DEDUCED, log 63, log 67, log 94. -/
def Obligations.HaulProgressAndEnds : Prop :=
  (∀ (s : State) (d : DieId) (c : HaulCmd), (s.fs d).hauls = [c] → c.conv = false → (s.die d).bad = [] →
    ((c.n ≤ c.started ∨ s.sidc < c.issued + 2 + c.started) → exec (.haulGranuleStart d) s = .next s) ∧
    (c.started < c.n → c.issued + 2 + c.started ≤ s.sidc → ∃ t, exec (.haulGranuleStart d) s = .next t ∧ OnlyFar d s t ∧
      (t.fs d).hauls = [{ c with started := c.started + 1 }] ∧
      ((∃ p b row, c.src = .bank p b row) → (t.fs d).reqs = (s.fs d).reqs) ∧
      (∀ va, c.src = .far va → ∃ r, (t.fs d).reqs = (s.fs d).reqs ++ [r] ∧ r.src = .haul c.key c.started false ∧ r.op = .read ∧
        r.va = (va + 256 * c.started) % 2 ^ 48 ∧ r.lo = 0 ∧ r.hi = 63)) ∧
    (∀ p b row, c.src = .bank p b row → (c.started ≤ c.srcRead ∨ (s.fs d).portFreeB s.sidc p b = false) →
      exec (.haulPortBRead d) s = .next s) ∧
    (∀ p b row, c.src = .bank p b row → c.srcRead < c.started → (s.fs d).portFreeB s.sidc p b = true →
      (∃ va, c.dst = .far va) → ∃ t g, exec (.haulPortBRead d) s = .next t ∧ OnlyFar d s t ∧
      (t.fs d).hauls = [{ c with srcRead := c.srcRead + 1, grans := c.grans ++ [g] }] ∧ g.i = c.srcRead ∧
      g.data = ((s.die d).sta p).bankRow b (row + c.srcRead) ∧ g.bits = 2048 ∧ g.scales = [] ∧ g.readyAt = s.sidc + 1 ∧
      g.sent = false ∧ g.err = 0) ∧
    (∀ p b row g rest, c.dst = .bank p b row → c.grans = g :: rest → g.readyAt < s.sidc → g.bits = 2048 → mxOf c.dfmt.type = none →
      (s.fs d).portFreeB s.sidc p b = true → ∃ t y, exec (.haulPortBWrite d) s = .next t ∧
      t.die d = (s.die d).setSta p y ∧ y = { (s.die d).sta p with bank := y.bank } ∧
      (∀ k, kget 0 k y.bank = if k = 128 * b.toNat + (row + g.i) then g.data else kget 0 k ((s.die d).sta p).bank) ∧
      (t.fs d).hauls = [{ c with grans := rest, done := c.done + 1, comp := max c.comp (s.sidc + 2) }]) ∧
    (∀ va, c.dst = .far va → ∃ t n l, exec (.haulPortBWrite d) s = .next t ∧
      OnlyFar d s t ∧ (t.fs d).reqs = (s.fs d).reqs ++ l ∧ l.length = n ∧
      (∀ j < n, ∃ r, ∃ g ∈ c.grans, l[j]? = some r ∧ g.i = c.made + j ∧ g.readyAt ≤ s.sidc ∧ r.src = .haul c.key g.i true ∧
        r.op = .write g.data ∧ r.va = (va + 256 * g.i) % 2 ^ 48 ∧ r.seq = (s.fs d).seq + j ∧ r.issued = max (g.readyAt + 1) s.sidc) ∧
      (∀ g ∈ c.grans, g.i = c.made + n → s.sidc < g.readyAt) ∧
      (t.fs d).hauls = [{ c with made := c.made + n, grans := c.grans.map fun g =>
        if c.made ≤ g.i ∧ g.i < c.made + n then { g with sent := true } else g }])) ∧
  ((∀ (b : Buf) (af failed : Bool), (2 ≤ b.writers → (b.writerDone af failed).st = b.st ∧
      (b.writerDone af failed).writers = b.writers - 1 ∧ ((b.writerDone af failed).af = (b.af || af)) ∧
      ((b.writerDone af failed).failed = (b.failed || failed))) ∧
    (b.writers = 1 → (b.writerDone af failed).writers = 0 ∧ (b.writerDone af failed).st =
      if (b.af = true ∨ af = true) ∧ b.failed = false ∧ failed = false then 2 else b.st)) ∧
  (∀ (x y : Station) (k : BitVec 3) (f : BankFmt) (row bpr : Nat) (im : Fimg) (g : Gran), mxOf f.type = some (im, bpr) →
    g.bits = 2048 → y = x.haulPut k f row g →
    (row < f.srow.toNat → g.scales.length = bpr → y.bankRow k row = g.data ∧
      (∀ q < bpr, byteOf (y.bankRow k (f.srow.toNat + (row * bpr + q) / 256)) ((row * bpr + q) % 256) = g.scales.getD q 0) ∧
      ∀ q < bpr, ∀ i < 256, f.srow.toNat * bpr ≤ 256 * ((row * bpr + q) / 256) + i →
        byteOf (y.bankRow k (f.srow.toNat + (row * bpr + q) / 256)) i = 0) ∧
    (f.srow.toNat ≤ row → ∀ i < 256, byteOf (y.bankRow k row) i =
      if 256 * (row - f.srow.toNat) + i < f.srow.toNat * bpr then byteOf g.data i else 0)) ∧
  ∀ (s : State) (d : DieId) (c : HaulCmd), (s.fs d).hauls = [c] →
    ((c.done ≠ c.dstN ∨ s.sidc < c.comp) → exec (.haulComplete d) s = .next s) ∧
    (c.done = c.dstN → c.comp ≤ s.sidc → c.writes.Nodup → ∃ t, exec (.haulComplete d) s = .next t ∧ (t.fs d).hauls = [] ∧
      t.mem = s.mem ∧ (∀ p, (t.die d).sta p = { (s.die d).sta p with buf := ((t.die d).sta p).buf }) ∧
      (∀ p k b, b = ((s.die d).sta p).bufN k →
        ((p, k) ∉ c.writes → ((t.die d).sta p).bufN k = b) ∧
        ((p, k) ∈ c.writes → ((t.die d).sta p).bufN k = b.writerDone c.af c.fail.isSome ∧
          (b.writers = 1 → (((t.die d).sta p).bufN k).writers = 0 ∧ (((t.die d).sta p).bufN k).st =
            if (b.af = true ∨ c.af = true) ∧ b.failed = false ∧ c.fail = none then 2 else b.st))) ∧
      (c.pt = none → OnlyDie d (s.setFs d { s.fs d with hauls := [] }) t ∧
        { t.die d with stations := (s.die d).stations } = s.die d) ∧
      (∀ pt m err, c.pt = some pt → m = (s.teamDies d).headD d →
        err = (match c.fail with | some e => if e.2 = 0 then 0 else 256 + e.2.toNat | none => 0) →
        ∃ at_, (t.die m).msgs = (s.die m).msgs ++ [.arrive pt.toNat (BitVec.ofNat 9 err) at_] ∧ (m = d → at_ = s.sidc) ∧
          (m ≠ d → s.sidc + Config.lattab (linkOf d m) ≤ at_ ∧ at_ ≤ s.sidc + Config.lattab (linkOf d m) + 4 + s.linkWait d m))))

-- ## The wavefront array (R167 to R198)

/-- ACRD and ACWR (R194, R195) at a station of the face, outside handler mode: ACRD writes the converted accumulators of lane q of the lines
into one half of register row VROW + q four cycles later, with their events and, under `.rsr`, one draw each, and with CLR clears
the accumulators in its own cycle; ACWR adds the lanes of its half to the accumulators three cycles later. Rows beyond the
register, and a station of another face, raise EDGE_RANGE.

The edge accumulators (R182, R183, R185, R193): at launch each is M = 0, E = 0, GW = 0 (R168). The addends of a cycle are summed exactly
and added to X at its weight, rounded down, and a remainder sets STICKY; a sum beyond 76 bits saturates and loses headroom; a NaN or an
infinity among them sets NAN, PINF or NINF, and both infinities NAN. The conversion gives the NaN, the infinities, +0 for X = 0 without
STICKY, else (X + STICKY/2) 2^(E - 12) rounded. ACNORM leaves X = 0 and X = −1 alone; else it shifts the top bit of X to bit 73, as far
as E stays in 16 bits, rounds down, keeps or sets STICKY, and lowers E by the shift. -/
def Obligations.AccumulatorWordsAndSums : Prop :=
  (∀ (s : State) (bf16 : Bool) (rnd : Rnd) (north : Bool) (d ph : BitVec 5) (clr half : Bool) (vrow : BitVec 4) (u : Nat) (face : Bool)
    (z : List (BitVec 16)) (val : Nat → Nat → W32 × FpFlags), s.focus.handler = false → physOf s.curSta.rotd d = some ph →
    s.curDie.bad = [] → u = (if north then 2 else 8) →
    face = (if north then decide (s.focus.pos.val < 32) else decide (32 ≤ s.focus.pos.val) && decide (s.focus.pos.val < 64)) →
    z = (if rnd = .rsr then (s.curSta.noise.draws (32 * u)).1 else []) →
    val = (fun q j => (s.curDie.accAt s.focus.pos (u * j + q)).read bf16 rnd (z.getD (32 * q + j) 0).toNat) →
    (face = true → vrow.toNat + u ≤ 16 →
      (∃ t, exec (.acrd bf16 rnd north d clr half vrow) s = .next (if clr then t.accJob s.cyc .rdClr else t) ∧
        Effect s t ((List.range u).map fun q => s.inFlight 4 (d.setWidth 8) (.v ph (vrow + BitVec.ofNat 4 q) (halfMask half)
            (rowOfLanes ((List.range 64).map fun j =>
              if (if half then 32 else 0) ≤ j ∧ j < (if half then 64 else 32) then (val q (j % 32)).1 else 0))))
          (s.flagWrites 4 (orFlags ((List.range u).flatMap fun q => (List.range 32).map fun j => (val q j).2)))
          s.curSta.pipeFree (if rnd = .rsr then (s.curSta.noise.draws (32 * u)).2 else s.curSta.noise)) ∧
      exec (.acwr north d half vrow) s = .next (s.accJob (s.cyc + 3) (.add ((List.range u).flatMap fun q => (List.range 32).map fun j =>
        (u * j + q, lane (s.curSta.vrow ph (vrow.toNat + q)) ((if half then 32 else 0) + j)))))) ∧
    ((face = false ∨ 16 < vrow.toNat + u) →
      Raises (.acrd bf16 rnd north d clr half vrow) s .edgeRange 0 ∧ Raises (.acwr north d half vrow) s .edgeRange 0)) ∧
  (∀ (x : Die) (t : Team) (i sidc fr : Nat) (p : Pos) (k : Nat), ((x.launched t i sidc fr).accAt p k) = { m := 0, e := 0, gw := 0 }) ∧
  (∀ (a : Acc) (l : List W32) (val : W32 → Int) (S y : Int) (rem : Bool) (b : Acc × Bool), b = a.add l →
    (∀ v ∈ l, match readF32 v with
      | .num n m e => val v = (if n then -1 else 1) * (m * 2 ^ (e + 149).toNat : Nat)
      | _ => val v = 0) → S = (l.map val).sum →
    (-137 - a.e.toInt ≥ 0 → y = a.x + S * 2 ^ (-137 - a.e.toInt).toNat ∧ rem = false) →
    (-137 - a.e.toInt < 0 → ∃ rest : Int, 0 ≤ rest ∧ rest < 2 ^ (a.e.toInt + 137).toNat ∧
      S = (y - a.x) * 2 ^ (a.e.toInt + 137).toNat + rest ∧ rem = decide (rest ≠ 0)) →
    b.1.x = max (-2 ^ 75) (min (2 ^ 75 - 1) y) ∧ (b.2 = true ↔ y < -2 ^ 75 ∨ 2 ^ 75 ≤ y) ∧ b.1.e = a.e ∧
    b.1.gw.getLsbD 12 = (a.gw.getLsbD 12 || rem) ∧
    (b.1.gw.getLsbD 13 = true ↔ a.gw.getLsbD 13 = true ∨ ∃ v ∈ l, readF32 v = .inf true) ∧
    (b.1.gw.getLsbD 14 = true ↔ a.gw.getLsbD 14 = true ∨ ∃ v ∈ l, readF32 v = .inf false) ∧
    (b.1.gw.getLsbD 15 = true ↔ a.gw.getLsbD 15 = true ∨ (∃ v ∈ l, readF32 v = .nan) ∨
      b.1.gw.getLsbD 13 = true ∧ b.1.gw.getLsbD 14 = true)) ∧
  (∀ (a : Acc) (bf16 : Bool) (rnd : Rnd) (noise : Nat) (v : Int) (r : W32 × FpFlags), r = a.read bf16 rnd noise →
    a.x = a.m.toInt * 4096 + (a.gw.toNat % 4096 : Nat) → v = 2 * a.x + (if a.gw.getLsbD 12 then 1 else 0) →
    (a.gw.getLsbD 15 = true → r = (if bf16 then 0x7FC0 else 0x7FC00000, FpFlags.none)) ∧
    (a.gw.getLsbD 15 = false → a.gw.getLsbD 14 = true → r = (if bf16 then 0x7F80 else 0x7F800000, FpFlags.none)) ∧
    (a.gw.getLsbD 15 = false → a.gw.getLsbD 14 = false → a.gw.getLsbD 13 = true →
      r = (if bf16 then 0xFF80 else 0xFF800000, FpFlags.none)) ∧
    (a.gw.toNat / 2 ^ 13 = 0 → (v = 0 → r = (0, FpFlags.none)) ∧
      (v ≠ 0 → ∀ k, k = roundFloat (if bf16 then fmtBf16 else fmtF32) rnd false noise (decide (v < 0)) v.natAbs (a.e.toInt - 13) →
        r = (BitVec.ofNat 32 k.1, k.2)))) ∧
  ∀ a : Acc, a.x = a.m.toInt * 4096 + (a.gw.toNat % 4096 : Nat) ∧ -2 ^ 75 ≤ a.x ∧ a.x < 2 ^ 75 ∧ (a.x = 0 ∨ a.x = -1 → a.norm = a) ∧
    (a.x ≠ 0 → a.x ≠ -1 → ∃ (p : Nat) (s : Int), 2 ^ p ≤ (if a.x < 0 then -a.x - 1 else a.x) ∧
      (if a.x < 0 then -a.x - 1 else a.x) < 2 ^ (p + 1) ∧ s = max (a.e.toInt - 32767) (min (a.e.toInt + 32768) (73 - p)) ∧
      a.norm.e.toInt = a.e.toInt - s ∧ a.norm.gw.toNat / 2 ^ 13 = a.gw.toNat / 2 ^ 13 ∧
      (0 ≤ s → a.norm.x = a.x * 2 ^ s.toNat ∧ a.norm.gw.getLsbD 12 = a.gw.getLsbD 12) ∧
      (s < 0 → ∃ rest : Int, 0 ≤ rest ∧ rest < 2 ^ (-s).toNat ∧ a.x = a.norm.x * 2 ^ (-s).toNat + rest ∧
        a.norm.gw.getLsbD 12 = (a.gw.getLsbD 12 || decide (rest ≠ 0))))

/-- Which stations take part in an array word (R112, R173): those of a face whose lines the window holds, with their lowest and highest
line of it and the edge pointer of the face. -/
def Obligations.FeedingStations : Prop :=
  ∀ (w : Window) (f : Feed),
    (∀ face < 4, f ∈ feedsOf w face ↔ ∃ i < 32, ∃ lo n, lo = (if face % 2 = 0 then w.col0 else w.row0) ∧
      n = (if face % 2 = 0 then w.wc else w.wr) ∧ max lo (32 * i) < min (lo + n) (32 * i + 32) ∧
      f.1.val = (if face = 0 then i else if face = 1 then 32 + i else if face = 2 then 95 - i else 127 - i) ∧
      f.2.1.toNat = face ∧ f.2.2.1 = max lo (32 * i) ∧ f.2.2.2 = min (lo + n) (32 * i + 32) - 1) ∧
    (w.wr ≥ 1 → w.wc ≥ 1 → w.row0 + w.wr ≤ 1024 → w.col0 + w.wc ≤ 1024 →
      ∀ r c, w.hasRow r = true → w.hasCol c = true →
        (∃ g ∈ feedsOf w 0, g.1 = northOf c) ∧ (∃ g ∈ feedsOf w 1, g.1 = eastOf r) ∧ (∃ g ∈ feedsOf w 2, g.1 = southOf c) ∧
        ∃ g ∈ feedsOf w 3, g.1 = westOf r)

/-- AWIN, AMODE, ACCLR and ACNORM (R187, R188, R190, R193): a window that stays within the array, and the modes, take effect at the end
of the cycle; a window that leaves it, or a scalar with a bit above 39 set, raises WINDOW_RANGE; an AWIN or AMODE of a cycle in which
another has issued at a lower ring position raises ADMIT_CLASH; the accumulator words act two cycles later at a station of their face, and raise EDGE_RANGE elsewhere.

ADMIT, SEAT and LIFT (R173, R175, R186, R189 to R192): an ADMIT is checked in the order of R189, ADMIT_CLASH (R190), a count of zero,
EDGE_RANGE, SCHED_MISS; the first that fails is its cause, and one of count zero does nothing more than count as an ADMIT of its
cycle. Where all pass it starts its fronts with the window and modes of its issue, its faces' rows are read in the cycles of R173
and their pointers advance. SEAT and LIFT work on the west face, and raise ADMIT_CLASH while an
earlier one is under way, EDGE_RANGE beyond the last row, and SCHED_MISS or BUF_STATE for a buffer that is not ready.
Choices and readings of the model that clauses rest on: DEDUCED, log 50. -/
def Obligations.ArrayModesAndStarts : Prop :=
  (∀ (s : State) (w : WinOp) (fimg : Fimg) (gnan : Gnan) (north : Bool) (base : BitVec 16) (v : Nat) (n : Window) (wide : Bool),
    (∀ i, w = .imm i → v = i.toNat ∧ wide = false) → (∀ a, w = .reg a → v = (s.scal a).toNat ∧ wide = decide (2 ^ 40 ≤ v)) →
    n = { row0 := v / 2 ^ 30 % 1024, col0 := v / 2 ^ 20 % 1024, wr := v / 2 ^ 10 % 1024 + 1, wc := v % 1024 + 1 } →
    ((∀ e ∈ s.curDie.once, e.at_ = s.cyc → e.kind = .awin → s.focus.pos ≤ e.pos) →
      (wide = false → n.row0 + n.wr ≤ 1024 → n.col0 + n.wc ≤ 1024 →
        ∃ t, exec (.awin w) s = .next t ∧ Defers (s.onceMore .awin) t [.window n]) ∧
      ((wide = true ∨ 1024 < n.row0 + n.wr ∨ 1024 < n.col0 + n.wc) →
        ∃ t, exec (.awin w) s = .next t ∧ Trapped (s.onceMore .awin) t .windowRange 0)) ∧
    ((∃ e ∈ s.curDie.once, e.at_ = s.cyc ∧ e.kind = .awin ∧ e.pos < s.focus.pos) →
      ∃ t, exec (.awin w) s = .next t ∧ Trapped (s.onceMore .awin) t .admitClash 0) ∧
    ((∀ e ∈ s.curDie.once, e.at_ = s.cyc → e.kind = .amode → s.focus.pos ≤ e.pos) →
      ∃ t, exec (.amode fimg gnan) s = .next t ∧ Defers (s.onceMore .amode) t [.amode fimg gnan]) ∧
    ((∃ e ∈ s.curDie.once, e.at_ = s.cyc ∧ e.kind = .amode ∧ e.pos < s.focus.pos) →
      ∃ t, exec (.amode fimg gnan) s = .next t ∧ Trapped (s.onceMore .amode) t .admitClash 0) ∧
    (∀ i act, (i, act) ∈ [(.acclr north base, .clr base), (.acnorm north, .norm)] →
      ((if north then s.focus.pos.val < 32 else 32 ≤ s.focus.pos.val ∧ s.focus.pos.val < 64) →
        exec i s = .next (s.updDie fun d => { d with accJobs := d.accJobs ++
          [{ at_ := s.cyc + 2, pos := s.focus.pos, act := act, by_ := s.focus.pos, strm := s.focus.strm,
             parcel := s.focus.parcel }] })) ∧
      (¬(if north then s.focus.pos.val < 32 else 32 ≤ s.focus.pos.val ∧ s.focus.pos.val < 64) → Raises i s .edgeRange 0))) ∧
  ((∀ (s u : State) (kind : FKind) (pane : Bool) (m : Count) (n : Nat) (wide : Bool) (w : Window) (fs : List Feed) (clash : Prop),
    s.focus.handler = false → w = s.curDie.window →
    (∀ v, (v = w ∨ ∃ k ∈ s.curDie.works, v = k.win) → 1 ≤ v.wr ∧ 1 ≤ v.wc ∧ v.row0 + v.wr ≤ 1024 ∧ v.col0 + v.wc ≤ 1024) →
    (∀ c, m = .cnt c → n = c.toNat ∧ wide = false) → (∀ a, m = .reg a → n = (s.scal a).toNat ∧ wide = decide (2 ^ 24 ≤ n)) →
    fs = (if kind = .fwd then feedsOf w 0 else feedsOf w 1 ++ feedsOf w 2) → u = s.onceMore (.admits (fkWork kind)) →
    (clash ↔ (∃ e ∈ s.curDie.once, e.at_ = s.cyc ∧ e.kind = .admits (fkWork kind) ∧ e.pos < s.focus.pos) ∨
      ∃ k ∈ s.curDie.works, k.kind = fkWork kind ∧ (s.cyc < k.issued + k.m ∨
        ∃ f < k.m, ∃ g < n, ∃ t rc, k.issued + f ≤ t ∧ s.cyc + g ≤ t ∧ (kind = .fwd → rc ∈ fwdCells k.win (t - (k.issued + f)) ∧
          rc ∈ fwdCells w (t - (s.cyc + g))) ∧ (kind = .bwd → rc ∈ bwdCells k.win (t - (k.issued + f)) ∧
          rc ∈ bwdCells w (t - (s.cyc + g))))) →
    let edge := wide = true ∨ ∃ f ∈ fs, 1024 < s.curDie.edgeRow f + n
    let traps (c : Cause) := ∃ t, exec (.admitWork kind pane m) s = .next t ∧ Trapped u t c 0
    (clash → traps .admitClash) ∧ (¬clash → n = 0 → exec (.admitWork kind pane m) s = .next u) ∧
    (¬clash → n ≠ 0 → edge → traps .edgeRange) ∧
    (¬clash → n ≠ 0 → ¬edge → ¬fedBuffers s.curDie fs n (· = 2) → traps .schedMiss) ∧
    (¬clash → n ≠ 0 → ¬edge → fedBuffers s.curDie fs n (· = 2) → ∃ (t : State) (at_ : Feed → Nat → Nat), exec (.admitWork kind pane m) s = .next t ∧
      (∀ f ∈ fs, ∀ i < n, (kind = .fwd → at_ f i = s.cyc + (f.2.2.1 - w.col0) + i) ∧
        (kind = .bwd → f.2.1 = 1 → at_ f i = s.cyc + (1024 - w.row0 - w.wr) + (w.wr - 1 - (f.2.2.2 - w.row0)) + i) ∧
        (kind = .bwd → f.2.1 = 2 → at_ f i = s.cyc + (1024 - w.col0 - w.wc) + (w.wc - 1 - (f.2.2.2 - w.col0)) + i)) ∧
      Starts u t (s.workOf (fkWork kind) n pane .both false) fs n
        (fs.flatMap fun f => s.feedAccesses f n false (fun i => .feed (fkWork kind) i (at_ f i + 36)) (at_ f)))) ∧
  ∀ (s : State) (img : Img) (pane clr : Bool) (w : Window) (rows : Nat) (fs : List Feed), s.focus.handler = false →
    w = s.curDie.window → rows = (w.wc + 1) / 2 → fs = feedsOf w 3 →
    ((0 < s.curDie.seatUntil ∧ s.cyc ≤ s.curDie.seatUntil) → Raises (.seat img pane) s .admitClash 0) ∧
    ((0 < s.curDie.liftUntil ∧ s.cyc ≤ s.curDie.liftUntil) → Raises (.lift clr) s .admitClash 0) ∧
    ((s.curDie.seatUntil = 0 ∨ s.curDie.seatUntil < s.cyc) →
      ((∃ f ∈ fs, 1024 < s.curDie.edgeRow f + rows) → Raises (.seat img pane) s .edgeRange 0) ∧
      ((∀ f ∈ fs, s.curDie.edgeRow f + rows ≤ 1024) →
        (¬fedBuffers s.curDie fs rows (· = 2) → Raises (.seat img pane) s .schedMiss 0) ∧
        (fedBuffers s.curDie fs rows (· = 2) → ∃ t, exec (.seat img pane) s = .next t ∧
          t.curDie.seatUntil = s.cyc + w.wr + w.wc + 2 ∧
          Starts s t (s.workOf .seat 1 pane img false) fs rows (fs.flatMap fun f => s.feedAccesses f rows false
            (fun i => .feed .seat i (s.cyc + (f.2.2.1 - w.row0) + 2 * i + 37)) fun i => s.cyc + (f.2.2.1 - w.row0) + 2 * i)))) ∧
    ((s.curDie.liftUntil = 0 ∨ s.curDie.liftUntil < s.cyc) →
      ((∃ f ∈ fs, 1024 < s.curDie.edgeRow f + rows) → Raises (.lift clr) s .edgeRange 0) ∧
      ((∀ f ∈ fs, s.curDie.edgeRow f + rows ≤ 1024) →
        (¬fedBuffers s.curDie fs rows (fun b => b = 0 ∨ b = 1) → Raises (.lift clr) s .bufState 0) ∧
        (fedBuffers s.curDie fs rows (fun b => b = 0 ∨ b = 1) → ∃ t, exec (.lift clr) s = .next t ∧
          t.curDie.liftUntil = s.cyc + 3 + w.wr + w.col0 + w.wc ∧
          Starts s t (s.workOf .lift 1 false .both clr) fs rows (fs.flatMap fun f => s.feedAccesses f rows true
            (fun i => .liftOut i) fun i => s.cyc + 7 + (f.2.2.2 - w.row0) + w.col0 + 2 * i)))))

/-- One FWD transit of a cell of the window (R170, R177, R197): token by token the inner sum takes the product of the cell's image and of the token, saturated to
20 bits; where the transit promotes it enters the outer sum and the inner sum starts at zero; at another cell the outer sum is as it
came. A cell whose image is not seated uses the zero image and detects PANE_EMPTY.

One BWD transit (R178 to R180): a δ that is not finite is replaced by +0 at its entry cell under `.gzero`, or detects GRAD_NAN under
`.gtrap`; D takes the exact product of the cell's backward image and δ, or its marker; a promotion cell moves D into the chain value,
in the trap's cycle too, and notes the move of a token that traps; the sum of the two exact products of δ and x goes to G.

FRONT_ADMIT and FRONT_TRANSIT (R172, R176, R197, R279): the next front of an ADMIT is admitted in its cycle and no other; a front of an
ADMIT keeps the array from being idle; each cell that a front holds takes the latches of its transit, and on a BWD transit G the
rounded sum, which waits in PG where the cell traps; a cycle after a front's transit of the last column or the first row, the outer sums
or chain values that it left there go to the edge accumulators of their row or column, lane by lane, as addends of the next cycle. A
cell through which no front passes, and that no LIFT captures, is as before.
Choices and readings of the model that clauses rest on: DEDUCED, log 51; DEDUCED, log 87. -/
def Obligations.TransitAndFronts : Prop :=
  (∀ (d : Die) (fr : Nat) (k : Work) (f r c u : Nat) (src : Cell) (o : CellOut) (fx : BitVec 128) (img : BitVec 16) (w : Nat),
    k.win.hasRow r = true → k.win.hasCol c = true → u < (fimgShape k.fimg).1 → w = (fimgShape k.fimg).2.1 →
    src = (if c = k.win.col0 then {} else d.cell r (c - 1)) → o = fwdTransit d fr k f r c →
    img = ((d.cell r c).readImage (if k.pane then 1 else 0)).1 →
    fx = (if r = 0 then northIn d fr k f c else (d.cell (r - 1) c).fx) →
    ((bit (d.cell r c).seated (if k.pane then 1 else 0) = false → img = 0x7F00 ∧ o.causes = [(.paneEmpty, 0)]) ∧
      (bit (d.cell r c).seated (if k.pane then 1 else 0) = true → (d.cell r c).imageBad (if k.pane then 1 else 0) = false →
        img = (d.cell r c).image (if k.pane then 1 else 0) ∧ o.causes = [])) ∧
    ∃ fi fc, o.new = .fwd fx fi fc ∧
      let exact := (fld src.fi (20 * u) 20).toInt + (img.setWidth w).toInt * ((fld fx (16 * u) 16).setWidth w).toInt
      let i1 := max (-524288) (min 524287 exact)
      let prom := c % 32 = 31 ∨ c + 1 = k.win.col0 + k.win.wc
      (u ∈ o.sats ↔ exact ≠ i1) ∧
      (¬prom → (fld fi (20 * u) 20).toInt = i1 ∧ fld fc (32 * u) 32 = fld src.fc (32 * u) 32) ∧
      (prom → fld fi (20 * u) 20 = 0 ∧ (fld img 8 8 ≠ 255 → fld fx (16 * u + 8) 8 ≠ 255 →
        fld fc (32 * u) 32 = (addV .rne 0 (readF32 (fld src.fc (32 * u) 32)) (.num (decide (i1 < 0)) i1.natAbs
          (((fld img 8 8).toNat : Int) + ((fld fx (16 * u + 8) 8).toNat : Int) - 254 - 2 * ((fimgShape k.fimg).2.2 : Int)))).1))) ∧
  (∀ (d : Die) (fr : Nat) (k : Work) (f r c : Nat) (src here : Cell) (o : CellOut) (bd0 : BitVec 16) (bx : BitVec 32) (img : BitVec 16)
      (entry : Bool), k.win.hasRow r = true → k.win.hasCol c = true → here = d.cell r c →
    src = (if r + 1 = k.win.row0 + k.win.wr then {} else d.cell (r + 1) c) → o = bwdTransit d fr k f r c →
    bd0 = (if c = 1023 then eastIn d fr k f r else (d.cell r (c + 1)).bd) →
    bx = (if r = 1023 then southIn d fr k f c else (d.cell (r + 1) c).bx) → img = (here.readImage (if k.pane then 3 else 2)).1 →
    entry = decide (c + 1 = k.win.col0 + k.win.wc) →
    ∃ (bd : BitVec 16) (bs : BitVec 96) (bc : BitVec 64) (p : Nat → FVal), o.new = .bwd bd bx bs bc ∧ o.prod = some (exactAdd (p 0) (p 1)) ∧
      (here.gBad = false → bit here.seated (if k.pane then 3 else 2) = true → here.imageBad (if k.pane then 3 else 2) = false →
        (k.gnan ≠ .gtrap ∨ entry = false → o.causes = []) ∧
        (k.gnan = .gtrap → entry = true → ∀ u < 2, (.gradNan, u) ∈ o.causes ↔ 0x7C ≤ (fld bd0 (8 * u) 8).toNat % 128)) ∧
      ∀ u < 2, ∀ (δ0 δ : Byte) (d0 d1 : Int) (c0 : W32) (xe : Int) (xs : Nat), δ0 = fld bd0 (8 * u) 8 → δ = fld bd (8 * u) 8 →
        d0 = (fld src.bs (48 * u) 48).toInt → c0 = fld src.bc (32 * u) 32 → xe = (fld bx (16 * u) 8).toInt →
        xs = (fld bx (16 * u + 8) 8).toNat →
        d1 = (if d0 = -(2 ^ 47 : Nat) then d0 else match fmtE5m2.read δ.toNat with
          | .num n m e => d0 + (img.setWidth 8).toInt * (if n then -1 else 1) * (m * 2 ^ (e + 16).toNat : Nat)
          | _ => -(2 ^ 47 : Nat)) →
        (δ = if entry = true ∧ k.gnan = .gzero ∧ 0x7C ≤ δ0.toNat % 128 then 0 else δ0) ∧
        p u = (mulV (fmtE5m2.read δ.toNat) (if xs = 255 then .nan else .num (decide (xe < 0)) xe.natAbs ((xs : Int) - 133))).getD .nan ∧
        ({ cell := cellKey r c, token := u, scale := (fld img 8 8).toNat, bc := c0 } ∈ o.promos ↔
          (r % 32 = 0 ∨ r = k.win.row0) ∧ k.gnan = .gtrap ∧ entry = true ∧ 0x7C ≤ δ0.toNat % 128) ∧
        (¬(r % 32 = 0 ∨ r = k.win.row0) → fld bs (48 * u) 48 = BitVec.ofInt 48 d1 ∧ fld bc (32 * u) 32 = c0) ∧
        (r % 32 = 0 ∨ r = k.win.row0 → fld bs (48 * u) 48 = 0 ∧ fld bc (32 * u) 32 =
          if fld img 8 8 = 255 ∨ d1 = -(2 ^ 47 : Nat) then 0x7FC00000
          else (addV .rne 0 (readF32 c0) (.num (decide (d1 < 0)) d1.natAbs (((fld img 8 8).toNat : Int) - 149))).1)) ∧
  (∀ (x : Die) (k : Work) (t : Nat) (j : AccJob),
    (j ∈ x.eastOut k t ↔ ∃ f < k.adm, ∃ r, k.win.hasRow r = true ∧ t = k.issued + f + 4 + r + (1023 - k.win.col0) + 1 ∧
      j = { at_ := t + 1, pos := Fin.ofNat 128 (32 + r / 32), by_ := k.pos, strm := .c, parcel := k.parcel,
            act := .add ((List.range (fimgShape k.fimg).1).map fun u => (8 * (r % 32) + u, fld (x.cell r 1023).fc (32 * u) 32)) }) ∧
    (j ∈ x.northOut k t ↔ ∃ f < k.adm, ∃ c < 1024, k.win.hasCol c = true ∧ t = k.issued + f + 4 + 1023 + (1023 - c) + 1 ∧
      j = { at_ := t + 1, pos := Fin.ofNat 128 (c / 32), by_ := k.pos, strm := .c, parcel := k.parcel,
            act := .add ((List.range 2).map fun u => (2 * (c % 32) + u, fld (x.cell 0 c).bc (32 * u) 32)) })) ∧
  (∀ (n1 n2 n : Bool) (m1 m2 m : Nat) (e1 e2 e : Int), exactAdd (.num n1 m1 e1) (.num n2 m2 e2) = .num n m e → e = min e1 e2 ∧
    (if n then -(m : Int) else m) = (if n1 then -1 else 1) * (m1 * 2 ^ (e1 - e).toNat : Nat) +
      (if n2 then -1 else 1) * (m2 * 2 ^ (e2 - e).toNat : Nat)) ∧
  (∀ (s : State) (d : DieId) (k : Work) (f a r c : Nat) (x : Cell), (s.die d).works = [k] → x = (s.die d).cell r c →
    ((f, a) ∈ k.fronts (s.die d).dcyc ↔ f < k.adm ∧ k.issued + f ≤ (s.die d).dcyc ∧ a = (s.die d).dcyc - (k.issued + f) ∧ 4 ≤ a ∧
      a ≤ 2050) ∧
    ((r, c) ∈ fwdCells k.win a ↔ k.win.col0 ≤ c ∧ a = 4 + r + (c - k.win.col0) ∧ c < 1024 ∧ r < k.win.row0 + k.win.wr ∧
      k.win.fwdHas r c = true) ∧
    ((r, c) ∈ bwdCells k.win a ↔ r < 1024 ∧ c < 1024 ∧ a = 4 + (1023 - r) + (1023 - c) ∧ k.win.bwdHas r c = true) ∧
    ((f, a) ∈ k.fronts (s.die d).dcyc → r < 1024 → ∃ t, exec (.frontTransit d) s = .next t ∧ SameMemory s t ∧
      (k.kind = .fwd → (r, c) ∈ fwdCells k.win a → (t.die d).cell r c = x.latch (fwdTransit (s.die d) s.ctr k f r c).new ∧
        (t.die d).accJobs = (s.die d).accJobs ++ (s.die d).eastOut k (s.die d).dcyc) ∧
      (k.kind = .bwd → (r, c) ∈ bwdCells k.win a → ∀ o, o = bwdTransit (s.die d) s.ctr k f r c →
        (t.die d).accJobs = (s.die d).accJobs ++ (s.die d).northOut k (s.die d).dcyc ∧
        (o.prod = none → (t.die d).cell r c = x.latch o.new) ∧
        ∀ p g, o.prod = some p → g = (addV .rne 0 (readF32 (if x.pgv then x.pg else x.g)) p).1 →
          ((t.die d).cell r c).bd = (x.latch o.new).bd ∧ ((t.die d).cell r c).bx = (x.latch o.new).bx ∧
          ((t.die d).cell r c).bs = (x.latch o.new).bs ∧ ((t.die d).cell r c).bc = (x.latch o.new).bc ∧
          (o.causes = [] → ((t.die d).cell r c).g = g ∧ ((t.die d).cell r c).pgv = false) ∧
          (o.causes ≠ [] → ((t.die d).cell r c).g = x.g ∧ ((t.die d).cell r c).pg = g ∧ ((t.die d).cell r c).pgv = true)))) ∧
  (∀ (s : State) (d : DieId), (∃ t, exec (.frontAdmit d) s = .next t ∧ OnlyDie d s t ∧ (t.die d).cells = (s.die d).cells ∧
      (t.die d).works = ((s.die d).works.map fun k =>
        if (k.kind = .fwd ∨ k.kind = .bwd) ∧ k.adm < k.m ∧ k.issued + k.adm = (s.die d).dcyc then { k with adm := k.adm + 1 } else k) ∧
      ((∀ k ∈ (s.die d).works, k.kind = .seat ∨ k.kind = .lift ∨ k.m = 0) → (∀ k ∈ (s.die d).works, k.adm ≤ k.m) →
        (t.die d).rampLast = (s.die d).rampLast) ∧
      (∀ k ∈ (s.die d).works, (k.kind = .fwd ∨ k.kind = .bwd) → k.adm < k.m → k.issued + k.adm = (s.die d).dcyc →
        (t.die d).rampLast = some (s.die d).dcyc)) ∧
    ∃ t, exec (.frontTransit d) s = .next t ∧ SameMemory s t ∧ (t.die d).works = (s.die d).works ∧
      ∀ r c, r < 1024 → c < 1024 → (∀ k ∈ (s.die d).works, (∀ rc ∈ k.captureCells (s.die d).dcyc, cellKey rc.1 rc.2 ≠ cellKey r c) ∧
          ∀ fa ∈ k.fronts (s.die d).dcyc, (k.kind = .fwd → (r, c) ∉ fwdCells k.win fa.2) ∧ (k.kind = .bwd → (r, c) ∉ bwdCells k.win fa.2)) →
        (t.die d).cell r c = (s.die d).cell r c)

/-- SEAT_COMMIT, LIFT_CAPTURE and ACCUMULATOR_CYCLE (R172, R174, R176, R182, R184, R191, R192) for one SEAT or LIFT of any window. The images
of a SEAT enter column 0 from the west stations' rows and move one column a cycle in the seat latches; in a row's commit cycle each
window cell of it takes the named images of the named pane from its latch, with good parity, and marks them seated; nothing else of
any cell changes. A LIFT captures G of each window cell of a row in the row's cycle; the values move one column west a cycle, and
those that leave column 0 fill the rows to be written back; with CLR the captured cells prepare +0, so that at the end of the cycle, where
no BWD transit of the cycle adds to it, G reads +0. An
accumulator job of the cycle clears, normalizes or adds at its station; without a job every accumulator stays. -/
def Obligations.SeatLiftAndAccumulatorEvents : Prop :=
  (∀ (s : State) (d : DieId) (k : Work) (r c n w : Nat) (x : Cell), (s.die d).works = [k] → k.win.row0 + k.win.wr ≤ 1024 →
    k.win.col0 + k.win.wc ≤ 1024 → r < 1024 → c < 1024 → n = r - k.win.row0 → x = (s.die d).cell r c →
    w = (s.die d).dcyc - (k.issued + 4 + n) →
    (k.kind = .seat → ∃ t y, exec (.seatCommit d) s = .next t ∧ SameMemory s t ∧ (t.die d).cell r c = y ∧
      let runs := k.win.hasRow r = true ∧ k.issued + 4 + n ≤ (s.die d).dcyc ∧ w < k.win.col0 + k.win.wc
      let commits := runs ∧ w + 1 = k.win.col0 + k.win.wc ∧ k.win.hasCol c = true
      let named (i : Nat) := i = (if k.pane then 1 else 0) ∧ k.img ≠ .bimg ∨ i = (if k.pane then 3 else 2) ∧ k.img ≠ .fimg
      (¬commits → y = { x with sl := y.sl }) ∧ (¬(runs ∧ c ≤ w ∧ w < c + k.win.wc) → y.sl = x.sl) ∧
      (runs → c ≤ w → w < c + k.win.wc → (0 < c → y.sl = ((s.die d).cell r (c - 1)).sl) ∧
        (∀ e : Skew, c = 0 → (s.die d).skew.find? (fun e => e.kind == .seat && e.issued == k.issued &&
            e.pos == Fin.ofNat 128 (127 - r / 32) && e.i == w / 2) = some e →
          y.sl = fld e.data (8 * (128 * (w % 2) + 4 * (r % 32))) 32)) ∧
      (commits → y = { x with sl := y.sl, fe0 := y.fe0, fe1 := y.fe1, be0 := y.be0, be1 := y.be1, seated := y.seated, par := y.par } ∧
        ∀ i < 4, (named i → y.image i = fld y.sl (if i < 2 then 0 else 16) 16 ∧ bit y.seated i = true ∧ y.imageBad i = false) ∧
          (¬named i → y.image i = x.image i ∧ bit y.seated i = bit x.seated i ∧ y.imageBad i = x.imageBad i))) ∧
    (k.kind = .lift → ∃ t y, exec (.liftCapture d) s = .next t ∧ OnlyDie d s t ∧ (t.die d).cell r c = y ∧
      ((∀ j, k.win.hasCol j = true → ((s.die d).cell (k.win.row0 + ((s.die d).dcyc - (k.issued + 4))) j).gBad = false) →
        (t.die d).causes = (s.die d).causes) ∧
      let runs := k.win.hasRow r = true ∧ k.issued + 4 + n ≤ (s.die d).dcyc
      (¬runs → y = x) ∧
      (runs → w = 0 → k.win.hasCol c = false → y = x) ∧
      (runs → w = 0 → k.win.hasCol c = true → y.ll = x.g ∧ y.g = x.g ∧ (k.clr = false → y = { x with ll := x.g }) ∧
        (k.clr = true → y = { x with ll := x.g, pg := 0, pgv := true, par := y.par } ∧ y.pgBad = false ∧
          (x.gBad = false → ∃ u, exec (.frontTransit d) t = .next u ∧ ((u.die d).cell r c).g = 0 ∧ ((u.die d).cell r c).pgv = false ∧
            ((u.die d).cell r c).gBad = false ∧ ((u.die d).cell r c).ll = x.g))) ∧
      (runs → 0 < w → k.win.col0 ≤ c + w → c + w < k.win.col0 + k.win.wc → y = { x with ll := ((s.die d).cell r (c + 1)).ll }) ∧
      (runs → 0 < w → ¬(k.win.col0 ≤ c + w ∧ c + w < k.win.col0 + k.win.wc) → y = x) ∧
      (∀ q, runs → w = k.win.col0 + 1 + q → q < k.win.wc → ∃ e ∈ (t.die d).skew, e.kind = .lift ∧ e.issued = k.issued ∧
        e.pos = Fin.ofNat 128 (127 - r / 32) ∧ e.i = q / 2 ∧
        fld e.data (8 * (128 * (q % 2) + 4 * (r % 32))) 32 = ((s.die d).cell r 0).ll))) ∧
  ∀ (s : State) (d : DieId),
    ((∀ j ∈ (s.die d).accJobs, j.at_ ≠ (s.die d).dcyc) → exec (.accumulatorCycle d) s = .next s) ∧
    ∀ j : AccJob, (s.die d).accJobs = [j] → j.at_ = (s.die d).dcyc → j.pos.val < 64 →
      ∃ t, exec (.accumulatorCycle d) s = .next t ∧ OnlyDie d s t ∧ (t.die d).accJobs = [] ∧
        (∀ p : Pos, p ≠ j.pos → p.val < 64 → ∀ k < 32 * accLanes p, (t.die d).accAt p k = (s.die d).accAt p k) ∧
        (∀ b, j.act = .clr b → ∀ k < 32 * accLanes j.pos, (t.die d).accAt j.pos k = { m := 0, e := b, gw := 0 }) ∧
        (j.act = .rdClr → ∀ k < 32 * accLanes j.pos, (t.die d).accAt j.pos k = { (s.die d).accAt j.pos k with m := 0, gw := 0 }) ∧
        (j.act = .norm → ∀ k < 32 * accLanes j.pos, (t.die d).accAt j.pos k = ((s.die d).accAt j.pos k).norm) ∧
        ∀ k v, j.act = .add [(k, v)] → k < 32 * accLanes j.pos → (t.die d).accAt j.pos k = (((s.die d).accAt j.pos k).add [v]).1

-- ## The ring, the rotating region and cavities (R122 to R124, R130 to R133, R199 to R208)

/-- RDRV, RTAP and RING_ITEM_ENTRY (R122 to R124). An item stands k steps along its lane k cycles after its entry, up to its last hop. RDRV's
row enters its lane two cycles later, for 127 hops where HOPS is 0, unless an item stands there: then LANE_CLASH is raised and the
item is lost. RTAP copies the row that stands at its station three cycles later; an empty slot, or a cavity's sweep in it, raises
SCHED_MISS.

The rotating region (R130 to R132): names 0 to 15 denote their own registers and 16 + n, for n below D, the register n + RB of the region;
a rotation makes each name denote what the name below it denoted; ROTSET leaves its depth to the end of the cycle, when newly live
registers are zero, those that stay live keep their rows, and the cycle is noted in which a register died.
Choices and readings of the model that clauses rest on: DESIGN CHOICE, log 42. -/
def Obligations.RingAndRotatingRegion : Prop :=
  ((∀ (i : Item) (p t : Nat), i.lane < 16 → i.pos < 128 → i.hops < 128 → (i.standsAt p t = true ↔ i.entry ≤ t ∧ t ≤ i.entry + i.hops ∧ p < 128 ∧
    (i.lane < 8 → p % 128 = (i.pos + (t - i.entry)) % 128) ∧ (8 ≤ i.lane → (p + (t - i.entry)) % 128 = i.pos))) ∧
  (∀ (s : State) (l : BitVec 4) (v ph : BitVec 5) (hops : BitVec 7) (row : BitVec 4), physOf s.curSta.rotd v = some ph →
    (s.curDie.bad = [] → ∃ i : Item, exec (.rdrv l v hops row) s =
        .next (s.updDie fun x => { x with drives := x.drives ++ [{ at_ := s.cyc + 2, item := i }] }) ∧
      i.lane = l.toNat ∧ i.pos = s.focus.pos.val ∧ i.entry = s.cyc + 2 ∧ i.hops = (if hops = 0 then 127 else hops.toNat) ∧
      i.kind = .data ∧ i.data = s.curSta.vrow ph row.toNat ∧ i.by_ = s.focus.pos ∧ i.parcel = s.focus.parcel) ∧
    (∀ i, s.curDie.slotAt l.toNat s.focus.pos.val s.cyc = some i → i.kind = .data → ∃ t, exec (.rtap v l row) s = .next t ∧
      Adds s t [s.inFlight 3 (v.setWidth 8) (.v ph row (BitVec.ofNat 64 (2 ^ 64 - 1)) i.data)]) ∧
    ((∀ i, s.curDie.slotAt l.toNat s.focus.pos.val s.cyc = some i → i.kind ≠ .data) → Raises (.rtap v l row) s .schedMiss 0)) ∧
  ∀ (s : State) (d : DieId) (r : Drive), (s.die d).drives = [r] → r.at_ = (s.die d).dcyc → r.item.entry = (s.die d).dcyc →
    (∀ i ∈ (s.die d).items, (s.die d).dcyc ≤ i.entry + i.hops) → ∃ t, exec (.ringItemEntry d) s = .next t ∧ OnlyDie d s t ∧
    (t.die d).drives = [] ∧
    ((s.die d).slotAt r.item.lane r.item.pos r.item.entry = none → (t.die d).items = (s.die d).items ++ [r.item] ∧
      (t.die d).causes = (s.die d).causes) ∧
    (∀ j, (s.die d).slotAt r.item.lane r.item.pos r.item.entry = some j → (t.die d).items = (s.die d).items ∧
      (t.die d).causes = (s.die d).causes ++ [accessCause .laneClash 0 r.item.by_ .x r.item.parcel])) ∧
  ((∀ (r : Rotd) (n : BitVec 5), r.d ≤ 16 →
    (n.toNat < 16 → physOf r n = some n) ∧ (16 + r.d ≤ n.toNat → physOf r n = none) ∧
    (16 ≤ n.toNat → n.toNat < 16 + r.d → ∃ p, physOf r n = some p ∧ p.toNat = 16 + (n.toNat - 16 + r.rb) % r.d) ∧
    (∀ m : BitVec 5, 16 ≤ n.toNat → n.toNat < 16 + r.d → m.toNat = 16 + (n.toNat - 16 + r.d - 1) % r.d →
      physOf r.rotate n = physOf r m)) ∧
  (∀ (s : State) (n : BitVec 5), ∃ t, exec (.rotset n) s = .next t ∧ Defers s t [.rotset s.focus.pos n.toNat]) ∧
  ∀ (x : Station) (n c fr : Nat), n ≤ 16 → x.rotd.d ≤ 16 →
    (x.rotset n c fr).rotd = { pd := x.rotd.d, rb := 0, d := n } ∧
    (∀ k, kget 0 k (x.rotset n c fr).died = if 16 + n ≤ k ∧ k < 16 + x.rotd.d then c + 1 else kget 0 k x.died) ∧
    ∀ (p : BitVec 5) (i : Nat), i < 16 → (p.toNat < 16 + min x.rotd.d n → (x.rotset n c fr).vrow p i = x.vrow p i) ∧
      (16 + x.rotd.d ≤ p.toNat → p.toNat < 16 + n → (x.rotset n c fr).vrow p i = 0))

/-- The combines of R199, R204 and R205: a row by lanes or by pairs of lanes, each element operator, the identities, `.lse` as its
pseudocode has it, `.argmax` by its table, and an empty side that gives the other bit for bit.

CAV (R199 to R202) at a participant with a free slot: with dj its distance from the anchor, j the participants before it, N the last one's
index, dL its distance and c the combine latency, the slot holds the contribution, the check cycles P = t + 3 + dj + c j and S = t + 3 + dL − dj + c (N − j)
and the result cycle max(P, S) + c + 1. A station outside the mask raises SCHED_MISS, a busy slot CAV_SLOT_BUSY.

CAVD (R206 to R208): in an exchange section, with the port and the slot free and every link of the chain of the team's dies having timed
groups both ways, it fills the slot and takes the port, with the check cycles that the hops before and after the die give; outside
exchange it raises SCHED_MISS, with the port or the slot taken CAV_SLOT_BUSY, with a link that lacks groups LANE_DIRECTION.
Choices and readings of the model that clauses rest on: DESIGN CHOICE, log 53. -/
def Obligations.CavityWords : Prop :=
  ((∀ (op : CavOp) (x y : Row), (op ≠ .lse → op ≠ .argmax → ∀ j < 64, lane (rowComb op x y) j = elemComb op (lane x j) (lane y j)) ∧
    (∀ i < 32, let pair (r : Row) : W32 × W32 := (lane r (2 * i), lane r (2 * i + 1))
      pair (rowComb .lse x y) = lseComb (pair x) (pair y) ∧ pair (rowComb .argmax x y) = argmaxComb (pair x) (pair y)) ∧
    optComb op none none = none ∧ optComb op (some x) none = some x ∧ optComb op none (some y) = some y ∧
    optComb op (some x) (some y) = some (rowComb op x y)) ∧
  (∀ x y : W32,
    elemComb .addF x y = (fAdd .rne 0 x y).1 ∧ elemComb .maxF x y = fMinMax true x y ∧ elemComb .minF x y = fMinMax false x y ∧
    (elemComb .addI x y).toNat = (x.toNat + y.toNat) % 2 ^ 32 ∧
    (elemComb .maxI x y).toInt = max x.toInt y.toInt ∧ (elemComb .minI x y).toInt = min x.toInt y.toInt ∧
    (elemComb .maxN x y).toNat = max x.toNat y.toNat ∧ (elemComb .minN x y).toNat = min x.toNat y.toNat ∧
    ∀ k, (elemComb .and x y).getLsbD k = (x.getLsbD k && y.getLsbD k) ∧ (elemComb .or x y).getLsbD k = (x.getLsbD k || y.getLsbD k) ∧
      (elemComb .xor x y).getLsbD k = (x.getLsbD k != y.getLsbD k)) ∧
  (∀ op (a b : W32), (op, a, b) ∈ ([(.addF, 0x80000000, 0x80000000), (.maxF, 0xFF800000, 0xFF800000), (.minF, 0x7F800000, 0x7F800000),
      (.addI, 0, 0), (.maxI, 0x80000000, 0x80000000), (.minI, 0x7FFFFFFF, 0x7FFFFFFF), (.maxN, 0, 0), (.minN, 0xFFFFFFFF, 0xFFFFFFFF),
      (.and, 0xFFFFFFFF, 0xFFFFFFFF), (.or, 0, 0), (.xor, 0, 0), (.lse, 0xFF800000, 0),
      (.argmax, 0xFF800000, 0xFFFFFFFF)] : List (CavOp × W32 × W32)) →
    ∀ i < 32, lane (identityRow op) (2 * i) = a ∧ lane (identityRow op) (2 * i + 1) = b) ∧
  (∀ (a b : W32 × W32) (M : W32) (fac : W32 → W32) (nan : W32 → Prop), (∀ x, nan x ↔ readF32 x = .nan) →
    M = (if fCond .ge a.1 b.1 then a.1 else b.1) →
    (∀ x, fac x = if fCond .eq x M then 0x3F800000
      else (sfu .exp2 (fMul .rne 0 (fAdd .rne 0 x (M ^^^ 0x80000000)).1 0x3FB8AA3B).1).1) →
    (nan a.1 ∨ nan a.2 ∨ nan b.1 ∨ nan b.2 → lseComb a b = (0x7FC00000, 0x7FC00000)) ∧
    (¬(nan a.1 ∨ nan a.2 ∨ nan b.1 ∨ nan b.2) →
      lseComb a b = (M, (fAdd .rne 0 (fMul .rne 0 a.2 (fac a.1)).1 (fMul .rne 0 b.2 (fac b.1)).1).1)) ∧
    (nan a.1 → nan b.1 → argmaxComb a b = if b.2.toNat < a.2.toNat then b else a) ∧
    (nan a.1 → ¬nan b.1 → argmaxComb a b = b) ∧ (nan b.1 → ¬nan a.1 → argmaxComb a b = a) ∧
    (¬nan a.1 → ¬nan b.1 → (below32 b.1 a.1 → argmaxComb a b = a) ∧ (below32 a.1 b.1 → argmaxComb a b = b) ∧
      (a.1 = b.1 → argmaxComb a b = if b.2.toNat < a.2.toNat then b else a))) ∧
  ∀ (s : State) (op : CavOp) (slot : BitVec 2) (d a ph pa : BitVec 5) (b : BitVec 4) (an : BitVec 7) (vrow : BitVec 4) (mask : BitVec 128)
    (ds : List Nat) (dj j n c : Nat), physOf s.curSta.rotd d = some ph → physOf s.curSta.rotd a = some pa → s.curDie.bad = [] →
    mask.toNat = (s.scal (.ts b)).toNat + 2 ^ 64 * (s.scal (.ts (b + 1))).toNat →
    ds = ((List.range 128).filter fun k => k == 0 || mask.getLsbD ((an.toNat + k) % 128)) →
    dj = (s.focus.pos.val + 128 - an.toNat) % 128 → j = (ds.filter fun k => decide (k < dj)).length → n = ds.length - 1 →
    c = (if op = .lse then 8 else 2) →
    (s.focus.pos.val ≠ an.toNat → mask.getLsbD s.focus.pos.val = false → Raises (.cav op slot d a b an vrow) s .schedMiss 0) ∧
    ((s.focus.pos.val = an.toNat ∨ mask.getLsbD s.focus.pos.val = true) →
      ((kget none slot.toNat s.curSta.cav).isSome = true → Raises (.cav op slot d a b an vrow) s .cavSlotBusy 0) ∧
      (kget none slot.toNat s.curSta.cav = none → ∃ t w, exec (.cav op slot d a b an vrow) s = .next t ∧
        t = (s.updSta fun x => { x with cav := t.curSta.cav }) ∧
        (∀ k, kget none k t.curSta.cav = if k = slot.toNat then some w else kget none k s.curSta.cav) ∧
        w.cavd = false ∧ w.op = op ∧ w.anchor = an.toNat ∧ w.acc = s.curSta.vrow pa vrow.toNat ∧ w.phys = ph ∧ w.vrow = vrow ∧
        w.pAt = s.cyc + 3 + dj + c * j ∧ w.sAt = s.cyc + 3 + (ds.getLastD 0 - dj) + c * (n - j) ∧
        w.eAt = max w.pAt w.sAt + c + 1 ∧ (w.first = true ↔ j = 0) ∧ (w.last = true ↔ j = n) ∧ w.pre = none ∧ w.suf = none))) ∧
  (∀ (s : State) (op : CavOp) (slot : BitVec 2) (d a ph pa : BitVec 5) (vrow : BitVec 4) (k : Section) (dies : List DieId)
    (ls : List ChainLink) (c j : Nat) (u : State), physOf s.curSta.rotd d = some ph → physOf s.curSta.rotd a = some pa →
    s.curDie.bad = [] → s.curCtx.sect = some k → dies = s.teamDies s.focus.die → ls = s.chainLinks dies →
    c = (if op = .lse then 8 else 2) → j = dies.idxOf s.focus.die →
    u = (s.updDie fun x => { x with eoc := x.eoc ++ [.cavdIssued] }) →
    (k.xch = false → ∃ t, exec (.cavd op slot d a vrow) s = .next t ∧ Trapped u t .schedMiss 0) ∧
    (k.xch = true → (Eoc.cavdIssued ∈ s.curDie.eoc ∨ s.curDie.cavdBusy = true ∨ (kget none slot.toNat s.curSta.cav).isSome = true) →
      ∃ t, exec (.cavd op slot d a vrow) s = .next t ∧ Trapped u t .cavSlotBusy 0) ∧
    (k.xch = true → Eoc.cavdIssued ∉ s.curDie.eoc → s.curDie.cavdBusy = false → kget none slot.toNat s.curSta.cav = none →
      ((∃ h ∈ ls, h.upG = 0 ∨ h.dnG = 0) → ∃ t, exec (.cavd op slot d a vrow) s = .next t ∧ Trapped u t .laneDirection 0) ∧
      (s.lanesBad ls (cavdP c 3 ls) (cavdS c ls) = false → ∃ t w, exec (.cavd op slot d a vrow) s = .next t ∧ SameMemory s t ∧
        t.curDie.cavdBusy = true ∧ t.curDie.causes = s.curDie.causes ∧ t.curSta = { s.curSta with cav := t.curSta.cav } ∧
        (∀ q, kget none q t.curSta.cav = if q = slot.toNat then some w else kget none q s.curSta.cav) ∧
        w.cavd = true ∧ w.op = op ∧ w.acc = s.curSta.vrow pa vrow.toNat ∧ w.phys = ph ∧ w.vrow = vrow ∧
        w.pAt = s.cyc + (cavdP c 3 ls).getD j 3 ∧ w.sAt = s.cyc + (cavdS c ls).getD j 3 ∧ w.eAt = max w.pAt w.sAt + c + 1 ∧
        (w.first = true ↔ j = 0) ∧ (w.last = true ↔ j = dies.length - 1) ∧
        ∀ i h, ls[i]? = some h → { groups := h.upG, until_ := s.sidc + (cavdP c 3 ls).getD (i + 1) 0 } ∈ (t.link h.k).uses ∧
          { groups := h.dnG, until_ := s.sidc + (cavdS c ls).getD i 0 } ∈ (t.link h.k).uses)))

/-- CAVITY_SWEEP_CHECK, CAVITY_SWEEP_DRIVE, CAVITY_RESULT and CAVD_SWEEP_ARRIVAL (R202, R203, R208) on a die with one busy slot. In
cycle P, but at the first participant, the prefix is taken from the sweep of the slot's anchor and operator that stands on lane cw7, and
in cycle S, but at the last, the suffix from lane ac7, each for the last time, or SCHED_MISS is raised; c cycles later prefix ⊕
contribution goes on, up, and contribution ⊕ suffix, down, into a free slot, and a taken slot raises LANE_CLASH and keeps its item; in
the result cycle prefix ⊕ suffix, or the identity, is written and the slot is freed. The sweeps of CAVD cross to the neighbours of the
chain and arrive after the hop. A die without a busy slot keeps its slots and causes. -/
def Obligations.CavityEvents : Prop :=
  (∀ (s : State) (d : DieId), (s.die d).cavSlots = [] →
    (∃ t, exec (.cavitySweepCheck d) s = .next t ∧ t = { s with ctr := t.ctr }) ∧ exec (.cavitySweepDrive d) s = .next s ∧
    exec (.cavityResult d) s = .next s ∧ ∃ t, exec (.cavdSweepArrival d) s = .next t ∧ t = { s with ctr := t.ctr, cavd := t.cavd } ∧
      ∀ i, i ∈ t.cavd ↔ i ∈ s.cavd ∧ (s.sidc < i.at_ ∨ i.to_ ≠ d)) ∧
  ∀ (s : State) (d : DieId) (p : Pos) (k : Nat) (w : CavSlot) (t0 : Nat) (up dn upOut dnOut : Bool) (onUp onDn : Row) (cause : Cause → CauseRec),
    (s.die d).cavSlots = [(p, k, w)] → kget none k ((s.die d).sta p).cav = some w → t0 = (s.die d).dcyc →
    up = (!w.first && w.pAt == t0) → dn = (!w.last && w.sAt == t0) →
    upOut = (!w.last && t0 == w.pAt + combLat w.op) → dnOut = (!w.first && t0 == w.sAt + combLat w.op) →
    onUp = (match w.pre with | some r => rowComb w.op r w.acc | none => w.acc) →
    onDn = (match w.suf with | some r => rowComb w.op w.acc r | none => w.acc) →
    (∀ c, cause c = accessCause c 0 p .x w.parcel) →
    (w.cavd = false → ∀ u v : Option Item,
      u = (((s.die d).slotAt 7 p.val t0).filter fun i => i.kind == .sweep w.anchor w.op) →
      v = (((s.die d).slotAt 15 p.val t0).filter fun i => i.kind == .sweep w.anchor w.op) →
      ∃ t w', exec (.cavitySweepCheck d) s = .next t ∧ kget none k ((t.die d).sta p).cav = some w' ∧
        w' = { w with pre := w'.pre, suf := w'.suf } ∧ (up = false → w'.pre = w.pre) ∧ (dn = false → w'.suf = w.suf) ∧
        (∀ i, up = true → u = some i → w'.pre = some i.data) ∧ (∀ i, dn = true → v = some i → w'.suf = some i.data) ∧
        (t.die d).causes = (s.die d).causes ++ (if up && u.isNone then [cause .schedMiss] else []) ++
          (if dn && v.isNone then [cause .schedMiss] else []) ∧
        (t.die d).items = (s.die d).items.map fun j => if up && u == some j || dn && v == some j then { j with hops := t0 - j.entry } else j) ∧
    (w.cavd = false → ∀ goUp goDn : Item,
      goUp = { lane := 7, pos := p.val, entry := t0, hops := w.up, kind := .sweep w.anchor w.op, data := onUp, by_ := p, parcel := w.parcel } →
      goDn = { lane := 15, pos := p.val, entry := t0, hops := w.dn, kind := .sweep w.anchor w.op, data := onDn, by_ := p, parcel := w.parcel } →
      let freeUp := ((s.die d).slotAt 7 p.val t0).isNone
      let freeDn := ((s.die d).slotAt 15 p.val t0).isNone
      ∃ t, exec (.cavitySweepDrive d) s = .next t ∧ OnlyDie d s t ∧
        (t.die d).items = (s.die d).items ++ (if upOut && freeUp then [goUp] else []) ++ (if dnOut && freeDn then [goDn] else []) ∧
        (t.die d).causes = (s.die d).causes ++ (if upOut && !freeUp then [cause .laneClash] else []) ++
          (if dnOut && !freeDn then [cause .laneClash] else [])) ∧
    (w.cavd = true → ∀ goUp goDn : CavdItem,
      goUp = { from_ := d, to_ := w.nxt, up := true, at_ := s.sidc + w.up, op := w.op, data := onUp } →
      goDn = { from_ := d, to_ := w.prv, up := false, at_ := s.sidc + w.dn, op := w.op, data := onDn } →
      ∃ t, exec (.cavitySweepDrive d) s = .next t ∧ t.dies = s.dies ∧
        t.cavd = s.cavd ++ (if upOut then [goUp] else []) ++ (if dnOut then [goDn] else [])) ∧
    (w.eAt = t0 → ∃ t r, exec (.cavityResult d) s = .next t ∧ OnlyDie d s t ∧
      ((t.die d).sta p).writes = ((s.die d).sta p).writes ++ [r] ∧ r.land = t0 ∧ r.issued = w.issued ∧
      r.target = .v w.phys w.vrow (BitVec.ofNat 64 (2 ^ 64 - 1)) ((optComb w.op w.pre w.suf).getD (identityRow w.op)) ∧
      (t.die d).eoc = (s.die d).eoc ++ [.cavFree p k]) ∧
    (w.cavd = true → ∀ here : Bool → List CavdItem,
      (∀ u, here u = (s.cavd.filter fun i => i.to_ == d && i.up == u && i.at_ == s.sidc && i.op == w.op &&
        i.from_ == if u then w.prv else w.nxt)) →
      ∃ t w', exec (.cavdSweepArrival d) s = .next t ∧ kget none k ((t.die d).sta p).cav = some w' ∧
        w' = { w with pre := w'.pre, suf := w'.suf } ∧ (up = false → w'.pre = w.pre) ∧ (dn = false → w'.suf = w.suf) ∧
        (∀ i, up = true → here true = [i] → w'.pre = some i.data) ∧ (∀ i, dn = true → here false = [i] → w'.suf = some i.data) ∧
        (t.die d).causes = (s.die d).causes ++ (if up && (here true).isEmpty then [cause .schedMiss] else []) ++
          (if dn && (here false).isEmpty then [cause .schedMiss] else []) ∧
        ∀ i, i ∈ t.cavd ↔ i ∈ s.cavd ∧ (s.sidc < i.at_ ∨ i.to_ ≠ d))

-- ## Links (R209, R211 to R217)

/-- TURN and LANEQ (R213, R214, R217): a TURN of a link between two dies of the team, with room in the queue and, for `.at`, with the checks of
R214 met, joins the link's queue; otherwise TURN_REFUSED is raised. LANEQ lands the word of the queue entry that it names, counting
the entries issued before its cycle, and 0 where there is none.

A group at a cycle is the group after its latest turn by then, dead for 32 cycles from a change of direction.

TURN_EFFECT and DEAD_TIME_END (R215, R216): the `.at` turns of the cycle take effect and leave the queue; then the oldest `.asap` entry
does, from its issue + 2 on, once nothing keeps it, at most one a cycle (log 106). Dead times that have ended are over. Other links are
as before. A direction of a link sends the packet under way to its end, then the longest waiting packet of the next of its three queues
in turn, passing over the empty ones (R210).
Choices and readings of the model that clauses rest on: DESIGN CHOICE, logs 53, 106. -/
def Obligations.LinkWordsAndEvents : Prop :=
  (∀ (l : Link) (lanelim : W64) (us : List Turn), us = ((l.queue.filter (·.at_)).map fun e => ⟨e.group.toNat, e.time, e.dn, e.timed⟩) →
    (∀ (sidc : Nat) (u : Turn), l.atOk lanelim sidc u = true ↔ sidc + 2 ≤ u.at_ ∧ TurnFree l lanelim us u) ∧
    (∀ (t : Nat) (e : TurnEntry), l.asapDue lanelim t e = true ↔
      e.issued + 2 ≤ t ∧ TurnFree l lanelim us ⟨e.group.toNat, t, e.dn, e.timed⟩) ∧
    ∀ (ts : List Turn) (g t : Nat),
      ((∀ u ∈ ts, u.group = g → t < u.at_) →
        l.laneAt ts g t = ⟨l.dir.getLsbD g, l.cls.getLsbD g, if l.dead.getLsbD g then kget 0 g l.deadEnd else 0⟩) ∧
      ∀ u ∈ ts, u.group = g → u.at_ ≤ t → (∀ v ∈ ts.erase u, v.group = g → v.at_ < u.at_ ∨ t < v.at_) →
        ∀ a, a = l.laneAt (ts.erase u) g t → l.laneAt ts g t = ⟨u.dn, u.timed, if u.dn ≠ a.dn then u.at_ + 32 else a.deadTo⟩) ∧
  (∀ (s : State) (dn timed : Bool) (at_ : Option Scal) (link : BitVec 3) (group : BitVec 4) (d : BitVec 6) (entry : BitVec 3)
    (time : Nat) (inTeam : Prop), time = (match at_ with | some a => (s.scal a).toNat | none => 0) →
    (inTeam ↔ (linkEnds link.toNat).1 ∈ s.teamDies s.focus.die ∧ (linkEnds link.toNat).2 ∈ s.teamDies s.focus.die) →
    ((¬inTeam ∨ 8 ≤ (s.link link.toNat).queue.length) → Raises (.turn dn timed at_ link group) s .turnRefused 0) ∧
    (at_.isSome = true → (s.link link.toNat).atOk s.hub.lanelim s.sidc { group := group.toNat, at_ := time, dn := dn, timed := timed } = false →
      Raises (.turn dn timed at_ link group) s .turnRefused 0) ∧
    (inTeam → (s.link link.toNat).queue.length < 8 →
      (at_.isSome = true → (s.link link.toNat).atOk s.hub.lanelim s.sidc { group := group.toNat, at_ := time, dn := dn, timed := timed } = true) →
      ∃ t, exec (.turn dn timed at_ link group) s = .next t ∧ t = { s with links := t.links } ∧
        ∀ k, t.link k = if k = link.toNat then { s.link k with queue := (s.link k).queue ++
          [{ at_ := at_.isSome, time := time, timed := timed, dn := dn, group := group, issued := s.sidc }] } else s.link k) ∧
    ∃ v : W64, ScalarResult (.laneq d link entry) s 2 d v ∧
      (((s.link link.toNat).queue.filter fun e => decide (e.issued < s.sidc)).length ≤ entry.toNat → v = 0) ∧
      ∀ e, ((s.link link.toNat).queue.filter fun e => decide (e.issued < s.sidc))[entry.toNat]? = some e →
        v.getLsbD 15 = true ∧ v.getLsbD 14 = e.at_ ∧ v.getLsbD 13 = e.timed ∧ v.getLsbD 12 = e.dn ∧
        v.toNat % 16 = e.group.toNat ∧ (e.at_ = true → v.toNat / 2 ^ 16 = e.time % 2 ^ 48)) ∧
  (∀ (s : State) (l : Fin 6),
    (∀ due : List TurnEntry, due = ((s.link l).queue.filter fun e => e.at_ && e.time == s.sidc) → (due.map (·.group)).Nodup →
      ∃ t D, exec (.turnEffect l) s = .next t ∧ t = { s with links := t.links } ∧ (∀ k, k ≠ l.val → t.link k = s.link k) ∧
        TurnsTaken (s.link l) D due s.sidc ∧ D.queue = ((s.link l).queue.filter fun e => !(e.at_ && e.time == s.sidc)) ∧
        (D.queue.find? (fun e => !e.at_) = none → t.link l = D) ∧
        ∀ e, D.queue.find? (fun e => !e.at_) = some e →
          (D.asapDue s.hub.lanelim s.sidc e = false → t.link l = D) ∧
          (D.asapDue s.hub.lanelim s.sidc e = true → TurnsTaken D (t.link l) [e] s.sidc ∧ (t.link l).queue = D.queue.erase e)) ∧
    ∃ t, exec (.deadTimeEnd l) s = .next t ∧ t = { s with links := t.links } ∧ (∀ k, k ≠ l.val → t.link k = s.link k) ∧
      (t.link l).dir = (s.link l).dir ∧ (t.link l).cls = (s.link l).cls ∧ (t.link l).queue = (s.link l).queue ∧
      (∀ g < 16, (t.link l).dead.getLsbD g = ((s.link l).dead.getLsbD g && !(s.link l).deadEnd.any fun e => e.1 == g && decide (e.2 ≤ s.sidc))) ∧
      ∀ e, e ∈ (t.link l).deadEnd ↔ e ∈ (s.link l).deadEnd ∧ s.sidc < e.2) ∧
  ∀ (w : Way) (t n : Nat), Way.beats t 0 w = (w, []) ∧
    (0 < w.left → Way.beats t (n + 1) w = Way.beats t n { w with left := w.left - 1 }) ∧
    (w.left = 0 → w.turn < 3 → (∀ q ∈ w.pkts, q.cls < 3) → ((∀ q ∈ w.pkts, t < q.from_) → Way.beats t (n + 1) w = (w, [])) ∧
      ∀ p ∈ w.pkts, p.from_ ≤ t → (∀ q ∈ w.pkts, q.from_ ≤ t → q ≠ p →
          (p.cls + 3 - w.turn) % 3 < (q.cls + 3 - w.turn) % 3 ∨ q.cls = p.cls ∧ p.from_ < q.from_) →
        let r := Way.beats t n { w with pkts := w.pkts.erase p, left := p.beats - 1, turn := (p.cls + 1) % 3 }
        Way.beats t (n + 1) w = (r.1, p :: r.2))

-- ## Traps, handler mode and the bivouac (R24, R282, R288 to R301, R305, R313)

/-- Taking a trap (R24, R288 to R292): the first cause of the cycle is reported (lower rank, then the order within it, then position
and stream), TRAPCAUSE and TRAPPOS take its fields, the die stands frozen in its cycle, the issue latches hold the words that
trapped, and the handler follows exactly when DEN is set and, of each cause of the cycle, DCLS names the class and it is not
IMEM_UNCORRECTABLE or DEBUG_STOP; the causes that are not diverted are those that the base camp learns of.

The settling of an executed die cycle (R24, R281, R284, R292, R298): with a cause, of its own or asynchronous, the die freezes; else a
STOP that is due freezes it without one, then a pre-emption that is due at the retirement of a PRE section outside exchange, and
otherwise the next die cycle follows, after an alignment wait where one is due. The base camp learns of the causes at a free time.

The close of a cycle (R294, R296): what waits for it takes effect; a held or waiting die freezes on an asynchronous cause or a
due STOP; a FRZWR's write takes effect; a cause or an EXIT ends handler mode, and the die stays frozen with the causes reported, NEST and
NCAUSE set by a cause.

Entering the handler (R293): the die enters handler mode at the station that HSTA names, with the frozen context saved, s48 to s63
kept, s0 to s47 zero and its header at HSTA.ENTRY read in this cycle; otherwise HANDLER_ENTRY changes nothing.
Choices and readings of the model that clauses rest on: DEDUCED, log 38, DEDUCED, log 74, DESIGN CHOICE, log 75. -/
def Obligations.FreezeAndHandlerEntry : Prop :=
  (∀ (l : List CauseRec) (c : CauseRec), firstCause l = some c → c ∈ l ∧ ∀ e ∈ l, e.rank < c.rank → False) ∧
  (∀ (l : List CauseRec) (c : CauseRec), firstCause l = some c → ∀ e ∈ l, e.rank = c.rank → c.order ≤ e.order ∧
    (e.order = c.order → c.pos ≤ e.pos ∧ (e.pos = c.pos → c.strm.idx ≤ e.strm.idx))) ∧
  (∀ (d f : Die) (sidc : Nat) (u : Bool) (c : CauseRec), firstCause d.causes = some c → f = d.freeze sidc u →
    f.cond = .frozen ∧ f.dcyc = d.dcyc ∧ f.sfrz = sidc ∧ f.unexec = u ∧ f.causes = [] ∧
    f.trapcause.getLsbD 63 = true ∧ f.trapcause.getLsbD 62 = decide (1 < d.causes.length) ∧ f.trapcause.getLsbD 61 = u ∧
    f.trapcause.toNat % 2 ^ 61 = c.sub.toNat * 2 ^ 16 + (causeCode c.cause).toNat ∧
    (c.named = true → f.trappos.toNat = c.strm.idx.val * 2 ^ 60 + c.pos.val * 2 ^ 53 + c.parcel.toNat * 2 ^ 32 + d.dcyc % 2 ^ 32) ∧
    (c.named = false → f.trappos.toNat = d.dcyc % 2 ^ 32) ∧
    let goes (e : CauseRec) : Prop := d.hsta.den = true ∧ d.hsta.dcls.getLsbD (causeClass e.cause) = true ∧
      e.cause ≠ .imemUncorrectable ∧ e.cause ≠ .debugStop
    (f.handlerNext = true ↔ ∀ e ∈ d.causes, goes e) ∧
    (∀ k q, (k, q) ∈ f.reports ↔ ∃ e ∈ d.causes, ¬goes e ∧ k = causeCode e.cause ∧ q = e.pos) ∧
    ∀ p st, ({ f.sta p with ctx := (d.sta p).ctx } : Station) = d.sta p ∧
      ({ (f.sta p).ctxOf st with latch := {} } : Ctx) = { (d.sta p).ctxOf st with latch := {} } ∧
      ((∀ t ∈ d.latchNow, ¬(t.1 = p ∧ t.2.1 = st)) → ((f.sta p).ctxOf st).latch.v = false) ∧
      ∀ q k, d.latchNow = [(p, st, q, k)] → ((f.sta p).ctxOf st).latch = { v := true, replay := false, parcel := q, cause := k }) ∧
  (∀ (s : State) (d : DieId) (pre : Bool) (z : Die), ((s.die d).ended = none → settleTask d s = .next s) ∧
    ((s.die d).ended = some pre → (s.die d).monitors = [] → z = { s.die d with ended := none, late := [], asyncs := [], causes :=
        (s.die d).causes ++ (s.die d).late ++ (s.die d).asyncs } →
      let stop : Prop := ∃ n, z.stopAt = some n ∧ n ≤ s.sidc
      let switch : Prop := (∃ n, z.preemptAt = some n ∧ n ≤ s.sidc) ∧ z.xch = false ∧ pre = true
      ∃ t, settleTask d s = .next t ∧
        (z.causes ≠ [] → t.dies = (s.setDie d (t.die d)).dies ∧ SameMemory s t ∧ (t.die d) = { z.freeze s.sidc false with
            stopAt := none, handlerNext := (t.die d).handlerNext, reportAt := (t.die d).reportAt } ∧
          ((t.die d).handlerNext = true ↔ (z.freeze s.sidc false).handlerNext = true ∧ ¬stop) ∧
          ((z.freeze s.sidc false).handlerNext = true → (t.die d).reportAt = z.reportAt) ∧
          ((z.freeze s.sidc false).handlerNext = false → ∃ n, (t.die d).reportAt = some n ∧ s.sidc + 99 ≤ n)) ∧
        (z.causes = [] → stop → t = s.setDie d (z.freezeQuiet s.sidc false) ∧ (t.die d).cond = .frozen ∧ (t.die d).dcyc = z.dcyc ∧
          (t.die d).trapcause.toNat = 2 ^ 63 ∧ (t.die d).trappos.toNat = z.dcyc % 2 ^ 32 ∧ (t.die d).handlerNext = false) ∧
        (z.causes = [] → ¬stop → switch → t = { s.setDie d z with agenda := .ev (.preemptionFreeze d) :: s.agenda }) ∧
        (z.causes = [] → ¬stop → ¬switch → t = s.setDie d (if s.sidc + 1 < z.notBefore then { z with cond := .waiting }
          else { z with dcyc := z.dcyc + 1, notBefore := 0 })))) ∧
  (∀ (s u : State) (d : DieId) (x y w : Die), u = s.applyEoc d → x = u.die d →
    y = { x with causes := x.causes ++ x.asyncs, asyncs := [] } → w = { y with tele := { y.tele with await := y.tele.await + 1 } } →
    let stop : Prop := ∃ n, x.stopAt = some n ∧ n ≤ u.sidc
    let freezes (z : Die) (held : Bool) : Prop := ∃ t, closeTask d s = .next t ∧ (t.die d) = { z.freeze u.sidc held with
        stopAt := none, handlerNext := (t.die d).handlerNext, reportAt := (t.die d).reportAt } ∧
      ((t.die d).handlerNext = true ↔ (z.freeze u.sidc held).handlerNext = true ∧ ¬stop) ∧
      ((z.freeze u.sidc held).handlerNext = false → ∃ n, (t.die d).reportAt = some n ∧ u.sidc + 99 ≤ n)
    ((s.die d).cond = .running → ∃ pre, closeTask d s = .next (u.setDie d { x with ended := some pre }) ∧
      (pre = true ↔ ∃ p st v, Eoc.rsec p st v true ∈ (s.die d).eoc)) ∧
    ((s.die d).cond ≠ .running →
      (x.cond = .held → y.causes ≠ [] → freezes y true) ∧ (x.cond = .waiting → y.causes ≠ [] → freezes w false) ∧
      (x.cond = .held → y.causes = [] → stop → closeTask d s = .next (u.setDie d (x.freezeQuiet u.sidc true))) ∧
      (x.cond = .waiting → y.causes = [] → stop → closeTask d s = .next (u.setDie d (w.freezeQuiet u.sidc false))) ∧
      (x.cond = .held → y.causes = [] → ¬stop → closeTask d s = .next u) ∧
      (x.cond = .waiting → y.causes = [] → ¬stop → closeTask d s = .next (u.setDie d w)) ∧
      (x.cond = .idle → closeTask d s = .next (u.setDie d { x with asyncs := [], late := [], causes := [] })) ∧
      (x.cond = .frozen ∨ x.cond = .handler → closeTask d s = .next u))) ∧
  (∀ (s : State) (d : DieId) (a : Nat) (v : W64), ((s.die d).eoc = [] → s.applyFrz d = s) ∧
    ((s.die d).eoc = [.frz a v] → s.applyFrz d = (s.frzPut d a v false).getD s)) ∧
  (∀ (s u : State) (d : DieId) (x : Die), u = (s.applyFrz d).applyEoc d → x = u.die d →
    let ends : Prop := x.cond = .handler ∧ (x.causes ≠ [] ∨ ((x.sta x.hpos).ctxOf .c).retired = true)
    (¬ends → hcloseTask d s = .next u) ∧
    (ends → ∃ t n, hcloseTask d s = .next t ∧ t.dies = (u.setDie d (t.die d)).dies ∧ SameMemory u t ∧
      (t.die d).cond = .frozen ∧ (t.die d).saved = none ∧ (t.die d).hctx = none ∧ (t.die d).hwrites = [] ∧
      (t.die d).handlerNext = false ∧ (t.die d).causes = [] ∧ (t.die d).reportAt = some n ∧ u.sidc + 99 ≤ n ∧
      (t.die d).trappos = x.trappos ∧ (t.die d).dcyc = x.dcyc ∧ (∀ p, p ≠ x.hpos → (t.die d).sta p = x.sta p) ∧
      (∀ k, x.saved = some k → (t.die d).sta x.hpos = { (x.sta x.hpos).setCtx .c k.ctx with s := k.s, div := k.div }) ∧
      (∀ c, firstCause x.causes = some c → (t.die d).hsta = { x.hsta with nest := true } ∧ (t.die d).trapcause.getLsbD 60 = true ∧
        (t.die d).trapcause.toNat / 256 % 256 = (causeCode c.cause).toNat ∧
        (t.die d).trapcause.toNat % 256 = x.trapcause.toNat % 256 ∧
        ∀ k q, (k, q) ∈ (t.die d).reports ↔ ∃ e ∈ x.causes, k = causeCode e.cause ∧ q = e.pos) ∧
      (x.causes = [] → (t.die d).hsta = x.hsta ∧ (t.die d).trapcause = x.trapcause ∧
        (t.die d).reports = [(fld x.trapcause 0 8, Fin.ofNat 128 (fld x.trappos 53 7 : BitVec 7).toNat)]))) ∧
  (∀ (s : State) (d : DieId),
    (((s.die d).handlerNext = false ∨ (s.die d).cond ≠ .frozen) → exec (.handlerEntry d) s = .next s) ∧
    ((s.die d).handlerNext = true → (s.die d).cond = .frozen → ∃ t x y c, exec (.handlerEntry d) s = .next t ∧ OnlyDie d s t ∧
      x = (s.die d).sta (s.die d).hsta.pos ∧ y = (t.die d).sta (s.die d).hsta.pos ∧ c = y.ctxOf .c ∧
      (t.die d).cond = .handler ∧ (t.die d).hpos = (s.die d).hsta.pos ∧ (t.die d).dcyc = (s.die d).dcyc ∧
      (t.die d).trapcause = (s.die d).trapcause ∧ (t.die d).trappos = (s.die d).trappos ∧
      (t.die d).saved = some { ctx := x.ctxOf .c, s := x.s, div := x.div } ∧
      (∀ p, p ≠ (s.die d).hsta.pos → (t.die d).sta p = (s.die d).sta p) ∧
      y = { x with ctx := y.ctx, s := y.s, div := {} } ∧ (∀ st, st ≠ .c → y.ctxOf st = x.ctxOf st) ∧
      (∀ k, kget 0 k y.s = if k < 48 then 0 else kget 0 k x.s) ∧
      c.next = .hdr (s.die d).hsta.entry s.sidc 0 ∧ c.q = 0 ∧ c.b = [] ∧ c.loops = [] ∧ c.calls = [] ∧ c.retired = false))

/-- The words of the handler (R294 to R298, R300, R301). Outside handler mode each raises WRONG_STREAM. In handler mode FRZRD's word
lands four cycles later, FRZWR's write comes at the end of the cycle, an unmapped address reads 0, is not written and sets FBAD; STOW
and UNSTOW begin, a STOW whose image does not begin in the die's share with its outcome 0xC1; RESUME sets out on its steps, and with
no write and no access to make up it goes to the replays and their end, and has made anew the dx promotions of trapped tokens whose BS the
handler has rewritten, and not their C_dx, and written every valid PG into G. A cycle that has not executed makes its accesses as it executes, none at RESUME. The frozen map holds
every bank word at the station's base plus its byte address, and DCYC as CSR 1 of the die.

The image (R299 to R301): its header's fields and CRC-32C; its body, every mapped word but those of dead rotating registers in ascending
order, 332,697,600 B less 4,096 B for each dead register; UNSTOW writes nothing where the header fails a check (0xC2), and else every bank
word of the granules that it could read.
Choices and readings of the model that clauses rest on: DESIGN CHOICE, log 15, DESIGN CHOICE, log 16, DEDUCED, log 28, DEDUCED, log 35,
DEDUCED, log 87. -/
def Obligations.HandlerWords : Prop :=
  (∀ (s : State) (d : BitVec 6) (a b : Scal) (v : W32) (f : Nat), f = (s.scal a + v.signExtend 64).toNat →
    (s.focus.handler = false → Raises (.frzrd d a v) s .wrongStream 0 ∧ Raises (.frzwr a b v) s .wrongStream 0 ∧
      Raises .resume s .wrongStream 0 ∧ Raises (.stow a) s .wrongStream 0 ∧ Raises (.unstow a) s .wrongStream 0) ∧
    (s.focus.handler = true →
      (∀ w, s.frzGet s.focus.die f = some w → (∃ t, exec (.frzrd d a v) s = .next t ∧ Adds s.bump t (s.scalarWrites 4 d w)) ∧
        ∃ t, exec (.frzwr a b v) s = .next t ∧ Defers s t [.frz f (s.scal b)]) ∧
      (s.frzGet s.focus.die f = none → (∃ t, exec (.frzrd d a v) s = .next t ∧ Adds s.setFbad t (s.scalarWrites 4 d 0)) ∧
        exec (.frzwr a b v) s = .next s.setFbad) ∧
      (∃ t k, exec (.stow a) s = .next t ∧ t.ctr = s.ctr + 1 ∧ { t with ctr := s.ctr } = s.updDie (fun x => { x with stow := some k }) ∧
        k.who = .handler ∧ k.unstow = false ∧ k.parcel = s.focus.parcel ∧ k.va = (s.scal a).toNat / 256 % 2 ^ 40 * 256 ∧ k.off = 0 ∧
        k.until_ = none ∧ (k.out = none ↔ s.curDie.bivbase ≤ k.va ∧ k.va + 256 ≤ s.curDie.bivend) ∧
        (k.out = none ∨ k.out = some 0xC1)) ∧
      (∃ t k n, exec (.unstow a) s = .next t ∧ t.ctr = s.ctr + 1 ∧
        { t with ctr := s.ctr } = s.updDie (fun x => { x with stow := some k }) ∧
        k.who = .handler ∧ k.unstow = true ∧ k.va = (s.scal a).toNat / 256 % 2 ^ 40 * 256 ∧ k.out = none ∧ k.until_ = some n ∧
        s.sidc < n) ∧
      (∃ t l, exec .resume s = .next t ∧ t.agenda = l ++ s.agenda ∧ (l = [] ∨ l.getLast? = some (.resumeEnd s.focus.die)) ∧
        t.mem = s.mem ∧ t.hostMem = s.hostMem ∧ t.hub = s.hub ∧ t.far = s.far ∧ ∀ e, e ≠ s.focus.die → t.die e = s.die e) ∧
      ((∀ p, (s.curDie.sta p).writes = []) → s.curDie.latched = [] → s.curDie.hctx = none → ∃ t, exec .resume s = .next t ∧
        t = { (s.updDie Die.putPgs).bump with agenda := t.agenda } ∧
        t.agenda = s.curDie.swapIn.replays s.focus.die ++ .resumeEnd s.focus.die :: s.agenda))) ∧
  (∀ (d : Die) (k : Nat) (c : Cell), kwf ({} : Cell) d.cells = true → c = kget {} k d.promoteAll.cells →
    kget {} k d.putPgs.cells = (if c.pgv then c.applyPg else c) ∧ (d.promos = [] → c = kget {} k d.cells)) ∧
  (∀ (d : Die) (h : HeldPromo) (x y : Cell) (dx : Int), kwf ({} : Cell) d.cells = true → d.promos = [h] → h.token < 2 →
    x = kget {} h.cell d.cells → y = kget {} h.cell d.promoteAll.cells → dx = (fld x.bs (48 * h.token) 48).toInt →
    d.promoteAll.promos = [] ∧ (∀ k, k ≠ h.cell → kget {} k d.promoteAll.cells = kget {} k d.cells) ∧
    let again := (h.wrote = true ∨ dx ≠ 0) ∧ fld x.bc (32 * h.token) 32 = 0x7FC00000
    (¬again → y = x) ∧
    (again → y = { x with bs := y.bs, bc := y.bc } ∧ fld y.bs (48 * h.token) 48 = 0 ∧ fld y.bc (32 * h.token) 32 =
      (if h.scale = 255 ∨ dx = -(2 ^ 47 : Nat) then 0x7FC00000 else
        (addV .rne 0 (readF32 h.bc) (.num (decide (dx < 0)) dx.natAbs ((h.scale : Int) - 149))).1) ∧
      ∀ u < 2, u ≠ h.token → fld y.bs (48 * u) 48 = fld x.bs (48 * u) 48 ∧ fld y.bc (32 * u) 32 = fld x.bc (32 * u) 32)) ∧
  (∀ (s : State) (d : DieId) (k n : Nat) (v : W64), k < 2 ^ 20 → n < 32 →
    ∃ t, s.frzPut d (0x10000000 + 0x100 * k + 8 * n) v false = some t ∧ OnlyDie d s t ∧
      (t.die d).promos = (s.die d).promos.map fun h => if h.cell = k ∧ n = 17 + h.token then { h with wrote := true } else h) ∧
  (∀ (d : Die) (sidc fr : Nat),
    (d.unexec = true → d.replayed fr = d ∧ (d.unfreeze sidc).cond = .running ∧ (d.unfreeze sidc).dcyc = d.dcyc) ∧
    (d.unexec = false → d.notBefore ≤ sidc + 1 → (d.unfreeze sidc).cond = .running ∧ (d.unfreeze sidc).dcyc = d.dcyc + 1)) ∧
  (∀ (s : State) (d : DieId) (p : Pos) (b : BitVec 3) (r : BitVec 7) (k : BitVec 5) (v : W64) (f : Nat),
    f = 0x100000 * p.val + 0x8000 * b.toNat + 0x100 * r.toNat + 8 * k.toNat →
    s.frzGet d f = some (fld (((s.die d).sta p).bankRow b r.toNat) (64 * k.toNat) 64) ∧
    (∃ t, s.frzPut d f v false = some t ∧ t.frzGet d f = some v ∧ OnlyDie d s t ∧ ∀ g < 0x40000, g ≠ 0x8000 * b.toNat + 0x100 * r.toNat +
      8 * k.toNat → t.frzGet d (0x100000 * p.val + g) = s.frzGet d (0x100000 * p.val + g)) ∧
    s.frzGet d 0x21000008 = some (BitVec.ofNat 64 (s.die d).dcyc) ∧ (∀ a, a % 8 ≠ 0 → s.frzGet d a = none)) ∧
  (∀ (s : State) (d : DieId) (off : Nat) (c : Bool) (h : Row), h = rowOfBytes (s.bivHeader d off c) →
    (s.bivHeader d off c).length = 256 ∧ (fld h 32 32 : W32) = 0x42495655 ∧ h.getLsbD 31 = c ∧ (fld h 18 13 : BitVec 13) = 0 ∧
    (fld h 16 2 : BitVec 2).toNat = d.val ∧ fld h 0 16 = (s.die d).team ∧ fld h 64 64 = BitVec.ofNat 64 (s.die d).sfrz ∧
    fld h 128 64 = BitVec.ofNat 64 (bodyLen (s.die d).dmap) ∧ fld h 192 64 = BitVec.ofNat 64 off ∧
    (∀ p : Pos, (fld h (256 + 5 * p.val) 5 : BitVec 5).toNat = min 16 ((s.die d).sta p).rotd.d) ∧ (fld h 896 1120 : BitVec 1120) = 0 ∧
    fld h 2016 32 = crc32c ((s.bivHeader d off c).take 252) ∧ headerOk d (s.die d).team h = c) ∧
  crc32c [0x31, 0x32, 0x33, 0x34, 0x35, 0x36, 0x37, 0x38, 0x39] = 0xE3069283 ∧
  (∀ dm : List Nat, dm.length = 128 → (∀ n ∈ dm, n ≤ 16) →
    bodyLen dm + 4096 * (dm.map (16 - ·)).sum = 332697600 ∧ (∀ o, (partAt (bodyParts dm) o).isSome = true ↔ o < bodyLen dm) ∧
    (∀ o o' a a', o < o' → partAt (bodyParts dm) o = some a → partAt (bodyParts dm) o' = some a' → a < a') ∧
    (∀ a, (∃ o, partAt (bodyParts dm) o = some a) ↔
      (∃ n, dm[a / 0x100000]? = some n ∧ ∃ e ∈ staParts n, e.1 ≤ a % 0x100000 ∧ a % 0x100000 < e.1 + e.2) ∨
      (0x10000000 ≤ a ∧ a < 0x20028000) ∨ (0x20040000 ≤ a ∧ a < 0x20080000) ∨ (0x21000000 ≤ a ∧ a < 0x21001000))) ∧
  (∀ n, staParts n = [(0, 0x40000), (0x40000, 0x1000 * (16 + n)), (0x60000, 0x400), (0x61000, 0x2000), (0x64000, 0x4000),
    (0x68000, 0x8000), (0x70000, 0x8000), (0x78000, 0x800), (0x7C000, 0x1000), (0x7D000, 0x2000)]) ∧
  (∀ (s : State) (d : DieId) (dm : List Nat) (off k : Nat), k < 32 → fld (s.bodyRow d dm off) (64 * k) 64 =
    match partAt (bodyParts dm) (off + 8 * k) with | some a => (s.frzGet d a).getD 0 | none => 0) ∧
  (∀ (s u : State) (d : DieId) (k : StowOp) (h : Row) (parts : List (Nat × Nat)) (b : List Row × Option (Nat × Xlate)),
    s.granule d k.va .read = .ok u h → parts = bodyParts (headerDmap h) →
    b = (u.bodyRows d k.va (bodyLen (headerDmap h) / 256) 0).2 →
    (headerOk d (s.die d).team h = false →
      s.unstowNow d k = u.setDie d { s.die d with stow := some { k with out := some 0xC2 } }) ∧
    (headerOk d (s.die d).team h = true →
      ((s.unstowNow d k).die d).stow = some { k with out := some (if b.2 = none then 0 else 0xC0) } ∧
      (∀ i j r a, b.1[i]? = some r → j < 32 → partAt parts (256 * i + 8 * j) = some a → a < 0x8000000 → a % 0x100000 < 0x40000 →
        (s.unstowNow d k).frzGet d a = some (fld r (64 * j) 64)) ∧
      (b.2 = none → ∀ p : Pos, min 16 (((s.unstowNow d k).die d).sta p).rotd.d = min 16 (fld h (256 + 5 * p.val) 5 : BitVec 5).toNat)))

/-- STOW_END, UNSTOW_END, TEAM_STOW_END, PREEMPTION_FREEZE, PREEMPTION_STOW_END, CAUSE_REPORT and DEBUG_STOP (R281, R282, R292, R300,
R301, R305, R313): an outcome goes into SVST and a whole STOW sets SVOFF to 0; a stow for a team counts its die; a die at its
pre-emption point freezes, begins its stow from the image's first granule on, and is free once all is stowed, what its far work has brought since too. A reported cause, once the base camp knows of it, ends the
team with status FAULT and its cause and place and stops its other dies in the next cycle; a report of debug stops and monitor fires
alone parks the team under the debugger; at IMEM_UNCORRECTABLE the station's planes come back, and the team is pre-empted where every die
of it has a whole image at the start of its share, else it ends.
Choices and readings of the model that clauses rest on: DEDUCED, log 28, DEDUCED, log 38, DESIGN CHOICE, log 75. -/
def Obligations.StowAndReportEvents : Prop :=
  (∀ (s : State) (d : DieId) (u : Bool) (i : Instr), (u, i) ∈ [(false, Instr.stowEnd d), (true, .unstowEnd d)] →
    (∀ k c, (s.die d).stow = some k → k.who = .handler → k.unstow = u → k.out = some c → ∃ t, exec i s = .next t ∧ OnlyDie d s t ∧
      t.die d = { s.die d with stow := none, hsta := { (s.die d).hsta with svst := c }, svoff := (t.die d).svoff } ∧
      (t.die d).svoff = if u = false ∧ c = 0 then 0 else (s.die d).svoff) ∧
    ((∀ k, (s.die d).stow = some k → k.who ≠ .handler ∨ k.unstow ≠ u ∨ k.out = none) → exec i s = .next s)) ∧
  (∀ (s : State) (d : DieId) (k : StowOp) (g : Team), (s.die d).stow = some k → s.teamOf d = some g →
    (k.who ≠ .fault ∨ k.out = none → exec (.teamStowEnd d) s = .next s) ∧
    (k.who = .fault → k.out.isSome = true → ∃ t, exec (.teamStowEnd d) s = .next t ∧ (t.die d) = { s.die d with stow := none } ∧
      (∀ e, e ≠ d → t.die e = s.die e) ∧ t.hub.teams = s.hub.teams.map fun x => if x.num = g.num then { g with stowed := g.stowed ++ [d] } else x)) ∧
  (∀ (s : State) (d : DieId), ∃ t k, exec (.preemptionFreeze d) s = .next t ∧ (∀ e, e ≠ d → t.die e = s.die e) ∧ t.hub = s.hub ∧
    (t.die d).cond = .frozen ∧ (t.die d).sfrz = s.sidc ∧ (t.die d).dcyc = (s.die d).dcyc ∧ (t.die d).preemptAt = none ∧
    (t.die d).handlerNext = false ∧ (t.die d).trapcause.getLsbD 63 = true ∧ (t.die d).stow = some k ∧ k.who = .preempt ∧
    k.unstow = false ∧ k.va = (s.die d).bivbase ∧ k.off = 0 ∧ (t.die d).svoff = 0) ∧
  (∀ (s : State) (d : DieId) (k : StowOp) (g : Team), s.teamOf d = some g → (s.die d).stow = some k → k.who = .preempt →
    (k.out = none → exec (.preemptionStowEnd d) s = .next s) ∧
    (∀ c, k.out = some c → c ≠ 0 → ∃ t k', exec (.preemptionStowEnd d) s = .next t ∧ (t.die d).stow = some k' ∧ k'.who = .preempt ∧
      k'.va = k.va ∧ t.hub = s.hub) ∧
    (k.out = some 0 → g.phase = .preempting → g.dies = [d] → (s.die d).cond = .frozen → (s.fs d).anyFar = false → g.unsettled = [] →
      ∃ t, exec (.preemptionStowEnd d) s = .next t ∧ (t.die d).cond = .idle ∧ (t.die d).team = 0 ∧ (t.die d).stow = none ∧
        (t.die d).svoff = 0 ∧ ∀ x ∈ t.hub.teams, x.num = g.num → x.phase = .preempted ∧ x.stowed = g.stowed ++ [d] ∧
          x.holds = g.holds + (s.die d).holds) ∧
    (k.out = some 0 → (∃ e ∈ g.dies, e ≠ d ∧ e ∉ g.stowed) → ∃ t, exec (.preemptionStowEnd d) s = .next t ∧
      t.die d = { s.die d with stow := none, svoff := 0 } ∧ ∀ x ∈ t.hub.teams, x.num = g.num → x.phase = g.phase ∧
        x.stowed = g.stowed ++ [d] ∧ x.unsettled = if (s.fs d).anyFar then g.unsettled ++ [d] else g.unsettled)) ∧
  (∀ (s : State) (d : DieId) (g : Team) (r : State × Bool), s.teamOf d = some g → (s.die d).stow = none → g.phase = .preempting →
    g.dies = [d] → g.stowed = [d] → g.unsettled = [d] → (s.die d).cond = .frozen → (s.fs d).anyFar = false →
    r = s.restow d (s.die d).dmap (s.die d).bivbase (bodyLen (s.die d).dmap / 256) 0 → (r.1.die d).stow = none →
    ∃ t, exec (.preemptionStowEnd d) s = .next t ∧ ∀ x ∈ t.hub.teams, x.num = g.num → x.unsettled = [] ∧
      (r.2 = true → (t.die d).cond = .idle ∧ x.phase = .preempted) ∧
      (r.2 = false → (t.die d).stow.isSome = true ∧ (t.die d).cond = (r.1.die d).cond ∧ x.phase = .preempting ∧ x.stowed = [])) ∧
  (∀ (s : State) (d : DieId), (∀ n, (s.die d).reportAt = some n → s.sidc < n) → exec (.causeReport d) s = .next s) ∧
  (∀ (s : State) (d : DieId) (n : Nat), (s.die d).reportAt = some n → n ≤ s.sidc →
    (s.teamOf d = none → exec (.causeReport d) s = .next (s.setDie d { s.die d with reportAt := none })) ∧
    ∀ (g : Team) (cause : Byte), s.teamOf d = some g → cause.toNat = (s.die d).trapcause.toNat % 256 →
    ∃ t ty, exec (.causeReport d) s = .next t ∧
      (∀ e, e ∉ g.dies → t.die e = s.die e) ∧
      (∀ e ∈ g.dies, e ≠ d → t.die e = { s.die e with preemptAt := (t.die e).preemptAt, stow := (t.die e).stow, stopAt :=
        if (s.die e).cond ≠ .frozen ∨ (s.die e).handlerNext = true then some (s.sidc + 1) else (s.die e).stopAt }) ∧
      ((∀ e ∈ (s.die d).reports, e.1 ≠ 0xF9) → t.die d = { s.die d with
        preemptAt := (t.die d).preemptAt, stow := (t.die d).stow, reportAt := none }) ∧
      (∀ e ∈ g.dies, (g.phase ≠ .preempting ∧ g.phase ≠ .resuming → (t.die e).preemptAt = (s.die e).preemptAt ∧
          (t.die e).stow = (s.die e).stow) ∧
        (g.phase = .preempting ∨ g.phase = .resuming → (∀ e ∈ (s.die d).reports, e.1 ≠ 0xF9) → s.hub.dbgctl = false →
          (t.die e).preemptAt = none ∧ ∀ k, (t.die e).stow = some k → k.who ≠ .preempt ∧ k.who ≠ .resume ∧ (s.die e).stow = some k)) ∧
      (g.phase ≠ .ending → (s.hub.dbgctl = false ∨ ∃ e ∈ (s.die d).reports, e.1 ≠ 0xFA ∧ e.1 ≠ 0xFB) →
        ∀ p, (0xF9, p) ∈ (s.die d).reports → ((t.die d).sta p).plane = ((s.die d).sta p).kept ∧
          ((t.die d).sta p).shadow = ((s.die d).sta p).kept) ∧
      (g.phase = .ending → t.hub = s.hub) ∧
      (g.phase ≠ .ending → t.hub.hevnow = s.hub.hevnow ++ [eventOf ty cause g.num d (s.die d).trappos s.sidc]) ∧
      (∀ x ∈ t.hub.teams, x.num = g.num → g.phase ≠ .ending →
        (s.hub.dbgctl = true → (s.die d).reports ≠ [] → (∀ e ∈ (s.die d).reports, e.1 = 0xFA ∨ e.1 = 0xFB) →
          x = { g with phase := .parked } ∧ ty = 3) ∧
        ((s.hub.dbgctl = false ∨ (s.die d).reports = [] ∨ ∃ e ∈ (s.die d).reports, e.1 ≠ 0xFA ∧ e.1 ≠ 0xFB) → ty = 2 ∧
          ((∃ e ∈ (s.die d).reports, e.1 = 0xF9) → s.imagesWhole g = true →
            x = { g with phase := .preempting, stowed := g.dies, unsettled := [] }) ∧
          ((∀ e ∈ (s.die d).reports, e.1 ≠ 0xF9) ∨ s.imagesWhole g = false →
            x = { g with phase := .ending, status := 1, cause := cause, pos := x.pos, stowed := [] } ∧
            x.pos.toNat = d.val * 2 ^ 62 + (s.die d).trappos.toNat % 2 ^ 62)))) ∧
  (∀ (s : State) (g : Team), s.imagesWhole g = true ↔ ∀ e ∈ g.dies, (s.die e).bivbase + 256 ≤ (s.die e).bivend ∧
    ∃ u r, s.granule e (s.die e).bivbase .read = .ok u r ∧ headerOk e g.num r = true) ∧
  (∀ (s : State) (d : DieId), s.teamOf d = none → exec (.teamStowEnd d) s = .next s ∧ exec (.preemptionStowEnd d) s = .next s) ∧
  (∀ (s : State) (d : DieId),
    ((∀ n, (s.die d).debugAt = some n → s.sidc < n) → exec (.debugStop d) s = .next s) ∧
    (∀ n, (s.die d).debugAt = some n → n ≤ s.sidc → ∃ t c, exec (.debugStop d) s = .next t ∧ OnlyDie d s t ∧
      t.die d = { s.die d with debugAt := none, causes := (s.die d).causes ++ [c] } ∧ c.cause = .debugStop ∧ c.named = false))

-- ## Die cycles, holds, headers and waits (R18 to R23, R44, R50, R51, R241, R245, R280)

/-- DIE_CYCLE (R18 to R20, R22): with no condition unmet the die executes its die cycle, in which exactly the streams whose word or
header is due issue, and which ends with the closing of the cycle; else it holds: no word issues, HOLDCNT counts the cycle, each
(station, cause) pair is charged once, and every register, latch, bank and in-flight write is as before. An FQPOP waits while the
head row of its queue is absent, an RDVW while the die's copy of the phase is the one its stream has consumed, an ADMIT for the
governor alone; in exchange nothing waits.

FAR_WAIT (R21), ALIGNMENT_WAIT_END (R23, R241) and SECTION_HEADER (R50, R51): a hold that reaches HOLDMAX raises FAR_WAIT where a far
or rendezvous condition is unmet, naming the waiting word at the lowest position and first stream; the cycle after an ALIGN's executes
no earlier than its time; a header that is due opens its section, or raises BAD_HEADER and stays the stream's next.

Monitors and snapshots (R312, R314): a monitor whose condition holds at the end of an executed cycle counts and has fired; the lowest of
those that first fire is reported, and one with FRZ freezes the die; the hold record of a station that pops a loop entry is copied.
Choices and readings of the model that clauses rest on: DEDUCED, log 37, DEDUCED, log 66, DEDUCED, log 83. -/
def Obligations.DieCyclesAndHolds : Prop :=
  (∀ (s : State) (d : DieId) (x : Die) (ws : List Wait), x = { s.die d with xch := (s.die d).inExchange } → ws = (s.setDie d x).waits d →
    (ws = [] → ∃ t l, exec (.dieCycle d) s = .next t ∧ t = { s.setDie d { x with cond := .running } with agenda := l ++ s.agenda } ∧
      l.getLast? = some (.close d) ∧
      ∀ p st, Task.issue d p st ∈ l ↔ (∃ q a, ((x.sta p).ctxOf st).next = .word q a ∧ a ≤ x.dcyc) ∨
        ∃ q a w, ((x.sta p).ctxOf st).next = .hdr q a w ∧ a ≤ x.dcyc) ∧
    (ws ≠ [] → ∃ t l, exec (.dieCycle d) s = .next t ∧ t.agenda = l ++ s.agenda ∧ { t with agenda := s.agenda } = s.setDie d (t.die d) ∧
      (∀ p st, Task.issue d p st ∉ l) ∧ Task.ev (.farWait d) ∈ l ∧ (t.die d).cond = .held ∧
      (t.die d).holdcnt = (if x.cond = .held then x.holdcnt + 1 else 1) ∧ (t.die d).holds = x.holds + 1 ∧
      t.die d = { x with cond := .held, holdcnt := (t.die d).holdcnt, holds := x.holds + 1, tele := (t.die d).tele,
                         stations := (t.die d).stations } ∧
      (∀ e ∈ [(WaitKind.vlt, Tele.vlt), (.gdr, Tele.gdr), (.rmt, Tele.rmt), (.rdv, Tele.rdv), (.gov, Tele.gov)],
        e.2 (t.die d).tele = e.2 x.tele + if ws.any fun w => w.kind == e.1 then 1 else 0) ∧
      ∀ p, ((t.die d).sta p) = { x.sta p with live := ((t.die d).sta p).live } ∧
        ∀ e ∈ [(WaitKind.vlt, HoldRec.vlt), (.gdr, HoldRec.gdr), (.rmt, HoldRec.rmt), (.rdv, HoldRec.rdv), (.gov, HoldRec.gov)],
          e.2 ((t.die d).sta p).live =
            if ws.any fun w => w.pos == p && w.kind == e.1 then inc32 (e.2 (x.sta p).live) else e.2 (x.sta p).live)) ∧
  (∀ (s : State) (d : DieId), (s.die d).xch = true → s.waits d = []) ∧
  (∀ (s : State) (d : DieId) (u : State) (w : Wait), u = s.setDie d (s.die d).landed → (s.die d).xch = false → (w ∈ s.waits d ↔
    ∃ i, (w.pos, w.strm, w.parcel, i) ∈ u.acting d ∧ (u.focusOn d w.pos w.strm w.parcel false false).waitKind i = some w.kind)) ∧
  (∀ (s : State) (d : DieId) (p : Pos) (st : Strm) (q : Parcel) (i : Instr), ((p, st, q, i) ∈ s.acting d →
      s.actsOf d p st = some (p, st, q, i)) ∧
    (s.actsOf d p st = some (p, st, q, i) → ((p, st, q, i) ∉ s.acting d ↔ ∃ k o m, i = .admitWork k o m ∧
      ∃ p' st' q' o' m', s.actsOf d p' st' = some (p', st', q', .admitWork k o' m') ∧
        (p' < p ∨ p' = p ∧ st'.idx < st.idx)))) ∧
  (∀ (s : State) (k : FKind) (o : Bool) (m : Count) (dl : Nat), dl = rampDelta s.hub.didtlim → s.waitKind (.admitWork k o m) =
    if (s.admitCount m).1 ≠ 0 ∧ s.curDie.admitCause s.cyc k (s.admitCount m).1 (s.admitCount m).2 s.focus.pos = none ∧
        (∀ b, s.curDie.rampLast = some b → b + 2047 < s.cyc) ∧
        (∀ w ∈ s.curDie.works, w.issued = s.cyc → 0 < w.m → w.kind ≠ .fwd ∧ w.kind ≠ .bwd) ∧
        (∃ r ∈ s.hub.ramps, s.sidc < r + dl ∧ r < s.sidc + dl)
      then some .gov else none) ∧
  (∀ (s : State) (d : BitVec 5) (q : BitVec 3) (pt : BitVec 5) (ds : BitVec 3),
    ((s.waitKind (.fqpop d q)).isSome = true ↔ ∃ h rest, s.curSta.fqOf q = h :: rest ∧ h.data = none) ∧
    (∀ h rest, s.curSta.fqOf q = h :: rest → h.data = none → s.waitKind (.fqpop d q) = some
      (match h.home with
        | none => .rmt
        | some k => if k = s.focus.die then (if 0x1000000000 ≤ h.dla ∧ h.dla < 0x100A000000 then .vlt else .gdr) else .rmt)) ∧
    (s.waitKind (.rdvw pt ds) = if (s.curDie.copy pt.toNat).ph = s.curCtx.waited pt.toNat then some .rdv else none) ∧
    s.waitKind (.rdvt pt ds) = none) ∧
  (∀ (s : State) (d : DieId),
    ((s.die d).cond ≠ .held ∨ (s.die d).holdcnt < (s.die d).holdmax.toNat ∨ (∀ w ∈ s.waits d, w.kind = .gov) →
      exec (.farWait d) s = .next s) ∧
    ((s.die d).cond = .held → (s.die d).holdmax.toNat ≤ (s.die d).holdcnt → (∃ w ∈ s.waits d, w.kind ≠ .gov) →
      ∃ t c, ∃ w ∈ s.waits d, exec (.farWait d) s = .next t ∧ t = s.setDie d { s.die d with causes := (s.die d).causes ++ [c] } ∧
        (∀ u ∈ s.waits d, w.pos ≤ u.pos ∧ (w.pos = u.pos → w.strm.idx ≤ u.strm.idx)) ∧
        c.cause = .farWait ∧ c.pos = w.pos ∧ c.strm = w.strm ∧ c.parcel = w.parcel ∧ c.named = true)) ∧
  (∀ (s : State) (d : DieId),
    ((s.die d).cond ≠ .waiting ∨ s.sidc < (s.die d).notBefore → exec (.alignmentWaitEnd d) s = .next s) ∧
    ((s.die d).cond = .waiting → (s.die d).notBefore ≤ s.sidc → ∃ t, exec (.alignmentWaitEnd d) s = .next t ∧
      t = s.setDie d { s.die d with cond := .running, dcyc := (s.die d).dcyc + 1, notBefore := 0 })) ∧
  (∀ (s : State) (d : DieId) (p : Pos) (st : Strm) (q : Parcel) (a wait : Nat) (h : W64),
    (((s.die d).sta p).ctxOf st).next = .hdr q a wait → h = ((s.die d).sta p).hdrAt q →
    ((s.die d).dcyc < a → exec (.sectionHeader d p st) s = .next s) ∧
    ((s.die d).imemBad p q 4 = true ↔ ∃ k < 4, BadPlace.plane p ((q.toNat + k) % 65536) ∈ (s.die d).bad) ∧
    (a ≤ (s.die d).dcyc → (s.die d).imemBad p q 4 = true → ∃ t c, exec (.sectionHeader d p st) s = .next t ∧
      (∀ e, e ≠ d → t.die e = s.die e) ∧ t.die d = { s.die d with causes := (s.die d).causes ++ [c] } ∧
      c.cause = .imemUncorrectable ∧ c.pos = p ∧ c.strm = st ∧ c.parcel = q ∧ c.rank = 1) ∧
    (a ≤ (s.die d).dcyc → (s.die d).imemBad p q 4 = false →
      (h.toNat / 2 ^ 60 = 10 ∧ h.toNat / 2 ^ 48 % 2 ^ 9 = 0 ∧ h.toNat / 2 ^ 24 % 16 = 0 ∧ h.toNat / 2 ^ 40 % 256 ≠ 255 ∧
        1 ≤ h.toNat / 2 ^ 28 % 2 ^ 12 ∧ q.toNat + 4 + 6 * (h.toNat / 2 ^ 28 % 2 ^ 12) ≤ 2 ^ 16) →
      ∃ t c k, exec (.sectionHeader d p st) s = .next t ∧ OnlyDie d s t ∧
        t.die d = (s.die d).setSta p (((s.die d).sta p).setCtx st c) ∧
        c = { ((s.die d).sta p).ctxOf st with sect := some k, entering := true, next := c.next, lbuf := [] } ∧
        c.next = .word (q + 4) ((s.die d).dcyc + wait + ((s.die d).sta p).dlyAt (q + 4)) ∧
        k.hdr = q ∧ k.pre = h.getLsbD 59 ∧ k.lbf = h.getLsbD 58 ∧ k.xch = h.getLsbD 57 ∧ k.snum.toNat = h.toNat / 2 ^ 40 % 256 ∧
        k.len.toNat = h.toNat / 2 ^ 28 % 2 ^ 12 ∧ k.deps.get st.idx = 0xFF ∧
        (k.deps.toList.eraseIdx st.idx.val).map BitVec.toNat = [h.toNat / 2 ^ 16 % 256, h.toNat / 2 ^ 8 % 256, h.toNat % 256]) ∧
    (a ≤ (s.die d).dcyc → (s.die d).imemBad p q 4 = false →
      (h.toNat / 2 ^ 60 ≠ 10 ∨ h.toNat / 2 ^ 48 % 2 ^ 9 ≠ 0 ∨ h.toNat / 2 ^ 24 % 16 ≠ 0 ∨ h.toNat / 2 ^ 40 % 256 = 255 ∨
        h.toNat / 2 ^ 28 % 2 ^ 12 = 0 ∨ 2 ^ 16 < q.toNat + 4 + 6 * (h.toNat / 2 ^ 28 % 2 ^ 12)) →
      ∃ t, exec (.sectionHeader d p st) s = .next t ∧ (∀ e, e ≠ d → t.die e = s.die e) ∧
        (∃ c, (t.die d).causes = (s.die d).causes ++ [c] ∧ c.cause = .badHeader ∧ c.pos = p ∧ c.strm = st ∧ c.parcel = q ∧ c.rank = 2) ∧
        (t.die d).latchNow = (s.die d).latchNow ++ [(p, st, q, 0x08)] ∧
        (((t.die d).sta p).ctxOf st).next = .hdr q a wait)) ∧
  (∀ (s : State) (d : DieId) (cfg : W64) (kind sel : Nat) (p : Pos), kind = cfg.toNat / 2 ^ 56 % 16 →
    sel = cfg.toNat / 2 ^ 40 % 256 → p.val = cfg.toNat / 2 ^ 48 % 128 →
    (kind = 0 → s.monValue d cfg = if sel < 8 then some (((s.die d).sta p).fqOf (BitVec.ofNat 3 sel)).length else none) ∧
    (kind = 1 → s.monValue d cfg = some ((s.fs d).pathN p)) ∧
    (kind = 2 → s.monValue d cfg = if sel < 16 then some (128 - ((s.die d).items.filter fun i => decide (i.lane = sel ∧
      i.entry ≤ (s.die d).dcyc ∧ (s.die d).dcyc ≤ i.entry + i.hops)).length) else none) ∧
    (kind = 3 → s.monValue d cfg = if s.masterOf d = d ∧ sel < 24 then some (kget {} sel (s.die d).masters).arr.length else none) ∧
    (kind = 4 → s.monValue d cfg = some (s.die d).holdcnt) ∧ (5 ≤ kind → s.monValue d cfg = none)) ∧
  (∀ (cfg : W64) (v th : Nat), th = cfg.toNat % 2 ^ 32 →
    (cfg.toNat / 2 ^ 60 % 4 = 0 → (monHolds cfg v = true ↔ v < th)) ∧ (cfg.toNat / 2 ^ 60 % 4 = 1 → (monHolds cfg v = true ↔ th ≤ v)) ∧
    (cfg.toNat / 2 ^ 60 % 4 = 2 → (monHolds cfg v = true ↔ v = th)) ∧ (cfg.toNat / 2 ^ 60 % 4 = 3 → (monHolds cfg v = true ↔ v ≠ th))) ∧
  (∀ (s t : State) (d : DieId) (x : Die), t = s.monitors d → x = s.die d → kwf ({} : Monitor) x.monitors = true →
    let m (n : Nat) : Monitor := kget {} n x.monitors
    let hit (n : Nat) : Prop := (m n).cfg.getLsbD 63 = true ∧ ∃ v, s.monValue d (m n).cfg = some v ∧ monHolds (m n).cfg v = true
    let fires (n : Nat) : Prop := hit n ∧ (m n).fired = false
    (∀ n, (hit n → kget {} n (t.die d).monitors =
        { m n with cnt := if (m n).cnt = BitVec.allOnes 64 then (m n).cnt else (m n).cnt + 1, fired := true }) ∧
      (¬hit n → kget {} n (t.die d).monitors = m n)) ∧
    t.die d = { x with monitors := (t.die d).monitors, causes := (t.die d).causes } ∧
    ((∀ n, fires n → (m n).cfg.getLsbD 62 = false) → (t.die d).causes = x.causes) ∧
    ((∃ n, fires n ∧ (m n).cfg.getLsbD 62 = true) → ∃ c, (t.die d).causes = x.causes ++ [c] ∧ c.cause = .monitorFire ∧
      c.named = false) ∧
    ((∀ n, ¬fires n) → t.hub = s.hub) ∧
    (∀ n, fires n → (∀ k, k < n → ¬fires k) → t.hub.hevnow = s.hub.hevnow ++ (if (m n).cfg.getLsbD 62 = true then [] else
      [eventOf 4 0xFB (match s.teamOf d with | some g => g.num | none => 0) d (BitVec.ofNat 64 (x.dcyc % 2 ^ 32)) s.sidc]))) ∧
  (∀ (s : State) (d : DieId) (p : Pos), (s.die d).eoc = [.snap p] → ((s.applyEoc d).die d).sta p = { (s.die d).sta p with
    snap := { ((s.die d).sta p).live with sdcyc := BitVec.ofNat 64 (s.die d).dcyc } }) ∧
  (∀ (s : State) (old : Nat), s.focus.handler = false → s.moveOn old = if s.advance.curCtx.loops.length < old
    then s.advance.later (.snap s.focus.pos) else s.advance)


-- ## Hardware queues, teams and graphs (R209, R212, R253, R267 to R287, R309)

/-- PACKET_TAKE, WAIT, SIGNAL, COPY, COPY_GRANULE, STOP and PACKET_COMPLETE (R268 to R270, R284). In one cycle of every 16, of a phase
fixed for the part, the head of a ready queue starts: of several the lowest EPRI, PRIO less one for each AGE cycles ready, and then the
first queue after the one taken last; a bad packet completes with BAD_PACKET. A WAIT is ready once its counter has reached the value,
a GRAPH.RUN while its handle has no run, a LAUNCH once its dies can be had, now or by pre-emption, and no wheel position that its image
grants is held. SIGNAL writes its counter; a granule of a copy between two host addresses moves 256 bytes, or the fill pattern where its
read fails and none where its write fails, and a copy with a failed granule completes with COPY_ERROR; a STOP ends its team with status
STOPPED, freezes its dies in the next cycle and gives a pre-emption's stow and an unstow up; a granule with a device side waits while its
home has others of its granule or channel to serve; completion writes the fence and LSTAT and raises the vector.
Choices and readings of the model that clauses rest on: DESIGN CHOICE, log 19, DESIGN CHOICE, log 23, DESIGN CHOICE, log 26, DEDUCED, log 55,
DEDUCED, log 90. -/
def Obligations.QueueEvents : Prop :=
  (∀ s : State, s.sidc % 16 ≠ Config.takePhase % 16 → ∃ t, exec .packetTake s = .next t ∧ t.agenda = s.agenda ∧ t.hub.lastQueue = s.hub.lastQueue ∧
    ∀ q, (t.queue q).cur = (s.queue q).cur ∧ (t.queue q).head = (s.queue q).head) ∧
  (∀ (s : State) (q : Fin 32) (b : List Byte), s.sidc % 16 = Config.takePhase % 16 → (∀ k : Fin 32, k ≠ q → s.ready k.val = false) →
    s.ready q.val = true → s.waiting q.val = none → b = s.headPacket q.val → ∃ t p, exec .packetTake s = .next t ∧
      (t.queue q.val).cur = (s.queue q.val).cur ++ [p] ∧ (t.queue q.val).head = (s.queue q.val).head + 1 ∧
      p.bytes = b ∧ p.started = s.sidc ∧ p.team = 0 ∧ p.done = (if packetBad b then some 4 else none) ∧
      t.hub.lastQueue = q.val ∧ t.agenda = (if packetBad b then [] else startTask q (packetType b)) ++ s.agenda ∧
      ∀ k, k ≠ q.val → (t.queue k).cur = (s.queue k).cur ∧ (t.queue k).head = (s.queue k).head) ∧
  (∀ (s : State) (q : Fin 32) (g : Team), s.sidc % 16 = Config.takePhase % 16 → (∀ k : Fin 32, k ≠ q → s.ready k.val = false) →
    s.ready q.val = true → s.waiting q.val = some g → ∃ t, exec .packetTake s = .next t ∧ t.hub.lastQueue = q.val ∧
      (∀ d ∈ g.dies, (t.die d).cond = .frozen ∧ (t.die d).team = g.num ∧ (t.die d).holds = 0) ∧
      ∀ x ∈ t.hub.teams, x.num = g.num → x.phase = .resuming ∧ s.sidc < x.planeAt ∧ x.dies = g.dies) ∧
  (∀ (s : State) (q : Fin 32), s.sidc % 16 = Config.takePhase % 16 → s.ready q.val = true →
    let since (k : Fin 32) : Nat := (s.queue k.val).readyAt.getD s.sidc
    let e (k : Fin 32) : Nat := (s.queue k.val).prio.toNat - if s.hub.qage = 0 then 0 else (s.sidc - since k) / s.hub.qage.toNat
    let dist (k : Fin 32) : Nat := (k.val + 31 * (s.hub.lastQueue + 1)) % 32
    (∀ k : Fin 32, s.ready k.val = true → e q < e k ∨ e q = e k ∧ dist q ≤ dist k) →
      ∃ t, exec .packetTake s = .next t ∧ t.hub.lastQueue = q.val ∧ (t.queue q.val).readyAt = none ∧ ∀ k : Fin 32, k ≠ q →
        t.queue k.val = { s.queue k.val with readyAt := if s.ready k.val = true then some (since k) else none }) ∧
  (∀ (s : State) (q : Nat) (b : List Byte), s.waiting q = none → b = s.headPacket q → (s.ready q = true ↔ (s.queue q).en = true ∧
    (s.queue q).head ≠ (s.queue q).tail ∧ (∀ p, (s.queue q).cur.getLast? = some p → (qword p.bytes 0).getLsbD 26 = true) ∧
    (packetBad b = true ∨
      (packetType b = 4 → (qword b 3).toNat ≤ (s.fenceCtr ((qword b 2).toNat % 256)).toNat) ∧
      (packetType b = 3 → (s.handle q ((qword b 2).toNat % 16)).run = none) ∧
      (packetType b = 1 → s.grantsFree b = true ∧ ((takeDies b (s.dieOpen [])).isSome = true ∨
        (qword b 2).getLsbD 17 = true ∧ (pickVictims b (s.dieOpen []) [] s.victims).isSome = true))))) ∧
  (∀ (s : State) (freed : List DieId) (d : DieId),
    (s.claimed d = true ↔ ∃ q : Fin 32, ∃ p ∈ (s.queue q.val).cur, p.live 1 = true ∧ p.team = 0 ∧ d ∈ p.freed) ∧
    (s.dieOpen freed d = true ↔ (∀ g ∈ s.hub.teams, d ∉ g.dies) ∧ (d ∈ freed ∨ s.claimed d = false))) ∧
  (∀ (s : State) (q : Nat) (g : Team), s.waiting q = some g →
    (s.ready q = true ↔ ∀ d ∈ g.dies, s.teamOf d = none ∧ s.claimed d = false)) ∧
  (∀ (b : List Byte) (ok : DieId → Bool) (free mask : List DieId), free = allDies.filter ok →
    mask = allDies.filter (fun d => (qword b 2).getLsbD d.val) →
    ((qword b 2).getLsbD 4 = true → takeDies b ok = if (qword b 2).toNat / 256 % 8 ≤ free.length
      then some (free.take ((qword b 2).toNat / 256 % 8)) else none) ∧
    ((qword b 2).getLsbD 4 = false → takeDies b ok = if ∀ d ∈ mask, ok d = true then some mask else none)) ∧
  (∀ (s : State) (b : List Byte) (ok : DieId → Bool), (∀ d, s.dieFree d = true ↔ ∀ g ∈ s.hub.teams, d ∉ g.dies) ∧
    (pickVictims b ok [] s.victims = none ↔ takeDies b (fun d => ok d || s.victims.any fun g => g.dies.contains d) = none) ∧
    (∀ l, pickVictims b ok [] s.victims = some l → l.Sublist s.victims ∧
      (takeDies b (fun d => ok d || l.any fun g => g.dies.contains d)).isSome = true) ∧
    (∀ g, g ∈ s.victims ↔ g ∈ s.hub.teams ∧ g.preok = true ∧ g.phase = .running) ∧
    s.victims.Pairwise (fun g h => h.prio < g.prio ∨ h.prio = g.prio ∧ h.start ≤ g.start)) ∧
  (∀ (s : State) (b : List Byte), s.grantsFree b = true ↔ ∀ l, s.image b (launchDies b) = .ok l →
    ∀ x ∈ imgGrants l allDies, ∀ g ∈ s.hub.teams, ∀ y ∈ g.grants, y.2.2 ≠ x.2.2) ∧
  (∀ (s : State) (q : Fin 32), ∃ t, exec (.wait q) s = .next t ∧
    (t.queue q.val) = { s.queue q.val with cur := (s.queue q.val).cur.map fun p => if p.live 4 then { p with done := some 0 } else p } ∧
    ∀ k, k ≠ q.val → t.queue k = s.queue k) ∧
  (∀ (s : State) (q : Fin 32) (p : Packet), (s.queue q.val).cur = [p] → p.live 5 = true → ∃ t, exec (.signal q) s = .next t ∧
    (t.queue q.val).cur = [{ p with done := some 0 }] ∧
    ∀ k, t.fenceCtr k = if k = (qword p.bytes 2).toNat % 256 then qword p.bytes 3 else s.fenceCtr k) ∧
  (∀ (s : State) (q : Fin 32), ∃ t, exec (.copy q) s = .next t ∧ t.mem = s.mem ∧ t.hostMem = s.hostMem ∧
    (t.queue q.val).cur = (s.queue q.val).cur.map fun p => if p.live 6 ∧ p.off = 0 then { p with failed := false } else p) ∧
  (∀ (s : State) (q : Fin 32), (∀ p ∈ (s.queue q.val).cur, p.live 6 = false) → exec (.copyGranule q) s = .next s) ∧
  (∀ (s : State) (q : Fin 32) (p : Packet) (src dst n : Nat), (s.queue q.val).cur = [p] → p.live 6 = true →
    src = (qword p.bytes 2).toNat → dst = (qword p.bytes 3).toNat → n = (qword p.bytes 4).toNat → src < 2 ^ 63 → dst < 2 ^ 63 →
    (Config.freeNat s.ctr % 2 ≠ 0 → ∃ t, exec (.copyGranule q) s = .next t ∧ { t with ctr := s.ctr } = s) ∧
    (Config.freeNat s.ctr % 2 = 0 → ∃ t, exec (.copyGranule q) s = .next t ∧ t.mem = s.mem ∧
      let lost : Bool := Config.freeNat s.ctr / 2 % 2 = 1
      let dropped : Bool := Config.freeNat s.ctr / 4 % 2 = 1
      (∀ a, memGet t.hostMem a = if dst + p.off ≤ a ∧ a < dst + p.off + 256 ∧ dropped = false then
        (if lost then 0xFF else memGet s.hostMem (a - dst + src)) else memGet s.hostMem a) ∧
      ∃ f e, (t.queue q.val).cur = [{ p with off := p.off + 256, failed := f, done := e }] ∧ f = (p.failed || lost || dropped) ∧
        e = if p.off + 256 < n then p.done else some (if f then 8 else 0))) ∧
  (∀ (s : State) (a : W64) (off : Nat) (op : FarOp), s.copyHeld a off op = true ↔ a.getLsbD 63 = true ∧ ∃ d h dla, s.copyDie = some d ∧
    s.xlate d op ((a.toNat - 2 ^ 63 + off) % 2 ^ 48) = .home h dla ∧ s.chansFree h dla 256 = false) ∧
  (∀ (s : State) (q : Fin 32) (p : Packet), (s.queue q.val).cur = [p] → p.live 6 = true →
    (s.copyHeld (qword p.bytes 2) p.off .read = true ∨ s.copyHeld (qword p.bytes 3) p.off (.write 0) = true) →
    ∃ t, exec (.copyGranule q) s = .next t ∧ { t with ctr := s.ctr } = s) ∧
  (∀ (s : State) (q : Fin 32) (p : Packet), (s.queue q.val).cur = [p] → p.live 7 = true → p.team = 0 →
    (s.runningTeam ((qword p.bytes 2).setWidth 16) = none → ∃ t, exec (.stop q) s = .next t ∧ t.dies = s.dies ∧
      (t.queue q.val).cur = [{ p with done := some 0 }]) ∧
    (∀ g, s.runningTeam ((qword p.bytes 2).setWidth 16) = some g → ∃ t, exec (.stop q) s = .next t ∧
      (∀ d, d ∉ g.dies → t.die d = s.die d) ∧
      (∀ d ∈ g.dies, t.die d = { s.die d with stopAt := some (s.sidc + 1), stow := (t.die d).stow, preemptAt := (t.die d).preemptAt } ∧
        (g.phase ≠ .resuming → g.phase ≠ .preempting → (t.die d).stow = (s.die d).stow ∧ (t.die d).preemptAt = (s.die d).preemptAt) ∧
        (g.phase = .resuming ∨ g.phase = .preempting → (t.die d).preemptAt = none ∧
          (t.die d).stow = (s.die d).stow.filter fun k => !decide (k.who = .resume ∨ k.who = .preempt))) ∧
      (t.queue q.val).cur = [{ p with team := g.num }] ∧
      (g.phase ≠ .ending → ∀ x ∈ t.hub.teams, x.num = g.num → x = { g with phase := .ending, status := 2 }) ∧
      (g.phase = .ending → t.hub.teams = s.hub.teams))) ∧
  (∀ (s : State) (q : Fin 32), (∀ p ∈ (s.queue q.val).cur, p.live 7 = false) → exec (.stop q) s = .next s) ∧
  (∀ (s : State) (q : Fin 32) (p : Packet) (st : Byte) (w : W64), (s.queue q.val).cur = [p] → p.done = some st → w = qword p.bytes 0 →
    ∃ t, exec (.packetComplete q) s = .next t ∧ (t.queue q.val) = { s.queue q.val with cur := [], lstat := st } ∧
      t.mem = s.mem ∧ t.hostMem = s.hostMem ∧ t.dies = s.dies ∧
      (∀ k, t.fenceCtr k = if w.getLsbD 39 = true ∧ k = w.toNat / 2 ^ 40 % 256 then qword p.bytes 1 else s.fenceCtr k) ∧
      (w.getLsbD 38 = false → t.hub.raised = s.hub.raised ∧ t.hub.msix = s.hub.msix) ∧
      (w.getLsbD 38 = true → (s.hub.masked (fld w 27 11) = false → t.hub.raised = s.hub.raised ++ [fld w 27 11]) ∧
        (s.hub.masked (fld w 27 11) = true → t.hub.raised = s.hub.raised ∧
          (msixWord t.hub (0x8000 + 8 * ((fld w 27 11).toNat / 64))).getLsbD ((fld w 27 11 : BitVec 11).toNat % 64) = true)))

/-- LAUNCH, DIE_START, PLANE_RESTORE, TEAM_RESUME and TEAM_END (R209, R212, R253, R271 to R277, R284). A LAUNCH's image is judged before
any die is touched: one that is no good completes it with the image's status and cause and its record. Another, once its wheel positions
and its dies are free, places a team of a number that no team holds, or pre-empts. When the plane work ends the shadow planes hold the
differences; a station with a soft error in its shadow plane or another CRC-32C than the image's ends the LAUNCH with status 3 and its
place in the record, no die starts and the planes are copied back; else the starts are placed, Δ apart, each clear of every ramp event by
Δ. As the first die starts every die of the team takes the state a launch gives it (R168: no cell is seated, every G is +0, every PG
invalid and every edge accumulator zero, the window covers the array and the mode is .mx8 and .gprop, while FE and BE stay); a
pre-empted die, whose planes are sent and checked in the same way before its unstow, runs on where it was. A team ends once everything is
over; its record has its held cycles, those before its pre-emptions too, its ramp breaches and TRIGBAD; a station whose differences
were sent and whose planes were not exchanged restores its shadow plane; and its dies are free.
Choices and readings of the model that clauses rest on: DESIGN CHOICE, log 9, log 24, log 33, log 73, DEDUCED, log 58, log 59, log 60,
log 77, log 92. -/
def Obligations.LaunchAndTeamEvents : Prop :=
  (∀ (s : State) (q : Fin 32), (∀ p ∈ (s.queue q.val).cur, p.live 1 = false ∨ p.team ≠ 0) →
    (∀ g ∈ s.hub.teams, g.queue = q → g.phase ≠ .preparing) → exec (.launch q) s = .next s) ∧
  (∀ (s : State) (q : Fin 32) (p : Packet) (got : Option (List DieId)), (s.queue q.val).cur = [p] → p.live 1 = true → p.team = 0 →
    (∀ g ∈ s.hub.teams, g.queue = q → g.phase ≠ .preparing) → got = takeDies p.bytes (fun d => s.dieOpen p.freed d || s.released p.freed d) →
    (∀ e, s.image p.bytes (launchDies p.bytes) = .error e → ∃ t, exec (.launch q) s = .next t ∧ t.hub.teams = s.hub.teams ∧
      t.dies = s.dies ∧ (t.queue q.val).cur = [{ p with done := some e.1, cause := e.2 }] ∧
      memGet t.hostMem ((qword p.bytes 4).toNat + 7) = e.1 ∧ memGet t.hostMem ((qword p.bytes 4).toNat + 6) = e.2) ∧
    (∀ l, s.image p.bytes (launchDies p.bytes) = .ok l →
      (s.grantsOpen l = false → exec (.launch q) s = .next s) ∧
      (∀ dies, s.grantsOpen l = true → got = some dies → s.hub.teams.length < 65535 → ∃ t u g, exec (.launch q) s = .next t ∧
        u.hub.teams = s.hub.teams ++ [g] ∧ (∀ x ∈ s.hub.teams, x.num ≠ g.num) ∧ g.num ≠ 0 ∧ g.queue = q ∧ g.pkt = p.bytes ∧
        g.dies = dies ∧ g.recs = l ∧ g.phase = .preparing ∧ s.sidc ≤ g.planeAt ∧ g.preok = (qword p.bytes 2).getLsbD 16 ∧
        g.prio = (s.queue q.val).prio.toNat ∧ g.grants = imgGrants l dies ∧ u.dies = s.dies ∧
        (u.queue q.val).cur = [{ p with team := g.num, freed := [] }] ∧
        ((g.planeAt ≤ s.sidc ∧ ∀ d ∈ dies, (s.die d).restoreAt = none) → t = u.planesDone g) ∧
        (¬(g.planeAt ≤ s.sidc ∧ ∀ d ∈ dies, (s.die d).restoreAt = none) → t = u)) ∧
      (s.grantsOpen l = true → got = none → ((qword p.bytes 2).getLsbD 17 = false ∨ p.freed ≠ [] ∨
        pickVictims p.bytes (s.dieOpen []) [] s.victims = none) → exec (.launch q) s = .next s) ∧
      (∀ vs, s.grantsOpen l = true → got = none → (qword p.bytes 2).getLsbD 17 = true → p.freed = [] →
        pickVictims p.bytes (s.dieOpen []) [] s.victims = some vs → ∃ t n, exec (.launch q) s = .next t ∧ s.sidc < n ∧
          (∀ d, t.die d = if ∃ g ∈ vs, d ∈ g.dies then { s.die d with preemptAt := some n } else s.die d) ∧
          (∀ x ∈ t.hub.teams, (∃ g ∈ vs, g.num = x.num) → x.phase = .preempting ∧ x.stowed = []) ∧
          (∀ x, (∀ g ∈ vs, g.num ≠ x.num) → (x ∈ t.hub.teams ↔ x ∈ s.hub.teams)) ∧
          (t.queue q.val).cur = [{ p with freed := vs.flatMap (·.dies) }]))) ∧
  (∀ (s : State) (l : List ImgRec) (dies : List DieId) (b : DieId × Pos), s.firstBadPlane l dies = some b ↔ ∃ i, dies[i]? = some b.1 ∧
    planeFails (s.die b.1) l i b.2 = true ∧
    ∀ j e p, dies[j]? = some e → j < i ∨ j = i ∧ p < b.2 → planeFails (s.die e) l j p = false) ∧
  (∀ (x : Die) (l : List ImgRec) (i : Nat) (p : Pos), planeFails x l i p = true ↔ (∃ k, BadPlace.shadow p k ∈ x.bad) ∨
    crc32c (planeBytes (x.sta p).shadow) ≠
      match recOf l 2 i p with | some r => fld r.arg 0 32 | none => crc32c (planeBytes (imgPlane l i p))) ∧
  (∀ (s u : State) (g : Team), u = s.sendPlanes g → g.dies.Nodup → u = { s with dies := u.dies } ∧
    (∀ d, d ∉ g.dies → u.die d = s.die d) ∧
    ∀ i d, g.dies[i]? = some d → u.die d = { s.die d with stations := (u.die d).stations, bad := (u.die d).bad } ∧
      ∀ p, (u.die d).sta p = { (s.die d).sta p with shadow := ((u.die d).sta p).shadow } ∧
        ∀ k, let img : Parcel := kget 0 k (imgPlane g.recs i p)
          let sent : Prop := img ≠ kget 0 k ((s.die d).sta p).kept
          (sent → (kget 0 k ((u.die d).sta p).shadow : Parcel) = img ∧ BadPlace.shadow p k ∉ (u.die d).bad) ∧
          (¬sent → (kget 0 k ((u.die d).sta p).shadow : Parcel) = kget 0 k ((s.die d).sta p).shadow ∧
            (BadPlace.shadow p k ∈ (u.die d).bad ↔ BadPlace.shadow p k ∈ (s.die d).bad))) ∧
  (∀ (s u : State) (q : Fin 32) (g : Team), s.hub.teams = [g] → g.queue = q → g.phase = .preparing → g.planeAt ≤ s.sidc → g.dies.Nodup →
    (∀ d ∈ g.dies, (s.die d).restoreAt = none) → (∀ p ∈ (s.queue q.val).cur, p.live 1 = false ∨ p.team ≠ 0) → u = s.sendPlanes g →
    (∀ b, u.firstBadPlane g.recs g.dies = some b → ∃ t, exec (.launch q) s = .next t ∧ t.hub.teams = [] ∧ t.mem = s.mem ∧
      (∀ d, t.die d = if d ∈ g.dies then { u.die d with restoreAt := some (s.sidc + 512) } else s.die d) ∧
      (∀ k : Fin 32, (t.queue k.val).cur = (s.queue k.val).cur.map fun p => if p.team = g.num ∧ p.done = none then
        { p with done := some (if packetType p.bytes = 1 then 3 else 0) } else p) ∧
      memGet t.hostMem ((qword g.pkt 4).toNat + 7) = 3 ∧ recorded t g g.holds ∧
      ∀ i < 8, memGet t.hostMem ((qword g.pkt 4).toNat + 8 + i) =
        byteOf (BitVec.ofNat 64 (b.1.val * 2 ^ 62 + b.2.val * 2 ^ 53)) i) ∧
    (u.firstBadPlane g.recs g.dies = none → ∃ t x, exec (.launch q) s = .next t ∧ t.hub.teams = [x] ∧ x = { g with
        phase := .running, planeAt := 0, start := x.start, delta := rampDelta s.hub.didtlim, begun := [],
        sstart := if g.sstart = 0 then x.start else g.sstart } ∧ s.sidc + 1 ≤ x.start ∧
      (∀ r ∈ s.hub.ramps, r + x.delta ≤ x.start) ∧ (x.start = s.sidc + 1 ∨ ∃ r ∈ s.hub.ramps, x.start = r + x.delta) ∧
      t.hub.ramps = s.hub.ramps ++ (List.range g.dies.length).map (fun i => x.start + i * x.delta) ∧ t.dies = u.dies)) ∧
  (∀ (s : State) (d : DieId), s.teamOf d = none → exec (.dieStart d) s = .next s) ∧
  (∀ (s : State) (d : DieId) (g : Team) (x : Die), s.teamOf d = some g → x = s.die d →
    ((g.phase ≠ .running ∧ g.phase ≠ .preempting ∨ d ∈ g.begun ∨ s.sidc < g.start + g.place d * g.delta) →
      exec (.dieStart d) s = .next s) ∧
    (g.phase = .running ∨ g.phase = .preempting → d ∉ g.begun → g.start + g.place d * g.delta ≤ s.sidc →
      ∃ t y, exec (.dieStart d) s = .next t ∧ y = t.die d ∧ (∀ e, e ∉ g.dies → t.die e = s.die e) ∧ y.rampEvent = some s.sidc ∧
      (∀ u ∈ t.hub.teams, u.num = g.num → u = { g with begun := g.begun ++ [d] }) ∧
      (x.cond = .frozen → (∀ e, e ≠ d → t.die e = s.die e) ∧ y.restoreAt = some (s.sidc + 512) ∧
        (∀ p, y.sta p = { x.sta p with plane := (x.sta p).shadow, shadow := (x.sta p).plane, kept := imgPlane g.recs (g.place d) p }) ∧
        (x.unexec = false → x.notBefore ≤ s.sidc → y.cond = .running ∧ y.dcyc = x.dcyc + 1)) ∧
      (x.cond ≠ .frozen → g.begun ≠ [] → t.dies = (s.setDie d { x with cond := .running, rampEvent := some s.sidc }).dies) ∧
      (x.cond ≠ .frozen → g.begun = [] → ∀ o : OldRow, 0 < o.from_ →
        (o ∈ t.olds ↔ o ∈ s.olds ∧ ∀ w ∈ s.olds, w.die ∈ g.dies → w.from_ < o.from_)) ∧
      (x.cond ≠ .frozen → g.begun = [] → g.dies.Nodup → y.cond = .running ∧ ∀ i e z w, g.dies[i]? = some e → z = t.die e → w = s.die e →
        (e ≠ d → z.cond = .idle) ∧ z.dcyc = 0 ∧ z.team = g.num ∧ z.window = {} ∧ z.fimg = .mx8 ∧ z.gnan = .gprop ∧
        z.accE = [] ∧ z.accN = [] ∧ z.works = [] ∧ z.portA = [] ∧ z.holdcnt = 0 ∧ z.holdmax = 0x10000 ∧ z.trapcause.getLsbD 63 = false ∧
        z.restoreAt = some (s.sidc + 512) ∧ z.masters = [] ∧ z.copies = [] ∧ z.msgs = [] ∧
        (kwf ({} : Cell) w.cells = true → ∀ k c b, c = kget {} k w.cells → b = kget {} k z.cells → b.seated = 0 ∧ b.g = 0 ∧ b.pgv = false ∧
          b.fe0 = c.fe0 ∧ b.fe1 = c.fe1 ∧ b.be0 = c.be0 ∧ b.be1 = c.be1) ∧
        (t.fs e).xroot = (match g.recs.find? fun r => r.ty == 7 with | some r => qword r.body 0 | none => 0) ∧
        ((∀ r ∈ g.recs, r.ty ≠ 7) → (t.fs e).regions = []) ∧ (t.fs e).reported = [] ∧ (t.fs e).tlb = (s.fs e).tlb ∧
        ∀ p, (z.sta p).plane = (w.sta p).shadow ∧ (z.sta p).shadow = (w.sta p).plane ∧ (z.sta p).kept = imgPlane g.recs i p ∧
          (∀ k < 16, kget 0 (48 + k) (z.sta p).s = qword g.pkt (8 + k)) ∧ (∀ k < 48, kget 0 k (z.sta p).s = 0) ∧
          (z.sta p).aL = [] ∧ (z.sta p).aS = [] ∧ (z.sta p).v = [] ∧ (z.sta p).m = [] ∧ (z.sta p).pad = [] ∧ (z.sta p).fpctl = 0 ∧
          ∀ st, ((z.sta p).ctxOf st).b = [] ∧ ((z.sta p).ctxOf st).loops = [] ∧ ((z.sta p).ctxOf st).calls = [] ∧
            ((kget 0 st.idx.val (z.sta p).plane : Parcel) = 0xFFFF → ((z.sta p).ctxOf st).next = .off ∧ ((z.sta p).ctxOf st).rsec = 0xFE) ∧
            ((kget 0 st.idx.val (z.sta p).plane : Parcel) ≠ 0xFFFF →
              ((z.sta p).ctxOf st).next = .hdr (kget 0 st.idx.val (z.sta p).plane) 0 0 ∧ ((z.sta p).ctxOf st).rsec = 0xFF)))) ∧
  (∀ (s : State) (d : DieId),
    ((∀ n, (s.die d).restoreAt = some n → s.sidc < n) → exec (.planeRestore d) s = .next s) ∧
    (∀ n, (s.die d).restoreAt = some n → n ≤ s.sidc → ∃ t, exec (.planeRestore d) s = .next t ∧ OnlyDie d s t ∧
      t.die d = { s.die d with restoreAt := none, stations := (t.die d).stations, bad := (t.die d).bad } ∧
      (∀ b, b ∈ (t.die d).bad ↔ b ∈ (s.die d).bad ∧ ∀ p k, b ≠ .shadow p k) ∧
      ∀ p, (t.die d).sta p = { (s.die d).sta p with shadow := ((s.die d).sta p).plane })) ∧
  (∀ (s : State) (n : BitVec 16), (∀ g ∈ s.hub.teams, g.num = n → g.phase ≠ .resuming) → exec (.teamResume n) s = .next s) ∧
  (∀ (s : State) (g : Team), s.hub.teams = [g] → g.phase = .resuming →
    (g.planeAt ≠ 0 → (s.sidc < g.planeAt ∨ ∃ d ∈ g.dies, (s.die d).restoreAt ≠ none) → exec (.teamResume g.num) s = .next s) ∧
    (∀ u : State, g.planeAt ≠ 0 → g.planeAt ≤ s.sidc → g.dies.Nodup → (∀ d ∈ g.dies, (s.die d).restoreAt = none) → u = s.sendPlanes g →
      (u.firstBadPlane g.recs g.dies = none → ∃ t, exec (.teamResume g.num) s = .next t ∧ t.dies = u.dies ∧
        t.hub.teams = [{ g with planeAt := 0 }]) ∧
      (∀ b, u.firstBadPlane g.recs g.dies = some b → ∃ t, exec (.teamResume g.num) s = .next t ∧ t.hub.teams = [] ∧
        (∀ d, d ∉ g.dies → t.die d = s.die d) ∧
        (∀ d ∈ g.dies, (t.die d).cond = .idle ∧ (t.die d).team = 0 ∧ (t.die d).restoreAt = some (s.sidc + 512) ∧
          ∀ p, (t.die d).sta p = (u.die d).sta p) ∧
        memGet t.hostMem ((qword g.pkt 4).toNat + 7) = 3 ∧ recorded t g g.holds ∧ ∀ i < 8, memGet t.hostMem ((qword g.pkt 4).toNat + 8 + i) =
          byteOf (BitVec.ofNat 64 (b.1.val * 2 ^ 62 + b.2.val * 2 ^ 53)) i)) ∧
    (g.planeAt = 0 → (∀ d ∈ g.dies, d ∈ g.stowed) →
      ∃ t x, exec (.teamResume g.num) s = .next t ∧ t.dies = s.dies ∧ t.hub.teams = [x] ∧ x.num = g.num ∧ x.phase = .running ∧
        x.begun = [] ∧ s.sidc + 1 ≤ x.start ∧ ∀ r ∈ s.hub.ramps, r + x.delta ≤ x.start) ∧
    (g.planeAt = 0 → ∀ d, g.dies = [d] → g.stowed = [] → (s.die d).stow = none →
      ∃ t k, exec (.teamResume g.num) s = .next t ∧ (t.die d).stow = some k ∧ k.who = .resume ∧ k.unstow = true ∧
        k.va = (s.die d).bivbase ∧ t.hub = s.hub)) ∧
  (∀ (s : State) (n : BitVec 16), (∀ g ∈ s.hub.teams, g.num = n → s.teamOver g = false) → exec (.teamEnd n) s = .next s) ∧
  (∀ (s : State) (g : Team), s.hub.teams.find? (fun t => t.num == g.num) = some g → s.teamOver g = true → ∃ t, exec (.teamEnd g.num) s = .next t ∧
    (∀ x ∈ t.hub.teams, x.num ≠ g.num ∧ x ∈ s.hub.teams) ∧ t.mem = s.mem ∧ (∀ d, d ∉ g.dies → t.die d = s.die d) ∧
    (∀ d ∈ g.dies, (t.die d).cond = .idle ∧ (t.die d).team = 0 ∧ (t.die d).causes = [] ∧ (t.die d).cells = (s.die d).cells ∧
      (t.die d).restoreAt = (if g.planeAt = 0 ∧ d ∉ g.begun then some (s.sidc + 512) else (s.die d).restoreAt) ∧
      ∀ p, (t.die d).sta p = (s.die d).sta p) ∧ recorded t g (g.dies.foldl (fun n d => n + (s.die d).holds) g.holds) ∧
    (∀ q : Fin 32, ∀ p ∈ (t.queue q.val).cur, p.team = g.num → p.done.isSome = true) ∧
    memGet t.hostMem ((qword g.pkt 4).toNat + 7) = g.status ∧ memGet t.hostMem ((qword g.pkt 4).toNat + 6) = g.cause ∧
    (∀ a, a < (qword g.pkt 4).toNat ∨ (qword g.pkt 4).toNat + 64 ≤ a → memGet t.hostMem a = memGet s.hostMem a) ∧
    (∀ v, s.hub.lanelimNext = some v → (∀ n ∈ s.hub.lanelimTeams, n = g.num) → t.hub.lanelim = v ∧ t.hub.lanelimNext = none) ∧
    ((s.hub.lanelimNext = none ∨ ∃ n ∈ s.hub.lanelimTeams, n ≠ g.num) → t.hub.lanelim = s.hub.lanelim ∧
      t.hub.lanelimNext = s.hub.lanelimNext ∧ (s.hub.lanelimNext ≠ none → ∀ n, n ∈ t.hub.lanelimTeams ↔
        n ∈ s.hub.lanelimTeams ∧ n ≠ g.num)))

/-- GRAPH.LOAD, GRAPH.RUN, the firing and completion of operations, and the Filys-X ports (R268, R285 to R287, R309): a load ends with its
records in the handle, or with GRAPH_ERROR where the memory cannot be read; a run queues the handle's operations; an operation fires
once its counter has reached its threshold; one that has run completes, and a run whose operations all have completes its packet and
returns its counters to 0, with status 7 and the cause where one failed; a send puts its bytes on the channel in memory order, a copying
receive takes them from it in their order, and of two operations on one channel the one that started later waits; a port comes up only
with EN = 1, and one that goes down fails the operations that use it.
Choices and readings of the model that clauses rest on: DESIGN CHOICE, log 26, DEDUCED, log 32, DEDUCED, log 57. -/
def Obligations.GraphAndPortEvents : Prop :=
  (∀ (s : State) (q : Fin 32) (p : Packet) (h n : Nat) (a : DieId × Nat), (s.queue q.val).cur = [p] → p.live 2 = true →
    h = (qword p.bytes 2).toNat % 16 → n = (qword p.bytes 4).toNat % 512 → a = dlaOf (qword p.bytes 3) →
    (p.endAt = 0 → ∃ t e, exec (.graphLoad q) s = .next t ∧ s.sidc < e ∧ (t.queue q.val).cur = [{ p with endAt := e }] ∧
      t.hub.handles = s.hub.handles) ∧
    (s.sidc < p.endAt → exec (.graphLoad q) s = .next s) ∧
    (p.endAt ≠ 0 → p.endAt ≤ s.sidc →
      (∀ l, s.dlaBytes a.1 a.2 (32 * n) = .ok l → (graphOps l n).all opOk = true → ∃ t, exec (.graphLoad q) s = .next t ∧
        (t.queue q.val).cur = [{ p with done := some 0 }] ∧ t.handle q h = { s.handle q h with ops := graphOps l n, loaded := true }) ∧
      ((∃ e, s.dlaBytes a.1 a.2 (32 * n) = .error e) ∨ (∃ l, s.dlaBytes a.1 a.2 (32 * n) = .ok l ∧ ∃ r ∈ graphOps l n, opOk r = false) →
        ∃ t, exec (.graphLoad q) s = .next t ∧ (t.queue q.val).cur = [{ p with done := some 7 }] ∧ t.hub.handles = s.hub.handles))) ∧
  (∀ (s : State) (q : Fin 32) (p : Packet) (h : Nat), (s.queue q.val).cur = [p] → p.live 3 = true → p.endAt = 0 →
    h = (qword p.bytes 2).toNat % 16 →
    ((s.handle q h).run.isSome = true → exec (.graphRun q) s = .next s) ∧
    ((s.handle q h).run = none → ∃ t ops bases, exec (.graphRun q) s = .next t ∧ (t.handle q h).run = some (ops, bases) ∧
      (t.handle q h).ctrs = (s.handle q h).ctrs ∧ ops.map (·.rec_) = (s.handle q h).ops ∧
      (∀ o ∈ ops, o.fired = false ∧ o.doneOp = false) ∧ bases = (List.range 16).map (fun k => qword p.bytes (4 + k)) ∧
      (t.queue q.val).cur = [{ p with endAt := s.sidc + 1 }])) ∧
  (∀ (s : State) (q : Fin 32) (h : Fin 16) (ops : List GraphOp) (bases : List W64), (s.handle q h).run = some (ops, bases) →
    (∀ k < 16, k ≠ h.val → (s.handle q k).run = none) →
    ∃ t ops', exec (.graphOperationFire q) s = .next t ∧ (t.handle q h).run = some (ops', bases) ∧ ops'.length = ops.length ∧
      (t.handle q h).ctrs = (s.handle q h).ctrs ∧ t.dies = s.dies ∧ t.mem = s.mem ∧
      ∀ (i : Nat) (o : GraphOp), ops[i]? = some o → ∃ o' : GraphOp, ops'[i]? = some o' ∧ o'.rec_ = o.rec_ ∧ o'.doneOp = o.doneOp ∧
        (o'.fired = true ↔ o.fired = true ∨
          o.rec_.x0.toNat / 2 ^ 32 % 2 ^ 16 ≤ kget 0 (o.rec_.x0.toNat / 2 ^ 48 % 256) (s.handle q h).ctrs) ∧
        (o.fired = true → o' = o) ∧ (o.fired = false → o'.fired = true → o'.startAt = s.sidc ∧ s.sidc < o'.endAt)) ∧
  (∀ (s : State) (key i : Nat) (o : GraphOp), s.behind key i o = true ↔ ∃ e ∈ s.hub.handles, ∃ ops bases, e.2.run = some (ops, bases) ∧
    ∃ (j : Nat) (a : GraphOp), ops[j]? = some a ∧ a.fired = true ∧ a.doneOp = false ∧
      a.rec_.x0.toNat / 2 ^ 20 % 8 = o.rec_.x0.toNat / 2 ^ 20 % 8 ∧ a.rec_.x0.toNat / 2 ^ 12 % 256 = o.rec_.x0.toNat / 2 ^ 12 % 256 ∧
      (a.rec_.x0.toNat / 2 ^ 56 = 1 ↔ o.rec_.x0.toNat / 2 ^ 56 = 1) ∧
      (a.startAt < o.startAt ∨ e.1 = key ∧ a.startAt = o.startAt ∧ j < i)) ∧
  (∀ (s : State) (q : Fin 32), (∀ k < 16, (s.handle q k).run = none) →
    exec (.graphOperationFire q) s = .next s ∧ exec (.graphOperationComplete q) s = .next s) ∧
  (∀ (s : State) (q : Fin 32) (h : Fin 16) (o : GraphOp) (bases : List W64) (x : XPort) (p : Packet),
    (s.handle q h).run = some ([o], bases) → (∀ k < 16, k ≠ h.val → (s.handle q k).run = none) → (s.handle q h).err = none →
    x = s.port (o.rec_.x0.toNat / 2 ^ 20 % 8) → o.fired = true → o.doneOp = false → o.endAt ≤ s.sidc → o.rec_.x3.getLsbD 63 = false →
    (s.queue q.val).cur = [p] → p.live 3 = true → p.endAt ≠ 0 → (qword p.bytes 2).toNat % 16 = h.val →
    ((o.down = true ∨ x.up = false) → ∃ t, exec (.graphOperationComplete q) s = .next t ∧ (t.handle q h).run = none ∧
      (t.handle q h).ctrs = [] ∧ (t.queue q.val).cur = [{ p with done := some 7, cause := 0 }] ∧ t.mem = s.mem) ∧
    (o.down = false → x.up = true → o.rec_.x2.toNat % 2 ^ 32 = 0 → ∃ t, exec (.graphOperationComplete q) s = .next t ∧
      (t.handle q h).run = none ∧ (t.handle q h).ctrs = [] ∧ (t.queue q.val).cur = [{ p with done := some 0, cause := 0 }] ∧
      t.mem = s.mem ∧ t.hub.ports = s.hub.ports) ∧
    (o.down = false → x.up = true → o.rec_.x2.toNat % 2 ^ 32 ≠ 0 → s.behind (16 * q.val + h.val) 0 o = true →
      exec (.graphOperationComplete q) s = .next s) ∧
    (∀ a c n, o.down = false → x.up = true → a = opPlace bases o.rec_ → n = o.rec_.x2.toNat % 2 ^ 32 → n ≠ 0 →
      s.behind (16 * q.val + h.val) 0 o = false → (o.rec_.x0.toNat / 2 ^ 56 ≠ 1 ∧ s.dlaBytes a.1 a.2 n = .error c ∨
        o.rec_.x0.toNat / 2 ^ 56 = 1 ∧ o.rec_.x0.toNat / 2 ^ 8 % 16 ≠ 0 ∧ s.dlaBytes a.1 a.2 n = .error c ∨
        o.rec_.x0.toNat / 2 ^ 56 = 1 ∧ o.rec_.x0.toNat / 2 ^ 8 % 16 = 0 ∧ s.dlaRefused a.1 a.2 n = some c) →
      ∃ t, exec (.graphOperationComplete q) s = .next t ∧ (t.handle q h).run = none ∧ t.mem = s.mem ∧ t.hub.ports = s.hub.ports ∧
        (t.queue q.val).cur = [{ p with done := some 7, cause := c }]) ∧
    (∀ a l, o.down = false → x.up = true → a = opPlace bases o.rec_ → o.rec_.x0.toNat / 2 ^ 56 = 0 → o.rec_.x2.toNat % 2 ^ 32 ≠ 0 →
      s.behind (16 * q.val + h.val) 0 o = false → s.dlaBytes a.1 a.2 (o.rec_.x2.toNat % 2 ^ 32) = .ok l → ∃ t, exec (.graphOperationComplete q) s = .next t ∧ t.mem = s.mem ∧
        (t.handle q h).run = none ∧ (t.queue q.val).cur = [{ p with done := some 0, cause := 0 }] ∧
        kget [] (o.rec_.x0.toNat / 2 ^ 12 % 256) (t.port (o.rec_.x0.toNat / 2 ^ 20 % 8)).tx =
          kget [] (o.rec_.x0.toNat / 2 ^ 12 % 256) x.tx ++ l.map fun b => (false, b)) ∧
    (∀ a rx, o.down = false → x.up = true → a = opPlace bases o.rec_ → o.rec_.x0.toNat / 2 ^ 56 = 1 → o.rec_.x2.toNat % 2 ^ 32 = 4 →
      s.behind (16 * q.val + h.val) 0 o = false → o.rec_.x0.toNat / 2 ^ 8 % 16 = 0 → s.dlaRefused a.1 a.2 4 = none → rx = kget [] (o.rec_.x0.toNat / 2 ^ 12 % 256) x.rx →
      (rx.length < 4 → exec (.graphOperationComplete q) s = .next s) ∧
      (4 ≤ rx.length → ∃ t, exec (.graphOperationComplete q) s = .next t ∧ (t.queue q.val).cur = [{ p with done := some 0, cause := 0 }] ∧
        kget [] (o.rec_.x0.toNat / 2 ^ 12 % 256) (t.port (o.rec_.x0.toNat / 2 ^ 20 % 8)).rx = rx.drop 4 ∧
        (∀ b, b < memKey a.1 a.2 ∨ memKey a.1 a.2 + 4 ≤ b → memGet t.mem b = memGet s.mem b) ∧
        ∀ i < 4, (rx[i]?.map (·.2)) = some (memGet t.mem (memKey a.1 a.2 + i))))) ∧
  (∀ (s : State) (port : Fin 8) (peer : W64) (chan : Byte) (packed : Bool) (bytes : List Byte),
    (∃ t x, exec (.filysXLinkDown port) s = .next t ∧ x = s.port port.val ∧
      t.port port.val = { x with up := false, loss := x.loss || x.en } ∧ (∀ k, k ≠ port.val → t.port k = s.port k) ∧
      (∀ (k : Fin 32) (h : Nat) (ops : List GraphOp) (bases : List W64), (s.handle k h).run = some (ops, bases) →
        (t.handle k h).run = some (ops.map fun o => if o.fired = true ∧ o.doneOp = false ∧ o.rec_.x0.toNat / 2 ^ 20 % 8 = port.val
          then { o with down := true } else o, bases)) ∧
      t.hub.handles.map (·.1) = s.hub.handles.map (·.1) ∧ t.dies = s.dies ∧ t.hub.queues = s.hub.queues) ∧
    ((s.port port.val).en = true → ∃ t, exec (.filysXLinkUp port peer) s = .next t ∧
      t.port port.val = { s.port port.val with up := true, peer := peer.setWidth 48 } ∧ ∀ k, k ≠ port.val → t.port k = s.port k) ∧
    ((s.port port.val).en = false → exec (.filysXLinkUp port peer) s = .next s) ∧
    ∃ t, exec (.channelDataArrival port chan packed bytes) s = .next t ∧ (∀ k, k ≠ port.val → t.port k = s.port k) ∧
      (∀ k, k ≠ chan.toNat → kget [] k (t.port port.val).rx = kget [] k (s.port port.val).rx) ∧
      kget [] chan.toNat (t.port port.val).rx = kget [] chan.toNat (s.port port.val).rx ++ bytes.map fun b => (packed, b))

-- ## The host (R212, R278, R306 to R317)

/-- DIDTLIM_WRITE, LANELIM_WRITE, HOST_REGISTER_WRITE, BAR2_ACCESS and HOST_EVENT (R267, R278, R306 to R309, R314, R316). LANELIM waits
while a team runs. An aligned write of 64 bits, or of one half, changes its register under its mask and no other, for every register of
the BAR0 map; a read-only one stays; any other size or alignment is dropped, and a read of that kind completes with Unsupported Request;
in boot state bytes of the staging window are stored. A BAR2 access waits at its home behind the requests of its channels that came before
it. A BAR2 write changes its bytes of memory and no other, a read gives its bytes; one
that the controller refuses leaves memory alone, completes a read with Completer Abort and writes an event of type 6. An event goes into
the ring while it has room, else into the store of 256, else by its type; those of a cycle in ascending die number. A masked vector sets
its pending bit, and is raised once it is unmasked.

TELEMETRY_SAMPLE, DBGSTOP, DBGDATA_ACCESS, DBGRES and TRACE_RECORD_WRITE (R311, R313, R315): a window ends with its record, its thermal
events and the counts of every die at zero; a debug stop reaches the dies of its mask that a team holds; the frozen words of a parked die
are read and written, with FBAD for an unmapped address; DBGRES sets out on RESUME's steps; a held trace record goes into its slot.
Choices and readings of the model that clauses rest on: DESIGN CHOICE, log 18, DESIGN CHOICE, log 19, DESIGN CHOICE, log 22, PRESUMED, log 27, DEDUCED, log 56,
DEDUCED, log 58, DEDUCED, log 81. -/
def Obligations.HostEvents : Prop :=
  (∀ (s : State) (v : W64), (∃ t, exec (.didtlimWrite v) s = .next t ∧ t = { s with hub := { s.hub with didtlim := t.hub.didtlim } } ∧
      ∀ k < 64, t.hub.didtlim.getLsbD k = (v.getLsbD k && decide (k < 10 ∨ 16 ≤ k ∧ k < 26))) ∧
    ∃ t w, exec (.lanelimWrite v) s = .next t ∧
      (∀ k < 64, w.getLsbD k = if k = 5 then true else v.getLsbD k && decide (16 ≤ k ∧ k < 32 ∨ 40 ≤ k ∧ k < 44)) ∧
      t = { s with hub := { s.hub with lanelim := t.hub.lanelim, lanelimNext := t.hub.lanelimNext, lanelimTeams := t.hub.lanelimTeams } } ∧
      ((∃ g ∈ s.hub.teams, g.phase ≠ .preempted ∧ g.phase ≠ .preparing) → t.hub.lanelimNext = some w ∧
        t.hub.lanelim = s.hub.lanelim ∧ ∀ n, n ∈ t.hub.lanelimTeams ↔ ∃ g ∈ s.hub.teams, g.phase ≠ .preempted ∧ g.phase ≠ .preparing ∧
          g.num = n) ∧
      ((∀ g ∈ s.hub.teams, g.phase = .preempted ∨ g.phase = .preparing) → t.hub.lanelim = w ∧ t.hub.lanelimNext = none)) ∧
  (∀ (s : State) (off : BitVec 26) (size : Nat) (v : W64),
    (¬(size = 8 ∧ off.toNat % 8 = 0) → ¬(size = 4 ∧ off.toNat % 4 = 0) → exec (.hostRegisterWrite off size v) s = .next s) ∧
    (s.power = .running → ∀ k < 256, off.toNat / 8 = 0x82000 + k → (size = 8 ∧ off.toNat % 8 = 0 ∨ size = 4 ∧ off.toNat % 4 = 0) →
      ∃ t, exec (.hostRegisterWrite off size v) s = .next t ∧ t = { s with hub := { s.hub with fences := t.hub.fences } } ∧
        (∀ j, j ≠ k → t.fenceCtr j = s.fenceCtr j) ∧
        (size = 8 → t.fenceCtr k = v) ∧
        (size = 4 → off.toNat % 8 = 0 → (t.fenceCtr k).toNat = (s.fenceCtr k).toNat / 2 ^ 32 * 2 ^ 32 + v.toNat % 2 ^ 32) ∧
        (size = 4 → off.toNat % 8 = 4 → (t.fenceCtr k).toNat = v.toNat % 2 ^ 32 * 2 ^ 32 + (s.fenceCtr k).toNat % 2 ^ 32)) ∧
    (s.power = .running → ∀ q < 32, off.toNat = 0x400000 + 0x40 * q → size = 8 → ∃ t, exec (.hostRegisterWrite off size v) s = .next t ∧
      (∀ k, k ≠ q → t.queue k = s.queue k) ∧ t.queue q = { s.queue q with base := (t.queue q).base } ∧
      ((s.queue q).en = true → (t.queue q).base = (s.queue q).base) ∧
      ((s.queue q).en = false → (t.queue q).base.toNat = v.toNat / 256 * 256)) ∧
    (s.power = .running → ∀ q < 32, off.toNat = 0x400010 + 0x40 * q → size = 8 → ∃ t, exec (.hostRegisterWrite off size v) s = .next t ∧
      (∀ k, k ≠ q → t.queue k = s.queue k) ∧ t.queue q = { s.queue q with tail := v.setWidth 32 }) ∧
    (s.power = .running → ∀ q < 32, off.toNat = 0x400008 + 0x40 * q → size = 8 → ∃ t, exec (.hostRegisterWrite off size v) s = .next t ∧
      (∀ k, k ≠ q → t.queue k = s.queue k) ∧ t.queue q = { s.queue q with
        en := v.getLsbD 63, prio := fld v 16 2, lsz := if (s.queue q).en then (s.queue q).lsz else fld v 0 5 }) ∧
    (s.power = .running → ∀ q < 32, 0x400018 + 0x40 * q ≤ off.toNat → off.toNat < 0x400040 + 0x40 * q →
      ∃ t, exec (.hostRegisterWrite off size v) s = .next t ∧ ∀ k, t.queue k = s.queue k) ∧
    (s.power = .running → size = 8 → ∀ e ∈ [(0x10000, (0xFFFFFFFFFFFFFF00 : W64)), (0x10008, 0x87FF00000000001F), (0x10018, 0xFFFFFFFF),
        (0x10040, 0x3FC0000000), (0x400800, 0xFFFFFFFF), (0x800000, 0x03FF03FF), (0x800200, 0x87FF00000000001F),
        (0x800208, 0xFFFFFFFFFFFFFF00), (0x800210, 0xFFFFFFFF), (0x900000, 1), (0x900010, 0xFFFFFFFFFFFFFFFF),
        (0x900018, 0xC0000000FFFFFFFF), (0x900100, 0xC7FF00000000001F), (0x900108, 0xFFFFFFFFFFFFFF00), (0x900118, 0xFFFFFFFF)],
      off.toNat = e.1 → ∃ t, exec (.hostRegisterWrite off size v) s = .next t ∧ t = { s with hub := t.hub } ∧ t.bar0 e.1 = v &&& e.2 ∧
        (∀ o, o ≠ e.1 → ¬(e.1 = 0x400800 ∧ 0x400000 ≤ o ∧ o < 0x400800) → t.bar0 o = s.bar0 o) ∧
        (∀ hi : Bool, ∀ x : BitVec 26, x.toNat = e.1 + (if hi then 4 else 0) → ∃ u, exec (.hostRegisterWrite x 4 v) s = .next u ∧
          u = { s with hub := u.hub } ∧
          u.bar0 e.1 = (if hi then (v.setWidth 32 : W32) ++ (fld (s.bar0 e.1) 0 32 : W32)
            else (fld (s.bar0 e.1) 32 32 : W32) ++ (v.setWidth 32 : W32)) &&& e.2)) ∧
    (s.power = .running → size = 8 → ∀ e ∈ [(0x800000, Instr.didtlimWrite v), (0x800100, .lanelimWrite v), (0x900008, .dbgstop v),
        (0x900020, .dbgdataAccess (some v)), (0x900028, .dbgres v)] ++ allDies.flatMap (fun d =>
          [(0x1000008 + 0x100000 * d.val, .xinval d v), (0x1000010 + 0x100000 * d.val, .xreplay d v)]),
      off.toNat = e.1 → exec (.hostRegisterWrite off size v) s = exec e.2 s) ∧
    (s.power = .running → size = 8 → (off.toNat ∈ [0, 0x10010, 0x900110, 0xA00008] ∨ (0x28000 ≤ off.toNat ∧ off.toNat < 0x28100) ∨
        (0x910000 ≤ off.toNat ∧ off.toNat < 0x918000)) → exec (.hostRegisterWrite off size v) s = .next s) ∧
    (s.power = .running → size = 8 → off.toNat = 0x10020 → exec (.hostRegisterWrite off size v) s =
      .next { s with hub := { s.hub with hevlost := if v.toNat % 2 ^ 32 = 0 then 0 else s.hub.hevlost } }) ∧
    (s.power = .running → size = 8 → off.toNat = 0x900120 → exec (.hostRegisterWrite off size v) s =
      .next { s with hub := { s.hub with trclost := if v.toNat % 2 ^ 32 = 0 then 0 else s.hub.trclost } }) ∧
    (s.power = .running → size = 8 → off.toNat = 0x900030 → exec (.hostRegisterWrite off size v) s =
      .next { s with hub := { s.hub with dbgfbad := s.hub.dbgfbad && v.getLsbD 4 } }) ∧
    (s.power = .running → size = 8 → ∀ (d : DieId) (n : Nat), n < 16 → off.toNat = 0x900200 + 0x100 * d.val + 0x10 * n →
      ∃ t, exec (.hostRegisterWrite off size v) s = .next t ∧ OnlyDie d s t ∧ t.die d = { s.die d with monitors := (t.die d).monitors } ∧
        ∀ k, kget {} k (t.die d).monitors = if k = n then { kget {} n (s.die d).monitors with cfg := v &&& 0xFF7FFF00FFFFFFFF }
          else kget {} k (s.die d).monitors) ∧
    (s.power = .running → size = 8 → ∀ (d : DieId) (n : Nat), n < 16 → off.toNat = 0x900208 + 0x100 * d.val + 0x10 * n →
      ∃ t, exec (.hostRegisterWrite off size v) s = .next t ∧ OnlyDie d s t ∧ t.die d = { s.die d with monitors := (t.die d).monitors } ∧
        ∀ k, kget {} k (t.die d).monitors = if k = n then { kget {} n (s.die d).monitors with
          cnt := v, fired := (kget {} n (s.die d).monitors).fired && v != 0 } else kget {} k (s.die d).monitors) ∧
    (s.power = .running → size = 8 → ∀ d : DieId, off.toNat = 0x1000000 + 0x100000 * d.val →
      exec (.hostRegisterWrite off size v) s = .next (s.setFs d { s.fs d with xroot := v &&& 0x8000001FFFFF00E0 })) ∧
    (s.power = .running → size = 8 → ∀ (d : DieId) (n j : Nat), n < 64 → j < 4 →
      off.toNat = 0x1001000 + 0x100000 * d.val + 32 * n + 8 * j → ∃ t, exec (.hostRegisterWrite off size v) s = .next t ∧
        t = s.setFs d { s.fs d with regions := (t.fs d).regions } ∧ ∀ k, kget {} k (t.fs d).regions =
          let e : Region := kget {} k (s.fs d).regions
          if k ≠ n then e else if j = 0 then { e with w0 := v &&& 0x8FFE0FFFFFFF0000 }
          else if j = 1 then { e with w1 := v &&& 0x00000FFFFFFF0000 } else if j = 2 then { e with w2 := v &&& 0x0000001FFFFF0000 } else e) ∧
    (s.power = .running → size = 8 → ∀ p < 8, off.toNat = 0x2000000 + 0x100 * p → ∃ t, exec (.hostRegisterWrite off size v) s = .next t ∧
      t = { s with hub := { s.hub with ports := t.hub.ports, handles := t.hub.handles } } ∧ (∀ k, k ≠ p → t.port k = s.port k) ∧
      t.port p = { s.port p with en := v.getLsbD 63, up := (s.port p).up && v.getLsbD 63, loss := (s.port p).loss && v.getLsbD 61 } ∧
      ((s.port p).up = false ∨ v.getLsbD 63 = true → t.hub.handles = s.hub.handles) ∧
      ((s.port p).up = true → v.getLsbD 63 = false → ∀ (q : Fin 32) (h : Nat) (ops : List GraphOp) (bases : List W64),
        (s.handle q h).run = some (ops, bases) → (t.handle q h).run = some (ops.map fun o =>
          if o.fired = true ∧ o.doneOp = false ∧ o.rec_.x0.toNat / 2 ^ 20 % 8 = p then { o with down := true } else o, bases))) ∧
    (s.power = .running → size = 8 → ∀ (n : BitVec 11) (k : Nat), k < 2 → off.toNat = 0x20000 + 16 * n.toNat + 8 * k →
      ∃ t b, exec (.hostRegisterWrite off size v) s = .next t ∧ t = { s with hub := { s.hub with msix := t.hub.msix, raised := t.hub.raised } } ∧
        (∀ o < 0x8000, msixWord t.hub o = if o = 16 * n.toNat + 8 * k then (if k = 1 then v &&& 0x1FFFFFFFF else v) else msixWord s.hub o) ∧
        (b = true ↔ k = 1 ∧ (msixWord s.hub (0x8000 + 8 * (n.toNat / 64))).getLsbD (n.toNat % 64) = true ∧ s.hub.msixOn = true ∧
          s.hub.msixMask = false ∧ v.getLsbD 32 = false) ∧
        t.hub.raised = s.hub.raised ++ (if b then [n] else []) ∧
        ∀ m : BitVec 11, (msixWord t.hub (0x8000 + 8 * (m.toNat / 64))).getLsbD (m.toNat % 64) =
          ((msixWord s.hub (0x8000 + 8 * (m.toNat / 64))).getLsbD (m.toNat % 64) && !(b && m == n))) ∧
    (s.power = .boot → ∀ o, off.toNat = 0x3000000 + o → (size = 8 ∧ o % 8 = 0 ∨ size = 4 ∧ o % 4 = 0) →
      ∃ t, exec (.hostRegisterWrite off size v) s = .next t ∧ t = { s with hub := { s.hub with staging := t.hub.staging } } ∧
        ∀ k, (kget 0 k t.hub.staging : Byte) = if o ≤ k ∧ k < o + size then byteOf v (k - o) else kget 0 k s.hub.staging) ∧
    (s.power = .off ∨ s.power = .inReset → exec (.hostRegisterWrite off size v) s = .next s)) ∧
  (∀ (h : Hub) (n : BitVec 11), h.masked n = true ↔ h.msixOn = false ∨ h.msixMask = true ∨
    (msixWord h (16 * n.toNat + 8)).getLsbD 32 = true) ∧
  (∀ (s : State) (n : Nat) (on mask : Bool), s.cfgWrite (.bar2 n) =
      (if 30 ≤ n ∧ n ≤ 38 then { s with hub := { s.hub with bar2 := n } } else s) ∧
    (s.cfgWrite (.msix on mask)).hub.msixOn = on ∧ (s.cfgWrite (.msix on mask)).hub.msixMask = mask) ∧
  (∀ (s : State) (off : BitVec 26) (size : Nat) (w : W64), w = s.register (off.toNat / 8 * 8) →
    (s.power ≠ .running → s.power ≠ .boot → s.hostRead off size = none) ∧
    (s.power = .running ∨ s.power = .boot →
      (size = 8 → off.toNat % 8 = 0 → s.hostRead off size = some w) ∧
      (size = 4 → off.toNat % 8 = 0 → s.hostRead off size = some (w &&& 0xFFFFFFFF)) ∧
      (size = 4 → off.toNat % 8 = 4 → s.hostRead off size = some (w >>> 32)) ∧
      (¬(size = 8 ∧ off.toNat % 8 = 0) → ¬(size = 4 ∧ off.toNat % 4 = 0) → s.hostRead off size = none)) ∧
    (s.power = .running → w = s.bar0 (off.toNat / 8 * 8)) ∧
    (s.power = .boot → ∀ k < 8, byteOf w k = if 0x3000000 ≤ off.toNat then kget 0 (off.toNat / 8 * 8 - 0x3000000 + k) s.hub.staging
      else if off.toNat / 8 * 8 = 0xA00008 ∧ k = 0 then s.hub.bootst else 0)) ∧
  (∀ (s : State) (q : Nat), q < 32 → s.bar0 (0x400020 + 0x40 * q) = b1 (s.blocked q) ++ 0#53 ++ BitVec.ofNat 2 (s.epri q) ++ (s.queue q).lstat ∧
    (s.blocked q = true ↔ (s.waiting q ≠ none ∨ (s.queue q).head ≠ (s.queue q).tail) ∧ s.ready q = false)) ∧
  (∀ (s : State) (off : BitVec 38) (size : Nat) (l : List Byte) (e : Nat) (d : DieId) (now : Prop),
    e = s.hub.bar2At off.toNat → d = Fin.ofNat 4 (e / 2 ^ 36) →
    now = (s.power = .running ∧ (s.fs d).host = [] ∧ s.chansFree d (e % 2 ^ 36) size = true) →
    (s.power ≠ .running → exec (.bar2Access off size (some l)) s = .next s ∧ exec (.bar2Access off size none) s = .next s) ∧
    (∀ x, s.power = .running → ((s.fs d).host ≠ [] ∨ s.chansFree d (e % 2 ^ 36) size = false) → ∃ t a,
      exec (.bar2Access off size x) s = .next t ∧ t = s.setFs d { s.fs d with host := (s.fs d).host ++ [a] } ∧ a.e = e ∧ a.size = size ∧
      a.data = x ∧ ∀ c q, (c, q) ∈ a.seen ↔ ∃ r, (c, r) ∈ s.hereReqs d ∧ r.seq = q ∧ a.meets r.granule = true) ∧
    (now → (s.fs d).mcReset = false → l.length = size → (s.fs d).badEdge (e % 2 ^ 36) size = false →
      ∃ t, exec (.bar2Access off size (some l)) s = .next t ∧ t.dies = s.dies ∧ t.hub = s.hub ∧ t.hostMem = s.hostMem ∧
        (∀ g ∈ granules (e % 2 ^ 36) size, (t.fs d).isTouched s.sidc g = true) ∧
        (∀ a, memGet t.mem a = if memKey d (e % 2 ^ 36) ≤ a ∧ a < memKey d (e % 2 ^ 36) + size then
          l.getD (a - memKey d (e % 2 ^ 36)) 0 else memGet s.mem a) ∧
        ∀ k, k ∈ (t.fs d).badWords ↔ k ∈ (s.fs d).badWords ∧ ¬(e % 2 ^ 36 ≤ 4 * k ∧ 4 * k + 4 ≤ e % 2 ^ 36 + size)) ∧
    (∀ c : Byte, now → l.length = size → ((s.fs d).mcReset = true ∧ c = 0xA4 ∨
        (s.fs d).mcReset = false ∧ (s.fs d).badEdge (e % 2 ^ 36) size = true ∧ c = 0xA5) →
      exec (.bar2Access off size (some l)) s = .next { s with hub := { s.hub with hevnow := s.hub.hevnow ++
        [eventOf 6 c (match s.teamOf d with | some g => g.num | none => 0) d (BitVec.ofNat 64 e) s.sidc] } }) ∧
    (∀ x, now → s.dlaBytes d (e % 2 ^ 36) size = .ok x → ∃ t, exec (.bar2Access off size none) s = .next t ∧
      t = { s.dlaTouch d (e % 2 ^ 36) size with hub := { s.hub with bar2Reads := s.hub.bar2Reads ++ [some x] } } ∧ t.mem = s.mem ∧
      ∀ g ∈ granules (e % 2 ^ 36) size, (t.fs d).isTouched s.sidc g = true) ∧
    (∀ c, now → s.dlaBytes d (e % 2 ^ 36) size = .error c → exec (.bar2Access off size none) s =
      .next { s with hub := { s.hub with
        hevnow := s.hub.hevnow ++ [eventOf 6 c (match s.teamOf d with | some g => g.num | none => 0) d (BitVec.ofNat 64 e) s.sidc]
        bar2Reads := s.hub.bar2Reads ++ [none] } })) ∧
  (∀ (s : State) (h : DieId) (a : HostAcc) (l : List HostAcc) (n : Nat) (waits : Prop), (s.fs h).host = a :: l →
    waits = ((∃ e ∈ s.hereReqs h, (e.1, e.2.seq) ∈ a.seen ∧ e.2.isSc = false) ∨
      ∃ g ∈ granules (a.e % 2 ^ 36) a.size, (s.fs h).isTouched s.sidc g = true) →
    (waits → s.bar2Step h (n + 1) = s) ∧
    (¬waits → s.bar2Step h (n + 1) = ((s.setFs h { s.fs h with host := l }).bar2Make a.e a.size a.data).bar2Step h n)) ∧
  (∀ (ty cause : Byte) (team : BitVec 16) (d : DieId) (info : W64) (sidc : Nat) (w : Four W64), w = eventOf ty cause team d info sidc →
    w.x0.toNat = ty.toNat * 2 ^ 56 + cause.toNat * 2 ^ 48 + team.toNat * 2 ^ 32 + d.val * 2 ^ 14 ∧ w.x1 = info ∧
    w.x2 = BitVec.ofNat 64 sidc ∧ w.x3 = 0) ∧
  (∀ s : State, s.hub.hevnow = [] → s.takeEvents = s) ∧
  (∀ (s u : State) (a b : Four W64), s.hub.hevnow = [a, b] → u = { s with hub := { s.hub with hevnow := [] } } → s.takeEvents =
    if b.x0.toNat / 2 ^ 14 % 4 < a.x0.toNat / 2 ^ 14 % 4 then (u.hubEvent b).hubEvent a else (u.hubEvent a).hubEvent b) ∧
  (∀ (s : State) (kind : Byte) (arg : W64), ∃ t, exec (.hostEvent kind arg) s = .next t ∧ t.mem = s.mem ∧ t.dies = s.dies ∧
    (s.hub.hevheld = [] → s.hub.heven = true → (s.hub.hevtail - s.hub.hevhead).toNat < hevSlots s.hub →
      ∀ a, a = s.hub.hevbase.toNat / 256 * 256 + 32 * (s.hub.hevtail.toNat % hevSlots s.hub) →
        t.hub.hevtail = s.hub.hevtail + 1 ∧ t.hub.hevheld = [] ∧ memGet t.hostMem (a + 7) = kind ∧ memWord t.hostMem (a + 8) = arg ∧
        memWord t.hostMem (a + 16) = BitVec.ofNat 64 s.sidc ∧ ∀ b, b < a ∨ a + 32 ≤ b → memGet t.hostMem b = memGet s.hostMem b) ∧
    (s.hub.heven = false ∨ hevSlots s.hub ≤ (s.hub.hevtail - s.hub.hevhead).toNat → t.hostMem = s.hostMem ∧ t.hub.hevtail = s.hub.hevtail ∧
      (s.hub.hevheld.length < 256 → t.hub.hevheld.length = s.hub.hevheld.length + 1 ∧ t.hub.hevlost = s.hub.hevlost) ∧
      (256 ≤ s.hub.hevheld.length → t.hub.hevheld = s.hub.hevheld ∧
        (kind = 1 → t.hub.repeats.length = s.hub.repeats.length + 1 ∧ t.hub.hevlost = s.hub.hevlost) ∧
        (kind ≠ 1 → t.hub.repeats = s.hub.repeats ∧ t.hub.hevlost.toNat = min (s.hub.hevlost.toNat + 1) (2 ^ 32 - 1))))) ∧
  (∀ s : State, ∃ t, exec .telemetrySample s = .next t ∧ t.mem = s.mem ∧ (∀ d, t.die d = { s.die d with tele := {} }) ∧
    let l (d : DieId) : List W64 := kget [] d.val t.hub.latest
    let k : Nat := s.sidc / 600000 - 1
    let v : BitVec 11 := fld s.hub.telctl 48 11
    (∀ d, (l d).length = 16 ∧ (l d).getD 0 0 = 0#30 ++ BitVec.ofNat 2 d.val ++ BitVec.ofNat 32 k ∧
      (l d).getD 1 0 = BitVec.ofNat 64 (s.sidc - 1) ∧
      (l d).getD 5 0 = BitVec.ofNat 32 (s.die d).tele.gdr ++ BitVec.ofNat 32 (s.die d).tele.vlt ∧
      (l d).getD 6 0 = BitVec.ofNat 32 (s.die d).tele.rdv ++ BitVec.ofNat 32 (s.die d).tele.rmt ∧
      (l d).getD 7 0 = BitVec.ofNat 32 (s.die d).tele.await ++ BitVec.ofNat 32 (s.die d).tele.gov ∧
      fld ((l d).getD 8 0) 0 32 = BitVec.ofNat 32 (s.die d).tele.breach ∧
      (l d).getD 9 0 = (allPos.map fun p => ((s.die d).sta p).locreq).sum ∧
      (l d).getD 10 0 = (allPos.map fun p => ((s.die d).sta p).remreq).sum ∧ ∀ i, 10 < i → (l d).getD i 0 = 0) ∧
    (s.hub.telctl.getLsbD 63 = false → t.hostMem = s.hostMem) ∧
    (s.hub.telctl.getLsbD 63 = true → ∀ d : DieId, ∀ i < 16, memWord t.hostMem (s.hub.telbase.toNat / 256 * 256 +
      128 * ((4 * k + d.val) % 2 ^ clampLsz 2 16 (fld s.hub.telctl 0 5)) + 8 * i) = (l d).getD i 0) ∧
    t.hub.hevnow = s.hub.hevnow ++ ((allDies.filter fun d =>
      decide (s.hub.templim.toInt ≤ (((l d).getD 4 0).setWidth 16 : BitVec 16).toInt)).map fun d =>
        eventOf 5 0 (match s.teamOf d with | some g => g.num | none => 0) d ((l d).getD 4 0) s.sidc) ∧
    (s.hub.telctl.getLsbD 63 = false ∨ v = 0 → t.hub.raised = s.hub.raised) ∧
    (s.hub.telctl.getLsbD 63 = true → v ≠ 0 → s.hub.masked v = false → t.hub.raised = s.hub.raised ++ [v])) ∧
  (∀ (s : State) (v : W64), ∃ t, exec (.dbgstop v) s = .next t ∧ t.mem = s.mem ∧ t.hub.dbgat = v.getLsbD 62 ∧
    t.hub.dbgmask.toNat = v.toNat % 16 ∧ ∀ d, t.die d = if v.getLsbD 63 = true ∧ v.getLsbD d.val = true ∧ (s.teamOf d).isSome = true then
      { s.die d with debugAt := some (if v.getLsbD 62 = true then s.hub.dbgt.toNat else s.sidc + 1) } else s.die d) ∧
  (∀ (s : State) (w : W64) (d : DieId) (f : Nat), d.val = s.hub.dbgfsa.toNat / 2 ^ 62 → f = s.hub.dbgfsa.toNat % 2 ^ 32 →
    (s.parked d = false → exec (.dbgdataAccess (some w)) s = .next s ∧ ∃ t, exec (.dbgdataAccess none) s = .next t ∧ t.dies = s.dies) ∧
    (s.parked d = true → (∀ u, s.frzGet d f = some u → ∃ t, exec (.dbgdataAccess none) s = .next t ∧ t.hub = { s.hub with dbgdata := u } ∧
        t.dies = s.dies) ∧
      (s.frzGet d f = none → ∃ t, exec (.dbgdataAccess none) s = .next t ∧ t.hub = { s.hub with dbgdata := 0, dbgfbad := true } ∧
        t.dies = s.dies) ∧
      (∀ u, s.frzPut d f w false = some u → exec (.dbgdataAccess (some w)) s = .next u) ∧
      (s.frzPut d f w false = none → exec (.dbgdataAccess (some w)) s = .next { s with hub := { s.hub with dbgfbad := true } }))) ∧
  (∀ (s : State) (v : W64), ((∀ d : DieId, v.getLsbD d.val = true → s.parked d = false) → exec (.dbgres v) s = .next s) ∧
    ∀ d : DieId, v.toNat = 2 ^ d.val → s.parked d = true → ∃ t l, exec (.dbgres v) s = .next t ∧ t.agenda = s.agenda ++ l ∧
      (l = [] ∨ l.getLast? = some (.resumeEnd d)) ∧ ∀ e, e ≠ d → t.die e = s.die e) ∧
  (∀ s : State, (s.hub.trcstore = [] → exec .traceRecordWrite s = .next s) ∧
    (s.hub.trcctl.getLsbD 62 = false → 2 ^ clampLsz 4 20 (fld s.hub.trcctl 0 5) ≤ (s.hub.trctail - s.hub.trchead).toNat →
      exec .traceRecordWrite s = .next s) ∧
    ∀ e a, s.hub.trcstore = [e] → (s.hub.trcctl.getLsbD 62 = true ∨
        (s.hub.trctail - s.hub.trchead).toNat < 2 ^ clampLsz 4 20 (fld s.hub.trcctl 0 5)) →
      a = s.hub.trcbase.toNat / 256 * 256 + 32 * (s.hub.trctail.toNat % 2 ^ clampLsz 4 20 (fld s.hub.trcctl 0 5)) →
      ∃ t, exec .traceRecordWrite s = .next t ∧ t.hub.trcstore = [] ∧ t.hub.trctail = s.hub.trctail + 1 ∧ t.dies = s.dies ∧
        (∀ i < 4, memWord t.hostMem (a + 8 * i) = e.toList.getD i 0) ∧ ∀ b, b < a ∨ a + 32 ≤ b → memGet t.hostMem b = memGet s.hostMem b)

/-- BOOT_GO, HUB_RESET_DEASSERT, POWER_REMOVAL and RESET_PIN_ASSERT (R14, R316): a GO begins the verification of the staged image; its end
runs the firmware or leaves its reason in BOOTST; deasserting reset starts SIDC at 0 in boot state; power removal loses everything, the
reset pin everything but far memory (the model's choice: DESIGN CHOICE, log 4).

The SPDM requests (R317): the running firmware answers each, and nothing else changes; without firmware nothing answers. Of the
algorithms offered RSASSA-3072 and SHA-256 alone are taken, and any other request is answered with ERROR UnsupportedRequest.
Choices and readings of the model that clauses rest on: DESIGN CHOICE, log 20, DESIGN CHOICE, log 21, DESIGN CHOICE, log 30, PRESUMED, log 79. -/
def Obligations.BootAndAttestation : Prop :=
  (∀ (s : State) (v : W64),
    (s.power ≠ .boot → exec (.bootGo v) s = .next s) ∧
    (s.power = .boot → s.hub.bootAt = none → v.getLsbD 63 = false → exec (.bootGo v) s = .next s) ∧
    (s.power = .boot → s.hub.bootAt = none → v.getLsbD 63 = true → ∃ t n, exec (.bootGo v) s = .next t ∧ s.sidc < n ∧
      t.hub = { s.hub with bootAt := some n } ∧ t.power = .boot ∧ t.dies = s.dies) ∧
    (∀ n, s.power = .boot → s.hub.bootAt = some n → s.sidc < n → exec (.bootGo v) s = .next s) ∧
    (∀ n, s.power = .boot → s.hub.bootAt = some n → n ≤ s.sidc → ∃ t, exec (.bootGo v) s = .next t ∧ t.hub.bootAt = none ∧
      t.dies = s.dies ∧ t.mem = s.mem ∧
      (Config.parseFirmware s.hub.staged = none → t.power = .boot ∧ t.hub.bootst = 0x10) ∧
      ∀ body sig key sec ver, Config.parseFirmware s.hub.staged = some (body, sig, key, sec, ver) →
        (Config.sha256 key ≠ Config.vendorDigest → t.power = .boot ∧ t.hub.bootst = 0x11) ∧
        (Config.sha256 key = Config.vendorDigest → Config.rsaVerify body sig key = false → t.power = .boot ∧ t.hub.bootst = 0x12) ∧
        (Config.sha256 key = Config.vendorDigest → Config.rsaVerify body sig key = true → sec < Config.fusedMin →
          t.power = .boot ∧ t.hub.bootst = 0x13) ∧
        (Config.sha256 key = Config.vendorDigest → Config.rsaVerify body sig key = true → Config.fusedMin ≤ sec →
          t.power = .running ∧ t.hub.bootst = 1 ∧ t.hub.fwDigest = Config.sha256 body ∧ t.hub.staging = [] ∧ t.hub.capbase = 0x100 ∧
            t.hub.caps = layCaps 0x100 (capsInOrder (capList (BitVec.ofNat 64 ver) (BitVec.ofNat 64 sec) s.ctr)) []))) ∧
  (∀ l : List Capability, (capsInOrder l).Perm l) ∧
  (∀ s : State,
    (s.power = .boot ∨ s.power = .running → exec .hubResetDeassert s = .next s) ∧
    (s.power = .off ∨ s.power = .inReset → ∃ t, exec .hubResetDeassert s = .next t ∧ t.power = .boot ∧ t.sidc = 0 ∧ t.mem = s.mem ∧
      t.dies = State.reset.dies ∧ t.hub = State.reset.hub) ∧
    (∃ t, exec .powerRemoval s = .next t ∧ t.power = .off ∧ t.dies = State.reset.dies ∧ t.hub = State.reset.hub ∧
      ∀ a, memGet t.mem a = 0) ∧
    (s.power = .off → exec .resetPinAssert s = .next s) ∧
    (s.power ≠ .off → ∃ t, exec .resetPinAssert s = .next t ∧ t.power = .inReset ∧ t.dies = State.reset.dies ∧
      t.hub = State.reset.hub ∧ t.mem = s.mem)) ∧
  (∀ (s : State) (req : List Byte) (i : Instr) (k : Nat),
    (i, k) ∈ [(.getVersion req, 1), (.getCapabilities req, max s.hub.spdm 2), (.negotiateAlgorithms req, max s.hub.spdm 3),
      (.getDigests req, max s.hub.spdm 4), (.getCertificate req, max s.hub.spdm 5), (.challenge req, max s.hub.spdm 6),
      (.getMeasurements req, max s.hub.spdm 7), (.spdmUnsupportedRequest req, s.hub.spdm)] →
    (s.power ≠ .running → exec i s = .next s) ∧
    (s.power = .running → ∃ t, exec i s = .next t ∧ t = { s with hub := { s.hub with spdm := k, doe := t.hub.doe } } ∧
      (i = .spdmUnsupportedRequest req → t.hub.doe = [0x12, 0x7F, 0x07, req.getD 1 0]) ∧
      (i = .negotiateAlgorithms req → t.hub.doe.take 2 = [0x12, 0x63] ∧
        (t.hub.doe.drop 12).take 8 = [req.getD 8 0 &&& 4, 0, 0, 0, req.getD 12 0 &&& 1, 0, 0, 0]) ∧
      (i ≠ .spdmUnsupportedRequest req → i ≠ .getMeasurements req → i ≠ .negotiateAlgorithms req → i ≠ .getVersion req →
        t.hub.doe = Config.spdmAnswer k req) ∧
      (i = .getVersion req → ∃ b, t.hub.doe = [0x10, 0x04, 0, 0, 0, 1, b, 0x12]) ∧
      (i = .getMeasurements req → ∀ (n : Byte) (v : List Byte), (n, v) ∈ s.measurements → req.getD 3 0 = n → ∃ b c tail,
        t.hub.doe = [0x12, 0x60, 0, b, 1] ++ leBytes (BitVec.ofNat 24 (v.length + 7)) 3 ++ [n, 1] ++
          leBytes (BitVec.ofNat 16 (v.length + 3)) 2 ++ [c] ++ leBytes (BitVec.ofNat 16 v.length) 2 ++ v ++ tail))) ∧
  (∀ s : State, s.measurements = [(1, digestBytes Config.romDigest), (2, digestBytes s.hub.fwDigest),
    (3, Config.spdmVersions s.hub.fwSecurity.toNat Config.fusedMin), (4, digestBytes Config.fuseDigest), (5, digestBytes s.capsDigest)])

-- ## Steps, decoding and reset

/-- A step takes the next task of the agenda (R13, R44, R45, R52, R62, R293, R294, R305). An event of the part runs as `exec` says. A word
that is due at the issue of its stream, with no bad parcel: where its fields decode, its section's assertions hold and its guard
reads 1, the step is `exec` of the decoded instruction and then the move to the next word; where the guard reads 0 it only moves on, a
LOOP past its end word; where a check or an assertion fails it raises that cause and moves on. A bad parcel raises IMEM_UNCORRECTABLE,
which no issue latch takes. A stream in a section with LBF = 1 and at most 64 words keeps each word that it fetches and fetches it again
from there (R55). A handler's word runs likewise, by sidereal cycles, among the words a handler may issue. With the agenda empty the next cycle begins,
which advances SIDC by one (R14), or there is none where power is off and nothing is to come.
Choices and readings of the model that clauses rest on: DESIGN CHOICE, log 2, DEDUCED, log 34, DEDUCED, log 35, DEDUCED, log 36, DEDUCED, log 41,
DEDUCED, log 84. -/
def Obligations.StepRunsTheWord : Prop :=
  (∀ (s : State) (i : Instr) (rest : List Task), s.agenda = .ev i :: rest → step s = exec i { s with agenda := rest }) ∧
  (∀ (s : State) (d : DieId) (p : Pos) (st : Strm) (rest : List Task) (q : Parcel) (a n : Nat) (x : Station) (c : Ctx) (w : W96)
    (k : W96 × Bool × List Nat) (f u : State), s.agenda = .issue d p st :: rest → x = (s.die d).sta p → c = x.ctxOf st →
    n = c.loops.length → c.next = .word q a → a ≤ (s.die d).dcyc → k = (s.die d).fetch p st q → w = k.1 →
    f = { s with agenda := rest, focus := { die := d, pos := p, strm := st, parcel := q } } →
    u = ((f.raiseBad k.2.2).lbKeep w).updCtx (fun c => { c with entering := false }) →
    (k.2.1 = true → ∃ e, step s = .next (f.updDie fun y => { y with causes := y.causes ++ [e] }) ∧ e.cause = .imemUncorrectable ∧
      e.rank = 1 ∧ e.pos = p ∧ e.strm = st ∧ e.parcel = q) ∧
    (k.2.1 = false →
      (∀ e, decodeWord st w = .error e → (handlerOnly (wordOpc w) = false ∨ e = .illegalOpc) → step s = .next ((u.trap e).moveOn n)) ∧
      (handlerOnly (wordOpc w) = true → step s = .next ((u.trap .wrongStream).moveOn n)) ∧
      (∀ i, decodeWord st w = .ok i → handlerOnly (wordOpc w) = false →
        (∀ k, c.entering = true → c.sect = some k → k.first = q.toNat → depsOk x k = false → step s = .next ((u.trap .sectionOrder).moveOn n)) ∧
        ((∀ k, c.entering = true → c.sect = some k → k.first = q.toNat → depsOk x k = true) →
          (c.pred (fld w 84 3) ≠ w.getLsbD 87 → step s = andThen (exec i u) (State.moveOn n)) ∧
          (c.pred (fld w 84 3) = w.getLsbD 87 →
            ((∀ rot cnt off, i ≠ .loop rot cnt off) → step s = .next (u.moveOn n)) ∧
            ∀ rot cnt off, i = .loop rot cnt off → step s = andThen (loopSkip off u) (State.moveOn n)))))) ∧
  (∀ (y : Die) (p : Pos) (st : Strm) (q : Parcel) (c : Ctx), c = (y.sta p).ctxOf st →
    (c.lbWord q = none → ∃ b, y.fetch p st q = ((y.sta p).wordAt q, b, []) ∧
      (b = true ↔ ∃ k < 6, BadPlace.plane p ((q.toNat + k) % 2 ^ 16) ∈ y.bad)) ∧
    (∀ n v, c.lbWord q = some (n, v) → (∀ k < 3, BadPlace.lbuf p st (3 * n + k) ∉ y.bad) → y.fetch p st q = (v, false, [])) ∧
    (∀ n v, c.lbWord q = some (n, v) ↔ c.lbPlace q = some n ∧ kget none n c.lbuf = some v) ∧
    (∀ n, c.lbPlace q = some n ↔ ∃ k, c.sect = some k ∧ k.lbf = true ∧ k.len.toNat ≤ 64 ∧ k.has q.toNat = true ∧
      n = (q.toNat - k.first) / 6)) ∧
  (∀ (s : State) (w : W96), s.raiseBad [] = s ∧ (s.curCtx.lbPlace s.focus.parcel = none → s.lbKeep w = s) ∧
    (∀ v, s.curCtx.lbWord s.focus.parcel = some v → s.lbKeep w = s) ∧
    ∀ n, s.curCtx.lbPlace s.focus.parcel = some n → s.curCtx.lbWord s.focus.parcel = none → s.curDie.bad = [] →
      s.lbKeep w = s.updCtx (fun c => { c with lbuf := kput none n (some w) c.lbuf })) ∧
  (∀ (s : State) (d : DieId) (rest : List Task) (q : Parcel) (a n : Nat) (x : Station) (c : Ctx) (w : W96) (u : State) (i : Instr),
    s.agenda = .hissue d :: rest → (s.die d).cond = .handler → (s.die d).stow = none → (∀ v ∈ (s.die d).hwrites, v.land ≠ s.sidc) →
    (s.die d).bad = [] → x = (s.die d).sta (s.die d).hpos → c = x.ctxOf .c → n = c.loops.length → c.next = .word q a → a ≤ s.sidc →
    c.entering = false → c.lbPlace q = none → w = x.wordAt q →
    u = { s with agenda := rest, focus := { die := d, pos := (s.die d).hpos, strm := .c, parcel := q, handler := true } } →
    decodeWord .c w = .ok i → c.pred (fld w 84 3) ≠ w.getLsbD 87 →
    (handlerMay (wordOpc w) = true → step s = andThen (exec i u) (State.moveOn n)) ∧
    (handlerMay (wordOpc w) = false → step s = .next ((u.trap .wrongStream).moveOn n))) ∧
  (∀ s : State, s.agenda = [] →
    (s.power = .running → ∃ t, step s = .next t ∧ t.sidc = s.sidc + 1 ∧ t.now = s.now + 1 ∧
      t = { s.takeCfg (s.now + 1) with now := s.now + 1, sidc := s.sidc + 1, inbox := t.inbox, agenda := t.agenda }) ∧
    (s.cfg = [] → ∀ n, s.takeCfg n = s) ∧
    (s.power = .boot → ∃ t, step s = .next t ∧ t.sidc = s.sidc + 1) ∧
    (s.power = .inReset → ∃ t, step s = .next t ∧ t.sidc = s.sidc ∧ t.now = s.now + 1) ∧
    (s.power = .off → s.inbox = [] → step s = .fault .powerOff) ∧
    (s.power = .off → s.inbox ≠ [] → ∃ t, step s = .next t ∧ t.now = s.now + 1))

/-- Words that the spec writes out decode to the instructions they stand for (R43, R46 to R49, R56 to R61, and the worked encodings of
spec files 02, 03, 06, 11, 12, 17 and 20). -/
def Obligations.DecodeWords : Prop :=
  decodeWord .x 0x040B30000401020300000000 = .ok (.vfma .rne 0 4 1 (.r 2) 3) ∧
  decodeWord .x 0x050B20600504030000000000 = .ok (.vmul .f32 .rup false 0 5 4 (.r 3)) ∧
  decodeWord .c 0x000060000000000064000003 = .ok (.loop false (.cnt 100) 3) ∧
  decodeWord .c 0x000020004900000000FFFFFD = .ok (.pbr 1 (.off (-3))) ∧
  decodeWord .l 0x0007C0005205000033C00040 = .ok (.fqpush 2 (.reg 5) 3 15 0x40) ∧
  decodeWord .c 0x0003C5000505000000000000 = .ok (.fcvt .e5m2 .f32 .rne false 5 (.reg 5)) ∧
  decodeWord .c 0x000338014103000000000000 = .ok (.cmp .ne 1 (.reg 3) (.i 0)) ∧
  decodeWord .l 0x000338014103000000000000 = .error .wrongStream ∧
  decodeWord .c 0x0005E0070005000000000013 = .ok (.turn true true (some (.reg 5)) 1 3) ∧
  decodeWord .s 0x0009300C5104050600000000 = .ok (.amo .cas 1 (.reg 4) (.reg 5) (.reg 6)) ∧
  decodeWord .x 0x000DB5810502000000000000 = .ok (.cavd .lse 1 5 2 0) ∧
  decodeWord .x 0x040CB0040D0C000000000000 = .ok (.vredr .max .f32 .rne 0 13 12)

/-- Decoding an encoded well-formed word gives it back, in every stream that can hold it, with every delay and every guard but the reserved
one: every operand, modifier and field at every value the encoding allows (R43, R46 to R49, R56 to R62). -/
def Obligations.EncodeDecode : Prop :=
  ∀ (i : Instr) (st : Strm) (dly : Byte) (grd : BitVec 4), i.wf st = true → grd ≠ 8 →
    decodeWord st (encodeWith dly grd i) = .ok i ∧ wordDly (encodeWith dly grd i) = dly ∧ wordGrd (encodeWith dly grd i) = grd

/-- What reset leaves (R14, R20, R85, R212, R267, R270, R278, R308, R311, R315, R316): SIDC at zero, boot state, every register of BAR0 at
the value its table gives, and 0 where that is 0, the MSI-X vectors masked (PRESUMED, log 27), every die idle with HOLDMAX at its reset value, and both memories in their canonical form.
Choices and readings of the model that clauses rest on: DESIGN CHOICE, log 4, DESIGN CHOICE, log 5, DESIGN CHOICE, log 6, DESIGN CHOICE, log 7, PRESUMED, log 27. -/
def Obligations.ResetState : Prop :=
  State.reset.sidc = 0 ∧ State.reset.power = .boot ∧ State.reset.agenda = [] ∧ State.reset.memoriesCanonical ∧
  State.reset.hub.didtlim = 0x02580064 ∧ State.reset.hub.lanelim = 0x010001000020 ∧ State.reset.hub.qage = 0x10000 ∧
  State.reset.hub.hevlsz = 8 ∧ State.reset.hub.heven = false ∧ State.reset.hub.telctl = 6 ∧ State.reset.hub.templim = 0x550 ∧
  State.reset.hub.trcctl = 0xA ∧ State.reset.hub.bootst = 0 ∧ State.reset.hub.teams = [] ∧
  (∀ q, (State.reset.queue q).en = false ∧ (State.reset.queue q).prio = 3 ∧ (State.reset.queue q).lsz = 4 ∧
    (State.reset.queue q).head = 0 ∧ (State.reset.queue q).tail = 0) ∧
  (∀ o, State.reset.bar0 o = if o = 0x10008 then 8 else if 0x20000 ≤ o ∧ o < 0x28000 ∧ o % 16 = 8 then 0x100000000
    else if 0x400000 ≤ o ∧ o < 0x400800 ∧ o % 0x40 = 8 then 0x30004 else if 0x400000 ≤ o ∧ o < 0x400800 ∧ o % 0x40 = 0x20 then 0x300
    else if o = 0x400800 then 0x10000 else if o = 0x800000 then 0x02580064 else if o = 0x800100 then 0x010001000020
    else if o = 0x800200 then 6 else if o = 0x800210 then 0x550 else if o = 0x900100 then 0xA else 0) ∧
  State.reset.hub.msixOn = false ∧ State.reset.hub.msixMask = false ∧
  ∀ d, (State.reset.die d).cond = .idle ∧ (State.reset.die d).dcyc = 0 ∧ (State.reset.die d).holdmax = 0x10000 ∧
    (State.reset.die d).holdcnt = 0 ∧ (State.reset.die d).window = {} ∧ (State.reset.die d).fimg = .mx8 ∧ (State.reset.die d).gnan = .gprop

/-- Every step keeps far memory and host memory in their canonical form, so that equal memories are equal data: an invariant of the model, of
every state, not of runs from reset alone.
Choices and readings of the model that clauses rest on: DESIGN CHOICE, log 6, DESIGN CHOICE, log 7. -/
def Obligations.StepKeepsMemoryCanonical : Prop :=
  ∀ s t : State, s.memoriesCanonical → step s = .next t → t.memoriesCanonical
end

