-- ==== Sys2Proof/Laws/Memory.lean ====
section
/-! SUPPORT. Sparse maps and memory: a read after a write, and that every memory operation keeps the canonical form. -/

namespace Sys2Proof

/-- A key that has been deleted reads the default; every other key reads as before. -/
theorem kget_kdel {α : Type} (d : α) (k j : Nat) : ∀ m : KMap α, kget d j (kdel k m) = if j = k then d else kget d j m
  | [] => by simp [kdel, kget]
  | (i, w) :: t => by
    have ih := kget_kdel d k j t
    simp only [kdel] at ih
    by_cases hi : i = k
    · subst hi
      simp only [kdel, List.filter_cons, bne_self_eq_false, Bool.false_eq_true, if_false, ih, kget]
      by_cases hj : j = i
      · simp [hj]
      · simp [hj, Ne.symm hj]
    · simp only [kdel, List.filter_cons, bne_iff_ne, ne_eq, hi, not_false_iff, if_true, kget, ih]
      by_cases hj : j = k
      · simp [hj, hi]
      · simp [hj]

/-- Reading a map after an entry is put. -/
theorem kget_kput {α : Type} [DecidableEq α] (d v : α) (k j : Nat) :
    ∀ m : KMap α, kget d j (kput d k v m) = if j = k then v else kget d j m
  | [] => by
    unfold kput
    by_cases hj : j = k
    · subst hj; split <;> simp_all [kget]
    · split <;> simp [kget, Ne.symm hj]
  | (i, w) :: t => by
    have ih := kget_kput d v k j t
    unfold kput
    split
    · rename_i hik
      simp only [kget, ih]
      by_cases hj : j = k
      · subst hj
        have : i ≠ j := by omega
        simp [this]
      · simp [hj]
    · split
      · rename_i hv; subst hv; exact kget_kdel ..
      · split
        · rename_i hik; subst hik
          by_cases hj : j = i
          · simp [kget, hj]
          · simp [kget, hj, Ne.symm hj]
        · by_cases hj : j = k
          · simp [kget, hj]
          · simp [kget, hj, Ne.symm hj]

/-- A map is canonical if its head is not the default, its tail is canonical and its tail's keys are greater. -/
theorem kwf_cons {α : Type} [DecidableEq α] (d v : α) (k : Nat) (t : KMap α) :
    kwf d ((k, v) :: t) = true ↔ v ≠ d ∧ kwf d t = true ∧ ∀ e ∈ t.head?, k < e.1 := by
  cases t with
  | nil => simp [kwf]
  | cons b t =>
    simp only [kwf, Bool.and_eq_true, decide_eq_true_eq, List.head?_cons, Option.mem_def, Option.some.injEq, forall_eq']
    tauto

/-- A map is canonical if its keys rise strictly and no entry is the default. -/
theorem kwf_iff {α : Type} [DecidableEq α] (d : α) : ∀ m : KMap α,
    kwf d m = true ↔ m.Pairwise (fun a b => a.1 < b.1) ∧ ∀ e ∈ m, e.2 ≠ d
  | [] => by simp [kwf]
  | (k, v) :: t => by
    rw [kwf_cons, kwf_iff d t, List.pairwise_cons]
    constructor
    · rintro ⟨hv, ⟨hp, ht⟩, hlt⟩
      refine ⟨⟨?_, hp⟩, ?_⟩
      · cases t with
        | nil => simp
        | cons b t =>
          have hb := hlt b rfl
          intro e he
          rcases List.mem_cons.1 he with rfl | he
          · exact hb
          · exact Nat.lt_trans hb ((List.pairwise_cons.1 hp).1 e he)
      · intro e he
        rcases List.mem_cons.1 he with rfl | he
        · exact hv
        · exact ht e he
    · rintro ⟨⟨hlt, hp⟩, ht⟩
      exact ⟨ht _ (List.mem_cons_self ..), ⟨hp, fun e he => ht e (List.mem_cons_of_mem _ he)⟩,
        fun e he => hlt e (List.mem_of_mem_head? he)⟩

theorem kdel_kwf {α : Type} [DecidableEq α] (d : α) (k : Nat) (m : KMap α) (h : kwf d m = true) : kwf d (kdel k m) = true := by
  rw [kwf_iff] at *
  exact ⟨h.1.sublist List.filter_sublist, fun e he => h.2 e (List.mem_of_mem_filter he)⟩

/-- Putting an entry adds no key but its own. -/
theorem mem_kput {α : Type} [DecidableEq α] (d v : α) (k : Nat) :
    ∀ (m : KMap α) (e : Nat × α), e ∈ kput d k v m → e = (k, v) ∨ e ∈ m
  | [], e, h => by unfold kput at h; split at h <;> simp_all
  | (i, w) :: t, e, h => by
    unfold kput at h
    split at h
    · rcases List.mem_cons.1 h with rfl | h
      · simp
      · rcases mem_kput d v k t e h with h | h <;> simp [h]
    · split at h
      · exact .inr (List.mem_of_mem_filter h)
      · split at h
        · rcases List.mem_cons.1 h with rfl | h <;> simp_all
        · rcases List.mem_cons.1 h with rfl | h <;> simp_all

/-- Putting an entry keeps a map canonical. -/
theorem kput_kwf {α : Type} [DecidableEq α] (d v : α) (k : Nat) :
    ∀ m : KMap α, kwf d m = true → kwf d (kput d k v m) = true
  | [], _ => by unfold kput; split <;> simp_all [kwf]
  | (i, w) :: t, h => by
    have hi := (kwf_iff d _).1 h
    obtain ⟨hw, ht, hlt⟩ := (kwf_cons d w i t).1 h
    unfold kput
    split
    · rename_i hik
      have hr := (kwf_iff d _).1 (kput_kwf d v k t ht)
      refine (kwf_iff d _).2 ⟨List.pairwise_cons.2 ⟨fun e he => ?_, hr.1⟩, fun e he => ?_⟩
      · rcases mem_kput d v k t e he with rfl | he
        · exact hik
        · exact (List.pairwise_cons.1 hi.1).1 e he
      · rcases List.mem_cons.1 he with rfl | he
        · exact hw
        · exact hr.2 e he
    · split
      · exact kdel_kwf d k _ h
      · rename_i hv
        split
        · rename_i hik
          subst hik
          exact (kwf_cons ..).2 ⟨hv, ht, hlt⟩
        · refine (kwf_cons ..).2 ⟨hv, h, ?_⟩
          intro e he
          cases he
          simp only
          omega

end Sys2Proof

namespace Sys2Proof.Machine

/-- A byte written is read back, and every other byte reads as before. -/
theorem memGet_memPut (m : List Host.Cell) (a j : Nat) (b : Byte) :
    memGet (memPut m a b) j = if j = a then b else memGet m j := kget_kput 0 b a j m

theorem memPut_wf {m : List Host.Cell} (h : Memory.wf m) (a : Nat) (b : Byte) : Memory.wf (memPut m a b) := kput_kwf 0 b a m h

theorem memWrite_wf {m : List Host.Cell} (h : Memory.wf m) : ∀ (l : List Byte) (a : Nat), Memory.wf (memWrite m a l)
  | [], _ => h
  | b :: t, a => memPut_wf (memWrite_wf h t (a + 1)) a b

/-- Reading a byte after some bytes are written. -/
theorem memGet_memWrite (m : List Host.Cell) (j : Nat) :
    ∀ (l : List Byte) (a : Nat), memGet (memWrite m a l) j = if a ≤ j ∧ j < a + l.length then l.getD (j - a) 0 else memGet m j
  | [], a => by
    simp [memWrite]
  | b :: t, a => by
    simp only [memWrite]
    rw [memGet_memPut, memGet_memWrite m j t (a + 1)]
    by_cases hj : j = a
    · subst hj; simp
    · simp only [hj, if_false, List.length_cons]
      by_cases hr : a ≤ j ∧ j < a + (t.length + 1)
      · have h1 : a + 1 ≤ j ∧ j < a + 1 + t.length := by omega
        obtain ⟨n, hn⟩ : ∃ n, j - a = n + 1 := ⟨j - a - 1, by omega⟩
        have h2 : j - (a + 1) = n := by omega
        simp [hr, h1, hn, h2]
      · have h1 : ¬(a + 1 ≤ j ∧ j < a + 1 + t.length) := by omega
        rw [if_neg h1, if_neg hr]

/-- Bytes written leave every byte outside them alone. -/
theorem memGet_memWrite_other (m : List Host.Cell) (j a : Nat) (l : List Byte) (hj : j < a ∨ a + l.length ≤ j) :
    memGet (memWrite m a l) j = memGet m j := by
  rw [memGet_memWrite, if_neg (by omega)]

end Sys2Proof.Machine
end

