-- ==== Sys2Proof/Laws/State.lean ====
section
/-! SUPPORT. What each field of the state, a die and a station reads after each of their updates. -/

namespace Sys2Proof.Machine

-- ## The module's fields

@[simp] theorem setDie_now (s : State) (d : DieId) (x : Die) : (s.setDie d x).now = s.now := rfl
@[simp] theorem setDie_sidc (s : State) (d : DieId) (x : Die) : (s.setDie d x).sidc = s.sidc := rfl
@[simp] theorem setDie_power (s : State) (d : DieId) (x : Die) : (s.setDie d x).power = s.power := rfl
@[simp] theorem setDie_agenda (s : State) (d : DieId) (x : Die) : (s.setDie d x).agenda = s.agenda := rfl
@[simp] theorem setDie_focus (s : State) (d : DieId) (x : Die) : (s.setDie d x).focus = s.focus := rfl
@[simp] theorem setDie_inbox (s : State) (d : DieId) (x : Die) : (s.setDie d x).inbox = s.inbox := rfl
@[simp] theorem setDie_cfg (s : State) (d : DieId) (x : Die) : (s.setDie d x).cfg = s.cfg := rfl
@[simp] theorem setDie_far (s : State) (d : DieId) (x : Die) : (s.setDie d x).far = s.far := rfl
@[simp] theorem setDie_links (s : State) (d : DieId) (x : Die) : (s.setDie d x).links = s.links := rfl
@[simp] theorem setDie_cavd (s : State) (d : DieId) (x : Die) : (s.setDie d x).cavd = s.cavd := rfl
@[simp] theorem setDie_mem (s : State) (d : DieId) (x : Die) : (s.setDie d x).mem = s.mem := rfl
@[simp] theorem setDie_hostMem (s : State) (d : DieId) (x : Die) : (s.setDie d x).hostMem = s.hostMem := rfl
@[simp] theorem setDie_hub (s : State) (d : DieId) (x : Die) : (s.setDie d x).hub = s.hub := rfl
@[simp] theorem setDie_snaps (s : State) (d : DieId) (x : Die) : (s.setDie d x).snaps = s.snaps := rfl
@[simp] theorem setDie_olds (s : State) (d : DieId) (x : Die) : (s.setDie d x).olds = s.olds := rfl
@[simp] theorem setDie_ctr (s : State) (d : DieId) (x : Die) : (s.setDie d x).ctr = s.ctr := rfl

@[simp] theorem setFs_now (s : State) (d : DieId) (x : FarSide) : (s.setFs d x).now = s.now := rfl
@[simp] theorem setFs_sidc (s : State) (d : DieId) (x : FarSide) : (s.setFs d x).sidc = s.sidc := rfl
@[simp] theorem setFs_power (s : State) (d : DieId) (x : FarSide) : (s.setFs d x).power = s.power := rfl
@[simp] theorem setFs_agenda (s : State) (d : DieId) (x : FarSide) : (s.setFs d x).agenda = s.agenda := rfl
@[simp] theorem setFs_focus (s : State) (d : DieId) (x : FarSide) : (s.setFs d x).focus = s.focus := rfl
@[simp] theorem setFs_inbox (s : State) (d : DieId) (x : FarSide) : (s.setFs d x).inbox = s.inbox := rfl
@[simp] theorem setFs_cfg (s : State) (d : DieId) (x : FarSide) : (s.setFs d x).cfg = s.cfg := rfl
@[simp] theorem setFs_dies (s : State) (d : DieId) (x : FarSide) : (s.setFs d x).dies = s.dies := rfl
@[simp] theorem setFs_links (s : State) (d : DieId) (x : FarSide) : (s.setFs d x).links = s.links := rfl
@[simp] theorem setFs_cavd (s : State) (d : DieId) (x : FarSide) : (s.setFs d x).cavd = s.cavd := rfl
@[simp] theorem setFs_mem (s : State) (d : DieId) (x : FarSide) : (s.setFs d x).mem = s.mem := rfl
@[simp] theorem setFs_hostMem (s : State) (d : DieId) (x : FarSide) : (s.setFs d x).hostMem = s.hostMem := rfl
@[simp] theorem setFs_hub (s : State) (d : DieId) (x : FarSide) : (s.setFs d x).hub = s.hub := rfl
@[simp] theorem setFs_snaps (s : State) (d : DieId) (x : FarSide) : (s.setFs d x).snaps = s.snaps := rfl
@[simp] theorem setFs_olds (s : State) (d : DieId) (x : FarSide) : (s.setFs d x).olds = s.olds := rfl
@[simp] theorem setFs_ctr (s : State) (d : DieId) (x : FarSide) : (s.setFs d x).ctr = s.ctr := rfl

@[simp] theorem setLink_now (s : State) (k : Nat) (l : Link) : (s.setLink k l).now = s.now := rfl
@[simp] theorem setLink_sidc (s : State) (k : Nat) (l : Link) : (s.setLink k l).sidc = s.sidc := rfl
@[simp] theorem setLink_power (s : State) (k : Nat) (l : Link) : (s.setLink k l).power = s.power := rfl
@[simp] theorem setLink_agenda (s : State) (k : Nat) (l : Link) : (s.setLink k l).agenda = s.agenda := rfl
@[simp] theorem setLink_focus (s : State) (k : Nat) (l : Link) : (s.setLink k l).focus = s.focus := rfl
@[simp] theorem setLink_inbox (s : State) (k : Nat) (l : Link) : (s.setLink k l).inbox = s.inbox := rfl
@[simp] theorem setLink_cfg (s : State) (k : Nat) (l : Link) : (s.setLink k l).cfg = s.cfg := rfl
@[simp] theorem setLink_dies (s : State) (k : Nat) (l : Link) : (s.setLink k l).dies = s.dies := rfl
@[simp] theorem setLink_far (s : State) (k : Nat) (l : Link) : (s.setLink k l).far = s.far := rfl
@[simp] theorem setLink_cavd (s : State) (k : Nat) (l : Link) : (s.setLink k l).cavd = s.cavd := rfl
@[simp] theorem setLink_mem (s : State) (k : Nat) (l : Link) : (s.setLink k l).mem = s.mem := rfl
@[simp] theorem setLink_hostMem (s : State) (k : Nat) (l : Link) : (s.setLink k l).hostMem = s.hostMem := rfl
@[simp] theorem setLink_hub (s : State) (k : Nat) (l : Link) : (s.setLink k l).hub = s.hub := rfl
@[simp] theorem setLink_snaps (s : State) (k : Nat) (l : Link) : (s.setLink k l).snaps = s.snaps := rfl
@[simp] theorem setLink_olds (s : State) (k : Nat) (l : Link) : (s.setLink k l).olds = s.olds := rfl
@[simp] theorem setLink_ctr (s : State) (k : Nat) (l : Link) : (s.setLink k l).ctr = s.ctr := rfl

@[simp] theorem updDie_now (s : State) (f : Die → Die) : (s.updDie f).now = s.now := rfl
@[simp] theorem updDie_sidc (s : State) (f : Die → Die) : (s.updDie f).sidc = s.sidc := rfl
@[simp] theorem updDie_power (s : State) (f : Die → Die) : (s.updDie f).power = s.power := rfl
@[simp] theorem updDie_agenda (s : State) (f : Die → Die) : (s.updDie f).agenda = s.agenda := rfl
@[simp] theorem updDie_focus (s : State) (f : Die → Die) : (s.updDie f).focus = s.focus := rfl
@[simp] theorem updDie_inbox (s : State) (f : Die → Die) : (s.updDie f).inbox = s.inbox := rfl
@[simp] theorem updDie_cfg (s : State) (f : Die → Die) : (s.updDie f).cfg = s.cfg := rfl
@[simp] theorem updDie_far (s : State) (f : Die → Die) : (s.updDie f).far = s.far := rfl
@[simp] theorem updDie_links (s : State) (f : Die → Die) : (s.updDie f).links = s.links := rfl
@[simp] theorem updDie_cavd (s : State) (f : Die → Die) : (s.updDie f).cavd = s.cavd := rfl
@[simp] theorem updDie_mem (s : State) (f : Die → Die) : (s.updDie f).mem = s.mem := rfl
@[simp] theorem updDie_hostMem (s : State) (f : Die → Die) : (s.updDie f).hostMem = s.hostMem := rfl
@[simp] theorem updDie_hub (s : State) (f : Die → Die) : (s.updDie f).hub = s.hub := rfl
@[simp] theorem updDie_snaps (s : State) (f : Die → Die) : (s.updDie f).snaps = s.snaps := rfl
@[simp] theorem updDie_olds (s : State) (f : Die → Die) : (s.updDie f).olds = s.olds := rfl
@[simp] theorem updDie_ctr (s : State) (f : Die → Die) : (s.updDie f).ctr = s.ctr := rfl

@[simp] theorem updSta_now (s : State) (f : Station → Station) : (s.updSta f).now = s.now := rfl
@[simp] theorem updSta_sidc (s : State) (f : Station → Station) : (s.updSta f).sidc = s.sidc := rfl
@[simp] theorem updSta_power (s : State) (f : Station → Station) : (s.updSta f).power = s.power := rfl
@[simp] theorem updSta_agenda (s : State) (f : Station → Station) : (s.updSta f).agenda = s.agenda := rfl
@[simp] theorem updSta_focus (s : State) (f : Station → Station) : (s.updSta f).focus = s.focus := rfl
@[simp] theorem updSta_inbox (s : State) (f : Station → Station) : (s.updSta f).inbox = s.inbox := rfl
@[simp] theorem updSta_cfg (s : State) (f : Station → Station) : (s.updSta f).cfg = s.cfg := rfl
@[simp] theorem updSta_far (s : State) (f : Station → Station) : (s.updSta f).far = s.far := rfl
@[simp] theorem updSta_links (s : State) (f : Station → Station) : (s.updSta f).links = s.links := rfl
@[simp] theorem updSta_cavd (s : State) (f : Station → Station) : (s.updSta f).cavd = s.cavd := rfl
@[simp] theorem updSta_mem (s : State) (f : Station → Station) : (s.updSta f).mem = s.mem := rfl
@[simp] theorem updSta_hostMem (s : State) (f : Station → Station) : (s.updSta f).hostMem = s.hostMem := rfl
@[simp] theorem updSta_hub (s : State) (f : Station → Station) : (s.updSta f).hub = s.hub := rfl
@[simp] theorem updSta_snaps (s : State) (f : Station → Station) : (s.updSta f).snaps = s.snaps := rfl
@[simp] theorem updSta_olds (s : State) (f : Station → Station) : (s.updSta f).olds = s.olds := rfl
@[simp] theorem updSta_ctr (s : State) (f : Station → Station) : (s.updSta f).ctr = s.ctr := rfl

@[simp] theorem updCtx_now (s : State) (f : Ctx → Ctx) : (s.updCtx f).now = s.now := rfl
@[simp] theorem updCtx_sidc (s : State) (f : Ctx → Ctx) : (s.updCtx f).sidc = s.sidc := rfl
@[simp] theorem updCtx_power (s : State) (f : Ctx → Ctx) : (s.updCtx f).power = s.power := rfl
@[simp] theorem updCtx_agenda (s : State) (f : Ctx → Ctx) : (s.updCtx f).agenda = s.agenda := rfl
@[simp] theorem updCtx_focus (s : State) (f : Ctx → Ctx) : (s.updCtx f).focus = s.focus := rfl
@[simp] theorem updCtx_inbox (s : State) (f : Ctx → Ctx) : (s.updCtx f).inbox = s.inbox := rfl
@[simp] theorem updCtx_cfg (s : State) (f : Ctx → Ctx) : (s.updCtx f).cfg = s.cfg := rfl
@[simp] theorem updCtx_far (s : State) (f : Ctx → Ctx) : (s.updCtx f).far = s.far := rfl
@[simp] theorem updCtx_links (s : State) (f : Ctx → Ctx) : (s.updCtx f).links = s.links := rfl
@[simp] theorem updCtx_cavd (s : State) (f : Ctx → Ctx) : (s.updCtx f).cavd = s.cavd := rfl
@[simp] theorem updCtx_mem (s : State) (f : Ctx → Ctx) : (s.updCtx f).mem = s.mem := rfl
@[simp] theorem updCtx_hostMem (s : State) (f : Ctx → Ctx) : (s.updCtx f).hostMem = s.hostMem := rfl
@[simp] theorem updCtx_hub (s : State) (f : Ctx → Ctx) : (s.updCtx f).hub = s.hub := rfl
@[simp] theorem updCtx_snaps (s : State) (f : Ctx → Ctx) : (s.updCtx f).snaps = s.snaps := rfl
@[simp] theorem updCtx_olds (s : State) (f : Ctx → Ctx) : (s.updCtx f).olds = s.olds := rfl
@[simp] theorem updCtx_ctr (s : State) (f : Ctx → Ctx) : (s.updCtx f).ctr = s.ctr := rfl

@[simp] theorem bump_now (s : State) : s.bump.now = s.now := rfl
@[simp] theorem bump_sidc (s : State) : s.bump.sidc = s.sidc := rfl
@[simp] theorem bump_power (s : State) : s.bump.power = s.power := rfl
@[simp] theorem bump_agenda (s : State) : s.bump.agenda = s.agenda := rfl
@[simp] theorem bump_focus (s : State) : s.bump.focus = s.focus := rfl
@[simp] theorem bump_inbox (s : State) : s.bump.inbox = s.inbox := rfl
@[simp] theorem bump_cfg (s : State) : s.bump.cfg = s.cfg := rfl
@[simp] theorem bump_dies (s : State) : s.bump.dies = s.dies := rfl
@[simp] theorem bump_far (s : State) : s.bump.far = s.far := rfl
@[simp] theorem bump_links (s : State) : s.bump.links = s.links := rfl
@[simp] theorem bump_cavd (s : State) : s.bump.cavd = s.cavd := rfl
@[simp] theorem bump_mem (s : State) : s.bump.mem = s.mem := rfl
@[simp] theorem bump_hostMem (s : State) : s.bump.hostMem = s.hostMem := rfl
@[simp] theorem bump_hub (s : State) : s.bump.hub = s.hub := rfl
@[simp] theorem bump_snaps (s : State) : s.bump.snaps = s.snaps := rfl
@[simp] theorem bump_olds (s : State) : s.bump.olds = s.olds := rfl

@[simp] theorem later_now (s : State) (e : Eoc) : (s.later e).now = s.now := rfl
@[simp] theorem later_sidc (s : State) (e : Eoc) : (s.later e).sidc = s.sidc := rfl
@[simp] theorem later_power (s : State) (e : Eoc) : (s.later e).power = s.power := rfl
@[simp] theorem later_agenda (s : State) (e : Eoc) : (s.later e).agenda = s.agenda := rfl
@[simp] theorem later_focus (s : State) (e : Eoc) : (s.later e).focus = s.focus := rfl
@[simp] theorem later_inbox (s : State) (e : Eoc) : (s.later e).inbox = s.inbox := rfl
@[simp] theorem later_cfg (s : State) (e : Eoc) : (s.later e).cfg = s.cfg := rfl
@[simp] theorem later_far (s : State) (e : Eoc) : (s.later e).far = s.far := rfl
@[simp] theorem later_links (s : State) (e : Eoc) : (s.later e).links = s.links := rfl
@[simp] theorem later_cavd (s : State) (e : Eoc) : (s.later e).cavd = s.cavd := rfl
@[simp] theorem later_mem (s : State) (e : Eoc) : (s.later e).mem = s.mem := rfl
@[simp] theorem later_hostMem (s : State) (e : Eoc) : (s.later e).hostMem = s.hostMem := rfl
@[simp] theorem later_hub (s : State) (e : Eoc) : (s.later e).hub = s.hub := rfl
@[simp] theorem later_snaps (s : State) (e : Eoc) : (s.later e).snaps = s.snaps := rfl
@[simp] theorem later_olds (s : State) (e : Eoc) : (s.later e).olds = s.olds := rfl
@[simp] theorem later_ctr (s : State) (e : Eoc) : (s.later e).ctr = s.ctr := rfl

@[simp] theorem trapSub_now (s : State) (c : Cause) (b : Byte) : (s.trapSub c b).now = s.now := rfl
@[simp] theorem trapSub_sidc (s : State) (c : Cause) (b : Byte) : (s.trapSub c b).sidc = s.sidc := rfl
@[simp] theorem trapSub_power (s : State) (c : Cause) (b : Byte) : (s.trapSub c b).power = s.power := rfl
@[simp] theorem trapSub_agenda (s : State) (c : Cause) (b : Byte) : (s.trapSub c b).agenda = s.agenda := rfl
@[simp] theorem trapSub_focus (s : State) (c : Cause) (b : Byte) : (s.trapSub c b).focus = s.focus := rfl
@[simp] theorem trapSub_inbox (s : State) (c : Cause) (b : Byte) : (s.trapSub c b).inbox = s.inbox := rfl
@[simp] theorem trapSub_cfg (s : State) (c : Cause) (b : Byte) : (s.trapSub c b).cfg = s.cfg := rfl
@[simp] theorem trapSub_far (s : State) (c : Cause) (b : Byte) : (s.trapSub c b).far = s.far := rfl
@[simp] theorem trapSub_links (s : State) (c : Cause) (b : Byte) : (s.trapSub c b).links = s.links := rfl
@[simp] theorem trapSub_cavd (s : State) (c : Cause) (b : Byte) : (s.trapSub c b).cavd = s.cavd := rfl
@[simp] theorem trapSub_mem (s : State) (c : Cause) (b : Byte) : (s.trapSub c b).mem = s.mem := rfl
@[simp] theorem trapSub_hostMem (s : State) (c : Cause) (b : Byte) : (s.trapSub c b).hostMem = s.hostMem := rfl
@[simp] theorem trapSub_hub (s : State) (c : Cause) (b : Byte) : (s.trapSub c b).hub = s.hub := rfl
@[simp] theorem trapSub_snaps (s : State) (c : Cause) (b : Byte) : (s.trapSub c b).snaps = s.snaps := rfl
@[simp] theorem trapSub_olds (s : State) (c : Cause) (b : Byte) : (s.trapSub c b).olds = s.olds := rfl
@[simp] theorem trapSub_ctr (s : State) (c : Cause) (b : Byte) : (s.trapSub c b).ctr = s.ctr := rfl

@[simp] theorem hostWrite_now (s : State) (a : Nat) (l : List Byte) : (s.hostWrite a l).now = s.now := rfl
@[simp] theorem hostWrite_sidc (s : State) (a : Nat) (l : List Byte) : (s.hostWrite a l).sidc = s.sidc := rfl
@[simp] theorem hostWrite_power (s : State) (a : Nat) (l : List Byte) : (s.hostWrite a l).power = s.power := rfl
@[simp] theorem hostWrite_agenda (s : State) (a : Nat) (l : List Byte) : (s.hostWrite a l).agenda = s.agenda := rfl
@[simp] theorem hostWrite_focus (s : State) (a : Nat) (l : List Byte) : (s.hostWrite a l).focus = s.focus := rfl
@[simp] theorem hostWrite_inbox (s : State) (a : Nat) (l : List Byte) : (s.hostWrite a l).inbox = s.inbox := rfl
@[simp] theorem hostWrite_cfg (s : State) (a : Nat) (l : List Byte) : (s.hostWrite a l).cfg = s.cfg := rfl
@[simp] theorem hostWrite_dies (s : State) (a : Nat) (l : List Byte) : (s.hostWrite a l).dies = s.dies := rfl
@[simp] theorem hostWrite_far (s : State) (a : Nat) (l : List Byte) : (s.hostWrite a l).far = s.far := rfl
@[simp] theorem hostWrite_links (s : State) (a : Nat) (l : List Byte) : (s.hostWrite a l).links = s.links := rfl
@[simp] theorem hostWrite_cavd (s : State) (a : Nat) (l : List Byte) : (s.hostWrite a l).cavd = s.cavd := rfl
@[simp] theorem hostWrite_mem (s : State) (a : Nat) (l : List Byte) : (s.hostWrite a l).mem = s.mem := rfl
@[simp] theorem hostWrite_hub (s : State) (a : Nat) (l : List Byte) : (s.hostWrite a l).hub = s.hub := rfl
@[simp] theorem hostWrite_snaps (s : State) (a : Nat) (l : List Byte) : (s.hostWrite a l).snaps = s.snaps := rfl
@[simp] theorem hostWrite_olds (s : State) (a : Nat) (l : List Byte) : (s.hostWrite a l).olds = s.olds := rfl
@[simp] theorem hostWrite_ctr (s : State) (a : Nat) (l : List Byte) : (s.hostWrite a l).ctr = s.ctr := rfl

-- ## The fields of a die and of a station

@[simp] theorem setSta_cond (d : Die) (p : Pos) (x : Station) : (d.setSta p x).cond = d.cond := rfl
@[simp] theorem setSta_dcyc (d : Die) (p : Pos) (x : Station) : (d.setSta p x).dcyc = d.dcyc := rfl
@[simp] theorem setSta_notBefore (d : Die) (p : Pos) (x : Station) : (d.setSta p x).notBefore = d.notBefore := rfl
@[simp] theorem setSta_unexec (d : Die) (p : Pos) (x : Station) : (d.setSta p x).unexec = d.unexec := rfl
@[simp] theorem setSta_xch (d : Die) (p : Pos) (x : Station) : (d.setSta p x).xch = d.xch := rfl
@[simp] theorem setSta_team (d : Die) (p : Pos) (x : Station) : (d.setSta p x).team = d.team := rfl
@[simp] theorem setSta_holdcnt (d : Die) (p : Pos) (x : Station) : (d.setSta p x).holdcnt = d.holdcnt := rfl
@[simp] theorem setSta_holdmax (d : Die) (p : Pos) (x : Station) : (d.setSta p x).holdmax = d.holdmax := rfl
@[simp] theorem setSta_window (d : Die) (p : Pos) (x : Station) : (d.setSta p x).window = d.window := rfl
@[simp] theorem setSta_fimg (d : Die) (p : Pos) (x : Station) : (d.setSta p x).fimg = d.fimg := rfl
@[simp] theorem setSta_gnan (d : Die) (p : Pos) (x : Station) : (d.setSta p x).gnan = d.gnan := rfl
@[simp] theorem setSta_cells (d : Die) (p : Pos) (x : Station) : (d.setSta p x).cells = d.cells := rfl
@[simp] theorem setSta_accE (d : Die) (p : Pos) (x : Station) : (d.setSta p x).accE = d.accE := rfl
@[simp] theorem setSta_accN (d : Die) (p : Pos) (x : Station) : (d.setSta p x).accN = d.accN := rfl
@[simp] theorem setSta_works (d : Die) (p : Pos) (x : Station) : (d.setSta p x).works = d.works := rfl
@[simp] theorem setSta_skew (d : Die) (p : Pos) (x : Station) : (d.setSta p x).skew = d.skew := rfl
@[simp] theorem setSta_accJobs (d : Die) (p : Pos) (x : Station) : (d.setSta p x).accJobs = d.accJobs := rfl
@[simp] theorem setSta_once (d : Die) (p : Pos) (x : Station) : (d.setSta p x).once = d.once := rfl
@[simp] theorem setSta_promos (d : Die) (p : Pos) (x : Station) : (d.setSta p x).promos = d.promos := rfl
@[simp] theorem setSta_tested (d : Die) (p : Pos) (x : Station) : (d.setSta p x).tested = d.tested := rfl
@[simp] theorem setSta_seatUntil (d : Die) (p : Pos) (x : Station) : (d.setSta p x).seatUntil = d.seatUntil := rfl
@[simp] theorem setSta_liftUntil (d : Die) (p : Pos) (x : Station) : (d.setSta p x).liftUntil = d.liftUntil := rfl
@[simp] theorem setSta_atrap (d : Die) (p : Pos) (x : Station) : (d.setSta p x).atrap = d.atrap := rfl
@[simp] theorem setSta_astat (d : Die) (p : Pos) (x : Station) : (d.setSta p x).astat = d.astat := rfl
@[simp] theorem setSta_nancnt (d : Die) (p : Pos) (x : Station) : (d.setSta p x).nancnt = d.nancnt := rfl
@[simp] theorem setSta_arrEvents (d : Die) (p : Pos) (x : Station) : (d.setSta p x).arrEvents = d.arrEvents := rfl
@[simp] theorem setSta_nanAdd (d : Die) (p : Pos) (x : Station) : (d.setSta p x).nanAdd = d.nanAdd := rfl
@[simp] theorem setSta_violog (d : Die) (p : Pos) (x : Station) : (d.setSta p x).violog = d.violog := rfl
@[simp] theorem setSta_viotrap (d : Die) (p : Pos) (x : Station) : (d.setSta p x).viotrap = d.viotrap := rfl
@[simp] theorem setSta_rdverr (d : Die) (p : Pos) (x : Station) : (d.setSta p x).rdverr = d.rdverr := rfl
@[simp] theorem setSta_rdverrAt (d : Die) (p : Pos) (x : Station) : (d.setSta p x).rdverrAt = d.rdverrAt := rfl
@[simp] theorem setSta_hsta (d : Die) (p : Pos) (x : Station) : (d.setSta p x).hsta = d.hsta := rfl
@[simp] theorem setSta_trapcause (d : Die) (p : Pos) (x : Station) : (d.setSta p x).trapcause = d.trapcause := rfl
@[simp] theorem setSta_trappos (d : Die) (p : Pos) (x : Station) : (d.setSta p x).trappos = d.trappos := rfl
@[simp] theorem setSta_portA (d : Die) (p : Pos) (x : Station) : (d.setSta p x).portA = d.portA := rfl
@[simp] theorem setSta_latched (d : Die) (p : Pos) (x : Station) : (d.setSta p x).latched = d.latched := rfl
@[simp] theorem setSta_items (d : Die) (p : Pos) (x : Station) : (d.setSta p x).items = d.items := rfl
@[simp] theorem setSta_drives (d : Die) (p : Pos) (x : Station) : (d.setSta p x).drives = d.drives := rfl
@[simp] theorem setSta_cavdBusy (d : Die) (p : Pos) (x : Station) : (d.setSta p x).cavdBusy = d.cavdBusy := rfl
@[simp] theorem setSta_masters (d : Die) (p : Pos) (x : Station) : (d.setSta p x).masters = d.masters := rfl
@[simp] theorem setSta_copies (d : Die) (p : Pos) (x : Station) : (d.setSta p x).copies = d.copies := rfl
@[simp] theorem setSta_msgs (d : Die) (p : Pos) (x : Station) : (d.setSta p x).msgs = d.msgs := rfl
@[simp] theorem setSta_eoc (d : Die) (p : Pos) (x : Station) : (d.setSta p x).eoc = d.eoc := rfl
@[simp] theorem setSta_ended (d : Die) (p : Pos) (x : Station) : (d.setSta p x).ended = d.ended := rfl
@[simp] theorem setSta_causes (d : Die) (p : Pos) (x : Station) : (d.setSta p x).causes = d.causes := rfl
@[simp] theorem setSta_latchNow (d : Die) (p : Pos) (x : Station) : (d.setSta p x).latchNow = d.latchNow := rfl
@[simp] theorem setSta_asyncs (d : Die) (p : Pos) (x : Station) : (d.setSta p x).asyncs = d.asyncs := rfl
@[simp] theorem setSta_late (d : Die) (p : Pos) (x : Station) : (d.setSta p x).late = d.late := rfl
@[simp] theorem setSta_reports (d : Die) (p : Pos) (x : Station) : (d.setSta p x).reports = d.reports := rfl
@[simp] theorem setSta_reportAt (d : Die) (p : Pos) (x : Station) : (d.setSta p x).reportAt = d.reportAt := rfl
@[simp] theorem setSta_rampLast (d : Die) (p : Pos) (x : Station) : (d.setSta p x).rampLast = d.rampLast := rfl
@[simp] theorem setSta_rampEvent (d : Die) (p : Pos) (x : Station) : (d.setSta p x).rampEvent = d.rampEvent := rfl
@[simp] theorem setSta_saved (d : Die) (p : Pos) (x : Station) : (d.setSta p x).saved = d.saved := rfl
@[simp] theorem setSta_hctx (d : Die) (p : Pos) (x : Station) : (d.setSta p x).hctx = d.hctx := rfl
@[simp] theorem setSta_hpos (d : Die) (p : Pos) (x : Station) : (d.setSta p x).hpos = d.hpos := rfl
@[simp] theorem setSta_hwrites (d : Die) (p : Pos) (x : Station) : (d.setSta p x).hwrites = d.hwrites := rfl
@[simp] theorem setSta_handlerNext (d : Die) (p : Pos) (x : Station) : (d.setSta p x).handlerNext = d.handlerNext := rfl
@[simp] theorem setSta_stow (d : Die) (p : Pos) (x : Station) : (d.setSta p x).stow = d.stow := rfl
@[simp] theorem setSta_bivbase (d : Die) (p : Pos) (x : Station) : (d.setSta p x).bivbase = d.bivbase := rfl
@[simp] theorem setSta_bivend (d : Die) (p : Pos) (x : Station) : (d.setSta p x).bivend = d.bivend := rfl
@[simp] theorem setSta_sva (d : Die) (p : Pos) (x : Station) : (d.setSta p x).sva = d.sva := rfl
@[simp] theorem setSta_svoff (d : Die) (p : Pos) (x : Station) : (d.setSta p x).svoff = d.svoff := rfl
@[simp] theorem setSta_ghost (d : Die) (p : Pos) (x : Station) : (d.setSta p x).ghost = d.ghost := rfl
@[simp] theorem setSta_shade (d : Die) (p : Pos) (x : Station) : (d.setSta p x).shade = d.shade := rfl
@[simp] theorem setSta_sfrz (d : Die) (p : Pos) (x : Station) : (d.setSta p x).sfrz = d.sfrz := rfl
@[simp] theorem setSta_monitors (d : Die) (p : Pos) (x : Station) : (d.setSta p x).monitors = d.monitors := rfl
@[simp] theorem setSta_debugAt (d : Die) (p : Pos) (x : Station) : (d.setSta p x).debugAt = d.debugAt := rfl
@[simp] theorem setSta_stopAt (d : Die) (p : Pos) (x : Station) : (d.setSta p x).stopAt = d.stopAt := rfl
@[simp] theorem setSta_restoreAt (d : Die) (p : Pos) (x : Station) : (d.setSta p x).restoreAt = d.restoreAt := rfl
@[simp] theorem setSta_preemptAt (d : Die) (p : Pos) (x : Station) : (d.setSta p x).preemptAt = d.preemptAt := rfl
@[simp] theorem setSta_tele (d : Die) (p : Pos) (x : Station) : (d.setSta p x).tele = d.tele := rfl
@[simp] theorem setSta_holds (d : Die) (p : Pos) (x : Station) : (d.setSta p x).holds = d.holds := rfl
@[simp] theorem setSta_bad (d : Die) (p : Pos) (x : Station) : (d.setSta p x).bad = d.bad := rfl

@[simp] theorem raise_cond (d : Die) (c : CauseRec) : (d.raise c).cond = d.cond := rfl
@[simp] theorem raise_dcyc (d : Die) (c : CauseRec) : (d.raise c).dcyc = d.dcyc := rfl
@[simp] theorem raise_notBefore (d : Die) (c : CauseRec) : (d.raise c).notBefore = d.notBefore := rfl
@[simp] theorem raise_unexec (d : Die) (c : CauseRec) : (d.raise c).unexec = d.unexec := rfl
@[simp] theorem raise_xch (d : Die) (c : CauseRec) : (d.raise c).xch = d.xch := rfl
@[simp] theorem raise_team (d : Die) (c : CauseRec) : (d.raise c).team = d.team := rfl
@[simp] theorem raise_holdcnt (d : Die) (c : CauseRec) : (d.raise c).holdcnt = d.holdcnt := rfl
@[simp] theorem raise_holdmax (d : Die) (c : CauseRec) : (d.raise c).holdmax = d.holdmax := rfl
@[simp] theorem raise_stations (d : Die) (c : CauseRec) : (d.raise c).stations = d.stations := rfl
@[simp] theorem raise_window (d : Die) (c : CauseRec) : (d.raise c).window = d.window := rfl
@[simp] theorem raise_fimg (d : Die) (c : CauseRec) : (d.raise c).fimg = d.fimg := rfl
@[simp] theorem raise_gnan (d : Die) (c : CauseRec) : (d.raise c).gnan = d.gnan := rfl
@[simp] theorem raise_cells (d : Die) (c : CauseRec) : (d.raise c).cells = d.cells := rfl
@[simp] theorem raise_accE (d : Die) (c : CauseRec) : (d.raise c).accE = d.accE := rfl
@[simp] theorem raise_accN (d : Die) (c : CauseRec) : (d.raise c).accN = d.accN := rfl
@[simp] theorem raise_works (d : Die) (c : CauseRec) : (d.raise c).works = d.works := rfl
@[simp] theorem raise_skew (d : Die) (c : CauseRec) : (d.raise c).skew = d.skew := rfl
@[simp] theorem raise_accJobs (d : Die) (c : CauseRec) : (d.raise c).accJobs = d.accJobs := rfl
@[simp] theorem raise_once (d : Die) (c : CauseRec) : (d.raise c).once = d.once := rfl
@[simp] theorem raise_promos (d : Die) (c : CauseRec) : (d.raise c).promos = d.promos := rfl
@[simp] theorem raise_tested (d : Die) (c : CauseRec) : (d.raise c).tested = d.tested := rfl
@[simp] theorem raise_seatUntil (d : Die) (c : CauseRec) : (d.raise c).seatUntil = d.seatUntil := rfl
@[simp] theorem raise_liftUntil (d : Die) (c : CauseRec) : (d.raise c).liftUntil = d.liftUntil := rfl
@[simp] theorem raise_atrap (d : Die) (c : CauseRec) : (d.raise c).atrap = d.atrap := rfl
@[simp] theorem raise_astat (d : Die) (c : CauseRec) : (d.raise c).astat = d.astat := rfl
@[simp] theorem raise_nancnt (d : Die) (c : CauseRec) : (d.raise c).nancnt = d.nancnt := rfl
@[simp] theorem raise_arrEvents (d : Die) (c : CauseRec) : (d.raise c).arrEvents = d.arrEvents := rfl
@[simp] theorem raise_nanAdd (d : Die) (c : CauseRec) : (d.raise c).nanAdd = d.nanAdd := rfl
@[simp] theorem raise_violog (d : Die) (c : CauseRec) : (d.raise c).violog = d.violog := rfl
@[simp] theorem raise_viotrap (d : Die) (c : CauseRec) : (d.raise c).viotrap = d.viotrap := rfl
@[simp] theorem raise_rdverr (d : Die) (c : CauseRec) : (d.raise c).rdverr = d.rdverr := rfl
@[simp] theorem raise_rdverrAt (d : Die) (c : CauseRec) : (d.raise c).rdverrAt = d.rdverrAt := rfl
@[simp] theorem raise_hsta (d : Die) (c : CauseRec) : (d.raise c).hsta = d.hsta := rfl
@[simp] theorem raise_trapcause (d : Die) (c : CauseRec) : (d.raise c).trapcause = d.trapcause := rfl
@[simp] theorem raise_trappos (d : Die) (c : CauseRec) : (d.raise c).trappos = d.trappos := rfl
@[simp] theorem raise_portA (d : Die) (c : CauseRec) : (d.raise c).portA = d.portA := rfl
@[simp] theorem raise_latched (d : Die) (c : CauseRec) : (d.raise c).latched = d.latched := rfl
@[simp] theorem raise_items (d : Die) (c : CauseRec) : (d.raise c).items = d.items := rfl
@[simp] theorem raise_drives (d : Die) (c : CauseRec) : (d.raise c).drives = d.drives := rfl
@[simp] theorem raise_cavdBusy (d : Die) (c : CauseRec) : (d.raise c).cavdBusy = d.cavdBusy := rfl
@[simp] theorem raise_masters (d : Die) (c : CauseRec) : (d.raise c).masters = d.masters := rfl
@[simp] theorem raise_copies (d : Die) (c : CauseRec) : (d.raise c).copies = d.copies := rfl
@[simp] theorem raise_msgs (d : Die) (c : CauseRec) : (d.raise c).msgs = d.msgs := rfl
@[simp] theorem raise_eoc (d : Die) (c : CauseRec) : (d.raise c).eoc = d.eoc := rfl
@[simp] theorem raise_ended (d : Die) (c : CauseRec) : (d.raise c).ended = d.ended := rfl
@[simp] theorem raise_latchNow (d : Die) (c : CauseRec) : (d.raise c).latchNow = d.latchNow := rfl
@[simp] theorem raise_asyncs (d : Die) (c : CauseRec) : (d.raise c).asyncs = d.asyncs := rfl
@[simp] theorem raise_late (d : Die) (c : CauseRec) : (d.raise c).late = d.late := rfl
@[simp] theorem raise_reports (d : Die) (c : CauseRec) : (d.raise c).reports = d.reports := rfl
@[simp] theorem raise_reportAt (d : Die) (c : CauseRec) : (d.raise c).reportAt = d.reportAt := rfl
@[simp] theorem raise_rampLast (d : Die) (c : CauseRec) : (d.raise c).rampLast = d.rampLast := rfl
@[simp] theorem raise_rampEvent (d : Die) (c : CauseRec) : (d.raise c).rampEvent = d.rampEvent := rfl
@[simp] theorem raise_saved (d : Die) (c : CauseRec) : (d.raise c).saved = d.saved := rfl
@[simp] theorem raise_hctx (d : Die) (c : CauseRec) : (d.raise c).hctx = d.hctx := rfl
@[simp] theorem raise_hpos (d : Die) (c : CauseRec) : (d.raise c).hpos = d.hpos := rfl
@[simp] theorem raise_hwrites (d : Die) (c : CauseRec) : (d.raise c).hwrites = d.hwrites := rfl
@[simp] theorem raise_handlerNext (d : Die) (c : CauseRec) : (d.raise c).handlerNext = d.handlerNext := rfl
@[simp] theorem raise_stow (d : Die) (c : CauseRec) : (d.raise c).stow = d.stow := rfl
@[simp] theorem raise_bivbase (d : Die) (c : CauseRec) : (d.raise c).bivbase = d.bivbase := rfl
@[simp] theorem raise_bivend (d : Die) (c : CauseRec) : (d.raise c).bivend = d.bivend := rfl
@[simp] theorem raise_sva (d : Die) (c : CauseRec) : (d.raise c).sva = d.sva := rfl
@[simp] theorem raise_svoff (d : Die) (c : CauseRec) : (d.raise c).svoff = d.svoff := rfl
@[simp] theorem raise_ghost (d : Die) (c : CauseRec) : (d.raise c).ghost = d.ghost := rfl
@[simp] theorem raise_shade (d : Die) (c : CauseRec) : (d.raise c).shade = d.shade := rfl
@[simp] theorem raise_sfrz (d : Die) (c : CauseRec) : (d.raise c).sfrz = d.sfrz := rfl
@[simp] theorem raise_monitors (d : Die) (c : CauseRec) : (d.raise c).monitors = d.monitors := rfl
@[simp] theorem raise_debugAt (d : Die) (c : CauseRec) : (d.raise c).debugAt = d.debugAt := rfl
@[simp] theorem raise_stopAt (d : Die) (c : CauseRec) : (d.raise c).stopAt = d.stopAt := rfl
@[simp] theorem raise_restoreAt (d : Die) (c : CauseRec) : (d.raise c).restoreAt = d.restoreAt := rfl
@[simp] theorem raise_preemptAt (d : Die) (c : CauseRec) : (d.raise c).preemptAt = d.preemptAt := rfl
@[simp] theorem raise_tele (d : Die) (c : CauseRec) : (d.raise c).tele = d.tele := rfl
@[simp] theorem raise_holds (d : Die) (c : CauseRec) : (d.raise c).holds = d.holds := rfl
@[simp] theorem raise_bad (d : Die) (c : CauseRec) : (d.raise c).bad = d.bad := rfl

@[simp] theorem setCtx_plane (x : Station) (st : Strm) (c : Ctx) : (x.setCtx st c).plane = x.plane := rfl
@[simp] theorem setCtx_shadow (x : Station) (st : Strm) (c : Ctx) : (x.setCtx st c).shadow = x.shadow := rfl
@[simp] theorem setCtx_kept (x : Station) (st : Strm) (c : Ctx) : (x.setCtx st c).kept = x.kept := rfl
@[simp] theorem setCtx_s (x : Station) (st : Strm) (c : Ctx) : (x.setCtx st c).s = x.s := rfl
@[simp] theorem setCtx_aL (x : Station) (st : Strm) (c : Ctx) : (x.setCtx st c).aL = x.aL := rfl
@[simp] theorem setCtx_aS (x : Station) (st : Strm) (c : Ctx) : (x.setCtx st c).aS = x.aS := rfl
@[simp] theorem setCtx_v (x : Station) (st : Strm) (c : Ctx) : (x.setCtx st c).v = x.v := rfl
@[simp] theorem setCtx_m (x : Station) (st : Strm) (c : Ctx) : (x.setCtx st c).m = x.m := rfl
@[simp] theorem setCtx_e (x : Station) (st : Strm) (c : Ctx) : (x.setCtx st c).e = x.e := rfl
@[simp] theorem setCtx_pad (x : Station) (st : Strm) (c : Ctx) : (x.setCtx st c).pad = x.pad := rfl
@[simp] theorem setCtx_bank (x : Station) (st : Strm) (c : Ctx) : (x.setCtx st c).bank = x.bank := rfl
@[simp] theorem setCtx_fmt (x : Station) (st : Strm) (c : Ctx) : (x.setCtx st c).fmt = x.fmt := rfl
@[simp] theorem setCtx_buf (x : Station) (st : Strm) (c : Ctx) : (x.setCtx st c).buf = x.buf := rfl
@[simp] theorem setCtx_writes (x : Station) (st : Strm) (c : Ctx) : (x.setCtx st c).writes = x.writes := rfl
@[simp] theorem setCtx_flags (x : Station) (st : Strm) (c : Ctx) : (x.setCtx st c).flags = x.flags := rfl
@[simp] theorem setCtx_loads (x : Station) (st : Strm) (c : Ctx) : (x.setCtx st c).loads = x.loads := rfl
@[simp] theorem setCtx_stores (x : Station) (st : Strm) (c : Ctx) : (x.setCtx st c).stores = x.stores := rfl
@[simp] theorem setCtx_fq (x : Station) (st : Strm) (c : Ctx) : (x.setCtx st c).fq = x.fq := rfl
@[simp] theorem setCtx_fences (x : Station) (st : Strm) (c : Ctx) : (x.setCtx st c).fences = x.fences := rfl
@[simp] theorem setCtx_releases (x : Station) (st : Strm) (c : Ctx) : (x.setCtx st c).releases = x.releases := rfl
@[simp] theorem setCtx_div (x : Station) (st : Strm) (c : Ctx) : (x.setCtx st c).div = x.div := rfl
@[simp] theorem setCtx_pipeFree (x : Station) (st : Strm) (c : Ctx) : (x.setCtx st c).pipeFree = x.pipeFree := rfl
@[simp] theorem setCtx_rotd (x : Station) (st : Strm) (c : Ctx) : (x.setCtx st c).rotd = x.rotd := rfl
@[simp] theorem setCtx_died (x : Station) (st : Strm) (c : Ctx) : (x.setCtx st c).died = x.died := rfl
@[simp] theorem setCtx_fpctl (x : Station) (st : Strm) (c : Ctx) : (x.setCtx st c).fpctl = x.fpctl := rfl
@[simp] theorem setCtx_noise (x : Station) (st : Strm) (c : Ctx) : (x.setCtx st c).noise = x.noise := rfl
@[simp] theorem setCtx_locreq (x : Station) (st : Strm) (c : Ctx) : (x.setCtx st c).locreq = x.locreq := rfl
@[simp] theorem setCtx_remreq (x : Station) (st : Strm) (c : Ctx) : (x.setCtx st c).remreq = x.remreq := rfl
@[simp] theorem setCtx_scslot (x : Station) (st : Strm) (c : Ctx) : (x.setCtx st c).scslot = x.scslot := rfl
@[simp] theorem setCtx_cav (x : Station) (st : Strm) (c : Ctx) : (x.setCtx st c).cav = x.cav := rfl
@[simp] theorem setCtx_live (x : Station) (st : Strm) (c : Ctx) : (x.setCtx st c).live = x.live := rfl
@[simp] theorem setCtx_snap (x : Station) (st : Strm) (c : Ctx) : (x.setCtx st c).snap = x.snap := rfl

@[simp] theorem setBankRow_plane (x : Station) (b : BitVec 3) (r : Nat) (v : Row) : (x.setBankRow b r v).plane = x.plane := rfl
@[simp] theorem setBankRow_shadow (x : Station) (b : BitVec 3) (r : Nat) (v : Row) : (x.setBankRow b r v).shadow = x.shadow := rfl
@[simp] theorem setBankRow_kept (x : Station) (b : BitVec 3) (r : Nat) (v : Row) : (x.setBankRow b r v).kept = x.kept := rfl
@[simp] theorem setBankRow_ctx (x : Station) (b : BitVec 3) (r : Nat) (v : Row) : (x.setBankRow b r v).ctx = x.ctx := rfl
@[simp] theorem setBankRow_s (x : Station) (b : BitVec 3) (r : Nat) (v : Row) : (x.setBankRow b r v).s = x.s := rfl
@[simp] theorem setBankRow_aL (x : Station) (b : BitVec 3) (r : Nat) (v : Row) : (x.setBankRow b r v).aL = x.aL := rfl
@[simp] theorem setBankRow_aS (x : Station) (b : BitVec 3) (r : Nat) (v : Row) : (x.setBankRow b r v).aS = x.aS := rfl
@[simp] theorem setBankRow_v (x : Station) (b : BitVec 3) (r : Nat) (v : Row) : (x.setBankRow b r v).v = x.v := rfl
@[simp] theorem setBankRow_m (x : Station) (b : BitVec 3) (r : Nat) (v : Row) : (x.setBankRow b r v).m = x.m := rfl
@[simp] theorem setBankRow_e (x : Station) (b : BitVec 3) (r : Nat) (v : Row) : (x.setBankRow b r v).e = x.e := rfl
@[simp] theorem setBankRow_pad (x : Station) (b : BitVec 3) (r : Nat) (v : Row) : (x.setBankRow b r v).pad = x.pad := rfl
@[simp] theorem setBankRow_fmt (x : Station) (b : BitVec 3) (r : Nat) (v : Row) : (x.setBankRow b r v).fmt = x.fmt := rfl
@[simp] theorem setBankRow_buf (x : Station) (b : BitVec 3) (r : Nat) (v : Row) : (x.setBankRow b r v).buf = x.buf := rfl
@[simp] theorem setBankRow_writes (x : Station) (b : BitVec 3) (r : Nat) (v : Row) : (x.setBankRow b r v).writes = x.writes := rfl
@[simp] theorem setBankRow_flags (x : Station) (b : BitVec 3) (r : Nat) (v : Row) : (x.setBankRow b r v).flags = x.flags := rfl
@[simp] theorem setBankRow_loads (x : Station) (b : BitVec 3) (r : Nat) (v : Row) : (x.setBankRow b r v).loads = x.loads := rfl
@[simp] theorem setBankRow_stores (x : Station) (b : BitVec 3) (r : Nat) (v : Row) : (x.setBankRow b r v).stores = x.stores := rfl
@[simp] theorem setBankRow_fq (x : Station) (b : BitVec 3) (r : Nat) (v : Row) : (x.setBankRow b r v).fq = x.fq := rfl
@[simp] theorem setBankRow_fences (x : Station) (b : BitVec 3) (r : Nat) (v : Row) : (x.setBankRow b r v).fences = x.fences := rfl
@[simp] theorem setBankRow_releases (x : Station) (b : BitVec 3) (r : Nat) (v : Row) : (x.setBankRow b r v).releases = x.releases := rfl
@[simp] theorem setBankRow_div (x : Station) (b : BitVec 3) (r : Nat) (v : Row) : (x.setBankRow b r v).div = x.div := rfl
@[simp] theorem setBankRow_pipeFree (x : Station) (b : BitVec 3) (r : Nat) (v : Row) : (x.setBankRow b r v).pipeFree = x.pipeFree := rfl
@[simp] theorem setBankRow_rotd (x : Station) (b : BitVec 3) (r : Nat) (v : Row) : (x.setBankRow b r v).rotd = x.rotd := rfl
@[simp] theorem setBankRow_died (x : Station) (b : BitVec 3) (r : Nat) (v : Row) : (x.setBankRow b r v).died = x.died := rfl
@[simp] theorem setBankRow_fpctl (x : Station) (b : BitVec 3) (r : Nat) (v : Row) : (x.setBankRow b r v).fpctl = x.fpctl := rfl
@[simp] theorem setBankRow_noise (x : Station) (b : BitVec 3) (r : Nat) (v : Row) : (x.setBankRow b r v).noise = x.noise := rfl
@[simp] theorem setBankRow_locreq (x : Station) (b : BitVec 3) (r : Nat) (v : Row) : (x.setBankRow b r v).locreq = x.locreq := rfl
@[simp] theorem setBankRow_remreq (x : Station) (b : BitVec 3) (r : Nat) (v : Row) : (x.setBankRow b r v).remreq = x.remreq := rfl
@[simp] theorem setBankRow_scslot (x : Station) (b : BitVec 3) (r : Nat) (v : Row) : (x.setBankRow b r v).scslot = x.scslot := rfl
@[simp] theorem setBankRow_cav (x : Station) (b : BitVec 3) (r : Nat) (v : Row) : (x.setBankRow b r v).cav = x.cav := rfl
@[simp] theorem setBankRow_live (x : Station) (b : BitVec 3) (r : Nat) (v : Row) : (x.setBankRow b r v).live = x.live := rfl
@[simp] theorem setBankRow_snap (x : Station) (b : BitVec 3) (r : Nat) (v : Row) : (x.setBankRow b r v).snap = x.snap := rfl

@[simp] theorem setBuf_plane (x : Station) (n : Nat) (b : Buf) : (x.setBuf n b).plane = x.plane := rfl
@[simp] theorem setBuf_shadow (x : Station) (n : Nat) (b : Buf) : (x.setBuf n b).shadow = x.shadow := rfl
@[simp] theorem setBuf_kept (x : Station) (n : Nat) (b : Buf) : (x.setBuf n b).kept = x.kept := rfl
@[simp] theorem setBuf_ctx (x : Station) (n : Nat) (b : Buf) : (x.setBuf n b).ctx = x.ctx := rfl
@[simp] theorem setBuf_s (x : Station) (n : Nat) (b : Buf) : (x.setBuf n b).s = x.s := rfl
@[simp] theorem setBuf_aL (x : Station) (n : Nat) (b : Buf) : (x.setBuf n b).aL = x.aL := rfl
@[simp] theorem setBuf_aS (x : Station) (n : Nat) (b : Buf) : (x.setBuf n b).aS = x.aS := rfl
@[simp] theorem setBuf_v (x : Station) (n : Nat) (b : Buf) : (x.setBuf n b).v = x.v := rfl
@[simp] theorem setBuf_m (x : Station) (n : Nat) (b : Buf) : (x.setBuf n b).m = x.m := rfl
@[simp] theorem setBuf_e (x : Station) (n : Nat) (b : Buf) : (x.setBuf n b).e = x.e := rfl
@[simp] theorem setBuf_pad (x : Station) (n : Nat) (b : Buf) : (x.setBuf n b).pad = x.pad := rfl
@[simp] theorem setBuf_bank (x : Station) (n : Nat) (b : Buf) : (x.setBuf n b).bank = x.bank := rfl
@[simp] theorem setBuf_fmt (x : Station) (n : Nat) (b : Buf) : (x.setBuf n b).fmt = x.fmt := rfl
@[simp] theorem setBuf_writes (x : Station) (n : Nat) (b : Buf) : (x.setBuf n b).writes = x.writes := rfl
@[simp] theorem setBuf_flags (x : Station) (n : Nat) (b : Buf) : (x.setBuf n b).flags = x.flags := rfl
@[simp] theorem setBuf_loads (x : Station) (n : Nat) (b : Buf) : (x.setBuf n b).loads = x.loads := rfl
@[simp] theorem setBuf_stores (x : Station) (n : Nat) (b : Buf) : (x.setBuf n b).stores = x.stores := rfl
@[simp] theorem setBuf_fq (x : Station) (n : Nat) (b : Buf) : (x.setBuf n b).fq = x.fq := rfl
@[simp] theorem setBuf_fences (x : Station) (n : Nat) (b : Buf) : (x.setBuf n b).fences = x.fences := rfl
@[simp] theorem setBuf_releases (x : Station) (n : Nat) (b : Buf) : (x.setBuf n b).releases = x.releases := rfl
@[simp] theorem setBuf_div (x : Station) (n : Nat) (b : Buf) : (x.setBuf n b).div = x.div := rfl
@[simp] theorem setBuf_pipeFree (x : Station) (n : Nat) (b : Buf) : (x.setBuf n b).pipeFree = x.pipeFree := rfl
@[simp] theorem setBuf_rotd (x : Station) (n : Nat) (b : Buf) : (x.setBuf n b).rotd = x.rotd := rfl
@[simp] theorem setBuf_died (x : Station) (n : Nat) (b : Buf) : (x.setBuf n b).died = x.died := rfl
@[simp] theorem setBuf_fpctl (x : Station) (n : Nat) (b : Buf) : (x.setBuf n b).fpctl = x.fpctl := rfl
@[simp] theorem setBuf_noise (x : Station) (n : Nat) (b : Buf) : (x.setBuf n b).noise = x.noise := rfl
@[simp] theorem setBuf_locreq (x : Station) (n : Nat) (b : Buf) : (x.setBuf n b).locreq = x.locreq := rfl
@[simp] theorem setBuf_remreq (x : Station) (n : Nat) (b : Buf) : (x.setBuf n b).remreq = x.remreq := rfl
@[simp] theorem setBuf_scslot (x : Station) (n : Nat) (b : Buf) : (x.setBuf n b).scslot = x.scslot := rfl
@[simp] theorem setBuf_cav (x : Station) (n : Nat) (b : Buf) : (x.setBuf n b).cav = x.cav := rfl
@[simp] theorem setBuf_live (x : Station) (n : Nat) (b : Buf) : (x.setBuf n b).live = x.live := rfl
@[simp] theorem setBuf_snap (x : Station) (n : Nat) (b : Buf) : (x.setBuf n b).snap = x.snap := rfl

-- ## Reading what was set

@[simp] theorem four_get_set {α : Type} (f : Four α) (i : Fin 4) (v : α) : (f.set i v).get i = v := by
  revert i; intro i; match i with
  | 0 | 1 | 2 | 3 => rfl

theorem four_get_set_ne {α : Type} (f : Four α) (i j : Fin 4) (v : α) (h : i ≠ j) : (f.set i v).get j = f.get j := by
  match i, j with
  | 0, 0 | 1, 1 | 2, 2 | 3, 3 => exact absurd rfl h
  | 0, 1 | 0, 2 | 0, 3 | 1, 0 | 1, 2 | 1, 3 | 2, 0 | 2, 1 | 2, 3 | 3, 0 | 3, 1 | 3, 2 => rfl

@[simp] theorem four_set_set {α : Type} (f : Four α) (i : Fin 4) (v w : α) : (f.set i v).set i w = f.set i w := by
  match i with
  | 0 | 1 | 2 | 3 => rfl

@[simp] theorem four_set_get {α : Type} (f : Four α) (i : Fin 4) : f.set i (f.get i) = f := by
  match i with
  | 0 | 1 | 2 | 3 => rfl

theorem four_ext {α : Type} {f g : Four α} (h : ∀ i, f.get i = g.get i) : f = g := by
  have h0 := h 0; have h1 := h 1; have h2 := h 2; have h3 := h 3
  cases f; cases g; simp_all [Four.get]

@[simp] theorem die_setDie (s : State) (d : DieId) (x : Die) : (s.setDie d x).die d = x := four_get_set ..

theorem die_setDie_ne (s : State) (d e : DieId) (x : Die) (h : d ≠ e) : (s.setDie d x).die e = s.die e :=
  four_get_set_ne _ _ _ _ h

@[simp] theorem fs_setFs (s : State) (d : DieId) (x : FarSide) : (s.setFs d x).fs d = x := four_get_set ..

theorem fs_setFs_ne (s : State) (d e : DieId) (x : FarSide) (h : d ≠ e) : (s.setFs d x).fs e = s.fs e :=
  four_get_set_ne _ _ _ _ h

@[simp] theorem die_setFs (s : State) (d e : DieId) (x : FarSide) : (s.setFs d x).die e = s.die e := rfl

@[simp] theorem fs_setDie (s : State) (d e : DieId) (x : Die) : (s.setDie d x).fs e = s.fs e := rfl

@[simp] theorem setDie_setDie (s : State) (d : DieId) (x y : Die) : (s.setDie d x).setDie d y = s.setDie d y := by
  simp [State.setDie]

@[simp] theorem setDie_die (s : State) (d : DieId) : s.setDie d (s.die d) = s := by simp [State.setDie, State.die]

@[simp] theorem sta_setSta (d : Die) (p : Pos) (x : Station) : (d.setSta p x).sta p = x :=
  Vector.getElem_set_self (xs := d.stations) p.isLt

theorem sta_setSta_ne (d : Die) (p q : Pos) (x : Station) (h : p ≠ q) : (d.setSta p x).sta q = d.sta q :=
  Vector.getElem_set_ne (xs := d.stations) p.isLt q.isLt (Fin.val_ne_of_ne h)

@[simp] theorem setSta_setSta (d : Die) (p : Pos) (x y : Station) : (d.setSta p x).setSta p y = d.setSta p y := by
  simp only [Die.setSta, Vector.set_set]

@[simp] theorem setSta_sta (d : Die) (p : Pos) : d.setSta p (d.sta p) = d := by
  have h : d.stations.set p.val (d.stations.get p) p.isLt = d.stations := Vector.set_getElem_self p.isLt
  simp only [Die.setSta, Die.sta, h]

@[simp] theorem ctxOf_setCtx (x : Station) (st : Strm) (c : Ctx) : (x.setCtx st c).ctxOf st = c := four_get_set ..

theorem ctxOf_setCtx_ne (x : Station) (a b : Strm) (c : Ctx) (h : a ≠ b) : (x.setCtx a c).ctxOf b = x.ctxOf b :=
  four_get_set_ne _ _ _ _ (by cases a <;> cases b <;> simp_all [Strm.idx])

@[simp] theorem setCtx_setCtx (x : Station) (st : Strm) (a b : Ctx) : (x.setCtx st a).setCtx st b = x.setCtx st b := by
  simp [Station.setCtx]

@[simp] theorem setCtx_ctxOf (x : Station) (st : Strm) : x.setCtx st (x.ctxOf st) = x := by
  simp [Station.setCtx, Station.ctxOf]

-- ## The issuing die, station and context

@[simp] theorem curDie_updDie (s : State) (f : Die → Die) : (s.updDie f).curDie = f s.curDie := die_setDie ..

@[simp] theorem updDie_updDie (s : State) (f g : Die → Die) : (s.updDie f).updDie g = s.updDie fun d => g (f d) := by
  simp [State.updDie, State.curDie]

theorem updSta_eq (s : State) (f : Station → Station) :
    s.updSta f = s.updDie fun d => d.setSta s.focus.pos (f (d.sta s.focus.pos)) := rfl

@[simp] theorem curSta_updSta (s : State) (f : Station → Station) : (s.updSta f).curSta = f s.curSta := by
  simp [State.updSta, State.curSta]

@[simp] theorem updSta_updSta (s : State) (f g : Station → Station) : (s.updSta f).updSta g = s.updSta fun x => g (f x) := by
  simp [State.updSta]

@[simp] theorem curCtx_updCtx (s : State) (f : Ctx → Ctx) : (s.updCtx f).curCtx = f s.curCtx := by
  simp [State.updCtx, State.curCtx]

@[simp] theorem updCtx_updCtx (s : State) (f g : Ctx → Ctx) : (s.updCtx f).updCtx g = s.updCtx fun c => g (f c) := by
  simp [State.updCtx]

theorem curSta_updDie (s : State) (f : Die → Die) : (s.updDie f).curSta = (f s.curDie).sta s.focus.pos := by
  simp [State.curSta]

@[simp] theorem curDie_updSta (s : State) (f : Station → Station) :
    (s.updSta f).curDie = s.curDie.setSta s.focus.pos (f s.curSta) := by
  simp [State.updSta, State.curSta]

theorem die_updDie_ne (s : State) (f : Die → Die) (d : DieId) (h : s.focus.die ≠ d) : (s.updDie f).die d = s.die d :=
  die_setDie_ne _ _ _ _ h

end Sys2Proof.Machine
end

