-- ==== Sys2Proof/Laws/Effects.lean ====
section
/-! SUPPORT. What each shared operation of a word adds to the state: in-flight writes, FPCTL events, draws and causes. -/

namespace Sys2Proof.Machine

-- ## The bare state

theorem focus_bare (s : State) : s.bare.focus = s.focus := by unfold State.bare; split <;> rfl

/-- An update of the issuing station that its bare form does not see. -/
theorem bare_updSta (s : State) (g : Station → Station) (hh : s.focus.handler = false) (hg : ∀ x, (g x).bare = x.bare) :
    (s.updSta g).bare = s.bare := by
  simp [State.bare, hh, hg]

theorem bare_updDie_hwrites (s : State) (l : List WriteRec → List WriteRec) (hh : s.focus.handler = true) :
    (s.updDie fun d => { d with hwrites := l d.hwrites }).bare = s.bare := by
  simp only [State.bare, hh, if_true, updDie_focus, updDie_updDie]
  rfl

theorem effect_refl (s : State) : Adds s s [] :=
  { others := rfl, writes := by simp, flags := by simp, pipe := rfl, noise := rfl, memory := fun _ => rfl,
    hostMemory := fun _ => rfl }

/-- Effects follow one another. -/
theorem Effect.trans {s t u : State} {w w' : List WriteRec} {f f' : List FlagRec} {p p' : Nat} {n n' : Noise}
    (a : Effect s t w f p n) (b : Effect t u w' f' p' n') : Effect s u (w ++ w') (f ++ f') p' n' :=
  { others := b.others.trans a.others, writes := by rw [b.writes, a.writes, List.append_assoc],
    flags := by rw [b.flags, a.flags, List.append_assoc], pipe := b.pipe, noise := b.noise,
    memory := fun x => (b.memory x).trans (a.memory x), hostMemory := fun x => (b.hostMemory x).trans (a.hostMemory x) }

/-- The focus stays the same under an effect. -/
theorem Effect.focus {s t : State} {w : List WriteRec} {f : List FlagRec} {p : Nat} {n : Noise} (h : Effect s t w f p n) :
    t.focus = s.focus := by rw [← focus_bare t, h.others, focus_bare s]

-- ## In-flight writes

theorem putWrite_adds (s : State) (lat : Nat) (name : Byte) (t : WTarget) :
    Adds s (s.putWrite lat name t) [s.inFlight lat name t] := by
  unfold State.putWrite
  by_cases hh : s.focus.handler = true
  · simp only [hh, if_true]
    exact { others := bare_updDie_hwrites s (· ++ [s.inFlight lat name t]) hh, writes := by simp [State.pending, hh, State.inFlight],
            flags := by simp [curSta_updDie]; rfl, pipe := by simp [curSta_updDie]; rfl, noise := by simp [curSta_updDie]; rfl,
            memory := fun _ => rfl, hostMemory := fun _ => rfl }
  · have hf : s.focus.handler = false := by simpa using hh
    simp only [hf, if_false, Bool.false_eq_true]
    exact { others := bare_updSta _ _ hf fun _ => rfl, writes := by simp [State.pending, hf, State.inFlight],
            flags := by simp, pipe := by simp, noise := by simp, memory := fun _ => rfl, hostMemory := fun _ => rfl }

theorem putScal_adds (s : State) (lat : Nat) (d : BitVec 6) (v : W64) : Adds s (s.putScal lat d v) (s.scalarWrites lat d v) := by
  unfold State.putScal State.scalarWrites
  exact putWrite_adds ..

theorem putPred_adds (s : State) (lat : Nat) (d : BitVec 3) (v : Bool) : Adds s (s.putPred lat d v) (s.predWrites lat d v) := by
  unfold State.putPred State.predWrites
  exact putWrite_adds ..

-- ## FPCTL events and draws

theorem putFlags_effect (s : State) (lat : Nat) (f : FpFlags) :
    Effect s (s.putFlags lat f) [] (s.flagWrites lat f) s.curSta.pipeFree s.curSta.noise := by
  unfold State.putFlags State.flagWrites
  split
  · exact effect_refl s
  · rename_i h
    have hf : s.focus.handler = false := by simp at h; exact h.1
    exact { others := bare_updSta _ _ hf fun _ => rfl, writes := by simp [State.pending, hf], flags := by simp, pipe := by simp,
            noise := by simp, memory := fun _ => rfl, hostMemory := fun _ => rfl }

/-- Setting the pipe, outside handler mode. -/
theorem pipe_effect (s : State) (p : Nat) (hf : s.focus.handler = false) :
    Effect s (s.updSta fun x => { x with pipeFree := p }) [] [] p s.curSta.noise :=
  { others := bare_updSta _ _ hf fun _ => rfl, writes := by simp [State.pending, hf], flags := by simp, pipe := by simp,
    noise := by simp, memory := fun _ => rfl, hostMemory := fun _ => rfl }

/-- Setting the noise generator, outside handler mode. -/
theorem noise_effect (s : State) (n : Noise) (hf : s.focus.handler = false) :
    Effect s (s.updSta fun x => { x with noise := n }) [] [] s.curSta.pipeFree n :=
  { others := bare_updSta _ _ hf fun _ => rfl, writes := by simp [State.pending, hf], flags := by simp, pipe := by simp,
    noise := by simp, memory := fun _ => rfl, hostMemory := fun _ => rfl }

theorem noiseIf_effect (s : State) (draws : Bool) :
    Effect s (s.noiseIf draws).2 [] [] s.curSta.pipeFree
      (if draws && !s.focus.handler then s.curSta.noise.draw.2 else s.curSta.noise) := by
  unfold State.noiseIf
  cases draws <;> cases hh : s.focus.handler <;> simp only [Bool.not_true, Bool.not_false, Bool.or_true, Bool.or_false, Bool.and_false, Bool.and_true, if_true, Bool.false_eq_true, if_false]
  · exact effect_refl s
  · exact effect_refl s
  · exact noise_effect s _ hh
  · exact effect_refl s

-- ## Records read the same before and after an effect

theorem cyc_updSta (s : State) (f : Station → Station) : (s.updSta f).cyc = s.cyc := by simp [State.cyc]

theorem cyc_putWrite (s : State) (lat : Nat) (name : Byte) (t : WTarget) : (s.putWrite lat name t).cyc = s.cyc := by
  unfold State.putWrite; split <;> simp [State.cyc]

theorem focus_putWrite (s : State) (lat : Nat) (name : Byte) (t : WTarget) : (s.putWrite lat name t).focus = s.focus := by
  unfold State.putWrite; split <;> rfl

theorem cyc_putScal (s : State) (lat : Nat) (d : BitVec 6) (v : W64) : (s.putScal lat d v).cyc = s.cyc := by
  unfold State.putScal; exact cyc_putWrite ..

theorem focus_putScal (s : State) (lat : Nat) (d : BitVec 6) (v : W64) : (s.putScal lat d v).focus = s.focus := by
  unfold State.putScal; exact focus_putWrite ..

theorem focus_noiseIf (s : State) (b : Bool) : (s.noiseIf b).2.focus = s.focus := by unfold State.noiseIf; split <;> rfl

theorem cyc_noiseIf (s : State) (b : Bool) : (s.noiseIf b).2.cyc = s.cyc := by
  unfold State.noiseIf; split <;> [rfl; exact cyc_updSta ..]

-- ## Causes

theorem trapSub_trapped (s : State) (c : Cause) (b : Byte) : Trapped s (s.trapSub c b) c b :=
  { others := by simp only [State.calm, State.trapSub, updDie_updDie]; rfl, causes := by simp [State.trapSub, Die.raise, State.ownCause],
    latches := by simp [State.trapSub, Die.raise], memory := fun _ => rfl }

theorem raise_trapped (s : State) (c : Cause) : ∃ t, raise s c = .next t ∧ Trapped s t c (causeSub c) :=
  ⟨_, rfl, trapSub_trapped s c _⟩

end Sys2Proof.Machine
end

