-- ==== Sys2Proof/Laws/Control.lean ====
section
/-! SUPPORT. What the shared operations that steer a stream do: retiring a section, moving to a parcel, and end-of-cycle effects. -/

namespace Sys2Proof.Machine

-- ## End-of-cycle effects

/-- A die with more end-of-cycle effects. -/
def Die.moreEoc (l : List Eoc) (d : Die) : Die := { d with eoc := d.eoc ++ l }

theorem moreEoc_nil (d : Die) : d.moreEoc [] = d := by simp [Die.moreEoc]

theorem updDie_id (s : State) (f : Die → Die) (h : ∀ d, f d = d) : s.updDie f = s := by
  simp [State.updDie, h, State.curDie]

theorem updDie_moreEoc_nil (s : State) : s.updDie (Die.moreEoc []) = s := updDie_id s _ moreEoc_nil

theorem curSta_moreEoc (s : State) (l : List Eoc) : (s.updDie (Die.moreEoc l)).curSta = s.curSta := by
  rw [curSta_updDie]; rfl

theorem curCtx_moreEoc (s : State) (l : List Eoc) : (s.updDie (Die.moreEoc l)).curCtx = s.curCtx := by
  simp only [State.curCtx, curSta_moreEoc]; rfl

theorem sections_moreEoc (s : State) (l : List Eoc) : (s.updDie (Die.moreEoc l)).sections = s.sections := by
  simp only [State.sections, curSta_moreEoc, curDie_updDie]; rfl

theorem headers_moreEoc (s : State) (l : List Eoc) : (s.updDie (Die.moreEoc l)).headers = s.headers := by
  simp only [State.headers, curSta_moreEoc, curDie_updDie]; rfl

theorem cyc_moreEoc (s : State) (l : List Eoc) : (s.updDie (Die.moreEoc l)).cyc = s.cyc := by
  simp only [State.cyc, curDie_updDie]; rfl

/-- An end-of-cycle effect is deferred, and nothing else changes. -/
theorem later_defers (s : State) (e : Eoc) : Defers s (s.later e) [e] :=
  ⟨by simp only [State.later, updDie_updDie]; rfl, by simp [State.later]⟩

-- ## Steering

theorem steered_updCtx (s : State) (f : Ctx → Ctx) : (s.updCtx f).steered = s.steered := by simp [State.steered]

theorem noEoc_moreEoc (s : State) (l : List Eoc) : (s.updDie (Die.moreEoc l)).updDie Die.noEoc = s.updDie Die.noEoc := by
  rw [updDie_updDie]; rfl

theorem updCtx_moreEoc (s : State) (l : List Eoc) (f : Ctx → Ctx) :
    (s.updDie (Die.moreEoc l)).updCtx f = (s.updCtx f).updDie (Die.moreEoc l) := by
  simp only [State.updCtx, updSta_eq, updDie_updDie, updDie_focus]; rfl

theorem steered_moreEoc (s : State) (l : List Eoc) : (s.updDie (Die.moreEoc l)).steered = s.steered := by
  simp only [State.steered, updCtx_moreEoc, noEoc_moreEoc, updDie_focus]

/-- The state with the mark that its stream has moved. -/
def State.withMoved (s : State) : State := { s with focus := { s.focus with moved := true } }

theorem steered_withMoved (s : State) : s.withMoved.steered = s.steered := rfl

/-- Leaving a section leaves its retirement to the end of the cycle. -/
theorem retire_eq (s : State) (p : Nat) : s.retire p = s.updDie (Die.moreEoc (s.retirement p)) := by
  unfold State.retire State.retirement leaves
  cases hs : s.curCtx.sect with
  | none => simp [updDie_moreEoc_nil]
  | some k =>
    cases hh : s.focus.handler <;> cases hk : k.has p <;>
      simp only [hk, Bool.or_true, Bool.or_false, Bool.not_true, Bool.not_false, Bool.false_eq_true, if_true, if_false,
        updDie_moreEoc_nil]
    rfl

/-- Control goes to parcel `p`: the context's next-word state, its section where `p` begins one, and the retirement of the section
that it leaves; nothing else changes. -/
theorem goto_steers (s : State) (p : Nat) :
    Steers s (s.goto p) (nextAt s.curSta s.headers s.sections s.focus.handler s.curCtx p s.cyc s.focus.wait) p := by
  have hg : s.goto p = ((s.updDie (Die.moreEoc (s.retirement p))).updCtx (fun c =>
      nextAt s.curSta s.headers s.sections s.focus.handler c p s.cyc s.focus.wait)).withMoved := by
    unfold State.goto
    simp only [retire_eq, curSta_moreEoc, headers_moreEoc, sections_moreEoc]
    rfl
  refine ⟨?_, ?_, ?_, by rw [hg]; rfl⟩
  · rw [hg, steered_withMoved, steered_updCtx, steered_moreEoc]
  · rw [hg]
    change (State.updCtx _ _).curCtx = _
    rw [curCtx_updCtx, curCtx_moreEoc]
  · rw [hg]
    change (State.updCtx _ _).curDie.eoc = _
    rw [State.updCtx, curDie_updSta, setSta_eoc, curDie_updDie]
    rfl

/-- Changing the context of the issuing stream first does not change where control goes. -/
theorem Steers.ofCtx {s t : State} {f : Ctx → Ctx} {c : Ctx} {p : Nat} (h : Steers (s.updCtx f) t c p)
    (hs : (f s.curCtx).sect = s.curCtx.sect) : Steers s t c p :=
  { others := h.others.trans (steered_updCtx s f), context := h.context,
    retires := by
      have e : (s.updCtx f).curDie.eoc = s.curDie.eoc := by unfold State.updCtx; rw [curDie_updSta, setSta_eoc]
      rw [h.retires, e]
      simp only [State.retirement, curCtx_updCtx, hs, updCtx_focus]
      rfl
    moved := h.moved }

/-- Header places and sections are read from the plane alone. -/
theorem places_plane {x y : Station} (h : x.plane = y.plane) (st : Strm) : ∀ n p, places x st n p = places y st n p
  | 0, _ => rfl
  | n + 1, p => by
    have e : ∀ q, x.hdrAt q = y.hdrAt q := fun q => by simp only [Station.hdrAt, Station.parcelAt, h]
    simp only [places, e, places_plane h st n]

theorem headers_plane {x y : Station} (h : x.plane = y.plane) (st : Strm) (g : Hsta) (p : Pos) :
    Machine.headers x st g p = Machine.headers y st g p := by
  have e : ∀ q, x.parcelAt q = y.parcelAt q := fun q => by simp only [Station.parcelAt, h]
  have e3 : places x st 6600 = places y st 6600 := funext (places_plane h st 6600)
  simp only [Machine.headers, e, e3]

theorem sections_plane {x y : Station} (h : x.plane = y.plane) (st : Strm) (g : Hsta) (p : Pos) :
    Machine.sections x st g p = Machine.sections y st g p := by
  have e : ∀ q, x.hdrAt q = y.hdrAt q := fun q => by simp only [Station.hdrAt, Station.parcelAt, h]
  simp only [Machine.sections, headers_plane h, e]

theorem dlyAt_plane {x y : Station} (h : x.plane = y.plane) (p : Parcel) : x.dlyAt p = y.dlyAt p := by
  simp only [Station.dlyAt, Station.wordAt, Station.parcelAt, h]

theorem plane_updCtx (s : State) (f : Ctx → Ctx) : (s.updCtx f).curSta.plane = s.curSta.plane := by
  unfold State.updCtx; rw [curSta_updSta]; rfl

theorem sections_updCtx (s : State) (f : Ctx → Ctx) : (s.updCtx f).sections = s.sections := by
  simp only [State.sections]
  rw [sections_plane (plane_updCtx s f)]
  unfold State.updCtx
  rw [curDie_updSta, setSta_hsta]
  rfl

theorem headers_updCtx (s : State) (f : Ctx → Ctx) : (s.updCtx f).headers = s.headers := by
  simp only [State.headers]
  rw [headers_plane (plane_updCtx s f)]
  unfold State.updCtx
  rw [curDie_updSta, setSta_hsta]
  rfl

/-- Changing the context and then going to a word of the section or a header. -/
theorem updCtx_goto_steers (s : State) (f : Ctx → Ctx) (p : Nat) (hf : (f s.curCtx).sect = s.curCtx.sect) :
    Steers s ((s.updCtx f).goto p) (nextAt s.curSta s.headers s.sections s.focus.handler (f s.curCtx) p s.cyc s.focus.wait) p := by
  have h := (goto_steers (s.updCtx f) p).ofCtx hf
  rw [headers_updCtx, sections_updCtx, curCtx_updCtx, updCtx_focus, show (s.updCtx f).cyc = s.cyc from cyc_updSta ..] at h
  have e : nextAt (s.updCtx f).curSta s.headers s.sections s.focus.handler (f s.curCtx) p s.cyc s.focus.wait =
      nextAt s.curSta s.headers s.sections s.focus.handler (f s.curCtx) p s.cyc s.focus.wait := by
    simp only [nextAt, dlyAt_plane (plane_updCtx s f)]
  rw [e] at h
  exact h

/-- Where control goes to a word of the section or to a header. -/
theorem nextAt_target (s : State) (c : Ctx) (p : Nat) (hc : c.sect = s.curCtx.sect)
    (h : (∃ k, s.curCtx.sect = some k ∧ (k.has p = true ∨ p = k.stop)) ∨ s.headers.any (·.toNat == p) = true ∨
      s.curCtx.sect = none) :
    nextAt s.curSta s.headers s.sections s.focus.handler c p s.cyc s.focus.wait = { c with next := s.target p } := by
  unfold nextAt State.target
  rw [hc]
  cases hs : s.curCtx.sect with
  | none => rfl
  | some k =>
    simp only
    cases hk : k.has p with
    | true => rfl
    | false =>
      have : p = k.stop ∨ s.headers.any (·.toNat == p) = true := by
        rcases h with ⟨k', h1, h2⟩ | h | h
        · rw [hs] at h1; cases h1; rcases h2 with h2 | h2
          · rw [hk] at h2; cases h2
          · exact .inl h2
        · exact .inr h
        · rw [hs] at h; cases h
      simp only [Bool.false_eq_true, if_false]
      rw [if_pos (by simpa using this)]

end Sys2Proof.Machine
end

