-- ==== Sys2Proof/Laws/Far.lean ====
section
/-! SUPPORT. What the accesses of far memory that are made at once change, and what the notes of RDVT and of an access do. -/

namespace Sys2Proof.Machine

/-- `t` differs from `s` in far memory, the far sides and the older values alone. -/
def FarOnly (s t : State) : Prop := { t with far := s.far, mem := s.mem, olds := s.olds } = s

theorem FarOnly.refl (s : State) : FarOnly s s := rfl

theorem FarOnly.trans {s t u : State} (h : FarOnly s t) (k : FarOnly t u) : FarOnly s u := by
  have hk := congrArg (fun x : State => { x with far := s.far, mem := s.mem, olds := s.olds }) k
  exact hk.trans h

/-- What is the same then. -/
theorem FarOnly.die {s t : State} (h : FarOnly s t) (d : DieId) : t.die d = s.die d := congrArg (·.die d) h

theorem FarOnly.hub {s t : State} (h : FarOnly s t) : t.hub = s.hub := by
  unfold FarOnly at h
  rw [← h]

theorem FarOnly.hostMem {s t : State} (h : FarOnly s t) : t.hostMem = s.hostMem := by
  unfold FarOnly at h
  rw [← h]

theorem FarOnly.sidc {s t : State} (h : FarOnly s t) : t.sidc = s.sidc := by
  unfold FarOnly at h
  rw [← h]

theorem setFs_farOnly (s : State) (d : DieId) (f : FarSide) : FarOnly s (s.setFs d f) := rfl

theorem dlaTouch_farOnly (s : State) (h : DieId) (dla n : Nat) : FarOnly s (s.dlaTouch h dla n) := rfl

theorem dlaPut_farOnly (s : State) (h : DieId) (dla : Nat) (l : List Byte) : FarOnly s (s.dlaPut h dla l) := rfl

/-- A whole granule read or written changes far memory and its home alone. -/
theorem granule_farOnly (s u : State) (d : DieId) (va : Nat) (op : FarOp) (r : Row) (h : s.granule d va op = .ok u r) : FarOnly s u := by
  unfold State.granule State.atHome at h
  split at h
  · dsimp only at h
    split at h
    · injection h with h _
      subst h
      rfl
    · cases h
  · cases h
  · cases h

/-- So do the reads of an image's body, and the granules of it that are written again. -/
theorem bodyRows_farOnly (d : DieId) (va : Nat) : ∀ n off (s : State), FarOnly s (s.bodyRows d va n off).1 := by
  intro n
  induction n with
  | zero => exact fun _ _ => FarOnly.refl _
  | succ n ih =>
    intro off s
    simp only [State.bodyRows]
    split
    · next t r h => exact (granule_farOnly _ _ _ _ _ _ h).trans (ih _ t)
    · exact FarOnly.refl _
    · exact FarOnly.refl _

theorem restow_farOnly (d : DieId) (dm : List Nat) (va : Nat) : ∀ n off (s : State), FarOnly s (s.restow d dm va n off).1 := by
  intro n
  induction n with
  | zero => exact fun _ _ => FarOnly.refl _
  | succ n ih =>
    intro off s
    simp only [State.restow]
    split
    · next u old h =>
      have hu := granule_farOnly _ _ _ _ _ _ h
      split
      · exact hu.trans (ih _ u)
      · split
        · next t _ k => exact (hu.trans (granule_farOnly _ _ _ _ _ _ k)).trans (ih _ t)
        · exact hu
    · exact FarOnly.refl _

/-- A granule has had its access of the cycle exactly when the last access was of it, or it had had it before (R255). -/
theorem isTouched_touch (f : FarSide) (t dla g : Nat) : (f.touch t dla).isTouched t g = (g == dla / 256 || f.isTouched t g) := by
  by_cases h : f.touchedAt = t <;> simp [FarSide.touch, FarSide.isTouched, h, Bool.beq_eq_decide_eq]

-- ## The notes of RDVT

@[simp] theorem testedPhase_focus (s : State) (pt : Nat) (b : Bool) : (s.testedPhase pt b).focus = s.focus := rfl
@[simp] theorem testedPhase_mem (s : State) (pt : Nat) (b : Bool) : (s.testedPhase pt b).mem = s.mem := rfl
@[simp] theorem testedPhase_hostMem (s : State) (pt : Nat) (b : Bool) : (s.testedPhase pt b).hostMem = s.hostMem := rfl
@[simp] theorem testedPhase_hub (s : State) (pt : Nat) (b : Bool) : (s.testedPhase pt b).hub = s.hub := rfl
@[simp] theorem testedPhase_curSta (s : State) (pt : Nat) (b : Bool) : (s.testedPhase pt b).curSta = s.curSta := by
  simp [State.testedPhase, curSta_updDie]; rfl

/-- RDVT leaves a note of a phase that it has shown, and RDVW none (R246). -/
theorem mem_testedPhase (s : State) (pt : Nat) (b : Bool) (e : TestRec) : e ∈ (s.testedPhase pt b).curDie.tested ↔
    (e ∈ s.curDie.tested ∧ ¬(e.pos = s.focus.pos ∧ e.strm = s.focus.strm ∧ e.pt = pt)) ∨
      (b = true ∧ e = { pos := s.focus.pos, strm := s.focus.strm, pt := pt, at_ := s.sidc }) := by
  cases b <;> simp [State.testedPhase] <;> tauto

-- ## The notes of the words of which the array takes one a cycle (R190)

@[simp] theorem markOnce_mem (s : State) (k : OnceKind) : (s.markOnce k).mem = s.mem := rfl
@[simp] theorem markOnce_focus (s : State) (k : OnceKind) : (s.markOnce k).focus = s.focus := rfl
@[simp] theorem markOnce_hub (s : State) (k : OnceKind) : (s.markOnce k).hub = s.hub := rfl

end Sys2Proof.Machine
end

