-- ==== Sys2Proof/Laws/PerInstr.lean ====
section
/-! SUPPORT. Per instruction: the opcode of a well-formed instruction's word belongs to the stream that holds it (R58 to R61). -/

namespace Sys2Proof.Laws.Encoding

open Sys2Proof

/-- The opcode that encodes the instruction is one of each stream that can hold it. -/
def Statement (i : Instr) : Prop :=
  ∀ st, i.wf st = true → ∃ sts, opcStreams (encodeFields i).opc = some sts ∧ st ∈ sts

/-- A word of every stream. -/
theorem of_all {i : Instr} (ho : opcStreams (encodeFields i).opc = some [.c, .l, .s, .x]) : Statement i :=
  fun st _ => ⟨_, ho, by cases st <;> decide⟩

/-- A word of the C stream alone. -/
theorem of_c {i : Instr} (ho : opcStreams (encodeFields i).opc = some [.c]) (hl : i.wf .l = false) (hs : i.wf .s = false)
    (hx : i.wf .x = false) : Statement i :=
  fun st h => ⟨_, ho, by cases st <;> simp_all⟩

/-- A word of the L stream alone. -/
theorem of_l {i : Instr} (ho : opcStreams (encodeFields i).opc = some [.l]) (hc : i.wf .c = false) (hs : i.wf .s = false)
    (hx : i.wf .x = false) : Statement i :=
  fun st h => ⟨_, ho, by cases st <;> simp_all⟩

/-- A word of the S stream alone. -/
theorem of_s {i : Instr} (ho : opcStreams (encodeFields i).opc = some [.s]) (hc : i.wf .c = false) (hl : i.wf .l = false)
    (hx : i.wf .x = false) : Statement i :=
  fun st h => ⟨_, ho, by cases st <;> simp_all⟩

/-- A word of the L and S streams. -/
theorem of_ls {i : Instr} (ho : opcStreams (encodeFields i).opc = some [.l, .s]) (hc : i.wf .c = false) (hx : i.wf .x = false) :
    Statement i :=
  fun st h => ⟨_, ho, by cases st <;> simp_all⟩

/-- A word of the X stream alone. -/
theorem of_x {i : Instr} (ho : opcStreams (encodeFields i).opc = some [.x]) (hc : i.wf .c = false) (hl : i.wf .l = false)
    (hs : i.wf .s = false) : Statement i :=
  fun st h => ⟨_, ho, by cases st <;> simp_all⟩

/-- A step of the part has no word. -/
theorem of_none {i : Instr} (h : ∀ st, i.wf st = false) : Statement i := fun st w => by simp [h st] at w

theorem nop : Statement (.nop) :=
  of_all rfl

theorem waitc (cnt : BitVec 24) : Statement (.waitc cnt) :=
  of_all rfl

theorem pbr (d : BitVec 3) (t : PTarget) : Statement (.pbr d t) :=
  match t with
  | .off _ => of_all rfl
  | .ind _ => of_all rfl

theorem br (a : BitVec 3) : Statement (.br a) :=
  of_all rfl

theorem call (a : BitVec 3) : Statement (.call a) :=
  of_all rfl

theorem ret : Statement (.ret) :=
  of_all rfl

theorem loop (rot : Bool) (n : Count) (off : BitVec 24) : Statement (.loop rot n off) :=
  match n with
  | .cnt _ => of_all rfl
  | .reg _ => of_all rfl

theorem align (late : Bool) (t : Wide) : Statement (.align late t) :=
  match t with
  | .imm _ => of_all rfl
  | .reg _ _ => of_all rfl

theorem cairn (v : BitVec 48) : Statement (.cairn v) :=
  of_all rfl

theorem qop (tt : BitVec 4) (d : BitVec 3) (a : BitVec 3) (b : BitVec 3) : Statement (.qop tt d a b) :=
  of_all rfl

theorem csrr (d : CsrReg) (n : BitVec 12) : Statement (.csrr d n) :=
  of_all rfl

theorem csrw (a : CsrReg) (n : BitVec 12) : Statement (.csrw a n) :=
  of_all rfl

theorem trap (n : BitVec 3) : Statement (.trap n) :=
  of_all rfl

theorem exit : Statement (.exit) :=
  of_all rfl

theorem fence (set : FSet) (scope : FScope) : Statement (.fence set scope) :=
  of_all rfl

theorem rdvi (pt : BitVec 5) (b : SOp) : Statement (.rdvi pt b) :=
  of_all rfl

theorem rdva (pt : BitVec 5) : Statement (.rdva pt) :=
  of_all rfl

theorem rdvw (pt : BitVec 5) (d : BitVec 3) : Statement (.rdvw pt d) :=
  of_all rfl

theorem rdvt (pt : BitVec 5) (d : BitVec 3) : Statement (.rdvt pt d) :=
  of_all rfl

theorem add (d : BitVec 6) (a : Scal) (b : SOp) : Statement (.add d a b) :=
  of_c rfl rfl rfl rfl

theorem sub (d : BitVec 6) (a : Scal) (b : SOp) : Statement (.sub d a b) :=
  of_c rfl rfl rfl rfl

theorem mul (d : BitVec 6) (a : Scal) (b : SOp) : Statement (.mul d a b) :=
  of_c rfl rfl rfl rfl

theorem mulh (u : Bool) (d : BitVec 6) (a : Scal) (b : SOp) : Statement (.mulh u d a b) :=
  of_c rfl rfl rfl rfl

theorem div (u : Bool) (d : BitVec 6) (a : Scal) (b : SOp) : Statement (.div u d a b) :=
  of_c rfl rfl rfl rfl

theorem rem (u : Bool) (d : BitVec 6) (a : Scal) (b : SOp) : Statement (.rem u d a b) :=
  of_c rfl rfl rfl rfl

theorem and (d : BitVec 6) (a : Scal) (b : SOp) : Statement (.and d a b) :=
  of_c rfl rfl rfl rfl

theorem or (d : BitVec 6) (a : Scal) (b : SOp) : Statement (.or d a b) :=
  of_c rfl rfl rfl rfl

theorem xor (d : BitVec 6) (a : Scal) (b : SOp) : Statement (.xor d a b) :=
  of_c rfl rfl rfl rfl

theorem andn (d : BitVec 6) (a : Scal) (b : SOp) : Statement (.andn d a b) :=
  of_c rfl rfl rfl rfl

theorem shl (d : BitVec 6) (a : Scal) (b : SOp) : Statement (.shl d a b) :=
  of_c rfl rfl rfl rfl

theorem shr (d : BitVec 6) (a : Scal) (b : SOp) : Statement (.shr d a b) :=
  of_c rfl rfl rfl rfl

theorem sra (d : BitVec 6) (a : Scal) (b : SOp) : Statement (.sra d a b) :=
  of_c rfl rfl rfl rfl

theorem rol (d : BitVec 6) (a : Scal) (b : SOp) : Statement (.rol d a b) :=
  of_c rfl rfl rfl rfl

theorem min (u : Bool) (d : BitVec 6) (a : Scal) (b : SOp) : Statement (.min u d a b) :=
  of_c rfl rfl rfl rfl

theorem max (u : Bool) (d : BitVec 6) (a : Scal) (b : SOp) : Statement (.max u d a b) :=
  of_c rfl rfl rfl rfl

theorem clz (d : BitVec 6) (a : Scal) : Statement (.clz d a) :=
  of_c rfl rfl rfl rfl

theorem popc (d : BitVec 6) (a : Scal) : Statement (.popc d a) :=
  of_c rfl rfl rfl rfl

theorem sel (d : BitVec 6) (a : Scal) (b : SOp) (c : BitVec 3) : Statement (.sel d a b c) :=
  of_c rfl rfl rfl rfl

theorem cmp (cond : Cond) (d : BitVec 3) (a : Scal) (b : SOp) : Statement (.cmp cond d a b) :=
  of_c rfl rfl rfl rfl

theorem movi (d : BitVec 6) (v : BitVec 48) : Statement (.movi d v) :=
  of_c rfl rfl rfl rfl

theorem movhi (d : BitVec 6) (v : BitVec 16) : Statement (.movhi d v) :=
  of_c rfl rfl rfl rfl

theorem bext (sx : Bool) (d : BitVec 6) (a : Scal) (wm1 : BitVec 6) (p : BitVec 6) : Statement (.bext sx d a wm1 p) :=
  of_c rfl rfl rfl rfl

theorem bins (d : BitVec 6) (a : Scal) (wm1 : BitVec 6) (p : BitVec 6) : Statement (.bins d a wm1 p) :=
  of_c rfl rfl rfl rfl

theorem fadd (rnd : Rnd) (d : BitVec 6) (a : Scal) (b : SOp) : Statement (.fadd rnd d a b) :=
  of_c rfl rfl rfl rfl

theorem fmul (rnd : Rnd) (d : BitVec 6) (a : Scal) (b : SOp) : Statement (.fmul rnd d a b) :=
  of_c rfl rfl rfl rfl

theorem ffma (rnd : Rnd) (d : BitVec 6) (a : Scal) (b : SOp) (c : Scal) : Statement (.ffma rnd d a b c) :=
  of_c rfl rfl rfl rfl

theorem fcmp (cond : Cond) (d : BitVec 3) (a : Scal) (b : SOp) : Statement (.fcmp cond d a b) :=
  of_c rfl rfl rfl rfl

theorem fcvt (src : Ty) (dst : Ty) (rnd : Rnd) (sat : Bool) (d : BitVec 6) (a : Scal) : Statement (.fcvt src dst rnd sat d a) :=
  of_c rfl rfl rfl rfl

theorem fmnx (mx : Bool) (d : BitVec 6) (a : Scal) (b : SOp) : Statement (.fmnx mx d a b) :=
  of_c rfl rfl rfl rfl

theorem sld (d : BitVec 6) (a : Scal) (v : W32) : Statement (.sld d a v) :=
  of_c rfl rfl rfl rfl

theorem sst (a : Scal) (b : Scal) (v : W32) : Statement (.sst a b v) :=
  of_c rfl rfl rfl rfl

theorem trig (handle : BitVec 4) (ctr : BitVec 8) : Statement (.trig handle ctr) :=
  of_c rfl rfl rfl rfl

theorem awin (w : WinOp) : Statement (.awin w) :=
  match w with
  | .imm _ => of_c rfl rfl rfl rfl
  | .reg _ => of_c rfl rfl rfl rfl

theorem amode (fimg : Fimg) (gnan : Gnan) : Statement (.amode fimg gnan) :=
  of_c rfl rfl rfl rfl

theorem admitWork (kind : FKind) (pane : Bool) (m : Count) : Statement (.admitWork kind pane m) :=
  match m with
  | .cnt _ => of_c rfl rfl rfl rfl
  | .reg _ => of_c rfl rfl rfl rfl

theorem seat (img : Img) (pane : Bool) : Statement (.seat img pane) :=
  of_c rfl rfl rfl rfl

theorem lift (clr : Bool) : Statement (.lift clr) :=
  of_c rfl rfl rfl rfl

theorem acclr (north : Bool) (base : BitVec 16) : Statement (.acclr north base) :=
  of_c rfl rfl rfl rfl

theorem acnorm (north : Bool) : Statement (.acnorm north) :=
  of_c rfl rfl rfl rfl

theorem frzrd (d : BitVec 6) (a : Scal) (v : W32) : Statement (.frzrd d a v) :=
  of_c rfl rfl rfl rfl

theorem frzwr (a : Scal) (b : Scal) (v : W32) : Statement (.frzwr a b v) :=
  of_c rfl rfl rfl rfl

theorem resume : Statement (.resume) :=
  of_c rfl rfl rfl rfl

theorem stow (a : Scal) : Statement (.stow a) :=
  of_c rfl rfl rfl rfl

theorem unstow (a : Scal) : Statement (.unstow a) :=
  of_c rfl rfl rfl rfl

theorem turn (dn : Bool) (timed : Bool) (at_ : Option Scal) (link : BitVec 3) (group : BitVec 4) : Statement (.turn dn timed at_ link group) :=
  match at_ with
  | none => of_c rfl rfl rfl rfl
  | some _ => of_c rfl rfl rfl rfl

theorem laneq (d : BitVec 6) (link : BitVec 3) (entry : BitVec 3) : Statement (.laneq d link entry) :=
  of_c rfl rfl rfl rfl

theorem aadd (d : BitVec 6) (a : Scal) (b : SOp) : Statement (.aadd d a b) :=
  of_ls rfl rfl rfl

theorem asub (d : BitVec 6) (a : Scal) (b : SOp) : Statement (.asub d a b) :=
  of_ls rfl rfl rfl

theorem amul (d : BitVec 6) (a : Scal) (b : SOp) : Statement (.amul d a b) :=
  of_ls rfl rfl rfl

theorem amovi (d : BitVec 6) (v : BitVec 48) : Statement (.amovi d v) :=
  of_ls rfl rfl rfl

theorem ashl (d : BitVec 6) (a : Scal) (b : SOp) : Statement (.ashl d a b) :=
  of_ls rfl rfl rfl

theorem aand (d : BitVec 6) (a : Scal) (b : SOp) : Statement (.aand d a b) :=
  of_ls rfl rfl rfl

theorem acmp (cond : Cond) (d : BitVec 3) (a : Scal) (b : SOp) : Statement (.acmp cond d a b) :=
  of_ls rfl rfl rfl

theorem bld (nr : BitVec 4) (d : BitVec 5) (a : Scal) (roff : BitVec 24) (vrow : BitVec 4) : Statement (.bld nr d a roff vrow) :=
  of_l rfl rfl rfl rfl

theorem bldb (nr : BitVec 4) (d : BitVec 5) (a : Scal) (roff : BitVec 24) (vrow : BitVec 4) : Statement (.bldb nr d a roff vrow) :=
  of_l rfl rfl rfl rfl

theorem bldc (nr : BitVec 4) (d : BitVec 5) (a : Scal) (roff : BitVec 24) (vrow : BitVec 4) : Statement (.bldc nr d a roff vrow) :=
  of_l rfl rfl rfl rfl

theorem ald (d : BitVec 6) (a : Scal) (v : W32) : Statement (.ald d a v) :=
  of_l rfl rfl rfl rfl

theorem fqpush (q : BitVec 3) (a : Scal) (row : BitVec 4) (nw : BitVec 6) (off : BitVec 22) : Statement (.fqpush q a row nw off) :=
  of_l rfl rfl rfl rfl

theorem fqpop (d : BitVec 5) (q : BitVec 3) : Statement (.fqpop d q) :=
  of_l rfl rfl rfl rfl

theorem haul (af : Bool) (pt : Option (BitVec 5)) (rnd : Rnd) (d : Scal) (a : Scal) (b : Scal) : Statement (.haul af pt rnd d a b) :=
  match pt with
  | none => of_l rfl rfl rfl rfl
  | some _ => of_l rfl rfl rfl rfl

theorem edgeset (e : BitVec 2) (a : Scal) (v : W32) : Statement (.edgeset e a v) :=
  of_l rfl rfl rfl rfl

theorem bufdecl (v : W32) : Statement (.bufdecl v) :=
  of_l rfl rfl rfl rfl

theorem bufset (full : Bool) (bd : BitVec 4) : Statement (.bufset full bd) :=
  of_l rfl rfl rfl rfl

theorem bankfmt (bank : BitVec 3) (ty : BitVec 4) (srow : BitVec 7) : Statement (.bankfmt bank ty srow) :=
  of_l rfl rfl rfl rfl

theorem rld (nr : BitVec 4) (d : BitVec 5) (a : Scal) (vrow : BitVec 4) : Statement (.rld nr d a vrow) :=
  of_l rfl rfl rfl rfl

theorem bst (nr : BitVec 4) (a : Scal) (b : BitVec 5) (roff : BitVec 24) (vrow : BitVec 4) : Statement (.bst nr a b roff vrow) :=
  of_s rfl rfl rfl rfl

theorem ast (a : Scal) (b : Scal) (v : W32) : Statement (.ast a b v) :=
  of_s rfl rfl rfl rfl

theorem fst (a : Scal) (b : BitVec 5) (row : BitVec 4) (nw : BitVec 6) (off : BitVec 22) : Statement (.fst a b row nw off) :=
  of_s rfl rfl rfl rfl

theorem amo (op : AmoOp) (q : BitVec 3) (a : Scal) (b : Scal) (c : Scal) : Statement (.amo op q a b c) :=
  of_s rfl rfl rfl rfl

theorem amon (op : AmoOp) (a : Scal) (b : Scal) (c : Scal) : Statement (.amon op a b c) :=
  of_s rfl rfl rfl rfl

theorem amosc (op : AmoOp) (q : BitVec 3) (a : Scal) (b : Scal) (c : Scal) : Statement (.amosc op q a b c) :=
  of_s rfl rfl rfl rfl

theorem rst (nr : BitVec 4) (a : Scal) (b : BitVec 5) (vrow : BitVec 4) : Statement (.rst nr a b vrow) :=
  of_s rfl rfl rfl rfl

theorem vadd (ty : Ty) (rnd : Rnd) (sat : Bool) (mask : BitVec 3) (d : BitVec 5) (a : BitVec 5) (b : VOp) : Statement (.vadd ty rnd sat mask d a b) :=
  of_x rfl rfl rfl rfl

theorem vsub (ty : Ty) (rnd : Rnd) (sat : Bool) (mask : BitVec 3) (d : BitVec 5) (a : BitVec 5) (b : VOp) : Statement (.vsub ty rnd sat mask d a b) :=
  of_x rfl rfl rfl rfl

theorem vmul (ty : Ty) (rnd : Rnd) (sat : Bool) (mask : BitVec 3) (d : BitVec 5) (a : BitVec 5) (b : VOp) : Statement (.vmul ty rnd sat mask d a b) :=
  of_x rfl rfl rfl rfl

theorem vfma (rnd : Rnd) (mask : BitVec 3) (d : BitVec 5) (a : BitVec 5) (b : VOp) (c : BitVec 5) : Statement (.vfma rnd mask d a b c) :=
  of_x rfl rfl rfl rfl

theorem vmin (ty : Ty) (mask : BitVec 3) (d : BitVec 5) (a : BitVec 5) (b : VOp) : Statement (.vmin ty mask d a b) :=
  of_x rfl rfl rfl rfl

theorem vmax (ty : Ty) (mask : BitVec 3) (d : BitVec 5) (a : BitVec 5) (b : VOp) : Statement (.vmax ty mask d a b) :=
  of_x rfl rfl rfl rfl

theorem vabs (ty : Ty) (sat : Bool) (mask : BitVec 3) (d : BitVec 5) (a : BitVec 5) : Statement (.vabs ty sat mask d a) :=
  of_x rfl rfl rfl rfl

theorem vneg (ty : Ty) (sat : Bool) (mask : BitVec 3) (d : BitVec 5) (a : BitVec 5) : Statement (.vneg ty sat mask d a) :=
  of_x rfl rfl rfl rfl

theorem vcmp (ty : Ty) (mask : BitVec 3) (cond : Cond) (d : BitVec 3) (a : BitVec 5) (b : VOp) : Statement (.vcmp ty mask cond d a b) :=
  of_x rfl rfl rfl rfl

theorem vsel (mask : BitVec 3) (d : BitVec 5) (a : BitVec 5) (b : VOp) : Statement (.vsel mask d a b) :=
  of_x rfl rfl rfl rfl

theorem vmov (mask : BitVec 3) (d : BitVec 5) (a : BitVec 5) : Statement (.vmov mask d a) :=
  of_x rfl rfl rfl rfl

theorem vsplat (ty : Ty) (mask : BitVec 3) (d : BitVec 5) (b : SOp) : Statement (.vsplat ty mask d b) :=
  of_x rfl rfl rfl rfl

theorem vand (mask : BitVec 3) (d : BitVec 5) (a : BitVec 5) (b : VOp) : Statement (.vand mask d a b) :=
  of_x rfl rfl rfl rfl

theorem vor (mask : BitVec 3) (d : BitVec 5) (a : BitVec 5) (b : VOp) : Statement (.vor mask d a b) :=
  of_x rfl rfl rfl rfl

theorem vxor (mask : BitVec 3) (d : BitVec 5) (a : BitVec 5) (b : VOp) : Statement (.vxor mask d a b) :=
  of_x rfl rfl rfl rfl

theorem vshl (mask : BitVec 3) (d : BitVec 5) (a : BitVec 5) (b : VOp) : Statement (.vshl mask d a b) :=
  of_x rfl rfl rfl rfl

theorem vshr (mask : BitVec 3) (d : BitVec 5) (a : BitVec 5) (b : VOp) : Statement (.vshr mask d a b) :=
  of_x rfl rfl rfl rfl

theorem vsra (mask : BitVec 3) (d : BitVec 5) (a : BitVec 5) (b : VOp) : Statement (.vsra mask d a b) :=
  of_x rfl rfl rfl rfl

theorem vcvt (src : Ty) (dst : Ty) (rnd : Rnd) (sat : Bool) (d : BitVec 5) (a : BitVec 5) : Statement (.vcvt src dst rnd sat d a) :=
  of_x rfl rfl rfl rfl

theorem vqnt (fmt : Fimg) (rnd : Rnd) (col : Bool) (d : BitVec 5) (a : BitVec 5) (c : BitVec 5) : Statement (.vqnt fmt rnd col d a c) :=
  of_x rfl rfl rfl rfl

theorem vdqnt (fmt : Fimg) (col : Bool) (d : BitVec 5) (a : BitVec 5) (b : BitVec 5) : Statement (.vdqnt fmt col d a b) :=
  of_x rfl rfl rfl rfl

theorem vpack (w : Wid) (d : BitVec 5) (a : BitVec 5) : Statement (.vpack w d a) :=
  of_x rfl rfl rfl rfl

theorem vunpk (w : Wid) (d : BitVec 5) (a : BitVec 5) : Statement (.vunpk w d a) :=
  of_x rfl rfl rfl rfl

theorem vrotr (mask : BitVec 3) (d : BitVec 5) (a : BitVec 5) (b : VOp) : Statement (.vrotr mask d a b) :=
  of_x rfl rfl rfl rfl

theorem vrotc (mask : BitVec 3) (d : BitVec 5) (a : BitVec 5) (b : VOp) : Statement (.vrotc mask d a b) :=
  of_x rfl rfl rfl rfl

theorem vbcr (mask : BitVec 3) (d : BitVec 5) (a : BitVec 5) (b : VOp) : Statement (.vbcr mask d a b) :=
  of_x rfl rfl rfl rfl

theorem vbcc (mask : BitVec 3) (d : BitVec 5) (a : BitVec 5) (b : VOp) : Statement (.vbcc mask d a b) :=
  of_x rfl rfl rfl rfl

theorem vredr (op : RedOp) (ty : Ty) (rnd : Rnd) (mask : BitVec 3) (d : BitVec 5) (a : BitVec 5) : Statement (.vredr op ty rnd mask d a) :=
  of_x rfl rfl rfl rfl

theorem vredc (op : RedOp) (ty : Ty) (rnd : Rnd) (mask : BitVec 3) (d : BitVec 5) (a : BitVec 5) : Statement (.vredc op ty rnd mask d a) :=
  of_x rfl rfl rfl rfl

theorem vtrn (mask : BitVec 3) (d : BitVec 5) (a : BitVec 5) : Statement (.vtrn mask d a) :=
  of_x rfl rfl rfl rfl

theorem vexp2 (mask : BitVec 3) (d : BitVec 5) (a : BitVec 5) : Statement (.vexp2 mask d a) :=
  of_x rfl rfl rfl rfl

theorem vlog2 (mask : BitVec 3) (d : BitVec 5) (a : BitVec 5) : Statement (.vlog2 mask d a) :=
  of_x rfl rfl rfl rfl

theorem vrcp (mask : BitVec 3) (d : BitVec 5) (a : BitVec 5) : Statement (.vrcp mask d a) :=
  of_x rfl rfl rfl rfl

theorem vrsq (mask : BitVec 3) (d : BitVec 5) (a : BitVec 5) : Statement (.vrsq mask d a) :=
  of_x rfl rfl rfl rfl

theorem vtanh (mask : BitVec 3) (d : BitVec 5) (a : BitVec 5) : Statement (.vtanh mask d a) :=
  of_x rfl rfl rfl rfl

theorem vsincos (mask : BitVec 3) (d : BitVec 5) (a : BitVec 5) (c : BitVec 5) : Statement (.vsincos mask d a c) :=
  of_x rfl rfl rfl rfl

theorem vrnd (ty : Ty) (rnd : Rnd) (sat : Bool) (mask : BitVec 3) (d : BitVec 5) (a : BitVec 5) : Statement (.vrnd ty rnd sat mask d a) :=
  of_x rfl rfl rfl rfl

theorem vdrop (mask : BitVec 3) (d : BitVec 5) (a : BitVec 5) (b : VOp) : Statement (.vdrop mask d a b) :=
  of_x rfl rfl rfl rfl

theorem mop (tt : BitVec 4) (d : BitVec 3) (a : BitVec 3) (b : BitVec 3) : Statement (.mop tt d a b) :=
  of_x rfl rfl rfl rfl

theorem vidx (col : Bool) (d : BitVec 5) : Statement (.vidx col d) :=
  of_x rfl rfl rfl rfl

theorem vfclass (mask : BitVec 3) (d : BitVec 5) (a : BitVec 5) : Statement (.vfclass mask d a) :=
  of_x rfl rfl rfl rfl

theorem rdrv (lane : BitVec 4) (a : BitVec 5) (hops : BitVec 7) (row : BitVec 4) : Statement (.rdrv lane a hops row) :=
  of_x rfl rfl rfl rfl

theorem rtap (d : BitVec 5) (lane : BitVec 4) (row : BitVec 4) : Statement (.rtap d lane row) :=
  of_x rfl rfl rfl rfl

theorem cav (op : CavOp) (slot : BitVec 2) (d : BitVec 5) (a : BitVec 5) (b : BitVec 4) (anchor : BitVec 7) (vrow : BitVec 4) : Statement (.cav op slot d a b anchor vrow) :=
  of_x rfl rfl rfl rfl

theorem cavd (op : CavOp) (slot : BitVec 2) (d : BitVec 5) (a : BitVec 5) (vrow : BitVec 4) : Statement (.cavd op slot d a vrow) :=
  of_x rfl rfl rfl rfl

theorem acrd (bf16 : Bool) (rnd : Rnd) (north : Bool) (d : BitVec 5) (clr : Bool) (half : Bool) (vrow : BitVec 4) : Statement (.acrd bf16 rnd north d clr half vrow) :=
  of_x rfl rfl rfl rfl

theorem acwr (north : Bool) (a : BitVec 5) (half : Bool) (vrow : BitVec 4) : Statement (.acwr north a half vrow) :=
  of_x rfl rfl rfl rfl

theorem rotset (dn : BitVec 5) : Statement (.rotset dn) :=
  of_x rfl rfl rfl rfl

theorem dieCycle (d : DieId) : Statement (.dieCycle d) :=
  of_none fun _ => rfl

theorem sectionHeader (d : DieId) (p : Pos) (st : Strm) : Statement (.sectionHeader d p st) :=
  of_none fun _ => rfl

theorem farWait (d : DieId) : Statement (.farWait d) :=
  of_none fun _ => rfl

theorem alignmentWaitEnd (d : DieId) : Statement (.alignmentWaitEnd d) :=
  of_none fun _ => rfl

theorem writeLand (d : DieId) : Statement (.writeLand d) :=
  of_none fun _ => rfl

theorem bankPortAAccess (d : DieId) : Statement (.bankPortAAccess d) :=
  of_none fun _ => rfl

theorem ringItemEntry (d : DieId) : Statement (.ringItemEntry d) :=
  of_none fun _ => rfl

theorem frontAdmit (d : DieId) : Statement (.frontAdmit d) :=
  of_none fun _ => rfl

theorem edgePointerAdvance (d : DieId) : Statement (.edgePointerAdvance d) :=
  of_none fun _ => rfl

theorem frontTransit (d : DieId) : Statement (.frontTransit d) :=
  of_none fun _ => rfl

theorem seatCommit (d : DieId) : Statement (.seatCommit d) :=
  of_none fun _ => rfl

theorem liftCapture (d : DieId) : Statement (.liftCapture d) :=
  of_none fun _ => rfl

theorem accumulatorCycle (d : DieId) : Statement (.accumulatorCycle d) :=
  of_none fun _ => rfl

theorem cavitySweepCheck (d : DieId) : Statement (.cavitySweepCheck d) :=
  of_none fun _ => rfl

theorem cavitySweepDrive (d : DieId) : Statement (.cavitySweepDrive d) :=
  of_none fun _ => rfl

theorem cavityResult (d : DieId) : Statement (.cavityResult d) :=
  of_none fun _ => rfl

theorem cavdSweepArrival (d : DieId) : Statement (.cavdSweepArrival d) :=
  of_none fun _ => rfl

theorem tlbWalkRead (d : DieId) : Statement (.tlbWalkRead d) :=
  of_none fun _ => rfl

theorem requestDepart (d : DieId) : Statement (.requestDepart d) :=
  of_none fun _ => rfl

theorem farAccessPerform (d : DieId) : Statement (.farAccessPerform d) :=
  of_none fun _ => rfl

theorem amoscPerform (d : DieId) : Statement (.amoscPerform d) :=
  of_none fun _ => rfl

theorem wheelMarkSend (d : DieId) : Statement (.wheelMarkSend d) :=
  of_none fun _ => rfl

theorem wheelMarkArrive (d : DieId) : Statement (.wheelMarkArrive d) :=
  of_none fun _ => rfl

theorem responseArrival (d : DieId) : Statement (.responseArrival d) :=
  of_none fun _ => rfl

theorem errorResponse (d : DieId) : Statement (.errorResponse d) :=
  of_none fun _ => rfl

theorem haulGranuleStart (d : DieId) : Statement (.haulGranuleStart d) :=
  of_none fun _ => rfl

theorem haulPortBRead (d : DieId) : Statement (.haulPortBRead d) :=
  of_none fun _ => rfl

theorem haulPortBWrite (d : DieId) : Statement (.haulPortBWrite d) :=
  of_none fun _ => rfl

theorem haulComplete (d : DieId) : Statement (.haulComplete d) :=
  of_none fun _ => rfl

theorem rdvaArrival (d : DieId) : Statement (.rdvaArrival d) :=
  of_none fun _ => rfl

theorem arrivalCount (d : DieId) : Statement (.arrivalCount d) :=
  of_none fun _ => rfl

theorem phasePropagate (d : DieId) : Statement (.phasePropagate d) :=
  of_none fun _ => rfl

theorem rdviApply (d : DieId) : Statement (.rdviApply d) :=
  of_none fun _ => rfl

theorem trigRelease (d : DieId) : Statement (.trigRelease d) :=
  of_none fun _ => rfl

theorem turnEffect (l : Fin 6) : Statement (.turnEffect l) :=
  of_none fun _ => rfl

theorem deadTimeEnd (l : Fin 6) : Statement (.deadTimeEnd l) :=
  of_none fun _ => rfl

theorem packetTake : Statement (.packetTake) :=
  of_none fun _ => rfl

theorem launch (q : Fin 32) : Statement (.launch q) :=
  of_none fun _ => rfl

theorem graphLoad (q : Fin 32) : Statement (.graphLoad q) :=
  of_none fun _ => rfl

theorem graphRun (q : Fin 32) : Statement (.graphRun q) :=
  of_none fun _ => rfl

theorem wait (q : Fin 32) : Statement (.wait q) :=
  of_none fun _ => rfl

theorem signal (q : Fin 32) : Statement (.signal q) :=
  of_none fun _ => rfl

theorem copy (q : Fin 32) : Statement (.copy q) :=
  of_none fun _ => rfl

theorem copyGranule (q : Fin 32) : Statement (.copyGranule q) :=
  of_none fun _ => rfl

theorem stop (q : Fin 32) : Statement (.stop q) :=
  of_none fun _ => rfl

theorem packetComplete (q : Fin 32) : Statement (.packetComplete q) :=
  of_none fun _ => rfl

theorem planeRestore (d : DieId) : Statement (.planeRestore d) :=
  of_none fun _ => rfl

theorem dieStart (d : DieId) : Statement (.dieStart d) :=
  of_none fun _ => rfl

theorem graphOperationFire (h : Fin 32) : Statement (.graphOperationFire h) :=
  of_none fun _ => rfl

theorem graphOperationComplete (h : Fin 32) : Statement (.graphOperationComplete h) :=
  of_none fun _ => rfl

theorem preemptionFreeze (d : DieId) : Statement (.preemptionFreeze d) :=
  of_none fun _ => rfl

theorem teamResume (team : BitVec 16) : Statement (.teamResume team) :=
  of_none fun _ => rfl

theorem causeReport (d : DieId) : Statement (.causeReport d) :=
  of_none fun _ => rfl

theorem teamStowEnd (d : DieId) : Statement (.teamStowEnd d) :=
  of_none fun _ => rfl

theorem teamEnd (team : BitVec 16) : Statement (.teamEnd team) :=
  of_none fun _ => rfl

theorem handlerEntry (d : DieId) : Statement (.handlerEntry d) :=
  of_none fun _ => rfl

theorem stowEnd (d : DieId) : Statement (.stowEnd d) :=
  of_none fun _ => rfl

theorem unstowEnd (d : DieId) : Statement (.unstowEnd d) :=
  of_none fun _ => rfl

theorem xinval (d : DieId) (v : W64) : Statement (.xinval d v) :=
  of_none fun _ => rfl

theorem xinvalDone (d : DieId) : Statement (.xinvalDone d) :=
  of_none fun _ => rfl

theorem xreplay (d : DieId) (v : W64) : Statement (.xreplay d v) :=
  of_none fun _ => rfl

theorem didtlimWrite (v : W64) : Statement (.didtlimWrite v) :=
  of_none fun _ => rfl

theorem lanelimWrite (v : W64) : Statement (.lanelimWrite v) :=
  of_none fun _ => rfl

theorem hostRegisterWrite (off : BitVec 26) (size : Nat) (v : W64) : Statement (.hostRegisterWrite off size v) :=
  of_none fun _ => rfl

theorem bar2Access (off : BitVec 38) (size : Nat) (data : Option (List Byte)) : Statement (.bar2Access off size data) :=
  of_none fun _ => rfl

theorem hostEvent (kind : BitVec 8) (arg : W64) : Statement (.hostEvent kind arg) :=
  of_none fun _ => rfl

theorem telemetrySample : Statement (.telemetrySample) :=
  of_none fun _ => rfl

theorem dbgstop (v : W64) : Statement (.dbgstop v) :=
  of_none fun _ => rfl

theorem debugStop (d : DieId) : Statement (.debugStop d) :=
  of_none fun _ => rfl

theorem dbgdataAccess (v : Option W64) : Statement (.dbgdataAccess v) :=
  of_none fun _ => rfl

theorem dbgres (v : W64) : Statement (.dbgres v) :=
  of_none fun _ => rfl

theorem traceRecordWrite : Statement (.traceRecordWrite) :=
  of_none fun _ => rfl

theorem noiseOff (d : DieId) (p : Pos) : Statement (.noiseOff d p) :=
  of_none fun _ => rfl

theorem noiseLive (d : DieId) (p : Pos) : Statement (.noiseLive d p) :=
  of_none fun _ => rfl

theorem noiseLog (d : DieId) (p : Pos) : Statement (.noiseLog d p) :=
  of_none fun _ => rfl

theorem noiseReplay (d : DieId) (p : Pos) (seed : W32) : Statement (.noiseReplay d p seed) :=
  of_none fun _ => rfl

theorem rotdWrite (d : DieId) (p : Pos) (v : W64) : Statement (.rotdWrite d p v) :=
  of_none fun _ => rfl

theorem bootGo (v : W64) : Statement (.bootGo v) :=
  of_none fun _ => rfl

theorem hubResetDeassert : Statement (.hubResetDeassert) :=
  of_none fun _ => rfl

theorem powerRemoval : Statement (.powerRemoval) :=
  of_none fun _ => rfl

theorem memoryControllerReset (d : DieId) (inReset : Bool) : Statement (.memoryControllerReset d inReset) :=
  of_none fun _ => rfl

theorem filysXLinkDown (port : Fin 8) : Statement (.filysXLinkDown port) :=
  of_none fun _ => rfl

theorem getVersion (req : List Byte) : Statement (.getVersion req) :=
  of_none fun _ => rfl

theorem getCapabilities (req : List Byte) : Statement (.getCapabilities req) :=
  of_none fun _ => rfl

theorem negotiateAlgorithms (req : List Byte) : Statement (.negotiateAlgorithms req) :=
  of_none fun _ => rfl

theorem getDigests (req : List Byte) : Statement (.getDigests req) :=
  of_none fun _ => rfl

theorem getCertificate (req : List Byte) : Statement (.getCertificate req) :=
  of_none fun _ => rfl

theorem challenge (req : List Byte) : Statement (.challenge req) :=
  of_none fun _ => rfl

theorem getMeasurements (req : List Byte) : Statement (.getMeasurements req) :=
  of_none fun _ => rfl

theorem spdmUnsupportedRequest (req : List Byte) : Statement (.spdmUnsupportedRequest req) :=
  of_none fun _ => rfl

theorem gddr7Refresh : Statement (.gddr7Refresh) :=
  of_none fun _ => rfl

theorem rowClose (d : DieId) : Statement (.rowClose d) :=
  of_none fun _ => rfl

theorem preemptionStowEnd (d : DieId) : Statement (.preemptionStowEnd d) :=
  of_none fun _ => rfl

theorem filysXLinkUp (port : Fin 8) (peer : W64) : Statement (.filysXLinkUp port peer) :=
  of_none fun _ => rfl

theorem channelDataArrival (port : Fin 8) (chan : Byte) (packed : Bool) (bytes : List Byte) : Statement (.channelDataArrival port chan packed bytes) :=
  of_none fun _ => rfl

theorem resetPinAssert : Statement (.resetPinAssert) :=
  of_none fun _ => rfl

end Sys2Proof.Laws.Encoding
end

