-- ==== Sys2Proof/Laws/Vector.lean ====
section
/-! SUPPORT. What a word of the vector pipe adds to the state: its sixteen row writes, its draws and its events. -/

namespace Sys2Proof.Machine

/-- Several in-flight writes in a row. -/
theorem foldl_putWrite_adds {α : Type} (lat : Nat) (name : α → Byte) (t : α → WTarget) (l : List α) (s : State) :
    Adds s (l.foldl (fun s i => s.putWrite lat (name i) (t i)) s) (l.map fun i => s.inFlight lat (name i) (t i)) := by
  induction l generalizing s with
  | nil => exact effect_refl s
  | cons a l ih =>
    have h1 := putWrite_adds s lat (name a) (t a)
    have h2 := ih (s.putWrite lat (name a) (t a))
    have hw : ∀ i, (s.putWrite lat (name a) (t a)).inFlight lat (name i) (t i) = s.inFlight lat (name i) (t i) := by
      intro i; simp only [State.inFlight, focus_putWrite, cyc_putWrite]
    have := h1.trans h2
    simpa only [List.foldl_cons, List.map_cons, List.singleton_append, List.append_nil, hw, h1.pipe, h1.noise] using this

/-- Selected results spread into element order. -/
theorem spread_map (m : MaskReg) (g : Nat → W32) (l : List Nat) :
    spread m l ((l.filter fun k => bit m k).map g) = l.map fun k => if bit m k then g k else 0 := by
  induction l with
  | nil => rfl
  | cons a l ih => by_cases h : bit m a <;> simp [spread, h, ih]

/-- A row of sixty-four values out of a list in element order. -/
theorem take_drop_range (g : Nat → W32) (i : Nat) (h : i < 16) :
    (((List.range 1024).map g).drop (64 * i)).take 64 = (List.range 64).map fun j => g (64 * i + j) := by
  apply List.ext_getElem
  · simp; omega
  · intro n h1 h2
    simp at h1 h2 ⊢

theorem phys_getD (s : State) (d : BitVec 5) : s.phys d = (physOf s.curSta.rotd d).getD 0 := rfl

/-- A vector result is sixteen in-flight writes. -/
theorem putVec_adds (s : State) (lat : Nat) (d : BitVec 5) (m : MaskReg) (g : Nat → W32) (h : s.focus.handler = false) :
    Adds s (s.putVec lat d m ((List.range 1024).map fun k => if bit m k then g k else 0)) (s.vecWrites lat d m g) := by
  have key : ∀ (l : List Nat) (t : State), t.focus = s.focus → t.curSta.rotd = s.curSta.rotd → (∀ i ∈ l, i < 16) → t.cyc = s.cyc →
      l.foldl (fun t i => t.putWrite lat (d.setWidth 8) (.v (t.phys d) (BitVec.ofNat 4 i) (fld m (64 * i) 64)
        (rowOfLanes ((((List.range 1024).map fun k => if bit m k then g k else 0).drop (64 * i)).take 64)))) t =
      l.foldl (fun t i => t.putWrite lat (d.setWidth 8) (.v (s.phys d) (BitVec.ofNat 4 i) (fld m (64 * i) 64)
        (rowOfLanes ((List.range 64).map fun j => if bit m (64 * i + j) then g (64 * i + j) else 0)))) t := by
    intro l
    induction l with
    | nil => intros; rfl
    | cons a l ih =>
      intro t ht hr hl hc
      have hp : t.phys d = s.phys d := by simp only [State.phys, hr]
      simp only [List.foldl_cons, take_drop_range _ a (hl a (by simp)), hp]
      have he := putWrite_adds t lat (d.setWidth 8) (.v (s.phys d) (BitVec.ofNat 4 a) (fld m (64 * a) 64)
        (rowOfLanes ((List.range 64).map fun j => if bit m (64 * a + j) then g (64 * a + j) else 0)))
      refine ih _ (by rw [focus_putWrite, ht]) ?_ (fun i hi => hl i (by simp [hi])) (by rw [cyc_putWrite, hc])
      have hf : t.focus.handler = false := by rw [ht]; exact h
      simp [State.putWrite, hf, ← hr]
  have := foldl_putWrite_adds lat (fun _ : Nat => (d.setWidth 8 : Byte)) (fun i => WTarget.v (s.phys d) (BitVec.ofNat 4 i) (fld m (64 * i) 64)
    (rowOfLanes ((List.range 64).map fun j => if bit m (64 * i + j) then g (64 * i + j) else 0))) (List.range 16) s
  unfold State.putVec
  rw [key (List.range 16) s rfl rfl (fun i hi => List.mem_range.mp hi) rfl]
  exact this

-- ## Draws

/-- The k-th of the selected elements has k selected elements below it. -/
theorem rank_selected (m : MaskReg) (n i : Nat) (h : i < ((List.range n).filter fun k => bit m k).length) :
    rank m (((List.range n).filter fun k => bit m k)[i]) = i := by
  induction n with
  | zero => simp at h
  | succ n ih =>
    have hs : (List.range (n + 1)).filter (fun k => bit m k) =
        (List.range n).filter (fun k => bit m k) ++ [n].filter (fun k => bit m k) := by
      rw [List.range_succ, List.filter_append]
    by_cases hi : i < ((List.range n).filter fun k => bit m k).length
    · have : ((List.range (n + 1)).filter fun k => bit m k)[i] = ((List.range n).filter fun k => bit m k)[i] := by
        simp only [hs]; exact List.getElem_append_left hi
      rw [this]; exact ih hi
    · by_cases hb : bit m n
      · have hl : i = ((List.range n).filter fun k => bit m k).length := by
          rw [hs] at h; simp [hb] at h; omega
        have : ((List.range (n + 1)).filter fun k => bit m k)[i] = n := by
          simp only [hs, hb, List.filter_cons_of_pos, List.filter_nil]
          rw [List.getElem_append_right (by omega)]; simp
        rw [this, hl]; rfl
      · exfalso; rw [hs] at h; simp [hb] at h; omega

theorem length_draws (k : Nat) (n : Noise) : (Noise.draws k n).1.length = k := by
  induction k generalizing n with
  | zero => rfl
  | succ k ih => simp [Noise.draws, ih]

theorem selected_length (m : MaskReg) : (selected m).length = rank m 1024 := rfl

/-- The results of elements in their order, each with its own draw. -/
theorem zip_ranked {α : Type} (m : MaskReg) (l ns : List Nat) (f : Nat → Nat → α) (h : ns.length = l.length)
    (hr : ∀ i (hi : i < l.length), rank m l[i] = i) :
    (l.zip ns).map (fun kn => f kn.1 kn.2) = l.map fun k => f k (ns.getD (rank m k) 0) := by
  apply List.ext_getElem
  · simp [h]
  · intro i h1 h2
    have hi : i < l.length := by simpa using h2
    simp [hr i hi, h, hi]

theorem zip_selected {α : Type} (m : MaskReg) (ns : List Nat) (f : Nat → Nat → α) (h : ns.length = (selected m).length) :
    ((selected m).zip ns).map (fun kn => f kn.1 kn.2) = (selected m).map fun k => f k (ns.getD (rank m k) 0) :=
  zip_ranked m _ ns f h fun i hi => rank_selected m 1024 i hi

theorem draws_eq (s : State) (draw : Bool) (m : MaskReg) :
    (s.draws draw (selected m).length).1.length = (selected m).length ∧
    ∀ k, (s.draws draw (selected m).length).1.getD (rank m k) 0 = s.noiseAt draw m k := by
  cases draw
  · refine ⟨by simp [State.draws], fun k => ?_⟩
    simp [State.draws, State.noiseAt, List.getElem?_replicate]; split <;> rfl
  · refine ⟨by simp [State.draws, length_draws], fun k => ?_⟩
    simp only [State.draws, State.noiseAt, if_true, ← selected_length]
    simp only [List.getD_eq_getElem?_getD, List.getElem?_map]
    cases ((Noise.draws (selected m).length s.curSta.noise).1)[rank m k]? <;> rfl

theorem draws_effect (s : State) (draw : Bool) (m : MaskReg) (h : s.focus.handler = false) :
    Effect s (s.draws draw (selected m).length).2 [] [] s.curSta.pipeFree (s.noiseAfter draw m) := by
  cases draw
  · exact effect_refl s
  · exact noise_effect s _ h

theorem cyc_putVec (s : State) (lat : Nat) (d : BitVec 5) (m : MaskReg) (l : List W32) : (s.putVec lat d m l).cyc = s.cyc := by
  have key : ∀ (k : List Nat) (t : State) (g : State → Nat → WTarget),
      (k.foldl (fun t i => t.putWrite lat (d.setWidth 8) (g t i)) t).cyc = t.cyc := by
    intro k; induction k with
    | nil => intros; rfl
    | cons a k ih => intro t g; simp only [List.foldl_cons, ih, cyc_putWrite]
  exact key (List.range 16) s fun s i => .v (s.phys d) (BitVec.ofNat 4 i) (fld m (64 * i) 64) (rowOfLanes ((l.drop (64 * i)).take 64))

/-- An elementwise word: the selected elements take their results, their events come with them, and the word draws what its
rounding needs. -/
theorem elementwise_effect (s : State) (lat : Nat) (d : BitVec 5) (m : MaskReg) (draw : Bool) (f : Nat → Nat → W32 × FpFlags)
    (h : s.focus.handler = false) :
    Effect s (s.elementwise lat d m draw f) (s.vecWrites lat d m fun k => (f k (s.noiseAt draw m k)).1)
      (s.flagWrites lat (orFlags ((selected m).map fun k => (f k (s.noiseAt draw m k)).2))) s.curSta.pipeFree
      (s.noiseAfter draw m) := by
  have hd := draws_eq s draw m
  have hz := zip_selected m (s.draws draw (selected m).length).1 f hd.1
  simp only [hd.2] at hz
  have h1 := draws_effect s draw m h
  have hf : (s.draws draw (selected m).length).2.focus = s.focus := h1.focus
  have hv : spread m (List.range 1024) (((selected m).map fun k => f k (s.noiseAt draw m k)).map (·.1)) =
      (List.range 1024).map fun k => if bit m k then (f k (s.noiseAt draw m k)).1 else 0 := by
    rw [List.map_map]; exact spread_map m (fun k => (f k (s.noiseAt draw m k)).1) (List.range 1024)
  have h2 := putVec_adds (s.draws draw (selected m).length).2 lat d m (fun k => (f k (s.noiseAt draw m k)).1) (by rw [hf]; exact h)
  have hw : (s.draws draw (selected m).length).2.vecWrites lat d m (fun k => (f k (s.noiseAt draw m k)).1) =
      s.vecWrites lat d m fun k => (f k (s.noiseAt draw m k)).1 := by
    cases draw
    · rfl
    · simp [State.vecWrites, State.draws, State.inFlight, cyc_updSta]
  have h3 := putFlags_effect ((s.draws draw (selected m).length).2.putVec lat d m
    ((List.range 1024).map fun k => if bit m k then (f k (s.noiseAt draw m k)).1 else 0)) lat
    (orFlags ((selected m).map fun k => (f k (s.noiseAt draw m k)).2))
  have hg := (h1.trans h2).focus
  have hcyc : ((s.draws draw (selected m).length).2.putVec lat d m
      ((List.range 1024).map fun k => if bit m k then (f k (s.noiseAt draw m k)).1 else 0)).cyc = s.cyc := by
    rw [cyc_putVec]
    cases draw
    · rfl
    · exact cyc_updSta ..
  have hfl : ((s.draws draw (selected m).length).2.putVec lat d m
      ((List.range 1024).map fun k => if bit m k then (f k (s.noiseAt draw m k)).1 else 0)).flagWrites lat
      (orFlags ((selected m).map fun k => (f k (s.noiseAt draw m k)).2)) =
      s.flagWrites lat (orFlags ((selected m).map fun k => (f k (s.noiseAt draw m k)).2)) := by
    simp only [State.flagWrites, hcyc, hg]
  rw [hfl] at h3
  have h4 := (h1.trans h2).trans h3
  rw [hw] at h4
  unfold State.elementwise
  simp only [hz, hv]
  rw [List.map_map]
  rw [h2.pipe, h1.pipe, h2.noise, h1.noise] at h4
  rw [List.nil_append, List.nil_append, List.append_nil, List.nil_append] at h4
  exact h4

/-- A word of the pipe whose action has an effect. -/
theorem pipeWord_effect (s : State) (p : Nat) (dsts srcs : List (BitVec 5)) (ms : List (BitVec 3)) (act : State → State)
    (hr : s.pipeReady) (hl : ∀ n ∈ dsts ++ srcs, (physOf s.curSta.rotd n).isSome = true) :
    pipeWord s p dsts srcs ms act = .next (act (s.updSta fun x => { x with pipeFree := s.cyc + p })) := by
  obtain ⟨-, h2, h3⟩ := hr
  have hd : s.dead (dsts ++ srcs) = none := by
    simp only [State.dead, List.find?_eq_none]
    intro n hn; have := hl n hn; cases hp : physOf s.curSta.rotd n <;> simp_all
  have hb : ∀ srcs ms, s.srcBad srcs ms = [] := by
    intro a b; simp [State.srcBad, Die.badIn, h3]
  unfold pipeWord
  simp only [hd, hb, Nat.not_lt.mpr h2, if_false]
  rw [show ∀ t : State, t.raiseBad [] = t from fun t => setDie_die t t.focus.die]

/-- The state in which a word of the pipe acts. -/
abbrev State.piped (s : State) (p : Nat) : State := s.updSta fun x => { x with pipeFree := s.cyc + p }

theorem rows_elem (s : State) (n : BitVec 5) (k : Nat) (hb : s.curDie.bad = []) (hk : k < 1024) : elAt (s.rows n) k = s.elem n k := by
  have : k / 64 < 16 := by omega
  simp [elAt, State.rows, State.elem, State.vread, Die.badIn, hb, poison, this, State.phys]

theorem vopRows_operand (s : State) (b : VOp) (k : Nat) (hb : s.curDie.bad = []) (hk : k < 1024) :
    elAt (s.vopRows b) k = s.operand b k := by
  cases b with
  | r n => exact rows_elem s n k hb hk
  | i v =>
    have h1 : k / 64 < 16 := by omega
    have h2 : k % 64 < 64 := by omega
    simp only [elAt, State.vopRows, State.operand, List.getD_eq_getElem?_getD, List.getElem?_replicate, h1, if_true, Option.getD_some]
    have key : ∀ j < 64, lane (rowOfLanes (List.replicate 64 v)) j = v := by
      intro j hj
      have h : ∀ (n i : Nat), i < n →
          ((List.replicate n v).foldr (fun x a => x.toNat + 2 ^ 32 * a) 0) / 2 ^ (32 * i) % 2 ^ 32 = v.toNat := by
        intro n
        induction n with
        | zero => intro i hi; omega
        | succ n ih =>
          intro i hi
          rw [List.replicate_succ, List.foldr_cons]
          cases i with
          | zero =>
            have := v.isLt
            simp only [Nat.mul_zero, Nat.pow_zero, Nat.div_one]; omega
          | succ i =>
            have := v.isLt
            rw [show 32 * (i + 1) = 32 + 32 * i by omega, Nat.pow_add, ← Nat.div_div_eq_div_mul,
              show ∀ y : Nat, (v.toNat + 2 ^ 32 * y) / 2 ^ 32 = y by intro y; omega]
            exact ih i (by omega)
      apply BitVec.eq_of_toNat_eq
      have hs : ((List.replicate 64 v).foldr (fun x a => x.toNat + 2 ^ 32 * a) 0) < 2 ^ 2048 := by
        have : ∀ n, ((List.replicate n v).foldr (fun x a => x.toNat + 2 ^ 32 * a) 0) < 2 ^ (32 * n) := by
          intro n; induction n with
          | zero => simp
          | succ n ih =>
            have := v.isLt
            rw [List.replicate_succ, List.foldr_cons, show 32 * (n + 1) = 32 + 32 * n by omega, Nat.pow_add]
            generalize 2 ^ (32 * n) = z at *
            nlinarith
        exact this 64
      simp only [lane, fld, rowOfLanes, BitVec.extractLsb'_toNat, BitVec.toNat_ofNat, Nat.mod_eq_of_lt hs, Nat.shiftRight_eq_div_pow]
      exact h 64 j hj
    exact key _ h2

theorem selected_lt (m : MaskReg) (k : Nat) (h : k ∈ selected m) : k < 1024 := by
  simpa using (List.mem_filter.mp h).1

theorem vecWrites_congr (s : State) (lat : Nat) (d : BitVec 5) (m : MaskReg) (f g : Nat → W32) (h : ∀ k < 1024, f k = g k) :
    s.vecWrites lat d m f = s.vecWrites lat d m g := by
  unfold State.vecWrites
  refine List.map_congr_left fun i hi => ?_
  have h16 := List.mem_range.mp hi
  have e : ((List.range 64).map fun j => if bit m (64 * i + j) then f (64 * i + j) else 0) =
      (List.range 64).map fun j => if bit m (64 * i + j) then g (64 * i + j) else 0 :=
    List.map_congr_left fun j hj => by rw [h _ (by have := List.mem_range.mp hj; omega)]
  rw [e]

/-- An elementwise word of the pipe: what it adds, in terms of the state before it. -/
theorem piped_elementwise (s : State) (p lat : Nat) (d : BitVec 5) (m : MaskReg) (draw : Bool) (f g : Nat → Nat → W32 × FpFlags)
    (hf : s.focus.handler = false) (h : ∀ k < 1024, ∀ n, f k n = g k n) :
    Effect s ((s.piped p).elementwise lat d m draw f) (s.vecWrites lat d m fun k => (g k (s.noiseAt draw m k)).1)
      (s.flagWrites lat (orFlags ((selected m).map fun k => (g k (s.noiseAt draw m k)).2))) (s.cyc + p) (s.noiseAfter draw m) := by
  have h0 := pipe_effect s (s.cyc + p) hf
  have h1 := elementwise_effect (s.piped p) lat d m draw f hf
  have hc : (s.piped p).cyc = s.cyc := cyc_updSta ..
  have hn : ∀ k, (s.piped p).noiseAt draw m k = s.noiseAt draw m k := by intro k; simp [State.noiseAt]
  have hna : (s.piped p).noiseAfter draw m = s.noiseAfter draw m := by simp [State.noiseAfter]
  have hw : (s.piped p).vecWrites lat d m (fun k => (f k ((s.piped p).noiseAt draw m k)).1) =
      s.vecWrites lat d m fun k => (g k (s.noiseAt draw m k)).1 := by
    rw [show (s.piped p).vecWrites lat d m (fun k => (f k ((s.piped p).noiseAt draw m k)).1) =
      s.vecWrites lat d m (fun k => (f k ((s.piped p).noiseAt draw m k)).1) by simp [State.vecWrites, State.inFlight, hc]]
    exact vecWrites_congr _ _ _ _ _ _ fun k hk => by rw [hn, h k hk]
  have hfl : (s.piped p).flagWrites lat (orFlags ((selected m).map fun k => (f k ((s.piped p).noiseAt draw m k)).2)) =
      s.flagWrites lat (orFlags ((selected m).map fun k => (g k (s.noiseAt draw m k)).2)) := by
    have : ((selected m).map fun k => (f k ((s.piped p).noiseAt draw m k)).2) = (selected m).map fun k => (g k (s.noiseAt draw m k)).2 :=
      List.map_congr_left fun k hk => by rw [hn, h k (selected_lt m k hk)]
    rw [this]; simp [State.flagWrites, hc]
  rw [hw, hfl, hna] at h1
  have h2 := h0.trans h1
  rw [h0.pipe, List.nil_append, List.nil_append] at h2
  exact h2

theorem piped_ready (s : State) (p : Nat) (hr : s.pipeReady) : (s.piped p).curDie.bad = [] := by
  have := hr.2.2; simpa using this

theorem maskOf_piped (s : State) (p : Nat) (q : BitVec 3) (hr : s.pipeReady) : (s.piped p).maskOf q = s.curSta.mask q := by
  have := piped_ready s p hr
  simp only [State.maskOf, Die.badIn, this, List.isEmpty_nil, if_true, List.foldl_nil, curSta_updSta, Station.mask]

theorem elem_piped (s : State) (p : Nat) (n : BitVec 5) : (s.piped p).elem n = s.elem n := by
  funext k; simp [State.elem, Station.vrow]

theorem operand_piped (s : State) (p : Nat) (b : VOp) : (s.piped p).operand b = s.operand b := by
  funext k; cases b <;> simp [State.operand, elem_piped]

/-- A word of two operands. -/
theorem vec2_effect (s : State) (p lat : Nat) (q : BitVec 3) (d a : BitVec 5) (b : VOp) (draw : Bool)
    (f : W32 → W32 → Nat → W32 × FpFlags) (hr : s.pipeReady) (hd : (physOf s.curSta.rotd d).isSome = true)
    (ha : (physOf s.curSta.rotd a).isSome = true) (hb : s.operandLive b) :
    ∃ t, vec2 s p lat q d a b draw f = .next t ∧
      Effect s t (s.vecWrites lat d (s.curSta.mask q) fun k => (f (s.elem a k) (s.operand b k) (s.noiseAt draw (s.curSta.mask q) k)).1)
        (s.flagWrites lat (orFlags ((selected (s.curSta.mask q)).map fun k =>
          (f (s.elem a k) (s.operand b k) (s.noiseAt draw (s.curSta.mask q) k)).2)))
        (s.cyc + p) (s.noiseAfter draw (s.curSta.mask q)) := by
  refine ⟨_, pipeWord_effect s p _ _ _ _ hr ?_, ?_⟩
  · intro n hn
    simp only [List.mem_append, List.mem_cons, List.not_mem_nil, or_false] at hn
    rcases hn with rfl | rfl | hn
    · exact hd
    · exact ha
    · exact hb n hn
  · have hp := piped_ready s p hr
    have hm := maskOf_piped s p q hr
    simp only [hm]
    refine piped_elementwise s p lat d _ draw _ _ hr.1 fun k hk n => ?_
    rw [rows_elem _ _ _ hp hk, vopRows_operand _ _ _ hp hk, elem_piped, operand_piped]

/-- A word of one operand. -/
theorem vec1_effect (s : State) (p lat : Nat) (q : BitVec 3) (d a : BitVec 5) (draw : Bool) (f : W32 → Nat → W32 × FpFlags)
    (hr : s.pipeReady) (hd : (physOf s.curSta.rotd d).isSome = true) (ha : (physOf s.curSta.rotd a).isSome = true) :
    ∃ t, vec1 s p lat q d a draw f = .next t ∧
      Effect s t (s.vecWrites lat d (s.curSta.mask q) fun k => (f (s.elem a k) (s.noiseAt draw (s.curSta.mask q) k)).1)
        (s.flagWrites lat (orFlags ((selected (s.curSta.mask q)).map fun k =>
          (f (s.elem a k) (s.noiseAt draw (s.curSta.mask q) k)).2)))
        (s.cyc + p) (s.noiseAfter draw (s.curSta.mask q)) := by
  refine ⟨_, pipeWord_effect s p _ _ _ _ hr ?_, ?_⟩
  · intro n hn
    simp only [List.mem_append, List.mem_cons, List.not_mem_nil, or_false] at hn
    rcases hn with rfl | rfl
    · exact hd
    · exact ha
  · have hp := piped_ready s p hr
    have hm := maskOf_piped s p q hr
    simp only [hm]
    refine piped_elementwise s p lat d _ draw _ _ hr.1 fun k hk n => ?_
    rw [rows_elem _ _ _ hp hk, elem_piped]

end Sys2Proof.Machine
end

