-- ==== Sys2Proof/Tests/Slice0.lean ====
section
/-! SUPPORT. Tests: ill-formed terms that WellFormed refuses, words written out from the spec's encodings, single steps, and a
witness for the hypotheses of every statement. -/

open Sys2Proof Sys2Proof.Machine

set_option Elab.async false

-- ## Ill-formed terms (R48, R49, R56 to R61): one for each check

theorem test_wf_scalar_a32 : Instr.wf .l (.aadd 1 (.reg 32) (.i 0)) = false := by decide
theorem test_wf_scalar_a_dest : Instr.wf .s (.amovi 32 0) = false := by decide
theorem test_wf_ald_dest : Instr.wf .l (.ald 40 (.reg 0) 0) = false := by decide
theorem test_wf_scalar_x : Instr.wf .x (.loop false (.reg (.reg 1)) 1) = false := by decide
theorem test_wf_sop_a : Instr.wf .l (.rdvi 0 (.r (.reg 32))) = false := by decide
theorem test_wf_csrr_mirror : Instr.wf .c (.csrr (.s (.ts 0)) 0) = false := by decide
theorem test_wf_csrr_vector : Instr.wf .c (.csrr (.v 0) 0) = false := by decide
theorem test_wf_csrw_mirror : Instr.wf .x (.csrw (.s (.ts 0)) 0) = false := by decide
theorem test_wf_pbr_ind : Instr.wf .x (.pbr 0 (.ind (.reg 0))) = false := by decide
theorem test_wf_loop_rot : Instr.wf .c (.loop true (.cnt 1) 1) = false := by decide
theorem test_wf_align_reg : Instr.wf .x (.align false (.reg (.reg 0) 0)) = false := by decide
theorem test_wf_rdvi_point : Instr.wf .c (.rdvi 24 (.i 0)) = false := by decide
theorem test_wf_rdva_point : Instr.wf .c (.rdva 24) = false := by decide
theorem test_wf_rdvw_point : Instr.wf .l (.rdvw 31 0) = false := by decide
theorem test_wf_c_word : Instr.wf .l (.add 1 (.reg 1) (.i 0)) = false := by decide
theorem test_wf_c_unary : Instr.wf .s (.clz 1 (.reg 1)) = false := by decide
theorem test_wf_c_plain : Instr.wf .x (.movi 0 0) = false := by decide
theorem test_wf_cmp_cond : Instr.wf .c (.cmp .uo 1 (.reg 1) (.i 0)) = false := by decide
theorem test_wf_fcmp_cond : Instr.wf .c (.fcmp .ltu 1 (.reg 1) (.i 0)) = false := by decide
theorem test_wf_ffma_stream : Instr.wf .l (.ffma .rne 1 (.reg 1) (.i 0) (.reg 1)) = false := by decide
theorem test_wf_fcvt_source : Instr.wf .c (.fcvt .e8m0 .f32 .rne false 1 (.reg 1)) = false := by decide
theorem test_wf_fcvt_target : Instr.wf .c (.fcvt .f32 .mx8 .rne false 1 (.reg 1)) = false := by decide
theorem test_wf_fcvt_same : Instr.wf .c (.fcvt .f32 .f32 .rne false 1 (.reg 1)) = false := by decide
theorem test_wf_sst_stream : Instr.wf .s (.sst (.reg 1) (.reg 1) 0) = false := by decide
theorem test_wf_awin_wide : Instr.wf .c (.awin (.imm 0x10000000000)) = false := by decide
theorem test_wf_awin_stream : Instr.wf .l (.awin (.reg (.reg 0))) = false := by decide
theorem test_wf_count_stream : Instr.wf .l (.admitWork .fwd false (.reg (.reg 0))) = false := by decide
theorem test_wf_turn_link : Instr.wf .c (.turn true true none 6 0) = false := by decide
theorem test_wf_turn_time : Instr.wf .l (.turn true true (some (.reg 0)) 0 0) = false := by decide
theorem test_wf_laneq_link : Instr.wf .c (.laneq 1 7 0) = false := by decide
theorem test_wf_address_word : Instr.wf .c (.aadd 1 (.reg 1) (.i 0)) = false := by decide
theorem test_wf_acmp_cond : Instr.wf .l (.acmp .ord 1 (.reg 1) (.i 0)) = false := by decide
theorem test_wf_l_word : Instr.wf .s (.bld 0 0 (.reg 0) 0 0) = false := by decide
theorem test_wf_l_plain : Instr.wf .c (.fqpop 0 0) = false := by decide
theorem test_wf_haul_point : Instr.wf .l (.haul true (some 24) .rne (.reg 0) (.reg 0) (.reg 0)) = false := by decide
theorem test_wf_s_word : Instr.wf .l (.bst 0 (.reg 0) 0 0 0) = false := by decide
theorem test_wf_ast_stream : Instr.wf .x (.ast (.reg 0) (.reg 0) 0) = false := by decide
theorem test_wf_amo_third : Instr.wf .s (.amo .addI 0 (.reg 0) (.reg 0) (.reg 1)) = false := by decide
theorem test_wf_vadd_type : Instr.wf .x (.vadd .bf16 .rne false 0 0 0 (.i 0)) = false := by decide
theorem test_wf_vadd_rounding : Instr.wf .x (.vadd .i32 .rtz false 0 0 0 (.i 0)) = false := by decide
theorem test_wf_vadd_sat : Instr.wf .x (.vadd .f32 .rne true 0 0 0 (.i 0)) = false := by decide
theorem test_wf_vmin_type : Instr.wf .x (.vmin .e4m3 0 0 0 (.i 0)) = false := by decide
theorem test_wf_vsplat_scalar : Instr.wf .x (.vsplat .f32 0 0 (.r (.reg 1))) = false := by decide
theorem test_wf_vabs_sat : Instr.wf .x (.vabs .f32 true 0 0 0) = false := by decide
theorem test_wf_vneg_type : Instr.wf .x (.vneg .n32 false 0 0 0) = false := by decide
theorem test_wf_vcmp_unsigned : Instr.wf .x (.vcmp .i32 0 .ltu 0 0 (.i 0)) = false := by decide
theorem test_wf_vcmp_unordered : Instr.wf .x (.vcmp .i32 0 .uo 0 0 (.i 0)) = false := by decide
theorem test_wf_vcvt_type : Instr.wf .x (.vcvt .mx8 .f32 .rne false 0 0) = false := by decide
theorem test_wf_vcvt_same : Instr.wf .x (.vcvt .i8 .i8 .rne false 0 0) = false := by decide
theorem test_wf_vrnd_type : Instr.wf .x (.vrnd .f32 .rne false 0 0 0) = false := by decide
theorem test_wf_vredr_type : Instr.wf .x (.vredr .add .bf16 .rne 0 0 0) = false := by decide
theorem test_wf_vredr_rounding : Instr.wf .x (.vredr .max .f32 .rup 0 0 0) = false := by decide
theorem test_wf_cav_mask : Instr.wf .x (.cav .addF 0 0 0 15 0 0) = false := by decide
theorem test_wf_rotset_depth : Instr.wf .x (.rotset 17) = false := by decide
theorem test_wf_x_plain : Instr.wf .c (.vmov 0 0 0) = false := by decide
theorem test_wf_event : Instr.wf .c (.dieCycle 0) = false := by decide

-- ## Words written out from the tables of R43, R46 to R49 and R56 to R61; a name in brackets is the spec's own worked example

theorem decode_nop : (decodeWord .c 0x000000000000000000000000).toOption = some (.nop) := by decide
theorem decode_waitc : (decodeWord .x 0x0000100000000003E8000000).toOption = some (.waitc 1000) := by decide  -- (12_control.md)
theorem decode_pbr : (decodeWord .c 0x000020004900000000FFFFFD).toOption = some (.pbr 1 (.off 0xFFFFFD)) := by decide  -- (03_words.md)
theorem decode_br : (decodeWord .c 0x011030000049000000000000).toOption = some (.br 1) := by decide  -- (12_control.md)
theorem decode_call : (decodeWord .s 0x00004000004A000000000000).toOption = some (.call 2) := by decide  -- (12_control.md)
theorem decode_ret : (decodeWord .l 0x000050000000000000000000).toOption = some (.ret) := by decide  -- (12_control.md)
theorem decode_loop : (decodeWord .c 0x000060000000000064000003).toOption = some (.loop false (.cnt 100) 3) := by decide  -- (03_words.md)
theorem decode_align : (decodeWord .x 0x0D0080020074000000000000).toOption = some (.align false (.reg (.ts 4) 0)) := by decide  -- (19_prog_placement.md)
theorem decode_cairn : (decodeWord .l 0x000090000000123456789ABC).toOption = some (.cairn 0x123456789ABC) := by decide
theorem decode_qop : (decodeWord .s 0x0000A0084142430000000000).toOption = some (.qop 8 1 2 3) := by decide
theorem decode_csrr : (decodeWord .x 0x0000B0000400000000000002).toOption = some (.csrr (.v 4) 2) := by decide  -- (21_prog_crossentropy.md)
theorem decode_csrw : (decodeWord .c 0x0100C0000001000000000070).toOption = some (.csrw (.s (.reg 1)) 0x70) := by decide  -- (15_traps.md)
theorem decode_trap : (decodeWord .c 0x0C00D0000000000000000003).toOption = some (.trap 3) := by decide  -- (15_traps.md)
theorem decode_exit : (decodeWord .x 0x0000E0000000000000000000).toOption = some (.exit) := by decide  -- (12_control.md)
theorem decode_fence : (decodeWord .l 0x0000F0090000000000000000).toOption = some (.fence .st .die) := by decide  -- (12_control.md)
theorem decode_rdvi : (decodeWord .c 0x000108030000000000000004).toOption = some (.rdvi 3 (.i 4)) := by decide  -- (12_control.md)
theorem decode_rdva : (decodeWord .s 0x000110170000000000000000).toOption = some (.rdva 23) := by decide
theorem decode_rdvw : (decodeWord .x 0x000120034200000000000000).toOption = some (.rdvw 3 2) := by decide  -- (12_control.md)
theorem decode_rdvt : (decodeWord .l 0x000130054700000000000000).toOption = some (.rdvt 5 7) := by decide
theorem decode_add : (decodeWord .c 0x0A0200000130000000000000).toOption = some (.add 1 (.reg 48) (.r (.reg 0))) := by decide  -- (12_control.md)
theorem decode_sub : (decodeWord .c 0x00021000023F200000000000).toOption = some (.sub 2 (.reg 63) (.r (.reg 32))) := by decide
theorem decode_mul : (decodeWord .c 0x000228000301000000000384).toOption = some (.mul 3 (.reg 1) (.i 900)) := by decide  -- (19_prog_placement.md)
theorem decode_mulh : (decodeWord .c 0x000230010405060000000000).toOption = some (.mulh true 4 (.reg 5) (.r (.reg 6))) := by decide
theorem decode_div : (decodeWord .c 0x000248010405000000000007).toOption = some (.div true 4 (.reg 5) (.i 7)) := by decide
theorem decode_rem : (decodeWord .c 0x010250000301020000000000).toOption = some (.rem false 3 (.reg 1) (.r (.reg 2))) := by decide  -- (12_control.md)
theorem decode_and : (decodeWord .c 0x000260000102030000000000).toOption = some (.and 1 (.reg 2) (.r (.reg 3))) := by decide
theorem decode_or : (decodeWord .c 0x200270000203000000000000).toOption = some (.or 2 (.reg 3) (.r (.reg 0))) := by decide  -- (12_control.md)
theorem decode_xor : (decodeWord .c 0x0002880001020000FFFFFFFF).toOption = some (.xor 1 (.reg 2) (.i 0xFFFFFFFF)) := by decide
theorem decode_andn : (decodeWord .c 0x000290000102030000000000).toOption = some (.andn 1 (.reg 2) (.r (.reg 3))) := by decide
theorem decode_shl : (decodeWord .c 0x0002A8000102000000000005).toOption = some (.shl 1 (.reg 2) (.i 5)) := by decide
theorem decode_shr : (decodeWord .c 0x0002B0000102030000000000).toOption = some (.shr 1 (.reg 2) (.r (.reg 3))) := by decide
theorem decode_sra : (decodeWord .c 0x0002C0000102030000000000).toOption = some (.sra 1 (.reg 2) (.r (.reg 3))) := by decide
theorem decode_rol : (decodeWord .c 0x0002D0000102030000000000).toOption = some (.rol 1 (.reg 2) (.r (.reg 3))) := by decide
theorem decode_min : (decodeWord .c 0x0002E0010102030000000000).toOption = some (.min true 1 (.reg 2) (.r (.reg 3))) := by decide
theorem decode_max : (decodeWord .c 0x0002F0000102030000000000).toOption = some (.max false 1 (.reg 2) (.r (.reg 3))) := by decide
theorem decode_clz : (decodeWord .c 0x000300000102000000000000).toOption = some (.clz 1 (.reg 2)) := by decide
theorem decode_popc : (decodeWord .c 0x000310000102000000000000).toOption = some (.popc 1 (.reg 2)) := by decide
theorem decode_sel : (decodeWord .c 0x000320000102034400000000).toOption = some (.sel 1 (.reg 2) (.r (.reg 3)) 4) := by decide
theorem decode_cmp : (decodeWord .c 0x000338014103000000000000).toOption = some (.cmp .ne 1 (.reg 3) (.i 0)) := by decide  -- (12_control.md)
theorem decode_movi : (decodeWord .c 0x020340000100000080000060).toOption = some (.movi 1 0x80000060) := by decide  -- (15_traps.md)
theorem decode_movhi : (decodeWord .c 0x010350000100000000008008).toOption = some (.movhi 1 0x8008) := by decide  -- (15_traps.md)
theorem decode_bext : (decodeWord .c 0x00036000010200000000470C).toOption = some (.bext true 1 (.reg 2) 7 12) := by decide
theorem decode_bins : (decodeWord .c 0x03037000080D000000001F20).toOption = some (.bins 8 (.reg 13) 31 32) := by decide  -- (17_prog_counterflow.md)
theorem decode_fadd : (decodeWord .c 0x000380400102030000000000).toOption = some (.fadd .rdn 1 (.reg 2) (.r (.reg 3))) := by decide
theorem decode_fmul : (decodeWord .c 0x00039880010200003F800000).toOption = some (.fmul .rsr 1 (.reg 2) (.i 0x3F800000)) := by decide
theorem decode_ffma : (decodeWord .c 0x0003A0000102030400000000).toOption = some (.ffma .rne 1 (.reg 2) (.r (.reg 3)) (.reg 4)) := by decide
theorem decode_fcmp : (decodeWord .c 0x0003B00A4102030000000000).toOption = some (.fcmp .uo 1 (.reg 2) (.r (.reg 3))) := by decide
theorem decode_fcvt : (decodeWord .c 0x0003C5000505000000000000).toOption = some (.fcvt .e5m2 .f32 .rne false 5 (.reg 5)) := by decide  -- (17_prog_counterflow.md)
theorem decode_fmnx : (decodeWord .c 0x0003D0010102030000000000).toOption = some (.fmnx true 1 (.reg 2) (.r (.reg 3))) := by decide
theorem decode_sld : (decodeWord .c 0x0003E0000102000000000008).toOption = some (.sld 1 (.reg 2) 8) := by decide
theorem decode_sst : (decodeWord .c 0x0003F0000002030000000010).toOption = some (.sst (.reg 2) (.reg 3) 16) := by decide
theorem decode_trig : (decodeWord .c 0x000400000000000000000305).toOption = some (.trig 3 5) := by decide  -- (12_control.md)
theorem decode_awin : (decodeWord .c 0x00050000000000FFBFE00401).toOption = some (.awin (.imm 0xFFBFE00401)) := by decide  -- (10_array.md)
theorem decode_amode : (decodeWord .c 0x000510080000000000000000).toOption = some (.amode .mx8 .gtrap) := by decide  -- (17_prog_counterflow.md)
theorem decode_admitWork : (decodeWord .c 0x0A0520010000000001000000).toOption = some (.admitWork .bwd false (.cnt 1)) := by decide  -- (17_prog_counterflow.md)
theorem decode_seat : (decodeWord .c 0x4C05300E0000000000000000).toOption = some (.seat .both true) := by decide  -- (17_prog_counterflow.md)
theorem decode_lift : (decodeWord .c 0x000540010000000000000000).toOption = some (.lift true) := by decide  -- (17_prog_counterflow.md)
theorem decode_acclr : (decodeWord .c 0x00055001000000000000FF80).toOption = some (.acclr true 0xFF80) := by decide
theorem decode_acnorm : (decodeWord .c 0x000560010000000000000000).toOption = some (.acnorm true) := by decide
theorem decode_frzrd : (decodeWord .c 0x00059000040000001F840078).toOption = some (.frzrd 4 (.reg 0) 0x1F840078) := by decide  -- (17_prog_counterflow.md)
theorem decode_frzwr : (decodeWord .c 0x0105A0000000020006064050).toOption = some (.frzwr (.reg 0) (.reg 2) 0x06064050) := by decide  -- (15_traps.md)
theorem decode_resume : (decodeWord .c 0x0005B0000000000000000000).toOption = some (.resume) := by decide  -- (15_traps.md)
theorem decode_stow : (decodeWord .c 0x0005C0000004000000000000).toOption = some (.stow (.reg 4)) := by decide  -- (15_traps.md)
theorem decode_unstow : (decodeWord .c 0x0005D0000004000000000000).toOption = some (.unstow (.reg 4)) := by decide  -- (15_traps.md)
theorem decode_turn : (decodeWord .c 0x0005E0070005000000000013).toOption = some (.turn true true (some (.reg 5)) 1 3) := by decide  -- (11_cavity_links.md)
theorem decode_laneq : (decodeWord .c 0x0005F0000700000000000002).toOption = some (.laneq 7 0 2) := by decide  -- (11_cavity_links.md)
theorem decode_aadd : (decodeWord .l 0x000700000102730000000000).toOption = some (.aadd 1 (.reg 2) (.r (.ts 3))) := by decide
theorem decode_asub : (decodeWord .s 0x000718000102000000000004).toOption = some (.asub 1 (.reg 2) (.i 4)) := by decide
theorem decode_amul : (decodeWord .l 0x010720000201710000000000).toOption = some (.amul 2 (.reg 1) (.r (.ts 1))) := by decide  -- (19_prog_placement.md)
theorem decode_amovi : (decodeWord .l 0x050730000100000000018000).toOption = some (.amovi 1 0x18000) := by decide  -- (08_registers.md)
theorem decode_ashl : (decodeWord .s 0x000748000102000000000003).toOption = some (.ashl 1 (.reg 2) (.i 3)) := by decide
theorem decode_aand : (decodeWord .l 0x000750000102030000000000).toOption = some (.aand 1 (.reg 2) (.r (.reg 3))) := by decide
theorem decode_acmp : (decodeWord .s 0x000768024170000000000000).toOption = some (.acmp .lt 1 (.ts 0) (.i 0)) := by decide  -- (18_prog_atomic_max.md)
theorem decode_bld : (decodeWord .l 0x0C0780010201000000000000).toOption = some (.bld 1 2 (.reg 1) 0 0) := by decide  -- (08_registers.md)
theorem decode_bldb : (decodeWord .l 0x0007900307010000FFFFFF04).toOption = some (.bldb 3 7 (.reg 1) 0xFFFFFF 4) := by decide
theorem decode_bldc : (decodeWord .l 0x0107A00F0800000000000000).toOption = some (.bldc 15 8 (.reg 0) 0 0) := by decide  -- (21_prog_crossentropy.md)
theorem decode_ald : (decodeWord .l 0x0007B0000102000000000008).toOption = some (.ald 1 (.reg 2) 8) := by decide
theorem decode_fqpush : (decodeWord .l 0x0007C0005205000033C00040).toOption = some (.fqpush 2 (.reg 5) 3 15 0x40) := by decide  -- (06_haul.md)
theorem decode_fqpop : (decodeWord .l 0x0007D0000752000000000000).toOption = some (.fqpop 7 2) := by decide  -- (06_haul.md)
theorem decode_haul : (decodeWord .l 0x0007ECA00301020000000000).toOption = some (.haul true (some 5) .rne (.reg 3) (.reg 1) (.reg 2)) := by decide  -- (06_haul.md)
theorem decode_edgeset : (decodeWord .l 0x000800005A02000000000100).toOption = some (.edgeset 2 (.reg 2) 0x100) := by decide
theorem decode_bufdecl : (decodeWord .l 0x00081000000000000A0E1C01).toOption = some (.bufdecl 0x0A0E1C01) := by decide  -- (07_banks_ring.md)
theorem decode_bufset : (decodeWord .l 0x140820020000000000000000).toOption = some (.bufset true 0) := by decide  -- (07_banks_ring.md)
theorem decode_bankfmt : (decodeWord .l 0x000830000000000000050378).toOption = some (.bankfmt 5 6 120) := by decide
theorem decode_rld : (decodeWord .l 0x120840000270000000000000).toOption = some (.rld 0 2 (.ts 0) 0) := by decide  -- (07_banks_ring.md)
theorem decode_bst : (decodeWord .s 0x090900010001010000000000).toOption = some (.bst 1 (.reg 1) 1 0 0) := by decide  -- (08_registers.md)
theorem decode_ast : (decodeWord .s 0x0009100000020300FFFFFFF8).toOption = some (.ast (.reg 2) (.reg 3) 0xFFFFFFF8) := by decide
theorem decode_fst : (decodeWord .s 0x00092000000209003FFFFF00).toOption = some (.fst (.reg 2) 9 3 63 0x3FFF00) := by decide
theorem decode_amo : (decodeWord .s 0x0009300C5104050600000000).toOption = some (.amo .cas 1 (.reg 4) (.reg 5) (.reg 6)) := by decide  -- (11_cavity_links.md)
theorem decode_amon : (decodeWord .s 0x000940060004050000000000).toOption = some (.amon .maxF (.reg 4) (.reg 5) (.reg 0)) := by decide  -- (11_cavity_links.md)
theorem decode_amosc : (decodeWord .s 0x000950005002030000000000).toOption = some (.amosc .addI 0 (.reg 2) (.reg 3) (.reg 0)) := by decide  -- (11_cavity_links.md)
theorem decode_rst : (decodeWord .s 0x0F0970000070010000000000).toOption = some (.rst 0 (.ts 0) 1 0) := by decide  -- (07_banks_ring.md)
theorem decode_vadd : (decodeWord .x 0x040B08000605000040000000).toOption = some (.vadd .f32 .rne false 0 6 5 (.i 0x40000000)) := by decide  -- (02_notation.md)
theorem decode_vsub : (decodeWord .x 0x040B18000403000040E00000).toOption = some (.vsub .f32 .rne false 0 4 3 (.i 0x40E00000)) := by decide  -- (09_vector.md)
theorem decode_vmul : (decodeWord .x 0x050B20600504030000000000).toOption = some (.vmul .f32 .rup false 0 5 4 (.r 3)) := by decide  -- (02_notation.md)
theorem decode_vfma : (decodeWord .x 0x000B390005010002BE800000).toOption = some (.vfma .rne 1 5 1 (.i 0xBE800000) 2) := by decide  -- (17_prog_counterflow.md)
theorem decode_vmin : (decodeWord .x 0x000B43020102030000000000).toOption = some (.vmin .n32 3 1 2 (.r 3)) := by decide
theorem decode_vmax : (decodeWord .x 0x080B58000D0D00001F800000).toOption = some (.vmax .f32 0 13 13 (.i 0x1F800000)) := by decide  -- (20_prog_rmsnorm.md)
theorem decode_vabs : (decodeWord .x 0x000B60110102000000000000).toOption = some (.vabs .i32 true 0 1 2) := by decide
theorem decode_vneg : (decodeWord .x 0x000B72000102000000000000).toOption = some (.vneg .f32 false 2 1 2) := by decide
theorem decode_vcmp : (decodeWord .x 0x070B8840270E0000FF800000).toOption = some (.vcmp .f32 0 .gt 7 14 (.i 0xFF800000)) := by decide  -- (21_prog_crossentropy.md)
theorem decode_vsel : (decodeWord .x 0x010B99000708000000000000).toOption = some (.vsel 1 7 8 (.i 0)) := by decide  -- (21_prog_crossentropy.md)
theorem decode_vmov : (decodeWord .x 0x000BA7001F01000000000000).toOption = some (.vmov 7 31 1) := by decide
theorem decode_vsplat : (decodeWord .x 0x010BB0000300700000000000).toOption = some (.vsplat .f32 0 3 (.r (.ts 0))) := by decide  -- (20_prog_rmsnorm.md)
theorem decode_vand : (decodeWord .x 0x040BC8000D0D00007F800000).toOption = some (.vand 0 13 13 (.i 0x7F800000)) := by decide  -- (20_prog_rmsnorm.md)
theorem decode_vor : (decodeWord .x 0x000BD1000102030000000000).toOption = some (.vor 1 1 2 (.r 3)) := by decide
theorem decode_vxor : (decodeWord .x 0x000BE0000102030000000000).toOption = some (.vxor 0 1 2 (.r 3)) := by decide
theorem decode_vshl : (decodeWord .x 0x000BF8000102000000000004).toOption = some (.vshl 0 1 2 (.i 4)) := by decide
theorem decode_vshr : (decodeWord .x 0x000C00000102030000000000).toOption = some (.vshr 0 1 2 (.r 3)) := by decide
theorem decode_vsra : (decodeWord .x 0x000C10000102030000000000).toOption = some (.vsra 0 1 2 (.r 3)) := by decide
theorem decode_vcvt : (decodeWord .x 0x040C22000201000000000000).toOption = some (.vcvt .n32 .f32 .rne false 2 1) := by decide  -- (09_vector.md)
theorem decode_vqnt : (decodeWord .x 0x040C30080504000600000000).toOption = some (.vqnt .mx4 .rne false 5 4 6) := by decide  -- (09_vector.md)
theorem decode_vdqnt : (decodeWord .x 0x060C40080908060000000000).toOption = some (.vdqnt .mx4 false 9 8 6) := by decide  -- (09_vector.md)
theorem decode_vpack : (decodeWord .x 0x0B0C50030705000000000000).toOption = some (.vpack .w4 7 5) := by decide  -- (09_vector.md)
theorem decode_vunpk : (decodeWord .x 0x060C60030807000000000000).toOption = some (.vunpk .w4 8 7) := by decide  -- (09_vector.md)
theorem decode_vrotr : (decodeWord .x 0x040C7800141400000000003F).toOption = some (.vrotr 0 20 20 (.i 63)) := by decide  -- (21_prog_crossentropy.md)
theorem decode_vrotc : (decodeWord .x 0x000C80000102030000000000).toOption = some (.vrotc 0 1 2 (.r 3)) := by decide
theorem decode_vbcr : (decodeWord .x 0x000C9800010200000000000F).toOption = some (.vbcr 0 1 2 (.i 15)) := by decide
theorem decode_vbcc : (decodeWord .x 0x010CA8000404000000000000).toOption = some (.vbcc 0 4 4 (.i 0)) := by decide  -- (21_prog_crossentropy.md)
theorem decode_vredr : (decodeWord .x 0x040CB0040D0C000000000000).toOption = some (.vredr .max .f32 .rne 0 13 12) := by decide  -- (20_prog_rmsnorm.md)
theorem decode_vredc : (decodeWord .x 0x010CC3040E07000000000000).toOption = some (.vredc .max .f32 .rne 3 14 7) := by decide  -- (21_prog_crossentropy.md)
theorem decode_vtrn : (decodeWord .x 0x000CD2000102000000000000).toOption = some (.vtrn 2 1 2) := by decide
theorem decode_vexp2 : (decodeWord .x 0x000CE0000102000000000000).toOption = some (.vexp2 0 1 2) := by decide
theorem decode_vlog2 : (decodeWord .x 0x040CF4001413000000000000).toOption = some (.vlog2 4 20 19) := by decide  -- (21_prog_crossentropy.md)
theorem decode_vrcp : (decodeWord .x 0x000D00000102000000000000).toOption = some (.vrcp 0 1 2) := by decide
theorem decode_vrsq : (decodeWord .x 0x000D10000102000000000000).toOption = some (.vrsq 0 1 2) := by decide
theorem decode_vtanh : (decodeWord .x 0x000D20000102000000000000).toOption = some (.vtanh 0 1 2) := by decide
theorem decode_vsincos : (decodeWord .x 0x000D30000102000300000000).toOption = some (.vsincos 0 1 2 3) := by decide
theorem decode_vrnd : (decodeWord .x 0x040D4014070C000000000000).toOption = some (.vrnd .e4m3 .rne true 0 7 12) := by decide  -- (20_prog_rmsnorm.md)
theorem decode_vdrop : (decodeWord .x 0x000D58000102000000008000).toOption = some (.vdrop 0 1 2 (.i 0x8000)) := by decide
theorem decode_mop : (decodeWord .x 0x020D60022424220000000000).toOption = some (.mop 2 4 4 2) := by decide  -- (21_prog_crossentropy.md)
theorem decode_vidx : (decodeWord .x 0x010D70010000000000000000).toOption = some (.vidx true 0) := by decide  -- (20_prog_rmsnorm.md)
theorem decode_rdrv : (decodeWord .x 0x000D80006B05000000007F09).toOption = some (.rdrv 11 5 127 9) := by decide
theorem decode_rtap : (decodeWord .x 0x000D90000562000000000003).toOption = some (.rtap 5 2 3) := by decide
theorem decode_cav : (decodeWord .x 0x090DA0000301700000000000).toOption = some (.cav .addF 0 3 1 0 0 0) := by decide  -- (11_cavity_links.md)
theorem decode_cavd : (decodeWord .x 0x000DB5810502000000000000).toOption = some (.cavd .lse 1 5 2 0) := by decide  -- (11_cavity_links.md)
theorem decode_acrd : (decodeWord .x 0x000DC0100400000000000000).toOption = some (.acrd false .rne true 4 false false 0) := by decide  -- (10_array.md)
theorem decode_acwr : (decodeWord .x 0x000DD0000006000000000013).toOption = some (.acwr false 6 true 3) := by decide
theorem decode_rotset : (decodeWord .x 0x000DE0000000000000000010).toOption = some (.rotset 16) := by decide
theorem decode_vfclass : (decodeWord .x 0x000DF6000102000000000000).toOption = some (.vfclass 6 1 2) := by decide

-- ## Witnesses: a concrete state and operands that meet the hypotheses of every statement (each clause of it)

/-- A running die with a word at parcel 0x14 of its section issuing in cycle 10, stream `st` of N0 on die 0. -/
def wBase (st : Strm) : State :=
  ({ State.reset with power := .running, sidc := 100, focus := { strm := st, parcel := 0x14 } }.updDie
    fun d => { d with cond := .running, dcyc := 10, team := 1 }).updCtx fun c =>
      { c with next := .word 0x14 10, sect := some placedSection, retired := false, b := [(1, { prep := true, tgt := 0x20, pc := 6 })] }

/-- The same die, its team holding it at the base camp. -/
def wTeam : Team :=
  { num := 1, queue := 0, pkt := [], dies := [0], phase := .running, recs := [], planeAt := 0, start := 0,
    delta := 1, begun := [0], prio := 3, preok := false, grants := [], status := 0, cause := 0, pos := 0, sstart := 0, breach := 0,
    trigbad := 0, stowed := [] }

def wLoop (ctr : Nat) : LoopEntry := { ctr := ctr, rot := true, first := 0x14, last := 0x14 }

/-- A buffer in rows 3 to 9 of bank 0 in state `st`. -/
def wBuf2 (st : BitVec 2) : Buf := { declared := true, bank := 0, first := 3, last := 9, reads := 2, st := st }

theorem witness_ScalarOperandsRead :
    (5 : BitVec 6) ≠ 0 ∧ (7 : BitVec 3) ≠ 0 ∧ (wBase .c).focus.strm = .c ∧ (wBase .l).focus.strm = .l ∧
    (wBase .s).focus.strm = .s ∧ (wBase .x).focus.strm = .x := by decide +kernel

theorem witness_ArithmeticAndLogicWords : (63 : Nat) = ((wBase .c).sop (.i (-1))).toNat % 64 := by decide +kernel

theorem witness_ChoiceCountAndFieldWords : (1 : Nat) = min ((7 : BitVec 6).toNat + 1) (64 - (63 : BitVec 6).toNat) := by decide

def wDivBusy : State := (wBase .c).updSta fun x => { x with div := { rem := 0, quo := 0, free := 11 } }

/-- A C stream in handler mode. -/
def wHand : State := { wBase .c with focus := { (wBase .c).focus with handler := true } }

theorem witness_DivideWords :
    wHand.focus.handler = true ∧ wDivBusy.focus.handler = false ∧ wDivBusy.cyc < wDivBusy.curSta.div.free ∧ (wBase .c).focus.handler = false ∧
    (wBase .c).curSta.div.free ≤ (wBase .c).cyc ∧ (wBase .c).sop (.i 0) = 0 ∧ (wBase .c).sop (.i 7) ≠ 0 := by decide +kernel

theorem witness_FloatWordsAndRounding :
    (∃ draw : Bool → BitVec 16 × Noise, ∀ on,
      draw on = if on && !(wBase .c).focus.handler then (wBase .c).curSta.noise.draw else (0, (wBase .c).curSta.noise)) ∧
    ((0 : Int) = -3 + (3 : Nat) ∧ 0 < 3 ∧ 2 * (9 % 2 ^ 3) < 2 ^ 3 ∧ 2 * (12 % 2 ^ 3) = 2 ^ 3 ∧ 2 ^ 3 < 2 * (15 % 2 ^ 3) ∧ 8 % 2 ^ 3 = 0 ∧
      (65535 : Nat) < 65536 ∧ 65536 ≤ 7 * 65536 / 2 ^ 3 + 8192 ∧ ¬ 65536 ≤ 7 * 65536 / 2 ^ 3 + 8191) :=
  ⟨⟨_, fun _ => rfl⟩, by decide⟩

/-- 480 goes beyond E4M3, whose largest value is 448; a value of E4M3 and one of FP32, at the ends of their formats. -/
theorem witness_FloatWordsAndRounding_formats :
    (Ty.e4m3, fmtE4m3, 3, 8, 7, 14, 5, 0x7E, 0x7F, false) ∈ floatFormats ∧ (Ty.f32, fmtF32, 23, 32, 127, 2 ^ 24 - 1, 104, 0x7F7FFFFF, 0x7FC00000, true) ∈ floatFormats ∧
    (15, false) = roundAt .rne false 0 (fun k => k % 2 == 1) 15 5 5 ∧ ¬((5 : Int) ≤ 5 ∧ 15 ≤ 14 * 2 ^ (5 - 5 : Int).toNat) ∧
    (14, false) = roundAt .rne false 0 (fun k => k % 2 == 1) 14 5 5 ∧ ((5 : Int) ≤ 5 ∧ 14 ≤ 14 * 2 ^ (5 - 5 : Int).toNat) ∧
    (5 : Int) = max (((15 : Nat).log2 : Int) + 5) (1 - 7) - 3 ∧ (2 ^ 8 - 1 < 2 ^ (32 - 1 - 23)) ∧ (0 < 2 ^ 3) := by
  simp only [floatFormats]
  refine ⟨?_, ?_, ?_⟩
  · simp
  · simp
  · decide +kernel

theorem witness_FloatWordsAndRounding_values :
    readF32 0x7F800001 = .nan ∧ readF32 0xFF800000 = .inf true ∧ readF32 0x7F800000 = .inf false ∧ readF32 0x80000000 = .num true 0 (-149) ∧
    readF32 0x3F800000 = .num false 0x800000 (-23) ∧ readF32 0xBF800000 = .num true 0x800000 (-23) ∧
    below32 0x80000000 0 ∧ below32 0x3F800000 0x7F800000 ∧ below32 0xBF800001 0xBF800000 ∧
    (0 : Int) = inUnits false 0x800000 (-23) (min (-23) (-23)) + inUnits true 0x800000 (-23) (min (-23) (-23)) := by
  simp only [below32]
  decide +kernel

/-- 2^-130, 2^128 - 2^104 and -1 go to E8M0; -129 is out of the range of `.i8` and 70000 of `.n16`. -/
theorem witness_FloatWordsAndRounding_conversions :
    ((Ty.n16, 16, false) ∈ integerFormats ∧ (Ty.i8, 8, true) ∈ integerFormats ∧ intTy .f32 = none ∧ -129 = readInt 32 true (-129 : W32)) ∧
    (readTy .f32 0x80000 = .num false 0x80000 (-149) ∧ (((0x80000 : Nat).log2 : Int) + -149 < -127)) ∧
    (readTy .f32 0x7F7FFFFF = .num false 0xFFFFFF 104 ∧ (2, true) = roundAt .rne false 0 (fun _ => (127 + 127 : Int) % 2 == 1) 0xFFFFFF 104 127 ∧
      (254 : Int) < 127 + 127 + ((2 : Nat) - 1) ∧ (1, true) = roundAt .rtz false 0 (fun _ => (127 + 127 : Int) % 2 == 1) 0xFFFFFF 104 127 ∧
      (127 : Int) = (0xFFFFFF : Nat).log2 + 104) ∧
    (readTy .f32 0xBF800000 = .num true 0x800000 (-23) ∧ readTy .f32 0 = .num false 0 (-149) ∧ readTy .f32 0xFF800000 = .inf true ∧
      readTy .f32 0x7FC00000 = .nan ∧ readTy .e8m0 0xFF = .nan) ∧
    ((70000, false) = roundAt .rne false 0 (fun k => k % 2 == 1) 70000 0 0 ∧ readTy .i32 70000 = .num false 70000 0) := by
  decide +kernel

theorem witness_PadWords :
    wHand.focus.handler = true ∧ (wBase .c).focus.handler = false ∧ 8184 = ((wBase .c).scal (.reg 0) + (8184 : W32).signExtend 64).toNat ∧
    8184 % 8 = 0 ∧ 8184 < 8192 ∧ 8192 = ((wBase .c).scal (.reg 0) + (8192 : W32).signExtend 64).toNat ∧
    4 = ((wBase .c).scal (.reg 0) + (4 : W32).signExtend 64).toNat := by decide +kernel

theorem witness_BranchRegisterChecks :
    ((wBase .c).breg 0).prep = false ∧ (wBase .c).cyc < ((wBase .c).breg 1).pc + 5 ∧
    (((wBase .c).updDie fun d => { d with dcyc := 9 }).cyc < (((wBase .c).updDie fun d => { d with dcyc := 9 }).breg 1).pc + 4) ∧
    ((wBase .c).breg 1).prep = true ∧ ((wBase .c).breg 1).pc + 4 ≤ (wBase .c).cyc ∧ (wBase .c).targetOk ((wBase .c).breg 1).tgt = true ∧
    (wBase .c).curCtx.calls.length < 8 := by decide +kernel

/-- A call whose return parcel is a word of the section, one loop inside it. -/
def wCall : State :=
  (wBase .c).updCtx fun c => { c with calls := [{ ret := 0x1A, depth := 0 }], loops := [{ ctr := 2, rot := false, first := 0x14, last := 0x26 }] }

/-- A header of length 16 at parcel 0x80, which the C directory names. -/
def wHeader (m : KMap Parcel) : KMap Parcel :=
  [(0, 0x80), (0x80, 0xFFFF), (0x81, 0x00FF), (0x82, 0x0101), (0x83, 0xA000)].foldl (fun m e => kput 0 e.1 e.2 m) m

/-- A call whose return parcel is the first word of another section. -/
def wFar : State :=
  (wCall.updCtx fun c => { c with calls := [{ ret := 0x84, depth := 0 }] }).updSta fun x => { x with plane := wHeader x.plane }

theorem witness_TransfersOfControl :
    (3 : BitVec 3) ≠ 1 ∧ (wBase .c).bready 1 = true ∧ (wBase .c).targetOk ((wBase .c).breg 1).tgt = true ∧
    (wBase .c).curCtx.calls.length < 8 ∧
    (∀ e ∈ wCall.curCtx.loops, e.holds (wCall.breg 1).tgt = true ∧ e.last ≠ wCall.focus.parcel) ∧
    wCall.curCtx.calls = ({ ret := 0x1A, depth := 0 } : CallEntry) :: [] ∧ wCall.targetOk 0x1A = true ∧
    wCall.curCtx.loops = [{ ctr := 2, rot := false, first := 0x14, last := 0x26 }] ++ [] ∧
    ([] : List LoopEntry).length = min 0 wCall.curCtx.loops.length ∧
    wFar.curCtx.calls = ({ ret := 0x84, depth := 0 } : CallEntry) :: [] ∧ wFar.targetOk 0x84 = false ∧
    wFar.curCtx.sect = some placedSection ∧ placedSection.stop ≠ 0x84 ∧
    (wFar.sections.find? fun h => h.first == 0x84).isSome = true := by decide +kernel

/-- The C stream at the end word of its one loop, whose counter is `n`. -/
def wLooped (n : Nat) : State := (wBase .c).updCtx fun c => { c with loops := [wLoop n] }

/-- Two loops that end at the word, with these counters. -/
def wEnding (m n : Nat) : State := (wBase .c).updCtx fun c => { c with loops := [wLoop m, wLoop n] }

theorem witness_LoopsAndSteeringTraps :
    ((wBase .c).curCtx.sect = some placedSection ∧ placedSection.has (wBase .c).focus.parcel.toNat = true ∧
      placedSection.stop ≤ 65536 ∧ 0 < (15 : BitVec 24).toInt ∧ (wBase .c).focus.parcel.toNat + 6 * (15 : BitVec 24).toNat < placedSection.stop ∧
      (wBase .c).curCtx.loops.length < 4 ∧ (wBase .c).count (.cnt 1) ≠ 0 ∧ (wBase .c).count (.cnt 0) = 0 ∧
      ([] ++ [] = (wBase .c).curCtx.loops ∧ ∀ e ∈ ([] : List LoopEntry).head?, e.last ≠ (wBase .c).focus.parcel) ∧
      (wBase .c).focus.replay = false ∧ { (wBase .c).focus with replay := true }.replay = true) ∧
    ((wEnding 1 2).curCtx.loops = [wLoop 1] ++ wLoop 2 :: [] ∧ (wEnding 1 0).curCtx.loops = [wLoop 1, wLoop 0] ++ [] ∧
      (∀ e ∈ [wLoop 1, wLoop 0], e.last = (wEnding 1 0).focus.parcel ∧ e.ctr ≤ 1) ∧ (wEnding 1 2).curCtx.loops.length < 4) ∧
    ((wLooped 2).curCtx.loops = wLoop 2 :: [] ∧ (wLoop 2).last = (wLooped 2).focus.parcel ∧ 1 < (wLoop 2).ctr ∧
      placedSection.has (wLoop 2).first.toNat = true ∧ (wLooped 2).count (.cnt 0) = 0) ∧
    ((wBase .c).bready 1 = true ∧
      ((wBase .c).updCtx fun c => { c with b := [(1, { prep := true, tgt := 0x21, pc := 6 })] }).targetOk 0x21 = false ∧
      8 ≤ ((wBase .c).updCtx fun c => { c with calls := List.replicate 8 { ret := 0x14, depth := 0 } }).curCtx.calls.length ∧
      (wBase .c).curCtx.calls = [] ∧
      ((wBase .c).updCtx fun c => { c with calls := [{ ret := 0x21, depth := 0 }] }).returnOk 0x21 = false ∧
      (0 : BitVec 24).toInt < 1 ∧ placedSection.stop ≤ (wBase .c).focus.parcel.toNat + 6 * (16 : BitVec 24).toNat ∧
      4 ≤ ((wBase .c).updCtx fun c => { c with loops := List.replicate 4 (wLoop 2) }).curCtx.loops.length) := by decide +kernel

theorem witness_AlignWord :
    wHand.focus.handler = true ∧ (wBase .c).focus.handler = false ∧ (wBase .c).sidc ≤ 100 ∧ 99 < (wBase .c).sidc := by decide +kernel

/-- The C stream at the last word of its section. -/
def wLastWord : State :=
  { wBase .c with focus := { (wBase .c).focus with parcel := BitVec.ofNat 16 (placedSection.stop - 6) } }
theorem witness_NextWord_falls_past :
    wLastWord.focus.moved = false ∧ wLastWord.focus.replay = false ∧ wLastWord.curCtx.sect = some placedSection ∧
    wLastWord.focus.parcel.toNat + 6 = placedSection.stop ∧ placedSection.stop ≤ 65536 ∧ wLastWord.focus.handler = false ∧
    (∀ e ∈ wLastWord.curCtx.loops, e.last ≠ wLastWord.focus.parcel) ∧ 0 = wLastWord.curCtx.loops.length := by decide +kernel

theorem witness_NextWord :
    ((wBase .c).focus.moved = false ∧ (wBase .c).focus.replay = false ∧ (wBase .c).curCtx.sect = some placedSection ∧
      placedSection.has ((wBase .c).focus.parcel.toNat + 6) = true ∧ (∀ e ∈ (wBase .c).curCtx.loops, e.last ≠ (wBase .c).focus.parcel) ∧
      0 = (wBase .c).curCtx.loops.length) ∧
    ((wLoop 2).last = 0x14 ∧ 1 < (wLoop 2).ctr) ∧ ((wLoop 1).last = 0x14 ∧ (wLoop 1).ctr ≤ 1) ∧
    (∀ e ∈ [wLoop 1].head?, e.last ≠ 0x1A) ∧
    (((wBase .c).updCtx fun c => { c with loops := [wLoop 2] }).curCtx.loops = wLoop 2 :: [] ∧
      (wLoop 2).last = (wBase .c).focus.parcel ∧ placedSection.has (wLoop 2).first.toNat = true ∧ 1 ≤ (wLoop 2 :: []).length) := by
  decide +kernel

theorem witness_ExitRetires :
    (wBase .c).focus.handler = false ∧ wHand.focus.handler = true ∧ placedSection ∈ (wBase .c).curCtx.sect ∧
    ((wBase .c).updCtx fun c => { c with sect := none }).curCtx.sect = none ∧
    (((wBase .c).updDie fun d => { d with eoc := [.rsec 0 .c 0xFE true] }).die 0).eoc = [.rsec 0 .c 0xFE true] := by
  decide +kernel

theorem witness_CsrWords :
    physOf (wBase .x).curSta.rotd 3 = some 3 ∧ (wBase .x).curDie.bad = [] ∧
    (wBase .c).csrRead 0 0 (0 : BitVec 12).toNat = BitVec.ofNat 64 (wBase .c).sidc ∧ (0x096 : Nat) ≤ (0xFFF : BitVec 12).toNat ∧
    (0x072 ∈ [0x000, 0x001, 0x002, 0x003, 0x004, 0x008, 0x071, 0x072]) ∧ (0x010 ≤ 0x015 ∧ 0x015 ≤ 0x015 ∧ 0x080 ≤ 0x095) ∧
    (((0x058 : Nat), (0xFFFF000000000F03 : W64)) ∈ [(0x032, 0x03FF03FF00000713), (0x058, 0xFFFF000000000F03)]) ∧ 0x048 ≤ 0x057 ∧
    ((wBase .c).die 0).rdverrAt ≠ (wBase .c).sidc + 1 ∧ (0x041 : Nat) ≠ 0x040 := by decide +kernel

/-- The die in exchange, or its copy of rp5 one phase ahead. -/
def wXch : State := (wBase .c).updDie fun d => { d with xch := true }
def wPhase : State := (wBase .c).updDie fun d => { d with copies := [(5, { ph := 1, errh := 0 })] }

theorem witness_RendezvousTestAndWait :
    (wPhase.curDie.copy 5).ph ≠ wPhase.curCtx.waited 5 := by decide +kernel

/-- Messages under way to die 0, whose team it is alone; its master of rp5 is `r`. -/
def wMsgs (r : RdvMaster) (l : List RdvMsg) : State :=
  { (wBase .c).updDie fun d => { d with msgs := l, masters := [(5, r)] } with hub := { teams := [wTeam] } }

/-- A team of dies 0 and 1, whose master of rp5 has two arrivals and awaits two; a count and a late arrival are under way. -/
def wTeamMsgs : State :=
  { wMsgs { exp := 2, arr := [0, 0x191] } [.count 5 3 100, .arrive 6 0 101] with hub := { teams := [{ wTeam with dies := [0, 1] }] } }

theorem witness_RendezvousPhases_team :
    wXch.curDie.xch = true ∧ wPhase.curDie.xch = false ∧ kwf ({} : RdvMaster) (wTeamMsgs.die 0).masters = true ∧
    (2 : DieId) ∉ wTeamMsgs.teamDies 0 ∧ (1 : DieId) ∈ wTeamMsgs.teamDies 0 ∧
    1 ≤ (kget {} 5 (wTeamMsgs.die 0).masters : RdvMaster).exp ∧
    (kget {} 5 (wTeamMsgs.die 0).masters : RdvMaster).exp ≤ (kget {} 5 (wTeamMsgs.die 0).masters : RdvMaster).arr.length ∧
    ((wTeamMsgs.die 0).msgs.find? (RdvMsg.sets 7 wTeamMsgs.sidc)) = none ∧
    ([0, 0x191] : List (BitVec 9)).take 2 = [0] ++ 0x191 :: [] ∧ (∀ e ∈ ([0, 0] : List (BitVec 9)).take 2, e = 0) := by decide +kernel

theorem witness_RendezvousPhases :
    ((kget {} 5 ((wMsgs { exp := 2 } []).die 0).masters).exp ≠ 0 ∧ (kget {} 5 ((wMsgs {} []).die 0).masters).exp = 0 ∧
      ((wMsgs {} [.count 5 3 100]).die 0).msgs.find? (RdvMsg.sets 5 (wMsgs {} []).sidc) = some (.count 5 3 100)) ∧
    (1 ≤ ({ exp := 2, arr := [0, 0x191] } : RdvMaster).exp ∧
      ({ exp := 2, arr := [0, 0x191] } : RdvMaster).exp ≤ ({ exp := 2, arr := [0, 0x191] } : RdvMaster).arr.length) ∧
    (((wMsgs { exp := 1 } [.arrive 5 0 100]).die 0).msgs = [.arrive 5 0 100] ∧ 100 ≤ (wMsgs { exp := 1 } []).sidc ∧
      (wMsgs { exp := 1 } []).teamDies 0 = [0] ∧ ((wMsgs { exp := 1 } []).die 0).masters = [(5, { exp := 1 })] ∧
      ({ exp := 1 } : RdvMaster).arr.length + 1 = ({ exp := 1 } : RdvMaster).exp) ∧
    (((wMsgs {} [.phase 23 1 0 0x191 100]).die 0).msgs = [.phase 23 1 0 0x191 100] ∧ (0x191 : BitVec 9) ≠ 0 ∧ 23 < 24 ∧
      ((wMsgs {} [.phase 23 1 0 0 100]).die 0).msgs = [.phase 23 1 0 0 100]) := by decide +kernel

theorem witness_RendezvousPhases_none_due :
    ∀ ph eh e a, RdvMsg.phase 5 ph eh e a ∈ ((wMsgs {} [.count 5 3 100]).die 0).msgs → (wMsgs {} []).sidc < a :=
  fun _ _ _ _ h => absurd (List.mem_singleton.mp h) (fun h => by cases h)

/-- One release at N2, or one that still waits for request 7. -/
def wRelease (r : Release) : State := (wBase .c).updDie fun d => d.setSta 2 { d.sta 2 with releases := [r] }
def wRdva (e : Byte) : Release := { pt := some 5, handle := 0, ctr := 0, marks := [], err := e }
def wTrig : Release := { pt := none, handle := 3, ctr := 9, marks := [], err := 0 }
def wMarked : State := wRelease { wTrig with marks := [7] }
/-- A team of dies 0 and 1, die 1 issuing. -/
def wTwo : State :=
  { wBase .c with focus := { (wBase .c).focus with die := 1 }, hub := { teams := [{ wTeam with dies := [0, 1] }] } }
def wTrace (l : List (Four W64)) : State := { wBase .c with hub := { trcctl := 0x800000000000000A, trcstore := l } }

theorem witness_ReleasesAndMarks :
    ((wBase .c).masterOf (wBase .c).focus.die = (wBase .c).focus.die ∧ wTwo.masterOf wTwo.focus.die ≠ wTwo.focus.die ∧
      (wBase .c).hub.trcctl.getLsbD 63 = false ∧ (wTrace []).hub.trcctl.getLsbD 63 = true ∧ (wTrace []).hub.trcstore.length < 4096 ∧
      4096 ≤ (wTrace (List.replicate 4096 (Four.all 0))).hub.trcstore.length) ∧
    (∀ p, ∀ r ∈ ((wMarked.die 0).sta p).releases, r.marks ≠ []) ∧
    (∀ q, (((wRelease (wRdva 0x91)).die 0).sta q).releases = if q = 2 then [wRdva 0x91] else []) ∧
    (∀ q, (((wRelease (wRdva 0)).die 0).sta q).releases = if q = 2 then [wRdva 0] else []) ∧
    (∀ q, (((wRelease wTrig).die 0).sta q).releases = if q = 2 then [wTrig] else []) := by decide +kernel

/-- An L stream whose a1 is `v`; bank 1 holds MX8 with its scales from row 4 on. -/
def wA (v : W64) : State :=
  (wBase .l).updSta fun x => { x with aL := [(1, v)], fmt := [(1, { ty := 6, srow := 4 })] }

theorem witness_BankRowsLoadedAndStored :
    (rowPlan (wA 0).curSta 0x7F00 1 15 false).ok = true ∧ (rowPlan (wA 0).curSta 0x7F00 2 0 false).ok = false ∧
    (rowPlan (wA 0).curSta 0x8000 16 0 false).ok = true ∧ (rowPlan (wA 0).curSta 0x8300 16 0 false).ok = false ∧
    physOf (wA 0).curSta.rotd 3 = some 3 ∧ 16 = (15 : BitVec 4).toNat + 1 ∧
    0x7F00 = (wA 0x7E00).scal (.reg 1) + (1 : BitVec 24).signExtend 64 * 256 := by decide +kernel

theorem witness_WordAndRemoteAccess :
    (0x3FFF8 = ((wA 0x3FFF0).scal (.reg 1) + (8 : W32).signExtend 64).toNat ∧ 0x3FFF8 % 8 = 0 ∧ 0x3FFF8 < 2 ^ 18) ∧
    (0x40000 = ((wA 0x3FFF8).scal (.reg 1) + (8 : W32).signExtend 64).toNat ∧
      4 = ((wA 4).scal (.reg 1) + (0 : W32).signExtend 64).toNat ∧ 4 % 8 ≠ 0) ∧
    physOf (wA 0).curSta.rotd 3 = some 3 ∧
    bankForm ((wA 0x00C0000000007F00).scal (.reg 1)) = some (64, 0, 127) ∧ 127 + 1 ≤ 128 ∧ (15 : BitVec 4).toNat + 1 ≤ 16 ∧
    64 = min (((64 : Pos).val + 128 - (wA 0).focus.pos.val) % 128) (((wA 0).focus.pos.val + 128 - (64 : Pos).val) % 128) ∧
    (∀ r ∈ bankForm ((wA 0x00C0000000007F00).scal (.reg 1)), 128 < r.2.2 + 2 ∨ 16 < (0 : BitVec 4).toNat + 2) := by decide +kernel

/-- Buffer 2 of the station in state `st`, with `w` hauls writing it. -/
def wBuf (st : BitVec 2) (w : Nat) : Buf :=
  { declared := true, bank := 0, first := 3, last := 9, reads := 2, st := st, writers := w }
def wBufs (st : BitVec 2) (w : Nat) : State := (wBase .l).updSta fun x => { x with buf := [(2, wBuf st w)] }

theorem witness_FormatsBuffersAndEdges :
    ((∃ t, tyOf 6 = some t ∧ ((mxOf t).isSome = true → 1 ≤ (124 : BitVec 7).toNat ∧ (124 : BitVec 7).toNat ≤ srowMax t)) ∧
      (∀ t, tyOf 6 = some t → (mxOf t).isSome = true ∧ ((125 : BitVec 7) = 0 ∨ srowMax t < (125 : BitVec 7).toNat)) ∧
      (∀ t, tyOf 14 = some t → (mxOf t).isSome = true ∧ ((1 : BitVec 7) = 0 ∨ srowMax t < (1 : BitVec 7).toNat))) ∧
    declCause (wBufs 0 0).curSta 0x38142800 = none ∧ declCause (wBufs 0 0).curSta 0x30000001 = some .reservedBits ∧
    declCause (wBufs 1 0).curSta 0x28142800 = some .bufState ∧ declCause (wBufs 0 0).curSta 0x38082800 = some .bankRange ∧
    (kget {} 2 (wBufs 1 0).curSta.buf : Buf).declared = true ∧ (wBuf 1 0).writers = 0 ∧ (wBuf 2 0).st ≠ 3 ∧
    (kget {} 5 (wBufs 1 0).curSta.buf : Buf).declared = false ∧ (wBuf 3 0).st = 3 ∧ (wBuf 1 1).st = 1 ∧ (wBuf 1 1).writers ≠ 0 ∧
    (0x3FF00 = (wA 0x3FE00).scal (.reg 1) + (0x100 : W32).signExtend 64 ∧ (0x3FF00 : W64).toNat % 256 = 0 ∧
      (0x3FF00 : W64).toNat < 2 ^ 18 ∧ (0x3FF80 : W64).toNat % 256 ≠ 0 ∧ 2 ^ 18 ≤ (0x40000 : W64).toNat) ∧
    ((1 : Nat) = (([((0, .l, 7) : Pos × Strm × Nat)].filter fun w => !(wBuf 2 0).seen.contains w).eraseDups).length ∧
      (wBuf 2 0).reads ≠ 0 ∧ (wBuf 2 0).nread + 1 < (wBuf 2 0).reads.toNat ∧ ({ wBuf 2 0 with reads := 0 } : Buf).reads = 0 ∧
      (wBuf 3 0).reads.toNat ≤ ({ wBuf 3 0 with nread := 1 } : Buf).nread + 1) ∧
    (bit (0x30000000 : W32) 27 = false ∧ bit (0x38142800 : W32) 27 = true ∧ ({} : Buf).declared = false ∧
      (wBuf 0 0).st = 0 ∧ (wBuf 0 0).writers = 0 ∧ Eoc.bufWrite 0 2 ∈ [Eoc.bufRead 0 2 (0, .l, 7), .bufWrite 0 2]) ∧
    (Eoc.bufWrite 0 2).bufKey = some (0, 2) :=
  ⟨⟨⟨.mx8, by decide⟩, fun t h => by cases h; decide, fun t h => by cases h⟩, by decide +kernel⟩

/-- Accesses at port A in the current cycle of die 0. -/
def wPort (l : List PortA) : State := (wBase .l).updDie fun d => { d with portA := l }
def wAst : PortA :=
  { at_ := 10, pos := 3, bank := 1, row := 127, wr := true, by_ := 3, strm := .s, parcel := 0x20, issued := 9, kind := .ast 248 5,
    checked := false }
def wAld : PortA := { wAst with wr := false, strm := .l, issued := 10, kind := .ald 4 0 }

theorem witness_BankPortAccess :
    (∀ a ∈ ((wPort [{ wAst with at_ := 11 }]).die 0).portA, a.at_ ≠ ((wPort []).die 0).dcyc) ∧
    (((wPort [wAst]).die 0).portA = [wAst] ∧ wAst.at_ = ((wPort [wAst]).die 0).dcyc ∧ wAst.wr = true ∧ wAst.kind = .ast 248 5 ∧
      248 + 8 ≤ 256 ∧ ∀ e ∈ (((wPort [wAst]).die 0).sta wAst.pos).buf, e.2.declared = false) ∧
    (((wPort [wAld]).die 0).portA = [wAld] ∧ wAld.at_ = ((wPort [wAld]).die 0).dcyc ∧ wAld.wr = false ∧ wAld.kind = .ald 4 0 ∧
      (4 : BitVec 6) ≠ 0 ∧ (∀ e ∈ (((wPort [wAld]).die 0).sta wAld.pos).buf, e.2.declared = false) ∧ ((wPort [wAld]).die 0).bad = []) ∧
    (((wPort [wAst, wAld]).die 0).portA = [wAst, wAld] ∧ wAst.pos = wAld.pos ∧ wAst.bank = wAld.bank ∧ wAst.issued < wAld.issued ∧
      { wAld with issued := 8 }.issued < wAst.issued) := by
  decide +kernel

/-- A load, or a store, of one register row under way at N3. -/
def wLoadJob (col : Bool) : LoadJob :=
  { parcel := 0x20, issued := 9, raw := true, col := col, name := 3, phys := 3, vrow := 0, nr := 1, epr := 64, fmt := {}, bank := 1,
    row := 127, got := [] }
def wStoreJob : StoreJob :=
  { parcel := 0x20, issued := 9, phys := 3, vrow := 0, nr := 1, raw := true, epr := 64, fmt := {}, bank := 1, row := 127,
    got := [(0, 5)] }
def wJobs (l : List LoadJob) (m : List StoreJob) : State :=
  (wPort [wAst]).updDie fun d => d.setSta 3 { d.sta 3 with loads := l, stores := m }

theorem witness_BankPortAccess_jobs :
    ((((wJobs [wLoadJob false] []).die 0).sta wAst.by_).loads = [wLoadJob false] ∧ (wLoadJob false).issued = wAst.issued ∧
      (wLoadJob false).col = false ∧ (wLoadJob true).col = true ∧ (wLoadJob true).got = (List.range 0).map fun m => (m, ([], 0))) ∧
    (0 + 1 = (64 * (wLoadJob true).nr + (wLoadJob true).epr - 1) / (wLoadJob true).epr ∧ 0 < (wLoadJob true).epr) ∧
    ((((wJobs [] [wStoreJob]).die 0).sta wAst.by_).stores = [wStoreJob] ∧ wStoreJob.issued = wAst.issued ∧
      wStoreJob.got = (List.range 1).map (fun i => (i, (5 : Row))) ∧ min ((0 + 1) * wStoreJob.epr) (64 * wStoreJob.nr) ≤ 64 * 1 ∧
      1 ≤ wStoreJob.nr ∧ wStoreJob.raw = true ∧ wStoreJob.epr = (if wStoreJob.raw then 64 else 0) ∧
      (wStoreJob.got.find? fun e => e.1 == 0) = some (0, 5)) ∧
    ((wPort [wAst]).die 0).bad = [] ∧ { wAst with kind := .feed .fwd 0 20 }.kind = .feed .fwd 0 20 ∧
    { wAst with kind := .rst 0 }.kind = .rst 0 ∧ { wAst with kind := .load 0 }.kind = .load 0 ∧
    { wAst with kind := .store 0 }.kind = .store 0 ∧ { wAst with kind := .rld 3 3 0 14 }.kind = .rld 3 3 0 14 := by decide +kernel

/-- Row 127 of bank 1 of N3 stands in a buffer, which is full. -/
def wPortBuf : State :=
  (wPort [wAst]).updDie fun d => d.setSta 3 { d.sta 3 with buf := [(2, { wBuf 2 0 with bank := 1, first := 120, last := 127 })] }

theorem witness_BankPortAccess_rows :
    ((wPortBuf.die 0).portA = [wAst] ∧ wAst.checked = false ∧ wAst.wr = true ∧
      ∃ e ∈ ((wPortBuf.die 0).sta wAst.pos).bufsOf wAst.bank ((wPortBuf.die 0).accessRows wAst), e.2.st ≠ 0 ∧ e.2.st ≠ 1) ∧
    (({ ty := 0 } : BankFmt).type = .f32 ∧ 63 < tyEpr ({ ty := 0 } : BankFmt).type) ∧
    ((List.range 16).any fun k => (intTy (BankFmt.type { ty := BitVec.ofNat 4 k })).isSome) = true ∧
    ((List.range 16).any fun k => (intTy (BankFmt.type { ty := BitVec.ofNat 4 k })).isNone &&
      (mxOf (BankFmt.type { ty := BitVec.ofNat 4 k })).isNone && (BankFmt.type { ty := BitVec.ofNat 4 k } != .f32)) = true ∧
    (mxOf ({ ty := 6, srow := 4 } : BankFmt).type).isSome = true ∧ 32 ≤ tyEpr ({ ty := 6, srow := 4 } : BankFmt).type ∧
    ([0, 0] ++ List.replicate 30 (0 : W32)).length % 32 = 0 := by decide +kernel

/-- The vector state of die 0 with writes in flight at N3, or FPCTL events there. -/
def wLand (l : List WriteRec) (f : List FlagRec) : State :=
  (wBase .x).updDie fun d => d.setSta 3 { d.sta 3 with writes := l, flags := f, fpctl := 0x700 }
def wWrite (t : WTarget) : WriteRec := { strm := .c, parcel := 0x20, issued := 8, land := 10, name := 3, by_ := 3, target := t }
def wFlag : FlagRec := { strm := .x, parcel := 0x20, issued := 5, land := 10, bits := 7 }

/-- A write to v3 of N3, which died in die cycle 8 after the word had issued. -/
def wDied : Die :=
  let d := (wLand [wWrite (.v 3 0 1 0)] []).die 0
  d.setSta 3 { d.sta 3 with died := [(3, 9)] }

/-- Die 0 with one effect that waits for the end of its cycle. -/
def wEoc (e : List Eoc) : Die := { (wBase .c).curDie with eoc := e }

theorem witness_WritesLand_close :
    (wEoc []).arrEvents = [] ∧ (wEoc []).nanAdd = 0 ∧ (wEoc []).nancnt < 2 ^ 32 ∧ (wEoc []).eoc = [] ∧
    (wEoc [.rotate 2]).eoc = [.rotate 2] ∧ (wEoc [.csr 2 9 7]).eoc = [.csr 2 9 7] ∧
    [0x020, 0x021, 0x022, 0x040, 0x041].contains 0x021 = true ∧ [0x020, 0x021, 0x022, 0x040, 0x041].contains 0x009 = false ∧
    (2 : Pos) ≠ 3 := by decide +kernel

theorem witness_WritesLand :
    (∀ q, (((wBase .x).die 0).sta q).writes = [] ∧ (((wBase .x).die 0).sta q).flags = []) ∧
    (∀ q, q ≠ 3 → (((wLand [wWrite (.v 3 0 1 0), wWrite (.v 3 0 1 1)] [wFlag]).die 0).sta q).writes = [] ∧
      (((wLand [wWrite (.v 3 0 1 0), wWrite (.v 3 0 1 1)] [wFlag]).die 0).sta q).flags = []) ∧
    (((wLand [wWrite (.v 3 0 1 0)] []).die 0).sta 3).writes = wWrite (.v 3 0 1 0) :: [] ∧
    (wWrite (.v 3 0 1 0)).land = ((wLand [] []).die 0).dcyc ∧ ((wLand [] []).die 0).bad = [] ∧
    (3 : BitVec 5).toNat < 16 + (((wLand [] []).die 0).sta 3).rotd.d ∧ kget 0 3 (((wLand [] []).die 0).sta 3).died ≤ 8 ∧
    (WTarget.v 3 0 1 0).null = false ∧ (wWrite (.v 3 0 1 0)).issued < kget 0 3 (wDied.sta 3).died ∧
    (wDied.sta 3).writes = [wWrite (.v 3 0 1 0)] ∧
    (WTarget.v 3 0 1 0).sameUnit (.v 3 0 1 1) = true ∧ 16 + (((wLand [] []).die 0).sta 3).rotd.d ≤ (16 : BitVec 5).toNat ∧
    (((wLand [] [wFlag]).die 0).sta 3).flags = [wFlag] ∧ wFlag.land = ((wLand [] [wFlag]).die 0).dcyc ∧
    (wWrite (.e 2 0x100)).target = .e 2 0x100 ∧ (wWrite (.e 2 0x100)).strm = .c := by decide +kernel

theorem witness_DeadNamesAndPipeClashes :
    (physOf (wBase .x).curSta.rotd 15).isSome = true ∧ physOf (wBase .x).curSta.rotd 16 = none ∧
    ((16 : BitVec 5).toNat < 16 + (3 : Nat)) ∧ ¬ (16 : BitVec 5).toNat < 16 + (wBase .x).curSta.rotd.pd ∧
    (∀ n ∈ vopSrc (.r 15), (physOf (wBase .x).curSta.rotd n).isSome = true) ∧
    ((wBase .x).updSta fun x => { x with pipeFree := 11 }).cyc < ((wBase .x).updSta fun x => { x with pipeFree := 11 }).curSta.pipeFree := by
  decide +kernel

theorem w_pipeReady : (wBase .x).pipeReady := ⟨rfl, by decide +kernel⟩

theorem w_operandLive : (wBase .x).operandLive (.r 15) ∧ (wBase .x).operandLive (.i 7) :=
  ⟨fun n h => List.mem_singleton.mp h ▸ (by decide +kernel), fun n h => by cases h⟩

/-- What the words of the vector pipe ask for: a free pipe and live names. -/
def WVectorHyps : Prop :=
    (wBase .x).pipeReady ∧ (wBase .x).operandLive (.r 15) ∧ (physOf (wBase .x).curSta.rotd 0).isSome = true ∧
    (physOf (wBase .x).curSta.rotd 1).isSome = true ∧ (physOf (wBase .x).curSta.rotd 15).isSome = true

theorem w_vector : WVectorHyps := ⟨w_pipeReady, w_operandLive.1, by decide +kernel⟩

theorem witness_VectorArithmetic : WVectorHyps := w_vector
theorem witness_VectorBitsMovesAndClasses : WVectorHyps := w_vector
theorem witness_MaskWords : WVectorHyps := w_vector
theorem witness_VectorConversions : WVectorHyps := w_vector
theorem witness_SpecialFunctionWords : WVectorHyps := w_vector

theorem witness_VectorBitsMovesAndClasses_classes :
    fclass 0x80000000 ≤ 3 ∧ 4 ≤ fclass 0x7F800000 ∧ fclass 0x7F800000 ≤ 7 := by decide +kernel

theorem witness_MovementAndReductions :
    (wBase .x).pipeReady ∧ (wBase .x).operandLive (.r 15) ∧ (physOf (wBase .x).curSta.rotd 15).isSome = true ∧
    ([some 1, none, some 3, some 4] : List (Option W32)).length = 2 ^ 2 :=
  ⟨w_pipeReady, w_operandLive.1, by decide +kernel⟩

/-- -2.5, 3, 1/2 and -150 as values of the unit. -/
theorem witness_SpecialFunctionWords_exact :
    readF32 0xC0200000 = .num true 0xA00000 (-22) ∧ readF32 0x40400000 = .num false 0xC00000 (-22) ∧ readF32 0x3F000000 = .num false 0x800000 (-24) ∧
    readF32 0xC3160000 = .num true 0x960000 (-16) ∧ 2 ^ 23 ≤ 0xA00000 ∧
    2 * inUnits true 0xA00000 (-22) (min (-22) 0) = (2 * -3 + 1) * 2 ^ (-(min (-22) 0) : Int).toNat ∧
    inUnits false 0xC00000 (-22) (min (-22) 0) = 3 * 2 ^ (-(min (-22) 0) : Int).toNat ∧
    inUnits true 0x960000 (-16) (min (-16) 0) = -150 * 2 ^ (-(min (-16) 0) : Int).toNat ∧
    (0x80000001 : W32).toNat / 2 ^ 23 % 256 = 0 ∧ readF32 0xFFC00000 = .nan := by decide +kernel

theorem witness_SpecialFunctionWords_table :
    (Sfu.cos, (0xFF800000 : W32), (0x7FC00000 : W32), false, true) ∈ sfuSpecials := by decide +kernel

/-- A far request of N3 on die 0, waiting to be translated, and one sent to die 1. -/
def wReq (op : FarOp) : FarReq :=
  { seq := 4, src := .fq 2, pos := 3, port := 3, strm := .l, parcel := 0x20, issued := 90, va := 0x10000, lo := 0, hi := 63, row := 5, op := op,
    phase := .pend 90 }
/-- The same request on its way to die 1, at that home, and answered. -/
def wSent (op : FarOp) (at_ : Option Nat) : FarReq := { wReq op with phase := .sent 1 0x5000 at_ }
def wHere (op : FarOp) : FarReq := { wReq op with phase := .here 1 0x5000 95 120 0 }
def wBack (op : FarOp) (err : Byte) (at_ : Option Nat) : FarReq := { wReq op with phase := .back 1 7 err at_ }
def wSc : FarOp := .amosc .addI 1 0 80

/-- The L stream of N0 with the far queue 2 holding `l`, and `n` stores on its path. -/
def wFq (l : List FqSlot) (n : Nat) : State :=
  ((wBase .l).updSta fun x => { x with fq := [(2, l)], aL := [(1, 0x00050000000100FC)] }).setFs 0
    { (wBase .l).fs 0 with reqs := List.replicate n { wReq .read with src := .path, pos := 0 } }
def wSlot (data : Option Row) : FqSlot := { seq := 4, row := 5, lo := 0, hi := 63, va := 0x10000, data := data, home := none, dla := 0 }

theorem witness_FarQueueWords :
    (0xFFFFFFFFFFFC = ((wFq [] 0).scal (.reg 0) + (-4 : BitVec 22).signExtend 64).toNat % 2 ^ 48 ∧ 63 = 0xFFFFFFFFFFFC % 256 / 4 ∧
      63 = min 63 (63 + (63 : BitVec 6).toNat)) ∧
    physOf (wFq [] 0).curSta.rotd 3 = some 3 ∧ (wFq [] 0).curDie.bad = [] ∧
    ((wFq [] 0).curSta.fqOf 2).length < 16 ∧ 16 ≤ ((wFq (List.replicate 16 (wSlot none)) 0).curSta.fqOf 2).length ∧
    (wFq [] 0).curSta.fqOf 2 = [] ∧ (wFq [wSlot none] 0).curSta.fqOf 2 = wSlot none :: [] ∧
    (wFq [wSlot (some 7)] 0).curSta.fqOf 2 = wSlot (some 7) :: [] ∧
    (((wFq [] 31).fs 0).reqs.filter fun r => r.pos == (wFq [] 31).focus.pos && r.src == .path).length < 32 ∧
    32 ≤ (((wFq [] 32).fs 0).reqs.filter fun r => r.pos == (wFq [] 32).focus.pos && r.src == .path).length := by decide +kernel

theorem witness_AtomicWordsAndResults :
    (0x100FC = ((wFq [] 0).scal (.reg 1)).toNat % 2 ^ 48 ∧ (5 : BitVec 4).toNat = ((wFq [] 0).scal (.reg 1)).toNat / 2 ^ 48 % 16) ∧
    false = (kget 0 ((wFq [] 0).sidc % 256 / 64) (wFq [] 0).curSta.scslot).getLsbD ((wFq [] 0).sidc % 64) ∧
    true = (kget 0 (100 % 256 / 64) ((wFq [] 0).updSta fun x => { x with scslot := [(1, 2 ^ 36)] }).curSta.scslot).getLsbD (100 % 64) ∧
    ((wFq [] 0).curSta.fqOf 2).length < 16 ∧ 16 ≤ ((wFq (List.replicate 16 (wSlot none)) 0).curSta.fqOf 2).length ∧
    (((wFq [] 31).fs 0).reqs.filter fun r => r.pos == (wFq [] 31).focus.pos && r.src == .path).length < 32 ∧
    32 ≤ (((wFq [] 32).fs 0).reqs.filter fun r => r.pos == (wFq [] 32).focus.pos && r.src == .path).length := by decide +kernel

/-- Die 0 with one request in flight and die 1's controller out of reset. -/
def wFlight (r : FarReq) : State :=
  ((wBase .l).setFs 0 { (wBase .l).fs 0 with flight := [r] }).setFs 1 { (wBase .l).fs 1 with mcReset := false }

/-- The request waits at die 1, whose granule of it has had an access in cycle `at_`. -/
def wHome (r : FarReq) (at_ : Nat) : State :=
  (wFlight r).setFs 1 { (wFlight r).fs 1 with here := [(0, 4)], touched := [0x50], touchedAt := at_ }

theorem witness_FarAccessesPerformed :
    ((wReq .read).lo ≤ (wReq .read).hi ∧ (wReq .read).hi < 64 ∧ 0x5000 % 256 = 0 ∧ ((wBase .l).fs 0).mcReset = true ∧
      ((wFlight (wReq .read)).fs 1).mcReset = false ∧ ((wFlight (wReq .read)).fs 1).badWords = [] ∧
      (∃ k ∈ ({ badWords := [0x1400] } : FarSide).badWords, 0x5000 / 4 + (wReq .read).lo ≤ k ∧ k ≤ 0x5000 / 4 + (wReq .read).hi) ∧
      (wReq .read).op = .read ∧ (wReq (.write 9)).op = .write 9 ∧ (wReq (.amo .cas true 1 2)).op = .amo .cas true 1 2 ∧
      (wReq (.amo .cas false 1 2)).op = .amo .cas false 1 2 ∧ (wReq wSc).op = .amosc .addI 1 0 80) ∧
    (((wBase .l).fs 1).here = [] ∧ ∀ d, ∀ r ∈ ((wBase .l).fs d).flight, r.reaches 1 (wBase .l).sidc = none) ∧
    (∀ r ∈ [wHere .read, wHere (.write 9), wHere wSc],
      ((wHome r 99).fs 1).here = [(0, r.seq)] ∧ ((wHome r 99).fs 0).flight = [r] ∧ (∀ e, e ≠ 0 → ((wHome r 99).fs e).flight = []) ∧
      r.phase = .here 1 0x5000 95 120 0) ∧
    (((wHome (wHere .read) 100).fs 1).touchedAt = (wHome (wHere .read) 100).sidc ∧
      0x5000 / 256 ∈ ((wHome (wHere .read) 100).fs 1).touched ∧
      ((wHome (wHere .read) 99).fs 1).touchedAt ≠ (wHome (wHere .read) 99).sidc) := by decide +kernel

theorem witness_FarAccessesPerformed_arrivals :
    (∀ r ∈ [wSent .read (some 100), wSent wSc (some 99), wSent (.amo .cas true 1 2) (some 100)],
      ((wFlight r).fs 1).here = [] ∧ ((wFlight r).fs 0).flight = [r] ∧ (∀ e, e ≠ 0 → ((wFlight r).fs e).flight = [])) ∧
    ((wSent .read (some 100)).phase = .sent 1 0x5000 (some 100) ∧ 100 ≤ (wFlight (wReq .read)).sidc ∧ (1 : DieId) ≠ 0 ∧
      dlaVault 0x5000 = false ∧ dlaVault 0x1000000100 = true) := by decide +kernel

theorem witness_FarAccessesPerformed_ops :
    (∀ v, (wReq .read).op ≠ .write v) ∧ ∀ op y c st, (wHere .read).op ≠ .amosc op y c st :=
  ⟨fun _ h => FarOp.noConfusion h, fun _ _ _ _ h => FarOp.noConfusion h⟩

/-- A page of level 2 for reads and writes on die 1 in the TLB, or not, with a valid root, or not. -/
def wLeaf (perm : W64) : W64 := 0x50000 ||| (5 <<< 5) ||| 3 ||| perm
def wTlb (l : List TlbEntry) (root : W64) : State :=
  (wBase .l).setFs 0 { (wBase .l).fs 0 with reqs := [wReq .read], tlb := l, xroot := root }
def wEntry (perm : W64) : TlbEntry := { level := 2, vpn := 1, entry := wLeaf perm }

/-- An AMOSC at die 1, whose latest mark from die 1 is `n` - 1; and another of die 2 behind it. -/
def wMarks (n : Nat) : State :=
  let s := { wHome (wHere wSc) 99 with hub := { teams := [{ wTeam with dies := [0, 1] }] } }
  s.setFs 1 { s.fs 1 with marks := [(0, 90), (1, n)] }
def wSc2 : FarReq := { wHere (.amosc .addI 1 0 85) with seq := 9, phase := .here 1 0x6000 95 120 0 }
def wMarks2 (n : Nat) : State :=
  let s := (wMarks n).setFs 2 { (wMarks n).fs 2 with flight := [wSc2] }
  s.setFs 1 { s.fs 1 with here := [(0, 4), (2, 9)] }

/-- A mark of die 0 on its way to die 1, perhaps behind an AMOSC. -/
def wMark : Mark := { from_ := 0, stamp := 85, sent := 96, by_ := some 100 }
def wMarkIn (l : List FarReq) : State :=
  ((wBase .l).setFs 0 { (wBase .l).fs 0 with flight := l }).setFs 1 { (wBase .l).fs 1 with marksIn := [wMark] }

/-- Two requests of die 0 that are translated, of far queue 2 and of the store path. -/
def wHomed (src : FarSrc) (seq : Nat) : FarReq := { wReq .read with src := src, seq := seq, phase := .home 1 0x5000 99 }
def wLeaving : State := (wBase .l).setFs 0 { (wBase .l).fs 0 with reqs := [wHomed .path 4, wHomed (.fq 2) 5] }

/-- Whether the TLB's hit is taken is a free value (log 25): either answer, and no other, can be. -/
theorem witness_RequestsLeaveInWheelOrder_hit :
    (wTlb [wEntry 4] 0).tlbAnswer 0 (wReq .read).va = some (wEntry 4) ∨ (wTlb [wEntry 4] 0).tlbAnswer 0 (wReq .read).va = none := by
  unfold State.tlbAnswer
  split
  · exact .inl (by decide +kernel)
  · exact .inr rfl

theorem witness_RequestsLeaveInWheelOrder_miss : (wTlb [] 0).tlbAnswer 0 (wReq .read).va = none := by
  unfold State.tlbAnswer
  split
  · decide +kernel
  · rfl

theorem witness_RequestsLeaveInWheelOrder :
    (((wTlb [] 0).fs 0).reqs = [wReq .read] ∧ (wReq .read).phase = .pend 90 ∧ 90 ≤ (wTlb [] 0).sidc ∧
      102 = max ((wReq .read).issued + 4) ((wTlb [] 0).sidc + 2) ∧ ((wTlb [] 0).die 0).bad = [] ∧
      (∀ p, (((wTlb [] 0).die 0).sta p).fences = [])) ∧
    (leafTo ((wTlb [] 0).fs 0).regions (wReq .read).op 2 (wLeaf 4) (wReq .read).va = .ok (1, 0x50000) ∧
      leafTo ((wTlb [] 0).fs 0).regions (wReq .read).op 2 (wLeaf 8) (wReq .read).va = .error 0xA1) ∧
    (((wTlb [] 0).fs 0).noRoot = true ∧
      ((wTlb [] 0x8000000000050080).fs 0).noRoot = false ∧ ((wTlb [] 0x8000000000050080).fs 0).walks = []) ∧
    (¬ (wLeaf 8).getLsbD 2 = true ∧ ¬ (wLeaf 4).getLsbD 3 = true ∧
      ¬ ((wLeaf 12).getLsbD 2 = true ∧ (wLeaf 12).getLsbD 3 = true ∧ (wLeaf 12).getLsbD 4 = true)) ∧
    ((wLeaving.fs 0).reqs = [wHomed .path 4, wHomed (.fq 2) 5] ∧ (wHomed .path 4).phase = .home 1 0x5000 99 ∧ 99 ≤ wLeaving.sidc ∧
      (wHomed .path 4).seq ≠ (wHomed (.fq 2) 5).seq ∧ (wLeaving.die 0).bad = [] ∧ (∀ p, ((wLeaving.die 0).sta p).fences = []) ∧
      (2 : BitVec 3).toNat < 8) ∧
    ((wBase .l).sidc % 16 ≠ 0 ∧ { wBase .l with sidc := 96 }.sidc % 16 = 0) := by decide +kernel

theorem witness_RequestsLeaveInWheelOrder_wheel :
    (((wMarkIn [wSent wSc none]).fs 1).marksIn = [wMark] ∧ wSent wSc none ∈ ((wMarkIn [wSent wSc none]).fs wMark.from_).flight ∧
      (wSent wSc none).phase = .sent 1 0x5000 none ∧ (wSent wSc none).op = .amosc .addI 1 0 80 ∧ 80 < wMark.stamp ∧
      ((wMarkIn []).fs wMark.from_).flight = [] ∧ wMark.by_ = some 100) ∧
    (((wMarks 81).fs 1).here = [(0, (wHere wSc).seq)] ∧ ((wMarks 81).fs 0).flight = [wHere wSc] ∧
      (wHere wSc).op = .amosc .addI 1 0 80 ∧ (wHere wSc).phase = .here 1 0x5000 95 120 0 ∧
      (∃ d ∈ (wMarks 81).teamDies 0, kget 0 d.val ((wMarks 81).fs 1).marks ≤ (wHere wSc).stamp + 1) ∧
      (∀ d ∈ (wMarks 82).teamDies 0, (wHere wSc).stamp + 1 < kget 0 d.val ((wMarks 82).fs 1).marks) ∧
      ((wMarks 82).fs 1).touchedAt ≠ (wMarks 82).sidc) ∧
    (((wMarks2 81).fs 1).here = [(0, (wHere wSc).seq), (2, wSc2.seq)] ∧
      ((wMarks2 81).fs 0).flight.find? (fun r => r.seq == (wHere wSc).seq) = some (wHere wSc) ∧
      ((wMarks2 81).fs 2).flight.find? (fun r => r.seq == wSc2.seq) = some wSc2 ∧ (0 : DieId) ≠ 2 ∧ wSc2.op = .amosc .addI 1 0 85 ∧
      (wHere wSc).stamp < wSc2.stamp ∧ wSc2.phase = .here 1 0x6000 95 120 0 ∧ ((wMarks2 81).fs 1).touchedAt ≠ (wMarks2 81).sidc ∧
      (∃ g ∈ (wMarks2 81).teamDies 0, kget 0 g.val ((wMarks2 81).fs 1).marks ≤ (wHere wSc).stamp + 1) ∧
      (∀ g ∈ (wMarks2 82).teamDies 0, (wHere wSc).stamp + 1 < kget 0 g.val ((wMarks2 82).fs 1).marks)) := by decide +kernel

theorem witness_FarResponses :
    (wReq .read).src ≠ .walk ∧ (wSent .read none).phase = .sent 1 0x5000 none ∧ (wHere .read).phase = .here 1 0x5000 95 120 0 ∧
    ((wBack .read 0 (some 101)).phase = .back 1 7 0 (some 101) ∧ (wBase .l).sidc < 101) ∧
    (((wFlight (wBack .read 0 (some 100))).fs 0).flight = [wBack .read 0 (some 100)] ∧
      (wBack .read 0 (some 100)).phase = .back 1 7 0 (some 100) ∧ 100 ≤ (wBase .l).sidc ∧
      (wBack .read 0 none).src = .fq 2 ∧ (wBack .read 0 none).src ≠ .fq 3) ∧
    (({ wReq .read with phase := .dead 0xA3 100 } : FarReq).phase = .dead 0xA3 100 ∧
      (wBack .read 0xA5 (some 100)).phase = .back 1 7 0xA5 (some 100) ∧ (0xA3 : Byte) ≠ 0 ∧ (0xA5 : Byte) ≠ 0) := by decide +kernel

/-- A walk of die 0 for the page of `wReq`, its table entry read or to be sent. -/
def wWalk (r : WalkRead) : Walk := { va := 0x10000, pos := 3, began := 95, level := 1, home := 1, dla := 0x50000, read := r }
def wWalks (r : WalkRead) : State := (wBase .l).setFs 0 { (wBase .l).fs 0 with walks := [wWalk r] }
def wInval (at_ : Nat) : State := (wBase .l).setFs 0 { (wBase .l).fs 0 with xinval := some { value := 1, at_ := at_ } }

/-- The walk's read, answered with the entry `e` in cycle 100, or with an error. -/
def wRead (e : W64) (err : Byte) : State :=
  let r : FarReq := { wReq .read with seq := 90, src := .walk, phase := .back 1 (e.setWidth 2048) err (some 100) }
  (wWalks (.out 90)).setFs 0 { (wWalks (.out 90)).fs 0 with flight := [r] }

theorem witness_TranslationAndTableWalks :
    (((wWalks (.send 101)).fs 0).walks = [wWalk (.send 101)] ∧ ((((wWalks (.send 101)).fs 0).reqs.map (·.seq)).Nodup) ∧
      (wWalk (.send 101)).read = .send 101 ∧ (wBase .l).sidc < 101 ∧ 100 ≤ (wBase .l).sidc) ∧
    ((wWalk (.out 90)).read = .out 90 ∧ ((wWalks (.out 90)).fs 0).walkGot (wWalk (.out 90)) 90 100 = none ∧
      ((wRead (wLeaf 4) 0).fs 0).walkGot (wWalk (.out 90)) 90 100 = some (wLeaf 4, 0) ∧
      ((wRead 0 0xA5).fs 0).walkGot (wWalk (.out 90)) 90 100 = some (0, 0xA5) ∧ (0xA5 : Byte) ≠ 0) ∧
    ((0 : W64).getLsbD 0 = false ∧ (wLeaf 4).getLsbD 0 = true ∧ (wLeaf 4).getLsbD 1 = true ∧ badLeaf (wLeaf 4) = false ∧
      leafTo ((wWalks (.out 90)).fs 0).regions .read 2 (wLeaf 4 ||| 4) 0x10000 = .ok (1, 0x50000) ∧
      leafTo ((wWalks (.out 90)).fs 0).regions .read 2 ((0x1FFFFF00A3 : W64) ||| 4) 0x10000 = .error 0xA3 ∧
      badLeaf 0x1FFFFF00A3 = false ∧
      (if (0x50023 : W64).getLsbD 1 then badLeaf 0x50023 else badTable 1 0x50023) = true ∧
      (if (0x50021 : W64).getLsbD 1 then badLeaf 0x50021 else badTable 1 0x50021) = true ∧
      (0x500A1 : W64).getLsbD 1 = false ∧ badTable 1 0x500A1 = false ∧ ((wBase .l).fs 0).tlb.length ≤ 4096) ∧
    ((wInval 99).fs 0).xinval = some { value := 1, at_ := 99 } ∧ (wInval 99).sidc < 99 + 2 ∧ ((wBase .l).fs 0).xinval = none ∧
    98 + 2 ≤ (wInval 98).sidc ∧ (∀ w ∈ ((wInval 98).fs 0).walks, 98 < w.began) ∧
    (∃ w ∈ ((wWalks (.send 101)).fs 0).walks, w.began ≤ 95) ∧ (584 % 2340 = 292 * 2 ∧ 2 < 8) := by decide +kernel

/-- An L stream whose a1, a2 and a3 are a haul's source, destination and count; N3's bank 0 has buffer 2 in rows 3 to 9, in state
`st`; the face holds `n` commands. -/
def wHaulCmd (src dst : HaulAddr) (started srcRead : Nat) (grans : List Gran) : HaulCmd :=
  { key := 5, pos := 0, parcel := 0x20, issued := 97, src := src, dst := dst, n := 2, rnd := .rne, af := true, pt := some 5, conv := false,
    sfmt := {}, dfmt := {}, gen := 0, started := started, srcRead := srcRead, lanes := [], made := 0, grans := grans, done := 0, dstN := 2,
    comp := 99, fail := none, writes := [] }
def wHaul (src dst : W64) (st : BitVec 2) (n : Nat) : State :=
  (((wBase .l).updSta fun x => { x with aL := [(1, src), (2, dst), (3, 0xFFF0007F)] }).updDie fun d =>
    d.setSta 3 { d.sta 3 with buf := [(2, wBuf2 st)] }).setFs 0
      { (wBase .l).fs 0 with hauls := List.replicate n (wHaulCmd (.far 0) (.far 0) 0 0 []) }

theorem witness_HaulWord :
    (128 = ((wHaul 0 0 0 0).scal (.reg 3)).toNat % 2 ^ 20 + 1 ∧ haulAddr ((wHaul (2 ^ 48) 0 0 0).scal (.reg 1)) = none) ∧
    (1 = ((wHaul 0 0 0 0).scal (.reg 0)).toNat % 2 ^ 20 + 1 ∧
      haulAddr ((wHaul 0x0083000000000300 0x10000 0 0).scal (.reg 1)) = some (.bank 3 0 3) ∧
      haulAddr ((wHaul 0x0083000000000300 0x10000 0 0).scal (.reg 2)) = some (.far 0x10000)) ∧
    ((wHaul 0 0 0 0).curDie.haulPlan (.bank 3 0 127) (.far 0) 2).ok = false ∧
    ((wHaul 0 0 0 0).curDie.haulPlan (.bank 3 0 3) (.far 0x10000) 1).ok = true ∧
    (bufsAllow false (((wHaul 0 0 0 0).curDie.sideBufs (.bank 3 0 3) {} 1 false).map (·.2)) = false ∧
      bufsAllow false (((wHaul 0 0 2 0).curDie.sideBufs (.bank 3 0 3) {} 1 false).map (·.2)) = true ∧
      bufsAllow true (((wHaul 0 0 2 0).curDie.sideBufs (.bank 3 0 3) {} 1 false).map (·.2)) = false ∧
      bufsAllow true (((wHaul 0 0 1 0).curDie.sideBufs (.bank 3 0 3) {} 1 false).map (·.2)) = true) ∧
    16 ≤ ((wHaul 0 0 0 16).fs 0).faceHauls (wHaul 0 0 0 16).focus.pos ∧
    ((wHaul 0 0 0 15).fs 0).faceHauls (wHaul 0 0 0 15).focus.pos < 16 := by decide +kernel

/-- Banks 0 and 1 of N3 of two types, so that a haul between them converts. -/
def wTypes : Die := let d := (wHaul 0 0 0 0).curDie; d.setSta 3 { d.sta 3 with fmt := [(1, { ty := 6, srow := 4 })] }

theorem witness_HaulWord_plans :
    ((0x10000 : W64).toNat < 2 ^ 48 ∧ 2 ^ 48 ≤ (0x0083000000000300 : W64).toNat) ∧
    (wTypes.haulPlan (.bank 3 0 0) (.bank 3 1 0) 2).conv = true ∧ (wTypes.haulPlan (.bank 3 0 0) (.far 0) 2).conv = false := by
  decide +kernel

/-- One haul command in the engines of die 0, with port A of N3's bank 0 taken in cycle `busy`. -/
def wEngine (c : HaulCmd) (busy : Nat) : State :=
  (wBase .l).setFs 0 { (wBase .l).fs 0 with hauls := [c], busy := [24], busyAt := busy }
def wGran (bits : Nat) : Gran := { i := 1, data := 7, bits := bits, scales := [], readyAt := 99, sent := false, err := 0 }

theorem witness_HaulProgressAndEnds :
    (let c := wHaulCmd (.far 0x10000) (.bank 3 0 3) 1 0 []
     ((wEngine c 100).fs 0).hauls = [c] ∧ c.conv = false ∧ ((wEngine c 100).die 0).bad = [] ∧ c.started < c.n ∧
      c.issued + 2 + c.started ≤ (wEngine c 100).sidc ∧ c.src = .far 0x10000) ∧
    (2 : Nat) ≤ (wHaulCmd (.far 0) (.far 0) 2 0 []).started ∧ 100 < (wHaulCmd (.far 0) (.far 0) 2 0 []).issued + 2 + 2 ∧
    (let c := wHaulCmd (.bank 3 0 3) (.far 0x10000) 1 0 []
     c.srcRead < c.started ∧ ((wEngine c 100).fs 0).portFreeB (wEngine c 100).sidc 3 0 = false ∧
      ((wEngine c 99).fs 0).portFreeB (wEngine c 99).sidc 3 0 = true ∧ c.dst = .far 0x10000) ∧
    (let c := wHaulCmd (.far 0x10000) (.bank 3 0 3) 2 0 [wGran 2048]
     c.grans = wGran 2048 :: [] ∧ (wGran 2048).readyAt < (wEngine c 99).sidc ∧ mxOf c.dfmt.type = none) ∧
    (let c := wHaulCmd (.bank 3 0 3) (.far 0x10000) 2 2 [wGran 2048]
     c.grans = [wGran 2048] ∧ (wGran 2048).sent = false ∧ c.dst = .far 0x10000 ∧ { c with made := 1 }.made = (wGran 2048).i) ∧
    (2 ≤ ({ wBuf2 1 with writers := 2 } : Buf).writers ∧ ({ wBuf2 1 with writers := 1 } : Buf).writers = 1) ∧
    (let c := { wHaulCmd (.far 0) (.far 0) 2 2 [] with done := 2 }
     let cw := { c with writes := [(3, 2), (3, 5)] }
     c.done = c.dstN ∧ c.comp ≤ (wEngine c 99).sidc ∧ c.writes.Nodup ∧ cw.writes.Nodup ∧ (3, 2) ∈ cw.writes ∧ (3, 3) ∉ cw.writes ∧
      ((((wEngine cw 99).updDie fun d => d.setSta 3 { d.sta 3 with buf := [(2, { wBuf2 1 with writers := 1 })] }).die 0).sta 3).bufN 2 =
        { wBuf2 1 with writers := 1 } ∧ c.pt = some 5 ∧
      { c with pt := none, fail := some (1, 0xA3) }.pt = none ∧
      0x1A3 = (match (some (1, 0xA3) : Option (Nat × Byte)) with | some e => if e.2 = 0 then 0 else 256 + e.2.toNat | none => 0)) ∧
    (wHaulCmd (.far 0) (.far 0) 2 2 []).done ≠ (wHaulCmd (.far 0) (.far 0) 2 2 []).dstN := by decide +kernel

theorem witness_HaulProgressAndEnds_scales :
    (mxOf ({ ty := 6, srow := 4 } : BankFmt).type).isSome = true ∧
    (∀ e ∈ mxOf ({ ty := 6, srow := 4 } : BankFmt).type, { wGran 2048 with scales := List.replicate e.2 0x7F }.scales.length = e.2) ∧
    (wGran 2048).bits = 2048 ∧ 3 < (4 : BitVec 7).toNat ∧ (4 : BitVec 7).toNat ≤ 4 := by decide +kernel

/-- The C stream of station `p`. -/
def wAt (p : Pos) : State := { wBase .c with focus := { (wBase .c).focus with pos := p } }

theorem witness_AccumulatorWordsAndSums :
    ((wAt 32).focus.handler = false ∧ physOf (wAt 32).curSta.rotd 3 = some 3 ∧ (wAt 32).curDie.bad = [] ∧
      true = (decide (32 ≤ (wAt 32).focus.pos.val) && decide ((wAt 32).focus.pos.val < 64)) ∧
      false = (decide (32 ≤ (wAt 64).focus.pos.val) && decide ((wAt 64).focus.pos.val < 64)) ∧
      true = decide ((wAt 31).focus.pos.val < 32) ∧ (8 : BitVec 4).toNat + 8 ≤ 16 ∧ 16 < (9 : BitVec 4).toNat + 8 ∧
      (14 : BitVec 4).toNat + 2 ≤ 16) ∧
    (∃ val : W32 → Int, (∀ v ∈ ([0x3F800000, 1, 0xFF800000] : List W32), match readF32 v with
        | .num n m e => val v = (if n then -1 else 1) * (m * 2 ^ (e + 149).toNat : Nat)
        | _ => val v = 0) ∧ (([0x3F800000, 1, 0xFF800000] : List W32).map val).sum = 2 ^ 149 + 1) ∧
    ((-137 - (({ e := 0xFF00 } : Acc).e.toInt) ≥ 0 ∧ (2 ^ 149 + 1) * 2 ^ (-137 - ({ e := 0xFF00 } : Acc).e.toInt).toNat ≥ 2 ^ 75) ∧
      -137 - ({} : Acc).e.toInt < 0 ∧ (0 : Int) ≤ 1 ∧ 1 < 2 ^ (({} : Acc).e.toInt + 137).toNat ∧
      (2 ^ 149 + 1 : Int) = (4096 - ({} : Acc).x) * 2 ^ (({} : Acc).e.toInt + 137).toNat + 1 ∧ true = decide ((1 : Int) ≠ 0)) ∧
    (({} : Acc).x = 0 ∧ ({ m := -1, e := 0, gw := 0x1FFF } : Acc).x = -1 ∧ ({ m := -1, e := 0, gw := 0x1FFF } : Acc).gw.toNat / 2 ^ 13 = 0 ∧
      ({ m := -1, e := 0, gw := 0x1FFF } : Acc).gw.getLsbD 12 = true ∧ ({ gw := 0x8000 } : Acc).gw.getLsbD 15 = true ∧
      ({ gw := 0x4000 } : Acc).gw.getLsbD 14 = true ∧ ({ gw := 0x2000 } : Acc).gw.getLsbD 13 = true) := by
  refine ⟨by decide +kernel, ⟨fun v => if v = 1 then 1 else if v = 0x3F800000 then 2 ^ 149 else 0, ?_, by decide +kernel⟩,
    by decide +kernel, by decide +kernel⟩
  intro v hv
  have h1 : readF32 0x3F800000#32 = .num false 0x800000 (-23) := by decide +kernel
  have h2 : readF32 1#32 = .num false 1 (-149) := by decide +kernel
  have h3 : readF32 0xFF800000#32 = .inf true := by decide +kernel
  obtain rfl | rfl | rfl := by simpa using hv
  · rw [h1]; decide +kernel
  · rw [h2]; decide +kernel
  · rw [h3]; decide +kernel

/-- A die whose window is one cell at (1023, 1023), or the whole array. -/
def wSmall : Window := { row0 := 1023, col0 := 1023, wr := 1, wc := 1 }

theorem witness_FeedingStations :
    wSmall.wr ≥ 1 ∧ wSmall.wc ≥ 1 ∧ wSmall.row0 + wSmall.wr ≤ 1024 ∧ wSmall.col0 + wSmall.wc ≤ 1024 ∧ wSmall.hasRow 1023 = true ∧
    wSmall.hasCol 1023 = true ∧ feedsOf wSmall 0 = [(31, 0, 1023, 1023)] := by decide +kernel

/-- The array of die 0 in cycle 10 with window `wSmall`, its west station's pointer at row `r`, and `l` at work. -/
def wArray (r : Nat) (l : List Work) (f : Die → Die) : State :=
  (wBase .c).updDie fun d => f { (d.setSta 96 { d.sta 96 with e := [(3, BitVec.ofNat 64 (256 * r))], buf := [(2, wBuf2 0)] }) with
    window := wSmall
    works := l }
def wWork : Work :=
  { kind := .fwd, pos := 0, parcel := 0x20, issued := 8, m := 5, adm := 0, win := wSmall, fimg := .mx8, gnan := .gprop, pane := false,
    img := .both, clr := false }

/-- A C stream whose s1 is `v`. -/
def wAnyS (v : W64) : State := (wBase .c).updSta fun x => { x with s := [(1, v)] }

/-- Station 31 after station 0 has issued a word of kind `k` in the same cycle. -/
def wOnce (k : OnceKind) : State := (wAt 31).updDie fun d => { d with once := [{ at_ := (wAt 31).cyc, kind := k, pos := 0 }] }

theorem witness_ArrayModesAndStarts :
    ((0xFFFFF00000 : BitVec 48).toNat = 0xFFFFF00000 ∧ ((wBase .c).scal (.reg 0)).toNat = 0 ∧ false = decide (2 ^ 40 ≤ 0) ∧
      true = decide (2 ^ 40 ≤ ((wAnyS (2 ^ 40)).scal (.reg 1)).toNat) ∧
      0xFFFFF00000 / 2 ^ 30 % 1024 + (0xFFFFF00000 / 2 ^ 10 % 1024 + 1) ≤ 1024 ∧
      1024 < 0xFFFFF00400 / 2 ^ 30 % 1024 + (0xFFFFF00400 / 2 ^ 10 % 1024 + 1)) ∧
    (∀ k : OnceKind, ∀ e ∈ (wBase .c).curDie.once, e.at_ = (wBase .c).cyc → e.kind = k → (wBase .c).focus.pos ≤ e.pos) ∧
    (∀ k : OnceKind, ∃ e ∈ (wOnce k).curDie.once, e.at_ = (wOnce k).cyc ∧ e.kind = k ∧ e.pos < (wOnce k).focus.pos) ∧
    ((wAt 31).focus.pos.val < 32 ∧ 32 ≤ (wAt 63).focus.pos.val ∧ (wAt 63).focus.pos.val < 64 ∧
      ¬ (wAt 32).focus.pos.val < 32 ∧ ¬ (32 ≤ (wAt 64).focus.pos.val ∧ (wAt 64).focus.pos.val < 64)) :=
  ⟨by decide +kernel, fun _ _ h => (by cases h), fun k => ⟨⟨_, k, 0⟩, List.mem_singleton.mpr rfl, rfl, rfl, (by decide : (0 : Pos) < 31)⟩, by decide +kernel⟩

theorem witness_ArrayModesAndStarts_fronts :
    (wBase .c).focus.handler = false ∧
    (wArray 0 [wWork] id).curDie.admitCause (wArray 0 [wWork] id).cyc .fwd 1 false 0 = some .admitClash ∧
    (wArray 0 [] id).curDie.admitCause (wArray 0 [] id).cyc .fwd 0 true 0 = none ∧
    (wArray 0 [] id).curDie.admitCause (wArray 0 [] id).cyc .fwd 1024 false 0 = none ∧
    (∃ k ∈ (wArray 0 [wWork] id).curDie.works, k.kind = fkWork .fwd ∧
      (wArray 0 [wWork] id).cyc < k.issued + k.m) := by decide +kernel

/-- The checks of an ADMIT of one front on `wSmall`: an earlier ADMIT of the cycle, or a front at work, or neither; its buffers full or not. -/
theorem witness_ArrayModesAndStarts_checks :
    ((wArray 0 [] id).curDie.window = wSmall ∧ 1 ≤ wSmall.wr ∧ 1 ≤ wSmall.wc ∧ wSmall.row0 + wSmall.wr ≤ 1024 ∧
      wSmall.col0 + wSmall.wc ≤ 1024 ∧ (wArray 0 [] id).curDie.works = [] ∧ (wArray 0 [] id).curDie.once = [] ∧
      (wArray 0 [wWork] id).curDie.works = [wWork] ∧ wWork.win = wSmall) ∧
    (∃ e ∈ (wOnce (.admits .fwd)).curDie.once, e.at_ = (wOnce (.admits .fwd)).cyc ∧ e.kind = .admits (fkWork .fwd) ∧
      e.pos < (wOnce (.admits .fwd)).focus.pos) ∧
    ((1 : BitVec 24).toNat ≠ 0 ∧ (true = decide (2 ^ 24 ≤ ((wAnyS (2 ^ 24)).scal (.reg 1)).toNat)) ∧
      (∃ f ∈ feedsOf wSmall 0, 1024 < (wArray 0 [] id).curDie.edgeRow f + 1025) ∧
      ¬(false = true ∨ ∃ f ∈ feedsOf wSmall 0, 1024 < (wArray 0 [] id).curDie.edgeRow f + 1)) ∧
    (∀ st ∈ [(0 : BitVec 2), 2], fedBuffers ((wArray 3 [] fun d => d.setSta 96 { d.sta 96 with buf := [(2, wBuf2 st)] }).curDie) (feedsOf wSmall 3) 1 (· = 2) ↔
      st = 2) ∧
    (∀ st ∈ [(0 : BitVec 2), 2], fedBuffers ((wArray 3 [] fun d => d.setSta 96 { d.sta 96 with buf := [(2, wBuf2 st)] }).curDie) (feedsOf wSmall 3) 1
      (fun b => b = 0 ∨ b = 1) ↔ st = 0) := by
  simp only [fedBuffers]
  decide +kernel

theorem witness_ArrayModesAndStarts_seat :
    (1 = ((wArray 0 [] id).curDie.window.wc + 1) / 2 ∧ feedsOf wSmall 3 = [(96, 3, 1023, 1023)]) ∧
    (let t := wArray 0 [] fun d => { d with seatUntil := 10, liftUntil := 10 }
     0 < t.curDie.seatUntil ∧ t.cyc ≤ t.curDie.seatUntil ∧ 0 < t.curDie.liftUntil ∧ t.cyc ≤ t.curDie.liftUntil) ∧
    ((wArray 0 [] id).curDie.seatUntil = 0 ∧ (wArray 0 [] id).curDie.liftUntil = 0) ∧
    (wArray 0 [] fun d => { d with seatUntil := 9 }).curDie.seatUntil < (wArray 0 [] id).cyc ∧
    (∃ f ∈ feedsOf wSmall 3, 1024 < (wArray 1023 [] id).curDie.edgeRow f + 2) ∧
    (∀ f ∈ feedsOf wSmall 3, (wArray 1023 [] id).curDie.edgeRow f + 1 ≤ 1024) ∧
    (wArray 3 [] id).curDie.feedOk (feedsOf wSmall 3) 1 false = false ∧ (wArray 3 [] id).curDie.feedOk (feedsOf wSmall 3) 1 true = true ∧
    (wArray 10 [] id).curDie.feedOk (feedsOf wSmall 3) 1 false = true ∧
    (wArray 3 [] fun d => d.setSta 96 { d.sta 96 with buf := [(2, wBuf2 2)] }).curDie.feedOk (feedsOf wSmall 3) 1 true = false := by
  decide +kernel

def wSeated : Die := { (wArray 0 [] id).curDie with cells := [(cellKey 1023 1023, { seated := 1, fe0 := 0x7F01, par := 0 })] }
def wFront (adm issued : Nat) : Work := { wWork with adm := adm, issued := issued }

theorem witness_TransitAndFronts :
    (wSmall.hasRow 1023 = true ∧ wSmall.hasCol 1023 = true ∧ 0 < (fimgShape .mx8).1 ∧
      bit (wSeated.cell 1023 1023).seated 0 = true ∧ (wSeated.cell 1023 1023).imageBad 0 = false ∧
      bit (wSeated.cell 1023 1023).seated 1 = false ∧ (1023 % 32 = 31 ∨ 1023 + 1 = wSmall.col0 + wSmall.wc) ∧
      ¬ (0 % 32 = 31 ∨ 0 + 1 = ({} : Window).col0 + ({} : Window).wc) ∧ ({} : Window).hasCol 0 = true ∧
      fld (0x7F01 : BitVec 16) 8 8 ≠ 255 ∧ fld (0 : BitVec 128) 8 8 ≠ 255) ∧
    ((∀ k ∈ (wArray 0 [{ wWork with kind := .seat, m := 1, adm := 0 }] id).curDie.works, k.kind = .seat ∨ k.kind = .lift ∨ k.m = 0) ∧
      (∀ k ∈ (wArray 0 [{ wWork with kind := .seat, m := 1, adm := 0 }] id).curDie.works, k.adm ≤ k.m) ∧
      (wFront 2 8).kind = .fwd ∧ (wFront 2 8).adm < (wFront 2 8).m ∧ (wFront 2 8).issued + 2 = (wArray 0 [wFront 2 8] id).curDie.dcyc) ∧
    (∀ k ∈ (wArray 0 [wFront 1 3] id).curDie.works,
      (∀ rc ∈ k.captureCells (wArray 0 [] id).curDie.dcyc, cellKey rc.1 rc.2 ≠ cellKey 5 5) ∧
      ∀ fa ∈ k.fronts (wArray 0 [] id).curDie.dcyc,
        (k.kind = .fwd → (5, 5) ∉ fwdCells k.win fa.2) ∧ (k.kind = .bwd → (5, 5) ∉ bwdCells k.win fa.2)) := by decide +kernel

/-- The one cell of `wSmall` with its images seated, under a front of `wWork` or of a backward one with δ = ∞ at its east side. -/
def wBackFront : Work := { wFront 1 3 with kind := .bwd, gnan := .gtrap }
def wBoth : Die :=
  { wSeated with cells := [(cellKey 1023 1023, { seated := 5, fe0 := 0x7F01, be0 := 0x7F01 })], works := [wBackFront] }
def wTransit (k : Work) (t : Nat) : State := wArray 0 [k] fun d => { d with dcyc := t }

theorem witness_TransitAndFronts_backward :
    ((wBoth.cell 1023 1023).gBad = false ∧ bit (wBoth.cell 1023 1023).seated 2 = true ∧ (wBoth.cell 1023 1023).imageBad 2 = false ∧
      true = decide (1023 + 1 = wSmall.col0 + wSmall.wc) ∧ wBackFront.gnan = .gtrap ∧ wWork.gnan ≠ .gtrap ∧
      0x7C ≤ (0x7C : Byte).toNat % 128 ∧ (1023 % 32 ≠ 0 ∧ 1023 = wSmall.row0) ∧ ¬ (1 % 32 = 0 ∨ 1 = ({} : Window).row0)) ∧
    (exactAdd (.num false 1 0) (.num false 1 2) = .num false 5 0) ∧
    (((wTransit (wFront 1 3) 1030).die 0).works = [wFront 1 3] ∧
      (0, 1027) ∈ (wFront 1 3).fronts ((wTransit (wFront 1 3) 1030).die 0).dcyc ∧ (1023, 1023) ∈ fwdCells wSmall 1027) ∧
    (((wTransit wBackFront 7).die 0).works = [wBackFront] ∧ (0, 4) ∈ wBackFront.fronts ((wTransit wBackFront 7).die 0).dcyc ∧
      (1023, 1023) ∈ bwdCells wSmall 4) := by decide +kernel

theorem witness_TransitAndFronts_products :
    (bwdTransit ((wTransit wBackFront 7).die 0) 0 wBackFront 0 1023 1023).prod.isSome = true ∧
    (bwdTransit ((wTransit wBackFront 7).die 0) 0 wBackFront 0 1023 1023).causes ≠ [] ∧
    (bwdTransit { (wTransit wBackFront 7).die 0 with cells := wBoth.cells } 0 { wBackFront with gnan := .gzero } 0 1023 1023).causes = [] := by
  decide +kernel

/-- Fronts leave the last column and the first row. -/
theorem witness_TransitAndFronts_edges :
    (0 < (wFront 1 3).adm ∧ (wFront 1 3).win.hasRow 1023 = true ∧ 1031 = (wFront 1 3).issued + 0 + 4 + 1023 + (1023 - (wFront 1 3).win.col0) + 1 ∧
      ((wTransit (wFront 1 3) 1031).die 0).eastOut (wFront 1 3) 1031 ≠ []) ∧
    (0 < wBackFront.adm ∧ 1023 < 1024 ∧ wBackFront.win.hasCol 1023 = true ∧ 1031 = wBackFront.issued + 0 + 4 + 1023 + (1023 - 1023) + 1 ∧
      ((wTransit wBackFront 1031).die 0).northOut wBackFront 1031 ≠ []) ∧
    { cell := cellKey 1023 1023, token := 1, scale := 0x7F, bc := 0 } ∉ (bwdTransit { (wTransit wBackFront 7).die 0 with cells := wBoth.cells } 0
      { wBackFront with gnan := .gzero } 0 1023 1023).promos := by decide +kernel

/-- A SEAT or LIFT of the one cell of `wSmall`, and its die in cycle `t`. -/
def wOne (kind : WorkKind) : Work := { wWork with kind := kind, m := 1, issued := 6, img := .fimg, clr := true }
def wOneAt (kind : WorkKind) (t : Nat) : State := wArray 0 [wOne kind] fun d => { d with dcyc := t }
def wJob (act : AccAct) : AccJob := { at_ := 10, pos := 63, act := act, by_ := 63, strm := .c, parcel := 0x20 }

theorem witness_SeatLiftAndAccumulatorEvents :
    (∀ t ∈ [1033, 1032, 9], ((wOneAt .seat t).die 0).works = [wOne .seat] ∧ (wOne .seat).kind = .seat ∧ (wOne .seat).win.row0 + (wOne .seat).win.wr ≤ 1024 ∧
      (wOne .seat).win.col0 + (wOne .seat).win.wc ≤ 1024 ∧ (wOne .seat).win.hasRow 1023 = true ∧ (wOne .seat).win.hasRow 5 = false ∧
      ((wOne .seat).issued + 4 + (1023 - 1023) ≤ ((wOneAt .seat t).die 0).dcyc ↔ t ≠ 9) ∧
      (t - ((wOne .seat).issued + 4 + 0) + 1 = (wOne .seat).win.col0 + (wOne .seat).win.wc ↔ t = 1033) ∧
      (1022 ≤ t - 10 ∧ t - 10 < 1022 + (wOne .seat).win.wc ↔ t = 1032)) ∧
    ((wOne .seat).img ≠ .bimg ∧ ({ wOne .seat with img := .both } : Work).img ≠ .fimg) ∧
    (let k := { wOne .seat with win := {} }
     let e : Skew := { kind := .seat, issued := 6, pos := Fin.ofNat 128 (127 - 0 / 32), i := 0 / 2, data := 7, until_ := 20 }
     ((wArray 0 [k] fun d => { d with skew := [e] }).die 0).works = [k] ∧ k.win.hasRow 0 = true ∧ k.win.hasCol 0 = true ∧
      k.issued + 4 + 0 ≤ ((wArray 0 [k] fun d => { d with skew := [e] }).die 0).dcyc ∧ 0 < k.win.col0 + k.win.wc ∧ 0 < 0 + k.win.wc ∧
      ((wArray 0 [k] fun d => { d with skew := [e] }).die 0).skew.find? (fun e => e.kind == .seat && e.issued == k.issued &&
        e.pos == Fin.ofNat 128 (127 - 0 / 32) && e.i == 0 / 2) = some e) ∧
    (((wOneAt .lift 10).die 0).works = [wOne .lift] ∧ (wOne .lift).kind = .lift ∧ (wOne .lift).clr = true ∧ (wOne .lift).win.hasCol 1023 = true ∧
      (wOne .lift).win.hasCol 5 = false ∧ ((wOneAt .lift 10).die 0).dcyc - ((wOne .lift).issued + 4 + 0) = 0 ∧
      (((wOneAt .lift 10).die 0).cell 1023 1023).gBad = false ∧
      (∀ j ∈ [1023], (wOne .lift).win.hasCol j = true ∧ (((wOneAt .lift 10).die 0).cell ((wOne .lift).win.row0 + (10 - 10)) j).gBad = false)) ∧
    (∀ t ∈ [11, 1033, 1034], (wOne .lift).issued + 4 + 0 ≤ ((wOneAt .lift t).die 0).dcyc ∧ 0 < t - 10 ∧
      (1022 + (t - 10) < (wOne .lift).win.col0 + (wOne .lift).win.wc ∧ (wOne .lift).win.col0 ≤ 1022 + (t - 10) ↔ t = 11) ∧
      (t - 10 = (wOne .lift).win.col0 + 1 + 0 ↔ t = 1034) ∧ 0 < (wOne .lift).win.wc) ∧
    (∀ j ∈ ((wArray 0 [] fun d => { d with accJobs := [{ wJob .norm with at_ := 11 }] }).die 0).accJobs,
      j.at_ ≠ ((wArray 0 [] id).die 0).dcyc) ∧
    (((wArray 0 [] fun d => { d with accJobs := [wJob (.add [(255, 5)])] }).die 0).accJobs = [wJob (.add [(255, 5)])] ∧
      (wJob .norm).at_ = ((wArray 0 [] id).die 0).dcyc ∧ (wJob .norm).pos.val < 64 ∧ (0 : Pos) ≠ 63 ∧ (0 : Pos).val < 64 ∧
      255 < 32 * accLanes (wJob .norm).pos ∧ (wJob (.clr 7)).act = .clr 7 ∧ (wJob .rdClr).act = .rdClr ∧ (wJob .norm).act = .norm) := by
  decide +kernel

/-- A row on lane 9 that stands at N0 in cycle 10, or the sweep of a cavity there. -/
def wItem (kind : ItemKind) (lane hops : Nat) : Item :=
  { lane := lane, pos := 2, entry := 8, hops := hops, kind := kind, data := 5, by_ := 2, parcel := 0x20 }
def wRing (l : List Item) (dr : List Drive) : State := (wBase .x).updDie fun d => { d with items := l, drives := dr }
def wDrive (pos : Nat) : Drive := { at_ := 10, item := { wItem .data 9 127 with pos := pos, entry := 10 } }

theorem witness_RingAndRotatingRegion :
    ((wItem .data 9 127).lane < 16 ∧ (wItem .data 9 127).pos < 128 ∧ (wItem .data 9 127).hops < 128) ∧
    physOf (wBase .x).curSta.rotd 15 = some 15 ∧ (wBase .x).curDie.bad = [] ∧
    (wRing [wItem .data 9 2] []).curDie.slotAt 9 0 (wRing [] []).cyc = some (wItem .data 9 2) ∧ (wItem .data 9 2).kind = .data ∧
    (wRing [wItem (.sweep 1 .addF) 15 2] []).curDie.slotAt 15 0 (wRing [] []).cyc = some (wItem (.sweep 1 .addF) 15 2) ∧
    (wItem (.sweep 1 .addF) 15 2).kind ≠ .data ∧ (wRing [wItem .data 9 1] []).curDie.slotAt 9 0 (wRing [] []).cyc = none ∧
    (((wRing [wItem .data 9 2] [wDrive 0]).die 0).drives = [wDrive 0] ∧ (wDrive 0).at_ = ((wRing [] []).die 0).dcyc ∧
      (wDrive 0).item.entry = ((wRing [] []).die 0).dcyc ∧
      (∀ i ∈ ((wRing [wItem .data 9 2] []).die 0).items, ((wRing [] []).die 0).dcyc ≤ i.entry + i.hops) ∧
      ((wRing [wItem .data 9 2] []).die 0).slotAt 9 0 10 = some (wItem .data 9 2) ∧
      ((wRing [wItem .data 9 2] []).die 0).slotAt 9 1 10 = none) ∧
    ({ pd := 0, rb := 3, d := 16 } : Rotd).d ≤ 16 ∧ (15 : BitVec 5).toNat < 16 ∧ 16 + 4 ≤ (20 : BitVec 5).toNat ∧
    16 ≤ (16 : BitVec 5).toNat ∧ (16 : BitVec 5).toNat < 16 + 16 ∧ (31 : BitVec 5).toNat = 16 + ((16 : BitVec 5).toNat - 16 + 16 - 1) % 16 ∧
    (17 : BitVec 5).toNat < 16 + min 2 5 ∧ 16 + 2 ≤ (18 : BitVec 5).toNat ∧ (18 : BitVec 5).toNat < 16 + 5 := by decide +kernel

/-- A cavity slot of N2. -/
def wSlotCav (cavd first last : Bool) (pAt sAt eAt : Nat) : CavSlot :=
  { cavd := cavd, op := .addF, parcel := 0x20, issued := 5, anchor := 1, first := first, last := last, pAt := pAt, sAt := sAt, eAt := eAt,
    up := 3, dn := 4, nxt := 2, prv := 0, acc := 5, pre := none, suf := none, phys := 3, name := 3, vrow := 0 }

/-- The X stream of N0 with ts48 and ts49 as a mask of the stations 0, 2 and 127, and its slot 1 taken or not. -/
def wCav (m0 : W64) (c : KMap (Option CavSlot)) : State := (wBase .x).updSta fun x => { x with s := [(48, m0), (49, 2 ^ 63)], cav := c }

theorem witness_CavityWords :
    (CavOp.addF ≠ .lse ∧ CavOp.addF ≠ .argmax) ∧ physOf (wCav 5 []).curSta.rotd 3 = some 3 ∧ (wCav 5 []).curDie.bad = [] ∧
    (2 ^ 127 + 5 : BitVec 128).toNat = ((wCav 5 []).scal (.ts 0)).toNat + 2 ^ 64 * ((wCav 5 []).scal (.ts 1)).toNat ∧
    (2 ^ 127 + 5 : BitVec 128).getLsbD (wCav 5 []).focus.pos.val = true ∧ (2 ^ 127 + 4 : BitVec 128).getLsbD (wCav 4 []).focus.pos.val = false ∧
    (wCav 4 []).focus.pos.val ≠ (127 : BitVec 7).toNat ∧ (wCav 4 []).focus.pos.val = (0 : BitVec 7).toNat ∧
    (kget none 1 (wCav 5 [(1, some (wSlotCav false true false 0 0 0))]).curSta.cav).isSome = true ∧
    kget none 1 (wCav 5 []).curSta.cav = none := by decide +kernel

/-- An exchange section of a team of the dies 0 and 1, on die 1. -/
def wXchSec : Section := { placedSection with xch := true }
def wCavd (dir : BitVec 16) (busy : Bool) (eoc : List Eoc) : State :=
  let s := (({ wBase .x with focus := { strm := .x, parcel := 0x14, die := 1 } }.updDie fun d => { d with cavdBusy := busy, eoc := eoc }).updCtx
    fun c => { c with sect := some wXchSec })
  { s with hub := { teams := [{ wTeam with dies := [0, 1] }] }, links := [(linkOf 0 1, { dir := dir, cls := 0xFFFF })] }

theorem witness_CavityWords_pairs :
    readF32 0x7FC00001 = .nan ∧ readF32 0x3F800000 ≠ .nan ∧ below32 0x3F800000 0x40000000 ∧
    (CavOp.argmax, (0xFF800000 : W32), (0xFFFFFFFF : W32)) ∈ ([(.lse, 0xFF800000, 0), (.argmax, 0xFF800000, 0xFFFFFFFF)] : List (CavOp × W32 × W32)) ∧
    ∃ h, ((wCavd 0xFF00 false []).chainLinks [0, 1])[0]? = some h := by
  simp only [below32]
  exact ⟨by decide +kernel, by decide +kernel, by decide +kernel, by decide +kernel, ⟨_, rfl⟩⟩

theorem witness_CavityWords_cavd :
    physOf (wCavd 0xFF00 false []).curSta.rotd 3 = some 3 ∧ (wCavd 0xFF00 false []).curDie.bad = [] ∧
    (wCavd 0xFF00 false []).curCtx.sect = some wXchSec ∧ wXchSec.xch = true ∧ placedSection.xch = false ∧
    (wCavd 0xFF00 false []).teamDies 1 = [0, 1] ∧ ((wCavd 0xFF00 false []).chainLinks [0, 1]).length = 1 ∧
    .cavdIssued ∈ (wCavd 0xFF00 false [.cavdIssued]).curDie.eoc ∧ (wCavd 0xFF00 true []).curDie.cavdBusy = true ∧
    .cavdIssued ∉ (wCavd 0xFF00 false []).curDie.eoc ∧ (wCavd 0xFF00 false []).curDie.cavdBusy = false ∧
    kget none 1 (wCavd 0xFF00 false []).curSta.cav = none ∧
    (∃ h ∈ (wCavd 0 false []).chainLinks [0, 1], h.upG = 0 ∨ h.dnG = 0) ∧
    (wCavd 0xFF00 false []).lanesBad ((wCavd 0xFF00 false []).chainLinks [0, 1]) (cavdP 2 3 ((wCavd 0xFF00 false []).chainLinks [0, 1]))
      (cavdS 2 ((wCavd 0xFF00 false []).chainLinks [0, 1])) = false := by decide +kernel

/-- Die 0 with one busy cavity slot at N2, the items of its ring and the sweeps between the dies. -/
def wCavities (w : CavSlot) (l : List Item) (c : List CavdItem) : State :=
  { (wBase .x).updDie fun d => { d.setSta 2 { d.sta 2 with cav := [(1, some w)] } with items := l } with cavd := c }
def wSweep : Item := { wItem (.sweep 1 .addF) 7 20 with pos := 0, entry := 8 }
def wArrive : CavdItem := { from_ := 0, to_ := 0, up := true, at_ := 100, op := .addF, data := 5 }

/-- A participant of both sweeps in one cycle, its ring with the two, with neither, or with other rows in the slots. -/
def wSweepDn : Item := { wItem (.sweep 1 .addF) 15 20 with pos := 5, entry := 7 }
def wOther (lane : Nat) : Item := { wItem .data lane 20 with pos := 2, entry := 10 }
theorem witness_CavityEvents_both :
    (let w := wSlotCav false false false 10 10 20
     let s := wCavities w [wSweep, wSweepDn] []
     (s.die 0).cavSlots = [(2, 1, w)] ∧ kget none 1 ((s.die 0).sta 2).cav = some w ∧ true = (!w.first && w.pAt == 10) ∧ true = (!w.last && w.sAt == 10) ∧
      some wSweep = (((s.die 0).slotAt 7 2 10).filter fun i => i.kind == .sweep w.anchor w.op) ∧
      some wSweepDn = (((s.die 0).slotAt 15 2 10).filter fun i => i.kind == .sweep w.anchor w.op) ∧
      none = ((((wCavities w [wOther 7] []).die 0).slotAt 7 2 10).filter fun i => i.kind == .sweep w.anchor w.op)) ∧
    (let w := wSlotCav false false false 8 8 20
     true = (!w.last && 10 == w.pAt + combLat w.op) ∧ true = (!w.first && 10 == w.sAt + combLat w.op) ∧
      ((wCavities w [] []).die 0).slotAt 15 2 10 = none ∧ (((wCavities w [wOther 7] []).die 0).slotAt 7 2 10).isNone = false ∧
      (((wCavities w [wOther 15] []).die 0).slotAt 15 2 10).isNone = false) ∧
    (let w := wSlotCav true false false 10 10 20
     let c := [wArrive, { wArrive with up := false, from_ := 2 }]
     let here (u : Bool) := (wCavities w [] c).cavd.filter fun i => i.to_ == 0 && i.up == u && i.at_ == (wCavities w [] c).sidc && i.op == w.op &&
       i.from_ == if u then w.prv else w.nxt
     here true = [wArrive] ∧ here false = [{ wArrive with up := false, from_ := 2 }]) := by decide +kernel

theorem witness_CavityEvents :
    ((wBase .x).die 0).cavSlots = [] ∧
    (let w := wSlotCav false false true 10 0 20
     ((wCavities w [wSweep] []).die 0).cavSlots = [(2, 1, w)] ∧ 10 = ((wCavities w [wSweep] []).die 0).dcyc ∧ w.cavd = false ∧
      w.first = false ∧ w.pAt = 10 ∧ w.last = true ∧ ((wCavities w [wSweep] []).die 0).slotAt 7 2 10 = some wSweep ∧
      wSweep.kind = .sweep w.anchor w.op ∧ ((wCavities w [] []).die 0).slotAt 7 2 10 = none) ∧
    (let w := wSlotCav false true false 8 0 20
     w.last = false ∧ 10 = w.pAt + combLat w.op ∧ w.first = true ∧ ((wCavities w [] []).die 0).slotAt 7 2 10 = none) ∧
    (let w := wSlotCav true true false 8 0 20
     ((wCavities w [] []).die 0).cavSlots = [(2, 1, w)] ∧ w.cavd = true ∧ w.last = false ∧ 10 = w.pAt + combLat w.op ∧ w.first = true) ∧
    (wSlotCav false false true 0 0 10).eAt = 10 ∧
    (let w := wSlotCav true false true 10 0 20
     ((wCavities w [] [wArrive]).die 0).cavSlots = [(2, 1, w)] ∧ w.cavd = true ∧ w.first = false ∧ w.pAt = 10 ∧ w.last = true ∧
      (wCavities w [] [wArrive]).cavd = [wArrive] ∧ wArrive.to_ = 0 ∧ wArrive.up = true ∧ wArrive.at_ = (wCavities w [] []).sidc ∧
      wArrive.op = w.op ∧ wArrive.from_ = w.prv ∧ (wCavities w [] []).cavd = []) := by decide +kernel

/-- A TURN `.at` in the queue of link 0, the link between dies 0 and 1 of a team. -/
def wTurn (time issued : Nat) : TurnEntry := { at_ := true, time := time, timed := true, dn := false, group := 3, issued := issued }
def wLink (l : List TurnEntry) (dead : KMap Nat) : State :=
  { wBase .l with hub := { teams := [{ wTeam with dies := [0, 1] }] },
                  links := [(linkOf 0 1, { queue := l, dead := if dead = [] then 0 else 8, deadEnd := dead })] }

theorem witness_LinkWordsAndEvents :
    ((linkEnds (linkOf 0 1)).1 ∈ (wLink [] []).teamDies (wLink [] []).focus.die ∧
      (linkEnds (linkOf 0 1)).2 ∈ (wLink [] []).teamDies (wLink [] []).focus.die ∧ linkOf 0 1 = (0 : BitVec 3).toNat ∧
      ¬ (linkEnds 5).2 ∈ (wLink [] []).teamDies (wLink [] []).focus.die ∧
      8 ≤ ((wLink (List.replicate 8 (wTurn 900 90)) []).link 0).queue.length ∧ ((wLink [wTurn 900 90] []).link 0).queue.length < 8) ∧
    (0 = ((wLink [] []).scal (.reg 0)).toNat ∧ 0 < (wLink [] []).sidc + 2 ∧
      ((wLink [] []).link 0).atOk (wLink [] []).hub.lanelim (wLink [] []).sidc { group := 3, at_ := 101, dn := false, timed := true } = false ∧
      ((wLink [] []).link 0).atOk (wLink [] []).hub.lanelim (wLink [] []).sidc { group := 3, at_ := 964, dn := false, timed := true } = true) ∧
    (((((wLink [wTurn 900 100] []).link 0).queue.filter fun e => decide (e.issued < 100)).length ≤ (0 : BitVec 3).toNat) ∧
      (((wLink [wTurn 900 99] []).link 0).queue.filter fun e => decide (e.issued < 100))[(0 : BitVec 3).toNat]? = some (wTurn 900 99)) ∧
    (((wLink [] []).link (0 : Fin 6)).queue = [] ∧ ((wLink [wTurn 100 90] []).link (0 : Fin 6)).queue = [wTurn 100 90] ∧
      (wTurn 100 90).at_ = true ∧ (wTurn 100 90).time = (wLink [] []).sidc ∧ (wTurn 900 90).time ≠ (wLink [] []).sidc ∧
      ((wLink [] []).link (0 : Fin 6)).dir.getLsbD 11 ≠ false ∧ ((wLink [] [(3, 100)]).link (0 : Fin 6)).dead.getLsbD 3 = true) := by
  decide +kernel

/-- Turns of groups 3 and 5 that are due, an `.asap` turn of group 6 issued in cycle `n` behind them, and one behind that. -/
def wTurns (n : Nat) : List TurnEntry :=
  [wTurn 100 90, { wTurn 100 90 with group := 5 }, { wTurn 0 n with at_ := false, group := 6 }, { wTurn 0 n with at_ := false, group := 7 }]
theorem witness_LinkWordsAndEvents_turns :
    (let l := (wLink (wTurns 98) []).link (0 : Fin 6)
     let due := l.queue.filter fun e => e.at_ && e.time == 100
     due = (wTurns 98).take 2 ∧ (due.map (·.group)).Nodup ∧ due.length = 2 ∧
      (l.queue.filter fun e => !(e.at_ && e.time == 100)).find? (fun e => !e.at_) = some { wTurn 0 98 with at_ := false, group := 6 } ∧
      ({ l with queue := l.queue.drop 2 } : Link).asapDue (wLink [] []).hub.lanelim 100 { wTurn 0 98 with at_ := false, group := 6 } = true ∧
      ({ l with queue := l.queue.drop 2 } : Link).asapDue (wLink [] []).hub.lanelim 100 { wTurn 0 99 with at_ := false, group := 6 } = false) ∧
    ((wLink [wTurn 100 90] []).link (0 : Fin 6)).queue.find? (fun e => !e.at_) = none ∧
    (let u : Turn := ⟨3, 100, false, true⟩
     u ∈ [u, ⟨3, 40, true, true⟩] ∧ u.at_ ≤ 120 ∧ ∀ v ∈ [u, ⟨3, 40, true, true⟩].erase u, v.group = 3 → v.at_ < u.at_ ∨ 120 < v.at_) := by
  decide +kernel

/-- A direction of a link with a packet of each of two queues, of which queue 1 is next. -/
def wPkt (cls from_ : Nat) : Pkt := { of := .req 0 4, cls := cls, beats := 3, from_ := from_, floor := 0 }
def wWay : Way := { pkts := [wPkt 0 90, wPkt 1 95], turn := 1 }

theorem witness_LinkWordsAndEvents_ways :
    (0 < ({ wWay with left := 2 } : Way).left) ∧ wWay.left = 0 ∧ wWay.turn < 3 ∧ (∀ q ∈ wWay.pkts, q.cls < 3) ∧
    (∀ q ∈ wWay.pkts, 80 < q.from_) ∧ wPkt 1 95 ∈ wWay.pkts ∧ (wPkt 1 95).from_ ≤ 100 ∧
    (∀ q ∈ wWay.pkts, q.from_ ≤ 100 → q ≠ wPkt 1 95 →
      ((wPkt 1 95).cls + 3 - wWay.turn) % 3 < (q.cls + 3 - wWay.turn) % 3 ∨
        q.cls = (wPkt 1 95).cls ∧ (wPkt 1 95).from_ < q.from_) := by decide +kernel

/-- Causes of one cycle: the first of them is that of the lower rank. -/
def wCause (rank : Nat) (named : Bool) : CauseRec :=
  { cause := .bankRange, sub := 0, rank := rank, pos := 2, strm := .l, parcel := 0x20, named := named, order := 0 }
def wTrap (named : Bool) : Die :=
  { (wBase .l).curDie with causes := [wCause 3 true, wCause 2 named], latchNow := [(2, .l, 0x20, 0x31)],
                           hsta := { den := true, dcls := 0x3FF } }
def wFrozen (next : Bool) : State := (wBase .c).updDie fun d => { d with cond := .frozen, handlerNext := next, trapcause := 2 ^ 63 + 0x31 }

theorem witness_FreezeAndHandlerEntry :
    firstCause (wTrap true).causes = some (wCause 2 true) ∧ firstCause (wTrap false).causes = some (wCause 2 false) ∧
    wCause 2 true ∈ (wTrap true).causes ∧ (wCause 2 true).rank = (wCause 2 false).rank ∧ (wCause 2 true).named = true ∧
    (wCause 2 false).named = false ∧ (∀ t ∈ (wTrap true).latchNow, ¬ (t.1 = 0 ∧ t.2.1 = Strm.c)) ∧
    (wTrap true).latchNow = [((2 : Pos), Strm.l, (0x20 : Parcel), (0x31 : Byte))] ∧
    ((wFrozen false).die 0).handlerNext = false ∧ ((wFrozen true).die 0).handlerNext = true ∧ ((wFrozen true).die 0).cond = .frozen ∧
    (1 : Pos) ≠ ((wFrozen true).die 0).hsta.pos ∧ Strm.l ≠ .c := by decide +kernel

/-- Die 0 has executed a die cycle, in which a PRE section may have retired, and in which causes `l` were raised. -/
def wEnded (pre : Bool) (l : List CauseRec) (f : Die → Die) : Die :=
  f { (wBase .c).curDie with ended := some pre, causes := l }
/-- Die 0 in condition `k` at the close of its cycle, with asynchronous causes. -/
def wClosing (k : DieCond) (l : List CauseRec) (stop : Option Nat) : State :=
  (wBase .c).updDie fun d => { d with cond := k, asyncs := l, stopAt := stop }

theorem witness_FreezeAndHandlerEntry_settle :
    (wBase .c).curDie.ended = none ∧ (wEnded true [] id).ended = some true ∧ (wEnded true [] id).monitors = [] ∧
    (wEnded false [wCause 2 true] id).causes ++ (wBase .c).curDie.late ++ (wBase .c).curDie.asyncs ≠ [] ∧
    (wEnded false [] id).causes ++ (wBase .c).curDie.late ++ (wBase .c).curDie.asyncs = [] ∧
    (wEnded false [] fun d => { d with stopAt := some 100 }).stopAt = some 100 ∧ 100 ≤ (wBase .c).sidc ∧
    (wEnded true [] id).stopAt = none ∧ (wEnded true [] fun d => { d with preemptAt := some 100 }).preemptAt = some 100 ∧
    (wEnded true [] id).xch = false ∧ (wEnded true [] id).preemptAt = none ∧
    ({ wEnded true [] id with notBefore := 102 } : Die).notBefore > (wBase .c).sidc + 1 := by decide +kernel

theorem witness_FreezeAndHandlerEntry_close :
    (∀ k ∈ [DieCond.held, .waiting, .idle, .frozen, .handler], (((wClosing k [] none).applyEoc 0).die 0).cond = k ∧
      ((wClosing k [] none).die 0).cond ≠ .running ∧
      (((wClosing k [wCause 2 true] none).applyEoc 0).die 0).causes ++ (((wClosing k [wCause 2 true] none).applyEoc 0).die 0).asyncs ≠ [] ∧
      (((wClosing k [] none).applyEoc 0).die 0).causes ++ (((wClosing k [] none).applyEoc 0).die 0).asyncs = [] ∧
      (((wClosing k [] (some 100)).applyEoc 0).die 0).stopAt = some 100 ∧ 100 ≤ ((wClosing k [] (some 100)).applyEoc 0).sidc ∧
      (((wClosing k [] none).applyEoc 0).die 0).stopAt = none) ∧ ((wBase .c).die 0).cond = .running := by decide +kernel

/-- The handler of die 0 at the close of a cycle, with causes `l`, its stream retired or not. -/
def wHclose (l : List CauseRec) (r : Bool) (e : List Eoc) : State :=
  (wBase .c).updDie fun d =>
    let x := d.setSta 0 ((d.sta 0).setCtx .c { (d.sta 0).ctxOf .c with retired := r })
    { x with cond := .handler, causes := l, eoc := e, saved := some { ctx := {}, s := [], div := {} } }
def wHclosed (s : State) : Die := ((s.applyFrz 0).applyEoc 0).die 0

theorem witness_FreezeAndHandlerEntry_handler :
    ((wHclose [] false []).die 0).eoc = [] ∧ ((wHclose [] false [.frz 0x21000008 7]).die 0).eoc = [.frz 0x21000008 7] ∧
    (wHclosed (wHclose [wCause 2 true] false [])).cond = .handler ∧ (wHclosed (wHclose [wCause 2 true] false [])).causes ≠ [] ∧
    firstCause (wHclosed (wHclose [wCause 2 true] false [])).causes = some (wCause 2 true) ∧
    (wHclosed (wHclose [] true [])).causes = [] ∧ (((wHclosed (wHclose [] true [])).sta 0).ctxOf .c).retired = true ∧
    (((wHclosed (wHclose [] false [])).sta 0).ctxOf .c).retired = false ∧
    (wHclosed (wHclose [] true [])).saved = some { ctx := {}, s := [], div := {} } := by decide +kernel

/-- The handler of die 0 with its next word. -/
def wHandler : State :=
  let s := (wFrozen false).updDie fun d => { d with cond := .handler, bivbase := 0x10000, bivend := 0x20000 }
  { s with focus := { s.focus with handler := true } }

theorem witness_HandlerWords :
    (wBase .c).focus.handler = false ∧ wHandler.focus.handler = true ∧
    0x21000008 = (wHandler.scal (.reg 0) + (0x21000008 : W32).signExtend 64).toNat ∧
    (wHandler.frzGet wHandler.focus.die 0x21000008).isSome = true ∧ wHandler.frzGet wHandler.focus.die 4 = none ∧
    (∀ p, (wHandler.curDie.sta p).writes = []) ∧ wHandler.curDie.latched = [] ∧ wHandler.curDie.hctx = none ∧
    kwf ({} : Cell) [(cellKey 5 5, { g := 0, pg := 7, pgv := true })] = true ∧
    ({ (wBase .c).curDie with unexec := true } : Die).unexec = true ∧ (wBase .c).curDie.unexec = false ∧
    (wBase .c).curDie.notBefore ≤ (wBase .c).sidc + 1 ∧
    0x7F3FFF8 = 0x100000 * (127 : Pos).val + 0x8000 * (7 : BitVec 3).toNat + 0x100 * (127 : BitVec 7).toNat + 8 * (31 : BitVec 5).toNat ∧
    (0 : Nat) < 0x40000 ∧ 4 % 8 ≠ 0 := by decide +kernel

/-- Die 0 with its share from VA 0x10000 on, under one page of 32 GiB that stands on die 1 from DLA 0 on, with the bytes `img` at the
share's start. -/
def wShare (img : List Byte) : State :=
  let s := (wBase .c).updDie fun d => { d with team := 1, bivbase := 0x10000, bivend := 0x20000000 }
  ({ s with
      mem := img.zipIdx.filterMap fun (e : Byte × Nat) => if e.1 = 0 then none else some (memKey 1 0x10000 + e.2, e.1)
      hub := { teams := [wTeam] } }.setFs 0 { s.fs 0 with tlb := [{ level := 0, vpn := 0, entry := 0xAF }] }).setFs 1
    { s.fs 1 with mcReset := false }

theorem w_leaf (op : FarOp) (ho : op.lacks 0xAF = false) (va : Nat) (h : va < 2 ^ 35) : leafTo [] op 0 0xAF va = .ok (1, va) := by
  have hm : va % 34359738368 = va := Nat.mod_eq_of_lt h
  have hl : va < 68887248896 := by omega
  have h1 : op.lacks (175#64) = false := ho
  simp [leafTo, h1, pageShift, dlaMapped, hm, hl]
  rfl

/-- Die 0 reads and writes far memory through that page, and has no stow under way. -/
structure WOpen (s : State) : Prop where
  tlb : (s.fs 0).tlb = [{ level := 0, vpn := 0, entry := 0xAF }]
  regions : (s.fs 0).regions = []
  ready : (s.fs 1).mcReset = false
  good : (s.fs 1).badWords = []
  stow : (s.die 0).stow = none

theorem w_open (img : List Byte) : WOpen (wShare img) := ⟨rfl, rfl, rfl, rfl, rfl⟩

/-- A granule of the page is read or written, and the page stays as it is. -/
theorem w_access (s : State) (hs : WOpen s) (op : FarOp) (ho : op.lacks 0xAF = false) (va : Nat) (h : va < 2 ^ 35)
    (p : List Host.Cell × Row × Byte) (hp : p = performFar s.mem (s.fs 1) 1 va (granuleReq 0 0 0 op)) (h0 : p.2.2 = 0) :
    ∃ u, s.granule 0 va op = .ok u p.2.1 ∧ WOpen u := by
  subst hp
  have ht : (s.fs 0).tlbHit va = some { level := 0, vpn := 0, entry := 0xAF } := by
    simp [FarSide.tlbHit, hs.tlb, pageShift]; omega
  have hx : s.xlate 0 op va = .home 1 va := by
    simp only [State.xlate, ht, hs.regions]
    rw [w_leaf op ho va h]
    rfl
  have hh : ((s.fs 1).healed va (granuleReq 0 0 0 op)).mcReset = false ∧
      ((s.fs 1).healed va (granuleReq 0 0 0 op)).badWords = [] := by
    unfold FarSide.healed
    split
    · simp [hs.ready, hs.good]
    · exact ⟨hs.ready, hs.good⟩
  simp only [State.granule, hx, State.atHome, h0, if_true]
  refine ⟨_, rfl, ?_, ?_, ?_, ?_, hs.stow⟩
  · exact (congrArg FarSide.tlb (fs_setFs_ne _ _ _ _ (by decide))).trans hs.tlb
  · exact (congrArg FarSide.regions (fs_setFs_ne _ _ _ _ (by decide))).trans hs.regions
  · exact (congrArg FarSide.mcReset (fs_setFs ..)).trans hh.1
  · exact (congrArg FarSide.badWords (fs_setFs ..)).trans hh.2

theorem w_read (s : State) (hs : WOpen s) (va : Nat) (h : va < 2 ^ 35) :
    ∃ u, s.granule 0 va .read = .ok u (memRow s.mem (memKey 1 va)) ∧ WOpen u :=
  w_access s hs .read (by decide) va h (s.mem, memRow s.mem (memKey 1 va), 0)
    (by simp [performFar, hs.ready, FarSide.badAt, FarSide.badSpan, hs.good, granuleReq]) rfl

theorem w_write (s : State) (hs : WOpen s) (r : Row) (va : Nat) (h : va < 2 ^ 35) :
    ∃ u v, s.granule 0 va (.write r) = .ok u v ∧ WOpen u := by
  obtain ⟨u, hu⟩ := w_access s hs (.write r) (show (!bit (0xAF : W64) 3) = false by decide) va h _ rfl
    (by simp [performFar, hs.ready, granuleReq])
  exact ⟨u, _, hu⟩

/-- Every granule of the page can be read, so a body of any length in it. -/
theorem w_body (va : Nat) : ∀ n off s, WOpen s → va + 256 + off + 256 * n < 2 ^ 35 → (s.bodyRows 0 va n off).2.2 = none := by
  intro n
  induction n with
  | zero => intro off s _ _; rfl
  | succ n ih =>
    intro off s hs h
    obtain ⟨u, hr, hu⟩ := w_read s hs (va + 256 + off) (by omega)
    simp only [State.bodyRows, hr]
    exact ih (off + 256) u hu (by omega)

/-- So a body's granules can be written again there; on a page that is not there none can. -/
theorem w_restow (dm : List Nat) (va : Nat) : ∀ n off s, WOpen s → va + 256 + off + 256 * n < 2 ^ 35 →
    (s.restow 0 dm va n off).2 = true ∧ ((s.restow 0 dm va n off).1.die 0).stow = none := by
  intro n
  induction n with
  | zero => intro off s hs _; exact ⟨rfl, hs.stow⟩
  | succ n ih =>
    intro off s hs h
    obtain ⟨u, hr, hu⟩ := w_read s hs (va + 256 + off) (by omega)
    obtain ⟨t, v, hw, ht⟩ := w_write u hu (s.bodyRow 0 dm off) (va + 256 + off) (by omega)
    simp only [State.restow, hr]
    split
    · exact ih (off + 256) u hu (by omega)
    · simp only [hw]
      exact ih (off + 256) t ht (by omega)

/-- The header of a complete image of die 0 and team 1, of a die with no rotating registers; the CRC-32C over its 252 bytes, in parts. -/
def wHead : List Byte :=
  leBytes (0x4249565580000001 : W64) 8 ++ List.replicate 8 0 ++ leBytes (324308992 : W64) 8 ++ List.replicate 228 0 ++
    leBytes (2126185191 : W32) 4
def crcOf (c : W32) (l : List Byte) : W32 := l.foldl (fun c b => crcBits 8 (c ^^^ b.setWidth 32)) c

theorem w_crc_parts :
    crcOf (BitVec.allOnes 32) (wHead.take 24) = 3165872996 ∧ crcOf 3165872996 (List.replicate 38 0) = 4236830789 ∧
    crcOf 4236830789 (List.replicate 38 0) = 3632313867 ∧ crcOf 3632313867 (List.replicate 38 0) = 3948716424 ∧
    crcOf 3948716424 (List.replicate 38 0) = 35197390 ∧ crcOf 35197390 (List.replicate 38 0) = 3205891575 ∧
    crcOf 3205891575 (List.replicate 38 0) = 2168782104 :=
  ⟨by decide +kernel, by decide +kernel, by decide +kernel, by decide +kernel, by decide +kernel, by decide +kernel, by decide +kernel⟩

theorem w_crc : crc32c ((List.range 252).map fun i => byteOf (rowOfBytes wHead) i) = 2126185191 := by
  have e : (List.range 252).map (fun i => byteOf (rowOfBytes wHead) i) = wHead.take 24 ++ (List.replicate 38 0 ++ (List.replicate 38 0 ++
      (List.replicate 38 0 ++ (List.replicate 38 0 ++ (List.replicate 38 0 ++ List.replicate 38 0))))) := by decide +kernel
  have c : ∀ l, crc32c l = ~~~ crcOf (BitVec.allOnes 32) l := fun _ => rfl
  have a : ∀ k l m, crcOf k (l ++ m) = crcOf (crcOf k l) m := fun _ _ _ => List.foldl_append
  obtain ⟨h0, h1, h2, h3, h4, h5, h6⟩ := w_crc_parts
  rw [e, c, a, a, a, a, a, a, h0, h1, h2, h3, h4, h5, h6]
  decide

theorem w_row : memRow (wShare wHead).mem (memKey 1 0x10000) = rowOfBytes wHead := by decide +kernel

theorem w_head : headerOk 0 1 (rowOfBytes wHead) = true := by
  have h : (fld (rowOfBytes wHead) 2016 32 : W32) = 2126185191 := by decide +kernel
  have k : (fld (rowOfBytes wHead) 32 32 : W32) = 0x42495655 ∧ bit (rowOfBytes wHead) 31 = true ∧
      (fld (rowOfBytes wHead) 16 2 : BitVec 2) = BitVec.ofNat 2 (0 : DieId).val ∧ (fld (rowOfBytes wHead) 0 16 : BitVec 16) = 1 := by
    decide +kernel
  simp [headerOk, w_crc, h, k]

theorem w_header : ∃ u, (wShare wHead).granule 0 0x10000 .read = .ok u (rowOfBytes wHead) ∧ WOpen u := by
  obtain ⟨u, hu, ho⟩ := w_read _ (w_open wHead) 0x10000 (by decide)
  exact ⟨u, hu.trans (congrArg _ w_row), ho⟩

theorem w_no_header : ∃ u, (wShare []).granule 0 0x10000 .read = .ok u 0 := by
  obtain ⟨u, hu, -⟩ := w_read _ (w_open []) 0x10000 (by decide)
  exact ⟨u, hu.trans (congrArg _ (by decide +kernel))⟩

theorem w_zero : headerOk 0 1 0 = false := by decide +kernel

theorem witness_HandlerWords_image :
    (List.replicate 128 16).length = 128 ∧ (∀ n ∈ List.replicate 128 16, n ≤ 16) ∧
    (∃ u h, (wShare wHead).granule 0 0x10000 .read = .ok u h ∧ headerOk 0 1 h = true ∧
      (u.bodyRows 0 0x10000 (332697600 / 256) 0).2.2 = none) ∧
    (∃ u h, (wShare []).granule 0 0x10000 .read = .ok u h ∧ headerOk 0 1 h = false) ∧
    ((wShare wHead).die 0).team = 1 ∧ ((wShare []).die 0).team = 1 :=
  ⟨rfl, fun _ h => (List.eq_of_mem_replicate h).le,
    w_header.imp fun u h => ⟨_, h.1, w_head, w_body _ _ _ u h.2 (by decide)⟩,
    w_no_header.imp fun _ h => ⟨_, h, w_zero⟩, rfl, rfl⟩

/-- The team of die 0 has a whole image at the start of its share, or none. -/
theorem witness_StowAndReportEvents_images : (wShare wHead).imagesWhole wTeam = true ∧ (wShare []).imagesWhole wTeam = false := by
  obtain ⟨u, hu, -⟩ := w_header
  obtain ⟨v, hv⟩ := w_no_header
  have k : ∀ img, ((wShare img).die 0).bivbase = 0x10000 ∧ ((wShare img).die 0).stowFits 0x10000 = true := fun _ => ⟨rfl, rfl⟩
  simp only [State.imagesWhole, show wTeam.dies = [0] from rfl, show wTeam.num = 1 from rfl, List.all_cons, List.all_nil, (k wHead).1,
    (k wHead).2, (k []).1, (k []).2, hu, hv, w_head, w_zero]
  decide

/-- A frozen die whose causes `l` the base camp knows of in cycle `n`. -/
def wReport (l : List (Byte × Pos)) (n : Nat) : State :=
  (wFrozen false).updDie fun d => { d with reports := l, reportAt := some n }

theorem witness_StowAndReportEvents_reports :
    ((wFrozen false).die 0).reportAt = none ∧
    (∀ l n, ((wReport l n).die 0).reports = l ∧ ((wReport l n).die 0).reportAt = some n ∧ (wReport l n).sidc = 100) ∧
    (((0xF9, 5) : Byte × Pos) ∈ [((0x31 : Byte), (2 : Pos)), (0xF9, 5)]) ∧ (∀ e ∈ [((0x31 : Byte), (2 : Pos))], e.1 ≠ 0xF9) ∧
    (∃ e ∈ [((0xFA : Byte), (2 : Pos)), (0x31, 2)], e.1 ≠ 0xFA ∧ e.1 ≠ 0xFB) ∧
    ∀ e ∈ [((0xFA : Byte), (2 : Pos)), (0xFB, 3)], e.1 = 0xFA ∨ e.1 = 0xFB :=
  ⟨rfl, fun _ _ => ⟨rfl, rfl, rfl⟩, by simp, by simp, by simp, by simp⟩

/-- A stow of die 0, and its team. -/
def wStow (who : StowFor) (unstow : Bool) (out : Option Byte) : StowOp :=
  { who := who, unstow := unstow, parcel := 0x20, va := 0x10000, off := 0, until_ := none, out := out }
def wStows (k : Option StowOp) (g : Team) : State :=
  { (wFrozen false).updDie fun d => { d with stow := k } with hub := { teams := [g] } }

theorem witness_StowAndReportEvents :
    (((wStows (some (wStow .handler false (some 0))) wTeam).die 0).stow = some (wStow .handler false (some 0)) ∧
      (wStow .handler false (some 0)).who = .handler ∧ (wStow .handler true (some 0xC1)).unstow = true ∧
      (wStow .handler false (some 0)).out = some 0) ∧
    (∀ k, ((wStows none wTeam).die 0).stow = some k → k.who ≠ .handler ∨ k.unstow ≠ true ∨ k.out = none) ∧
    ((wStows (some (wStow .fault false none)) wTeam).teamOf 0 = some wTeam ∧ (wStow .fault false none).out = none ∧
      (wStow .fault false (some 0)).who = .fault ∧ (wStow .fault false (some 0)).out.isSome = true ∧ (1 : DieId) ≠ 0) ∧
    ((wStow .preempt false none).who = .preempt ∧ (wStow .preempt false (some 0xC0)).out = some 0xC0 ∧ (0xC0 : Byte) ≠ 0) ∧
    (let g := { wTeam with phase := .preempting }
     (wStows (some (wStow .preempt false (some 0))) g).teamOf 0 = some g ∧ g.phase = .preempting ∧ g.dies = [0] ∧
      ((wStows (some (wStow .preempt false (some 0))) g).die 0).cond = .frozen ∧
      ((wStows (some (wStow .preempt false (some 0))) g).fs 0).anyFar = false) ∧
    (∃ e ∈ ({ wTeam with dies := [0, 1] } : Team).dies, e ≠ 0 ∧ e ∉ ({ wTeam with dies := [0, 1] } : Team).stowed) ∧
    ((0x31 : Byte).toNat = ((wStows none wTeam).die 0).trapcause.toNat % 256 ∧ ((1 : DieId) ∉ wTeam.dies) ∧ (0x31 : Byte) ≠ 0xF9 ∧
      (1 : DieId) ∈ ({ wTeam with dies := [0, 1] } : Team).dies ∧ ((wStows none wTeam).die 1).cond ≠ .frozen ∧ wTeam.num = wTeam.num ∧
      ({ wTeam with phase := .ending } : Team).phase = .ending ∧ wTeam.phase ≠ .ending ∧ (wStows none wTeam).hub.dbgctl = false ∧
      { (wStows none wTeam).hub with dbgctl := true }.dbgctl = true) ∧
    (wBase .c).teamOf 0 = none ∧
    (∀ n, (((wBase .c).updDie fun d => { d with debugAt := some 100 }).die 0).debugAt = some n → n ≤ (wBase .c).sidc) ∧
    (((wBase .c).updDie fun d => { d with debugAt := some 101 }).die 0).debugAt = some 101 ∧ (wBase .c).sidc < 101 :=
  ⟨by decide +kernel, fun _ h => (by cases h), by decide +kernel, by decide +kernel, by decide +kernel, by decide +kernel,
    by decide +kernel, by decide +kernel, fun _ h => Nat.le_of_eq (Option.some.inj h).symm, by decide +kernel, by decide +kernel⟩

/-- RDVW of rp5 is the next word of the C stream of N0, its phase not yet come. -/
def wWaiting (cnt : Nat) : State :=
  let s := (State.reset.placeWord (encode (.rdvw 5 1)))
  { s.updDie fun d => { d with cond := .held, holdcnt := cnt } with power := .running, sidc := 100, agenda := [] }

/-- A header is the next of the C stream of N0: a good one at 0x80, none at 0x40. -/
def wHdr (q : Parcel) (a : Nat) : State :=
  ((wBase .c).updCtx fun c => { c with next := .hdr q a 0 }).updSta fun x => { x with plane := wHeader x.plane }

theorem witness_DieCyclesAndHolds :
    (wBase .c).waits 0 = [] ∧ (wWaiting 5).waits 0 ≠ [] ∧ (((wBase .c).updDie fun d => { d with xch := true }).die 0).xch = true ∧
    ((wFq [wSlot none] 0).curSta.fqOf 2 = wSlot none :: [] ∧ (wSlot none).data = none) ∧
    (((wWaiting 5).die 0).holdcnt < ((wWaiting 5).die 0).holdmax.toNat ∧ ((wWaiting 0x10000).die 0).cond = .held ∧
      ((wWaiting 0x10000).die 0).holdmax.toNat ≤ ((wWaiting 0x10000).die 0).holdcnt ∧
      ∃ w ∈ (wWaiting 0x10000).waits 0, w.kind ≠ .gov) ∧
    (((wBase .c).die 0).cond ≠ .waiting ∧
      (((wBase .c).updDie fun d => { d with cond := .waiting, notBefore := 100 }).die 0).cond = .waiting ∧
      (((wBase .c).updDie fun d => { d with cond := .waiting, notBefore := 100 }).die 0).notBefore ≤ (wBase .c).sidc) ∧
    (((((wHdr 0x80 10).die 0).sta 0).ctxOf .c).next = .hdr 0x80 10 0 ∧ ((wHdr 0x80 11).die 0).dcyc < 11 ∧
      10 ≤ ((wHdr 0x80 10).die 0).dcyc) ∧
    (let h := (((wHdr 0x80 10).die 0).sta 0).hdrAt 0x80
     h.toNat / 2 ^ 60 = 10 ∧ h.toNat / 2 ^ 48 % 2 ^ 9 = 0 ∧ h.toNat / 2 ^ 24 % 16 = 0 ∧ h.toNat / 2 ^ 40 % 256 ≠ 255 ∧
      1 ≤ h.toNat / 2 ^ 28 % 2 ^ 12 ∧ (0x80 : Parcel).toNat + 4 + 6 * (h.toNat / 2 ^ 28 % 2 ^ 12) ≤ 2 ^ 16) ∧
    ((((wHdr 0x40 10).die 0).sta 0).hdrAt 0x40).toNat / 2 ^ 60 ≠ 10 := by decide +kernel

/-- A packet of the given first words, the rest zeros, and its place in queue 3. -/
def wBytes (l : List W64) : List Byte := (l ++ List.replicate (32 - l.length) 0).flatMap fun w => leBytes w 8
def wPacket (l : List W64) (endAt off : Nat) : Packet :=
  { bytes := wBytes l, started := 96, team := 0, freed := [], done := none, cause := 0, pos := 0, off := off, failed := false, endAt := endAt }
def wQueue (l : List Packet) (tail : W32) (g : List Team) : State :=
  { wBase .c with sidc := 112, hub := { queues := [(3, { en := true, base := 0x10000, tail := tail, cur := l })], teams := g } }
def wGone : Team := { wTeam with queue := 3, phase := .preempted }

theorem witness_QueueEvents :
    ((wBase .c).sidc % 16 ≠ 0 ∧ (wQueue [] 1 []).sidc % 16 = 0 ∧ (∀ k : Fin 32, k ≠ 3 → (wQueue [] 1 []).ready k.val = false) ∧
      (wQueue [] 1 []).ready 3 = true ∧ (wQueue [] 1 []).waiting 3 = none) ∧
    ((wQueue [] 0 [wGone]).ready 3 = true ∧ (∀ k : Fin 32, k ≠ 3 → (wQueue [] 0 [wGone]).ready k.val = false) ∧ (wQueue [] 0 [wGone]).waiting 3 = some wGone) ∧
    (packetBad (wBytes [0x04, 0, 5, 9]) = false ∧ packetType (wBytes [0x04, 0, 5, 9]) = 4) ∧
    (((wQueue [wPacket [0x05, 0, 5, 9] 0 0] 1 []).queue (3 : Fin 32).val).cur = [wPacket [0x05, 0, 5, 9] 0 0] ∧
      (wPacket [0x05, 0, 5, 9] 0 0).live 5 = true) ∧
    ((wPacket [0x06, 0, 0x4000, 0x8000, 0x200] 0 0x100).live 6 = true ∧
      (qword (wPacket [0x06, 0, 0x4000, 0x8000, 0x200] 0 0x100).bytes 2).toNat < 2 ^ 63 ∧
      (qword (wPacket [0x06, 0, 0x4000, 0x8000, 0x200] 0 0x100).bytes 3).toNat < 2 ^ 63) ∧
    (∀ p ∈ ((wQueue [wPacket [0x05] 0 0] 1 []).queue (3 : Fin 32).val).cur, p.live 6 = false ∧ p.live 7 = false) ∧
    ((wPacket [0x07, 0, 1] 0 0).live 7 = true ∧ (wPacket [0x07, 0, 1] 0 0).team = 0 ∧
      (wQueue [wPacket [0x07, 0, 1] 0 0] 1 []).runningTeam ((qword (wPacket [0x07, 0, 1] 0 0).bytes 2).setWidth 16) = none ∧
      (wQueue [wPacket [0x07, 0, 1] 0 0] 1 [wTeam]).runningTeam ((qword (wPacket [0x07, 0, 1] 0 0).bytes 2).setWidth 16) = some wTeam ∧
      wTeam.phase ≠ .ending ∧ (wQueue [] 1 [{ wTeam with phase := .ending }]).runningTeam 1 = some { wTeam with phase := .ending }) ∧
    ({ wPacket [0x05, 0, 5, 9] 0 0 with done := some 0 } : Packet).done = some 0 ∧
    (qword (wPacket [0x4000000005] 0 0).bytes 0).getLsbD 38 = true ∧ (qword (wPacket [0x8000000005] 0 0).bytes 0).getLsbD 39 = true ∧
    (qword (wPacket [0x05] 0 0).bytes 0).getLsbD 38 = false := by decide +kernel

theorem w_ok {ε α : Type} (x : Except ε α) (h : x.toOption.isSome = true) : ∃ a, x = .ok a := by
  cases x with
  | ok a => exact ⟨a, rfl⟩
  | error _ => cases h

theorem w_err {ε α : Type} (x : Except ε α) (h : x.toOption.isSome = false) : ∃ e, x = .error e := by
  cases x with
  | ok _ => cases h
  | error e => exact ⟨e, rfl⟩

/-- A LAUNCH of one die, its image at DLA 0x1000 of die 0: an image without records, or zeros. -/
def wLaunch : Packet := wPacket [0x01, 0, 0x110, 0x1000] 0 0
def wImage : List Byte :=
  let h := ([0x5445414D00010001, 64, 0, 0, 0, 0, 0] : List W64).flatMap fun w => leBytes w 8
  h ++ [0, 0, 0, 0] ++ leBytes (crc32c (h ++ [0, 0, 0, 0])) 4
def wImages (img : List Byte) (g : List Team) : State :=
  ({ wQueue [wLaunch] 1 g with mem := img.zipIdx.filterMap fun (e : Byte × Nat) => if e.1 = 0 then none else some (0x1000 + e.2, e.1) }).setFs 0
    { (wBase .c).fs 0 with mcReset := false }

theorem witness_LaunchAndTeamEvents_image :
    (∃ l, (wImages wImage []).image wLaunch.bytes 1 = .ok l) ∧ (∃ e, (wImages [] []).image wLaunch.bytes 1 = .error e) :=
  ⟨w_ok _ (by decide +kernel), w_err _ (by decide +kernel)⟩

def wPrep : Team := { wTeam with queue := 3, phase := .preparing, planeAt := 112, begun := [] }
/-- A team at the end of its plane work, with the soft errors `l` in shadow planes of its die. -/
def wPlanes (l : List BadPlace) : State := (wQueue [] 1 [wPrep]).updDie fun d => { d with bad := l }
def wTeamed (g : Team) (f : Die → Die) : State := ({ wQueue [] 1 [g] with hub := { teams := [g] } }).updDie f
/-- A LAUNCH that may pre-empt; a team on every die that yields or not and that holds wheel position 7; the record of an image that grants it. -/
def wUrgent : Packet := wPacket [0x01, 0, 0x20110, 0x1000] 0 0
def wVictims (y : Bool) : State :=
  wQueue [wUrgent] 1 [{ wTeam with dies := [0, 1, 2, 3], begun := [0, 1, 2, 3], preok := y, prio := 1, grants := [(0, 5, 7)] }]
def wGrantRec : ImgRec := { ty := 6, die := 0, pos := 5, arg := 0, body := leBytes (0x80 : W64) 8 ++ List.replicate 24 0 }

theorem witness_LaunchAndTeamEvents :
    ((∀ p ∈ ((wQueue [wPacket [0x05] 0 0] 1 [wTeam]).queue (3 : Fin 32).val).cur, p.live 1 = false ∨ p.team ≠ 0) ∧
      (∀ g ∈ (wQueue [wPacket [0x05] 0 0] 1 [wTeam]).hub.teams, g.queue = 3 → g.phase ≠ .preparing)) ∧
    (wLaunch.live 1 = true ∧ wLaunch.team = 0 ∧
      takeDies wLaunch.bytes (fun d => (wImages wImage []).dieOpen wLaunch.freed d || (wImages wImage []).released wLaunch.freed d) = some [0] ∧
      takeDies wLaunch.bytes (fun d => (wVictims true).dieOpen wLaunch.freed d || (wVictims true).released wLaunch.freed d) = none ∧
      (qword wLaunch.bytes 2).getLsbD 17 = false ∧ (qword wUrgent.bytes 2).getLsbD 17 = true ∧ wUrgent.freed = [] ∧
      wUrgent.live 1 = true ∧ wUrgent.team = 0 ∧
      takeDies wUrgent.bytes (fun d => (wVictims true).dieOpen wUrgent.freed d || (wVictims true).released wUrgent.freed d) = none ∧
      (pickVictims wUrgent.bytes ((wVictims true).dieOpen []) [] (wVictims true).victims).isSome = true ∧
      pickVictims wUrgent.bytes ((wVictims false).dieOpen []) [] (wVictims false).victims = none ∧
      ((wVictims true).grantsOpen [] = true ∧ (wVictims true).grantsOpen [wGrantRec] = false) ∧
      (wImages wImage []).hub.teams.length < 65535) ∧
    (wPrep.queue = 3 ∧ wPrep.phase = .preparing ∧ wPrep.planeAt ≤ (wPlanes []).sidc ∧ wPrep.dies = [0] ∧ wPrep.dies.Nodup ∧
      ∀ l, (wPlanes l).hub.teams = [wPrep] ∧ (∀ p ∈ ((wPlanes l).queue 3).cur, p.live 1 = false ∨ p.team ≠ 0) ∧
        ∀ d ∈ wPrep.dies, ((wPlanes l).die d).restoreAt = none) ∧
    (((wPlanes []).sendPlanes wPrep).firstBadPlane wPrep.recs wPrep.dies = none ∧
      ((wPlanes [.shadow 5 9]).sendPlanes wPrep).firstBadPlane wPrep.recs wPrep.dies = some (0, 5)) ∧
    (wBase .c).teamOf 0 = none := by
  refine ⟨?_, ?_, ?_, ?_⟩
  · decide +kernel
  · decide +kernel
  · exact ⟨rfl, rfl, by decide +kernel, rfl, by decide, fun l => ⟨rfl, fun _ h => absurd h (by simp [show ((wPlanes l).queue 3).cur = [] from rfl]), fun d h => by
      obtain rfl := List.mem_singleton.1 h
      rfl⟩⟩
  · decide +kernel

theorem witness_LaunchAndTeamEvents_dies :
    ((wTeamed { wTeam with begun := [] } id).teamOf 0 = some { wTeam with begun := [] } ∧ wTeam.phase = .running ∧
      (0 : DieId) ∉ ({ wTeam with begun := [] } : Team).begun ∧ wTeam.start + wTeam.place 0 * wTeam.delta ≤ (wQueue [] 1 []).sidc ∧
      (0 : DieId) ∈ wTeam.begun ∧ ((wTeamed wTeam id).die 0).cond ≠ .frozen ∧
      ((wTeamed wTeam fun d => { d with cond := .frozen }).die 0).cond = .frozen ∧ ((wTeamed wTeam id).die 0).unexec = false ∧
      ((wTeamed wTeam id).die 0).notBefore ≤ 112 ∧ kwf ({} : Cell) ((wTeamed wTeam id).die 0).cells = true) ∧
    (((wTeamed wTeam fun d => { d with restoreAt := some 112 }).die 0).restoreAt = some 112 ∧ 112 ≤ (wTeamed wTeam id).sidc) ∧
    (∀ g ∈ (wTeamed wTeam id).hub.teams, g.num = 1 → g.phase ≠ .resuming) := by decide +kernel

theorem witness_LaunchAndTeamEvents_ends :
    (let g := { wTeam with phase := .resuming, planeAt := 112, stowed := [0] }
     (wTeamed g id).hub.teams = [g] ∧ g.phase = .resuming ∧ g.planeAt ≤ (wTeamed g id).sidc ∧
      (∀ d ∈ g.dies, ((wTeamed g id).die d).restoreAt = none) ∧ (∀ d ∈ g.dies, d ∈ g.stowed)) ∧
    (let g := { wTeam with phase := .resuming, planeAt := 112 }
     g.dies = [0] ∧ g.stowed = [] ∧ ((wTeamed g id).die 0).restoreAt = none ∧ ((wTeamed g id).die 0).stow = none) ∧
    (∀ g ∈ (wTeamed wTeam id).hub.teams, g.num = 1 → (wTeamed wTeam id).teamOver g = false) ∧
    (wTeamed wTeam fun d => { d with stations := Vector.replicate 128 {} }).hub.teams.find? (fun t => t.num == wTeam.num) = some wTeam ∧
    (wTeamed wTeam fun d => { d with stations := Vector.replicate 128 {} }).teamOver wTeam = true := by decide +kernel

/-- A graph handle 5 of queue 3 that runs one operation, with a port 2. -/
def wRec (kind len : W64) : Four W64 := { x0 := (kind <<< 56) ||| (2 <<< 20) ||| (7 <<< 12), x1 := 0, x2 := len, x3 := 0 }
def wOp (kind len : W64) (down : Bool) : GraphOp := { rec_ := wRec kind len, fired := true, startAt := 96, endAt := 112, down := down, doneOp := false }
def wRun : Packet := wPacket [0x03, 0, 5] 100 0
def wGraph (o : GraphOp) (x : XPort) : State :=
  let s := wQueue [wRun] 1 []
  ({ s with hub := { s.hub with handles := [(53, { loaded := true, run := some ([o], [0x1000]) })], ports := [(2, x)] } }).setFs 0
    { (wBase .c).fs 0 with mcReset := false }

theorem witness_GraphAndPortEvents :
    ((wPacket [0x02, 0, 5, 0x1000, 1] 112 0).live 2 = true ∧ 112 ≤ (wQueue [] 1 []).sidc ∧ (112 : Nat) ≠ 0 ∧ (wQueue [] 1 []).sidc < 113 ∧
      (graphOps (List.replicate 32 0) 1).all opOk = true ∧
      (∃ r ∈ graphOps (List.replicate 32 255) 1, opOk r = false)) ∧
    (wRun.live 3 = true ∧ (wPacket [0x03, 0, 5] 0 0).endAt = 0 ∧ 5 = (qword wRun.bytes 2).toNat % 16 ∧
      ((wGraph (wOp 0 0 false) {}).handle 3 5).run.isSome = true ∧ ((wQueue [wRun] 1 []).handle 3 5).run = none) ∧
    (((wGraph (wOp 0 256 false) {}).handle 3 5).run = some ([wOp 0 256 false], [0x1000]) ∧
      (∀ k < 16, k ≠ 5 → ((wGraph (wOp 0 256 false) {}).handle 3 k).run = none) ∧ (∀ k < 16, ((wQueue [] 1 []).handle 3 k).run = none) ∧
      ({ wOp 0 256 false with fired := false } : GraphOp).fired = false ∧
      ((wGraph (wOp 0 256 false) {}).handle 3 5).err = none ∧ (wOp 0 256 false).fired = true ∧ (wOp 0 256 false).doneOp = false ∧
      (wOp 0 256 false).endAt ≤ (wGraph (wOp 0 256 false) {}).sidc ∧ (wOp 0 256 false).rec_.x3.getLsbD 63 = false ∧
      ((wGraph (wOp 0 256 false) {}).queue 3).cur = [wRun] ∧ wRun.endAt ≠ 0 ∧ (wOp 0 256 true).down = true) ∧
    ((wGraph (wOp 0 256 false) { up := true }).port ((wOp 0 256 false).rec_.x0.toNat / 2 ^ 20 % 8) = { up := true } ∧
      (wOp 0 0 false).rec_.x2.toNat % 2 ^ 32 = 0 ∧ (wOp 0 256 false).rec_.x0.toNat / 2 ^ 56 = 0 ∧
      (wOp 0 256 false).rec_.x2.toNat % 2 ^ 32 ≠ 0 ∧ (wOp 1 4 false).rec_.x0.toNat / 2 ^ 56 = 1 ∧
      (wOp 1 4 false).rec_.x2.toNat % 2 ^ 32 = 4 ∧ (wOp 1 4 false).rec_.x0.toNat / 2 ^ 8 % 16 = 0 ∧
      (kget [] ((wOp 1 4 false).rec_.x0.toNat / 2 ^ 12 % 256) ({ up := true, rx := [(7, List.replicate 3 (false, 1))] } : XPort).rx).length < 4 ∧
      4 ≤ (kget [] ((wOp 1 4 false).rec_.x0.toNat / 2 ^ 12 % 256) ({ up := true, rx := [(7, List.replicate 4 (false, 1))] } : XPort).rx).length) ∧
    (((wGraph (wOp 0 0 false) { en := true }).port 2).en = true ∧ ((wGraph (wOp 0 0 false) {}).port 2).en = false) := by decide +kernel

theorem witness_GraphAndPortEvents_memory :
    (∃ l, (wGraph (wOp 0 256 false) {}).dlaBytes (opPlace [0x1000] (wRec 0 256)).1 (opPlace [0x1000] (wRec 0 256)).2 256 = .ok l) ∧
    (∃ l, (wGraph (wOp 1 4 false) {}).dlaBytes (opPlace [0x1000] (wRec 1 4)).1 (opPlace [0x1000] (wRec 1 4)).2 4 = .ok l) ∧
    (∃ e, (wQueue [] 1 []).dlaBytes 0 0x1000 32 = .error e) ∧
    (∃ l, (wGraph (wOp 0 256 false) {}).dlaBytes 0 0x1000 32 = .ok l) :=
  ⟨w_ok _ (by decide +kernel), w_ok _ (by decide +kernel), w_err _ (by decide +kernel), w_ok _ (by decide +kernel)⟩

/-- The hub of a running module as a function of the reset one, in cycle 100 of the die cycle 10. -/
def wHub (f : Hub → Hub) : State := { wBase .c with hub := f {} }
def wHev (n : Nat) : Hub → Hub := fun h => { h with hevheld := List.replicate n (Four.all 0) }
def wParked : State :=
  let s := (wBase .c).updDie fun d => { d with cond := .frozen }
  { s with hub := { teams := [{ wTeam with phase := .parked }], dbgfsa := 0x21000008 } }

theorem witness_HostEvents :
    ((∃ g ∈ (wHub fun h => { h with teams := [wTeam] }).hub.teams, g.phase ≠ .preempted) ∧
      (∀ g ∈ (wHub fun h => { h with teams := [{ wTeam with phase := .preempted }] }).hub.teams, g.phase = .preempted)) ∧
    ((¬ (4 = 8 ∧ (0x410002 : BitVec 26).toNat % 8 = 0) ∧ ¬ (4 = 4 ∧ (0x410002 : BitVec 26).toNat % 4 = 0)) ∧
      (wHub id).power = .running ∧ (0x4107FC : BitVec 26).toNat / 8 = 0x82000 + 255 ∧ (0x4107FC : BitVec 26).toNat % 4 = 0 ∧
      (0x4107FC : BitVec 26).toNat % 8 = 4 ∧ (0x4107F8 : BitVec 26).toNat % 8 = 0 ∧
      (0x4007C0 : BitVec 26).toNat = 0x400000 + 0x40 * 31 ∧ (0x4007D0 : BitVec 26).toNat = 0x400010 + 0x40 * 31 ∧
      ((wHub fun h => { h with queues := [(31, { en := true })] }).queue 31).en = true ∧ ((wHub id).queue 31).en = false ∧
      State.reset.power = .boot ∧ (0x3FFFFFC : BitVec 26).toNat = 0x3000000 + 0xFFFFFC ∧ 0xFFFFFC % 4 = 0) ∧
    ((0x10 : Nat) = (wHub id).hub.bar2At (0x10 : BitVec 38).toNat ∧ (0 : DieId) = Fin.ofNat 4 (0x10 / 2 ^ 36) ∧
      ((wFlight (wReq .read)).fs 1).mcReset = false ∧ ((wHub id).fs 0).mcReset = true ∧ ([1, 2] : List Byte).length = 2) ∧
    ((wHub fun h => { h with heven := true }).hub.hevheld = [] ∧ (wHub fun h => { h with heven := true }).hub.heven = true ∧
      ((wHub id).hub.hevtail - (wHub id).hub.hevhead).toNat < hevSlots (wHub id).hub ∧ (wHub id).hub.heven = false ∧
      hevSlots (wHub id).hub ≤ ((wHub fun h => { h with hevtail := 256 }).hub.hevtail - (wHub id).hub.hevhead).toNat ∧
      (wHub (wHev 255)).hub.hevheld.length < 256 ∧ 256 ≤ (wHub (wHev 256)).hub.hevheld.length ∧ (4 : Byte) ≠ 1) := by decide +kernel

theorem witness_HostEvents_debug :
    ((wHub id).hub.telctl.getLsbD 63 = false ∧ (wHub fun h => { h with telctl := 0x8000000000000006 }).hub.telctl.getLsbD 63 = true) ∧
    ((0xC000000000000001 : W64).getLsbD 63 = true ∧ (0xC000000000000001 : W64).getLsbD (0 : DieId).val = true ∧
      (wParked.teamOf 0).isSome = true) ∧
    ((0 : DieId).val = wParked.hub.dbgfsa.toNat / 2 ^ 62 ∧ wParked.parked 0 = true ∧ (wHub id).parked 0 = false ∧
      (wParked.frzGet 0 (wParked.hub.dbgfsa.toNat % 2 ^ 32)).isSome = true ∧ wParked.frzGet 0 4 = none ∧
      (wParked.frzPut 0 0x21000008 7 false).isSome = true ∧ (wParked.frzPut 0 4 7 false).isSome = false ∧
      (1 : W64).toNat = 2 ^ (0 : DieId).val ∧ (∀ d : DieId, (2 : W64).getLsbD d.val = true → wParked.parked d = false)) ∧
    ((wHub id).hub.trcstore = [] ∧ (wHub id).hub.trcctl.getLsbD 62 = false ∧
      2 ^ clampLsz 4 20 (fld (wHub id).hub.trcctl 0 5) ≤ ((wHub fun h => { h with trctail := 1024 }).hub.trctail - 0).toNat ∧
      (wTrace [Four.all 5]).hub.trcstore = [Four.all 5] ∧
      (wHub fun h => { h with trcctl := 0xC00000000000000A }).hub.trcctl.getLsbD 62 = true ∧
      ((wTrace [Four.all 5]).hub.trctail - (wTrace [Four.all 5]).hub.trchead).toNat <
        2 ^ clampLsz 4 20 (fld (wTrace [Four.all 5]).hub.trcctl 0 5)) := by decide +kernel

theorem witness_HostEvents_bar2 : ∃ x, (wFlight (wReq .read)).dlaBytes 1 0x10 8 = .ok x := w_ok _ (by decide +kernel)

/-- What the verification of a firmware image answers is a free value of Config, so no state can fix which of its cases holds. -/
theorem witness_BootAndAttestation :
    (wBase .c).power ≠ .boot ∧ State.reset.power = .boot ∧ State.reset.hub.bootAt = none ∧ (0 : W64).getLsbD 63 = false ∧
    (0x8000000000000000 : W64).getLsbD 63 = true ∧
    ({ State.reset with hub := { bootAt := some 1 } }.hub.bootAt = some 1 ∧ State.reset.sidc < 1 ∧
      1 ≤ ({ State.reset with sidc := 1, hub := { bootAt := some 1 } } : State).sidc) ∧
    ({ State.reset with power := .off } : State).power = .off ∧ ({ State.reset with power := .inReset } : State).power = .inReset ∧
    (wBase .c).power = .running ∧ (Instr.getVersion [] ≠ .spdmUnsupportedRequest []) ∧ (Instr.getVersion [] ≠ .getMeasurements []) := by
  decide +kernel

/-- The word `w` due at the C stream of N0, its section entered or not, the L stream with no section retired; and the same word as the handler's next. -/
def wIssue (w : W96) (entering : Bool) (k : Section) (bad : List BadPlace) : State :=
  { ((wBase .c).updSta fun x => { x.setCtx .l { x.ctxOf .l with rsec := 0xFF } with plane := placeParcels x.plane w }).updDie fun d => { d with bad := bad } with
    agenda := [.issue 0 0 .c] }.updCtx fun c => { c with entering := entering, sect := some k }
def wHissue (w : W96) : State :=
  let s := (wIssue w false placedSection []).updDie fun d => { d with cond := .handler }
  { s with agenda := [.hissue 0] }
def wDeps : Section := { placedSection with deps := { x0 := 0xFF, x1 := 1, x2 := 0xFF, x3 := 0xFF } }
def wWord (s : State) : W96 := ((s.die 0).sta 0).wordAt 0x14

theorem witness_StepRunsTheWord :
    (let s := wIssue (encode .nop) true wDeps [.plane 0 0x19]
     s.agenda = .issue 0 0 .c :: [] ∧ (((s.die 0).sta 0).ctxOf .c).next = .word 0x14 10 ∧ 10 ≤ (s.die 0).dcyc ∧
      (∃ k < 6, BadPlace.plane 0 (((0x14 : Parcel).toNat + k) % 2 ^ 16) ∈ (s.die 0).bad)) ∧
    (let s := wIssue (encode .nop) true wDeps []
     (∀ k < 6, BadPlace.plane 0 (((0x14 : Parcel).toNat + k) % 2 ^ 16) ∉ (s.die 0).bad) ∧
      (decodeWord .c (wWord s)).toOption = some .nop ∧ handlerOnly (wordOpc (wWord s)) = false ∧
      (((s.die 0).sta 0).ctxOf .c).entering = true ∧ (((s.die 0).sta 0).ctxOf .c).sect = some wDeps ∧
      depsOk ((s.die 0).sta 0) wDeps = false ∧ depsOk ((s.die 0).sta 0) placedSection = true ∧
      (((s.die 0).sta 0).ctxOf .c).pred (fld (wWord s) 84 3) ≠ (wWord s).getLsbD 87) ∧
    (let s := wIssue (encodeWith 0 1 (.loop false (.cnt 1) 1)) false placedSection []
     (((s.die 0).sta 0).ctxOf .c).pred (fld (wWord s) 84 3) = (wWord s).getLsbD 87 ∧
      (decodeWord .c (wWord s)).toOption = some (.loop false (.cnt 1) 1) ∧ (((s.die 0).sta 0).ctxOf .c).entering = false) ∧
    handlerOnly (wordOpc (wWord (wIssue (encode (.stow (.reg 1))) false placedSection []))) = true := by decide +kernel

theorem witness_StepRunsTheWord_error : ∃ e, decodeWord .c (wWord (wIssue (0xFF <<< 76) false placedSection [])) = .error e :=
  w_err _ (by decide +kernel)

theorem witness_StepRunsTheWord_handler :
    (let s := wHissue (encode (.stow (.reg 1)))
     s.agenda = .hissue 0 :: [] ∧ (s.die 0).cond = .handler ∧ (s.die 0).stow = none ∧ (∀ v ∈ (s.die 0).hwrites, v.land ≠ s.sidc) ∧
      (s.die 0).bad = [] ∧ (((s.die 0).sta (s.die 0).hpos).ctxOf .c).next = .word 0x14 10 ∧ 10 ≤ s.sidc ∧
      (((s.die 0).sta (s.die 0).hpos).ctxOf .c).entering = false ∧ (decodeWord .c (wWord s)).toOption = some (.stow (.reg 1)) ∧
      (((s.die 0).sta 0).ctxOf .c).pred (fld (wWord s) 84 3) ≠ (wWord s).getLsbD 87 ∧ handlerMay (wordOpc (wWord s)) = true) ∧
    handlerMay (wordOpc (encode (.rdvi 5 (.i 1)))) = false := by decide +kernel

theorem witness_StepRunsTheWord_next_cycle :
    (wBase .c).agenda = [] ∧ (wBase .c).power = .running ∧ State.reset.power = .boot ∧
    ({ State.reset with power := .off } : State).inbox = [] ∧
    ({ State.reset with power := .off, inbox := [(5, .hubResetDeassert)] } : State).inbox ≠ [] := by decide +kernel

/-- An ADMIT of 4 of the C streams of N0 and N5, its cycle near the ramp events of `ramps` or not. -/
def wAdmit : Instr := .admitWork .fwd false (.cnt 4)
def wAdmits (ramps : List Nat) : State :=
  let s := State.reset.placeWord (encode wAdmit)
  { s.updDie fun d => d.setSta 5 (d.sta 0) with power := .running, sidc := 100, agenda := [], hub := { ramps := ramps } }

theorem witness_DieCyclesAndHolds_admit :
    (wAdmits []).actsOf 0 0 .c = some (0, .c, 0x14, wAdmit) ∧ (wAdmits []).actsOf 0 5 .c = some (5, .c, 0x14, wAdmit) ∧
    (0, .c, 0x14, wAdmit) ∈ (wAdmits []).acting 0 ∧ (5, .c, 0x14, wAdmit) ∉ (wAdmits []).acting 0 ∧
    ((wAdmits []).admitCount (.cnt 4)).1 ≠ 0 ∧
    (wAdmits []).curDie.admitCause (wAdmits []).cyc .fwd ((wAdmits []).admitCount (.cnt 4)).1 ((wAdmits []).admitCount (.cnt 4)).2 (wAdmits []).focus.pos = none ∧
    (wAdmits []).waitKind wAdmit = none ∧ (wAdmits [100]).waitKind wAdmit = some .gov ∧ (wAdmits [100]).waits 0 ≠ [] ∧
    (∀ w ∈ (wAdmits [100]).waits 0, w.kind = .gov) := by decide +kernel

theorem witness_DieCyclesAndHolds_header :
    (let d := (wHdr 0x80 10).updDie fun d => { d with bad := [.plane 0 0x82] }
     (d.die 0).imemBad 0 0x80 4 = true ∧ ((wHdr 0x80 10).die 0).imemBad 0 0x80 4 = false) ∧
    (let d := (wBase .c).updDie fun d => { d with eoc := [.snap 0] }
     (d.die 0).eoc = [.snap 0]) ∧ (wBase .c).focus.handler = false := by decide +kernel

/-- Monitors 2 and 9 of die 0 count while HOLDCNT is at most the threshold, and have not fired; they freeze the die or not. -/
def wMonitors (frz : Bool) : State :=
  let m : Monitor := { cfg := if frz then 0xD400000000000000 else 0x9400000000000000, cnt := 0, fired := false }
  (wBase .c).updDie fun d => { d with monitors := [(2, m), (9, m)] }
theorem witness_DieCyclesAndHolds_monitors : ∀ b : Bool,
    kwf ({} : Monitor) ((wMonitors b).die 0).monitors = true ∧
    (let m : Monitor := kget {} 2 ((wMonitors b).die 0).monitors
     m.cfg.getLsbD 63 = true ∧ m.cfg.getLsbD 62 = b ∧ m.fired = false ∧ (wMonitors b).monValue 0 m.cfg = some 0 ∧ monHolds m.cfg 0 = true) ∧
    (kget {} 0 ((wMonitors b).die 0).monitors : Monitor).cfg.getLsbD 63 = false := by decide +kernel

/-- The phase of PACKET_TAKE is a constant of the part with no value, so the cycle of these states is taken from it; nothing else that a
packet needs depends on the cycle. -/
def wTake (n : Nat) : State := { wQueue [] 1 [] with sidc := n }
theorem witness_QueueEvents_phase :
    (wTake (Config.takePhase % 16)).sidc % 16 = Config.takePhase % 16 ∧ (wTake (Config.takePhase % 16 + 1)).sidc % 16 ≠ Config.takePhase % 16 ∧
    (let s := wTake (Config.takePhase % 16)
     s.ready 3 = true ∧ s.waiting 3 = none ∧ (∀ k : Fin 32, k ≠ 3 → s.ready k.val = false) ∧
      (∀ k : Fin 32, s.ready k.val = true → k = 3)) ∧
    (let s := { wQueue [] 0 [wGone] with sidc := Config.takePhase % 16 }
     s.ready 3 = true ∧ s.waiting 3 = some wGone) := by
  refine ⟨Nat.mod_mod _ _, ?_, ?_, ?_⟩
  · show (Config.takePhase % 16 + 1) % 16 ≠ Config.takePhase % 16
    omega
  · decide +kernel
  · decide +kernel

/-- Queue 3 with a head packet in host memory: a GRAPH.RUN of handle 5, which runs or not, a LAUNCH with its dies free or taken, a WAIT. -/
def wHead3 (l : List W64) (g : List Team) (run : Bool) : State :=
  let s := wQueue [] 1 g
  { s with
      hostMem := (wBytes l).zipIdx.filterMap fun (e : Byte × Nat) => if e.1 = 0 then none else some (0x10000 + e.2, e.1)
      hub := { s.hub with handles := [(53, { loaded := true, run := if run then some ([], []) else none })] } }
theorem witness_QueueEvents_ready :
    (wHead3 [3, 0, 5] [] false).ready 3 = true ∧ (wHead3 [3, 0, 5] [] true).ready 3 = false ∧
    (wHead3 [1, 0, 0x110, 0x1000] [] false).ready 3 = true ∧
    (wHead3 [1, 0, 0x110, 0x1000] [{ wTeam with dies := [0, 1, 2, 3] }] false).ready 3 = false ∧
    (wHead3 [1, 0, 0x20110, 0x1000] [{ wTeam with dies := [0, 1, 2, 3], preok := true }] false).ready 3 = true ∧
    (wHead3 [4, 0, 9, 1] [] false).ready 3 = false ∧ (wHead3 [4, 0, 9, 0] [] false).ready 3 = true ∧
    (wHead3 [0x77, 0, 0, 0] [] false).ready 3 = true ∧ (wHead3 [4, 0, 9, 1] [] false).waiting 3 = none := by decide +kernel

/-- A STOP of a team that resumes with an unstow under way, and of one that is ending; masked and unmasked vectors. -/
def wStopped (ph : TeamPhase) : State :=
  let s := wQueue [wPacket [0x07, 0, 1] 0 0] 1 [{ wTeam with phase := ph }]
  s.updDie fun d => { d with stow := some (wStow .resume true none) }
theorem witness_QueueEvents_stop :
    (∀ ph ∈ [TeamPhase.resuming, .ending, .running], ((wStopped ph).die 0).stow = some (wStow .resume true none) ∧
      (wStopped ph).runningTeam 1 = some { wTeam with phase := ph }) ∧
    (wBase .c).hub.masked 3 = true ∧ ({ msixOn := true, msix := [(1, 0)] } : Hub).masked 3 = true ∧
    ({ msixOn := true, msix := [(0x38, 0)] } : Hub).masked 3 = false := by decide +kernel

theorem witness_HostEvents_registers :
    (∀ o ∈ [0x10000, 0x10008, 0x10018, 0x10040, 0x400800, 0x800000, 0x800200, 0x800208, 0x800210, 0x900000, 0x900010, 0x900018, 0x900100,
        0x900108, 0x900118, 0x800100, 0x900008, 0x900020, 0x900028, 0x1300010, 0, 0x10010, 0x900110, 0xA00008, 0x280F8, 0x917FF8, 0x10020,
        0x900120, 0x900030, 0x9005F0, 0x9005F8, 0x1300000, 0x13017F8, 0x2000700,
        0x27FF8], o + 4 < 2 ^ 26 ∧ o % 8 = 0 ∧ (o + 4) % 4 = 0) ∧
    (∀ b : Bool, let s := wHub fun h => { h with ports := [(7, { en := true, up := b })] }
      (s.port 7).up = b ∧ (0x2000000000000000 : W64).getLsbD 63 = false ∧ (0x8000000000000000 : W64).getLsbD 63 = true) ∧
    ((wHub fun h => { h with msixOn := true, msix := [(0x8000, 8)] }).hub.msixOn = true ∧
      (msixWord (wHub fun h => { h with msix := [(0x8000, 8)] }).hub (0x8000 + 8 * (3 / 64))).getLsbD (3 % 64) = true ∧
      (wHub id).hub.msixMask = false ∧ (5 : W64).getLsbD 32 = false) := by decide +kernel

theorem witness_HostEvents_reads :
    State.reset.power = .boot ∧ (wHub id).power = .running ∧ ({ State.reset with power := .off } : State).power ≠ .running ∧
    ({ State.reset with power := .off } : State).power ≠ .boot ∧ 0x3000000 ≤ (0x3000010 : BitVec 26).toNat ∧
    (0xA00008 : BitVec 26).toNat / 8 * 8 = 0xA00008 ∧ 30 ≤ 38 ∧ ¬ (39 ≤ 38) ∧
    (∃ g ∈ (wHub fun h => { h with teams := [wTeam] }).hub.teams, g.phase ≠ .preempted ∧ g.phase ≠ .preparing) ∧
    (∀ g ∈ (wHub fun h => { h with teams := [{ wTeam with phase := .preparing }] }).hub.teams, g.phase = .preempted ∨ g.phase = .preparing) := by
  decide +kernel

/-- Die 0's controller is out of reset, its word at DLA 0x10 bad or not. -/
def wEdge (l : List Nat) : State := (wHub id).setFs 0 { (wHub id).fs 0 with mcReset := false, badWords := l }
theorem witness_HostEvents_bar2_errors :
    ((wEdge [4]).fs 0).mcReset = false ∧ ((wEdge [4]).fs 0).badEdge 0x12 2 = true ∧ ((wEdge []).fs 0).badEdge 0x12 2 = false ∧
    ((wHub id).fs 0).mcReset = true ∧ (∃ c, (wEdge [4]).dlaBytes 0 0x10 8 = .error c) ∧
    (wHub id).hub.hevnow = [] ∧
    (let a := eventOf 4 0xFB 1 2 7 100; let b := eventOf 4 0xFB 1 1 7 100
     (wHub fun h => { h with hevnow := [a, b] }).hub.hevnow = [a, b] ∧ b.x0.toNat / 2 ^ 14 % 4 < a.x0.toNat / 2 ^ 14 % 4) :=
  ⟨by decide +kernel, by decide +kernel, by decide +kernel, by decide +kernel, w_err _ (by decide +kernel), rfl, by decide +kernel⟩

/-- The C stream of N0 runs its section from its loop buffer, which holds the word at 0x14 or not, with the bad parts `l`. -/
def wLoop64 (l : List BadPlace) (buf : KMap (Option W96)) : State :=
  ((wBase .c).updCtx fun c => { c with sect := some { placedSection with lbf := true }, lbuf := buf }).updDie fun d => { d with bad := l }
theorem witness_StepRunsTheWord_fetch :
    ((wLoop64 [] []).curCtx.lbPlace 0x14 = some 0 ∧ (wLoop64 [] []).curCtx.lbWord 0x14 = none ∧ (wLoop64 [] []).curDie.bad = [] ∧
      (wLoop64 [] [(0, some 7)]).curCtx.lbWord 0x14 = some (0, 7) ∧ (wLoop64 [] [(0, some 7)]).curCtx.lbPlace 0x1A = some 1 ∧
      (wBase .c).curCtx.lbPlace 0x14 = none ∧ (wBase .c).curCtx.lbWord 0x14 = none) ∧
    ((wLoop64 [.lbuf 0 .c 1] [(0, some 7)]).curDie.fetch 0 .c 0x14).2.2 = [1] ∧
    ((wLoop64 [.plane 0 0x19] []).curDie.fetch 0 .c 0x14).2.1 = true ∧ ((wLoop64 [] []).curDie.fetch 0 .c 0x14).2.1 = false ∧
    ((((wHissue (encode (.stow (.reg 1)))).die 0).sta 0).ctxOf .c).lbPlace 0x14 = none ∧ (wBase .c).cfg = [] := by decide +kernel

theorem witness_EncodeDecode :
    Instr.wf .x (.vfma .rne 0 4 1 (.r 2) 3) = true ∧ Instr.wf .c (.turn true true (some (.reg 5)) 1 3) = true ∧ (15 : BitVec 4) ≠ 8 := by
  decide +kernel

theorem witness_StepKeepsMemoryCanonical :
    State.reset.memoriesCanonical ∧ ∃ t, step State.reset = .next t := ⟨⟨rfl, rfl⟩, ⟨_, rfl⟩⟩

/-- A store whose first row stands in the current cycle, of a register with the bad words `l`. -/
def wStoring (l : List BadPlace) : Die :=
  { (wJobs [] [{ wStoreJob with issued := 10, got := [] }]).die 0 with bad := l }
theorem witness_BankPortAccess_stores :
    ((wStoring []).sta 3).stores = [{ wStoreJob with issued := 10, got := [] }] ∧ 10 + 0 = (wStoring []).dcyc ∧ 0 < wStoreJob.nr ∧
    ((wStoring []).storeRow 3 wStoreJob 0).2 = [] ∧
    ((wStoring [.vreg 3 (64 * (16 * 3 + 0 + 0) + 5)]).storeRow 3 wStoreJob 0).2 = [5] ∧ (wPortBuf.die 0).bad = [] ∧
    ((wPort [wAst, wAld]).die 0).bad = [] := by decide +kernel

/-- RDVT has shown N3 of die 0 a phase of rp5 in cycle 80; rp5 has released a write of station 4, newest, and one of N3 itself, before it. -/
def wOld (from_ : Nat) (pos : Pos) (pts : List Nat) (row : Row) : OldRow :=
  { at_ := memKey 1 0x5000, row := row, from_ := from_, die := 0, pos := pos, seq := 7, haul := true, pts := pts, shut := [] }
def wOlder : State :=
  { (wFlight (wHere .read)).updDie fun d => { d with tested := [{ pos := 3, strm := .l, pt := 5, at_ := 80 }] } with
    olds := [wOld 95 4 [5] 9, wOld 92 3 [5] 8, wOld 90 4 [6] 7] }
theorem witness_FarAccessesPerformed_older :
    (wOlder.oldRows 0 (wHere .read) (memKey 1 0x5000)).map (·.row) = [9, 8] ∧ ((wHome (wHere .read) 99).fs 1).host = [] ∧
    ((wMarks2 82).fs 1).host = [] ∧ (∀ o ∈ wOlder.olds, 0 < o.from_) ∧ (wHere .read).op = .read ∧ (wHere .read).src ≠ .walk ∧
    wOlder.leavesOut 0 (wHere .read) (wOld 90 4 [6] 7) = false ∧ (wHere (.write 6)).op = .write 6 ∧
    ((wOlder.die 0).sta (wHere .read).pos).fences = [] ∧
    (wOlder.olds.filter (fun o => o.at_ == memKey 1 0x5000))[1]? = some (wOld 92 3 [5] 8) := by decide +kernel

/-- A promotion of token 1 of cell (5, 5) waits, its BS rewritten to `v` or not. -/
def wPromo (scale : Nat) (v : BitVec 48) (w : Bool) : Die :=
  let bs : BitVec 96 := v ++ (7 : BitVec 48)
  let bc : BitVec 64 := (0x7FC00000 : W32) ++ (0 : W32)
  { (wBase .c).curDie with
    cells := [(cellKey 5 5, { bs := bs, bc := bc, pgv := true })],
    promos := [{ cell := cellKey 5 5, token := 1, scale := scale, bc := 0, wrote := w }] }
theorem witness_HandlerWords_promotions : ∀ n v w, kwf ({} : Cell) (wPromo n v w).cells = true ∧
    (wPromo n v w).promos = [{ cell := cellKey 5 5, token := 1, scale := n, bc := 0, wrote := w }] ∧ 1 < 2 ∧ (wBase .c).curDie.promos = [] := by
  intro n v w
  exact ⟨by simp [wPromo, kwf], rfl, by decide, rfl⟩
theorem witness_HandlerWords_promotions_again :
    (let x : Cell := kget {} (cellKey 5 5) (wPromo 127 9 false).cells
     (false = true ∨ (fld x.bs (48 * 1) 48 : BitVec 48).toInt ≠ 0) ∧ fld x.bc (32 * 1) 32 = 0x7FC00000) ∧
    (let x : Cell := kget {} (cellKey 5 5) (wPromo 127 0 false).cells
     ¬(false = true ∨ (fld x.bs (48 * 1) 48 : BitVec 48).toInt ≠ 0)) ∧
    cellKey 1023 1023 < 2 ^ 20 ∧ 17 + 1 < 32 := by decide +kernel

/-- The stow of a pre-empted die has ended before its far work, on a share in the page or with no memory behind it. -/
def wUnsettled (reset : Bool) : State :=
  let s := (wShare []).updDie fun d => { d with cond := .frozen }
  { s.setFs 1 { s.fs 1 with mcReset := reset } with
    hub := { teams := [{ wTeam with phase := .preempting, stowed := [0], unsettled := [0] }] } }
theorem witness_StowAndReportEvents_unsettled :
    (∀ b, (wUnsettled b).teamOf 0 = some { wTeam with phase := .preempting, stowed := [0], unsettled := [0] } ∧
      ((wUnsettled b).die 0).stow = none ∧ ((wUnsettled b).die 0).cond = .frozen ∧ ((wUnsettled b).fs 0).anyFar = false) ∧
    (let r := (wUnsettled false).restow 0 ((wUnsettled false).die 0).dmap 0x10000 (bodyLen ((wUnsettled false).die 0).dmap / 256) 0
     r.2 = true ∧ (r.1.die 0).stow = none) ∧
    (let r := (wUnsettled true).restow 0 ((wUnsettled true).die 0).dmap 0x10000 (bodyLen ((wUnsettled true).die 0).dmap / 256) 0
     r.2 = false ∧ (r.1.die 0).stow = none) := by
  refine ⟨by decide +kernel, w_restow _ _ _ _ _ ⟨rfl, rfl, rfl, rfl, rfl⟩ (by decide +kernel), ?_⟩
  have hx : (wUnsettled true).granule 0 (0x10000 + 256 + 0) .read = .bad cNotReady := by rfl
  obtain ⟨n, hn⟩ : ∃ n, bodyLen ((wUnsettled true).die 0).dmap / 256 = n + 1 :=
    Nat.exists_eq_succ_of_ne_zero (by decide +kernel)
  rw [hn]
  simp only [State.restow, hx]
  exact ⟨trivial, rfl⟩

/-- A team that is being pre-empted or brought back, one of whose dies has reported `l`. -/
def wCamp (ph : TeamPhase) (who : StowFor) (l : List (Byte × Pos)) : State :=
  { (wReport l 100).updDie fun d => { d with stow := some (wStow who false none) } with hub := { teams := [{ wTeam with phase := ph }] } }
theorem witness_StowAndReportEvents_camp :
    ∀ e ∈ [(TeamPhase.preempting, StowFor.preempt), (.resuming, .resume), (.resuming, .fault), (.running, .fault)],
      (wCamp e.1 e.2 [(0x31, 2)]).teamOf 0 = some { wTeam with phase := e.1 } ∧ (wCamp e.1 e.2 [(0x31, 2)]).hub.dbgctl = false ∧
      ((wCamp e.1 e.2 [(0x31, 2)]).die 0).reports = [(0x31, 2)] ∧
      ((wCamp e.1 e.2 [(0x31, 2)]).die 0).stow = some (wStow e.2 false none) := by decide +kernel

/-- A LAUNCH waits for die 0, whose team it has pre-empted; a copy from a device VA whose granule another request waits for. -/
def wClaims : State := wQueue [{ wUrgent with freed := [0] }] 1 []
def wCopies : State :=
  let s := wHome (wHere .read) 99
  { s.setFs 0 { s.fs 0 with tlb := [{ level := 0, vpn := 0, entry := 0xAF }] } with
    hub := (wQueue [wPacket [0x06, 0, 0x8000000000005000, 0x8000, 0x100] 0 0] 1 []).hub }
theorem witness_QueueEvents_claims :
    wClaims.claimed 0 = true ∧ wClaims.claimed 1 = false ∧ wClaims.dieOpen [] 0 = false ∧ wClaims.dieOpen [0] 0 = true ∧
    wClaims.dieFree 0 = true ∧ wCopies.copyHeld 0x8000000000005000 0 .read = true ∧ wCopies.copyHeld 0x8000 0 (.write 0) = false ∧
    wCopies.copyDie = some 0 ∧ wCopies.chansFree 1 0x5000 256 = false ∧
    (wCopies.queue (3 : Fin 32).val).cur = [wPacket [0x06, 0, 0x8000000000005000, 0x8000, 0x100] 0 0] ∧
    (wStopped .preempting).runningTeam 1 = some { wTeam with phase := .preempting } := by decide +kernel

/-- A team whose planes have been sent back, with the soft errors `l` in shadow planes of its die, and its dies stowed or not. -/
def wBackPlanes (at_ : Nat) (stowed : List DieId) (l : List BadPlace) : State :=
  wTeamed { wTeam with phase := .resuming, planeAt := at_, stowed := stowed } fun d => { d with bad := l }
theorem witness_LaunchAndTeamEvents_resumes :
    (∀ l ∈ [[], [BadPlace.shadow 5 9]], ∀ n ∈ [(112 : Nat), 113, 0], let g := { wTeam with phase := .resuming, planeAt := n, stowed := [0] }
      (wBackPlanes n [0] l).hub.teams = [g] ∧ ((wBackPlanes n [0] l).die 0).restoreAt = none ∧ (wBackPlanes n [0] l).sidc = 112) ∧
    (let g := { wTeam with phase := .resuming, planeAt := 112 }
     ((wBackPlanes 112 [] []).sendPlanes g).firstBadPlane g.recs g.dies = none ∧
      ((wBackPlanes 112 [] [.shadow 5 9]).sendPlanes g).firstBadPlane g.recs g.dies = some (0, 5)) ∧
    ((wBackPlanes 0 [] []).die 0).stow = none ∧
    ((∀ n ∈ [(1 : BitVec 16)], n = wTeam.num) ∧ (∃ n ∈ [(1 : BitVec 16), 2], n ≠ wTeam.num) ∧
      ({ lanelimNext := some 5, lanelimTeams := [1, 2] } : Hub).lanelimNext = some 5) := by
  exact ⟨by decide +kernel, by decide +kernel, by decide +kernel,
    ⟨fun _ h => List.mem_singleton.1 h, ⟨2, by simp, by decide⟩, rfl⟩⟩

/-- A BAR2 access of 8 bytes waits at die 1 for a request there, or for none; its granule has had its access of cycle `at_`. -/
def wAccess (seen : List (DieId × Nat)) : HostAcc := { e := 2 ^ 36 + 0x5000, size := 8, data := none, seen := seen }
def wBar2 (seen : List (DieId × Nat)) (at_ : Nat) : State :=
  let s := wHome (wHere .read) at_
  s.setFs 1 { s.fs 1 with host := [wAccess seen] }
theorem witness_HostEvents_bar2_waits :
    ((wEdge []).power = .running ∧ ((wEdge []).fs 0).host = [] ∧ (wEdge []).chansFree 0 (0x10 % 2 ^ 36) 8 = true) ∧
    ((wFlight (wReq .read)).power = .running ∧ ((wFlight (wReq .read)).fs 1).host = [] ∧
      (wFlight (wReq .read)).chansFree 1 0x10 8 = true) ∧
    ((wHome (wHere .read) 99).chansFree 1 0x5000 8 = false ∧ ((wBar2 [] 99).fs 1).host = wAccess [] :: []) ∧
    (∃ e ∈ (wBar2 [(0, 4)] 99).hereReqs 1, (e.1, e.2.seq) ∈ (wAccess [(0, 4)]).seen ∧ e.2.isSc = false) ∧
    (∃ g ∈ granules ((wAccess []).e % 2 ^ 36) (wAccess []).size, ((wBar2 [] 100).fs 1).isTouched (wBar2 [] 100).sidc g = true) ∧
    (∀ g ∈ granules ((wAccess []).e % 2 ^ 36) (wAccess []).size, ((wBar2 [] 99).fs 1).isTouched (wBar2 [] 99).sidc g = false) ∧
    (∀ e ∈ (wBar2 [] 99).hereReqs 1, (e.1, e.2.seq) ∉ (wAccess []).seen) := by
  refine ⟨by decide +kernel, by decide +kernel, by decide +kernel, ⟨_, List.mem_cons_self .., ?_⟩, by decide +kernel, by decide +kernel,
    fun _ _ h => (by cases h)⟩
  decide +kernel

theorem witness_BootAndAttestation_measurements :
    (1, digestBytes Config.romDigest) ∈ (wBase .c).measurements ∧ ([0x12, 0xE0, 0, 1] : List Byte).getD 3 0 = 1 ∧
    (wBase .c).power = .running := ⟨List.mem_cons_self .., rfl, rfl⟩

theorem witness_StepRunsTheWord_first : wDeps.first = (0x14 : Parcel).toNat ∧ wDeps.first ≠ (0x1A : Parcel).toNat := by decide

-- ## Single steps and worked examples; the expected values are worked out by hand from the rules, or are the spec's own

/-- The register writes that a word has left at N0 of die 0, with their landing cycles; the word issues in cycle 10. -/
def wrote (o : Host.Outcome State Fault Refusal) : List (Nat × WTarget) :=
  match o with
  | .next t => t.curSta.writes.map fun w => (w.land, w.target)
  | _ => []

/-- The causes that a word has raised, by their codes. -/
def raised (o : Host.Outcome State Fault Refusal) : List Byte :=
  match o with
  | .next t => t.curDie.causes.map fun c => causeCode c.cause
  | _ => []

/-- R226: the sum is taken modulo 2^64 and lands two cycles later. -/
theorem test_add_wraps : wrote (exec (.add 3 (.reg 1) (.i 2)) (wAnyS (2 ^ 64 - 1))) = [(12, .s 3 1)] := by decide +kernel

/-- R126, R128: a write to s0 is discarded, in its landing cycle. -/
theorem test_sub_into_s0 : wrote (exec (.sub 0 (.reg 1) (.i 2)) (wAnyS 1)) = [(12, .s 0 (-1))] := by decide +kernel

/-- R226: the high half of −2^63 · −1 = 2^63 is 0, and of 2^63 · (2^64 − 1) is 2^63 − 1. -/
theorem test_mulh_signed : wrote (exec (.mulh false 3 (.reg 1) (.i (-1))) (wAnyS (2 ^ 63))) = [(14, .s 3 0)] := by decide +kernel
theorem test_mulh_unsigned :
    wrote (exec (.mulh true 3 (.reg 1) (.i (-1))) (wAnyS (2 ^ 63))) = [(14, .s 3 0x7FFFFFFFFFFFFFFF)] := by decide +kernel

/-- R227: −2^63 / −1 wraps; a zero divisor gives all ones and the dividend; the result lands 34 cycles later. -/
theorem test_div_wraps : wrote (exec (.div false 3 (.reg 1) (.i (-1))) (wAnyS (2 ^ 63))) = [(44, .s 3 (2 ^ 63))] := by decide +kernel
theorem test_rem_by_zero : wrote (exec (.rem false 3 (.reg 1) (.i 0)) (wAnyS 7)) = [(44, .s 3 7)] := by decide +kernel
theorem test_rem_sign : wrote (exec (.rem false 3 (.reg 1) (.i 2)) (wAnyS (-7))) = [(44, .s 3 (-1))] := by decide +kernel

/-- R226: shifts by b mod 64. -/
theorem test_sra_sign : wrote (exec (.sra 3 (.reg 1) (.i 63)) (wAnyS (2 ^ 63))) = [(12, .s 3 (-1))] := by decide +kernel
theorem test_shl_mod : wrote (exec (.shl 3 (.reg 1) (.i 65)) (wAnyS 3)) = [(12, .s 3 6)] := by decide +kernel
theorem test_rol : wrote (exec (.rol 3 (.reg 1) (.i 4)) (wAnyS 0xF000000000000001)) = [(12, .s 3 0x1F)] := by decide +kernel

/-- R229: a field that ends at bit 63, sign-extended. -/
theorem test_bext_sign : wrote (exec (.bext true 3 (.reg 1) 7 60) (wAnyS (2 ^ 63))) = [(12, .s 3 (-8))] := by decide +kernel
theorem test_movhi : wrote (exec (.movhi 1 0xABCD) (wAnyS 0x123456789ABC)) = [(12, .s 1 0xABCD123456789ABC)] := by decide +kernel
theorem test_clz_zero : wrote (exec (.clz 3 (.reg 0)) (wAnyS 0)) = [(12, .s 3 64)] := by decide +kernel
theorem test_min_unsigned : wrote (exec (.min true 3 (.reg 1) (.i 5)) (wAnyS (-1))) = [(12, .s 3 5)] := by decide +kernel

/-- R56, R231: an unsigned comparison, and q0 discards where the write lands (R128). -/
theorem test_cmp_unsigned : wrote (exec (.cmp .ltu 2 (.reg 1) (.i 5)) (wAnyS (-1))) = [(12, .q .c 2 false)] := by decide +kernel
theorem test_cmp_q0 : wrote (exec (.cmp .eq 0 (.reg 1) (.i 5)) (wAnyS 5)) = [(12, .q .c 0 true)] := by decide +kernel

/-- R68, R228: 1 + 2^−24 is a tie and goes to the even 1.0, four cycles later. -/
theorem test_fadd_tie : wrote (exec (.fadd .rne 3 (.reg 1) (.i 0x33800000)) (wAnyS 0x3F800000)) = [(14, .s 3 0x3F800000)] := by
  decide +kernel

/-- The narrowing of 470 to E4M3: NaN without saturation, the largest finite with it (R69, spec file 07). -/
theorem test_cvt_e4m3 : (cvt .f32 .e4m3 .rne false 0 0x43EB0000).1 = 0x7F ∧ (cvt .f32 .e4m3 .rne true 0 0x43EB0000).1 = 0x7E := by
  decide +kernel

/-- R252: TRAP 7 raises 0xF7. R230: a pad address beyond 8 KiB raises BANK_RANGE. R53: RET with no call raises CALL_DEPTH. -/
theorem test_trap : raised (exec (.trap 7) (wBase .c)) = [0xF7] := by decide +kernel
theorem test_pad_range : raised (exec (.sst (.reg 0) (.reg 0) 8192) (wBase .c)) = [causeCode .bankRange] := by decide +kernel

/-- R100: a push near the end of a granule names the words to its end only. -/
theorem test_fqpush_end :
    (match exec (.fqpush 2 (.reg 1) 3 15 0) (wFq [] 0) with
      | .next t => (t.fs 0).reqs.map fun r => (r.va, r.lo, r.hi, r.row)
      | _ => []) = [(0x10000, 63, 63, 3)] := by decide +kernel

/-- R141: a pointer with a bit below 8 set raises EDGE_RANGE. -/
theorem test_edgeset : raised (exec (.edgeset 1 (.reg 0) 0x380) (wBase .l)) = [causeCode .edgeRange] ∧
    wrote (exec (.edgeset 1 (.reg 0) 0x300) (wBase .l)) = [(12, .e 1 0x300)] := by decide +kernel

/-- R220: CAS replaces only an equal word; a maximum is signed. -/
theorem test_amo : amoNew .cas 5 9 5 = 9 ∧ amoNew .cas 5 9 4 = 5 ∧ amoNew .maxI 0xFFFFFFFF 1 0 = 1 ∧ amoNew .maxN 0xFFFFFFFF 1 0 = 0xFFFFFFFF := by
  decide +kernel

/-- The block of spec file 04 (R76): 3.0, −0.7, 0.01 and −3.999 in the three formats. -/
def exampleBlock : List W32 := [0x40400000, 0xBF333333, 0x3C23D70A, 0xC07FEF9E] ++ List.replicate 28 0
def noNoise : List Nat := List.replicate 32 0
theorem test_quantize : (qntBlock 6 .rne noNoise exampleBlock).1 = 0x80 ∧ (qntBlock 6 .rne noNoise exampleBlock).2.1.take 5 = [96, -22, 0, -127, 0] ∧
    (qntBlock 4 .rne noNoise exampleBlock).2.1.take 4 = [24, -6, 0, -31] ∧ (qntBlock 2 .rne noNoise exampleBlock).2.1.take 4 = [6, -1, 0, -7] := by
  decide +kernel

/-- R77: −0.6875 and −3.96875; and the one inexact case, which overflows. -/
theorem test_dequantize : (dqnt 0x80 (-22) 6).1 = 0xBF300000 ∧ (dqnt 0x80 (-127) 6).1 = 0xC07E0000 ∧
    dqnt 0xFE (-128) 6 = (0xFF800000, { ov := true, nx := true }) := by decide +kernel

/-- The accumulator of spec file 10 (R182, R184): −0.5 with E = 0, normalized to E = −63, and read as FP32. -/
theorem test_acnorm : ({ m := -1, e := 0, gw := 0x800 } : Acc).norm = { m := 0xC000000000000000, e := -63, gw := 0 } ∧
    (({ m := -1, e := 0, gw := 0x800 } : Acc).read false .rne 0).1 = 0xBF000000 := by decide +kernel

/-- The pairs of spec file 11 (R205): (2, 3) with (2, 5), and (−∞, +0) with (1.5, 2). -/
theorem test_lse : lseComb (0x40000000, 0x40400000) (0x40000000, 0x40A00000) = (0x40000000, 0x41000000) ∧
    lseComb (0xFF800000, 0) (0x3FC00000, 0x40000000) = (0x3FC00000, 0x40000000) := by decide +kernel

/-- The region entries of spec file 05 (R86): four dies, and dies 0, 2 and 3. -/
def exampleRegion (mask n : W64) : Region :=
  { w0 := (1 <<< 63) ||| (mask <<< 56) ||| ((n - 1) <<< 54) ||| (12 <<< 49) ||| 0x400000000, w1 := 0x4FFFF0000, w2 := 0x20000000 }
theorem test_region : spreadTo [(0, exampleRegion 15 4)] 0x400107890 = .ok (3, 0x20041890) ∧
    spreadTo [(0, exampleRegion 13 3)] 0x400016010 = .ok (2, 0x20007010) ∧
    spreadTo [(0, exampleRegion 13 3)] 0x400017FFC = .ok (3, 0x20007FFC) := ⟨rfl, rfl, rfl⟩

/-- R14: a cycle of the running module advances SIDC by one; a word placed where step fetches runs (DESIGN CHOICE, log 31). -/
theorem test_step_runs_the_placed_word :
    wrote (step (State.reset.withFetchWord 96 (encode (.movi 5 7)).toNat)) = [(2, .s 5 7)] := by decide +kernel
end

-- ## ALIGN (R23, R241)

namespace Sys2Proof.Machine

/-- What ALIGN does, by the time that it names. -/
theorem exec_align (s : State) (late : Bool) (w : Wide) : exec (.align late w) s =
    if s.focus.handler then raise s .wrongStream
    else if s.sidc ≤ s.alignTime w then .next (s.updDie fun d => { d with notBefore := max d.notBefore (s.alignTime w + 1) })
    else if late then .next s
    else raise s .alignOverrun := rfl

end Sys2Proof.Machine

section
open Sys2Proof Sys2Proof.Machine

/-- Settles O11: by the three cases of ALIGN's time. -/
theorem alignWord : Obligations.AlignWord := by
  unfold Obligations.AlignWord
  refine ⟨fun s late w h => ?_, fun s late w T h hT => ?_⟩
  · simp only [Raises, exec_align, h, if_true]
    exact raise_trapped s .wrongStream
  · have hw : s.alignTime w = T := by cases w <;> exact hT.symm
    simp only [exec_align, h, hw, Bool.false_eq_true, if_false, NoEffect, Raises]
    refine ⟨fun hle => ?_, fun hlt => ?_⟩
    · rw [if_pos hle]
      exact ⟨_, rfl, by simp, by simp⟩
    · simp only [if_neg (Nat.not_le.2 hlt)]
      exact ⟨rfl, raise_trapped s .alignOverrun⟩
end

-- ## Boot, reset and attestation (R14, R316, R317)

namespace Sys2Proof.Machine

/-- BOOT_GO while a verification runs: it ends in its cycle. -/
theorem exec_bootGo_verifying {s : State} {t : Nat} (v : W64) (h : s.power = .boot) (hb : s.hub.bootAt = some t) :
    exec (.bootGo v) s = .next (if t ≤ s.sidc then s.bootEnd else s) := by
  simp only [exec, execBootGo, h, hb]

/-- BOOT_GO while none runs. -/
theorem exec_bootGo_idle {s : State} (v : W64) (h : s.power = .boot) (hb : s.hub.bootAt = none) :
    exec (.bootGo v) s = .next (s.bootStart v) := by
  simp only [exec, execBootGo, h, hb]

/-- BOOT_GO acts in boot state alone. -/
theorem exec_bootGo_other (s : State) (v : W64) (h : s.power ≠ .boot) : exec (.bootGo v) s = .next s := by
  simp only [exec, execBootGo]

/-- BOOTST for an image whose parts are known. -/
theorem bootResult_some {l body sig key : List Byte} {sec ver : Nat}
    (h : Config.parseFirmware l = some (body, sig, key, sec, ver)) : bootResult l =
      (if Config.sha256 key ≠ Config.vendorDigest then 0x11 else if !Config.rsaVerify body sig key then 0x12
        else if sec < Config.fusedMin then 0x13 else 0x01, ver, sec, Config.sha256 body) := by
  simp only [bootResult, h]

theorem bootResult_none {l : List Byte} (h : Config.parseFirmware l = none) : bootResult l = (0x10, 0, 0, 0) := by
  simp only [bootResult, h]

/-- An image that the ROM rejects leaves its reason and nothing else. -/
theorem bootEnd_rejected {s : State} {c : Byte} {r : Nat × Nat × BitVec 256} (h : bootResult s.hub.staged = (c, r)) (hc : c ≠ 1) :
    s.bootEnd = { s with hub := { s.hub with bootAt := none, bootst := c } } := by
  simp only [State.bootEnd, h, if_pos hc]

/-- An image that it accepts runs. -/
theorem bootEnd_accepted {s : State} {ver sec : Nat} {g : BitVec 256} (h : bootResult s.hub.staged = (1, ver, sec, g)) :
    s.bootEnd = ({ s with
      power := .running,
      hub := { s.hub with
        bootAt := none, bootst := 1, staging := [], capbase := 0x100, fwVersion := BitVec.ofNat 64 ver,
        fwSecurity := BitVec.ofNat 64 sec, fwDigest := g,
        caps := layCaps 0x100 (capsInOrder (capList (BitVec.ofNat 64 ver) (BitVec.ofNat 64 sec) s.ctr)) [] } } : State).bump := by
  simp only [State.bootEnd, h, ne_eq, not_true, if_false]

/-- The end of a verification clears its time and leaves the dies and far memory alone, whatever the image. -/
theorem bootEnd_frame (s : State) : s.bootEnd.hub.bootAt = none ∧ s.bootEnd.dies = s.dies ∧ s.bootEnd.mem = s.mem := by
  unfold State.bootEnd
  dsimp only
  split <;> exact ⟨rfl, rfl, rfl⟩

/-- Putting a capability into the list permutes it. -/
theorem insertCap_perm (c : Capability) : ∀ l : List Capability, (insertCap c l).Perm (c :: l)
  | [] => .refl _
  | d :: t => by
    simp only [insertCap]
    split
    · exact .refl _
    · exact ((insertCap_perm c t).cons d).trans (.swap c d t)

theorem capsInOrder_perm : ∀ l : List Capability, (capsInOrder l).Perm l
  | [] => .refl _
  | c :: t => (insertCap_perm c (capsInOrder t)).trans ((capsInOrder_perm t).cons c)

/-- The running firmware's answer changes the connection's progress and the response alone. -/
theorem answers_running (s : State) (k : Nat) (l : List Byte) (h : s.power = .running) :
    s.answers k l = { s with hub := { s.hub with spdm := k, doe := l } } := by
  simp only [State.answers, h]

theorem answers_stopped (s : State) (k : Nat) (l : List Byte) (h : s.power ≠ .running) : s.answers k l = s := by
  cases hp : s.power with
  | running => exact absurd hp h
  | off | inReset | boot => simp only [State.answers, hp]

/-- The response to an SPDM request: the progress that it names, and the answer (R317). -/
def spdmReply (s : State) : Instr → Nat × List Byte
  | .getVersion req => (1, spdmVersion (Config.spdmAnswer 1 req))
  | .getCapabilities req => (max s.hub.spdm 2, Config.spdmAnswer (max s.hub.spdm 2) req)
  | .negotiateAlgorithms req => (max s.hub.spdm 3, spdmAlgorithms req (Config.spdmAnswer 3 req))
  | .getDigests req => (max s.hub.spdm 4, Config.spdmAnswer (max s.hub.spdm 4) req)
  | .getCertificate req => (max s.hub.spdm 5, Config.spdmAnswer (max s.hub.spdm 5) req)
  | .challenge req => (max s.hub.spdm 6, Config.spdmAnswer (max s.hub.spdm 6) req)
  | .getMeasurements req => (max s.hub.spdm 7, s.spdmMeasured req (Config.spdmAnswer 7 req))
  | .spdmUnsupportedRequest req => (s.hub.spdm, spdmError req)
  | _ => (s.hub.spdm, s.hub.doe)

/-- The MEASUREMENTS response for one measurement of the firmware, by its index (R317). -/
theorem spdmMeasured_one (s : State) (req free v : List Byte) (n : Byte) (h : (n, v) ∈ s.measurements) (hr : req.getD 3 0 = n) :
    ∃ b c tail, s.spdmMeasured req free = [0x12, 0x60, 0, b, 1] ++ leBytes (BitVec.ofNat 24 (v.length + 7)) 3 ++ [n, 1] ++
      leBytes (BitVec.ofNat 16 (v.length + 3)) 2 ++ [c] ++ leBytes (BitVec.ofNat 16 v.length) 2 ++ v ++ tail := by
  have hone : n ≠ 0 ∧ n ≠ 0xFF ∧ s.measurements.filter (·.1 == n) = [(n, v)] := by
    simp only [State.measurements, List.mem_cons, Prod.mk.injEq, List.not_mem_nil, or_false] at h
    obtain ⟨rfl, rfl⟩ | ⟨rfl, rfl⟩ | ⟨rfl, rfl⟩ | ⟨rfl, rfl⟩ | ⟨rfl, rfl⟩ := h <;> exact ⟨by decide, by decide, rfl⟩
  obtain ⟨h0, hF, hf⟩ := hone
  have hlen : (spdmBlock free (n, v)).length = v.length + 7 := by
    simp only [spdmBlock, len2, leBytes, List.length_append, List.length_map, List.length_range, List.length_cons, List.length_nil]
    omega
  refine ⟨free.getD 0 0, free.getD n.toNat 0, ?_⟩
  simp only [State.spdmMeasured, hr, if_neg h0, if_neg hF, hf, List.cons_ne_nil, and_false, if_false, List.flatMap_cons,
    List.flatMap_nil, List.append_nil, hlen, List.length_singleton]
  simp only [spdmBlock, len2, List.append_assoc, List.cons_append, List.nil_append]
  exact ⟨_, rfl⟩

end Sys2Proof.Machine

section
open Sys2Proof Sys2Proof.Machine

/-- The clauses of O55 about the SPDM requests. -/
theorem spdm_requests (s : State) (req : List Byte) (i : Instr) (k : Nat)
    (hi : (i, k) ∈ [(.getVersion req, 1), (.getCapabilities req, max s.hub.spdm 2), (.negotiateAlgorithms req, max s.hub.spdm 3),
      (.getDigests req, max s.hub.spdm 4), (.getCertificate req, max s.hub.spdm 5), (.challenge req, max s.hub.spdm 6),
      (.getMeasurements req, max s.hub.spdm 7), (.spdmUnsupportedRequest req, s.hub.spdm)]) :
    exec i s = .next (s.answers (spdmReply s i).1 (spdmReply s i).2) ∧ (spdmReply s i).1 = k ∧
    (i = .spdmUnsupportedRequest req ∨ i = .getMeasurements req ∨ i = .negotiateAlgorithms req ∨ i = .getVersion req ∨
      (spdmReply s i).2 = Config.spdmAnswer k req) := by
  simp only [List.mem_cons, Prod.mk.injEq, List.not_mem_nil, or_false] at hi
  obtain ⟨rfl, rfl⟩ | ⟨rfl, rfl⟩ | ⟨rfl, rfl⟩ | ⟨rfl, rfl⟩ | ⟨rfl, rfl⟩ | ⟨rfl, rfl⟩ | ⟨rfl, rfl⟩ | ⟨rfl, rfl⟩ := hi <;>
    exact ⟨rfl, rfl, by simp [spdmReply]⟩

/-- Settles O55: each clause by the equations of boot, reset and the SPDM answers. -/
theorem bootAndAttestation : Obligations.BootAndAttestation := by
  unfold Obligations.BootAndAttestation
  refine ⟨fun s v => ⟨fun h => exec_bootGo_other s v h, fun hp hb hv => ?_, fun hp hb hv => ?_, fun n hp hb hn => ?_,
    fun n hp hb hn => ?_⟩, capsInOrder_perm, fun s => ⟨?_, ?_, ?_, ?_, ?_⟩, fun s req i k hi => ?_, fun s => rfl⟩
  · rw [exec_bootGo_idle v hp hb]
    simp only [State.bootStart, hv, Bool.false_eq_true, false_and, if_false]
  · rw [exec_bootGo_idle v hp hb]
    refine ⟨_, s.sidc + 1 + s.fresh, rfl, by omega, ?_⟩
    simp only [State.bootStart, hv, hb, Option.isNone_none, and_self, if_true]
    exact ⟨rfl, hp, rfl⟩
  · rw [exec_bootGo_verifying v hp hb]
    simp only [if_neg (Nat.not_le.2 hn)]
  · rw [exec_bootGo_verifying v hp hb]
    simp only [if_pos hn]
    obtain ⟨h1, h2, h3⟩ := bootEnd_frame s
    refine ⟨_, rfl, h1, h2, h3, fun hf => ?_, fun body sig key sec ver hf => ⟨fun hk => ?_, fun hk hr => ?_, fun hk hr hs => ?_,
      fun hk hr hs => ?_⟩⟩
    · rw [bootEnd_rejected (bootResult_none hf) (by decide)]
      exact ⟨hp, rfl⟩
    · rw [bootEnd_rejected ((bootResult_some hf).trans (by rw [if_pos hk])) (by decide)]
      exact ⟨hp, rfl⟩
    · rw [bootEnd_rejected ((bootResult_some hf).trans (by rw [if_neg (not_not.2 hk), if_pos (by simp [hr])])) (by decide)]
      exact ⟨hp, rfl⟩
    · rw [bootEnd_rejected ((bootResult_some hf).trans
        (by rw [if_neg (not_not.2 hk), if_neg (by simp [hr]), if_pos hs])) (by decide)]
      exact ⟨hp, rfl⟩
    · rw [bootEnd_accepted ((bootResult_some hf).trans
        (by rw [if_neg (not_not.2 hk), if_neg (by simp [hr]), if_neg (Nat.not_lt.2 hs)]))]
      exact ⟨rfl, rfl, rfl, rfl, rfl, rfl⟩
  · rintro (h | h) <;> simp only [exec, execHubResetDeassert, h]
  · rintro (h | h) <;> simp only [exec, execHubResetDeassert, h] <;> exact ⟨_, rfl, rfl, rfl, rfl, rfl, rfl⟩
  · exact ⟨_, rfl, rfl, rfl, rfl, fun _ => rfl⟩
  · intro h
    simp only [exec, execResetPinAssert, h]
  · intro h
    refine ⟨s.down .inReset s.mem, ?_, rfl, rfl, rfl, rfl⟩
    cases hp : s.power with
    | off => exact absurd hp h
    | inReset | boot | running => simp only [exec, execResetPinAssert, hp]
  · obtain ⟨he, hk, hd⟩ := spdm_requests s req i k hi
    refine ⟨fun h => by rw [he, answers_stopped s _ _ h], fun h => ?_⟩
    rw [he, answers_running s _ _ h, hk]
    refine ⟨_, rfl, rfl, ?_, ?_, fun h1 h2 h3 h4 => by simpa [h1, h2, h3, h4] using hd, ?_, ?_⟩
    · rintro rfl; rfl
    · rintro rfl; exact ⟨rfl, rfl⟩
    · rintro rfl; exact ⟨_, rfl⟩
    · rintro rfl n v hm hn
      exact spdmMeasured_one s req _ v n hm hn
end

-- ## The state after reset (R14, R306)

namespace Sys2Proof.Machine

@[simp] theorem die_reset (d : DieId) : State.reset.die d = Die.reset := by
  match d with
  | 0 | 1 | 2 | 3 => rfl

@[simp] theorem fs_reset (d : DieId) : State.reset.fs d = {} := by
  match d with
  | 0 | 1 | 2 | 3 => rfl

@[simp] theorem sta_reset (p : Pos) : Die.reset.sta p = Station.reset := Vector.getElem_replicate p.isLt

@[simp] theorem queue_reset (q : Nat) : State.reset.queue q = {} := rfl

theorem port_reset (p : Nat) : State.reset.port p = {} := rfl

theorem blockWord_reset (o : Nat) : ({} : FarSide).blockWord o = 0 := by
  simp only [FarSide.blockWord, kget]
  split_ifs with h0 h8 h16 hr <;> [rfl; rfl; rfl; (split <;> rfl); rfl]

theorem holdWord_reset (k : Nat) : ({} : HoldRec).word k = 0 := by
  unfold HoldRec.word
  split <;> rfl

theorem qstat_reset (q : Nat) : State.reset.qstat q = 0x300 := by
  have hb : State.reset.blocked q = false := rfl
  have he : State.reset.epri q = 3 := rfl
  simp only [State.qstat, hb, he, queue_reset]
  rfl

theorem parkedMask_reset : State.reset.parkedMask = 0 := by
  have hp : State.reset.parked = fun _ => false := by
    funext d
    simp [State.parked, Die.reset]
  simp only [State.parkedMask, hp]
  rfl

theorem msixWord_reset (off : Nat) : msixWord State.reset.hub off = if off < 0x8000 ∧ off % 16 = 8 then 0x100000000 else 0 := rfl

/-- The registers of BAR0 right after reset that do not read 0, by offset (R85, R212, R267, R270, R278, R308, R311, R315, R316). -/
def bar0AtReset (o : Nat) : W64 :=
  if o = 0x10008 then 8 else if 0x20000 ≤ o ∧ o < 0x28000 ∧ o % 16 = 8 then 0x100000000
  else if 0x400000 ≤ o ∧ o < 0x400800 ∧ o % 0x40 = 8 then 0x30004 else if 0x400000 ≤ o ∧ o < 0x400800 ∧ o % 0x40 = 0x20 then 0x300
  else if o = 0x400800 then 0x10000 else if o = 0x800000 then 0x02580064 else if o = 0x800100 then 0x010001000020
  else if o = 0x800200 then 6 else if o = 0x800210 then 0x550 else if o = 0x900100 then 0xA else 0

theorem bar0AtReset_msix (o : Nat) (h : 0x20000 ≤ o ∧ o < 0x28100) :
    bar0AtReset o = if o < 0x28000 ∧ o % 16 = 8 then 0x100000000 else 0 := by
  unfold bar0AtReset
  rw [if_neg (by omega)]
  by_cases hc : o < 0x28000 ∧ o % 16 = 8
  · rw [if_pos ⟨h.1, hc⟩, if_pos hc]
  · rw [if_neg (by omega), if_neg hc]
    repeat rw [if_neg (by omega)]

theorem bar0AtReset_queue (o : Nat) (h : 0x400000 ≤ o ∧ o < 0x400800) :
    bar0AtReset o = if o % 0x40 = 8 then 0x30004 else if o % 0x40 = 0x20 then 0x300 else 0 := by
  unfold bar0AtReset
  rw [if_neg (by omega), if_neg (by omega)]
  by_cases h8 : o % 0x40 = 8
  · rw [if_pos ⟨h.1, h.2, h8⟩, if_pos h8]
  · rw [if_neg (by omega), if_neg h8]
    by_cases h20 : o % 0x40 = 0x20
    · rw [if_pos ⟨h.1, h.2, h20⟩, if_pos h20]
    · rw [if_neg (by omega), if_neg h20]
      repeat rw [if_neg (by omega)]

/-- From offset 0x900200 on every register reads 0. -/
theorem bar0AtReset_high (o : Nat) (h : 0x900200 ≤ o) : bar0AtReset o = 0 := by
  unfold bar0AtReset
  repeat rw [if_neg (by omega)]

/-- BAR0 after reset: by the ranges and the single offsets of the register map. -/
theorem bar0_reset (o : Nat) : State.reset.bar0 o = bar0AtReset o := by
  unfold State.bar0
  iterate 7 refine ite_eq_iff'.2 ⟨by rintro rfl; rfl, fun _ => ?_⟩
  refine ite_eq_iff'.2 ⟨fun h => ?_, fun hm => ?_⟩
  · rw [bar0AtReset_msix o h]
    rw [msixWord_reset]
    exact if_congr (by omega) rfl rfl
  refine ite_eq_iff'.2 ⟨fun h => ?_, fun hq => ?_⟩
  · rw [bar0AtReset_queue o h]
    simp only [qstat_reset, queue_reset]
    split <;> simp_all
  refine ite_eq_iff'.2 ⟨by rintro rfl; rfl, fun _ => ?_⟩
  refine ite_eq_iff'.2 ⟨fun h => ?_, fun hf => ?_⟩
  · unfold bar0AtReset
    repeat rw [if_neg (by omega)]
    rfl
  iterate 10 refine ite_eq_iff'.2 ⟨by rintro rfl; rfl, fun _ => ?_⟩
  refine ite_eq_iff'.2 ⟨?_, fun _ => ?_⟩
  · rintro rfl
    simp only [parkedMask_reset]
    rfl
  iterate 5 refine ite_eq_iff'.2 ⟨by rintro rfl; rfl, fun _ => ?_⟩
  refine ite_eq_iff'.2 ⟨fun h => ?_, fun _ => ?_⟩
  · dsimp only
    rw [bar0AtReset_high o h.1, die_reset]
    exact ite_self 0
  refine ite_eq_iff'.2 ⟨fun h => ?_, fun _ => ?_⟩
  · dsimp only
    rw [bar0AtReset_high o (by omega), die_reset, sta_reset]
    simp only [Station.reset, holdWord_reset, ite_self]
  refine ite_eq_iff'.2 ⟨by rintro rfl; rfl, fun _ => ?_⟩
  refine ite_eq_iff'.2 ⟨fun h => ?_, fun _ => ?_⟩
  · rw [bar0AtReset_high o (by omega), fs_reset, blockWord_reset]
  refine ite_eq_iff'.2 ⟨fun h => ?_, fun _ => ?_⟩
  · dsimp only
    rw [bar0AtReset_high o (by omega), port_reset]
    rfl
  · unfold bar0AtReset
    repeat rw [if_neg (by omega)]
    rfl

end Sys2Proof.Machine


section
open Sys2Proof Sys2Proof.Machine

/-- Settles O59: the fields of the reset state, and BAR0 by `bar0_reset`. -/
theorem resetState : Obligations.ResetState := by
  unfold Obligations.ResetState
  refine ⟨rfl, rfl, rfl, ⟨rfl, rfl⟩, rfl, rfl, rfl, rfl, rfl, rfl, rfl, rfl, rfl, rfl, fun q => ?_, bar0_reset, rfl, rfl, fun d => ?_⟩
  · rw [queue_reset]
    exact ⟨rfl, rfl, rfl, rfl, rfl⟩
  · rw [die_reset]
    exact ⟨rfl, rfl, rfl, rfl, rfl, rfl, rfl⟩
end

-- ## The control registers (R17, R49, R133, R164, R251)

namespace Sys2Proof.Machine

/-- What CSR `n` reads on die `d` at position `p`, from the die and the station that hold it. -/
def csrOf (sidc : Nat) (link : Nat → Link) (d : DieId) (p : Pos) (x : Die) (y : Station) (n : Nat) : W64 :=
  if n = 0x000 then BitVec.ofNat 64 sidc else if n = 0x001 then BitVec.ofNat 64 x.dcyc
  else if n = 0x002 then BitVec.ofNat 64 d.val else if n = 0x003 then BitVec.ofNat 64 p.val
  else if n = 0x004 then x.team.setWidth 64 else if n = 0x008 then BitVec.ofNat 64 (x.holdcnt % 2 ^ 32)
  else if n = 0x009 then x.holdmax.setWidth 64 else if n = 0x020 then rotdWord y.rotd
  else if n = 0x021 then y.fpctl else if n = 0x022 then noiseWord y.noise
  else if n = 0x030 then x.atrap else if n = 0x031 then BitVec.ofNat 64 x.nancnt
  else if n = 0x032 then x.astat else if n = 0x040 then y.locreq
  else if n = 0x041 then y.remreq else if n = 0x058 then x.viotrap
  else if n = 0x060 then x.rdverr else if n = 0x070 then hstaWord x.hsta (x.cond == .handler)
  else if n = 0x071 then x.trapcause else if n = 0x072 then x.trappos
  else if 0x010 ≤ n ∧ n ≤ 0x015 then BitVec.ofNat 64 (Config.lattab (n - 0x010))
  else if 0x048 ≤ n ∧ n ≤ 0x057 then kget 0 (n - 0x048) x.violog
  else if 0x080 ≤ n ∧ n ≤ 0x083 then kget 0 (n - 0x080) y.scslot
  else if 0x090 ≤ n ∧ n ≤ 0x095 then (link (n - 0x090)).laneDir sidc
  else 0

theorem csrRead_eq (s : State) (d : DieId) (p : Pos) (n : Nat) :
    s.csrRead d p n = csrOf s.sidc s.link d p (s.die d) ((s.die d).sta p) n := by
  unfold State.csrRead csrOf
  dsimp only
  split <;> simp_all

/-- A number outside the index reads 0. -/
theorem csrRead_unlisted (s : State) (d : DieId) (p : Pos) (n : Nat) (h : ¬csrListed n) : s.csrRead d p n = 0 := by
  unfold csrListed at h
  rw [csrRead_eq, csrOf]
  repeat rw [if_neg (by omega)]

/-- A number that a CSRW does not reach. -/
theorem csrWrite_unwritten (s : State) (d : DieId) (p : Pos) (n : Nat) (v : W64)
    (h : n ∉ [0x009, 0x020, 0x021, 0x022, 0x030, 0x031, 0x032, 0x040, 0x041, 0x058, 0x060, 0x070])
    (hv : ¬(0x048 ≤ n ∧ n ≤ 0x057)) : s.csrWrite d p n v = s := by
  simp only [List.mem_cons, List.not_mem_nil, or_false, not_or] at h
  unfold State.csrWrite
  dsimp only
  split <;> simp_all

theorem csrWrite_violog (s : State) (d : DieId) (p : Pos) (n : Nat) (v : W64) (h : 0x048 ≤ n ∧ n ≤ 0x057) :
    s.csrWrite d p n v = s.setDie d { s.die d with violog := kput 0 (n - 0x048) v (s.die d).violog } := by
  unfold State.csrWrite
  dsimp only
  split
  any_goals omega
  exact if_pos h

/-- A write that makes `x` of the die gives `w` where `x` reads `w` in CSR `n` and every other CSR as before. -/
theorem csr_setDie {s t : State} {d : DieId} {p : Pos} {n : Nat} {w : W64} (x : Die) (y : Station) (ht : t = s.setDie d x)
    (hy : x.sta p = y) (hn : csrOf s.sidc s.link d p x y n = w)
    (hk : ∀ k, k ≠ n → csrOf s.sidc s.link d p x y k = csrOf s.sidc s.link d p (s.die d) ((s.die d).sta p) k) :
    t.csrRead d p n = w ∧ ∀ k, k ≠ n → t.csrRead d p k = s.csrRead d p k := by
  have e (k : Nat) : t.csrRead d p k = csrOf s.sidc s.link d p x y k := by
    rw [csrRead_eq, ht, die_setDie, hy]
    rfl
  exact ⟨(e n).trans hn, fun k h => by rw [e k, hk k h, csrRead_eq]⟩

theorem and_low32 (v : W64) : v &&& 0xFFFFFFFF = (v.setWidth 32 : W32).setWidth 64 := by
  apply BitVec.eq_of_toNat_eq
  simp [Nat.and_two_pow_sub_one_eq_mod v.toNat 32]
  omega

/-- A CSR that takes a written value reads it back in its writable bits, and no other CSR changes. -/
theorem csrWrite_reads (s : State) (d : DieId) (p : Pos) (v : W64) (n : Nat) (mask : W64)
    (h : (n, mask) ∈ [(0x009, 0xFFFFFFFF), (0x021, 0x71F), (0x030, 3), (0x031, 0xFFFFFFFF), (0x040, BitVec.allOnes 64),
      (0x041, BitVec.allOnes 64), (0x032, 0x03FF03FF00000713), (0x058, 0xFFFF000000000F03)] ∨
      0x048 ≤ n ∧ n ≤ 0x057 ∧ mask = BitVec.allOnes 64 ∨ n = 0x060 ∧ mask = 0x9FFF ∧ (s.die d).rdverrAt ≠ s.sidc + 1) :
    (s.csrWrite d p n v).csrRead d p n = v &&& mask ∧ ∀ k, k ≠ n → (s.csrWrite d p n v).csrRead d p k = s.csrRead d p k := by
  simp only [List.mem_cons, Prod.mk.injEq, List.not_mem_nil, or_false] at h
  obtain (⟨rfl, rfl⟩ | ⟨rfl, rfl⟩ | ⟨rfl, rfl⟩ | ⟨rfl, rfl⟩ | ⟨rfl, rfl⟩ | ⟨rfl, rfl⟩ | ⟨rfl, rfl⟩ | ⟨rfl, rfl⟩) |
    ⟨h1, h2, rfl⟩ | ⟨rfl, rfl, hr⟩ := h
  · exact csr_setDie _ ((s.die d).sta p) rfl rfl (and_low32 v).symm fun k hk => by simp only [csrOf, hk, if_false]
  · exact csr_setDie _ _ rfl (sta_setSta ..) rfl fun k hk => by simp only [csrOf, hk, if_false]; rfl
  · exact csr_setDie _ ((s.die d).sta p) rfl rfl rfl fun k hk => by simp only [csrOf, hk, if_false]
  · exact csr_setDie _ ((s.die d).sta p) rfl rfl (by rw [and_low32]; exact BitVec.ofNat_toNat ..) fun k hk => by simp only [csrOf, hk, if_false]
  · exact csr_setDie _ _ rfl (sta_setSta ..) BitVec.and_allOnes.symm fun k hk => by simp only [csrOf, hk, if_false]; rfl
  · exact csr_setDie _ _ rfl (sta_setSta ..) BitVec.and_allOnes.symm fun k hk => by simp only [csrOf, hk, if_false]; rfl
  · exact csr_setDie _ ((s.die d).sta p) rfl rfl rfl fun k hk => by simp only [csrOf, hk, if_false]
  · exact csr_setDie _ ((s.die d).sta p) rfl rfl rfl fun k hk => by simp only [csrOf, hk, if_false]
  · refine csr_setDie _ ((s.die d).sta p) (csrWrite_violog s d p n v ⟨h1, h2⟩) rfl ?_ fun k hk => ?_
    · unfold csrOf
      repeat rw [if_neg (by omega)]
      rw [if_pos ⟨h1, h2⟩, kget_kput, if_pos rfl, BitVec.and_allOnes]
    · by_cases hr : 0x048 ≤ k ∧ k ≤ 0x057
      · have hne : k - 0x048 ≠ n - 0x048 := by omega
        simp only [csrOf, kget_kput, if_neg hne]
      · simp only [csrOf, if_neg hr]
  · exact csr_setDie _ ((s.die d).sta p) (if_neg hr) rfl rfl fun k hk => by simp only [csrOf, hk, if_false]

-- HSTA as read, field by field (R290).

theorem getLsbD_fld {w : Nat} (v : BitVec w) (lo n k : Nat) (h1 : lo ≤ k) (h2 : k < lo + n) : (fld v lo n).getLsbD (k - lo) = v.getLsbD k := by
  rw [BitVec.getLsbD_extractLsb', decide_eq_true (by omega), Bool.true_and, Nat.add_sub_cancel' h1]

theorem getLsbD_b1 (b : Bool) : (b1 b).getLsbD 0 = b := by cases b <;> rfl

theorem hstaWord_den (h : Hsta) (m : Bool) : (hstaWord h m).getLsbD 63 = h.den := by
  simp only [hstaWord, BitVec.getLsbD_append]
  exact getLsbD_b1 h.den

theorem hstaWord_dcls (h : Hsta) (m : Bool) (k : Nat) (h1 : 42 ≤ k) (h2 : k < 52) :
    (hstaWord h m).getLsbD k = h.dcls.getLsbD (k - 42) := by
  simp only [hstaWord, BitVec.getLsbD_append]
  repeat rw [if_neg (by omega)]
  rw [if_pos (by omega)]
  congr 1

theorem hstaWord_entry (h : Hsta) (m : Bool) (k : Nat) (h1 : 26 ≤ k) (h2 : k < 42) :
    (hstaWord h m).getLsbD k = h.entry.getLsbD (k - 26) := by
  simp only [hstaWord, BitVec.getLsbD_append]
  repeat rw [if_neg (by omega)]
  rw [if_pos (by omega)]
  congr 1

/-- SVST, HMODE and NEST do not depend on the other fields. -/
theorem hstaWord_marks (h g : Hsta) (m : Bool) (hs : g.svst = h.svst) (hn : g.nest = h.nest) (k : Nat) (h1 : 16 ≤ k) (h2 : k < 26) :
    (hstaWord g m).getLsbD k = (hstaWord h m).getLsbD k := by
  simp only [hstaWord, BitVec.getLsbD_append, hs, hn]
  repeat rw [if_neg (show ¬k < 7 by omega), if_neg (show ¬k - 7 < 8 by omega), if_neg (show ¬k - 7 - 8 < 1 by omega)]
  refine if_congr Iff.rfl rfl (if_congr Iff.rfl rfl ?_)
  rw [if_pos (by omega), if_pos (by omega)]

theorem hstaWord_fbad (h : Hsta) (m : Bool) : (hstaWord h m).getLsbD 15 = h.fbad := by
  simp only [hstaWord, BitVec.getLsbD_append]
  exact getLsbD_b1 h.fbad

theorem hstaWord_zeros (h : Hsta) (m : Bool) (k : Nat) (hk : 7 ≤ k ∧ k < 15 ∨ 52 ≤ k ∧ k < 63) : (hstaWord h m).getLsbD k = false := by
  simp only [hstaWord, BitVec.getLsbD_append]
  obtain ⟨h1, h2⟩ | ⟨h1, h2⟩ := hk
  · rw [if_neg (by omega), if_pos (by omega)]
    exact BitVec.getLsbD_zero
  · repeat rw [if_neg (by omega)]
    rw [if_pos (by omega)]
    exact BitVec.getLsbD_zero

theorem hstaWord_pos (h : Hsta) (m : Bool) : (hstaWord h m).toNat % 128 = h.pos.val := by
  have e : (hstaWord h m).setWidth 7 = BitVec.ofNat 7 h.pos.val := BitVec.setWidth_append_eq_right
  have := congrArg BitVec.toNat e
  simpa using this

theorem kget_foldl_kput (c t : Nat) (k : Nat) : ∀ (n : Nat) (m : KMap Nat),
    (kget 0 k ((List.range n).foldl (fun m j => kput 0 (c + j) t m) m) : Nat) = if c ≤ k ∧ k < c + n then t else kget 0 k m
  | 0, m => by simp
  | n + 1, m => by
    rw [List.range_succ, List.foldl_append, List.foldl_cons, List.foldl_nil, kget_kput, kget_foldl_kput c t k n m]
    by_cases hk : k = c + n
    · rw [if_pos hk, if_pos (by omega)]
    · rw [if_neg hk]
      exact if_congr (by omega) rfl rfl

/-- ROTD as a CSRW leaves it, by the written value's fields (R133). -/
theorem rotdOf_fields (v : W64) : (rotdOf v).d = min 16 (v.toNat % 32) ∧ (rotdOf v).pd = min 16 (v.toNat / 2 ^ 16 % 32) ∧
    ((rotdOf v).d = 0 → (rotdOf v).rb = 0) ∧ (0 < (rotdOf v).d → (rotdOf v).rb = v.toNat / 2 ^ 8 % 16 % (rotdOf v).d) := by
  have hf (lo n : Nat) : (fld v lo n : BitVec n).toNat = v.toNat / 2 ^ lo % 2 ^ n := by
    rw [BitVec.extractLsb'_toNat, Nat.shiftRight_eq_div_pow]
  simp only [rotdOf, hf]
  refine ⟨by simp, rfl, fun h => if_pos h, fun h => if_neg (by omega)⟩

/-- The value from the entropy source that a write of NOISE takes (R164; DESIGN CHOICE, log 13). -/
def State.entropy (s : State) : W32 := if (s.freeW 0).setWidth 32 = (0 : W32) then 1 else (s.freeW 0).setWidth 32

theorem entropy_ne_zero (s : State) : s.entropy ≠ 0 := by
  unfold State.entropy
  split
  · decide
  · assumption

theorem noiseWrite_replay (n : Noise) (seed e : W32) : n.write (seed ++ 3#32) e =
    if seed = 0 then { seed := 1, mode := 3, s := 1 } else { seed := seed, mode := 3, s := seed } := by
  have hm : ((seed ++ 3#32).setWidth 2 : BitVec 2) = 3 := by
    rw [BitVec.setWidth_append, dif_pos (by decide)]
    rfl
  have hs : (fld (seed ++ 3#32) 32 32 : W32) = seed := BitVec.extractLsb'_append_eq_left
  simp only [Noise.write, hm, hs]
  split <;> simp_all
  split <;> rfl

/-- HSTA takes DEN, DCLS, ENTRY and POS, a written FBAD of 0 clears FBAD, and no other CSR changes (R290). -/
theorem csrWrite_hsta (s : State) (d : DieId) (p : Pos) (v : W64) :
    (s.csrWrite d p 0x070 v).csrRead d p 0x070 = hstaWord (hstaWrite (s.die d).hsta v) ((s.die d).cond == .handler) ∧
    ∀ k, k ≠ 0x070 → (s.csrWrite d p 0x070 v).csrRead d p k = s.csrRead d p k :=
  csr_setDie _ ((s.die d).sta p) rfl rfl rfl fun k hk => by simp only [csrOf, hk, if_false]

-- ## The words CSRR and CSRW

theorem vphys_of_live {s : State} {v ph : BitVec 5} (h : physOf s.curSta.rotd v = some ph) : s.vphys v = .ok ph := by
  simp only [State.vphys, h]

theorem exec_csrr_vector {s : State} {v ph : BitVec 5} (n : BitVec 12) (h : physOf s.curSta.rotd v = some ph) :
    exec (.csrr (.v v) n) s = .next (s.putWrite 2 (v.setWidth 8)
      (.v ph 0 (BitVec.allOnes 64) ((s.csrRead s.focus.die s.focus.pos n.toNat).setWidth 2048))) := by
  simp only [exec, execCsrr, vphys_of_live h]
  rfl

/-- With no bad word in the die's storage, reading a row raises nothing and gives the row. -/
theorem vread_good {s : State} (ph : BitVec 5) (i : Nat) (h : s.curDie.bad = []) : s.vread ph i = (s.curSta.vrow ph i, []) := by
  simp [State.vread, Die.badIn, poison, h]

theorem raiseBad_nil (s : State) : s.raiseBad [] = s := updDie_id s _ fun _ => rfl

theorem exec_csrw_vector {s : State} {v ph : BitVec 5} (n : BitVec 12) (h : physOf s.curSta.rotd v = some ph) (hb : s.curDie.bad = []) :
    exec (.csrw (.v v) n) s = .next (s.later (.csr s.focus.pos n ((s.curSta.vrow ph 0).setWidth 64))) := by
  simp only [exec, execCsrw, vphys_of_live h, vread_good ph 0 hb, raiseBad_nil]

end Sys2Proof.Machine

section
open Sys2Proof Sys2Proof.Machine

/-- Settles O14: the reads by the table of the CSRs, the writes by what each makes of its die. -/
theorem csrWords : Obligations.CsrWords := by
  unfold Obligations.CsrWords
  refine ⟨fun s r v ph n x hx => ?_, ⟨fun s a n => ⟨_, rfl, later_defers ..⟩, fun s v ph n hv hb => ?_, fun s d p n v h => ?_,
    csrWrite_reads, fun s d p v x y hx hy => ?_⟩, fun s d p seed v => ⟨?_, s.entropy, entropy_ne_zero s, fun i n hi => ?_⟩⟩
  · have hc : x = csrOf s.sidc s.link s.focus.die s.focus.pos s.curDie s.curSta n.toNat := hx.trans (csrRead_eq ..)
    refine ⟨hx ▸ ⟨_, rfl, putScal_adds ..⟩, fun hv => ?_, ?_, ?_, ?_, ?_, ?_, ?_, ?_, ?_, ?_, ?_, fun hn => hx.trans (csrRead_unlisted _ _ _ _ hn)⟩
    · rw [exec_csrr_vector n hv, ← hx]
      exact ⟨_, rfl, putWrite_adds ..⟩
    · rintro rfl; exact hc
    · rintro rfl; exact hc
    · rintro rfl; rw [hc]; exact Nat.mod_eq_of_lt (by omega)
    · rintro rfl; rw [hc]; exact Nat.mod_eq_of_lt (by omega)
    · rintro rfl; rw [hc]; exact BitVec.toNat_setWidth_of_le (Nat.le_of_lt (by decide : (16 : Nat) < 64))
    · rintro rfl; rw [hc]; exact Nat.mod_eq_of_lt (by omega)
    · rintro rfl; rw [hc]; exact BitVec.toNat_setWidth_of_le (Nat.le_of_lt (by decide : (32 : Nat) < 64))
    · rintro rfl; exact hc
    · rintro (rfl | rfl | rfl | rfl) <;> exact hc
    · rintro (rfl | rfl) <;> exact hc
  · rw [exec_csrw_vector n hv hb]
    exact ⟨_, rfl, later_defers ..⟩
  · have hn : n ∉ [0x009, 0x020, 0x021, 0x022, 0x030, 0x031, 0x032, 0x040, 0x041, 0x058, 0x060, 0x070] ∧ ¬(0x048 ≤ n ∧ n ≤ 0x057) := by
      simp only [csrListed, List.mem_cons, List.not_mem_nil, or_false] at h ⊢
      omega
    exact csrWrite_unwritten s d p n v hn.1 hn.2
  · obtain ⟨hw, ho⟩ := csrWrite_hsta s d p v
    have hr : s.csrRead d p 0x070 = hstaWord (s.die d).hsta ((s.die d).cond == .handler) := rfl
    rw [hx, hy, hw, hr]
    refine ⟨hstaWord_den .., fun k _ h1 h2 => ?_, ?_, ?_,
      fun k h1 h2 => hstaWord_marks (s.die d).hsta (hstaWrite (s.die d).hsta v) _ rfl rfl k h1 h2,
      fun k _ h7 hk => hstaWord_zeros _ _ k (by omega), ho⟩
    · by_cases hk : k < 42
      · rw [hstaWord_entry _ _ k h1 hk]
        exact getLsbD_fld v _ _ k h1 hk
      · rw [hstaWord_dcls _ _ k (by omega) h2]
        exact getLsbD_fld v _ _ k (by omega) h2
    · rw [hstaWord_pos]
      show (fld v 0 7).toNat % 128 = _
      rw [BitVec.extractLsb'_toNat, Nat.shiftRight_zero, Nat.mod_mod]
    · rw [hstaWord_fbad, hstaWord_fbad]
      rfl
  · obtain ⟨hd, hp, h0, hpos⟩ := rotdOf_fields v
    refine ⟨_, rotdOf v, _, rfl, rfl, fun k => ?_, hd, hp, h0, hpos⟩
    rw [kget_foldl_kput]
    exact if_congr (by omega) rfl rfl
  · simp only [List.mem_cons, Prod.mk.injEq, List.not_mem_nil, or_false] at hi
    obtain ⟨rfl, rfl⟩ | ⟨rfl, rfl⟩ | ⟨rfl, rfl⟩ | ⟨rfl, rfl⟩ := hi
    · exact ⟨_, rfl, rfl, rfl⟩
    · exact ⟨_, rfl, rfl, rfl⟩
    · exact ⟨_, rfl, rfl, rfl⟩
    · refine ⟨_, rfl, rfl, ?_⟩
      rw [← noiseWrite_replay]
      rfl
end

-- ## Steps (R13, R14, R44, R45, R52, R55, R62, R294, R305)

namespace Sys2Proof.Machine

/-- A step takes the first task of the agenda. -/
theorem step_cons {s : State} {t : Task} {rest : List Task} (h : s.agenda = t :: rest) :
    step s = runTask exec t { s with agenda := rest } := by
  simp only [step, stepWith, h]

/-- With the agenda empty the next cycle begins. -/
theorem step_nil {s : State} (h : s.agenda = []) : step s = tick s := by
  simp only [step, stepWith, h]

-- ## Reading a word (R62, R294)

/-- No check of R62 behind the third answers that the opcode is illegal. -/
theorem dec_ne_illegalOpc {μ ρ : Type} (m : Option μ) (r : μ → Option ρ) (z : μ → Bool) (k : μ → ρ → Instr) :
    dec m r z k ≠ .error .illegalOpc := by
  unfold dec
  split
  · simp
  · split
    · simp
    · split <;> simp

theorem handlerOnly_opcodes (o : Byte) (h : handlerOnly o = true) : o = 0x59 ∨ o = 0x5A ∨ o = 0x5B ∨ o = 0x5C ∨ o = 0x5D := by
  revert o
  decide

/-- The words that only a handler may issue are of the table. -/
theorem decodeFields_handlerOnly (st : Strm) (f : Fields) (h : handlerOnly f.opc = true) :
    decodeFields st f ≠ .error .illegalOpc := by
  have hc : ∀ o : Byte, handlerOnly o = true → ¬o < 0x20 ∧ o < 0x70 := by decide
  obtain ⟨h1, h2⟩ := hc _ h
  rw [decodeFields, if_neg h1, if_pos h2]
  obtain ⟨opc, mod, d, a, b, c, imm⟩ := f
  obtain rfl | rfl | rfl | rfl | rfl := handlerOnly_opcodes opc h <;>
  · simp only [decC]
    exact dec_ne_illegalOpc _ _ _ _

theorem decodeWord_handlerOnly {st : Strm} {w : W96} (h : handlerOnly (wordOpc w) = true) :
    decodeWord st w ≠ .error .illegalOpc := by
  have ho : ∀ o : Byte, handlerOnly o = true → opcStreams o = some [.c] := by decide
  simp only [decodeWord, ho (fieldsOf w).opc h]
  split
  · simp
  · split
    · simp
    · exact decodeFields_handlerOnly st _ h

/-- Outside handler mode a word reads as it decodes, unless only a handler may issue it. -/
theorem readWord_timetable {st : Strm} {w : W96} (h : handlerOnly (wordOpc w) = false) : readWord false st w = decodeWord st w := by
  unfold readWord
  split
  · next e => exact e.symm
  · simp [h]

theorem readWord_timetable_handlerOnly {st : Strm} {w : W96} (h : handlerOnly (wordOpc w) = true) :
    readWord false st w = .error .wrongStream := by
  unfold readWord
  split
  · next e => exact absurd e (decodeWord_handlerOnly h)
  · simp [h]

theorem readWord_illegal {h : Bool} {st : Strm} {w : W96} (he : decodeWord st w = .error .illegalOpc) :
    readWord h st w = .error .illegalOpc := by
  simp only [readWord, he]

/-- In handler mode a word that decodes is one that a handler may issue, or of the wrong stream. -/
theorem readWord_handler {st : Strm} {w : W96} {i : Instr} (h : decodeWord st w = .ok i) :
    readWord true st w = if handlerMay (wordOpc w) then .ok i else .error .wrongStream := by
  simp only [readWord, h, if_true]
  cases handlerMay (wordOpc w) <;> rfl

/-- The guard of a word, by its fields GINV and GSEL. -/
theorem guardOn_iff (c : Ctx) (w : W96) : guardOn c w = true ↔ c.pred (fld w 84 3) ≠ w.getLsbD 87 := by
  have h3 : (wordGrd w).setWidth 3 = fld w 84 3 := BitVec.setWidth_extractLsb'_of_le (by decide)
  have hi : bit (wordGrd w) 3 = w.getLsbD 87 := by
    simp only [wordGrd, BitVec.getLsbD_extractLsb']
    rfl
  rw [guardOn, h3, hi, bne_iff_ne]

-- ## Fetching a word (R55, R304, R305)

theorem imemBad_iff (y : Die) (p : Pos) (q : Parcel) (n : Nat) :
    y.imemBad p q n = true ↔ ∃ k < n, BadPlace.plane p ((q.toNat + k) % 65536) ∈ y.bad := by
  simp only [Die.imemBad, Bool.and_eq_true, List.any_eq_true, List.mem_range, List.contains_iff_mem, Bool.not_eq_true',
    List.isEmpty_eq_false_iff]
  exact ⟨fun ⟨_, h⟩ => h, fun ⟨k, hk, h⟩ => ⟨List.ne_nil_of_mem h, k, hk, h⟩⟩

theorem badIn_nil {d : Die} {f : Nat → BadPlace} {n : Nat} (h : ∀ k < n, f k ∉ d.bad) : d.badIn f n = [] := by
  unfold Die.badIn
  split
  · rfl
  · simpa using h

theorem lbPlace_iff (c : Ctx) (q : Parcel) (n : Nat) : c.lbPlace q = some n ↔ ∃ k, c.sect = some k ∧ k.lbf = true ∧
    k.len.toNat ≤ 64 ∧ k.has q.toNat = true ∧ n = (q.toNat - k.first) / 6 := by
  unfold Ctx.lbPlace
  split
  · next k h =>
    simp only [h, Option.some.injEq, exists_eq_left', Option.ite_none_right_eq_some, Bool.and_eq_true, decide_eq_true_eq]
    tauto
  · next h => simp [h]

theorem lbWord_iff (c : Ctx) (q : Parcel) (n : Nat) (v : W96) :
    c.lbWord q = some (n, v) ↔ c.lbPlace q = some n ∧ kget none n c.lbuf = some v := by
  unfold Ctx.lbWord
  split
  · next k h =>
    simp only [h, Option.map_eq_some_iff, Prod.mk.injEq, Option.some.injEq]
    constructor
    · rintro ⟨w, hw, rfl, rfl⟩
      exact ⟨rfl, hw⟩
    · rintro ⟨rfl, hw⟩
      exact ⟨v, hw, rfl, rfl⟩
  · next h => simp [h]

theorem lbWord_of_place_none {c : Ctx} {q : Parcel} (h : c.lbPlace q = none) : c.lbWord q = none := by
  simp only [Ctx.lbWord, h]

theorem fetch_plane {y : Die} {p : Pos} {st : Strm} {q : Parcel} (h : ((y.sta p).ctxOf st).lbWord q = none) :
    y.fetch p st q = ((y.sta p).wordAt q, y.imemBad p q 6, []) := by
  simp only [Die.fetch, h]

theorem fetch_buffer {y : Die} {p : Pos} {st : Strm} {q : Parcel} {n : Nat} {v : W96}
    (h : ((y.sta p).ctxOf st).lbWord q = some (n, v)) (hb : ∀ k < 3, BadPlace.lbuf p st (3 * n + k) ∉ y.bad) :
    y.fetch p st q = (v, false, []) := by
  simp only [Die.fetch, h, badIn_nil hb]
  rfl

-- ## Keeping a word (R55)

theorem lbKeep_of_place_none {s : State} (w : W96) (h : s.curCtx.lbPlace s.focus.parcel = none) : s.lbKeep w = s := by
  simp only [State.lbKeep, h]

theorem lbKeep_of_kept {s : State} {v : Nat × W96} (w : W96) (h : s.curCtx.lbWord s.focus.parcel = some v) : s.lbKeep w = s := by
  unfold State.lbKeep
  split
  · next h' => rw [h] at h'; cases h'
  · rfl

theorem updCtx_congr {s : State} {f g : Ctx → Ctx} (h : f s.curCtx = g s.curCtx) : s.updCtx f = s.updCtx g := by
  have e : f ((s.curDie.sta s.focus.pos).ctxOf s.focus.strm) = g ((s.curDie.sta s.focus.pos).ctxOf s.focus.strm) := h
  simp only [State.updCtx, State.updSta, State.updDie, e]

theorem bad_updCtx (s : State) (f : Ctx → Ctx) : (s.updCtx f).curDie.bad = s.curDie.bad := by
  simp [State.updCtx]

theorem heal_of_good {d : Die} (f : Nat → BadPlace) (n : Nat) (h : d.bad = []) : d.heal f n = d := by
  simp [Die.heal, h]

theorem updDie_of_fixed {s : State} {f : Die → Die} (h : f s.curDie = s.curDie) : s.updDie f = s := by
  rw [State.updDie, h]
  exact setDie_die s s.focus.die

theorem updCtx_of_fixed {s : State} {f : Ctx → Ctx} (h : f s.curCtx = s.curCtx) : s.updCtx f = s := by
  rw [State.updCtx, updSta_eq]
  refine updDie_of_fixed ?_
  change s.curDie.setSta s.focus.pos (s.curSta.setCtx s.focus.strm (f s.curCtx)) = s.curDie
  rw [h, State.curCtx, setCtx_ctxOf]
  exact setSta_sta ..

theorem lbKeep_new {s : State} {n : Nat} (w : W96) (hp : s.curCtx.lbPlace s.focus.parcel = some n)
    (hw : s.curCtx.lbWord s.focus.parcel = none) (hb : s.curDie.bad = []) :
    s.lbKeep w = s.updCtx (fun c => { c with lbuf := kput none n (some w) c.lbuf }) := by
  have hk : s.curCtx.keep s.focus.parcel w = { s.curCtx with lbuf := kput none n (some w) s.curCtx.lbuf } := by
    simp only [Ctx.keep, hp, hw]
  simp only [State.lbKeep, hp, hw]
  rw [updCtx_congr (g := fun c => { c with lbuf := kput none n (some w) c.lbuf }) hk]
  exact updDie_of_fixed (heal_of_good _ _ ((bad_updCtx ..).trans hb))

-- ## The next cycle (R14)

/-- `t` differs from `s` in the hub alone. -/
def HubOnly (s t : State) : Prop := t = { s with hub := t.hub }

theorem HubOnly.refl (s : State) : HubOnly s s := rfl

theorem HubOnly.trans {s t u : State} (h : HubOnly s t) (k : HubOnly t u) : HubOnly s u := by
  unfold HubOnly at *
  rw [k, h]

theorem HubOnly.foldl {α : Type} {f : State → α → State} (hf : ∀ s a, HubOnly s (f s a)) : ∀ (l : List α) (s : State),
    HubOnly s (l.foldl f s)
  | [], s => .refl s
  | a :: t, s => (hf s a).trans (HubOnly.foldl hf t (f s a))

theorem raiseVec_hubOnly (s : State) (v : BitVec 11) : HubOnly s (s.raiseVec v) := by
  unfold State.raiseVec
  dsimp only
  split <;> rfl

theorem deliver_hubOnly (s : State) (v : BitVec 11) : HubOnly s (s.deliver v) := by
  unfold State.deliver
  dsimp only
  split
  · exact HubOnly.trans (t := { s with hub := _ }) rfl (raiseVec_hubOnly _ v)
  · exact .refl s

theorem deliverAll_hubOnly (s : State) : HubOnly s s.deliverAll := by
  unfold State.deliverAll
  split
  · exact .refl s
  · exact HubOnly.foldl (fun s k => deliver_hubOnly s _) _ s

theorem cfgWrite_hubOnly (s : State) (c : CfgWrite) : HubOnly s (s.cfgWrite c) := by
  cases c with
  | bar2 n =>
    simp only [State.cfgWrite]
    split <;> rfl
  | msix on mask => exact HubOnly.trans (t := { s with hub := _ }) rfl (deliverAll_hubOnly _)

/-- The writes of the configuration space change the hub, and leave those that are not due. -/
theorem takeCfg_frame (s : State) (n : Nat) : s.takeCfg n = { s with hub := (s.takeCfg n).hub, cfg := (s.takeCfg n).cfg } := by
  unfold State.takeCfg
  dsimp only
  split
  · rfl
  · split
    · rw [HubOnly.foldl cfgWrite_hubOnly _ _]
    · rfl

-- ## The issue of a word (R44, R45, R52, R62)

/-- The state in which a word acts: the bad parts of its fetch are raised, it is kept, and its stream enters no section. -/
def State.acts (f : State) (k : W96 × Bool × List Nat) : State :=
  ((f.raiseBad k.2.2).lbKeep k.1).updCtx (fun c => { c with entering := false })

section
variable {f : State} {k : W96 × Bool × List Nat} (hk : f.curDie.fetch f.focus.pos f.focus.strm f.focus.parcel = k) (hb : k.2.1 = false)
include hk hb

theorem issueWord_unreadable {e : Cause} (hr : readWord f.focus.handler f.focus.strm k.1 = .error e) :
    issueWord exec f = .next (((f.acts k).trap e).moveOn f.curCtx.loops.length) := by
  subst hk
  simp only [issueWord, hb, hr, Bool.false_eq_true, if_false]
  rfl

variable {i : Instr} (hr : readWord f.focus.handler f.focus.strm k.1 = .ok i)
include hr

theorem issueWord_unasserted (hj : (f.judges.any fun j => !depsOk f.curSta j) = true) :
    issueWord exec f = .next (((f.acts k).trap .sectionOrder).moveOn f.curCtx.loops.length) := by
  subst hk
  simp only [issueWord, hb, hr, hj, Bool.false_eq_true, if_false, if_true]
  rfl

variable (hj : (f.judges.any fun j => !depsOk f.curSta j) = false)
include hj

theorem issueWord_runs (hg : guardOn f.curCtx k.1 = true) :
    issueWord exec f = andThen (exec i (f.acts k)) (State.moveOn f.curCtx.loops.length) := by
  subst hk
  simp only [issueWord, hb, hr, hj, hg, Bool.false_eq_true, if_false, if_true]
  rfl

variable (hg : guardOn f.curCtx k.1 = false)
include hg

theorem issueWord_skips_loop {rot : Bool} {n : Count} {off : BitVec 24} (hi : i = .loop rot n off) :
    issueWord exec f = andThen (loopSkip off (f.acts k)) (State.moveOn f.curCtx.loops.length) := by
  subst hk hi
  simp only [issueWord, hb, hr, hj, hg, Bool.false_eq_true, if_false]
  rfl

theorem issueWord_skips (hi : ∀ rot n off, i ≠ .loop rot n off) :
    issueWord exec f = .next ((f.acts k).moveOn f.curCtx.loops.length) := by
  subst hk
  simp only [issueWord, hb, hr, hj, hg, Bool.false_eq_true, if_false]
  rfl

end

theorem issueWord_bad {f : State} (hb : (f.curDie.fetch f.focus.pos f.focus.strm f.focus.parcel).2.1 = true) :
    issueWord exec f = .next f.imemTrap := by
  simp only [issueWord, hb, if_true]

/-- The issue of a stream whose word is due. -/
theorem issueTask_due {s : State} {d : DieId} {p : Pos} {st : Strm} {q : Parcel} {a : Nat}
    (hn : (((s.die d).sta p).ctxOf st).next = .word q a) (ha : a ≤ (s.die d).dcyc) :
    issueTask exec d p st s = issueWord exec (s.focusOn d p st q false false) := by
  simp only [issueTask, hn, if_pos ha]

/-- The issue of the handler's word, where nothing lands, nothing is stowed and its word is due. -/
theorem hissueTask_due {s : State} {d : DieId} {q : Parcel} {a : Nat} (hc : (s.die d).cond = .handler) (hs : (s.die d).stow = none)
    (hw : ∀ v ∈ (s.die d).hwrites, v.land ≠ s.sidc) (hn : (((s.die d).sta (s.die d).hpos).ctxOf .c).next = .word q a)
    (ha : a ≤ s.sidc) : hissueTask exec d s = issueWord exec (s.focusOn d (s.die d).hpos .c q true false) := by
  have hl : (s.die d).landHandler s.sidc = s.die d := by
    have : (s.die d).hwrites.filter (fun w => w.land == s.sidc) = [] := by simpa using hw
    simp only [Die.landHandler, this, List.isEmpty_nil, if_true]
  have hh : s.readHeader d (s.die d).hpos .c s.sidc true = s := by
    simp only [State.readHeader, hn]
  simp only [hissueTask, hc, hl, hs, setDie_die, hh, hn, if_pos ha, ne_eq, not_true, if_false, Option.isSome_none, Bool.false_eq_true]

/-- Where every section that the word judges holds its assertions. -/
theorem judges_hold {f : State} (hr : f.focus.replay = false) (h : ∀ k, f.curCtx.entering = true → f.curCtx.sect = some k →
    k.first = f.focus.parcel.toNat → depsOk f.curSta k = true) : (f.judges.any fun j => !depsOk f.curSta j) = false := by
  simp only [State.judges, hr, Bool.false_eq_true, if_false, Ctx.judged]
  split
  · next he =>
    cases hs : f.curCtx.sect with
    | none => rfl
    | some k =>
      by_cases hk : k.first = f.focus.parcel.toNat
      · simp [hk, h k he hs hk]
      · simp [hk]
  · rfl

theorem judges_fail {f : State} {k : Section} (hr : f.focus.replay = false) (he : f.curCtx.entering = true)
    (hs : f.curCtx.sect = some k) (hk : k.first = f.focus.parcel.toNat) (hd : depsOk f.curSta k = false) :
    (f.judges.any fun j => !depsOk f.curSta j) = true := by
  simp [State.judges, hr, Ctx.judged, he, hs, hk, hd]

/-- With the agenda empty and the firmware running, the next sidereal cycle begins. -/
theorem tick_running {s : State} (hp : s.power = .running) : ∃ t, tick s = .next t ∧ t = { s.takeCfg (s.now + 1) with
    now := s.now + 1, sidc := s.sidc + 1, inbox := t.inbox, agenda := t.agenda } := by
  have hf := takeCfg_frame s (s.now + 1)
  have hp' : (s.takeCfg (s.now + 1)).power = .running := by rw [hf]; exact hp
  have hs' : (s.takeCfg (s.now + 1)).sidc = s.sidc := by rw [hf]
  simp only [tick, hp', hs']
  exact ⟨_, rfl, rfl⟩

theorem tick_boot {s : State} (hp : s.power = .boot) : ∃ t, tick s = .next t ∧ t.sidc = s.sidc + 1 := by
  have hf := takeCfg_frame s (s.now + 1)
  have hp' : (s.takeCfg (s.now + 1)).power = .boot := by rw [hf]; exact hp
  have hs' : (s.takeCfg (s.now + 1)).sidc = s.sidc := by rw [hf]
  simp only [tick, hp', hs']
  exact ⟨_, rfl, rfl⟩

theorem tick_inReset {s : State} (hp : s.power = .inReset) : ∃ t, tick s = .next t ∧ t.sidc = s.sidc ∧ t.now = s.now + 1 := by
  have hf := takeCfg_frame s (s.now + 1)
  have hp' : (s.takeCfg (s.now + 1)).power = .inReset := by rw [hf]; exact hp
  have hs' : (s.takeCfg (s.now + 1)).sidc = s.sidc := by rw [hf]
  simp only [tick, hp']
  exact ⟨_, rfl, hs', rfl⟩

/-- Without power a later cycle comes only where an outside event is still to come. -/
theorem tick_off {s : State} (hp : s.power = .off) : (s.inbox = [] → tick s = .fault .powerOff) ∧
    (s.inbox ≠ [] → ∃ t, tick s = .next t ∧ t.now = s.now + 1) := by
  have hf := takeCfg_frame s (s.now + 1)
  have hp' : (s.takeCfg (s.now + 1)).power = .off := by rw [hf]; exact hp
  have hi' : (s.takeCfg (s.now + 1)).inbox = s.inbox := by rw [hf]
  simp only [tick, hp', hi']
  exact ⟨fun h => if_pos h, fun h => ⟨_, if_neg h, rfl⟩⟩

theorem takeCfg_nil {s : State} (h : s.cfg = []) (n : Nat) : s.takeCfg n = s := by
  simp [State.takeCfg, h]

end Sys2Proof.Machine

section
open Sys2Proof Sys2Proof.Machine

/-- The clause of O56 about a word of the timetable: each outcome of its fetch, its checks, its assertions and its guard. -/
theorem step_issues_word (s : State) (d : DieId) (p : Pos) (st : Strm) (rest : List Task) (q : Parcel) (a n : Nat) (x : Station) (c : Ctx)
    (w : W96) (k : W96 × Bool × List Nat) (f u : State) (ha : s.agenda = .issue d p st :: rest) (hx : x = (s.die d).sta p)
    (hc : c = x.ctxOf st) (hn : n = c.loops.length) (hnext : c.next = .word q a) (hle : a ≤ (s.die d).dcyc)
    (hk : k = (s.die d).fetch p st q) (hw : w = k.1)
    (hf : f = { s with agenda := rest, focus := { die := d, pos := p, strm := st, parcel := q } })
    (hu : u = ((f.raiseBad k.2.2).lbKeep w).updCtx (fun c => { c with entering := false })) :
    (k.2.1 = true → ∃ e, step s = .next (f.updDie fun y => { y with causes := y.causes ++ [e] }) ∧ e.cause = .imemUncorrectable ∧
      e.rank = 1 ∧ e.pos = p ∧ e.strm = st ∧ e.parcel = q) ∧
    (k.2.1 = false →
      (∀ e, decodeWord st w = .error e → (handlerOnly (wordOpc w) = false ∨ e = .illegalOpc) → step s = .next ((u.trap e).moveOn n)) ∧
      (handlerOnly (wordOpc w) = true → step s = .next ((u.trap .wrongStream).moveOn n)) ∧
      (∀ i, decodeWord st w = .ok i → handlerOnly (wordOpc w) = false →
        (∀ k, c.entering = true → c.sect = some k → k.first = q.toNat → depsOk x k = false → step s = .next ((u.trap .sectionOrder).moveOn n)) ∧
        ((∀ k, c.entering = true → c.sect = some k → k.first = q.toNat → depsOk x k = true) →
          (c.pred (fld w 84 3) ≠ w.getLsbD 87 → step s = andThen (exec i u) (State.moveOn n)) ∧
          (c.pred (fld w 84 3) = w.getLsbD 87 →
            ((∀ rot cnt off, i ≠ .loop rot cnt off) → step s = .next (u.moveOn n)) ∧
            ∀ rot cnt off, i = .loop rot cnt off → step s = andThen (loopSkip off u) (State.moveOn n))))) := by
  have hstep : step s = issueWord exec f := by
    rw [step_cons ha, hf]
    rw [hc, hx] at hnext
    exact issueTask_due (s := { s with agenda := rest }) hnext hle
  have hk' : f.curDie.fetch f.focus.pos f.focus.strm f.focus.parcel = k := by rw [hk, hf]; rfl
  have hx' : f.curSta = x := by rw [hx, hf]; rfl
  have hc' : f.curCtx = c := by rw [hc, ← hx', hf]; rfl
  have hh : f.focus.handler = false := by rw [hf]
  have hr : f.focus.replay = false := by rw [hf]
  have hq : f.focus.parcel = q := by rw [hf]
  have hst : f.focus.strm = st := by rw [hf]
  have hu' : f.acts k = u := by rw [hu, hw]; rfl
  rw [hstep, hn, ← hu', ← hc', hw]
  refine ⟨fun hb => ?_, fun hb => ⟨fun e he ho => ?_, fun ho => ?_, fun i hi ho => ?_⟩⟩
  · rw [issueWord_bad (by rw [hk']; exact hb), hf]
    exact ⟨_, rfl, rfl, rfl, rfl, rfl, rfl⟩
  · refine issueWord_unreadable hk' hb ?_
    rw [hh, hst]
    obtain ho | rfl := ho
    · rw [readWord_timetable ho, he]
    · exact readWord_illegal he
  · refine issueWord_unreadable hk' hb ?_
    rw [hh]
    exact readWord_timetable_handlerOnly ho
  · have hi' : readWord f.focus.handler f.focus.strm k.1 = .ok i := by
      rw [hh, hst, readWord_timetable ho, hi]
    refine ⟨fun j he hs hj hd => issueWord_unasserted hk' hb hi' (judges_fail hr he hs (by rw [hq]; exact hj) (by rw [hx']; exact hd)),
      fun hj => ?_⟩
    have hj' := judges_hold hr (fun j he hs hfj => by rw [hx']; exact hj j he hs (by rw [← hq]; exact hfj))
    refine ⟨fun hg => issueWord_runs hk' hb hi' hj' ((guardOn_iff ..).2 hg), fun hg => ?_⟩
    have hg' : guardOn f.curCtx k.1 = false := by
      rw [Bool.eq_false_iff, ne_eq, guardOn_iff, not_not]
      exact hg
    exact ⟨issueWord_skips hk' hb hi' hj' hg', fun rot cnt off => issueWord_skips_loop hk' hb hi' hj' hg'⟩

/-- The clause about a handler's word. -/
theorem step_issues_handler_word (s : State) (d : DieId) (rest : List Task) (q : Parcel) (a n : Nat) (x : Station) (c : Ctx) (w : W96)
    (u : State) (i : Instr) (ha : s.agenda = .hissue d :: rest) (hcond : (s.die d).cond = .handler) (hstow : (s.die d).stow = none)
    (hwr : ∀ v ∈ (s.die d).hwrites, v.land ≠ s.sidc) (hbad : (s.die d).bad = []) (hx : x = (s.die d).sta (s.die d).hpos)
    (hc : c = x.ctxOf .c) (hn : n = c.loops.length) (hnext : c.next = .word q a) (hle : a ≤ s.sidc) (he : c.entering = false)
    (hlb : c.lbPlace q = none) (hw : w = x.wordAt q)
    (hu : u = { s with agenda := rest, focus := { die := d, pos := (s.die d).hpos, strm := .c, parcel := q, handler := true } })
    (hi : decodeWord .c w = .ok i) (hg : c.pred (fld w 84 3) ≠ w.getLsbD 87) :
    (handlerMay (wordOpc w) = true → step s = andThen (exec i u) (State.moveOn n)) ∧
    (handlerMay (wordOpc w) = false → step s = .next ((u.trap .wrongStream).moveOn n)) := by
  have hstep : step s = issueWord exec u := by
    rw [step_cons ha, hu]
    rw [hc, hx] at hnext
    exact hissueTask_due (s := { s with agenda := rest }) hcond hstow hwr hnext hle
  have hx' : u.curSta = x := by rw [hx, hu]; rfl
  have hc' : u.curCtx = c := by rw [hc, ← hx', hu]; rfl
  have hb' : u.curDie.bad = [] := by rw [hu]; exact hbad
  have hlb' : u.curCtx.lbPlace u.focus.parcel = none := by rw [hc', hu]; exact hlb
  have hk : u.curDie.fetch u.focus.pos u.focus.strm u.focus.parcel = (w, false, []) := by
    rw [fetch_plane (lbWord_of_place_none hlb'), hw, ← hx', Die.imemBad, hb', hu]
    rfl
  have hacts : u.acts (w, false, []) = u := by
    have hid : { u.curCtx with entering := false } = u.curCtx := by rw [hc', ← he]
    rw [State.acts, raiseBad_nil, lbKeep_of_place_none _ hlb', updCtx_of_fixed hid]
  have hh : u.focus.handler = true := by rw [hu]
  have hst : u.focus.strm = .c := by rw [hu]
  have hr : readWord u.focus.handler u.focus.strm w = if handlerMay (wordOpc w) then .ok i else .error .wrongStream := by
    rw [hh, hst, readWord_handler hi]
  rw [hstep, hn, ← hc']
  refine ⟨fun hm => ?_, fun hm => ?_⟩
  · have hj : (u.judges.any fun j => !depsOk u.curSta j) = false :=
      judges_hold (by rw [hu]) fun j h => by rw [hc', he] at h; cases h
    have := issueWord_runs hk rfl (hr.trans (if_pos hm)) hj (by rw [hc']; exact (guardOn_iff ..).2 hg)
    rwa [hacts] at this
  · have := issueWord_unreadable hk rfl (hr.trans (by rw [hm]; rfl))
    rwa [hacts] at this

/-- Settles O56: by the task at the head of the agenda. -/
theorem stepRunsTheWord : Obligations.StepRunsTheWord := by
  unfold Obligations.StepRunsTheWord
  refine ⟨fun s i rest h => step_cons h, step_issues_word, fun y p st q c hc => ?_, fun s w => ?_, step_issues_handler_word, fun s h => ?_⟩
  · subst hc
    exact ⟨fun h => ⟨_, fetch_plane h, imemBad_iff ..⟩, fun n v h hb => fetch_buffer h hb, lbWord_iff _ q, lbPlace_iff _ q⟩
  · exact ⟨raiseBad_nil s, lbKeep_of_place_none w, fun v h => lbKeep_of_kept w h, fun n hp hw hb => lbKeep_new w hp hw hb⟩
  · rw [step_nil h]
    refine ⟨fun hp => ?_, fun hc n => takeCfg_nil hc n, tick_boot, tick_inReset, fun hp => (tick_off hp).1, fun hp => (tick_off hp).2⟩
    obtain ⟨t, ht, e⟩ := tick_running hp
    exact ⟨t, ht, by rw [e], by rw [e], e⟩
end

-- ## Rendezvous points: the words (R18, R22, R245, R246)

namespace Sys2Proof.Machine

/-- The largest of some values of a list, folded with a bound. -/
theorem foldl_max_lt {α : Type} (p : α → Bool) (f : α → Nat) (c : Nat) : ∀ (l : List α) (n : Nat),
    l.foldl (fun n a => if p a then max n (f a) else n) n < c ↔ n < c ∧ ∀ a ∈ l, p a = true → f a < c
  | [], n => by simp
  | a :: t, n => by
    rw [List.foldl_cons, foldl_max_lt p f c t]
    cases hp : p a
    · simp [hp]
    · simp [hp, and_assoc]

/-- An earlier value stands where every value of the kind `p` is older than it. -/
theorem mem_oldsBehind (s : State) (p : OldRow → Bool) (o : OldRow) (h : 0 < o.from_) :
    o ∈ s.oldsBehind p ↔ o ∈ s.olds ∧ ∀ w ∈ s.olds, p w = true → w.from_ < o.from_ := by
  simp only [State.oldsBehind, List.mem_filter, decide_eq_true_eq, foldl_max_lt, h, true_and]

theorem waitKind_rdvw (s : State) (pt : BitVec 5) (d : BitVec 3) : s.waitKind (.rdvw pt d) =
    if (s.curDie.copy pt.toNat).ph = s.curCtx.waited pt.toNat then some .rdv else none := rfl

/-- The phases that RDVT has shown, without those of the issuing stream and point `pt`. -/
def State.untested (s : State) (pt : Nat) : List TestRec :=
  s.curDie.tested.filter fun e => !(e.pos == s.focus.pos && e.strm == s.focus.strm && e.pt == pt)

theorem mem_untested (s : State) (pt : Nat) (e : TestRec) :
    e ∈ s.untested pt ↔ e ∈ s.curDie.tested ∧ ¬(e.pos = s.focus.pos ∧ e.strm = s.focus.strm ∧ e.pt = pt) := by
  simp [State.untested]
  tauto

/-- The WP of one point of the issuing stream rises by one. -/
def State.raiseWp (s : State) (pt : Nat) : State := s.updCtx fun c => { c with wp := kput 0 pt (s.curCtx.waited pt + 1) c.wp }

/-- The issuing die notes none of the phases that RDVT has shown of a point. -/
def State.forgetTested (s : State) (pt : Nat) : State := (s.raiseWp pt).updDie fun x => { x with tested := s.untested pt }

/-- The state that an RDVW leaves but for its predicate: the phase is consumed. -/
def State.consumed (s : State) (pt : Nat) : State := { s.forgetTested pt with olds := s.oldsConsumed s.focus.die pt }

theorem exec_rdvw_exchange {s : State} (pt : BitVec 5) (d : BitVec 3) (h : s.curDie.xch = true) :
    exec (.rdvw pt d) s = raise s .rdvInExchange := by
  simp only [exec, execRdvw, h, if_true]

theorem exec_rdvw {s : State} (pt : BitVec 5) (d : BitVec 3) (h : s.curDie.xch = false) :
    exec (.rdvw pt d) s = .next ((s.consumed pt.toNat).putPred 2 d
      (!(s.curDie.copy pt.toNat).errh.getLsbD ((s.curCtx.waited pt.toNat).toNat % 16))) := by
  have ht : (s.updCtx fun c => { c with wp := kput 0 pt.toNat (s.curCtx.waited pt.toNat + 1) c.wp }).curDie.tested = s.curDie.tested := by
    rw [State.updCtx, curDie_updSta]
    rfl
  simp only [exec, execRdvw, h, Bool.false_eq_true, if_false, State.testedPhase, ht]
  rfl

theorem curSta_forgetTested (s : State) (pt : Nat) : (s.forgetTested pt).curSta = (s.raiseWp pt).curSta := by
  rw [State.forgetTested, curSta_updDie]
  rfl

theorem curCtx_raiseWp (s : State) (pt : Nat) :
    (s.raiseWp pt).curCtx = { s.curCtx with wp := kput 0 pt (s.curCtx.waited pt + 1) s.curCtx.wp } := curCtx_updCtx ..

theorem curCtx_consumed (s : State) (pt : Nat) :
    (s.consumed pt).curCtx = { s.curCtx with wp := kput 0 pt (s.curCtx.waited pt + 1) s.curCtx.wp } := by
  rw [← curCtx_raiseWp]
  change (s.forgetTested pt).curSta.ctxOf _ = (s.raiseWp pt).curSta.ctxOf _
  rw [curSta_forgetTested]
  rfl

theorem waited_consumed (s : State) (pt k : Nat) :
    (s.consumed pt).curCtx.waited k = if k = pt then s.curCtx.waited pt + 1 else s.curCtx.waited k := by
  rw [curCtx_consumed]
  exact kget_kput ..

theorem cyc_forgetTested (s : State) (pt : Nat) : (s.forgetTested pt).cyc = s.cyc := by
  have h : (s.forgetTested pt).cyc = (s.raiseWp pt).cyc := by
    simp only [State.cyc, State.forgetTested, curDie_updDie, updDie_sidc, updDie_focus]
  exact h.trans (cyc_updSta ..)

/-- RDVW outside exchange, but for its predicate: the phase is consumed (R245). -/
theorem consumed_eq (s : State) (pt : Nat) : s.consumed pt =
    { (s.updCtx (fun c => { c with wp := (s.consumed pt).curCtx.wp })).updDie (fun x => { x with tested := s.untested pt }) with
      olds := (s.consumed pt).olds } := by
  have h : s.raiseWp pt = s.updCtx (fun c => { c with wp := (s.consumed pt).curCtx.wp }) := by
    refine updCtx_congr ?_
    rw [curCtx_consumed]
  rw [← h]
  rfl

/-- An earlier value stands where the phase of `pt` consumed on the team leaves it out of none of its writes. -/
theorem mem_consumed_olds (s : State) (pt : Nat) (o : OldRow) (h : 0 < o.from_) : o ∈ (s.consumed pt).olds ↔ o ∈ s.olds ∧
    ∀ w ∈ s.olds, pt ∈ w.pts → (s.die w.die).team = s.curDie.team → w.from_ < o.from_ := by
  refine (mem_oldsBehind s _ o h).trans (and_congr_right' (forall₂_congr fun w _ => ?_))
  simp only [List.contains_iff_mem, Bool.and_eq_true, beq_iff_eq, and_imp]
  rfl

theorem consumed_adds (s : State) (pt : Nat) (d : BitVec 3) (v : Bool) :
    Adds (s.consumed pt) ((s.consumed pt).putPred 2 d v) (s.predWrites 2 d v) := by
  have h : (s.consumed pt).predWrites 2 d v = s.predWrites 2 d v := by
    unfold State.predWrites State.inFlight
    rw [show (s.consumed pt).cyc = s.cyc from cyc_forgetTested s pt]
    rfl
  exact h ▸ putPred_adds ..

theorem tested_putPred (s : State) (lat : Nat) (d : BitVec 3) (v : Bool) : (s.putPred lat d v).curDie.tested = s.curDie.tested := by
  unfold State.putPred State.putWrite
  split
  · rw [curDie_updDie]
  · rw [curDie_updSta, setSta_tested]

/-- RDVT notes a phase that it has shown, in the place of one noted before. -/
theorem mem_tested_rdvt (s : State) (pt : BitVec 5) (d : BitVec 3) (shown : Bool) (e : TestRec) :
    e ∈ ((s.testedPhase pt.toNat shown).putPred 2 d shown).curDie.tested ↔
      (e ∈ s.curDie.tested ∧ ¬(e.pos = s.focus.pos ∧ e.strm = s.focus.strm ∧ e.pt = pt.toNat)) ∨
        (shown = true ∧ e = { pos := s.focus.pos, strm := s.focus.strm, pt := pt.toNat, at_ := s.sidc }) := by
  rw [tested_putPred, ← mem_untested, State.testedPhase, curDie_updDie]
  cases shown
  · simp [State.untested]
  · simp [State.untested]

end Sys2Proof.Machine

-- ## Rendezvous points: the messages on a die (R242, R243, R247)

namespace Sys2Proof.Machine

/-- What a message makes of the masters of a die, when it is a count (R243). -/
def countInto (k : KMap RdvMaster) (m : RdvMsg) : KMap RdvMaster :=
  match m with
  | .count pt n _ =>
    let r := kget {} pt k
    if r.exp = 0 ∧ n ≠ 0 then kput {} pt { r with exp := n } k else k
  | _ => k

theorem exec_rdviApply (d : DieId) (s : State) : exec (.rdviApply d) s = .next (s.setDie d { s.die d with
    masters := ((s.die d).msgs.filter fun m => m.isCount && m.dueAt s.sidc).foldl countInto (s.die d).masters,
    msgs := (s.die d).msgs.filter fun m => !(m.isCount && m.dueAt s.sidc) }) := rfl

theorem countInto_count (k : KMap RdvMaster) (pt n at_ : Nat) : countInto k (.count pt n at_) =
    if (kget {} pt k : RdvMaster).exp = 0 ∧ n ≠ 0 then kput {} pt { (kget {} pt k : RdvMaster) with exp := n } k else k := rfl

/-- The count of one message: EXP is set only where it is 0 and the count is not (R243). -/
theorem kget_countInto (k : KMap RdvMaster) (q n at_ pt : Nat) : (kget {} pt (countInto k (.count q n at_)) : RdvMaster) =
    if q = pt ∧ n ≠ 0 ∧ (kget {} pt k : RdvMaster).exp = 0 then { (kget {} pt k : RdvMaster) with exp := n } else kget {} pt k := by
  rw [countInto_count]
  split
  · next h =>
    rw [kget_kput]
    by_cases hq : pt = q
    · subst hq
      rw [if_pos rfl, if_pos ⟨rfl, h.2, h.1⟩]
    · rw [if_neg hq, if_neg fun h => hq h.1.symm]
  · next h =>
    rw [if_neg]
    rintro ⟨rfl, h2, h1⟩
    exact h ⟨h1, h2⟩

/-- A due message that is no count of a point leaves the point's master. -/
theorem kget_countInto_other {k : KMap RdvMaster} {m : RdvMsg} {pt now : Nat} (hd : m.dueAt now = true) (h : RdvMsg.sets pt now m = false) :
    (kget {} pt (countInto k m) : RdvMaster) = kget {} pt k := by
  cases m with
  | count q n at_ =>
    rw [kget_countInto, if_neg]
    rintro ⟨rfl, hn, -⟩
    simp_all [RdvMsg.sets, RdvMsg.dueAt]
  | arrive q e at_ => rfl
  | phase q ph eh e at_ => rfl

/-- The due counts of a die's messages. -/
def dueCounts (now : Nat) (l : List RdvMsg) : List RdvMsg := l.filter fun m => m.isCount && m.dueAt now

theorem dueCounts_cons (now : Nat) (m : RdvMsg) (l : List RdvMsg) :
    dueCounts now (m :: l) = if m.isCount && m.dueAt now then m :: dueCounts now l else dueCounts now l := List.filter_cons

theorem dueCounts_cons_of_sets {now pt : Nat} {m : RdvMsg} (l : List RdvMsg) (h : RdvMsg.sets pt now m = true) :
    dueCounts now (m :: l) = m :: dueCounts now l ∧ ∃ n at_, m = .count pt n at_ ∧ n ≠ 0 := by
  cases m with
  | count q n at_ =>
    simp only [RdvMsg.sets, Bool.and_eq_true, beq_iff_eq, bne_iff_ne, decide_eq_true_eq] at h
    obtain ⟨⟨rfl, hn⟩, hd⟩ := h
    exact ⟨by simp [dueCounts, RdvMsg.isCount, RdvMsg.dueAt, hd], n, at_, rfl, hn⟩
  | arrive q e at_ => exact absurd h Bool.false_ne_true
  | phase q ph eh e at_ => exact absurd h Bool.false_ne_true

/-- A point whose EXP is set takes no other count (R243). -/
theorem counts_ignored (pt : Nat) : ∀ (l : List RdvMsg) (k : KMap RdvMaster), (kget {} pt k : RdvMaster).exp ≠ 0 →
    (kget {} pt (l.foldl countInto k) : RdvMaster) = kget {} pt k
  | [], _, _ => rfl
  | m :: l, k, h => by
    have e : (kget {} pt (countInto k m) : RdvMaster) = kget {} pt k := by
      cases m with
      | count q n at_ => exact (kget_countInto ..).trans (if_neg fun hh => h hh.2.2)
      | arrive q e at_ => rfl
      | phase q ph eh e at_ => rfl
    rw [List.foldl_cons, counts_ignored pt l _ (by rwa [e]), e]

/-- Where no due message sets the count of a point, its master stays. -/
theorem counts_none (pt now : Nat) : ∀ (l : List RdvMsg) (k : KMap RdvMaster), l.find? (RdvMsg.sets pt now) = none →
    (kget {} pt ((dueCounts now l).foldl countInto k) : RdvMaster) = kget {} pt k
  | [], _, _ => rfl
  | m :: l, k, h => by
    rw [List.find?_cons] at h
    split at h
    · cases h
    · next hm =>
      by_cases hc : (m.isCount && m.dueAt now) = true
      · have hd : m.dueAt now = true := (Bool.and_eq_true _ _ ▸ hc).2
        rw [dueCounts_cons, if_pos hc, List.foldl_cons]
        exact (counts_none pt now l _ h).trans (kget_countInto_other hd hm)
      · rw [dueCounts_cons, if_neg hc]
        exact counts_none pt now l k h

/-- The first due count of a point sets its EXP where that is 0. -/
theorem counts_first (pt now n at_ : Nat) : ∀ (l : List RdvMsg) (k : KMap RdvMaster),
    l.find? (RdvMsg.sets pt now) = some (.count pt n at_) → (kget {} pt k : RdvMaster).exp = 0 →
    (kget {} pt ((dueCounts now l).foldl countInto k) : RdvMaster) = { (kget {} pt k : RdvMaster) with exp := n }
  | [], _, h, _ => by cases h
  | m :: l, k, h, h0 => by
    rw [List.find?_cons] at h
    split at h
    · next hm =>
      obtain ⟨hl, n', a', rfl, hn⟩ := dueCounts_cons_of_sets l hm
      obtain ⟨⟩ := h
      have e : (kget {} pt (countInto k (.count pt n at_)) : RdvMaster) = { (kget {} pt k : RdvMaster) with exp := n } := by
        rw [kget_countInto, if_pos ⟨rfl, hn, h0⟩]
      rw [hl, List.foldl_cons, counts_ignored pt _ _ (by rwa [e]), e]
    · next hm =>
      by_cases hc : (m.isCount && m.dueAt now) = true
      · have hd : m.dueAt now = true := (Bool.and_eq_true _ _ ▸ hc).2
        have e : (kget {} pt (countInto k m) : RdvMaster) = kget {} pt k := kget_countInto_other hd hm
        rw [dueCounts_cons, if_pos hc, List.foldl_cons, ← e]
        exact counts_first pt now n at_ l _ h (by rwa [e])
      · rw [dueCounts_cons, if_neg hc]
        exact counts_first pt now n at_ l k h h0

-- A completed phase (R242).

theorem firstErr_cons (a : BitVec 9) (l : List (BitVec 9)) : firstErr (a :: l) = if a = 0 then firstErr l else a := by
  unfold firstErr
  rw [List.find?_cons]
  split
  · next h => rw [if_neg (bne_iff_ne.1 h), Option.getD_some]
  · next h => rw [if_pos (by simpa using h)]

theorem firstErr_eq_zero {l : List (BitVec 9)} : firstErr l = 0 ↔ ∀ e ∈ l, e = 0 := by
  induction l with
  | nil => simp [firstErr]
  | cons a t ih =>
    rw [firstErr_cons, List.forall_mem_cons, ← ih]
    split
    · next h => exact ⟨fun ht => ⟨h, ht⟩, And.right⟩
    · next h => exact ⟨fun ha => absurd ha h, fun ha => absurd ha.1 h⟩

theorem firstErr_append {ok bad : List (BitVec 9)} {e : BitVec 9} (h : ∀ k ∈ ok, k = 0) (he : e ≠ 0) : firstErr (ok ++ e :: bad) = e := by
  induction ok with
  | nil => exact (firstErr_cons ..).trans (if_neg he)
  | cons a t ih =>
    obtain ⟨ha, ht⟩ := List.forall_mem_cons.1 h
    rw [List.cons_append, firstErr_cons, if_pos ha, ih ht]

/-- Bit (PH mod 16) of ERRH says whether one of the arrivals was an error. -/
theorem errh_complete (r : RdvMaster) (k : Nat) (hk : k < 16) : (RdvMaster.complete r).1.errh.getLsbD k =
    if k = r.ph.toNat % 16 then (r.arr.take r.exp).any (· != 0) else r.errh.getLsbD k := by
  have hb : (BitVec.ofNat 16 (2 ^ (r.ph.toNat % 16))).getLsbD k = decide (k = r.ph.toNat % 16) := by
    rw [BitVec.getLsbD_ofNat, decide_eq_true hk, Bool.true_and, Nat.testBit_two_pow]
    simp only [eq_comm]
  have ha : (r.arr.take r.exp).any (· != 0) = decide (firstErr (r.arr.take r.exp) ≠ 0) := by
    rw [Bool.eq_iff_iff, decide_eq_true_eq, ne_eq, firstErr_eq_zero]
    simp
  rw [ha]
  change (if firstErr (r.arr.take r.exp) = 0 then r.errh &&& ~~~BitVec.ofNat 16 (2 ^ (r.ph.toNat % 16))
    else r.errh ||| BitVec.ofNat 16 (2 ^ (r.ph.toNat % 16))).getLsbD k = _
  generalize BitVec.ofNat 16 (2 ^ (r.ph.toNat % 16)) = b at hb
  by_cases h0 : firstErr (r.arr.take r.exp) = 0
  · rw [if_pos h0, BitVec.getLsbD_and, BitVec.getLsbD_not, hb, decide_eq_true hk, h0]
    by_cases he : k = r.ph.toNat % 16 <;> simp [he]
  · rw [if_neg h0, BitVec.getLsbD_or, hb]
    by_cases he : k = r.ph.toNat % 16
    · rw [if_pos he, decide_eq_true he, Bool.or_true, decide_eq_true h0]
    · rw [if_neg he, decide_eq_false he, Bool.or_false]

-- PHASE_PROPAGATE (R242, R247).

/-- What a message makes of a die, when it is a phase (R242). -/
def Die.phaseInto (now : Nat) (x : Die) (m : RdvMsg) : Die :=
  match m with
  | .phase pt ph errh err _ => x.showPhase now pt ph errh err
  | _ => x

theorem exec_phasePropagate (d : DieId) (s : State) : exec (.phasePropagate d) s = .next (s.setDie d
    (((s.die d).msgs.filter fun m => m.isPhase && m.dueAt s.sidc).foldl (Die.phaseInto s.sidc)
      { s.die d with msgs := (s.die d).msgs.filter fun m => !(m.isPhase && m.dueAt s.sidc) })) := rfl

/-- A phase shown changes the copies and RDVERR alone. -/
theorem showPhase_frame (x : Die) (now pt : Nat) (ph eh : BitVec 16) (e : BitVec 9) : x.showPhase now pt ph eh e =
    { x with copies := (x.showPhase now pt ph eh e).copies, rdverr := (x.showPhase now pt ph eh e).rdverr,
             rdverrAt := (x.showPhase now pt ph eh e).rdverrAt } := by
  unfold Die.showPhase
  dsimp only
  split <;> rfl

theorem phaseInto_frame (x : Die) (now : Nat) (m : RdvMsg) : (x.phaseInto now m).noRdv = x.noRdv ∧
    (x.phaseInto now m).masters = x.masters ∧ (x.phaseInto now m).msgs = x.msgs := by
  cases m with
  | phase pt ph eh e at_ =>
    change (x.showPhase now pt ph eh e).noRdv = _ ∧ (x.showPhase now pt ph eh e).masters = _ ∧ (x.showPhase now pt ph eh e).msgs = _
    rw [showPhase_frame]
    exact ⟨rfl, rfl, rfl⟩
  | arrive q e at_ => exact ⟨rfl, rfl, rfl⟩
  | count q n at_ => exact ⟨rfl, rfl, rfl⟩

theorem phases_frame (now : Nat) : ∀ (l : List RdvMsg) (x : Die), (l.foldl (Die.phaseInto now) x).noRdv = x.noRdv ∧
    (l.foldl (Die.phaseInto now) x).masters = x.masters ∧ (l.foldl (Die.phaseInto now) x).msgs = x.msgs
  | [], _ => ⟨rfl, rfl, rfl⟩
  | m :: l, x => by
    obtain ⟨h1, h2, h3⟩ := phases_frame now l (x.phaseInto now m)
    obtain ⟨k1, k2, k3⟩ := phaseInto_frame x now m
    exact ⟨h1.trans k1, h2.trans k2, h3.trans k3⟩

theorem toNat_append_eq_add {n m : Nat} (x : BitVec n) (y : BitVec m) : (x ++ y).toNat = x.toNat * 2 ^ m + y.toNat := by
  rw [BitVec.toNat_append, ← Nat.shiftLeft_add_eq_or_of_lt y.isLt, Nat.shiftLeft_eq]

/-- An error phase writes VAL, PT and CAUSE into RDVERR. -/
theorem rdverr_showPhase (x : Die) (now pt : Nat) (ph eh : BitVec 16) (e : BitVec 9) (hp : pt < 24) :
    (e = 0 → (x.showPhase now pt ph eh e).rdverr = x.rdverr) ∧
    (e ≠ 0 → (x.showPhase now pt ph eh e).rdverr.toNat = 2 ^ 15 + pt * 256 + e.toNat % 256) := by
  constructor
  · intro h
    rw [Die.showPhase, if_pos h]
  · intro h
    rw [Die.showPhase, if_neg h]
    simp only [toNat_append_eq_add, BitVec.toNat_ofNat, BitVec.toNat_setWidth]
    rw [Nat.mod_eq_of_lt (Nat.lt_trans hp (by decide))]
    omega

theorem copy_showPhase (x : Die) (now q pt : Nat) (ph eh : BitVec 16) (e : BitVec 9) :
    (x.showPhase now q ph eh e).copy pt = if pt = q then { ph := ph, errh := eh } else x.copy pt := by
  have h : (x.showPhase now q ph eh e).copies = kput {} q { ph := ph, errh := eh } x.copies := by
    unfold Die.showPhase
    dsimp only
    split <;> rfl
  rw [Die.copy, h, kget_kput]
  rfl

/-- Where no phase of a point is due, the die's copy of it stays. -/
theorem copy_phases (now pt : Nat) : ∀ (l : List RdvMsg) (x : Die), (∀ ph eh e a, .phase pt ph eh e a ∈ l → now < a) →
    ((l.filter fun m => m.isPhase && m.dueAt now).foldl (Die.phaseInto now) x).copy pt = x.copy pt
  | [], _, _ => rfl
  | m :: l, x, h => by
    have ih (y : Die) := copy_phases now pt l y fun ph eh e a hm => h ph eh e a (List.mem_cons_of_mem m hm)
    rw [List.filter_cons]
    split
    · next hm =>
      rw [List.foldl_cons, ih]
      cases m with
      | phase q ph eh e a =>
        have hq : pt ≠ q := by
          rintro rfl
          exact absurd (h ph eh e a (List.mem_cons_self ..)) (Nat.not_lt.2 (of_decide_eq_true hm))
        exact (copy_showPhase x now q pt ph eh e).trans (if_neg hq)
      | arrive q e a => rfl
      | count q n a => rfl
    · exact ih x

end Sys2Proof.Machine

-- ## Arrivals counted and phases completed on a master's die (R242)

namespace Sys2Proof.Machine

/-- What a message makes of the masters of a die, when it is an arrival. -/
def arriveInto (k : KMap RdvMaster) (m : RdvMsg) : KMap RdvMaster :=
  match m with
  | .arrive pt e _ => kput {} pt { (kget {} pt k : RdvMaster) with arr := (kget {} pt k : RdvMaster).arr ++ [e] } k
  | _ => k

/-- The masters of die `d` with the due arrivals counted, before any phase completes. -/
def State.counted (s : State) (d : DieId) : KMap RdvMaster :=
  ((s.die d).msgs.filter fun m => m.isArrive && m.dueAt s.sidc).foldl arriveInto (s.die d).masters

/-- The state with the due arrivals on die `d` counted, before any phase completes. -/
def State.arrived (s : State) (d : DieId) : State := s.setDie d { s.die d with
  masters := s.counted d, msgs := (s.die d).msgs.filter fun m => !(m.isArrive && m.dueAt s.sidc) }

theorem exec_arrivalCount (d : DieId) (s : State) :
    exec (.arrivalCount d) s = .next ((s.counted d).foldl (fun t e => t.tryPhase d e.1) (s.arrived d)) := rfl

/-- The due arrivals of point `pt` among some messages, oldest first. -/
def arrivalsOf (now pt : Nat) (l : List RdvMsg) : List (BitVec 9) :=
  l.filterMap fun m => match m with
    | .arrive q e at_ => if q = pt ∧ at_ ≤ now then some e else none
    | _ => none

theorem arrivalsOf_arrive (now pt q at_ : Nat) (e : BitVec 9) (l : List RdvMsg) : arrivalsOf now pt (.arrive q e at_ :: l) =
    if q = pt ∧ at_ ≤ now then e :: arrivalsOf now pt l else arrivalsOf now pt l := by
  simp only [arrivalsOf, List.filterMap_cons]
  split
  · next h => rw [if_neg fun hh => by rw [if_pos hh] at h; cases h]
  · next h =>
    rw [Option.ite_none_right_eq_some] at h
    obtain ⟨h1, h2⟩ := h
    rw [if_pos h1, Option.some.inj h2]

/-- Every due arrival of a point is counted after those before it. -/
theorem kget_arrivals (now pt : Nat) : ∀ (l : List RdvMsg) (k : KMap RdvMaster),
    (kget {} pt ((l.filter fun m => m.isArrive && m.dueAt now).foldl arriveInto k) : RdvMaster) =
      { (kget {} pt k : RdvMaster) with arr := (kget {} pt k : RdvMaster).arr ++ arrivalsOf now pt l }
  | [], k => by simp [arrivalsOf]
  | .arrive q e at_ :: l, k => by
    rw [List.filter_cons, arrivalsOf_arrive]
    by_cases hd : at_ ≤ now
    · have hm : ((RdvMsg.arrive q e at_).isArrive && (RdvMsg.arrive q e at_).dueAt now) = true := decide_eq_true hd
      rw [if_pos hm, List.foldl_cons, kget_arrivals now pt l]
      by_cases hq : q = pt
      · subst hq
        simp [arriveInto, kget_kput, hd]
      · simp [arriveInto, kget_kput, hq, Ne.symm hq]
    · rw [if_neg (by simpa [RdvMsg.isArrive, RdvMsg.dueAt] using hd), if_neg fun h => hd h.2]
      exact kget_arrivals now pt l k
  | .count .. :: l, k => kget_arrivals now pt l k
  | .phase .. :: l, k => kget_arrivals now pt l k

theorem kget_counted (s : State) (d : DieId) (pt : Nat) : (kget {} pt (s.counted d) : RdvMaster) = countedMaster s d pt :=
  kget_arrivals ..

theorem arrivals_kwf : ∀ (l : List RdvMsg) (k : KMap RdvMaster), kwf ({} : RdvMaster) k = true →
    kwf ({} : RdvMaster) (l.foldl arriveInto k) = true
  | [], _, h => h
  | .arrive .. :: l, _, h => arrivals_kwf l _ (kput_kwf _ _ _ _ h)
  | .count .. :: l, k, h => arrivals_kwf l k h
  | .phase .. :: l, k, h => arrivals_kwf l k h

/-- The keys of a canonical map are distinct. -/
theorem kwf_keys_nodup {α : Type} [DecidableEq α] {d : α} {m : KMap α} (h : kwf d m = true) : (m.map (·.1)).Nodup :=
  List.pairwise_map.2 (((kwf_iff d m).1 h).1.imp Nat.ne_of_lt)

/-- A key that reads other than the default stands in the map with what it reads. -/
theorem mem_of_kget_ne {α : Type} {d : α} {k : Nat} : ∀ {m : KMap α}, kget d k m ≠ d → (k, kget d k m) ∈ m
  | [], h => absurd rfl h
  | (i, v) :: t, h => by
    by_cases hi : i = k
    · subst hi
      have he : kget d i ((i, v) :: t) = v := if_pos rfl
      rw [he]
      exact List.mem_cons_self ..
    · have he : kget d k ((i, v) :: t) = kget d k t := if_neg hi
      rw [he] at h ⊢
      exact List.mem_cons_of_mem _ (mem_of_kget_ne h)

-- Free picks and the latest phase.

theorem pick_mem (s : State) {lo hi : Nat} (h : lo ≤ hi) : lo ≤ s.pick lo hi ∧ s.pick lo hi ≤ hi := by
  unfold State.pick
  split
  · omega
  · have := Nat.mod_lt s.fresh (show 0 < hi - lo + 1 by omega)
    omega

/-- The cycle in which a message shows a phase of point `pt`; 0 for any other message. -/
def RdvMsg.shows (pt : Nat) : RdvMsg → Nat
  | .phase p _ _ _ t => if p = pt then t else 0
  | _ => 0

/-- The latest cycle in which some messages show a phase of point `pt`. -/
def lastOf (pt : Nat) : List RdvMsg → Nat
  | [] => 0
  | m :: l => max (m.shows pt) (lastOf pt l)

/-- A fold step of `Die.lastPhase` takes the later of two cycles. -/
theorem lastPhase_step (pt n : Nat) (m : RdvMsg) :
    (match m with | .phase p _ _ _ t => if p = pt then max n t else n | _ => n) = max n (m.shows pt) := by
  cases m with
  | phase p ph eh e t =>
    by_cases h : p = pt
    · simp [RdvMsg.shows, h]
    · simp [RdvMsg.shows, h]
  | arrive q e t => exact (Nat.max_zero n).symm
  | count q k t => exact (Nat.max_zero n).symm

theorem foldl_shows (pt : Nat) : ∀ (l : List RdvMsg) (n : Nat), l.foldl (fun n m => max n (m.shows pt)) n = max n (lastOf pt l)
  | [], n => (Nat.max_zero n).symm
  | m :: l, n => by rw [List.foldl_cons, foldl_shows pt l, lastOf, Nat.max_assoc]

theorem lastPhase_eq (d : Die) (pt : Nat) : d.lastPhase pt = lastOf pt d.msgs := by
  have h : d.lastPhase pt = d.msgs.foldl (fun n m => max n (m.shows pt)) 0 := by
    simp only [← lastPhase_step]
    rfl
  rw [h, foldl_shows, Nat.zero_max]

theorem le_lastOf (pt : Nat) : ∀ {l : List RdvMsg} {m : RdvMsg}, m ∈ l → m.shows pt ≤ lastOf pt l
  | m :: l, k, h => by
    obtain rfl | h := List.mem_cons.1 h
    · exact Nat.le_max_left ..
    · exact (le_lastOf pt h).trans (Nat.le_max_right ..)

theorem shows_pos {pt : Nat} {m : RdvMsg} (h : m.shows pt ≠ 0) : ∃ ph eh e, m = .phase pt ph eh e (m.shows pt) := by
  cases m with
  | phase p ph eh e t =>
    by_cases hp : p = pt
    · subst hp
      exact ⟨ph, eh, e, by simp [RdvMsg.shows]⟩
    · exact absurd (if_neg hp) h
  | arrive q e t => exact absurd rfl h
  | count q k t => exact absurd rfl h

/-- The latest such cycle is that of one of the phases, or 0. -/
theorem lastOf_attained (pt : Nat) : ∀ l : List RdvMsg, lastOf pt l ≠ 0 → ∃ ph eh e, .phase pt ph eh e (lastOf pt l) ∈ l
  | [], h => absurd rfl h
  | m :: l, h => by
    by_cases hm : lastOf pt l ≤ m.shows pt
    · have e : lastOf pt (m :: l) = m.shows pt := Nat.max_eq_left hm
      rw [e] at h ⊢
      obtain ⟨ph, eh, k, hk⟩ := shows_pos h
      exact ⟨ph, eh, k, hk ▸ List.mem_cons_self ..⟩
    · have e : lastOf pt (m :: l) = lastOf pt l := Nat.max_eq_right (Nat.le_of_not_le hm)
      rw [e] at h ⊢
      obtain ⟨ph, eh, k, hk⟩ := lastOf_attained pt l h
      exact ⟨ph, eh, k, List.mem_cons_of_mem _ hk⟩

/-- Messages that show no phase of a point leave its latest cycle. -/
theorem lastOf_append_other {pt : Nat} {r : List RdvMsg} (h : ∀ m ∈ r, m.shows pt = 0) : ∀ l : List RdvMsg, lastOf pt (l ++ r) = lastOf pt l
  | [] => by
    by_contra hn
    obtain ⟨ph, eh, k, hk⟩ := lastOf_attained pt r hn
    exact hn ((if_pos rfl).symm.trans (h _ hk))
  | m :: l => by rw [List.cons_append, lastOf, lastOf, lastOf_append_other h l]

-- The team of a die.

theorem teamDies_nodup (s : State) (d : DieId) : (s.teamDies d).Nodup := by
  unfold State.teamDies
  split
  · exact List.Nodup.filter _ (by decide)
  · exact List.nodup_singleton d

-- Sending a phase to the dies of a team (R242).

/-- A completed phase goes to one die. -/
def State.phaseTo (m : DieId) (pt : Nat) (r : RdvMaster) (err : BitVec 9) (t : State) (d : DieId) : State :=
  let x := t.die d
  let at_ := if d = m then t.sidc + 1
    else max (x.lastPhase pt) (t.pick (t.sidc + hop m d) (t.sidc + hop m d + 4 + t.linkWait m d))
  (t.setDie d { x with msgs := x.msgs ++ [.phase pt r.ph r.errh err at_] }).bump

theorem sendPhase_eq (s : State) (m : DieId) (pt : Nat) (r : RdvMaster) (err : BitVec 9) :
    s.sendPhase m pt r err = (s.teamDies m).foldl (State.phaseTo m pt r err) s := rfl

/-- `n` is a cycle in which a phase that master `m` completes shows on die `e`, where the last before it shows in cycle `last`. -/
def State.PhaseCycle (s : State) (m e : DieId) (last n : Nat) : Prop :=
  (e = m → n = s.sidc + 1) ∧ (e ≠ m → ∃ k, n = max last k ∧ s.sidc + Config.lattab (linkOf m e) ≤ k ∧
    k ≤ s.sidc + Config.lattab (linkOf m e) + 4 + s.linkWait m e)

/-- `t` differs from `s` in the dies and the count of free values alone. -/
def DiesOnly (s t : State) : Prop := t = { s with dies := t.dies, ctr := t.ctr }

theorem DiesOnly.trans {s t u : State} (h : DiesOnly s t) (k : DiesOnly t u) : DiesOnly s u := by
  unfold DiesOnly at *
  rw [k, h]

theorem DiesOnly.phaseCycle {s t : State} (h : DiesOnly s t) (m e : DieId) (last n : Nat) :
    t.PhaseCycle m e last n ↔ s.PhaseCycle m e last n := by
  rw [h]
  exact Iff.rfl

theorem DiesOnly.teamDies {s t : State} (h : DiesOnly s t) (d : DieId) : t.teamDies d = s.teamDies d := by
  rw [h]
  rfl

theorem phaseTo_diesOnly (m : DieId) (pt : Nat) (r : RdvMaster) (err : BitVec 9) (t : State) (d : DieId) :
    DiesOnly t (t.phaseTo m pt r err d) := rfl

theorem phaseTo_die_ne (m : DieId) (pt : Nat) (r : RdvMaster) (err : BitVec 9) (t : State) {d e : DieId} (h : e ≠ d) :
    (t.phaseTo m pt r err d).die e = t.die e := die_setDie_ne t d e _ h.symm

theorem phaseTo_die (m : DieId) (pt : Nat) (r : RdvMaster) (err : BitVec 9) (t : State) (d : DieId) :
    ∃ n, t.PhaseCycle m d ((t.die d).lastPhase pt) n ∧
      (t.phaseTo m pt r err d).die d = { t.die d with msgs := (t.die d).msgs ++ [.phase pt r.ph r.errh err n] } := by
  refine ⟨_, ?_, die_setDie ..⟩
  by_cases h : d = m
  · rw [if_pos h]
    exact ⟨fun _ => rfl, fun hn => absurd h hn⟩
  · have hh : hop m d = Config.lattab (linkOf m d) := if_neg (Ne.symm h)
    rw [if_neg h, hh]
    exact ⟨fun hn => absurd hn h, fun _ => ⟨_, rfl, pick_mem t (by omega)⟩⟩

/-- Each of some dies gets one message of the phase, and nothing else changes. -/
theorem phasesTo (m : DieId) (pt : Nat) (r : RdvMaster) (err : BitVec 9) : ∀ (l : List DieId) (s : State), l.Nodup →
    DiesOnly s (l.foldl (State.phaseTo m pt r err) s) ∧
    (∀ e, e ∉ l → (l.foldl (State.phaseTo m pt r err) s).die e = s.die e) ∧
    ∀ e ∈ l, ∃ n, s.PhaseCycle m e ((s.die e).lastPhase pt) n ∧ (l.foldl (State.phaseTo m pt r err) s).die e =
      { s.die e with msgs := (s.die e).msgs ++ [.phase pt r.ph r.errh err n] }
  | [], s, _ => ⟨rfl, fun _ _ => rfl, fun _ h => absurd h List.not_mem_nil⟩
  | d :: l, s, hn => by
    obtain ⟨hd, hl⟩ := List.nodup_cons.1 hn
    obtain ⟨h1, h2, h3⟩ := phasesTo m pt r err l (s.phaseTo m pt r err d) hl
    have h0 := phaseTo_diesOnly m pt r err s d
    refine ⟨h0.trans h1, fun e he => ?_, fun e he => ?_⟩
    · obtain ⟨hed, hel⟩ := not_or.1 (List.mem_cons.not.1 he)
      exact (h2 e hel).trans (phaseTo_die_ne m pt r err s hed)
    · obtain rfl | he := List.mem_cons.1 he
      · obtain ⟨n, hn, hx⟩ := phaseTo_die m pt r err s e
        exact ⟨n, hn, (h2 e hd).trans hx⟩
      · have hx := phaseTo_die_ne m pt r err s (show e ≠ d from fun h => hd (h ▸ he))
        obtain ⟨n, hn, ht⟩ := h3 e he
        rw [hx] at hn ht
        exact ⟨n, (h0.phaseCycle ..).1 hn, ht⟩

-- The phases that complete on a master's die (R242).

/-- The phase of a master completes. -/
def RdvMaster.Completes (r : RdvMaster) : Prop := 1 ≤ r.exp ∧ r.exp ≤ r.arr.length

/-- The master of point `pt` on die `d`. -/
def State.master (s : State) (d : DieId) (pt : Nat) : RdvMaster := kget {} pt (s.die d).masters

theorem tryPhase_incomplete {s : State} {d : DieId} {pt : Nat} (h : ¬(s.master d pt).Completes) : s.tryPhase d pt = s := by
  refine if_pos ?_
  change (s.master d pt).exp = 0 ∨ (s.master d pt).arr.length < (s.master d pt).exp
  unfold RdvMaster.Completes at h
  omega

theorem tryPhase_completes {s : State} {d : DieId} {pt : Nat} (h : (s.master d pt).Completes) : s.tryPhase d pt =
    (s.setDie d { s.die d with masters := kput {} pt (s.master d pt).complete.1 (s.die d).masters }).sendPhase d pt
      (s.master d pt).complete.1 (s.master d pt).complete.2 := by
  refine if_neg ?_
  change ¬((s.master d pt).exp = 0 ∨ (s.master d pt).arr.length < (s.master d pt).exp)
  unfold RdvMaster.Completes at h
  omega

/-- The message of a completed phase of point `pt`, whose master was `r`, for cycle `n`. -/
def phaseMsg (pt : Nat) (r : RdvMaster) (n : Nat) : RdvMsg := .phase pt (r.ph + 1) r.complete.1.errh r.complete.2 n

/-- `t` is the state once the phases of the points `ks` have been tried on die `d` of `s`, that is, on the counted masters. -/
structure Tried (s : State) (d : DieId) (ks : List Nat) (t : State) : Prop where
  frame : DiesOnly s t
  outside : ∀ e, e ≠ d → e ∉ s.teamDies d → t.die e = s.die e
  die : ∀ e, t.die e = { s.die e with masters := (t.die e).masters, msgs := (t.die e).msgs }
  others : ∀ e, e ≠ d → (t.die e).masters = (s.die e).masters
  done : ∀ pt ∈ ks, (s.master d pt).Completes → t.master d pt = (s.master d pt).complete.1
  kept : ∀ pt, ¬(pt ∈ ks ∧ (s.master d pt).Completes) → t.master d pt = s.master d pt
  msgs : ∀ e ∈ s.teamDies d, ∃ l, (t.die e).msgs = (s.die e).msgs ++ l ∧
    (∀ m ∈ l, ∃ pt ∈ ks, (s.master d pt).Completes ∧ ∃ n, s.PhaseCycle d e ((s.die e).lastPhase pt) n ∧
      m = phaseMsg pt (s.master d pt) n) ∧
    ∀ pt ∈ ks, (s.master d pt).Completes → ∃ n, phaseMsg pt (s.master d pt) n ∈ l

theorem Tried.nil (s : State) (d : DieId) : Tried s d [] s :=
  { frame := rfl, outside := fun _ _ _ => rfl, die := fun _ => rfl, others := fun _ _ => rfl,
    done := fun _ h => absurd h List.not_mem_nil, kept := fun _ _ => rfl,
    msgs := fun _ _ => ⟨[], (List.append_nil _).symm, fun _ h => absurd h List.not_mem_nil, fun _ h => absurd h List.not_mem_nil⟩ }

/-- Trying a point whose phase does not complete changes nothing. -/
theorem Tried.skip {s t : State} {d : DieId} {ks : List Nat} {pt : Nat} (h : Tried s d ks t) (hc : ¬(s.master d pt).Completes) :
    Tried s d (ks ++ [pt]) t where
  frame := h.frame
  outside := h.outside
  die := h.die
  others := h.others
  done := fun q hq hqc => by
    obtain hq | hq := List.mem_append.1 hq
    · exact h.done q hq hqc
    · exact absurd (List.mem_singleton.1 hq ▸ hqc) hc
  kept := fun q hq => h.kept q fun hk => hq ⟨List.mem_append_left _ hk.1, hk.2⟩
  msgs := fun e he => by
    obtain ⟨l, h1, h2, h3⟩ := h.msgs e he
    refine ⟨l, h1, fun m hm => ?_, fun q hq hqc => ?_⟩
    · obtain ⟨q, hq, hm⟩ := h2 m hm
      exact ⟨q, List.mem_append_left _ hq, hm⟩
    · obtain hq | hq := List.mem_append.1 hq
      · exact h3 q hq hqc
      · exact absurd (List.mem_singleton.1 hq ▸ hqc) hc

/-- The phases sent before of other points leave the latest cycle of a point. -/
theorem Tried.lastPhase {s t : State} {d e : DieId} {ks : List Nat} {pt : Nat} (h : Tried s d ks t) (he : e ∈ s.teamDies d)
    (hp : pt ∉ ks) : (t.die e).lastPhase pt = (s.die e).lastPhase pt := by
  obtain ⟨l, h1, h2, -⟩ := h.msgs e he
  rw [lastPhase_eq, lastPhase_eq, h1]
  refine lastOf_append_other (fun m hm => ?_) _
  obtain ⟨q, hq, -, n, -, rfl⟩ := h2 m hm
  exact if_neg fun hh : q = pt => hp (hh ▸ hq)

/-- A phase of another point completes and goes to the dies of the team. -/
theorem Tried.complete {s t : State} {d : DieId} {ks : List Nat} {pt : Nat} (h : Tried s d ks t) (hp : pt ∉ ks)
    (hc : (s.master d pt).Completes) : Tried s d (ks ++ [pt]) (t.tryPhase d pt) := by
  have hm : t.master d pt = s.master d pt := h.kept pt fun hk => hp hk.1
  rw [tryPhase_completes (hm ▸ hc), hm, sendPhase_eq]
  obtain ⟨u, hu⟩ : ∃ u, u = t.setDie d { t.die d with masters := kput {} pt (s.master d pt).complete.1 (t.die d).masters } := ⟨_, rfl⟩
  rw [← hu]
  have hut : DiesOnly t u := by rw [hu]; rfl
  have hue (e : DieId) (he : e ≠ d) : u.die e = t.die e := by rw [hu]; exact die_setDie_ne _ _ _ _ he.symm
  have hud : u.die d = { t.die d with masters := kput {} pt (s.master d pt).complete.1 (t.die d).masters } := by rw [hu]; exact die_setDie ..
  have hum (e : DieId) : (u.die e).msgs = (t.die e).msgs := by
    by_cases he : e = d
    · rw [he, hud]
    · rw [hue e he]
  have hl (e : DieId) : (u.die e).lastPhase pt = (t.die e).lastPhase pt := by rw [lastPhase_eq, lastPhase_eq, hum]
  have hteam : u.teamDies d = s.teamDies d := (hut.teamDies d).trans (h.frame.teamDies d)
  rw [hteam]
  obtain ⟨h1, h2, h3⟩ := phasesTo d pt (s.master d pt).complete.1 (s.master d pt).complete.2 _ u (teamDies_nodup s d)
  generalize (s.teamDies d).foldl (State.phaseTo d pt (s.master d pt).complete.1 (s.master d pt).complete.2) u = v at h1 h2 h3
  have hv (e : DieId) : v.die e = { u.die e with msgs := (v.die e).msgs } := by
    by_cases he : e ∈ s.teamDies d
    · obtain ⟨n, -, hn⟩ := h3 e he
      rw [hn]
    · rw [h2 e he]
  have hvm (e : DieId) : (v.die e).masters = (u.die e).masters := by rw [hv e]
  have hmast (q : Nat) : v.master d q = if q = pt then (s.master d pt).complete.1 else t.master d q := by
    rw [State.master, hvm, hud]
    exact kget_kput ..
  refine { frame := h.frame.trans (hut.trans h1), outside := fun e he hn => ?_, die := fun e => ?_, others := fun e he => ?_,
           done := fun q hq hqc => ?_, kept := fun q hq => ?_, msgs := fun e he => ?_ }
  · rw [h2 e hn, hue e he, h.outside e he hn]
  · rw [hv e]
    by_cases he : e = d
    · rw [he, hud, h.die d]
    · rw [hue e he, h.die e]
  · rw [hvm, hue e he, h.others e he]
  · rw [hmast]
    obtain hq | hq := List.mem_append.1 hq
    · rw [if_neg fun hh : q = pt => hp (hh ▸ hq), h.done q hq hqc]
    · rw [List.mem_singleton.1 hq, if_pos rfl]
  · rw [hmast, if_neg, h.kept q fun hk => hq ⟨List.mem_append_left _ hk.1, hk.2⟩]
    rintro rfl
    exact hq ⟨List.mem_append_right _ (List.mem_singleton_self q), hc⟩
  · obtain ⟨l, k1, k2, k3⟩ := h.msgs e he
    obtain ⟨n, hn, hx⟩ := h3 e he
    have hn' : s.PhaseCycle d e ((s.die e).lastPhase pt) n := by
      rwa [hut.phaseCycle, h.frame.phaseCycle, hl, h.lastPhase he hp] at hn
    refine ⟨l ++ [phaseMsg pt (s.master d pt) n], ?_, fun m hm => ?_, fun q hq hqc => ?_⟩
    · rw [hx, ← List.append_assoc, ← k1, ← hum]
      rfl
    · obtain hm | hm := List.mem_append.1 hm
      · obtain ⟨q, hq, hm⟩ := k2 m hm
        exact ⟨q, List.mem_append_left _ hq, hm⟩
      · exact ⟨pt, List.mem_append_right _ (List.mem_singleton_self pt), hc, n, hn', List.mem_singleton.1 hm⟩
    · obtain hq | hq := List.mem_append.1 hq
      · obtain ⟨k, hk⟩ := k3 q hq hqc
        exact ⟨k, List.mem_append_left _ hk⟩
      · rw [List.mem_singleton.1 hq]
        exact ⟨n, List.mem_append_right _ (List.mem_singleton_self _)⟩

/-- Every point of distinct keys is tried once. -/
theorem tried_foldl (s : State) (d : DieId) : ∀ (l : KMap RdvMaster) (ks : List Nat) (t : State), Tried s d ks t →
    (ks ++ l.map (·.1)).Nodup → Tried s d (ks ++ l.map (·.1)) (l.foldl (fun t e => t.tryPhase d e.1) t)
  | [], ks, t, h, _ => by simpa using h
  | (pt, r) :: l, ks, t, h, hn => by
    have e : ks ++ ((pt, r) :: l).map (·.1) = ks ++ [pt] ++ l.map (·.1) := by simp
    rw [e] at hn ⊢
    have hp : pt ∉ ks := by
      have := List.nodup_append.1 (List.nodup_append.1 hn).1
      exact fun hk => this.2.2 pt hk pt (List.mem_singleton_self pt) rfl
    rw [List.foldl_cons]
    refine tried_foldl s d l _ _ ?_ hn
    by_cases hc : (s.master d pt).Completes
    · exact h.complete hp hc
    · have hm : t.master d pt = s.master d pt := h.kept pt fun hk => hp hk.1
      rw [tryPhase_incomplete (hm ▸ hc)]
      exact h.skip hc

/-- ARRIVAL_COUNT tries every point whose phase completes. -/
theorem tried_arrivals {s : State} {d : DieId} (h : kwf ({} : RdvMaster) (s.die d).masters = true) :
    Tried (s.arrived d) d ((s.counted d).map (·.1)) ((s.counted d).foldl (fun t e => t.tryPhase d e.1) (s.arrived d)) := by
  have hk := tried_foldl (s.arrived d) d (s.counted d) [] _ (Tried.nil _ d) (kwf_keys_nodup (arrivals_kwf _ _ h))
  exact hk

theorem master_arrived (s : State) (d : DieId) (pt : Nat) : (s.arrived d).master d pt = countedMaster s d pt := by
  rw [State.master, State.arrived, die_setDie]
  exact kget_counted ..

theorem mem_keys_of_completes {s : State} {d : DieId} {pt : Nat} (h : (countedMaster s d pt).Completes) :
    pt ∈ (s.counted d).map (·.1) := by
  refine List.mem_map.2 ⟨_, mem_of_kget_ne (d := ({} : RdvMaster)) fun he => ?_, rfl⟩
  rw [kget_counted] at he
  rw [he] at h
  exact absurd h.1 (by decide)

end Sys2Proof.Machine

-- ## The rendezvous obligation (R18, R22, R242 to R245)

namespace Sys2Proof.Machine

/-- RDVI_APPLY on the master's die (R243). -/
theorem rdviApply_counts (s : State) (d : DieId) : ∃ t, exec (.rdviApply d) s = .next t ∧ OnlyDie d s t ∧
    (t.die d).noRdv = (s.die d).noRdv ∧ (t.die d).copies = (s.die d).copies ∧ (t.die d).rdverr = (s.die d).rdverr ∧
    (t.die d).msgs = (s.die d).msgs.filter (fun m => !(m.isCount && m.dueAt s.sidc)) ∧
    (∀ pt r, r = kget {} pt (s.die d).masters → (r.exp ≠ 0 → kget {} pt (t.die d).masters = r) ∧
      ∀ n at_, r.exp = 0 → (s.die d).msgs.find? (RdvMsg.sets pt s.sidc) = some (.count pt n at_) →
        kget {} pt (t.die d).masters = { r with exp := n }) ∧
    ∀ pt, (s.die d).msgs.find? (RdvMsg.sets pt s.sidc) = none →
      kget {} pt (t.die d).masters = (kget {} pt (s.die d).masters : RdvMaster) := by
  refine ⟨_, exec_rdviApply d s, ?_, ?_⟩
  · rw [OnlyDie, die_setDie]
  rw [die_setDie]
  refine ⟨rfl, rfl, rfl, rfl, ?_, fun pt h => counts_none pt _ _ _ h⟩
  rintro pt r rfl
  exact ⟨fun h => counts_ignored pt _ _ h, fun n at_ h0 h => counts_first pt _ n at_ _ _ h h0⟩

/-- What a phase message for die `e` from master `d` says of its cycle, with what stood in the die's messages before. -/
theorem phaseCycle_bounds {s : State} {d e : DieId} {pt n : Nat} {l : List RdvMsg} (h : s.PhaseCycle d e (lastOf pt l) n) :
    (e = d → n = s.sidc + 1) ∧
    (e ≠ d → s.sidc + Config.lattab (linkOf d e) ≤ n ∧ (∀ ph eh k b, .phase pt ph eh k b ∈ l → b ≤ n) ∧
      (n ≤ s.sidc + Config.lattab (linkOf d e) + 4 + s.linkWait d e ∨ ∃ ph eh k, .phase pt ph eh k n ∈ l)) := by
  refine ⟨h.1, fun he => ?_⟩
  obtain ⟨k, rfl, hlo, hhi⟩ := h.2 he
  refine ⟨hlo.trans (Nat.le_max_right ..), fun ph eh c b hb => ?_, ?_⟩
  · have hs : (RdvMsg.phase pt ph eh c b).shows pt = b := if_pos rfl
    exact hs ▸ (le_lastOf pt hb).trans (Nat.le_max_left ..)
  · by_cases hk : lastOf pt l ≤ k
    · exact .inl ((Nat.max_eq_right hk).trans_le hhi)
    · have hkl := Nat.le_of_not_le hk
      rw [Nat.max_eq_left hkl]
      exact .inr (lastOf_attained pt l (by omega))

/-- The messages that ARRIVAL_COUNT leaves on a die before any phase is sent. -/
theorem msgs_arrived (s : State) (d e : DieId) : ((s.arrived d).die e).msgs =
    (s.die e).msgs.filter (fun m => !(e == d && m.isArrive && m.dueAt s.sidc)) := by
  by_cases h : e = d
  · subst h
    rw [State.arrived, die_setDie]
    simp
  · rw [State.arrived, die_setDie_ne _ _ _ _ (Ne.symm h)]
    refine (List.filter_eq_self.2 fun m _ => ?_).symm
    rw [beq_eq_false_iff_ne.2 h]
    rfl

theorem arrived_frame (s : State) (d e : DieId) : (s.arrived d).die e =
    { s.die e with masters := ((s.arrived d).die e).masters, msgs := ((s.arrived d).die e).msgs } := by
  by_cases h : e = d
  · subst h
    rw [State.arrived, die_setDie]
  · rw [State.arrived, die_setDie_ne _ _ _ _ (Ne.symm h)]

/-- ARRIVAL_COUNT on the master's die (R242). -/
theorem arrivalCount_phases (s : State) (d : DieId) (h : kwf ({} : RdvMaster) (s.die d).masters = true) :
    ∃ t, exec (.arrivalCount d) s = .next t ∧
    t = { s with dies := t.dies, ctr := t.ctr } ∧
    (∀ pt r, r = countedMaster s d pt → kget {} pt (t.die d).masters = if 1 ≤ r.exp ∧ r.exp ≤ r.arr.length then r.complete.1 else r) ∧
    (∀ e, e ≠ d → e ∉ s.teamDies d → t.die e = s.die e) ∧
    ∀ e, (t.die e).noRdv = (s.die e).noRdv ∧ (t.die e).copies = (s.die e).copies ∧ (t.die e).rdverr = (s.die e).rdverr ∧
      (e ≠ d → (t.die e).masters = (s.die e).masters) ∧
      (e ∈ s.teamDies d → ∃ l,
        (t.die e).msgs = (s.die e).msgs.filter (fun m => !(e == d && m.isArrive && m.dueAt s.sidc)) ++ l ∧
        (∀ m ∈ l, ∃ pt r at_, r = countedMaster s d pt ∧ 1 ≤ r.exp ∧ r.exp ≤ r.arr.length ∧
          m = .phase pt (r.ph + 1) r.complete.1.errh r.complete.2 at_ ∧ (e = d → at_ = s.sidc + 1) ∧
          (e ≠ d → s.sidc + Config.lattab (linkOf d e) ≤ at_ ∧
            (∀ ph eh k b, .phase pt ph eh k b ∈ (s.die e).msgs → b ≤ at_) ∧
            (at_ ≤ s.sidc + Config.lattab (linkOf d e) + 4 + s.linkWait d e ∨ ∃ ph eh k, .phase pt ph eh k at_ ∈ (s.die e).msgs))) ∧
        ∀ pt r, r = countedMaster s d pt → 1 ≤ r.exp → r.exp ≤ r.arr.length →
          ∃ at_, .phase pt (r.ph + 1) r.complete.1.errh r.complete.2 at_ ∈ l) := by
  refine ⟨_, exec_arrivalCount d s, ?_⟩
  have ht := tried_arrivals h
  generalize (s.counted d).foldl (fun t e => t.tryPhase d e.1) (s.arrived d) = t at ht
  have hs : DiesOnly s (s.arrived d) := rfl
  have hne (e : DieId) (he : e ≠ d) : (s.arrived d).die e = s.die e := die_setDie_ne _ _ _ _ he.symm
  have hdie (e : DieId) : t.die e = { s.die e with masters := (t.die e).masters, msgs := (t.die e).msgs } := by
    rw [ht.die e, arrived_frame]
  refine ⟨hs.trans ht.frame, ?_, fun e he hn => ?_, fun e => ⟨?_, ?_, ?_, fun he => ?_, fun he => ?_⟩⟩
  · rintro pt r rfl
    have hd := ht.done pt
    have hk := ht.kept pt
    rw [master_arrived] at hd hk
    split
    · next hc => exact hd (mem_keys_of_completes hc) hc
    · next hc => exact hk fun hh => hc hh.2
  · rw [← hne e he]
    exact ht.outside e he ((hs.teamDies d).symm ▸ hn)
  · rw [hdie e]; rfl
  · rw [hdie e]
  · rw [hdie e]
  · rw [ht.others e he, hne e he]
  · obtain ⟨l, h1, h2, h3⟩ := ht.msgs e ((hs.teamDies d).symm ▸ he)
    rw [msgs_arrived] at h1
    refine ⟨l, h1, fun m hm => ?_, ?_⟩
    · obtain ⟨pt, -, hc, n, hn, rfl⟩ := h2 m hm
      rw [master_arrived] at hc
      rw [hs.phaseCycle, lastPhase_eq] at hn
      obtain ⟨b1, b2⟩ := phaseCycle_bounds hn
      refine ⟨pt, _, n, rfl, hc.1, hc.2, ?_, b1, fun hed => ?_⟩
      · rw [master_arrived]
        rfl
      · rw [hne e hed] at b2
        exact b2 hed
    · rintro pt r rfl h1 h2
      have hc : (countedMaster s d pt).Completes := ⟨h1, h2⟩
      have hp := h3 pt (mem_keys_of_completes hc)
      rw [master_arrived] at hp
      exact hp hc

/-- On a die that is a team of its own, a phase that completes goes to the die alone. -/
theorem tryPhase_single {s : State} {d : DieId} {pt : Nat} (hc : (s.master d pt).Completes) (ht : s.teamDies d = [d]) :
    s.tryPhase d pt = (s.setDie d { s.die d with masters := kput {} pt (s.master d pt).complete.1 (s.die d).masters }).phaseTo d pt
      (s.master d pt).complete.1 (s.master d pt).complete.2 d := by
  rw [tryPhase_completes hc, sendPhase_eq]
  exact congrArg (List.foldl _ _) ht

/-- A phase completed by one arrival on a die that is a team of its own (R242). -/
theorem arrivalCount_single (s : State) (d : DieId) (pt at_ : Nat) (e : BitVec 9) (r : RdvMaster)
    (hm : (s.die d).msgs = [.arrive pt e at_]) (ha : at_ ≤ s.sidc) (ht : s.teamDies d = [d]) (hr : (s.die d).masters = [(pt, r)])
    (hl : r.arr.length + 1 = r.exp) :
    ∃ t, exec (.arrivalCount d) s = .next t ∧ kget {} pt (t.die d).masters = (RdvMaster.complete { r with arr := r.arr ++ [e] }).1 ∧
      (t.die d).msgs = [.phase pt (r.ph + 1) (RdvMaster.complete { r with arr := r.arr ++ [e] }).1.errh
        (RdvMaster.complete { r with arr := r.arr ++ [e] }).2 (s.sidc + 1)] := by
  have hk : (kget {} pt (s.die d).masters : RdvMaster) = r := by rw [hr]; exact if_pos rfl
  have hcnt : s.counted d = [(pt, { r with arr := r.arr ++ [e] })] := by
    have hd : ((RdvMsg.arrive pt e at_).isArrive && (RdvMsg.arrive pt e at_).dueAt s.sidc) = true := decide_eq_true ha
    rw [State.counted, hm, List.filter_cons, if_pos hd, List.filter_nil, List.foldl_cons, List.foldl_nil, arriveInto, hk, hr]
    simp [kput]
  have hmas : (s.arrived d).master d pt = { r with arr := r.arr ++ [e] } := by
    rw [State.master, State.arrived, die_setDie, hcnt]
    exact if_pos rfl
  have hc : ((s.arrived d).master d pt).Completes := by
    rw [hmas]
    refine ⟨by simp only; omega, ?_⟩
    simp only [List.length_append, List.length_singleton, hl, le_refl]
  refine ⟨_, exec_arrivalCount d s, ?_⟩
  rw [hcnt, List.foldl_cons, List.foldl_nil, tryPhase_single hc ht, hmas]
  obtain ⟨n, hn, hx⟩ := phaseTo_die d pt (RdvMaster.complete { r with arr := r.arr ++ [e] }).1
    (RdvMaster.complete { r with arr := r.arr ++ [e] }).2 ((s.arrived d).setDie d { (s.arrived d).die d with
      masters := kput {} pt (RdvMaster.complete { r with arr := r.arr ++ [e] }).1 ((s.arrived d).die d).masters }) d
  have hmsg : ((s.arrived d).die d).msgs = [] := by
    rw [msgs_arrived, hm]
    simp [RdvMsg.isArrive, RdvMsg.dueAt, ha]
  rw [hx, die_setDie, hmsg, hn.1 rfl]
  refine ⟨?_, rfl⟩
  exact (kget_kput ..).trans (if_pos rfl)

/-- RDVW outside exchange consumes the phase and draws its predicate from the die's copy (R245). -/
theorem rdvw_consumes {s : State} (pt : BitVec 5) (d : BitVec 3) (h : s.curDie.xch = false) :
    ∃ t u l, exec (.rdvw pt d) s = .next t ∧
      u = { (s.updCtx (fun c => { c with wp := u.curCtx.wp })).updDie (fun x => { x with tested := l }) with olds := u.olds } ∧
      (∀ o : OldRow, 0 < o.from_ → (o ∈ u.olds ↔ o ∈ s.olds ∧
        ∀ w ∈ s.olds, pt.toNat ∈ w.pts → (s.die w.die).team = s.curDie.team → w.from_ < o.from_)) ∧
      (∀ e : TestRec, e ∈ l ↔ e ∈ s.curDie.tested ∧ ¬(e.pos = s.focus.pos ∧ e.strm = s.focus.strm ∧ e.pt = pt.toNat)) ∧
      Adds u t (s.predWrites 2 d (!(s.curDie.copy pt.toNat).errh.getLsbD ((s.curCtx.waited pt.toNat).toNat % 16))) ∧
      u.curCtx.waited pt.toNat = s.curCtx.waited pt.toNat + 1 ∧ ∀ k, k ≠ pt.toNat → u.curCtx.waited k = s.curCtx.waited k :=
  ⟨_, s.consumed pt.toNat, s.untested pt.toNat, exec_rdvw pt d h, consumed_eq .., fun o ho => mem_consumed_olds s _ o ho,
    mem_untested s _, consumed_adds .., (waited_consumed ..).trans (if_pos rfl), fun _ hk => (waited_consumed ..).trans (if_neg hk)⟩

/-- RDVW waits while the die's copy of PH is the stream's WP (R22, R245). -/
theorem waitKind_rdvw_none (s : State) (pt : BitVec 5) (d : BitVec 3) :
    s.waitKind (.rdvw pt d) = none ↔ (s.curDie.copy pt.toNat).ph ≠ s.curCtx.waited pt.toNat := by
  rw [waitKind_rdvw]
  split
  · next h => simp [h]
  · next h => simp [h]

/-- PHASE_PROPAGATE on a die (R242). -/
theorem phasePropagate_shows (s : State) (d : DieId) : ∃ t, exec (.phasePropagate d) s = .next t ∧ OnlyDie d s t ∧
    (t.die d).noRdv = (s.die d).noRdv ∧ (t.die d).masters = (s.die d).masters ∧
    (t.die d).msgs = (s.die d).msgs.filter (fun m => !(m.isPhase && m.dueAt s.sidc)) ∧
    ∀ pt, (∀ ph eh e a, .phase pt ph eh e a ∈ (s.die d).msgs → s.sidc < a) → (t.die d).copy pt = (s.die d).copy pt := by
  refine ⟨_, exec_phasePropagate d s, ?_, ?_⟩
  · rw [OnlyDie, die_setDie]
  rw [die_setDie]
  obtain ⟨h1, h2, h3⟩ := phases_frame s.sidc ((s.die d).msgs.filter fun m => m.isPhase && m.dueAt s.sidc)
    { s.die d with msgs := (s.die d).msgs.filter fun m => !(m.isPhase && m.dueAt s.sidc) }
  exact ⟨h1, h2, h3, fun pt h => copy_phases s.sidc pt _ _ h⟩

/-- A phase that is due shows in the die's copy, and an error phase in RDVERR (R242, R247). -/
theorem phasePropagate_single (s : State) (d : DieId) (pt : Nat) (ph eh : BitVec 16) (e : BitVec 9) (a : Nat)
    (hm : (s.die d).msgs = [.phase pt ph eh e a]) (ha : a ≤ s.sidc) (hp : pt < 24) :
    ∃ t, exec (.phasePropagate d) s = .next t ∧ (t.die d).copy pt = { ph := ph, errh := eh } ∧
      (e = 0 → (t.die d).rdverr = (s.die d).rdverr) ∧
      (e ≠ 0 → (t.die d).rdverr.toNat = 2 ^ 15 + pt * 256 + e.toNat % 256) := by
  have hd : ((RdvMsg.phase pt ph eh e a).isPhase && (RdvMsg.phase pt ph eh e a).dueAt s.sidc) = true := decide_eq_true ha
  have hl : (s.die d).msgs.filter (fun m => m.isPhase && m.dueAt s.sidc) = [.phase pt ph eh e a] := by
    rw [hm, List.filter_cons, if_pos hd, List.filter_nil]
  refine ⟨_, exec_phasePropagate d s, ?_⟩
  rw [die_setDie, hl, List.foldl_cons, List.foldl_nil]
  exact ⟨(copy_showPhase ..).trans (if_pos rfl), rdverr_showPhase _ _ pt ph eh e hp⟩

end Sys2Proof.Machine

section
open Sys2Proof Sys2Proof.Machine

/-- Settles O16: RDVW and RDVT by the state in which the phase is consumed; RDVI_APPLY by induction over the die's messages;
ARRIVAL_COUNT by an invariant of the points tried so far; PHASE_PROPAGATE by induction over the due phases. -/
theorem rendezvousPhases : Obligations.RendezvousPhases := by
  unfold Obligations.RendezvousPhases
  refine ⟨?_, rdviApply_counts, arrivalCount_phases, fun r _ _ => ⟨List.length_drop .., rfl, rfl, errh_complete r, ?_, ?_⟩,
    arrivalCount_single, phasePropagate_shows, phasePropagate_single⟩
  · rintro s pt d w rfl
    refine ⟨waitKind_rdvw_none s pt d, fun h => ?_, rdvw_consumes pt d, ?_⟩
    · rw [Raises, exec_rdvw_exchange pt d h]
      exact raise_trapped ..
    · refine ⟨_, rfl, fun e => ?_⟩
      rw [mem_tested_rdvt, bne_iff_ne]
  · exact fun h => firstErr_eq_zero.2 h
  · intro ok e bad h hok he
    exact (congrArg firstErr h).trans (firstErr_append hok he)
end

-- ## Taking a trap (R24, R288 to R292, R297)

namespace Sys2Proof.Machine

/-- The order of R289: rank, order within it, position, stream. -/
theorem before_iff (a b : CauseRec) : a.before b = true ↔ a.rank < b.rank ∨ a.rank = b.rank ∧ (a.order < b.order ∨ a.order = b.order ∧
    (a.pos.val < b.pos.val ∨ a.pos.val = b.pos.val ∧ a.strm.idx.val < b.strm.idx.val)) := by
  unfold CauseRec.before
  by_cases hr : a.rank = b.rank
  · rw [if_neg (by simpa using hr)]
    by_cases ho : a.order = b.order
    · rw [if_neg (by simpa using ho)]
      by_cases hp : a.pos = b.pos
      · rw [if_neg (by simpa using hp)]
        simp [hr, ho, hp]
      · have hv : a.pos.val ≠ b.pos.val := fun h => hp (Fin.ext h)
        rw [if_pos (by simpa using hp)]
        simp [hr, ho, hv]
    · rw [if_pos (by simpa using ho)]
      simp [hr, ho]
  · rw [if_pos (by simpa using hr)]
    simp [hr]

theorem firstCause_cons_of_none {a : CauseRec} {l : List CauseRec} (h : firstCause l = none) : firstCause (a :: l) = some a := by
  rw [firstCause, h]

theorem firstCause_cons_of_some {a d : CauseRec} {l : List CauseRec} (h : firstCause l = some d) :
    firstCause (a :: l) = some (if d.before a then d else a) := by
  rw [firstCause, h]
  exact (apply_ite some ..).symm

theorem firstCause_eq_none {l : List CauseRec} : firstCause l = none ↔ l = [] := by
  cases l with
  | nil => exact ⟨fun _ => rfl, fun _ => rfl⟩
  | cons a l =>
    refine ⟨fun h => ?_, fun h => by cases h⟩
    cases hl : firstCause l with
    | none => rw [firstCause_cons_of_none hl] at h; cases h
    | some d => rw [firstCause_cons_of_some hl] at h; cases h

theorem before_irrefl (a : CauseRec) : ¬a.before a = true := by
  rw [before_iff]
  omega

/-- A record that is not before `b`, which is not before `a`, is not before `a`. -/
theorem not_before_trans {a b e : CauseRec} (h : ¬e.before b = true) (k : ¬b.before a = true) : ¬e.before a = true := by
  rw [before_iff] at *
  omega

theorem not_before_of_before {a b : CauseRec} (h : b.before a = true) : ¬a.before b = true := by
  rw [before_iff] at *
  omega

/-- The first cause of a cycle is one of them, and none comes before it. -/
theorem firstCause_some : ∀ {l : List CauseRec} {c : CauseRec}, firstCause l = some c → c ∈ l ∧ ∀ e ∈ l, ¬e.before c = true
  | a :: l, c, h => by
    cases hl : firstCause l with
    | none =>
      rw [firstCause_cons_of_none hl] at h
      obtain rfl := firstCause_eq_none.1 hl
      obtain rfl := Option.some.inj h
      exact ⟨List.mem_singleton_self a, fun e he => List.mem_singleton.1 he ▸ before_irrefl a⟩
    | some d =>
      rw [firstCause_cons_of_some hl] at h
      obtain rfl := Option.some.inj h
      obtain ⟨hm, hb⟩ := firstCause_some hl
      by_cases hd : d.before a = true
      · rw [if_pos hd]
        exact ⟨List.mem_cons_of_mem _ hm, List.forall_mem_cons.2 ⟨not_before_of_before hd, hb⟩⟩
      · rw [if_neg hd]
        exact ⟨List.mem_cons_self .., List.forall_mem_cons.2 ⟨before_irrefl a, fun e he => not_before_trans (hb e he) hd⟩⟩

/-- In the order of R289 a later record is not less in its first different field. -/
theorem not_before_iff (e c : CauseRec) : ¬e.before c = true ↔ c.rank ≤ e.rank ∧ (e.rank = c.rank → c.order ≤ e.order ∧
    (e.order = c.order → c.pos ≤ e.pos ∧ (e.pos = c.pos → c.strm.idx ≤ e.strm.idx))) := by
  rw [before_iff, Fin.le_def, Fin.le_def, Fin.ext_iff]
  omega

-- TRAPCAUSE and TRAPPOS (R291).

theorem trapcauseOf_toNat (c : CauseRec) (multi u : Bool) : (trapcauseOf c multi u).toNat =
    2 ^ 63 + multi.toNat * 2 ^ 62 + u.toNat * 2 ^ 61 + (c.sub.toNat * 2 ^ 16 + (causeCode c.cause).toNat) := by
  simp only [trapcauseOf, toNat_append_eq_add, BitVec.toNat_ofBool, BitVec.toNat_ofNat]
  omega

theorem trapcauseOf_bits (c : CauseRec) (multi u : Bool) : (trapcauseOf c multi u).getLsbD 63 = true ∧
    (trapcauseOf c multi u).getLsbD 62 = multi ∧ (trapcauseOf c multi u).getLsbD 61 = u := by
  simp only [trapcauseOf, BitVec.getLsbD_append]
  exact ⟨rfl, getLsbD_b1 multi, getLsbD_b1 u⟩

theorem trapcauseOf_mod (c : CauseRec) (multi u : Bool) :
    (trapcauseOf c multi u).toNat % 2 ^ 61 = c.sub.toNat * 2 ^ 16 + (causeCode c.cause).toNat := by
  rw [trapcauseOf_toNat]
  have hs := c.sub.isLt
  have hc := (causeCode c.cause).isLt
  omega

theorem trapposOf_named {c : CauseRec} (n : Nat) (h : c.named = true) : (trapposOf c n).toNat =
    c.strm.idx.val * 2 ^ 60 + c.pos.val * 2 ^ 53 + c.parcel.toNat * 2 ^ 32 + n % 2 ^ 32 := by
  have hs := c.strm.idx.isLt
  have hp := c.pos.isLt
  rw [trapposOf, if_pos h]
  simp only [toNat_append_eq_add, BitVec.toNat_ofNat]
  rw [Nat.mod_eq_of_lt (show c.strm.idx.val < 2 ^ 2 from hs), Nat.mod_eq_of_lt (show c.pos.val < 2 ^ 7 from hp)]
  omega

theorem trapposOf_unnamed {c : CauseRec} (n : Nat) (h : c.named = false) : (trapposOf c n).toNat = n % 2 ^ 32 := by
  rw [trapposOf, if_neg (by simp [h]), BitVec.toNat_ofNat]
  omega

-- Which causes go to the handler (R290).

/-- A cause is diverted where divert is on for its class and it is none of the two that are always reported. -/
theorem diverted_iff (h : Hsta) (c : Cause) : diverted h c = true ↔
    h.den = true ∧ h.dcls.getLsbD (causeClass c) = true ∧ c ≠ .imemUncorrectable ∧ c ≠ .debugStop := by
  unfold diverted
  split
  · simp
  · simp
  · next h1 h2 =>
    simp only [Bool.and_true, Bool.and_eq_true]
    exact ⟨fun ⟨a, b⟩ => ⟨a, b, h1, h2⟩, fun ⟨a, b, _⟩ => ⟨a, b⟩⟩

theorem undiverted_isEmpty (h : Hsta) (l : List CauseRec) :
    (undiverted h l).isEmpty = true ↔ ∀ e ∈ l, diverted h e.cause = true := by
  simp [undiverted, List.isEmpty_iff]

theorem mem_undiverted (h : Hsta) (l : List CauseRec) (k : Byte) (q : Pos) :
    (k, q) ∈ undiverted h l ↔ ∃ e ∈ l, ¬diverted h e.cause = true ∧ k = causeCode e.cause ∧ q = e.pos := by
  simp only [undiverted, List.mem_map, List.mem_filter, Bool.not_eq_true', Bool.not_eq_true,
    Prod.mk.injEq, and_assoc, eq_comm (a := k), eq_comm (a := q)]

-- The issue latches after a freeze (R297).

/-- The context of a stream with its issue latch as a freeze leaves it. -/
def Die.latchedCtx (d : Die) (p : Pos) (st : Strm) : Ctx :=
  match d.latchNow.find? fun t => t.1 == p && t.2.1 == st with
  | some t => { (d.sta p).ctxOf st with latch := { v := true, replay := false, parcel := t.2.2.1, cause := t.2.2.2 } }
  | none => { (d.sta p).ctxOf st with latch := {} }

theorem get_latchesOf (d : Die) (p : Pos) : (latchesOf d).get p = { d.sta p with ctx :=
    { x0 := d.latchedCtx p .c, x1 := d.latchedCtx p .l, x2 := d.latchedCtx p .s, x3 := d.latchedCtx p .x } } := by
  have h : (latchesOf d).get p = (latchesOf d)[p.val] := rfl
  rw [h, latchesOf, Vector.getElem_map, Vector.getElem_finRange]
  rfl

theorem ctxOf_latchesOf (d : Die) (p : Pos) (st : Strm) : ((latchesOf d).get p).ctxOf st = d.latchedCtx p st := by
  rw [get_latchesOf]
  cases st <;> rfl

theorem latchedCtx_frame (d : Die) (p : Pos) (st : Strm) :
    ({ d.latchedCtx p st with latch := {} } : Ctx) = { (d.sta p).ctxOf st with latch := {} } := by
  unfold Die.latchedCtx
  split <;> rfl

theorem latch_of_none {d : Die} {p : Pos} {st : Strm} (h : ∀ t ∈ d.latchNow, ¬(t.1 = p ∧ t.2.1 = st)) :
    (d.latchedCtx p st).latch = {} := by
  have hf : (d.latchNow.find? fun t => t.1 == p && t.2.1 == st) = none := by simpa using h
  simp only [Die.latchedCtx, hf]

theorem latch_of_single {d : Die} {p : Pos} {st : Strm} {q : Parcel} {k : Byte} (h : d.latchNow = [(p, st, q, k)]) :
    (d.latchedCtx p st).latch = { v := true, replay := false, parcel := q, cause := k } := by
  have hf : (d.latchNow.find? fun t => t.1 == p && t.2.1 == st) = some (p, st, q, k) := by simp [h]
  simp only [Die.latchedCtx, hf]

/-- A freeze on the causes of a cycle. -/
theorem freeze_eq {d : Die} {c : CauseRec} (sidc : Nat) (u : Bool) (h : firstCause d.causes = some c) : d.freeze sidc u = { d with
    cond := .frozen, unexec := u, sfrz := sidc, causes := [], latchNow := [],
    trapcause := trapcauseOf c (decide (d.causes.length > 1)) u, trappos := trapposOf c d.dcyc,
    handlerNext := (undiverted d.hsta d.causes).isEmpty, reports := undiverted d.hsta d.causes, stations := latchesOf d } := by
  simp only [Die.freeze, h]

/-- What a freeze leaves: the trap's registers, the diversion, the reports and the issue latches (R288 to R292, R297). -/
theorem freeze_fields {d f : Die} {sidc : Nat} {u : Bool} {c : CauseRec} (h : firstCause d.causes = some c) (hf : f = d.freeze sidc u) :
    f.cond = .frozen ∧ f.dcyc = d.dcyc ∧ f.sfrz = sidc ∧ f.unexec = u ∧ f.causes = [] ∧
    f.trapcause.getLsbD 63 = true ∧ f.trapcause.getLsbD 62 = decide (1 < d.causes.length) ∧ f.trapcause.getLsbD 61 = u ∧
    f.trapcause.toNat % 2 ^ 61 = c.sub.toNat * 2 ^ 16 + (causeCode c.cause).toNat ∧
    (c.named = true → f.trappos.toNat = c.strm.idx.val * 2 ^ 60 + c.pos.val * 2 ^ 53 + c.parcel.toNat * 2 ^ 32 + d.dcyc % 2 ^ 32) ∧
    (c.named = false → f.trappos.toNat = d.dcyc % 2 ^ 32) ∧
    let goes (e : CauseRec) : Prop := d.hsta.den = true ∧ d.hsta.dcls.getLsbD (causeClass e.cause) = true ∧
      e.cause ≠ .imemUncorrectable ∧ e.cause ≠ .debugStop
    (f.handlerNext = true ↔ ∀ e ∈ d.causes, goes e) ∧
    (∀ k q, (k, q) ∈ f.reports ↔ ∃ e ∈ d.causes, ¬goes e ∧ k = causeCode e.cause ∧ q = e.pos) ∧
    ∀ p st, ({ f.sta p with ctx := (d.sta p).ctx } : Station) = d.sta p ∧
      ({ (f.sta p).ctxOf st with latch := {} } : Ctx) = { (d.sta p).ctxOf st with latch := {} } ∧
      ((∀ t ∈ d.latchNow, ¬(t.1 = p ∧ t.2.1 = st)) → ((f.sta p).ctxOf st).latch.v = false) ∧
      ∀ q k, d.latchNow = [(p, st, q, k)] → ((f.sta p).ctxOf st).latch = { v := true, replay := false, parcel := q, cause := k } := by
  rw [hf, freeze_eq sidc u h]
  obtain ⟨b63, b62, b61⟩ := trapcauseOf_bits c (decide (d.causes.length > 1)) u
  refine ⟨rfl, rfl, rfl, rfl, rfl, b63, b62, b61, trapcauseOf_mod .., trapposOf_named _, trapposOf_unnamed _, ?_, ?_, fun p st => ?_⟩
  · simp only [undiverted_isEmpty, diverted_iff]
  · simp only [mem_undiverted, diverted_iff, implies_true]
  · have hsta : (latchesOf d).get p = { d.sta p with ctx := ((latchesOf d).get p).ctx } := by rw [get_latchesOf]
    refine ⟨?_, ?_, fun hn => ?_, fun q k hl => ?_⟩
    · change ({ (latchesOf d).get p with ctx := (d.sta p).ctx } : Station) = d.sta p
      rw [hsta]
    · change ({ ((latchesOf d).get p).ctxOf st with latch := {} } : Ctx) = _
      rw [ctxOf_latchesOf, latchedCtx_frame]
    · change (((latchesOf d).get p).ctxOf st).latch.v = false
      rw [ctxOf_latchesOf, latch_of_none hn]
    · change (((latchesOf d).get p).ctxOf st).latch = _
      rw [ctxOf_latchesOf, latch_of_single hl]

end Sys2Proof.Machine

-- ## Freezing a die, the end of its cycle (R24, R281, R284, R292, R294, R298)

namespace Sys2Proof.Machine

/-- A STOP of a die is due. -/
theorem stopDue_iff (s : State) (x : Die) : s.stopDue x = true ↔ ∃ n, x.stopAt = some n ∧ n ≤ s.sidc := by
  unfold State.stopDue
  split
  · next t h => simp [h]
  · next h => simp [h]

/-- The base camp is told of a die's causes: its report cycle alone changes (R292). -/
theorem tellCamp_die (s : State) (d : DieId) :
    ∃ n, (s.tellCamp d).die d = { s.die d with reportAt := some n } ∧ s.sidc + 99 ≤ n ∧
      (s.tellCamp d).dies = (s.setDie d { s.die d with reportAt := some n }).dies := by
  refine ⟨s.sidc + 99 + s.fresh, die_setDie .., Nat.le_add_right .., rfl⟩

/-- In state `t` die `d`, `z` before in state `s`, has frozen on its causes: the handler follows, or the base camp learns of them. -/
structure Freezes (s : State) (d : DieId) (z : Die) (held : Bool) (t : State) : Prop where
  dies : t.dies = (s.setDie d (t.die d)).dies
  memory : SameMemory s t
  die : t.die d = { z.freeze s.sidc held with stopAt := none, handlerNext := (t.die d).handlerNext, reportAt := (t.die d).reportAt }
  next : (t.die d).handlerNext = true ↔ (z.freeze s.sidc held).handlerNext = true ∧ ¬∃ n, z.stopAt = some n ∧ n ≤ s.sidc
  kept : (z.freeze s.sidc held).handlerNext = true → (t.die d).reportAt = z.reportAt
  told : (z.freeze s.sidc held).handlerNext = false → ∃ n, (t.die d).reportAt = some n ∧ s.sidc + 99 ≤ n

theorem freeze_reportAt (d : Die) (sidc : Nat) (u : Bool) : (d.freeze sidc u).reportAt = d.reportAt := by
  unfold Die.freeze
  split <;> rfl

theorem freezeDie_freezes (s : State) (d : DieId) (z : Die) (held : Bool) : Freezes s d z held ((s.setDie d z).freezeDie d held) := by
  obtain ⟨x, hx⟩ : ∃ x, x = { z.freeze s.sidc held with stopAt := none, handlerNext := (z.freeze s.sidc held).handlerNext && !s.stopDue z } :=
    ⟨_, rfl⟩
  have h : (s.setDie d z).freezeDie d held = if (z.freeze s.sidc held).handlerNext then s.setDie d x else (s.setDie d x).tellCamp d := by
    unfold State.freezeDie
    dsimp only
    rw [die_setDie, setDie_setDie, setDie_sidc, hx]
    rfl
  have hn : x.handlerNext = true ↔ (z.freeze s.sidc held).handlerNext = true ∧ ¬∃ n, z.stopAt = some n ∧ n ≤ s.sidc := by
    rw [hx, ← stopDue_iff]
    simp
  have hr : x.reportAt = z.reportAt := by rw [hx]; exact freeze_reportAt ..
  rw [h]
  by_cases hh : (z.freeze s.sidc held).handlerNext = true
  · rw [if_pos hh]
    refine ⟨by rw [die_setDie], ⟨fun _ => rfl, fun _ => rfl⟩, ?_, ?_, fun _ => ?_, fun hf => ?_⟩
    · rw [die_setDie, hx]
    · rw [die_setDie, hn]
    · rw [die_setDie, hr]
    · exact absurd hh (by simp [hf])
  · rw [if_neg hh]
    obtain ⟨n, h1, h2, h3⟩ := tellCamp_die (s.setDie d x) d
    rw [die_setDie] at h1 h3
    refine ⟨?_, ⟨fun _ => rfl, fun _ => rfl⟩, ?_, ?_, fun hf => absurd hf hh, fun _ => ⟨n, ?_, h2⟩⟩
    · rw [h3, h1, setDie_setDie]
    · rw [h1, hx]
    · rw [h1, hn]
    · rw [h1]

-- The monitors of a die (R314).

/-- The monitors of die `d` whose conditions hold. -/
def State.monHits (s : State) (d : DieId) : KMap Monitor := (s.die d).monitors.filter fun e => s.monHit d e.2

/-- Those of them that had not fired. -/
def State.monNew (s : State) (d : DieId) : KMap Monitor := (s.monHits d).filter fun e => !e.2.fired

/-- The monitors of die `d` with those whose conditions hold counted. -/
def State.monCounts (s : State) (d : DieId) : KMap Monitor :=
  (s.monHits d).foldl (fun m e => kput {} e.1 e.2.count m) (s.die d).monitors

theorem monitors_quiet {s : State} {d : DieId} (h : s.monNew d = []) :
    s.monitors d = s.setDie d { s.die d with monitors := s.monCounts d } := by
  unfold State.monNew State.monHits at h
  simp only [State.monitors, h, List.any_nil, Bool.false_eq_true, if_false]
  rfl

/-- A die without monitors has nothing to watch. -/
theorem monitors_none {s : State} {d : DieId} (h : (s.die d).monitors = []) : s.monitors d = s := by
  have hh : s.monHits d = [] := by rw [State.monHits, h, List.filter_nil]
  have hn : s.monNew d = [] := by rw [State.monNew, hh, List.filter_nil]
  rw [monitors_quiet hn, State.monCounts, hh, List.foldl_nil]
  exact setDie_die s d

theorem settleTask_none {s : State} {d : DieId} (h : (s.die d).ended = none) : settleTask d s = .next s := by
  unfold settleTask
  rw [h]

theorem settleTask_some {s : State} {d : DieId} {pre : Bool} (h : (s.die d).ended = some pre) :
    settleTask d s = .next (s.settleRun d pre) := by
  unfold settleTask
  rw [h]

/-- The die with the causes that reach it from outside among those of its executed cycle. -/
def Die.allCauses (x : Die) : Die :=
  { x with ended := none, late := [], asyncs := [], causes := x.causes ++ x.late ++ x.asyncs }

/-- The settling of an executed cycle of a die without monitors, by what ends it (R24, R281, R284, R298). -/
theorem settleRun_eq {s : State} {d : DieId} (pre : Bool) (h : (s.die d).monitors = []) : s.settleRun d pre =
    if !(s.die d).allCauses.causes.isEmpty then (s.setDie d (s.die d).allCauses).freezeDie d false
    else if s.stopDue (s.die d).allCauses then s.setDie d ((s.die d).allCauses.freezeQuiet s.sidc false)
    else if s.preemptHere (s.die d).allCauses pre then { s.setDie d (s.die d).allCauses with agenda := .ev (.preemptionFreeze d) :: s.agenda }
    else s.setDie d ((s.die d).allCauses.nextCycle s.sidc) := by
  have hz : (({ s.die d with ended := none } : Die).takeLate.takeAsyncs) = (s.die d).allCauses := rfl
  have hm : (s.setDie d (s.die d).allCauses).monitors d = s.setDie d (s.die d).allCauses :=
    monitors_none (by rw [die_setDie]; exact h)
  unfold State.settleRun
  dsimp only
  rw [hz, hm, die_setDie, setDie_setDie, setDie_setDie]
  rfl

/-- A quiet freeze names no cause (R291, R292). -/
theorem freezeQuiet_fields (z : Die) (sidc : Nat) : (z.freezeQuiet sidc false).cond = .frozen ∧ (z.freezeQuiet sidc false).dcyc = z.dcyc ∧
    (z.freezeQuiet sidc false).trapcause.toNat = 2 ^ 63 ∧ (z.freezeQuiet sidc false).trappos.toNat = z.dcyc % 2 ^ 32 ∧
    (z.freezeQuiet sidc false).handlerNext = false := by
  refine ⟨rfl, rfl, rfl, ?_, rfl⟩
  change (BitVec.ofNat 64 (z.dcyc % 2 ^ 32)).toNat = _
  rw [BitVec.toNat_ofNat]
  omega

theorem preemptHere_iff (s : State) (x : Die) (pre : Bool) :
    s.preemptHere x pre = true ↔ (∃ n, x.preemptAt = some n ∧ n ≤ s.sidc) ∧ x.xch = false ∧ pre = true := by
  unfold State.preemptHere
  split
  · next w h => simp [h, and_assoc]
  · next h => simp [h]

/-- The settling of the cycle of a die without monitors (R24, R281, R284, R298). -/
theorem settleTask_ends {s : State} {d : DieId} {pre : Bool} {z : Die} (h : (s.die d).ended = some pre) (hm : (s.die d).monitors = [])
    (hz : z = (s.die d).allCauses) :
    let stop : Prop := ∃ n, z.stopAt = some n ∧ n ≤ s.sidc
    let switch : Prop := (∃ n, z.preemptAt = some n ∧ n ≤ s.sidc) ∧ z.xch = false ∧ pre = true
    ∃ t, settleTask d s = .next t ∧
      (z.causes ≠ [] → Freezes s d z false t) ∧
      (z.causes = [] → stop → t = s.setDie d (z.freezeQuiet s.sidc false)) ∧
      (z.causes = [] → ¬stop → switch → t = { s.setDie d z with agenda := .ev (.preemptionFreeze d) :: s.agenda }) ∧
      (z.causes = [] → ¬stop → ¬switch → t = s.setDie d (if s.sidc + 1 < z.notBefore then { z with cond := .waiting }
        else { z with dcyc := z.dcyc + 1, notBefore := 0 })) := by
  intro stop switch
  refine ⟨_, settleTask_some h, ?_⟩
  rw [settleRun_eq pre hm, ← hz]
  have hs : s.stopDue z = true ↔ stop := stopDue_iff s z
  have hp : s.preemptHere z pre = true ↔ switch := preemptHere_iff s z pre
  refine ⟨fun hc => ?_, fun hc h1 => ?_, fun hc h1 h2 => ?_, fun hc h1 h2 => ?_⟩
  · rw [if_pos (by simpa using hc)]
    exact freezeDie_freezes s d z false
  all_goals rw [if_neg (by simp [hc])]
  · rw [if_pos (hs.2 h1)]
  · rw [if_neg (hs.not.2 h1), if_pos (hp.2 h2)]
  · rw [if_neg (hs.not.2 h1), if_neg (hp.not.2 h2)]
    rfl

-- The close of a cycle (R294, R296).

theorem preRetires_iff (l : List Eoc) : preRetires l = true ↔ ∃ p st v, Eoc.rsec p st v true ∈ l := by
  unfold preRetires
  rw [List.any_eq_true]
  constructor
  · rintro ⟨e, he, h⟩
    split at h
    · next p st v pre => exact ⟨p, st, v, h ▸ he⟩
    · cases h
  · rintro ⟨p, st, v, he⟩
    exact ⟨_, he, rfl⟩

theorem closeTask_running {s : State} {d : DieId} (h : (s.die d).cond = .running) :
    closeTask d s = .next ((s.applyEoc d).setDie d { (s.applyEoc d).die d with ended := some (preRetires (s.die d).eoc) }) := by
  rw [closeTask, if_pos h]
  rfl

theorem closeTask_still {s : State} {d : DieId} (h : (s.die d).cond ≠ .running) : closeTask d s = .next (s.closeStill d) := by
  rw [closeTask, if_neg h]

/-- A die with one more cycle of an alignment wait counted. -/
def Die.waits (x : Die) : Die := { x with tele := { x.tele with await := x.tele.await + 1 } }

theorem closeStill_held {s : State} {d : DieId} (h : ((s.applyEoc d).die d).cond = .held) : s.closeStill d =
    if !((s.applyEoc d).die d).takeAsyncs.causes.isEmpty then
      ((s.applyEoc d).setDie d ((s.applyEoc d).die d).takeAsyncs).freezeDie d true
    else if (s.applyEoc d).stopDue ((s.applyEoc d).die d) then
      (s.applyEoc d).setDie d (((s.applyEoc d).die d).freezeQuiet (s.applyEoc d).sidc true)
    else s.applyEoc d := by
  simp only [State.closeStill, h]

theorem closeStill_waiting {s : State} {d : DieId} (h : ((s.applyEoc d).die d).cond = .waiting) : s.closeStill d =
    if !((s.applyEoc d).die d).takeAsyncs.causes.isEmpty then
      ((s.applyEoc d).setDie d ((s.applyEoc d).die d).takeAsyncs.waits).freezeDie d false
    else if (s.applyEoc d).stopDue ((s.applyEoc d).die d) then
      (s.applyEoc d).setDie d (((s.applyEoc d).die d).takeAsyncs.waits.freezeQuiet (s.applyEoc d).sidc false)
    else (s.applyEoc d).setDie d ((s.applyEoc d).die d).takeAsyncs.waits := by
  simp only [State.closeStill, h]
  rfl

theorem closeStill_idle {s : State} {d : DieId} (h : ((s.applyEoc d).die d).cond = .idle) : s.closeStill d =
    (s.applyEoc d).setDie d { (s.applyEoc d).die d with asyncs := [], late := [], causes := [] } := by
  simp only [State.closeStill, h]

theorem closeStill_frozen {s : State} {d : DieId}
    (h : ((s.applyEoc d).die d).cond = .frozen ∨ ((s.applyEoc d).die d).cond = .handler) : s.closeStill d = s.applyEoc d := by
  obtain h | h := h <;> simp only [State.closeStill, h]

end Sys2Proof.Machine

-- ## The end of handler mode and its entry (R293, R294, R296)

namespace Sys2Proof.Machine

/-- A bit of a word whose field of `w` bits from `lo` on is set to `v`. -/
theorem getLsbD_setFld {n : Nat} (x : BitVec n) (lo w v k : Nat) (hk : k < n) : (setFld x lo w v).getLsbD k =
    if lo ≤ k ∧ k < lo + w then v.testBit (k - lo) else x.getLsbD k := by
  unfold setFld
  rw [BitVec.getLsbD_or, BitVec.getLsbD_and, BitVec.getLsbD_not, BitVec.getLsbD_ofNat, BitVec.getLsbD_ofNat, decide_eq_true hk,
    Bool.true_and, Bool.true_and, Bool.true_and, Nat.testBit_mul_two_pow, Nat.testBit_mul_two_pow, Nat.testBit_two_pow_sub_one,
    Nat.testBit_mod_two_pow]
  by_cases h1 : lo ≤ k
  · by_cases h2 : k < lo + w
    · have h3 : k - lo < w := by omega
      simp [h1, h2, h3]
    · have h3 : ¬k - lo < w := by omega
      simp [h1, h2, h3]
  · simp [h1]

theorem toNat_setFld_field (x : W64) (v : Byte) : (setFld x 8 8 v.toNat).toNat / 256 % 256 = v.toNat := by
  refine Nat.eq_of_testBit_eq fun k => ?_
  rw [show 256 = 2 ^ 8 from rfl, Nat.testBit_mod_two_pow, Nat.testBit_div_two_pow]
  by_cases hk : k < 8
  · have h := getLsbD_setFld x 8 8 v.toNat (k + 8) (by omega)
    rw [if_pos (by omega), Nat.add_sub_cancel] at h
    rw [decide_eq_true hk, Bool.true_and]
    exact h
  · rw [decide_eq_false hk, Bool.false_and]
    exact (BitVec.getLsbD_of_ge v k (by omega)).symm

theorem toNat_setFld_low (x : W64) (lo w v : Nat) (hl : 8 ≤ lo) : (setFld x lo w v).toNat % 256 = x.toNat % 256 := by
  refine Nat.eq_of_testBit_eq fun k => ?_
  rw [show 256 = 2 ^ 8 from rfl, Nat.testBit_mod_two_pow, Nat.testBit_mod_two_pow]
  by_cases hk : k < 8
  · have h := getLsbD_setFld x lo w v k (by omega)
    rw [if_neg (by omega)] at h
    exact congrArg (decide (k < 8) && ·) h
  · rw [decide_eq_false hk, Bool.false_and, Bool.false_and]

/-- NCAUSE and the nesting bit of TRAPCAUSE (R294). -/
theorem nest_trapcause (x : Die) (c : CauseRec) : (x.nest c).trapcause.getLsbD 60 = true ∧
    (x.nest c).trapcause.toNat / 256 % 256 = (causeCode c.cause).toNat ∧
    (x.nest c).trapcause.toNat % 256 = x.trapcause.toNat % 256 := by
  refine ⟨?_, toNat_setFld_field _ _, ?_⟩
  · change (setFld (setFld x.trapcause 60 1 1) 8 8 (causeCode c.cause).toNat).getLsbD 60 = true
    rw [getLsbD_setFld _ _ _ _ _ (by decide), if_neg (by decide), getLsbD_setFld _ _ _ _ _ (by decide)]
    rfl
  · exact (toNat_setFld_low _ 8 8 _ (by decide)).trans (toNat_setFld_low _ 60 1 1 (by decide))

/-- What the end of handler mode leaves: the frozen die with its timetable context back (R293, R294). -/
theorem handlerOver_fields (x : Die) : x.handlerOver.cond = .frozen ∧ x.handlerOver.saved = none ∧ x.handlerOver.hctx = none ∧
    x.handlerOver.hwrites = [] ∧ x.handlerOver.handlerNext = false ∧ x.handlerOver.causes = [] ∧ x.handlerOver.trappos = x.trappos ∧
    x.handlerOver.dcyc = x.dcyc ∧ x.handlerOver.hsta = x.hsta ∧ x.handlerOver.trapcause = x.trapcause ∧
    (∀ p, p ≠ x.hpos → x.handlerOver.sta p = x.sta p) ∧
    ∀ k, x.saved = some k → x.handlerOver.sta x.hpos = { (x.sta x.hpos).setCtx .c k.ctx with s := k.s, div := k.div } := by
  cases h : x.saved with
  | none =>
    have e : x.swapIn = x := by rw [Die.swapIn, h]
    unfold Die.handlerOver
    rw [e]
    exact ⟨rfl, h, rfl, rfl, rfl, rfl, rfl, rfl, rfl, rfl, fun _ _ => rfl, fun k hk => by cases hk⟩
  | some k =>
    have e : x.swapIn = { x.setSta x.hpos { (x.sta x.hpos).setCtx .c k.ctx with s := k.s, div := k.div } with
        saved := none, hctx := some { ctx := (x.sta x.hpos).ctxOf .c, s := (x.sta x.hpos).s, div := (x.sta x.hpos).div } } := by
      rw [Die.swapIn, h]
    unfold Die.handlerOver
    rw [e]
    refine ⟨rfl, rfl, rfl, rfl, rfl, rfl, rfl, rfl, rfl, rfl, fun p hp => sta_setSta_ne _ _ _ _ hp.symm, ?_⟩
    rintro _ ⟨⟩
    exact sta_setSta ..

/-- The causes of a die with the positions they name, as the base camp learns of them. -/
def causeReports (l : List CauseRec) : List (Byte × Pos) := l.map fun k => (causeCode k.cause, k.pos)

theorem mem_causeReports (l : List CauseRec) (k : Byte) (q : Pos) :
    (k, q) ∈ causeReports l ↔ ∃ e ∈ l, k = causeCode e.cause ∧ q = e.pos := by
  simp only [causeReports, List.mem_map, Prod.mk.injEq, eq_comm]

/-- The state in which a handler's end is reported: die `d` is frozen, `y` before. -/
def State.handlerEnds (u : State) (d : DieId) (y : Die) (l : List (Byte × Pos)) : State :=
  (u.setDie d { y.handlerOver with reports := l }).tellCamp d

theorem hcloseTask_other {s u : State} {d : DieId} (hu : u = (s.applyFrz d).applyEoc d) (h : (u.die d).cond ≠ .handler) :
    hcloseTask d s = .next u := by
  rw [hcloseTask, ← hu, if_pos h]

theorem hcloseTask_cause {s u : State} {d : DieId} {c : CauseRec} (hu : u = (s.applyFrz d).applyEoc d) (h : (u.die d).cond = .handler)
    (hc : firstCause (u.die d).causes = some c) :
    hcloseTask d s = .next (u.handlerEnds d ((u.die d).nest c) (causeReports (u.die d).causes)) := by
  rw [hcloseTask, ← hu, if_neg (not_not.2 h), hc]
  rfl

theorem hcloseTask_exit {s u : State} {d : DieId} (hu : u = (s.applyFrz d).applyEoc d) (h : (u.die d).cond = .handler)
    (hc : (u.die d).causes = []) (hr : (((u.die d).sta (u.die d).hpos).ctxOf .c).retired = true) :
    hcloseTask d s = .next (u.handlerEnds d (u.die d)
      [(fld (u.die d).trapcause 0 8, Fin.ofNat 128 (fld (u.die d).trappos 53 7 : BitVec 7).toNat)]) := by
  rw [hcloseTask, ← hu, if_neg (not_not.2 h), firstCause_eq_none.2 hc]
  exact if_pos hr

theorem hcloseTask_runs {s u : State} {d : DieId} (hu : u = (s.applyFrz d).applyEoc d) (h : (u.die d).cond = .handler)
    (hc : (u.die d).causes = []) (hr : ¬(((u.die d).sta (u.die d).hpos).ctxOf .c).retired = true) : hcloseTask d s = .next u := by
  rw [hcloseTask, ← hu, if_neg (not_not.2 h), firstCause_eq_none.2 hc]
  exact if_neg hr

/-- What a reported end of handler mode leaves of the die: it stands frozen, and the base camp learns of the causes. -/
theorem handlerEnds_frozen (u : State) (d : DieId) (y : Die) (l : List (Byte × Pos)) : ∃ n,
    (u.handlerEnds d y l).die d = { y.handlerOver with reports := l, reportAt := some n } ∧ u.sidc + 99 ≤ n ∧
    (u.handlerEnds d y l).dies = (u.setDie d ((u.handlerEnds d y l).die d)).dies ∧ SameMemory u (u.handlerEnds d y l) := by
  obtain ⟨n, h1, h2, h3⟩ := tellCamp_die (u.setDie d { y.handlerOver with reports := l }) d
  rw [die_setDie] at h1 h3
  refine ⟨n, h1, h2, ?_, fun _ => rfl, fun _ => rfl⟩
  change _ = (u.setDie d (((u.setDie d { y.handlerOver with reports := l }).tellCamp d).die d)).dies
  rw [h1, ← setDie_setDie]
  exact h3

/-- A handler that ends leaves the die frozen, with the station's timetable context back (R293, R294). -/
theorem handlerEnds_fields {u : State} {d : DieId} {y : Die} (l : List (Byte × Pos)) (t : State) (ht : t = u.handlerEnds d y l) :
    ∃ n, t.dies = (u.setDie d (t.die d)).dies ∧ SameMemory u t ∧
      (t.die d).cond = .frozen ∧ (t.die d).saved = none ∧ (t.die d).hctx = none ∧ (t.die d).hwrites = [] ∧
      (t.die d).handlerNext = false ∧ (t.die d).causes = [] ∧ (t.die d).reportAt = some n ∧ u.sidc + 99 ≤ n ∧
      (t.die d).trappos = y.trappos ∧ (t.die d).dcyc = y.dcyc ∧ (∀ p, p ≠ y.hpos → (t.die d).sta p = y.sta p) ∧
      (∀ k, y.saved = some k → (t.die d).sta y.hpos = { (y.sta y.hpos).setCtx .c k.ctx with s := k.s, div := k.div }) ∧
      (t.die d).hsta = y.hsta ∧ (t.die d).trapcause = y.trapcause ∧ (t.die d).reports = l := by
  obtain ⟨n, h1, h2, h3, h4⟩ := handlerEnds_frozen u d y l
  obtain ⟨k1, k2, k3, k4, k5, k6, k7, k8, k9, k10, k11, k12⟩ := handlerOver_fields y
  rw [ht]
  refine ⟨n, h3, h4, ?_⟩
  rw [h1]
  exact ⟨k1, k2, k3, k4, k5, k6, rfl, h2, k7, k8, k11, k12, k9, k10, rfl⟩

/-- The end of handler mode on a cause or an EXIT (R294). -/
theorem hcloseTask_ends {s u : State} {d : DieId} {x : Die} (hu : u = (s.applyFrz d).applyEoc d) (hx : x = u.die d)
    (hc : x.cond = .handler) (he : x.causes ≠ [] ∨ ((x.sta x.hpos).ctxOf .c).retired = true) :
    ∃ t n, hcloseTask d s = .next t ∧ t.dies = (u.setDie d (t.die d)).dies ∧ SameMemory u t ∧
      (t.die d).cond = .frozen ∧ (t.die d).saved = none ∧ (t.die d).hctx = none ∧ (t.die d).hwrites = [] ∧
      (t.die d).handlerNext = false ∧ (t.die d).causes = [] ∧ (t.die d).reportAt = some n ∧ u.sidc + 99 ≤ n ∧
      (t.die d).trappos = x.trappos ∧ (t.die d).dcyc = x.dcyc ∧ (∀ p, p ≠ x.hpos → (t.die d).sta p = x.sta p) ∧
      (∀ k, x.saved = some k → (t.die d).sta x.hpos = { (x.sta x.hpos).setCtx .c k.ctx with s := k.s, div := k.div }) ∧
      (∀ c, firstCause x.causes = some c → (t.die d).hsta = { x.hsta with nest := true } ∧ (t.die d).trapcause.getLsbD 60 = true ∧
        (t.die d).trapcause.toNat / 256 % 256 = (causeCode c.cause).toNat ∧
        (t.die d).trapcause.toNat % 256 = x.trapcause.toNat % 256 ∧
        ∀ k q, (k, q) ∈ (t.die d).reports ↔ ∃ e ∈ x.causes, k = causeCode e.cause ∧ q = e.pos) ∧
      (x.causes = [] → (t.die d).hsta = x.hsta ∧ (t.die d).trapcause = x.trapcause ∧
        (t.die d).reports = [(fld x.trapcause 0 8, Fin.ofNat 128 (fld x.trappos 53 7 : BitVec 7).toNat)]) := by
  subst hx
  cases hf : firstCause (u.die d).causes with
  | none =>
    have hn := firstCause_eq_none.1 hf
    obtain ⟨n, h1, h2, h3, h4, h5, h6, h7, h8, h9, h10, h11, h12, h13, h14, h15⟩ := handlerEnds_fields (u := u) (d := d) (y := u.die d)
      [(fld (u.die d).trapcause 0 8, Fin.ofNat 128 (fld (u.die d).trappos 53 7 : BitVec 7).toNat)] _ rfl
    exact ⟨_, n, hcloseTask_exit hu hc hn (he.resolve_left (not_not.2 hn)), h1, h2, h3, h4, h5, h6, h7, h8, h9, h10, h11, h12, h13, h14,
      fun c hcc => (by cases hcc), fun _ => h15⟩
  | some c =>
    have hne : (u.die d).causes ≠ [] := fun h => by rw [firstCause_eq_none.2 h] at hf; cases hf
    obtain ⟨n, h1, h2, h3, h4, h5, h6, h7, h8, h9, h10, h11, h12, h13, h14, k1, k2, k3⟩ := handlerEnds_fields (u := u) (d := d)
      (y := (u.die d).nest c) (causeReports (u.die d).causes) _ rfl
    obtain ⟨b1, b2, b3⟩ := nest_trapcause (u.die d) c
    refine ⟨_, n, hcloseTask_cause hu hc hf, h1, h2, h3, h4, h5, h6, h7, h8, h9, h10, h11, h12, h13, h14, ?_, fun h => absurd h hne⟩
    rintro _ ⟨⟩
    rw [k1, k2, k3]
    exact ⟨rfl, b1, b2, b3, mem_causeReports _⟩

-- Entering the handler (R293).

/-- Reading a map of which the entries of some keys are kept. -/
theorem kget_filter_key {α : Type} (d : α) (p : Nat → Bool) (k : Nat) : ∀ m : KMap α,
    kget d k (m.filter fun e => p e.1) = if p k then kget d k m else d
  | [] => by simp [kget]
  | (i, v) :: t => by
    rw [List.filter_cons]
    by_cases hi : i = k
    · subst hi
      by_cases hp : p i = true
      · simp [hp, kget]
      · rw [if_neg hp, kget_filter_key d p i t, if_neg hp, if_neg hp]
    · have ht : kget d k ((i, v) :: t) = kget d k t := if_neg hi
      rw [ht, ← kget_filter_key d p k t]
      split
      · exact if_neg hi
      · rfl

theorem handlerEntry_other {s : State} {d : DieId} (h : (s.die d).handlerNext = false ∨ (s.die d).cond ≠ .frozen) :
    exec (.handlerEntry d) s = .next s := by
  refine if_pos ?_
  obtain h | h := h
  · simp [h]
  · simp [h]

/-- The C context of the handler at its entry: its header at HSTA.ENTRY is read in this cycle. -/
def handlerCtx (entry : Parcel) (sidc : Nat) : Ctx := { next := .hdr entry sidc 0, retired := false }

/-- A station at the entry of its handler: s48 to s63 kept, s0 to s47 zero. -/
def Station.handlerEntry (y : Station) (entry : Parcel) (sidc : Nat) : Station :=
  { y.setCtx .c (handlerCtx entry sidc) with s := y.s.filter fun e => decide (48 ≤ e.1), div := {} }

theorem handlerEntry_enters {s : State} {d : DieId} {x : Die} (hx : x = s.die d) (hn : x.handlerNext = true) (hc : x.cond = .frozen) :
    exec (.handlerEntry d) s = .next (s.setDie d { x.setSta x.hsta.pos ((x.sta x.hsta.pos).handlerEntry x.hsta.entry s.sidc) with
      cond := .handler, handlerNext := false, hpos := x.hsta.pos, hwrites := [], ghost := [], shade := [],
      saved := some { ctx := (x.sta x.hsta.pos).ctxOf .c, s := (x.sta x.hsta.pos).s, div := (x.sta x.hsta.pos).div } }) := by
  subst hx
  refine if_neg ?_
  simp [hn, hc]

/-- Entering the handler (R293). -/
theorem handlerEntry_cases (s : State) (d : DieId) :
    (((s.die d).handlerNext = false ∨ (s.die d).cond ≠ .frozen) → exec (.handlerEntry d) s = .next s) ∧
    ((s.die d).handlerNext = true → (s.die d).cond = .frozen → ∃ t x y c, exec (.handlerEntry d) s = .next t ∧ OnlyDie d s t ∧
      x = (s.die d).sta (s.die d).hsta.pos ∧ y = (t.die d).sta (s.die d).hsta.pos ∧ c = y.ctxOf .c ∧
      (t.die d).cond = .handler ∧ (t.die d).hpos = (s.die d).hsta.pos ∧ (t.die d).dcyc = (s.die d).dcyc ∧
      (t.die d).trapcause = (s.die d).trapcause ∧ (t.die d).trappos = (s.die d).trappos ∧
      (t.die d).saved = some { ctx := x.ctxOf .c, s := x.s, div := x.div } ∧
      (∀ p, p ≠ (s.die d).hsta.pos → (t.die d).sta p = (s.die d).sta p) ∧
      y = { x with ctx := y.ctx, s := y.s, div := {} } ∧ (∀ st, st ≠ .c → y.ctxOf st = x.ctxOf st) ∧
      (∀ k, kget 0 k y.s = if k < 48 then 0 else kget 0 k x.s) ∧
      c.next = .hdr (s.die d).hsta.entry s.sidc 0 ∧ c.q = 0 ∧ c.b = [] ∧ c.loops = [] ∧ c.calls = [] ∧ c.retired = false) := by
  refine ⟨handlerEntry_other, fun hn hc => ?_⟩
  generalize hx : s.die d = x at hn hc
  refine ⟨_, x.sta x.hsta.pos, (x.sta x.hsta.pos).handlerEntry x.hsta.entry s.sidc, handlerCtx x.hsta.entry s.sidc,
    handlerEntry_enters hx.symm hn hc, ?_, rfl, ?_, ?_, ?_⟩
  · rw [OnlyDie, die_setDie]
  · rw [die_setDie]
    exact (sta_setSta ..).symm
  · exact (ctxOf_setCtx (x.sta x.hsta.pos) .c (handlerCtx x.hsta.entry s.sidc)).symm
  · rw [die_setDie]
    refine ⟨rfl, rfl, rfl, rfl, rfl, rfl, fun p hp => sta_setSta_ne _ _ _ _ hp.symm, rfl, fun st hst => ctxOf_setCtx_ne _ _ _ _ hst.symm,
      fun k => ?_, rfl, rfl, rfl, rfl, rfl, rfl⟩
    change kget 0 k ((x.sta x.hsta.pos).s.filter fun e => decide (48 ≤ e.1)) = _
    rw [kget_filter_key 0 (fun k => decide (48 ≤ k))]
    by_cases hk : k < 48
    · rw [if_neg (by simp [hk]), if_pos hk]
    · rw [if_pos (by simpa using hk), if_neg hk]

-- The close of a cycle (R24, R284, R294).

/-- A held or waiting die that closes on its causes freezes as it stands, `z`. -/
theorem closeTask_freezes {s u t : State} {d : DieId} {z : Die} {held : Bool} (ht : closeTask d s = .next t)
    (hf : Freezes u d z held t) : ∃ t, closeTask d s = .next t ∧ (t.die d) = { z.freeze u.sidc held with
        stopAt := none, handlerNext := (t.die d).handlerNext, reportAt := (t.die d).reportAt } ∧
      ((t.die d).handlerNext = true ↔ (z.freeze u.sidc held).handlerNext = true ∧ ¬∃ n, z.stopAt = some n ∧ n ≤ u.sidc) ∧
      ((z.freeze u.sidc held).handlerNext = false → ∃ n, (t.die d).reportAt = some n ∧ u.sidc + 99 ≤ n) :=
  ⟨t, ht, hf.die, hf.next, hf.told⟩

theorem closeTask_held {s u : State} {d : DieId} {x : Die} (hu : u = s.applyEoc d) (hx : x = u.die d) (hs : (s.die d).cond ≠ .running)
    (hc : x.cond = .held) :
    (x.takeAsyncs.causes ≠ [] → ∃ t, closeTask d s = .next t ∧ Freezes u d x.takeAsyncs true t) ∧
    (x.takeAsyncs.causes = [] → u.stopDue x = true → closeTask d s = .next (u.setDie d (x.freezeQuiet u.sidc true))) ∧
    (x.takeAsyncs.causes = [] → ¬u.stopDue x = true → closeTask d s = .next u) := by
  subst hx hu
  rw [closeTask_still hs, closeStill_held hc]
  refine ⟨fun h => ⟨_, rfl, ?_⟩, fun h hd => ?_, fun h hd => ?_⟩
  · rw [if_pos (by simpa using h)]
    exact freezeDie_freezes ..
  · rw [if_neg (by simp [h]), if_pos hd]
  · rw [if_neg (by simp [h]), if_neg hd]

theorem closeTask_waiting {s u : State} {d : DieId} {x : Die} (hu : u = s.applyEoc d) (hx : x = u.die d) (hs : (s.die d).cond ≠ .running)
    (hc : x.cond = .waiting) :
    (x.takeAsyncs.causes ≠ [] → ∃ t, closeTask d s = .next t ∧ Freezes u d x.takeAsyncs.waits false t) ∧
    (x.takeAsyncs.causes = [] → u.stopDue x = true → closeTask d s = .next (u.setDie d (x.takeAsyncs.waits.freezeQuiet u.sidc false))) ∧
    (x.takeAsyncs.causes = [] → ¬u.stopDue x = true → closeTask d s = .next (u.setDie d x.takeAsyncs.waits)) := by
  subst hx hu
  rw [closeTask_still hs, closeStill_waiting hc]
  refine ⟨fun h => ⟨_, rfl, ?_⟩, fun h hd => ?_, fun h hd => ?_⟩
  · rw [if_pos (by simpa using h)]
    exact freezeDie_freezes ..
  · rw [if_neg (by simp [h]), if_pos hd]
  · rw [if_neg (by simp [h]), if_neg hd]

end Sys2Proof.Machine

section
open Sys2Proof Sys2Proof.Machine

/-- Settles O47: the freeze by the order of its causes, its diversion and its latches; the settling and the close of a cycle by what
ends them; the end and the entry of handler mode by the swap of the context. -/
theorem freezeAndHandlerEntry : Obligations.FreezeAndHandlerEntry := by
  unfold Obligations.FreezeAndHandlerEntry
  refine ⟨fun l c h => ?_, fun l c h => ?_, fun d f sidc u c h hf => freeze_fields h hf, fun s d pre z => ⟨settleTask_none, fun h hm hz => ?_⟩,
    ?_, fun s d a v => ⟨?_, ?_⟩, ?_, handlerEntry_cases⟩
  · obtain ⟨hm, hb⟩ := firstCause_some h
    exact ⟨hm, fun e he hr => Nat.not_lt.2 ((not_before_iff e c).1 (hb e he)).1 hr⟩
  · exact fun e he => ((not_before_iff e c).1 ((firstCause_some h).2 e he)).2
  · obtain ⟨t, ht, h1, h2, h3, h4⟩ := settleTask_ends h hm hz
    refine ⟨t, ht, fun hc => ?_, fun hc hs => ?_, h3, h4⟩
    · obtain ⟨k1, k2, k3, k4, k5, k6⟩ := h1 hc
      exact ⟨k1, k2, k3, k4, k5, k6⟩
    · rw [h2 hc hs, die_setDie]
      exact ⟨rfl, freezeQuiet_fields z s.sidc⟩
  · rintro s u d x y w hu hx rfl rfl stop freezes
    have hstop : u.stopDue x = true ↔ stop := stopDue_iff u x
    refine ⟨fun h => ?_, fun hs => ⟨fun hc hn => ?_, fun hc hn => ?_, fun hc h0 hd => ?_, fun hc h0 hd => ?_, fun hc h0 hd => ?_,
      fun hc h0 hd => ?_, fun hc => ?_, fun hc => ?_⟩⟩
    · subst hx hu
      exact ⟨_, closeTask_running h, preRetires_iff _⟩
    · obtain ⟨t, ht, hf⟩ := (closeTask_held hu hx hs hc).1 hn
      exact closeTask_freezes ht hf
    · obtain ⟨t, ht, hf⟩ := (closeTask_waiting hu hx hs hc).1 hn
      exact closeTask_freezes ht hf
    · exact (closeTask_held hu hx hs hc).2.1 h0 (hstop.2 hd)
    · exact (closeTask_waiting hu hx hs hc).2.1 h0 (hstop.2 hd)
    · exact (closeTask_held hu hx hs hc).2.2 h0 (hstop.not.2 hd)
    · exact (closeTask_waiting hu hx hs hc).2.2 h0 (hstop.not.2 hd)
    · subst hx hu
      rw [closeTask_still hs, closeStill_idle hc]
    · subst hx hu
      rw [closeTask_still hs, closeStill_frozen hc]
  · intro h
    rw [State.applyFrz, h]
    rfl
  · intro h
    rw [State.applyFrz, h]
    rfl
  · intro s u d x hu hx ends
    refine ⟨fun h => ?_, fun ⟨hc, he⟩ => hcloseTask_ends hu hx hc he⟩
    subst hx
    by_cases hc : (u.die d).cond = .handler
    · have hn : ¬((u.die d).causes ≠ [] ∨ (((u.die d).sta (u.die d).hpos).ctxOf .c).retired = true) := fun he => h ⟨hc, he⟩
      obtain ⟨h1, h2⟩ := not_or.1 hn
      exact hcloseTask_runs hu hc (not_not.1 h1) h2
    · exact hcloseTask_other hu hc
end

-- ## A die cycle executes or holds (R18 to R20, R22)

namespace Sys2Proof.Machine

-- A held cycle is charged once to each station and cause (R20, R311, R312).

/-- The counter `f` of a hold record is that of the cause `k`. -/
def HoldRec.Counts (k : WaitKind) (f : HoldRec → W32) : Prop := ∀ h j, f (HoldRec.charge h j) = if j = k then inc32 (f h) else f h

theorem holdRec_counts : ∀ e ∈ [(WaitKind.vlt, HoldRec.vlt), (.gdr, HoldRec.gdr), (.rmt, HoldRec.rmt), (.rdv, HoldRec.rdv),
    (.gov, HoldRec.gov)], HoldRec.Counts e.1 e.2 := by
  simp only [List.forall_mem_cons, List.not_mem_nil, false_implies, implies_true, and_true]
  refine ⟨?_, ?_, ?_, ?_, ?_⟩ <;> intro h j <;> cases j <;> rfl

/-- The counter `f` of the telemetry is that of the cause `k`. -/
def Tele.Counts (k : WaitKind) (f : Tele → Nat) : Prop := ∀ t j, f (Tele.charge t j) = f t + if j = k then 1 else 0

theorem tele_counts : ∀ e ∈ [(WaitKind.vlt, Tele.vlt), (.gdr, Tele.gdr), (.rmt, Tele.rmt), (.rdv, Tele.rdv), (.gov, Tele.gov)],
    Tele.Counts e.1 e.2 := by
  simp only [List.forall_mem_cons, List.not_mem_nil, false_implies, implies_true, and_true]
  refine ⟨?_, ?_, ?_, ?_, ?_⟩ <;> intro h j <;> cases j <;> rfl

theorem tele_charges {k : WaitKind} {f : Tele → Nat} (hf : Tele.Counts k f) : ∀ (l : List WaitKind) (t : Tele), l.Nodup →
    f (l.foldl Tele.charge t) = f t + if k ∈ l then 1 else 0
  | [], t, _ => rfl
  | j :: l, t, h => by
    obtain ⟨hj, hl⟩ := List.nodup_cons.1 h
    rw [List.foldl_cons, tele_charges hf l _ hl, hf]
    by_cases hk : j = k
    · subst hk
      simp [hj]
    · simp [hk, Ne.symm hk]

/-- One held cycle is charged at a station. -/
def Die.charge (d : Die) (e : Pos × WaitKind) : Die := d.setSta e.1 { d.sta e.1 with live := (d.sta e.1).live.charge e.2 }

theorem charge_sta (d : Die) (e : Pos × WaitKind) (p : Pos) :
    (d.charge e).sta p = if e.1 = p then { d.sta p with live := (d.sta p).live.charge e.2 } else d.sta p := by
  by_cases h : e.1 = p
  · rw [if_pos h, ← h]
    exact sta_setSta ..
  · rw [if_neg h]
    exact sta_setSta_ne _ _ _ _ h

/-- Charging distinct pairs of station and cause changes their counters alone. -/
theorem charges_sta : ∀ (l : List (Pos × WaitKind)) (d : Die) (p : Pos), l.Nodup →
    (l.foldl Die.charge d).sta p = { d.sta p with live := ((l.foldl Die.charge d).sta p).live } ∧
    ∀ k f, HoldRec.Counts k f → f ((l.foldl Die.charge d).sta p).live =
      if (p, k) ∈ l then inc32 (f (d.sta p).live) else f (d.sta p).live
  | [], d, p, _ => ⟨rfl, fun _ _ _ => rfl⟩
  | e :: l, d, p, h => by
    obtain ⟨he, hl⟩ := List.nodup_cons.1 h
    obtain ⟨h1, h2⟩ := charges_sta l (d.charge e) p hl
    rw [List.foldl_cons]
    have hs := charge_sta d e p
    refine ⟨?_, fun k f hf => ?_⟩
    · rw [h1, hs]
      split <;> rfl
    · rw [h2 k f hf, hs]
      by_cases hp : e.1 = p
      · rw [if_pos hp, hf]
        by_cases hk : e.2 = k
        · have heq : e = (p, k) := Prod.ext hp hk
          rw [if_neg (heq ▸ he), if_pos hk, if_pos (heq ▸ List.mem_cons_self ..)]
        · have hne : (p, k) ≠ e := fun hh => hk (congrArg Prod.snd hh).symm
          simp only [if_neg hk, List.mem_cons, hne, false_or]
      · have hne : (p, k) ≠ e := fun hh => hp (congrArg Prod.fst hh).symm
        simp only [if_neg hp, List.mem_cons, hne, false_or]

theorem charges_frame : ∀ (l : List (Pos × WaitKind)) (d : Die), l.foldl Die.charge d = { d with stations := (l.foldl Die.charge d).stations }
  | [], _ => rfl
  | e :: l, d => by
    rw [List.foldl_cons, charges_frame l (d.charge e)]
    rfl

/-- The die of a held cycle before its hold records are charged. -/
def Die.holds0 (d : Die) (ws : List Wait) : Die :=
  { d with cond := .held, holdcnt := if d.cond = .held then d.holdcnt + 1 else 1, holds := d.holds + 1,
           tele := (ws.map (·.kind)).eraseDups.foldl Tele.charge d.tele }

theorem hold_eq (d : Die) (ws : List Wait) :
    d.hold ws = ((ws.map fun w => (w.pos, w.kind)).eraseDups).foldl Die.charge (d.holds0 ws) := rfl

theorem eraseDups_nodup {α : Type} [BEq α] [LawfulBEq α] : ∀ l : List α, l.eraseDups.Nodup
  | [] => List.nodup_nil
  | a :: l => by
    rw [List.eraseDups_cons, List.nodup_cons]
    refine ⟨fun h => ?_, eraseDups_nodup _⟩
    have := (List.mem_filter.1 (List.mem_eraseDups.1 h)).2
    simp at this
termination_by l => l.length
decreasing_by exact Nat.lt_succ_of_le (List.length_filter_le ..)

theorem mem_pairs_iff (ws : List Wait) (p : Pos) (k : WaitKind) :
    (p, k) ∈ (ws.map fun w => (w.pos, w.kind)).eraseDups ↔ (ws.any fun w => w.pos == p && w.kind == k) = true := by
  simp [List.mem_eraseDups]

theorem mem_kinds_iff (ws : List Wait) (k : WaitKind) :
    k ∈ (ws.map (·.kind)).eraseDups ↔ (ws.any fun w => w.kind == k) = true := by
  simp [List.mem_eraseDups]

/-- A held cycle: HOLDCNT counts it, each pair of station and cause is charged once, and nothing else changes (R20). -/
theorem hold_fields (x : Die) (ws : List Wait) : (x.hold ws).cond = .held ∧
    (x.hold ws).holdcnt = (if x.cond = .held then x.holdcnt + 1 else 1) ∧ (x.hold ws).holds = x.holds + 1 ∧
    x.hold ws = { x with cond := .held, holdcnt := (x.hold ws).holdcnt, holds := x.holds + 1, tele := (x.hold ws).tele,
                         stations := (x.hold ws).stations } ∧
    (∀ e ∈ [(WaitKind.vlt, Tele.vlt), (.gdr, Tele.gdr), (.rmt, Tele.rmt), (.rdv, Tele.rdv), (.gov, Tele.gov)],
      e.2 (x.hold ws).tele = e.2 x.tele + if ws.any fun w => w.kind == e.1 then 1 else 0) ∧
    ∀ p, ((x.hold ws).sta p) = { x.sta p with live := ((x.hold ws).sta p).live } ∧
      ∀ e ∈ [(WaitKind.vlt, HoldRec.vlt), (.gdr, HoldRec.gdr), (.rmt, HoldRec.rmt), (.rdv, HoldRec.rdv), (.gov, HoldRec.gov)],
        e.2 ((x.hold ws).sta p).live =
          if ws.any fun w => w.pos == p && w.kind == e.1 then inc32 (e.2 (x.sta p).live) else e.2 (x.sta p).live := by
  have hf : x.hold ws = { x.holds0 ws with stations := (x.hold ws).stations } := charges_frame ..
  have hp := charges_sta ((ws.map fun w => (w.pos, w.kind)).eraseDups) (x.holds0 ws)
  rw [← hold_eq] at hp
  refine ⟨by rw [hf]; rfl, by rw [hf]; rfl, by rw [hf]; rfl, ?_, fun e he => ?_, fun p => ?_⟩
  · rw [hf]
    rfl
  · have ht : (x.hold ws).tele = (ws.map (·.kind)).eraseDups.foldl Tele.charge x.tele := by rw [hf]; rfl
    rw [ht, tele_charges (tele_counts e he) _ _ (eraseDups_nodup _)]
    simp only [mem_kinds_iff]
  · obtain ⟨h1, h2⟩ := hp p (eraseDups_nodup _)
    refine ⟨h1, fun e he => ?_⟩
    rw [h2 e.1 e.2 (holdRec_counts e he)]
    simp only [mem_pairs_iff]
    rfl

-- The tasks of an executed die cycle (R18, R45, R51).

theorem allPos_mem (p : Pos) : p ∈ allPos := List.mem_finRange p

theorem strm_mem (st : Strm) : st ∈ Strm.all := by cases st <;> decide

/-- A stream issues in an executed die cycle where its word or its header is due. -/
theorem issue_mem_dueTasks (x : Station) (d : DieId) (p q : Pos) (st r : Strm) (t : Nat) : Task.issue d p st ∈ x.dueTasks d q r t ↔
    q = p ∧ r = st ∧ ((∃ q a, (x.ctxOf st).next = .word q a ∧ a ≤ t) ∨ ∃ q a w, (x.ctxOf st).next = .hdr q a w ∧ a ≤ t) := by
  have hi : Task.issue d p st = .issue d q r ↔ q = p ∧ r = st := by simp [eq_comm]
  unfold Station.dueTasks
  split
  · next h =>
    refine ⟨fun hm => absurd hm List.not_mem_nil, ?_⟩
    rintro ⟨-, rfl, ⟨q', a', h'⟩ | ⟨q', a', w', h'⟩⟩ <;> rw [h] at h' <;> cases h'.1
  · next q' a w h =>
    by_cases ha : a ≤ t
    · rw [if_pos ha]
      simp only [List.mem_cons, List.not_mem_nil, or_false, hi, reduceCtorEq, false_or]
      refine ⟨fun ⟨hp, hs⟩ => ⟨hp, hs, .inr ⟨q', a, w, hs ▸ h, ha⟩⟩, fun hh => ⟨hh.1, hh.2.1⟩⟩
    · rw [if_neg ha]
      refine ⟨fun hm => absurd hm List.not_mem_nil, ?_⟩
      rintro ⟨-, rfl, ⟨q', a', h'⟩ | ⟨q', a', w', h'⟩⟩ <;> rw [h] at h' <;> cases h'.1
      exact absurd h'.2 ha
  · next q' a h =>
    by_cases ha : a ≤ t
    · rw [if_pos ha]
      simp only [List.mem_cons, List.not_mem_nil, or_false, hi]
      refine ⟨fun ⟨hp, hs⟩ => ⟨hp, hs, .inl ⟨q', a, hs ▸ h, ha⟩⟩, fun hh => ⟨hh.1, hh.2.1⟩⟩
    · rw [if_neg ha]
      refine ⟨fun hm => absurd hm List.not_mem_nil, ?_⟩
      rintro ⟨-, rfl, ⟨q', a', h'⟩ | ⟨q', a', w', h'⟩⟩ <;> rw [h] at h' <;> cases h'.1
      exact absurd h'.2 ha

/-- In an executed die cycle exactly the streams whose word or header is due issue (R18, R45). -/
theorem issue_mem_cycleTasks (d : DieId) (x : Die) (p : Pos) (st : Strm) : Task.issue d p st ∈ cycleTasks d x ↔
    (∃ q a, ((x.sta p).ctxOf st).next = .word q a ∧ a ≤ x.dcyc) ∨ ∃ q a w, ((x.sta p).ctxOf st).next = .hdr q a w ∧ a ≤ x.dcyc := by
  unfold cycleTasks
  simp only [List.mem_append, List.mem_flatMap, issue_mem_dueTasks, List.mem_cons, reduceCtorEq, List.not_mem_nil, or_false, false_or]
  constructor
  · rintro ⟨q, -, r, -, rfl, rfl, h⟩
    exact h
  · exact fun h => ⟨p, allPos_mem p, st, strm_mem st, rfl, rfl, h⟩

theorem cycleTasks_last (d : DieId) (x : Die) : (cycleTasks d x).getLast? = some (.close d) := by
  unfold cycleTasks
  rw [List.getLast?_append]
  rfl

theorem dieCycle_eq {s : State} {d : DieId} {x : Die} (hx : x = { s.die d with xch := (s.die d).inExchange }) :
    exec (.dieCycle d) s = if ((s.setDie d x).waits d).isEmpty then
      .next { s.setDie d { x with cond := .running } with agenda := cycleTasks d x ++ s.agenda }
    else .next { s.setDie d (x.hold ((s.setDie d x).waits d)) with agenda := .ev (.farWait d) :: idleTasks d ++ s.agenda } := by
  subst hx
  simp only [exec, execDieCycle, setDie_setDie]

/-- With no condition unmet the die executes its die cycle, else it holds (R18 to R20). -/
theorem dieCycle_cases (s : State) (d : DieId) (x : Die) (ws : List Wait) (hx : x = { s.die d with xch := (s.die d).inExchange })
    (hw : ws = (s.setDie d x).waits d) :
    (ws = [] → ∃ t l, exec (.dieCycle d) s = .next t ∧ t = { s.setDie d { x with cond := .running } with agenda := l ++ s.agenda } ∧
      l.getLast? = some (.close d) ∧
      ∀ p st, Task.issue d p st ∈ l ↔ (∃ q a, ((x.sta p).ctxOf st).next = .word q a ∧ a ≤ x.dcyc) ∨
        ∃ q a w, ((x.sta p).ctxOf st).next = .hdr q a w ∧ a ≤ x.dcyc) ∧
    (ws ≠ [] → ∃ t l, exec (.dieCycle d) s = .next t ∧ t.agenda = l ++ s.agenda ∧ { t with agenda := s.agenda } = s.setDie d (t.die d) ∧
      (∀ p st, Task.issue d p st ∉ l) ∧ Task.ev (.farWait d) ∈ l ∧ (t.die d).cond = .held ∧
      (t.die d).holdcnt = (if x.cond = .held then x.holdcnt + 1 else 1) ∧ (t.die d).holds = x.holds + 1 ∧
      t.die d = { x with cond := .held, holdcnt := (t.die d).holdcnt, holds := x.holds + 1, tele := (t.die d).tele,
                         stations := (t.die d).stations } ∧
      (∀ e ∈ [(WaitKind.vlt, Tele.vlt), (.gdr, Tele.gdr), (.rmt, Tele.rmt), (.rdv, Tele.rdv), (.gov, Tele.gov)],
        e.2 (t.die d).tele = e.2 x.tele + if ws.any fun w => w.kind == e.1 then 1 else 0) ∧
      ∀ p, ((t.die d).sta p) = { x.sta p with live := ((t.die d).sta p).live } ∧
        ∀ e ∈ [(WaitKind.vlt, HoldRec.vlt), (.gdr, HoldRec.gdr), (.rmt, HoldRec.rmt), (.rdv, HoldRec.rdv), (.gov, HoldRec.gov)],
          e.2 ((t.die d).sta p).live =
            if ws.any fun w => w.pos == p && w.kind == e.1 then inc32 (e.2 (x.sta p).live) else e.2 (x.sta p).live) := by
  rw [dieCycle_eq hx, ← hw]
  refine ⟨fun h => ?_, fun h => ?_⟩
  · rw [if_pos (List.isEmpty_iff.2 h)]
    exact ⟨_, cycleTasks d x, rfl, rfl, cycleTasks_last d x, issue_mem_cycleTasks d x⟩
  · rw [if_neg (List.isEmpty_iff.not.2 h)]
    have hd : ({ s.setDie d (x.hold ws) with agenda := .ev (.farWait d) :: idleTasks d ++ s.agenda } : State).die d = x.hold ws :=
      die_setDie ..
    refine ⟨_, .ev (.farWait d) :: idleTasks d, rfl, rfl, ?_, fun p st => ?_, List.mem_cons_self .., ?_⟩
    · rw [hd]
      rfl
    · simp [idleTasks]
    · rw [hd]
      exact hold_fields x ws

end Sys2Proof.Machine

-- ## The hold conditions of a die cycle (R18, R21, R22, R245, R280)

namespace Sys2Proof.Machine

/-- A word that a stream issues, by position and stream. -/
abbrev Act : Type := Pos × Strm × Parcel × Instr

/-- Order by position and stream. -/
def posBefore (p : Pos) (st : Strm) (q : Pos) (r : Strm) : Prop := p < q ∨ p = q ∧ st.idx < r.idx

theorem posBefore_irrefl (p : Pos) (st : Strm) : ¬posBefore p st p st := by
  rintro (h | ⟨-, h⟩)
  · exact lt_irrefl _ h
  · exact lt_irrefl _ h

theorem posBefore_asymm {p q : Pos} {st r : Strm} (h : posBefore p st q r) : ¬posBefore q r p st := by
  unfold posBefore at *
  simp only [Fin.lt_def, Fin.ext_iff] at *
  omega

/-- The kind of an ADMIT. -/
def admitKind : Instr → Option FKind
  | .admitWork k _ _ => some k
  | _ => none

theorem admitKind_eq_some {i : Instr} {k : FKind} : admitKind i = some k ↔ ∃ o m, i = .admitWork k o m := by
  constructor
  · intro h
    unfold admitKind at h
    split at h
    · next j o m => exact ⟨o, m, by rw [Option.some.inj h]⟩
    · cases h
  · rintro ⟨o, m, rfl⟩
    rfl

theorem admitFirst_cons_none {seen : List FKind} {a : Act} {l : List Act} (h : admitKind a.2.2.2 = none) :
    admitFirst seen (a :: l) = a :: admitFirst seen l := by
  obtain ⟨p, st, q, i⟩ := a
  rw [admitFirst]
  rintro k o m rfl
  cases h

theorem admitFirst_cons_some {seen : List FKind} {a : Act} {l : List Act} {k : FKind} (h : admitKind a.2.2.2 = some k) :
    admitFirst seen (a :: l) = if seen.contains k then admitFirst seen l else a :: admitFirst (k :: seen) l := by
  obtain ⟨p, st, q, i⟩ := a
  obtain ⟨o, m, rfl⟩ := admitKind_eq_some.1 h
  rfl

theorem admitFirst_sublist : ∀ (l : List Act) (seen : List FKind), (admitFirst seen l).Sublist l
  | [], _ => List.Sublist.slnil
  | a :: l, seen => by
    cases hk : admitKind a.2.2.2 with
    | none =>
      rw [admitFirst_cons_none hk]
      exact (admitFirst_sublist l seen).cons_cons a
    | some k =>
      rw [admitFirst_cons_some hk]
      split
      · exact (admitFirst_sublist l seen).cons a
      · exact (admitFirst_sublist l _).cons_cons a

theorem mem_admitFirst_other {e : Act} (he : admitKind e.2.2.2 = none) : ∀ (l : List Act) (seen : List FKind), e ∈ admitFirst seen l ↔ e ∈ l
  | [], _ => Iff.rfl
  | a :: l, seen => by
    cases hk : admitKind a.2.2.2 with
    | none => rw [admitFirst_cons_none hk, List.mem_cons, List.mem_cons, mem_admitFirst_other he l]
    | some k =>
      have hne : e ≠ a := fun h => by rw [← h, he] at hk; cases hk
      rw [admitFirst_cons_some hk, List.mem_cons]
      split
      · simp only [mem_admitFirst_other he l, hne, false_or]
      · simp only [List.mem_cons, mem_admitFirst_other he l, hne, false_or]

/-- A word is an ADMIT of kind `k`. -/
def admits (k : FKind) (a : Act) : Bool := admitKind a.2.2.2 == some k

theorem admits_iff {k : FKind} {a : Act} : admits k a = true ↔ admitKind a.2.2.2 = some k := beq_iff_eq

/-- Of the ADMITs of one kind the first alone stays. -/
theorem mem_admitFirst_admit {e : Act} {k : FKind} (he : admits k e = true) : ∀ (l : List Act) (seen : List FKind),
    e ∈ admitFirst seen l ↔ k ∉ seen ∧ l.find? (admits k) = some e
  | [], seen => by simp [admitFirst]
  | a :: l, seen => by
    by_cases ha : admits k a = true
    · rw [List.find?_cons_of_pos ha, admitFirst_cons_some (admits_iff.1 ha)]
      by_cases hs : k ∈ seen
      · rw [if_pos (by simpa using hs), mem_admitFirst_admit he l]
        simp [hs]
      · rw [if_neg (by simpa using hs), List.mem_cons, mem_admitFirst_admit he l]
        simp [hs, eq_comm]
    · have hne : e ≠ a := fun h => ha (h ▸ he)
      rw [List.find?_cons_of_neg ha]
      cases hk : admitKind a.2.2.2 with
      | none =>
        rw [admitFirst_cons_none hk, List.mem_cons, mem_admitFirst_admit he l]
        simp only [hne, false_or]
      | some j =>
        have hj : k ≠ j := fun h => ha (admits_iff.2 (h ▸ hk))
        rw [admitFirst_cons_some hk]
        split
        · rw [mem_admitFirst_admit he l]
        · rw [List.mem_cons, mem_admitFirst_admit he l]
          simp only [hne, false_or, List.mem_cons, hj]

/-- The words that act in a die cycle, ADMITs that clash among them. -/
def State.actsAll (s : State) (d : DieId) : List Act := allPos.flatMap fun p => Strm.all.filterMap fun st => s.actsOf d p st

theorem acting_eq (s : State) (d : DieId) : s.acting d = admitFirst [] (s.actsAll d) := rfl

theorem actsOf_pos {s : State} {d : DieId} {p : Pos} {st : Strm} {e : Act} (h : s.actsOf d p st = some e) : e.1 = p ∧ e.2.1 = st := by
  unfold State.actsOf at h
  dsimp only at h
  split at h
  · cases h
  · rw [Option.ite_none_left_eq_some] at h
    obtain ⟨-, h⟩ := h
    split at h
    · cases h
    · rw [Option.ite_none_right_eq_some] at h
      obtain ⟨-, h⟩ := h
      cases h
      exact ⟨rfl, rfl⟩

theorem mem_actsAll {s : State} {d : DieId} {p : Pos} {st : Strm} {q : Parcel} {i : Instr} :
    (p, st, q, i) ∈ s.actsAll d ↔ s.actsOf d p st = some (p, st, q, i) := by
  simp only [State.actsAll, List.mem_flatMap, List.mem_filterMap]
  constructor
  · rintro ⟨p', -, st', -, h⟩
    obtain ⟨rfl, rfl⟩ := actsOf_pos h
    exact h
  · exact fun h => ⟨p, allPos_mem p, st, strm_mem st, h⟩

theorem actsAll_sorted (s : State) (d : DieId) : (s.actsAll d).Pairwise fun a b => posBefore a.1 a.2.1 b.1 b.2.1 := by
  refine List.pairwise_flatMap.2 ⟨fun p _ => ?_, ?_⟩
  · refine List.pairwise_filterMap.2 ?_
    have hs : Strm.all.Pairwise fun a b => a.idx < b.idx := by decide
    refine hs.imp fun hab a ha b hb => ?_
    obtain ⟨ha1, ha2⟩ := actsOf_pos ha
    obtain ⟨hb1, hb2⟩ := actsOf_pos hb
    exact .inr ⟨ha1.trans hb1.symm, by rwa [ha2, hb2]⟩
  · refine (List.pairwise_lt_finRange 128).imp fun hpq a ha b hb => ?_
    obtain ⟨_, -, ha⟩ := List.mem_filterMap.1 ha
    obtain ⟨_, -, hb⟩ := List.mem_filterMap.1 hb
    exact .inl (by rwa [(actsOf_pos ha).1, (actsOf_pos hb).1])

theorem mem_acting_acts {s : State} {d : DieId} {p : Pos} {st : Strm} {q : Parcel} {i : Instr} (h : (p, st, q, i) ∈ s.acting d) :
    s.actsOf d p st = some (p, st, q, i) := mem_actsAll.1 ((admitFirst_sublist _ _).subset h)

/-- A word that acts is left out where it is an ADMIT behind another of its kind (R190, R280). -/
theorem not_mem_acting_iff {s : State} {d : DieId} {p : Pos} {st : Strm} {q : Parcel} {i : Instr}
    (h : s.actsOf d p st = some (p, st, q, i)) : (p, st, q, i) ∉ s.acting d ↔ ∃ k o m, i = .admitWork k o m ∧
      ∃ p' st' q' o' m', s.actsOf d p' st' = some (p', st', q', .admitWork k o' m') ∧ (p' < p ∨ p' = p ∧ st'.idx < st.idx) := by
  have hm := mem_actsAll.2 h
  rw [acting_eq]
  cases hk : admitKind i with
  | none =>
    rw [mem_admitFirst_other hk]
    refine ⟨fun hn => absurd hm hn, ?_⟩
    rintro ⟨k, o, m, rfl, -⟩
    cases hk
  | some k =>
    obtain ⟨o, m, rfl⟩ := admitKind_eq_some.1 hk
    rw [mem_admitFirst_admit (admits_iff.2 hk)]
    have hsort := actsAll_sorted s d
    constructor
    · intro hn
      obtain ⟨f, hf⟩ : ∃ f, (s.actsAll d).find? (admits k) = some f := by
        rw [← Option.isSome_iff_exists, List.find?_isSome]
        exact ⟨_, hm, admits_iff.2 hk⟩
      obtain ⟨hkf, l1, l2, hl, h1⟩ := List.find?_eq_some_iff_append.1 hf
      obtain ⟨p', st', q', i'⟩ := f
      obtain ⟨o', m', rfl⟩ := admitKind_eq_some.1 (admits_iff.1 hkf)
      have hmf : (p', st', q', .admitWork k o' m') ∈ s.actsAll d := List.mem_of_find?_eq_some hf
      refine ⟨k, o, m, rfl, p', st', q', o', m', mem_actsAll.1 hmf, ?_⟩
      have hne : (p, st, q, Instr.admitWork k o m) ≠ (p', st', q', .admitWork k o' m') := fun h => hn ⟨List.not_mem_nil, by rw [hf, h]⟩
      have hm2 : (p, st, q, Instr.admitWork k o m) ∈ l2 := by
        rw [hl, List.mem_append, List.mem_cons] at hm
        obtain hm | hm | hm := hm
        · have := h1 _ hm
          rw [admits_iff.2 hk] at this
          cases this
        · exact absurd hm hne
        · exact hm
      rw [hl, List.pairwise_append] at hsort
      exact List.rel_of_pairwise_cons hsort.2.1 hm2
    · rintro ⟨k', o', m', hi, p', st', q', o'', m'', h', hb⟩ ⟨-, hf⟩
      cases hi
      obtain ⟨-, l1, l2, hl, h1⟩ := List.find?_eq_some_iff_append.1 hf
      have hm' := mem_actsAll.2 h'
      rw [hl] at hsort hm'
      obtain ⟨-, h2, h3⟩ := List.pairwise_append.1 hsort
      obtain hm' | hm' | hm' := (List.mem_append.trans (or_congr_right List.mem_cons)).1 hm'
      · have := h1 _ hm'
        rw [admits_iff.2 rfl] at this
        cases this
      · cases hm'
        exact posBefore_irrefl _ _ hb
      · exact posBefore_asymm hb (List.rel_of_pairwise_cons h2 hm')

-- The words that wait (R18, R22).

theorem waits_xch {s : State} {d : DieId} (h : (s.die d).xch = true) : s.waits d = [] := if_pos h

theorem waits_eq {s : State} {d : DieId} (h : (s.die d).xch = false) : s.waits d =
    ((s.setDie d (s.die d).landed).acting d).filterMap fun w =>
      (((s.setDie d (s.die d).landed).focusOn d w.1 w.2.1 w.2.2.1 false false).waitKind w.2.2.2).map fun k =>
        { pos := w.1, strm := w.2.1, parcel := w.2.2.1, kind := k } := if_neg (by simp [h])

theorem mem_waits {s u : State} {d : DieId} {w : Wait} (hu : u = s.setDie d (s.die d).landed) (h : (s.die d).xch = false) :
    w ∈ s.waits d ↔
      ∃ i, (w.pos, w.strm, w.parcel, i) ∈ u.acting d ∧ (u.focusOn d w.pos w.strm w.parcel false false).waitKind i = some w.kind := by
  rw [waits_eq h, ← hu]
  simp only [List.mem_filterMap, Option.map_eq_some_iff]
  constructor
  · rintro ⟨⟨p, st, q, i⟩, hm, k, hk, rfl⟩
    exact ⟨i, hm, hk⟩
  · rintro ⟨i, hm, hk⟩
    exact ⟨_, hm, _, hk, rfl⟩

/-- The waiting words stand by position and stream. -/
theorem waits_sorted (s : State) (d : DieId) : (s.waits d).Pairwise fun a b => posBefore a.pos a.strm b.pos b.strm := by
  by_cases h : (s.die d).xch = true
  · rw [waits_xch h]
    exact List.Pairwise.nil
  · rw [waits_eq (by simpa using h)]
    refine List.pairwise_filterMap.2 (((actsAll_sorted _ d).sublist (admitFirst_sublist _ [])).imp fun hab a ha b hb => ?_)
    obtain ⟨k, -, rfl⟩ := Option.map_eq_some_iff.1 ha
    obtain ⟨j, -, rfl⟩ := Option.map_eq_some_iff.1 hb
    exact hab

end Sys2Proof.Machine

-- ## FAR_WAIT, ALIGNMENT_WAIT_END and section headers (R18, R21, R23, R50, R51, R280)

namespace Sys2Proof.Machine

/-- The array is idle: no front in it for 2,047 cycles, and none admitted in this one (R279). -/
theorem idleArray_iff (d : Die) (t : Nat) : d.idleArray t = true ↔ (∀ b, d.rampLast = some b → b + 2047 < t) ∧
    ∀ w ∈ d.works, w.issued = t → 0 < w.m → w.kind ≠ .fwd ∧ w.kind ≠ .bwd := by
  unfold Die.idleArray
  rw [Bool.and_eq_true]
  refine and_congr ?_ ?_
  · split
    · next h => simp [h]
    · next b h => simp [h]
  · rw [Bool.not_eq_true', ← Bool.not_eq_true, List.any_eq_true]
    simp only [Bool.and_eq_true, Bool.or_eq_true, beq_iff_eq, decide_eq_true_eq, not_exists, not_and]
    refine forall₂_congr fun w _ => ?_
    tauto

theorem rampNear_iff (l : List Nat) (n s : Nat) : rampNear l n s = true ↔ ∃ r ∈ l, s < r + n ∧ r < s + n := by
  simp [rampNear]

/-- An ADMIT waits for the governor alone (R280). -/
theorem waitKind_admitWork (s : State) (k : FKind) (o : Bool) (m : Count) (dl : Nat) (hdl : dl = rampDelta s.hub.didtlim) :
    s.waitKind (.admitWork k o m) =
    if (s.admitCount m).1 ≠ 0 ∧ s.curDie.admitCause s.cyc k (s.admitCount m).1 (s.admitCount m).2 s.focus.pos = none ∧
        (∀ b, s.curDie.rampLast = some b → b + 2047 < s.cyc) ∧
        (∀ w ∈ s.curDie.works, w.issued = s.cyc → 0 < w.m → w.kind ≠ .fwd ∧ w.kind ≠ .bwd) ∧
        (∃ r ∈ s.hub.ramps, s.sidc < r + dl ∧ r < s.sidc + dl)
      then some .gov else none := by
  subst hdl
  refine ite_congr (propext ?_) (fun _ => rfl) (fun _ => rfl)
  rw [Option.isNone_iff_eq_none, idleArray_iff, rampNear_iff, and_assoc]

theorem waitKind_fqpop_nil {s : State} (d : BitVec 5) {q : BitVec 3} (h : s.curSta.fqOf q = []) : s.waitKind (.fqpop d q) = none := by
  simp only [State.waitKind, h]

theorem waitKind_fqpop_cons {s : State} (d : BitVec 5) {q : BitVec 3} {x : FqSlot} {l : List FqSlot} (h : s.curSta.fqOf q = x :: l) :
    s.waitKind (.fqpop d q) = if x.data.isNone then some (headKind s.focus.die x) else none := by
  simp only [State.waitKind, h]

/-- An FQPOP waits while the head row of its queue is absent. -/
theorem waitKind_fqpop_isSome (s : State) (d : BitVec 5) (q : BitVec 3) :
    (s.waitKind (.fqpop d q)).isSome = true ↔ ∃ h rest, s.curSta.fqOf q = h :: rest ∧ h.data = none := by
  cases h : s.curSta.fqOf q with
  | nil =>
    rw [waitKind_fqpop_nil d h]
    simp
  | cons x l =>
    rw [waitKind_fqpop_cons d h]
    cases hd : x.data with
    | none => simp [hd]
    | some v => simp [hd]

theorem headKind_none {d : DieId} {h : FqSlot} (hh : h.home = none) : headKind d h = .rmt := by
  simp only [headKind, hh]

theorem headKind_some {d k : DieId} {h : FqSlot} (hh : h.home = some k) : headKind d h =
    if k = d then (if 0x1000000000 ≤ h.dla ∧ h.dla < 0x100A000000 then .vlt else .gdr) else .rmt := by
  simp only [headKind, hh, dlaVault]
  by_cases hk : k = d
  · simp [hk]
  · simp [hk]

-- FAR_WAIT (R21).

theorem farWait_eq (d : DieId) (s : State) : exec (.farWait d) s =
    if (s.die d).cond = .held ∧ (s.die d).holdmax.toNat ≤ (s.die d).holdcnt ∧ ((s.waits d).any fun w => w.kind != .gov) then
      match s.waits d with
      | w :: _ => .next (s.setDie d ((s.die d).raiseAt 0 0 .farWait 0 w.pos w.strm w.parcel))
      | [] => .next s
    else .next s := rfl

/-- No far or rendezvous condition has held the die for HOLDMAX cycles. -/
theorem farWait_quiet {s : State} {d : DieId}
    (h : (s.die d).cond ≠ .held ∨ (s.die d).holdcnt < (s.die d).holdmax.toNat ∨ ∀ w ∈ s.waits d, w.kind = .gov) :
    exec (.farWait d) s = .next s := by
  rw [farWait_eq, if_neg]
  rintro ⟨h1, h2, h3⟩
  obtain ⟨w, hw, hk⟩ := List.any_eq_true.1 h3
  obtain h | h | h := h
  · exact h h1
  · omega
  · exact bne_iff_ne.1 hk (h w hw)

/-- A hold that reaches HOLDMAX raises FAR_WAIT for the first of the waiting words. -/
theorem farWait_raises {s : State} {d : DieId} (h1 : (s.die d).cond = .held) (h2 : (s.die d).holdmax.toNat ≤ (s.die d).holdcnt)
    (h3 : ∃ w ∈ s.waits d, w.kind ≠ .gov) :
    ∃ t c, ∃ w ∈ s.waits d, exec (.farWait d) s = .next t ∧ t = s.setDie d { s.die d with causes := (s.die d).causes ++ [c] } ∧
      (∀ u ∈ s.waits d, w.pos ≤ u.pos ∧ (w.pos = u.pos → w.strm.idx ≤ u.strm.idx)) ∧
      c.cause = .farWait ∧ c.pos = w.pos ∧ c.strm = w.strm ∧ c.parcel = w.parcel ∧ c.named = true := by
  have ha : ((s.waits d).any fun w => w.kind != .gov) = true := by
    obtain ⟨w, hw, hk⟩ := h3
    exact List.any_eq_true.2 ⟨w, hw, bne_iff_ne.2 hk⟩
  have hsort := waits_sorted s d
  rw [farWait_eq, if_pos ⟨h1, h2, ha⟩]
  cases hw : s.waits d with
  | nil =>
    rw [hw] at ha
    cases ha
  | cons w l =>
    rw [hw] at hsort
    refine ⟨_, _, w, List.mem_cons_self .., rfl, rfl, fun u hu => ?_, rfl, rfl, rfl, rfl, rfl⟩
    obtain rfl | hu := List.mem_cons.1 hu
    · exact ⟨le_rfl, fun _ => le_rfl⟩
    · obtain hp | ⟨hp, hs⟩ := List.rel_of_pairwise_cons hsort hu
      · exact ⟨hp.le, fun h => absurd h hp.ne⟩
      · exact ⟨hp.le, fun _ => hs.le⟩

-- ALIGNMENT_WAIT_END (R23, R241).

theorem alignmentWaitEnd_waits {s : State} {d : DieId} (h : (s.die d).cond ≠ .waiting ∨ s.sidc < (s.die d).notBefore) :
    exec (.alignmentWaitEnd d) s = .next s := by
  refine if_neg ?_
  rintro ⟨h1, h2⟩
  obtain h | h := h
  · exact h h1
  · omega

theorem alignmentWaitEnd_runs {s : State} {d : DieId} (h1 : (s.die d).cond = .waiting) (h2 : (s.die d).notBefore ≤ s.sidc) :
    exec (.alignmentWaitEnd d) s =
      .next (s.setDie d { s.die d with cond := .running, dcyc := (s.die d).dcyc + 1, notBefore := 0 }) := if_pos ⟨h1, h2⟩

-- Section headers (R50, R51).

theorem toNat_fld {w : Nat} (x : BitVec w) (lo n : Nat) : (fld x lo n).toNat = x.toNat / 2 ^ lo % 2 ^ n := by
  rw [BitVec.extractLsb'_toNat, Nat.shiftRight_eq_div_pow]

/-- The fields of a good header. -/
def HdrGood (h : W64) (q : Parcel) : Prop :=
  h.toNat / 2 ^ 60 = 10 ∧ h.toNat / 2 ^ 48 % 2 ^ 9 = 0 ∧ h.toNat / 2 ^ 24 % 16 = 0 ∧ h.toNat / 2 ^ 40 % 256 ≠ 255 ∧
    1 ≤ h.toNat / 2 ^ 28 % 2 ^ 12 ∧ q.toNat + 4 + 6 * (h.toNat / 2 ^ 28 % 2 ^ 12) ≤ 2 ^ 16

theorem hdrBad_iff (h : W64) (q : Parcel) : hdrBad h q = false ↔ HdrGood h q := by
  have h60 : h.toNat / 2 ^ 60 % 2 ^ 4 = h.toNat / 2 ^ 60 := Nat.mod_eq_of_lt (by have := h.isLt; omega)
  unfold hdrBad HdrGood
  simp only [Bool.or_eq_false_iff, bne_eq_false_iff_eq, beq_eq_false_iff_ne, decide_eq_false_iff_not, ← BitVec.toNat_inj, ne_eq,
    toNat_fld, BitVec.reduceToNat, h60]
  omega

theorem readHeader_eq {s : State} {d : DieId} {p : Pos} {st : Strm} {q : Parcel} {a wait : Nat}
    (hn : (((s.die d).sta p).ctxOf st).next = .hdr q a wait) (t : Nat) (handler : Bool) : s.readHeader d p st t handler =
    if t < a then s
    else if (s.die d).imemBad p q 4 then (s.focusOn d p st q handler false).imemTrap
    else if hdrBad (((s.die d).sta p).hdrAt q) q then (s.focusOn d p st q handler false).trap .badHeader
    else s.setDie d ((s.die d).setSta p (((s.die d).sta p).setCtx st { ((s.die d).sta p).ctxOf st with
      sect := some (sectionOf st (((s.die d).sta p).hdrAt q) q), entering := !handler, lbuf := [],
      next := .word (q + 4) (t + wait + ((s.die d).sta p).dlyAt (q + 4)) })) := by
  simp only [State.readHeader, hn]

theorem exec_sectionHeader (d : DieId) (p : Pos) (st : Strm) (s : State) :
    exec (.sectionHeader d p st) s = .next (s.readHeader d p st (s.die d).dcyc false) := rfl

theorem sectionHeader_early {s : State} {d : DieId} {p : Pos} {st : Strm} {q : Parcel} {a wait : Nat}
    (hn : (((s.die d).sta p).ctxOf st).next = .hdr q a wait) (ha : (s.die d).dcyc < a) : exec (.sectionHeader d p st) s = .next s := by
  rw [exec_sectionHeader, readHeader_eq hn, if_pos ha]

/-- A header with an uncorrectable parcel raises the cause of its station, which no issue latch takes (R305). -/
theorem sectionHeader_uncorrectable {s : State} {d : DieId} {p : Pos} {st : Strm} {q : Parcel} {a wait : Nat}
    (hn : (((s.die d).sta p).ctxOf st).next = .hdr q a wait) (ha : a ≤ (s.die d).dcyc) (hb : (s.die d).imemBad p q 4 = true) :
    ∃ t c, exec (.sectionHeader d p st) s = .next t ∧
      (∀ e, e ≠ d → t.die e = s.die e) ∧ t.die d = { s.die d with causes := (s.die d).causes ++ [c] } ∧
      c.cause = .imemUncorrectable ∧ c.pos = p ∧ c.strm = st ∧ c.parcel = q ∧ c.rank = 1 := by
  rw [exec_sectionHeader, readHeader_eq hn, if_neg (Nat.not_lt.2 ha), if_pos hb]
  exact ⟨_, _, rfl, fun e he => die_updDie_ne _ _ _ he.symm, die_setDie .., rfl, rfl, rfl, rfl, rfl⟩

/-- The cause that a bad header raises. -/
def badHeaderCause (p : Pos) (st : Strm) (q : Parcel) : CauseRec where
  cause := .badHeader
  sub := causeSub .badHeader
  rank := 2
  pos := p
  strm := st
  parcel := q
  named := true
  order := 0

/-- A bad header raises BAD_HEADER and stays the stream's next. -/
theorem sectionHeader_bad {s : State} {d : DieId} {p : Pos} {st : Strm} {q : Parcel} {a wait : Nat}
    (hn : (((s.die d).sta p).ctxOf st).next = .hdr q a wait) (ha : a ≤ (s.die d).dcyc) (hb : (s.die d).imemBad p q 4 = false)
    (hh : ¬HdrGood (((s.die d).sta p).hdrAt q) q) :
    ∃ t, exec (.sectionHeader d p st) s = .next t ∧ (∀ e, e ≠ d → t.die e = s.die e) ∧
      (∃ c, (t.die d).causes = (s.die d).causes ++ [c] ∧ c.cause = .badHeader ∧ c.pos = p ∧ c.strm = st ∧ c.parcel = q ∧ c.rank = 2) ∧
      (t.die d).latchNow = (s.die d).latchNow ++ [(p, st, q, 0x08)] ∧ (((t.die d).sta p).ctxOf st).next = .hdr q a wait := by
  have hbad : hdrBad (((s.die d).sta p).hdrAt q) q = true := by
    rw [← hdrBad_iff] at hh
    simpa using hh
  rw [exec_sectionHeader, readHeader_eq hn, if_neg (Nat.not_lt.2 ha), if_neg (by simp [hb]), if_pos hbad]
  obtain ⟨x, hx⟩ : ∃ x, ((s.focusOn d p st q false false).trap .badHeader).die d = x := ⟨_, rfl⟩
  have hd : x = { (s.die d).raise (badHeaderCause p st q) with latchNow := (s.die d).latchNow ++ [(p, st, q, 0x08)] } :=
    hx.symm.trans (die_setDie ..)
  refine ⟨_, rfl, fun e he => die_updDie_ne _ _ _ he.symm, ?_⟩
  rw [hx, hd]
  exact ⟨⟨_, rfl, rfl, rfl, rfl, rfl, rfl⟩, rfl, hn⟩

/-- What a header says of its section; deps of its own stream read 0xFF (R50). -/
theorem sectionOf_fields (st : Strm) (h : W64) (q : Parcel) : (sectionOf st h q).hdr = q ∧ (sectionOf st h q).pre = h.getLsbD 59 ∧
    (sectionOf st h q).lbf = h.getLsbD 58 ∧ (sectionOf st h q).xch = h.getLsbD 57 ∧
    (sectionOf st h q).snum.toNat = h.toNat / 2 ^ 40 % 256 ∧ (sectionOf st h q).len.toNat = h.toNat / 2 ^ 28 % 2 ^ 12 ∧
    (sectionOf st h q).deps.get st.idx = 0xFF ∧
    ((sectionOf st h q).deps.toList.eraseIdx st.idx.val).map BitVec.toNat =
      [h.toNat / 2 ^ 16 % 256, h.toNat / 2 ^ 8 % 256, h.toNat % 256] := by
  have hd : [fld h 16 8, fld h 8 8, fld h 0 8].map BitVec.toNat = [h.toNat / 2 ^ 16 % 256, h.toNat / 2 ^ 8 % 256, h.toNat % 256] := by
    simp only [List.map_cons, List.map_nil, toNat_fld, Nat.pow_zero, Nat.div_one]
    rfl
  refine ⟨rfl, rfl, rfl, rfl, toNat_fld h 40 8, toNat_fld h 28 12, ?_, ?_⟩
  · cases st <;> rfl
  · rw [← hd]
    cases st <;> rfl

/-- A context that has read the header `h` at `q`: its section is open, its loop buffer empty, its first word due in cycle `n`. -/
def Ctx.opened (c : Ctx) (st : Strm) (h : W64) (q : Parcel) (n : Nat) : Ctx :=
  { c with sect := some (sectionOf st h q), entering := true, lbuf := [], next := .word (q + 4) n }

/-- A good header opens its section, with an empty loop buffer (R51, R52, R55). -/
theorem sectionHeader_opens {s : State} {d : DieId} {p : Pos} {st : Strm} {q : Parcel} {a wait : Nat}
    (hn : (((s.die d).sta p).ctxOf st).next = .hdr q a wait) (ha : a ≤ (s.die d).dcyc) (hb : (s.die d).imemBad p q 4 = false)
    (hh : HdrGood (((s.die d).sta p).hdrAt q) q) :
    exec (.sectionHeader d p st) s = .next (s.setDie d ((s.die d).setSta p (((s.die d).sta p).setCtx st
      ((((s.die d).sta p).ctxOf st).opened st (((s.die d).sta p).hdrAt q) q
        ((s.die d).dcyc + wait + ((s.die d).sta p).dlyAt (q + 4)))))) := by
  rw [exec_sectionHeader, readHeader_eq hn, if_neg (Nat.not_lt.2 ha), if_neg (by simp [hb]), if_neg (by simp [(hdrBad_iff _ _).2 hh])]
  rfl

end Sys2Proof.Machine

-- ## Monitors and snapshots (R312, R314)

namespace Sys2Proof.Machine

-- What a monitor watches, and its condition.

theorem monValue_fields {cfg : W64} {kind sel : Nat} {p : Pos} (hk : kind = cfg.toNat / 2 ^ 56 % 16)
    (hs : sel = cfg.toNat / 2 ^ 40 % 256) (hp : p.val = cfg.toNat / 2 ^ 48 % 128) :
    (fld cfg 56 4).toNat = kind ∧ (fld cfg 40 8).toNat = sel ∧ Fin.ofNat 128 (fld cfg 48 7).toNat = p := by
  refine ⟨(toNat_fld ..).trans hk.symm, (toNat_fld ..).trans hs.symm, Fin.ext ?_⟩
  have h : (fld cfg 48 7).toNat = p.val := (toNat_fld ..).trans hp.symm
  rw [h]
  exact Nat.mod_eq_of_lt p.isLt

theorem monValue_cases (s : State) (d : DieId) (cfg : W64) (kind sel : Nat) (p : Pos) (hk : kind = cfg.toNat / 2 ^ 56 % 16)
    (hs : sel = cfg.toNat / 2 ^ 40 % 256) (hp : p.val = cfg.toNat / 2 ^ 48 % 128) :
    (kind = 0 → s.monValue d cfg = if sel < 8 then some (((s.die d).sta p).fqOf (BitVec.ofNat 3 sel)).length else none) ∧
    (kind = 1 → s.monValue d cfg = some ((s.fs d).pathN p)) ∧
    (kind = 2 → s.monValue d cfg = if sel < 16 then some (128 - ((s.die d).items.filter fun i => decide (i.lane = sel ∧
      i.entry ≤ (s.die d).dcyc ∧ (s.die d).dcyc ≤ i.entry + i.hops)).length) else none) ∧
    (kind = 3 → s.monValue d cfg = if s.masterOf d = d ∧ sel < 24 then some (kget {} sel (s.die d).masters).arr.length else none) ∧
    (kind = 4 → s.monValue d cfg = some (s.die d).holdcnt) ∧ (5 ≤ kind → s.monValue d cfg = none) := by
  obtain ⟨ek, es, ep⟩ := monValue_fields hk hs hp
  refine ⟨?_, ?_, ?_, ?_, ?_, ?_⟩ <;> intro h
  · simp only [State.monValue, ek, es, ep, h]
  · simp only [State.monValue, ek, ep, h]
  · have hf (i : Item) : (i.lane == sel && decide (i.entry ≤ (s.die d).dcyc) && decide ((s.die d).dcyc ≤ i.entry + i.hops)) =
        decide (i.lane = sel ∧ i.entry ≤ (s.die d).dcyc ∧ (s.die d).dcyc ≤ i.entry + i.hops) := by
      simp only [Bool.decide_and, Bool.and_assoc]
      rfl
    simp only [State.monValue, ek, es, h, hf]
  · simp only [State.monValue, ek, es, h]
  · simp only [State.monValue, ek, h]
  · unfold State.monValue
    dsimp only
    rw [ek]
    split
    any_goals omega
    rfl

theorem monHolds_cases (cfg : W64) (v th : Nat) (ht : th = cfg.toNat % 2 ^ 32) :
    (cfg.toNat / 2 ^ 60 % 4 = 0 → (monHolds cfg v = true ↔ v < th)) ∧ (cfg.toNat / 2 ^ 60 % 4 = 1 → (monHolds cfg v = true ↔ th ≤ v)) ∧
    (cfg.toNat / 2 ^ 60 % 4 = 2 → (monHolds cfg v = true ↔ v = th)) ∧ (cfg.toNat / 2 ^ 60 % 4 = 3 → (monHolds cfg v = true ↔ v ≠ th)) := by
  have e2 : (fld cfg 60 2).toNat = cfg.toNat / 2 ^ 60 % 4 := toNat_fld ..
  have et : (fld cfg 0 32).toNat = th := by rw [toNat_fld, Nat.pow_zero, Nat.div_one, ht]
  refine ⟨?_, ?_, ?_, ?_⟩ <;> intro h <;>
    simp only [monHolds, e2, et, h, decide_eq_true_eq, beq_iff_eq, bne_iff_ne]

/-- The condition of a monitor holds. -/
theorem monHit_iff (s : State) (d : DieId) (m : Monitor) :
    s.monHit d m = true ↔ m.cfg.getLsbD 63 = true ∧ ∃ v, s.monValue d m.cfg = some v ∧ monHolds m.cfg v = true := by
  unfold State.monHit
  rw [Bool.and_eq_true]
  refine and_congr_right' ?_
  split
  · next v h => simp [h]
  · next h => simp [h]

-- Canonical maps read at their keys.

theorem kget_of_mem {α : Type} {d : α} : ∀ {m : KMap α} {e : Nat × α}, (m.map (·.1)).Nodup → e ∈ m → kget d e.1 m = e.2
  | (k, v) :: t, e, hn, he => by
    obtain ⟨hk, ht⟩ := List.nodup_cons.1 hn
    obtain rfl | he := List.mem_cons.1 he
    · exact if_pos rfl
    · exact (if_neg fun h => hk (List.mem_map.2 ⟨e, he, h.symm⟩)).trans (kget_of_mem ht he)

/-- Entries of distinct keys put one after another. -/
theorem kget_foldl_puts (f : Monitor → Monitor) (n : Nat) : ∀ (l : KMap Monitor) (m : KMap Monitor), (l.map (·.1)).Nodup →
    (∀ e ∈ l, e.1 = n → (kget {} n (l.foldl (fun m e => kput {} e.1 (f e.2) m) m) : Monitor) = f e.2) ∧
    (n ∉ l.map (·.1) → (kget {} n (l.foldl (fun m e => kput {} e.1 (f e.2) m) m) : Monitor) = kget {} n m)
  | [], _, _ => ⟨fun _ h => absurd h List.not_mem_nil, fun _ => rfl⟩
  | a :: l, m, hn => by
    obtain ⟨ha, hl⟩ := List.nodup_cons.1 hn
    obtain ⟨h1, h2⟩ := kget_foldl_puts f n l (kput {} a.1 (f a.2) m) hl
    refine ⟨fun e he hen => ?_, fun hk => ?_⟩
    · obtain rfl | he := List.mem_cons.1 he
      · exact (h2 (hen ▸ ha)).trans (by rw [kget_kput, if_pos hen.symm])
      · exact h1 e he hen
    · obtain ⟨hna, hnl⟩ := not_or.1 (List.mem_cons.not.1 hk)
      exact (h2 hnl).trans (by rw [kget_kput, if_neg hna])

-- The monitors at the end of an executed die cycle (R314).

/-- The cause of a monitor with FRZ = 1 that fires. -/
def monCause : CauseRec where
  cause := .monitorFire
  sub := 0
  rank := 5
  pos := 0
  strm := .c
  parcel := 0
  named := false
  order := 2

/-- The state with the monitors counted, and the cause raised where one that fires has FRZ = 1. -/
def State.monRaised (s : State) (d : DieId) (new : KMap Monitor) : State :=
  if new.any fun e => bit e.2.cfg 62 then
    s.setDie d ({ s.die d with monitors := s.monCounts d }.raise monCause)
  else s.setDie d { s.die d with monitors := s.monCounts d }

theorem monitors_quiet_raised {s : State} {d : DieId} (h : s.monNew d = []) : s.monitors d = s.monRaised d [] := monitors_quiet h

theorem monitors_fires {s : State} {d : DieId} {e : Nat × Monitor} {l : KMap Monitor} (h : s.monNew d = e :: l) : s.monitors d =
    if bit e.2.cfg 62 then s.monRaised d (e :: l)
    else (s.monRaised d (e :: l)).hostEvent 4 0xFB d (BitVec.ofNat 64 ((s.die d).dcyc % 2 ^ 32)) := by
  unfold State.monNew State.monHits at h
  simp only [State.monitors, h, die_setDie, setDie_setDie]
  rfl

theorem monRaised_die (s : State) (d : DieId) (new : KMap Monitor) : (s.monRaised d new).die d = { s.die d with
    monitors := s.monCounts d,
    causes := (s.die d).causes ++ if new.any fun e => bit e.2.cfg 62 then [monCause] else [] } := by
  unfold State.monRaised
  split
  · rw [die_setDie]
    rfl
  · rw [die_setDie, List.append_nil]

theorem monRaised_hub (s : State) (d : DieId) (new : KMap Monitor) : (s.monRaised d new).hub = s.hub := by
  unfold State.monRaised
  split <;> rfl

/-- The monitors of a die count, and one that fires may raise a cause: nothing else of the die changes. -/
theorem monitors_die (s : State) (d : DieId) : (s.monitors d).die d = { s.die d with
    monitors := s.monCounts d,
    causes := (s.die d).causes ++ if (s.monNew d).any fun e => bit e.2.cfg 62 then [monCause] else [] } := by
  rw [← monRaised_die]
  cases h : s.monNew d with
  | nil => rw [monitors_quiet_raised h]
  | cons e l =>
    rw [monitors_fires h]
    split <;> rfl

section Monitored
variable {s : State} {d : DieId} (hw : kwf ({} : Monitor) (s.die d).monitors = true)

/-- Monitor `n` of the die. -/
def State.monitor (s : State) (d : DieId) (n : Nat) : Monitor := kget {} n (s.die d).monitors

theorem monitor_ne_of_hit {n : Nat} (h : s.monHit d (s.monitor d n) = true) : s.monitor d n ≠ {} := by
  intro he
  rw [he, monHit_iff] at h
  exact absurd h.1 (by decide)

include hw

theorem mem_monHits {e : Nat × Monitor} : e ∈ s.monHits d ↔ e.2 = s.monitor d e.1 ∧ s.monHit d (s.monitor d e.1) = true := by
  rw [State.monHits, List.mem_filter]
  constructor
  · rintro ⟨he, hh⟩
    have hk : s.monitor d e.1 = e.2 := kget_of_mem (kwf_keys_nodup hw) he
    rw [hk]
    exact ⟨rfl, hh⟩
  · rintro ⟨he, hh⟩
    have hm : (e.1, s.monitor d e.1) ∈ (s.die d).monitors := mem_of_kget_ne (monitor_ne_of_hit hh)
    rw [← he] at hm hh
    exact ⟨hm, hh⟩

theorem mem_monNew {e : Nat × Monitor} : e ∈ s.monNew d ↔
    e.2 = s.monitor d e.1 ∧ s.monHit d (s.monitor d e.1) = true ∧ (s.monitor d e.1).fired = false := by
  rw [State.monNew, List.mem_filter, mem_monHits hw, and_assoc]
  constructor
  · rintro ⟨he, hh, hf⟩
    exact ⟨he, hh, by simpa [he] using hf⟩
  · rintro ⟨he, hh, hf⟩
    exact ⟨he, hh, by simp [he, hf]⟩

theorem monNew_sorted : (s.monNew d).Pairwise fun a b => a.1 < b.1 :=
  (((kwf_iff _ _).1 hw).1.filter _).filter _

/-- Each monitor whose condition holds has counted, and no other has. -/
theorem kget_monCounts (n : Nat) : (kget {} n (s.monCounts d) : Monitor) =
    if s.monHit d (s.monitor d n) then (s.monitor d n).count else s.monitor d n := by
  have hn : ((s.monHits d).map (·.1)).Nodup :=
    List.pairwise_map.2 ((((kwf_iff _ _).1 hw).1.filter _).imp Nat.ne_of_lt)
  obtain ⟨h1, h2⟩ := kget_foldl_puts Monitor.count n (s.monHits d) (s.die d).monitors hn
  split
  · next hh => exact h1 (n, s.monitor d n) ((mem_monHits hw).2 ⟨rfl, hh⟩) rfl
  · next hh =>
    refine h2 fun hk => ?_
    obtain ⟨e, he, rfl⟩ := List.mem_map.1 hk
    exact hh ((mem_monHits hw).1 he).2

end Monitored

end Sys2Proof.Machine

-- ## The obligation on die cycles and holds (R18 to R23, R50, R51, R312, R314)

namespace Sys2Proof.Machine

theorem monRaised_eq (s : State) (d : DieId) (new : KMap Monitor) : ∃ y, s.monRaised d new = s.setDie d y := by
  unfold State.monRaised
  split
  · exact ⟨_, rfl⟩
  · exact ⟨_, rfl⟩

/-- The monitors at the end of an executed die cycle (R314). -/
theorem monitors_fire (s t : State) (d : DieId) (x : Die) (ht : t = s.monitors d) (hx : x = s.die d)
    (hw : kwf ({} : Monitor) x.monitors = true) :
    let m (n : Nat) : Monitor := kget {} n x.monitors
    let hit (n : Nat) : Prop := (m n).cfg.getLsbD 63 = true ∧ ∃ v, s.monValue d (m n).cfg = some v ∧ monHolds (m n).cfg v = true
    let fires (n : Nat) : Prop := hit n ∧ (m n).fired = false
    (∀ n, (hit n → kget {} n (t.die d).monitors =
        { m n with cnt := if (m n).cnt = BitVec.allOnes 64 then (m n).cnt else (m n).cnt + 1, fired := true }) ∧
      (¬hit n → kget {} n (t.die d).monitors = m n)) ∧
    t.die d = { x with monitors := (t.die d).monitors, causes := (t.die d).causes } ∧
    ((∀ n, fires n → (m n).cfg.getLsbD 62 = false) → (t.die d).causes = x.causes) ∧
    ((∃ n, fires n ∧ (m n).cfg.getLsbD 62 = true) → ∃ c, (t.die d).causes = x.causes ++ [c] ∧ c.cause = .monitorFire ∧
      c.named = false) ∧
    ((∀ n, ¬fires n) → t.hub = s.hub) ∧
    (∀ n, fires n → (∀ k, k < n → ¬fires k) → t.hub.hevnow = s.hub.hevnow ++ (if (m n).cfg.getLsbD 62 = true then [] else
      [eventOf 4 0xFB (match s.teamOf d with | some g => g.num | none => 0) d (BitVec.ofNat 64 (x.dcyc % 2 ^ 32)) s.sidc])) := by
  subst hx ht
  intro m hit fires
  have hhit (n : Nat) : s.monHit d (s.monitor d n) = true ↔ hit n := monHit_iff ..
  have hnew {e : Nat × Monitor} : e ∈ s.monNew d ↔ e.2 = m e.1 ∧ fires e.1 := by
    rw [mem_monNew hw, hhit]
    rfl
  have hfrz : ((s.monNew d).any fun e => bit e.2.cfg 62) = true ↔ ∃ n, fires n ∧ (m n).cfg.getLsbD 62 = true := by
    rw [List.any_eq_true]
    constructor
    · rintro ⟨e, he, hb⟩
      obtain ⟨h1, h2⟩ := hnew.1 he
      exact ⟨e.1, h2, h1 ▸ hb⟩
    · rintro ⟨n, hf, hb⟩
      exact ⟨(n, m n), hnew.2 ⟨rfl, hf⟩, hb⟩
  rw [monitors_die]
  refine ⟨fun n => ⟨fun h => ?_, fun h => ?_⟩, rfl, fun h => ?_, fun h => ?_, fun h => ?_, fun n hn hmin => ?_⟩
  · exact (kget_monCounts hw n).trans (if_pos ((hhit n).2 h))
  · exact (kget_monCounts hw n).trans (if_neg ((hhit n).not.2 h))
  · have : ¬((s.monNew d).any fun e => bit e.2.cfg 62) = true := by
      rw [hfrz]
      rintro ⟨n, hn, hb⟩
      rw [h n hn] at hb
      cases hb
    change _ ++ (if _ then _ else _) = _
    rw [if_neg this, List.append_nil]
  · refine ⟨monCause, ?_, rfl, rfl⟩
    change _ ++ (if _ then _ else _) = _
    rw [if_pos (hfrz.2 h)]
  · have : s.monNew d = [] := List.eq_nil_iff_forall_not_mem.2 fun e he => h e.1 (hnew.1 he).2
    rw [monitors_quiet_raised this, monRaised_hub]
  · have hmem : (n, m n) ∈ s.monNew d := hnew.2 ⟨rfl, hn⟩
    cases hl : s.monNew d with
    | nil =>
      rw [hl] at hmem
      cases hmem
    | cons e l =>
      have he := hnew.1 (show e ∈ s.monNew d by rw [hl]; exact List.mem_cons_self ..)
      have hen : (n, m n) = e := by
        rw [hl] at hmem
        refine (List.mem_cons.1 hmem).resolve_right fun hm => ?_
        have hs := monNew_sorted hw (d := d)
        rw [hl] at hs
        exact hmin e.1 (List.rel_of_pairwise_cons hs hm) he.2
      subst hen
      rw [monitors_fires hl]
      split
      · rw [monRaised_hub, List.append_nil]
      · obtain ⟨y, hy⟩ := monRaised_eq s d ((n, m n) :: l)
        rw [hy]
        rfl

-- Snapshots (R312).

/-- What a snapshot alone makes of the end of a cycle. -/
theorem applyEoc_snap {s : State} {d : DieId} {p : Pos} (h : (s.die d).eoc = [.snap p]) : s.applyEoc d =
    (s.setDie d { s.die d with eoc := [] }).bump.setDie d (Die.arrClose ({ s.die d with eoc := [] }.setSta p
      { (s.die d).sta p with snap := { ((s.die d).sta p).live with sdcyc := BitVec.ofNat 64 (s.die d).dcyc } })) := by
  have hd : (s.setDie d { s.die d with eoc := [] }).bump.die d = { s.die d with eoc := [] } := die_setDie ..
  simp only [State.applyEoc, h]
  change (s.setDie d { s.die d with eoc := [] }).bump.setDie d (Die.arrClose (Die.applyOne (s.fs d)
    ((s.setDie d { s.die d with eoc := [] }).bump.die d) (.snap p))) = _
  rw [hd]
  rfl

/-- The hold record of a station that pops a loop entry is copied. -/
theorem snap_applyEoc (s : State) (d : DieId) (p : Pos) (h : (s.die d).eoc = [.snap p]) :
    ((s.applyEoc d).die d).sta p =
      { (s.die d).sta p with snap := { ((s.die d).sta p).live with sdcyc := BitVec.ofNat 64 (s.die d).dcyc } } := by
  rw [applyEoc_snap h, die_setDie]
  exact sta_setSta ..

end Sys2Proof.Machine

section
open Sys2Proof Sys2Proof.Machine

/-- Settles O50: the die cycle by its unmet conditions, the words that wait by their order and the ADMITs that clash, the header by its
fields, and the monitors by their keys. -/
theorem dieCyclesAndHolds : Obligations.DieCyclesAndHolds := by
  unfold Obligations.DieCyclesAndHolds
  refine ⟨dieCycle_cases, fun s d => waits_xch, fun s d u w hu hx => mem_waits hu hx,
    fun s d p st q i => ⟨mem_acting_acts, not_mem_acting_iff⟩, waitKind_admitWork,
    fun s d q pt ds => ⟨waitKind_fqpop_isSome s d q, ?_, rfl, rfl⟩,
    fun s d => ⟨farWait_quiet, farWait_raises⟩,
    fun s d => ⟨alignmentWaitEnd_waits, fun h1 h2 => ⟨_, alignmentWaitEnd_runs h1 h2, rfl⟩⟩, ?_,
    monValue_cases, monHolds_cases, monitors_fire,
    snap_applyEoc, ?_⟩
  · intro h rest hq hd
    rw [waitKind_fqpop_cons d hq, if_pos (Option.isNone_iff_eq_none.2 hd)]
    cases hh : h.home with
    | none => rw [headKind_none hh]
    | some k => rw [headKind_some hh]
  · rintro s d p st q a wait h hn rfl
    refine ⟨sectionHeader_early hn, imemBad_iff .., sectionHeader_uncorrectable hn, fun ha hb hg => ?_, fun ha hb hg => ?_⟩
    · refine ⟨_, (((s.die d).sta p).ctxOf st).opened st _ q _, sectionOf st _ q, sectionHeader_opens hn ha hb hg,
        ?_, ?_, rfl, rfl, sectionOf_fields ..⟩
      · rw [OnlyDie, die_setDie]
      · exact die_setDie ..
    · refine sectionHeader_bad hn ha hb fun hh => ?_
      unfold HdrGood at hh
      omega
  · intro s old hf
    rw [State.moveOn, hf]
    simp only [Bool.not_false, Bool.true_and, decide_eq_true_eq]
end

section
namespace Sys2Proof.RoundTrip

open Sys2Proof

-- ## Bits of concatenated fields

/-- Bits of a concatenation that lie in its low part. -/
theorem fld_append_lo {w v : Nat} (x : BitVec w) (y : BitVec v) (lo n : Nat) (h : lo + n ≤ v) :
    fld (no_index (x ++ y)) lo n = fld y lo n :=
  BitVec.extractLsb'_append_eq_of_add_le h

/-- Bits of a concatenation that lie in its high part. -/
theorem fld_append_hi {w v : Nat} (x : BitVec w) (y : BitVec v) (lo n : Nat) (h : v ≤ lo) :
    fld (no_index (x ++ y)) lo n = fld x (lo - v) n :=
  BitVec.extractLsb'_append_eq_of_le h

/-- One bit of a concatenation. -/
theorem bit_append {w v : Nat} (x : BitVec w) (y : BitVec v) (n : Nat) :
    bit (no_index (x ++ y)) n = if n < v then bit y n else bit x (n - v) := by
  rw [bit, BitVec.getLsbD_append]

theorem bit_b1 (b : Bool) : bit (b1 b) 0 = b := by simp

/-- The fields of a word are those it was made of (R43, R46). -/
theorem fieldsOf_wordOf (dly : Byte) (grd : BitVec 4) (f : Fields) : fieldsOf (wordOf dly grd f) = f := by
  simp [fieldsOf, wordOf, fld_append_lo, fld_append_hi]

theorem wordDly_wordOf (dly : Byte) (grd : BitVec 4) (f : Fields) : wordDly (wordOf dly grd f) = dly := by
  simp [wordDly, wordOf, fld_append_hi]

theorem wordGrd_wordOf (dly : Byte) (grd : BitVec 4) (f : Fields) : wordGrd (wordOf dly grd f) = grd := by
  simp [wordGrd, wordOf, fld_append_lo, fld_append_hi]

/-- The bytes and the low part that IMM48 is cut into make it up again (R46). -/
theorem imm48_fW (o : Byte) (m : BitVec 12) (d a : Byte) (v : BitVec 48) : (fW o m d a v).imm48 = v := by
  change fld v 40 8 ++ fld v 32 8 ++ fld v 0 32 = v
  ext i hi
  simp only [BitVec.getElem_append, BitVec.getElem_extractLsb']
  split <;> [skip; split] <;> rw [← BitVec.getLsbD_eq_getElem hi] <;> congr 1 <;> omega

/-- CNT of format K is made up of its three bytes (R46). -/
theorem cnt_fK (o : Byte) (m : BitVec 12) (d a : Byte) (n off : BitVec 24) : (fK o m d a n off).cnt = n := by
  change fld n 16 8 ++ fld n 8 8 ++ fld (fld n 0 8 ++ off) 24 8 = n
  rw [fld_append_hi _ _ _ _ (Nat.le_refl _)]
  ext i hi
  simp only [BitVec.getElem_append, BitVec.getElem_extractLsb']
  split <;> [skip; split] <;> rw [← BitVec.getLsbD_eq_getElem hi] <;> simp <;> congr 1 <;> omega

theorem off_fK (o : Byte) (m : BitVec 12) (d a : Byte) (n off : BitVec 24) : (fK o m d a n off).off = off := by
  simp [Fields.off, fK, fld_append_lo]

-- ## Field codes (R56, R57)

@[simp] theorem tyOf_tyCode (t : Ty) : tyOf (tyCode t) = some t := by cases t <;> rfl
@[simp] theorem rndOf_rndCode (r : Rnd) : rndOf (rndCode r) = some r := by cases r <;> rfl
@[simp] theorem condOf_condCode (c : Cond) : condOf (condCode c) = some c := by cases c <;> rfl
@[simp] theorem fsetOf_fsetCode (s : FSet) : fsetOf (fsetCode s) = some s := by cases s <;> rfl
@[simp] theorem fscopeOf_fscopeCode (s : FScope) : fscopeOf (fscopeCode s) = some s := by cases s <;> rfl
@[simp] theorem redOpOf_redOpCode (o : RedOp) : redOpOf (redOpCode o) = some o := by cases o <;> rfl
@[simp] theorem widOf_widCode (w : Wid) : widOf (widCode w) = w := by cases w <;> rfl
@[simp] theorem cavOpOf_cavOpCode (o : CavOp) : cavOpOf (cavOpCode o) = some o := by cases o <;> rfl
@[simp] theorem amoOpOf_amoOpCode (o : AmoOp) : amoOpOf (amoOpCode o) = some o := by cases o <;> rfl
@[simp] theorem fimgOf_fimgCode (m : Fimg) : fimgOf (fimgCode m) = some m := by cases m <;> rfl
@[simp] theorem fmtOf_fmtCode (m : Fimg) : fmtOf (fmtCode m) = some m := by cases m <;> rfl
@[simp] theorem gnanOf_gnanCode (g : Gnan) : gnanOf (gnanCode g) = some g := by cases g <;> rfl
@[simp] theorem imgOf_imgCode (m : Img) : imgOf (imgCode m) = some m := by cases m <;> rfl

/-- TY2 has a code for the three 32-bit types alone. -/
theorem ty2Of_ty2Code {t : Ty} (h : t.int32 = true) : ty2Of (ty2Code t) = some t := by
  cases t with
  | f32 | i32 | n32 => rfl
  | _ => cases h

-- ## Register fields (R48, R49)

@[simp] theorem vecOf_vecCode (v : BitVec 5) : vecOf (vecCode v) = some v := by revert v; decide
@[simp] theorem sDstOf_sCode (v : BitVec 6) : sDstOf (sCode v) = some v := by revert v; decide
@[simp] theorem mskOf_mskCode (v : BitVec 3) : mskOf (mskCode v) = some v := by revert v; decide
@[simp] theorem prdOf_prdCode (v : BitVec 3) : prdOf (prdCode v) = some v := by revert v; decide
@[simp] theorem btrOf_btrCode (v : BitVec 3) : btrOf (btrCode v) = some v := by revert v; decide
@[simp] theorem queOf_queCode (v : BitVec 3) : queOf (queCode v) = some v := by revert v; decide
@[simp] theorem edgOf_edgCode (v : BitVec 2) : edgOf (edgCode v) = some v := by revert v; decide
@[simp] theorem lanOf_lanCode (v : BitVec 4) : lanOf (lanCode v) = some v := by revert v; decide

theorem tspOf_tspCode {v : BitVec 4} (h : (v != 15) = true) : tspOf (tspCode v) = some v := by revert v; decide
theorem aDstOf_sCode {v : BitVec 6} (h : aDest v = true) : aDstOf (sCode v) = some v := by revert v; decide

theorem scalCode_reg (n : BitVec 6) : scalCode (.reg n) < 0x40 ∧ (scalCode (.reg n)).setWidth 6 = n := by revert n; decide

theorem scalCode_ts (n : BitVec 4) :
    ¬scalCode (.ts n) < 0x40 ∧ (fld (scalCode (.ts n)) 4 4 == 7) = true ∧ (scalCode (.ts n)).setWidth 4 = n := by
  revert n; decide

/-- A scalar that the stream can name is read back from its code. -/
@[simp] theorem scalOf_scalCode {st : Strm} {x : Scal} (h : x.ok st = true) : scalOf st (scalCode x) = some x := by
  cases x with
  | reg n =>
    obtain ⟨hlt, hval⟩ := scalCode_reg n
    rw [scalOf, hval, if_pos (by rw [h, decide_eq_true hlt]; rfl)]
  | ts n =>
    obtain ⟨hlt, htag, hval⟩ := scalCode_ts n
    rw [scalOf, if_neg (by rw [decide_eq_false hlt]; exact Bool.false_ne_true), htag, hval]
    rfl

/-- CSRR's destination is read back from its code (R49). -/
theorem csrDstOf_csrCode {st : Strm} {d : CsrReg} (h : d.ok st false = true) : csrDstOf st (csrCode d) = some d := by
  have hn (n : BitVec 6) (o : Option (BitVec 6)) (ho : o = some n) :
      (o.map fun n => CsrReg.s (.reg n)) = some (.s (.reg n)) := by rw [ho]; rfl
  match st, d, h with
  | .c, .s (.reg n), _ => exact hn n _ (sDstOf_sCode n)
  | .l, .s (.reg n), h => exact hn n _ (aDstOf_sCode h)
  | .s, .s (.reg n), h => exact hn n _ (aDstOf_sCode h)
  | .x, .v n, _ => exact congrArg (Option.map CsrReg.v) (vecOf_vecCode n)
  | .c, .v _, h | .l, .v _, h | .s, .v _, h | _, .s (.ts _), h | .x, .s (.reg _), h => cases h

/-- CSRW's source is read back from its code (R49). -/
theorem csrSrcOf_csrCode {st : Strm} {a : CsrReg} (h : a.ok st true = true) : csrSrcOf st (csrCode a) = some a := by
  have hs (x : Scal) (hx : x.ok st = true) : (scalOf st (scalCode x)).map CsrReg.s = some (.s x) := by
    rw [scalOf_scalCode hx]; rfl
  match st, a, h with
  | .c, .s (.reg n), h | .c, .s (.ts n), h | .l, .s (.reg n), h | .l, .s (.ts n), h | .s, .s (.reg n), h
  | .s, .s (.ts n), h => exact hs _ h
  | .x, .v n, _ => exact congrArg (Option.map CsrReg.v) (vecOf_vecCode n)
  | .c, .v _, h | .l, .v _, h | .s, .v _, h | .x, .s (.reg _), h | .x, .s (.ts _), h => cases h

-- ## `b|imm` (R47)

section
variable {st : Strm} {o d a c : Byte} {lo : BitVec 11}

/-- The scalar `b|imm` of a word is the one encoded. -/
theorem sopOf_eSop {b : SOp} (h : b.ok st = true) : sopOf st (sopEnc b).1 (eSop o lo d a b c) = some b := by
  cases b with
  | r x => exact congrArg (Option.map SOp.r) (scalOf_scalCode h)
  | i v => rfl

theorem opZ_eSop (b : SOp) : opZ (sopEnc b).1 (eSop o lo d a b c) = true := by cases b <;> rfl

/-- The vector `b|imm` of a word is the one encoded. -/
theorem vopOf_eVop (b : VOp) : vopOf (vopEnc b).1 (eVop o lo d a b c) = some b := by
  cases b with
  | r v => exact congrArg (Option.map VOp.r) (vecOf_vecCode v)
  | i v => rfl

theorem opZ_eVop (b : VOp) : opZ (vopEnc b).1 (eVop o lo d a b c) = true := by cases b <;> rfl

end

-- ## MOD layouts (R57): each layout read back from the fields that make it up

section
variable {f : Fields}

theorem mI_eq {i : Bool} (h : f.mod = b1 i ++ 0#11) : mI f = some i := by
  simp [mI, h, fld_append_lo, bit_append, guardO, -BitVec.getLsbD_eq_getElem]

theorem mIU_eq {i u : Bool} (h : f.mod = b1 i ++ (0#10 ++ b1 u)) : mIU f = some (i, u) := by
  simp [mIU, h, fld_append_lo, fld_append_hi, bit_append, guardO, -BitVec.getLsbD_eq_getElem]

theorem mScmp_eq {ok : Cond → Bool} {i : Bool} {c : Cond} (hc : ok c = true) (h : f.mod = b1 i ++ (0#7 ++ condCode c)) : mScmp ok f = some (i, c) := by
  simp [mScmp, h, fld_append_lo, fld_append_hi, bit_append, guardO, hc, -BitVec.getLsbD_eq_getElem]

theorem mSfp_eq {i : Bool} {r : Rnd} (h : f.mod = b1 i ++ (0#3 ++ rndCode r ++ 0#5)) : mSfp f = some (i, r) := by
  simp [mSfp, h, fld_append_lo, fld_append_hi, bit_append, -BitVec.getLsbD_eq_getElem]

theorem mCvt_eq {ok : Ty → Bool} {s t : Ty} {r : Rnd} {sat : Bool} (hs : ok s = true) (ht : ok t = true) (hne : s ≠ t)
    (h : f.mod = cvtMod s t r sat) : mCvt ok f = some (s, t, r, sat) := by
  simp [mCvt, cvtMod, h, fld_append_lo, fld_append_hi, bit_append, guardO, hs, ht, hne, -BitVec.getLsbD_eq_getElem]

theorem mTt_eq {tt : BitVec 4} (h : f.mod = 0#8 ++ tt) : mTt f = some tt := by
  simp [mTt, h, fld_append_lo, fld_append_hi, guardO, -BitVec.getLsbD_eq_getElem]

theorem mPt_eq {i : Bool} {pt : BitVec 5} (hp : pt < 24) (h : f.mod = b1 i ++ (0#6 ++ pt)) : mPt true f = some (i, pt) := by
  simpa [mPt, h, fld_append_lo, fld_append_hi, bit_append, guardO, -BitVec.getLsbD_eq_getElem] using hp

theorem mPt_point {pt : BitVec 5} (hp : pt < 24) (h : f.mod = 0#7 ++ pt) : mPt false f = some (false, pt) := by
  simpa [mPt, h, fld_append_lo, fld_append_hi, bit_append, guardO, -BitVec.getLsbD_eq_getElem] using hp

theorem mFence_eq {s : FSet} {c : FScope} (h : f.mod = 0#8 ++ fsetCode s ++ fscopeCode c) : mFence f = some (s, c) := by
  simp [mFence, h, fld_append_lo, fld_append_hi, -BitVec.getLsbD_eq_getElem]

theorem mVa_eq {ok : Ty → Rnd → Bool → Bool} {i : Bool} {m : BitVec 3} {r : Rnd} {sat : Bool} {t : Ty} (hok : ok t r sat = true)
    (h : f.mod = b1 i ++ va m r sat t) : mVa true ok f = some (i, m, r, sat, t) := by
  simp [mVa, va, h, fld_append_lo, fld_append_hi, bit_append, guardO, hok, -BitVec.getLsbD_eq_getElem]

theorem mVa_noImm {ok : Ty → Rnd → Bool → Bool} {m : BitVec 3} {r : Rnd} {sat : Bool} {t : Ty} (hok : ok t r sat = true)
    (h : f.mod = 0#1 ++ va m r sat t) : mVa false ok f = some (false, m, r, sat, t) := by
  simp [mVa, va, h, fld_append_lo, fld_append_hi, bit_append, guardO, hok, -BitVec.getLsbD_eq_getElem]

theorem mVc_eq {i : Bool} {m : BitVec 3} {c : Cond} {t : Ty} (ht : t.int32 = true) (hc : c.vec t = true)
    (h : f.mod = b1 i ++ (m ++ condCode c ++ tyCode t)) : mVc f = some (i, m, c, t) := by
  simp [mVc, h, fld_append_lo, fld_append_hi, bit_append, guardO, ht, hc, -BitVec.getLsbD_eq_getElem]

theorem mVx_eq {i : Bool} {m : BitVec 3} (h : f.mod = b1 i ++ vx m) : mVx true f = some (i, m) := by
  simp [mVx, vx, h, fld_append_lo, fld_append_hi, bit_append, guardO, -BitVec.getLsbD_eq_getElem]

theorem mVx_noImm {m : BitVec 3} (h : f.mod = 0#1 ++ vx m) : mVx false f = some (false, m) := by
  simp [mVx, vx, h, fld_append_lo, fld_append_hi, bit_append, guardO, -BitVec.getLsbD_eq_getElem]

theorem mVred_eq {m : BitVec 3} {r : Rnd} {op : RedOp} {t : Ty} (ht : t.int32 = true) (hr : redOk op t r = true)
    (h : f.mod = 0#1 ++ m ++ rndCode r ++ redOpCode op ++ ty2Code t) : mVred f = some (m, r, op, t) := by
  simp [mVred, h, fld_append_lo, fld_append_hi, bit_append, guardO, ty2Of_ty2Code ht, hr, -BitVec.getLsbD_eq_getElem]

theorem mVq_eq {col : Bool} {r : Rnd} {m : Fimg} (h : f.mod = 0#3 ++ b1 col ++ rndCode r ++ 0#1 ++ fmtCode m) : mVq true f = some (col, r, m) := by
  simp [mVq, h, fld_append_lo, fld_append_hi, bit_append, guardO, -BitVec.getLsbD_eq_getElem]

theorem mVq_noRnd {col : Bool} {m : Fimg} (h : f.mod = 0#3 ++ b1 col ++ 0#4 ++ fmtCode m) : mVq false f = some (col, .rne, m) := by
  simp [mVq, rndOf, h, fld_append_lo, fld_append_hi, bit_append, guardO, -BitVec.getLsbD_eq_getElem]

theorem mWid_eq {w : Wid} (h : f.mod = 0#10 ++ widCode w) : mWid f = some w := by
  simp [mWid, h, fld_append_lo, fld_append_hi, guardO, -BitVec.getLsbD_eq_getElem]

theorem mBit_eq {b : Bool} (h : f.mod = 0#11 ++ b1 b) : mBit f = some b := by
  simp [mBit, h, fld_append_hi, bit_append, guardO, -BitVec.getLsbD_eq_getElem]

theorem mCav_eq {op : CavOp} {slot : BitVec 2} (h : f.mod = 0#1 ++ cavOpCode op ++ 0#5 ++ slot) : mCav f = some (op, slot) := by
  simp [mCav, h, fld_append_lo, fld_append_hi, bit_append, -BitVec.getLsbD_eq_getElem]

theorem mAcrd_eq {bf16 north : Bool} {r : Rnd}
    (h : f.mod = 0#4 ++ rndCode r ++ b1 north ++ (if bf16 then 3#4 else 0#4)) : mAcrd f = some (bf16, r, north) := by
  cases bf16 <;>
    simp [mAcrd, h, fld_append_lo, fld_append_hi, bit_append, -BitVec.getLsbD_eq_getElem]

theorem mAcwr_eq {north : Bool} (h : f.mod = 0#7 ++ b1 north ++ 0#4) : mAcwr f = some north := by
  simp [mAcwr, h, fld_append_lo, fld_append_hi, bit_append, guardO, -BitVec.getLsbD_eq_getElem]

theorem mAmode_eq {g : Gnan} {m : Fimg} (h : f.mod = 0#8 ++ gnanCode g ++ fimgCode m) : mAmode f = some (m, g) := by
  simp [mAmode, h, fld_append_lo, fld_append_hi, -BitVec.getLsbD_eq_getElem]

theorem mAdmit_eq {reg pane : Bool} {k : FKind} (h : f.mod = 0#9 ++ b1 reg ++ b1 pane ++ b1 (k == .bwd)) :
    mAdmit f = some (reg, pane, k) := by
  cases k <;>
    simp [mAdmit, h, fld_append_hi, bit_append, guardO, -BitVec.getLsbD_eq_getElem]

theorem mSeat_eq {m : Img} {pane : Bool} (h : f.mod = 0#8 ++ imgCode m ++ b1 pane ++ 0#1) : mSeat f = some (m, pane) := by
  simp [mSeat, h, fld_append_lo, fld_append_hi, bit_append, -BitVec.getLsbD_eq_getElem]

theorem mTurn_eq {reg timed dn : Bool} (h : f.mod = 0#9 ++ b1 reg ++ b1 timed ++ b1 dn) : mTurn f = some (reg, timed, dn) := by
  simp [mTurn, h, fld_append_hi, bit_append, guardO, -BitVec.getLsbD_eq_getElem]

theorem mLdb_eq {nr : BitVec 4} (h : f.mod = 0#8 ++ nr) : mLdb f = some nr := by
  simp [mLdb, h, fld_append_lo, fld_append_hi, guardO, -BitVec.getLsbD_eq_getElem]

theorem mHaul_eq {af : Bool} {pt : Option (BitVec 5)} {r : Rnd} (hp : ∀ p ∈ pt, p < 24)
    (h : f.mod = b1 af ++ b1 pt.isSome ++ pt.getD 0 ++ rndCode r ++ 0#2) : mHaul f = some (af, pt, r) := by
  cases pt with
  | none => simp [mHaul, h, fld_append_lo, fld_append_hi, bit_append, -BitVec.getLsbD_eq_getElem]
  | some p =>
    simpa [mHaul, h, fld_append_lo, fld_append_hi, bit_append, -BitVec.getLsbD_eq_getElem] using hp p rfl

theorem mAmo_eq {op : AmoOp} (h : f.mod = 0#8 ++ amoOpCode op) : mAmo f = some op := by
  simp [mAmo, h, fld_append_lo, fld_append_hi, -BitVec.getLsbD_eq_getElem]

theorem mBufset_eq {full : Bool} (h : f.mod = 0#10 ++ b1 full ++ 0#1) : mBufset f = some full := by
  rw [mBufset, h]
  cases full <;> rfl

theorem mRg_eq {reg b : Bool} (h : f.mod = 0#10 ++ b1 reg ++ b1 b) : mRg f = some (reg, b) := by
  simp [mRg, h, fld_append_hi, bit_append, guardO, -BitVec.getLsbD_eq_getElem]

end

end Sys2Proof.RoundTrip
end

section
namespace Sys2Proof.RoundTrip

open Sys2Proof

-- ## IMM layouts (R57, R101, R136): what a word whose IMM is made up of these parts reads

section
variable {v : W32}

theorem imm12 {n : BitVec 12} (h : v = 0#20 ++ n) : (fld v 12 20 == 0) = true ∧ fld v 0 12 = n := by
  simp [h, fld_append_lo, fld_append_hi]

theorem imm3 {n : BitVec 3} (h : v = 0#29 ++ n) : (fld v 3 29 == 0) = true ∧ fld v 0 3 = n := by
  simp [h, fld_append_lo, fld_append_hi]

theorem imm16 {n : BitVec 16} (h : v = 0#16 ++ n) : (fld v 16 16 == 0) = true ∧ fld v 0 16 = n := by
  simp [h, fld_append_lo, fld_append_hi]

theorem imm4 {n : BitVec 4} (h : v = 0#28 ++ n) : (fld v 4 28 == 0) = true ∧ fld v 0 4 = n := by
  simp [h, fld_append_lo, fld_append_hi]

theorem imm5 {n : BitVec 5} (h : v = 0#27 ++ n) : (fld v 5 27 == 0) = true ∧ fld v 0 5 = n := by
  simp [h, fld_append_lo, fld_append_hi]

theorem imm_bext {sx : Bool} {w p : BitVec 6} (h : v = 0#17 ++ b1 sx ++ w ++ 0#2 ++ p) :
    (fld v 15 17 == 0) = true ∧ (fld v 6 2 == 0) = true ∧ bit v 14 = sx ∧ fld v 8 6 = w ∧ fld v 0 6 = p := by
  simp [h, fld_append_lo, fld_append_hi, bit_append, -BitVec.getLsbD_eq_getElem]

theorem imm_bins {w p : BitVec 6} (h : v = 0#18 ++ w ++ 0#2 ++ p) :
    (fld v 14 18 == 0) = true ∧ (fld v 6 2 == 0) = true ∧ fld v 8 6 = w ∧ fld v 0 6 = p := by
  simp [h, fld_append_lo, fld_append_hi]

theorem imm_trig {n : BitVec 4} {c : BitVec 8} (h : v = 0#20 ++ n ++ c) :
    (fld v 12 20 == 0) = true ∧ fld v 8 4 = n ∧ fld v 0 8 = c := by
  simp [h, fld_append_lo, fld_append_hi]

theorem imm_turn {link : BitVec 3} {g : BitVec 4} (h : v = 0#25 ++ link ++ g) :
    (fld v 7 25 == 0) = true ∧ fld v 4 3 = link ∧ fld v 0 4 = g := by
  simp [h, fld_append_lo, fld_append_hi]

theorem imm_laneq {link e : BitVec 3} (h : v = 0#25 ++ link ++ 0#1 ++ e) :
    (fld v 7 25 == 0) = true ∧ fld v 4 3 = link ∧ (!bit v 3) = true ∧ fld v 0 3 = e := by
  simp [h, fld_append_lo, fld_append_hi, bit_append, -BitVec.getLsbD_eq_getElem]

theorem imm_ldb {roff : BitVec 24} {row : BitVec 4} (h : v = ldbImm roff row) :
    (fld v 4 4 == 0) = true ∧ fld v 8 24 = roff ∧ fld v 0 4 = row := by
  simp [h, ldbImm, fld_append_lo, fld_append_hi]

theorem imm_far {row : BitVec 4} {nw : BitVec 6} {off : BitVec 22} (h : v = farImm row nw off) :
    fld v 28 4 = row ∧ fld v 22 6 = nw ∧ fld v 0 22 = off := by
  simp [h, farImm, fld_append_lo, fld_append_hi]

theorem imm_bankfmt {bank : BitVec 3} {ty : BitVec 4} {row : BitVec 7} (h : v = 0#13 ++ bank ++ 0#5 ++ ty ++ row) :
    (fld v 19 13 == 0) = true ∧ (fld v 11 5 == 0) = true ∧ fld v 16 3 = bank ∧ fld v 7 4 = ty ∧ fld v 0 7 = row := by
  simp [h, fld_append_lo, fld_append_hi]

theorem imm_hops {hops : BitVec 7} {row : BitVec 4} (h : v = 0#17 ++ hops ++ 0#4 ++ row) :
    (fld v 15 17 == 0) = true ∧ (fld v 4 4 == 0) = true ∧ fld v 8 7 = hops ∧ fld v 0 4 = row := by
  simp [h, fld_append_lo, fld_append_hi]

theorem imm_acrd {clr half : Bool} {row : BitVec 4} (h : v = 0#23 ++ b1 clr ++ 0#3 ++ b1 half ++ row) :
    (fld v 9 23 == 0) = true ∧ (fld v 5 3 == 0) = true ∧ bit v 8 = clr ∧ bit v 4 = half ∧ fld v 0 4 = row := by
  simp [h, fld_append_lo, fld_append_hi, bit_append, -BitVec.getLsbD_eq_getElem]

theorem imm_acwr {half : Bool} {row : BitVec 4} (h : v = 0#27 ++ b1 half ++ row) :
    (fld v 5 27 == 0) = true ∧ bit v 4 = half ∧ fld v 0 4 = row := by
  simp [h, fld_append_lo, fld_append_hi, bit_append, -BitVec.getLsbD_eq_getElem]

end

-- ## Words

/-- The opcode of the instruction's word is one of each stream that can hold it, and such a stream decodes the word's fields to it. -/
def RoundTrips (i : Instr) : Prop :=
  ∀ st, i.wf st = true →
    (∃ sts, opcStreams (encodeFields i).opc = some sts ∧ st ∈ sts) ∧ decodeFields st (encodeFields i) = .ok i

/-- A word whose MOD layout, register fields and zero fields are as they should be. -/
theorem dec_ok {μ ρ : Type} {m : Option μ} {r : μ → Option ρ} {z : μ → Bool} {k : μ → ρ → Instr} {u : μ} {x : ρ} {i : Instr}
    (hm : m = some u) (hr : r u = some x) (hz : z u = true) (hk : k u x = i) : dec m r z k = .ok i := by
  subst hm hk
  simp only [dec, hr, hz, if_true]

/-- A word without register fields. -/
theorem dec_noReg {μ : Type} {m : Option μ} {z : μ → Bool} {k : μ → Instr} {u : μ} {i : Instr} (hm : m = some u) (hz : z u = true)
    (hk : k u = i) : dec m (fun _ => some ()) z (fun u _ => k u) = .ok i :=
  dec_ok hm rfl hz hk

theorem mNone_eq {f : Fields} (h : f.mod = 0) : mNone f = some () := by rw [mNone, h]; rfl

theorem two_eq {α β : Type} {x : Option α} {y : Option β} {a : α} {b : β} (hx : x = some a) (hy : y = some b) :
    two x y = some (a, b) := by rw [hx, hy]; rfl

theorem three_eq {α β γ : Type} {x : Option α} {y : Option β} {z : Option γ} {a : α} {b : β} {c : γ} (hx : x = some a)
    (hy : y = some b) (hz : z = some c) : three x y z = some (a, b, c) := two_eq hx (two_eq hy hz)

theorem map_eq {α β : Type} {x : Option α} {a : α} {g : α → β} (hx : x = some a) : x.map g = some (g a) := by rw [hx]; rfl

/-- A word of several streams. -/
theorem of_streams {i : Instr} (hs : Laws.Encoding.Statement i)
    (hd : ∀ {st}, i.wf st = true → decodeFields st (encodeFields i) = .ok i) : RoundTrips i :=
  fun st h => ⟨hs st h, hd h⟩

/-- A word of one stream alone. -/
theorem of_stream {i : Instr} {t : Strm} (hs : Laws.Encoding.Statement i) (ho : opcStreams (encodeFields i).opc = some [t])
    (hd : i.wf t = true → decodeFields t (encodeFields i) = .ok i) : RoundTrips i := by
  refine of_streams hs fun {st} h => ?_
  obtain ⟨sts, hsts, hmem⟩ := hs st h
  obtain rfl : [t] = sts := Option.some.inj (ho.symm.trans hsts)
  obtain rfl := List.mem_singleton.1 hmem
  exact hd h

/-- A word of several streams whose MOD is zero; MOD is kept apart, so that the decoder's check of it stays in sight. -/
theorem of_streams_zeroMod {i : Instr} (hs : Laws.Encoding.Statement i) (h0 : (encodeFields i).mod = 0)
    (hd : ∀ {st m}, m = 0 → i.wf st = true → decodeFields st { encodeFields i with mod := m } = .ok i) : RoundTrips i :=
  of_streams hs fun h => hd h0 h

/-- A word of one stream alone whose MOD is zero. -/
theorem of_stream_zeroMod {i : Instr} {t : Strm} (hs : Laws.Encoding.Statement i) (ho : opcStreams (encodeFields i).opc = some [t])
    (h0 : (encodeFields i).mod = 0)
    (hd : ∀ {m}, m = 0 → i.wf t = true → decodeFields t { encodeFields i with mod := m } = .ok i) : RoundTrips i :=
  of_stream hs ho fun h => hd h0 h

/-- A step of the part has no word. -/
theorem of_none {i : Instr} (h : ∀ st, i.wf st = false) : RoundTrips i := fun st w => by rw [h st] at w; cases w

-- ## The forms that several words share

/-- What a word's well-formedness says of its last operand but one. -/
theorem ok_left {p q r : Bool} (h : (p && q && r) = true) : q = true := Bool.and_elim_right (Bool.and_elim_left h)

/-- What a word's well-formedness says of its last operand. -/
theorem ok_right {p q : Bool} (h : (p && q) = true) : q = true := Bool.and_elim_right h

section
variable {st : Strm} {o : Byte} {p : Bool} {d : BitVec 6} {a : Scal} {b : SOp} {x y : BitVec 5} {u : VOp} {m : BitVec 3}

theorem dSalu_eSop {k : BitVec 6 → Scal → SOp → Instr} (h : (p && a.ok .c && b.ok .c) = true) :
    dSalu (eSop o 0 (sCode d) (scalCode a) b 0) k = .ok (k d a b) :=
  dec_ok (mI_eq rfl) (three_eq (sDstOf_sCode d) (scalOf_scalCode (ok_left h)) (sopOf_eSop (ok_right h)))
    (Bool.and_intro rfl (opZ_eSop b)) rfl

theorem dSaluU_eSop {k : Bool → BitVec 6 → Scal → SOp → Instr} {w : Bool} (h : (p && a.ok .c && b.ok .c) = true) :
    dSaluU (eSop o (0#10 ++ b1 w) (sCode d) (scalCode a) b 0) k = .ok (k w d a b) :=
  dec_ok (mIU_eq rfl) (three_eq (sDstOf_sCode d) (scalOf_scalCode (ok_left h)) (sopOf_eSop (ok_right h)))
    (Bool.and_intro rfl (opZ_eSop b)) rfl

theorem dAalu_eSop {k : BitVec 6 → Scal → SOp → Instr} (h : (p && aDest d && a.ok st && b.ok st) = true) :
    dAalu st (eSop o 0 (sCode d) (scalCode a) b 0) k = .ok (k d a b) :=
  dec_ok (mI_eq rfl) (three_eq (aDstOf_sCode (ok_left (Bool.and_elim_left h))) (scalOf_scalCode (ok_left h)) (sopOf_eSop (ok_right h)))
    (Bool.and_intro rfl (opZ_eSop b)) rfl

theorem dLdb_fT {k : BitVec 4 → BitVec 5 → Scal → BitVec 24 → BitVec 4 → Instr} {nr row : BitVec 4} {roff : BitVec 24}
    (h : (p && a.ok .l) = true) : dLdb (fT o (0#8 ++ nr) (vecCode x) (scalCode a) 0 0 (ldbImm roff row)) k = .ok (k nr x a roff row) := by
  obtain ⟨hz, hoff, hrow⟩ := imm_ldb (v := ldbImm roff row) rfl
  exact dec_ok (mLdb_eq rfl) (two_eq (vecOf_vecCode x) (scalOf_scalCode (ok_right h))) (Bool.and_intro rfl hz)
    (congrArg₂ (k nr x a) hoff hrow)

theorem dVa3_eVop {ok : Ty → Rnd → Bool → Bool} {k : Ty → Rnd → Bool → BitVec 3 → BitVec 5 → BitVec 5 → VOp → Instr} {t : Ty}
    {r : Rnd} {sat : Bool} (h : ok t r sat = true) :
    dVa3 ok (eVop o (va m r sat t) (vecCode x) (vecCode y) u 0) k = .ok (k t r sat m x y u) :=
  dec_ok (mVa_eq h rfl) (three_eq (vecOf_vecCode x) (vecOf_vecCode y) (vopOf_eVop u)) (Bool.and_intro rfl (opZ_eVop u)) rfl

theorem dVa2_fT {ok : Ty → Rnd → Bool → Bool} {k : Ty → Rnd → Bool → BitVec 3 → BitVec 5 → BitVec 5 → Instr} {t : Ty} {r : Rnd}
    {sat : Bool} (h : ok t r sat = true) :
    dVa2 ok (fT o (0#1 ++ va m r sat t) (vecCode x) (vecCode y) 0 0 0) k = .ok (k t r sat m x y) :=
  dec_ok (mVa_noImm h rfl) (two_eq (vecOf_vecCode x) (vecOf_vecCode y)) rfl rfl

/-- Layout VX is layout VA with the codes of `.rne` and `.f32` and no SAT. -/
theorem va_f32 (m : BitVec 3) : va m .rne false .f32 = vx m := by revert m; decide

/-- The transcendental words, whose layout VA holds a mask alone (R162). -/
theorem dVa2_onlyF32 {k : BitVec 3 → BitVec 5 → BitVec 5 → Instr} :
    dVa2 onlyF32 (fT o (0#1 ++ vx m) (vecCode x) (vecCode y) 0 0 0) (fun _ _ _ m d a => k m d a) = .ok (k m x y) := by
  rw [← va_f32]
  exact dVa2_fT rfl

theorem dVx3_eVop {k : BitVec 3 → BitVec 5 → BitVec 5 → VOp → Instr} :
    dVx3 (eVop o (vx m) (vecCode x) (vecCode y) u 0) k = .ok (k m x y u) :=
  dec_ok (mVx_eq rfl) (three_eq (vecOf_vecCode x) (vecOf_vecCode y) (vopOf_eVop u)) (Bool.and_intro rfl (opZ_eVop u)) rfl

/-- An immediate that fits is within the bits that the form takes. -/
theorem eVop_fits {n : Nat} {lo : BitVec 11} {c e : Byte} (h : u.fits n = true) :
    (!(vopEnc u).1 || decide ((eVop o lo c e u 0).imm.toNat < 2 ^ n)) = true := by
  cases u with
  | r _ => rfl
  | i _ => exact h

theorem dVx3n_eVop {n : Nat} {k : BitVec 3 → BitVec 5 → BitVec 5 → VOp → Instr} (h : u.fits n = true) :
    dVx3n n (eVop o (vx m) (vecCode x) (vecCode y) u 0) k = .ok (k m x y u) :=
  dec_ok (mVx_eq rfl) (three_eq (vecOf_vecCode x) (vecOf_vecCode y) (vopOf_eVop u))
    (Bool.and_intro (Bool.and_intro rfl (opZ_eVop u)) (eVop_fits h)) rfl

theorem dVx2_fT {k : BitVec 3 → BitVec 5 → BitVec 5 → Instr} :
    dVx2 (fT o (0#1 ++ vx m) (vecCode x) (vecCode y) 0 0 0) k = .ok (k m x y) :=
  dec_ok (mVx_noImm rfl) (two_eq (vecOf_vecCode x) (vecOf_vecCode y)) rfl rfl

/-- The third operand of an atomic is read back: its code under `.cas`, and a0 otherwise (R60). -/
theorem casOf_eq {op : AmoOp} {f : Fields} {c : Scal} (hc : c.ok .s = true) (ho : amoOk op c = true) (hf : f.c = scalCode c) :
    casOf op f = some c := by
  rw [casOf, hf]
  split
  · exact scalOf_scalCode hc
  · next h =>
    rw [amoOk, Bool.or_eq_true, beq_iff_eq, beq_iff_eq] at ho
    rw [beq_iff_eq] at h
    rw [ho.resolve_left h]

/-- Field C is zero but under `.cas` (R60). -/
theorem amo_zero {op : AmoOp} {f : Fields} {c : Scal} (ho : amoOk op c = true) (hf : f.c = scalCode c) :
    (op == .cas || f.c == 0) = true := by
  rw [amoOk, Bool.or_eq_true] at ho
  rw [hf, Bool.or_eq_true]
  refine ho.imp id fun h => ?_
  rw [beq_iff_eq] at h
  rw [h]
  rfl

end

end Sys2Proof.RoundTrip
end

section
namespace Sys2Proof.RoundTrip

open Sys2Proof

-- ## Words with a form of their own

theorem pbr (d : BitVec 3) (t : PTarget) : RoundTrips (.pbr d t) := by
  refine of_streams (Laws.Encoding.pbr d t) fun {st} h => ?_
  cases t with
  | off o =>
    refine dec_ok (mBit_eq (b := false) rfl) (two_eq (btrOf_btrCode d) rfl) ?_ ?_
    · exact Bool.and_intro (beq_iff_eq.2 (cnt_fK ..)) rfl
    · exact congrArg (Instr.pbr d ∘ PTarget.off) (off_fK ..)
  | ind a =>
    refine dec_ok (mBit_eq (b := true) rfl) (two_eq (btrOf_btrCode d) (map_eq (scalOf_scalCode h))) ?_ rfl
    exact Bool.and_intro (beq_iff_eq.2 (cnt_fK ..)) (beq_iff_eq.2 (off_fK ..))

theorem loop (rot : Bool) (n : Count) (off : BitVec 24) : RoundTrips (.loop rot n off) := by
  refine of_streams (Laws.Encoding.loop rot n off) fun {st} h => ?_
  have hrot : (!rot || st == .x) = true := Bool.and_elim_left h
  have hm {f : Fields} {reg : Bool} (hm : mRg f = some (reg, rot)) :
      ((mRg f).bind fun m => guardO (!m.2 || st == .x) m) = some (reg, rot) := by
    rw [hm]
    exact if_pos hrot
  cases n with
  | cnt k =>
    refine dec_ok (hm (mRg_eq (reg := false) rfl)) (congrArg (some ∘ Count.cnt) (cnt_fK ..)) rfl ?_
    exact congrArg (Instr.loop rot (.cnt k)) (off_fK ..)
  | reg a =>
    refine dec_ok (hm (mRg_eq (reg := true) rfl)) (map_eq (scalOf_scalCode (Bool.and_elim_right h))) ?_ ?_
    · exact beq_iff_eq.2 (cnt_fK ..)
    · exact congrArg (Instr.loop rot (.reg a)) (off_fK ..)

theorem align (late : Bool) (t : Wide) : RoundTrips (.align late t) := by
  refine of_streams (Laws.Encoding.align late t) fun {st} h => ?_
  cases t with
  | imm v => exact dec_ok (mRg_eq (reg := false) rfl) (congrArg (some ∘ Wide.imm) (imm48_fW ..)) rfl rfl
  | reg a v =>
    refine dec_ok (mRg_eq (reg := true) rfl) (map_eq (scalOf_scalCode h)) rfl ?_
    exact congrArg (Instr.align late ∘ Wide.reg a) (imm48_fW ..)

theorem csrr (d : CsrReg) (n : BitVec 12) : RoundTrips (.csrr d n) := by
  refine of_streams_zeroMod (Laws.Encoding.csrr d n) rfl fun {st _} hm h => ?_
  obtain ⟨hz, hn⟩ := imm12 (n := n) rfl
  refine dec_ok (mNone_eq hm) (csrDstOf_csrCode h) ?_ ?_
  · exact Bool.and_intro rfl hz
  · exact congrArg (Instr.csrr d) hn

theorem csrw (a : CsrReg) (n : BitVec 12) : RoundTrips (.csrw a n) := by
  refine of_streams_zeroMod (Laws.Encoding.csrw a n) rfl fun {st _} hm h => ?_
  obtain ⟨hz, hn⟩ := imm12 (n := n) rfl
  refine dec_ok (mNone_eq hm) (csrSrcOf_csrCode h) ?_ ?_
  · exact Bool.and_intro rfl hz
  · exact congrArg (Instr.csrw a) hn

theorem trap (n : BitVec 3) : RoundTrips (.trap n) := by
  refine of_streams_zeroMod (Laws.Encoding.trap n) rfl fun {st _} hm _ => ?_
  obtain ⟨hz, hn⟩ := imm3 (n := n) rfl
  refine dec_noReg (mNone_eq hm) ?_ ?_
  · exact Bool.and_intro rfl hz
  · exact congrArg Instr.trap hn

theorem rdvi (pt : BitVec 5) (b : SOp) : RoundTrips (.rdvi pt b) := by
  refine of_streams (Laws.Encoding.rdvi pt b) fun {st} (h : (pt < 24 && b.ok st) = true) => ?_
  exact dec_ok (mPt_eq (of_decide_eq_true (Bool.and_elim_left h)) rfl) (sopOf_eSop (Bool.and_elim_right h))
    (Bool.and_intro rfl (opZ_eSop b)) rfl

theorem bext (sx : Bool) (d : BitVec 6) (a : Scal) (w p : BitVec 6) : RoundTrips (.bext sx d a w p) := by
  refine of_stream_zeroMod (Laws.Encoding.bext sx d a w p) rfl rfl fun {_} hm (h : (Strm.c == .c && a.ok .c) = true) => ?_
  obtain ⟨hz, hz', hsx, hw, hp⟩ := imm_bext (v := (encodeFields (.bext sx d a w p)).imm) rfl
  refine dec_ok (mNone_eq hm) (two_eq (sDstOf_sCode d) (scalOf_scalCode (ok_right h))) ?_ ?_
  · exact Bool.and_intro (Bool.and_intro rfl hz) hz'
  · simp only [hsx, hw, hp]

theorem bins (d : BitVec 6) (a : Scal) (w p : BitVec 6) : RoundTrips (.bins d a w p) := by
  refine of_stream_zeroMod (Laws.Encoding.bins d a w p) rfl rfl fun {_} hm (h : (Strm.c == .c && a.ok .c) = true) => ?_
  obtain ⟨hz, hz', hw, hp⟩ := imm_bins (w := w) (p := p) rfl
  refine dec_ok (mNone_eq hm) (two_eq (sDstOf_sCode d) (scalOf_scalCode (ok_right h))) ?_ ?_
  · exact Bool.and_intro (Bool.and_intro rfl hz) hz'
  · exact congrArg₂ (Instr.bins d a) hw hp

theorem movhi (d : BitVec 6) (v : BitVec 16) : RoundTrips (.movhi d v) := by
  refine of_stream_zeroMod (Laws.Encoding.movhi d v) rfl rfl fun {_} hm _ => ?_
  obtain ⟨hz, hv⟩ := imm16 (n := v) rfl
  refine dec_ok (mNone_eq hm) (sDstOf_sCode d) ?_ ?_
  · exact Bool.and_intro rfl hz
  · exact congrArg (Instr.movhi d) hv

theorem fcvt (src dst : Ty) (rnd : Rnd) (sat : Bool) (d : BitVec 6) (a : Scal) : RoundTrips (.fcvt src dst rnd sat d a) := by
  refine of_stream (Laws.Encoding.fcvt src dst rnd sat d a) rfl
    fun (h : (Strm.c == .c && src.fcvt && dst.fcvt && src != dst && a.ok .c) = true) => ?_
  simp only [Bool.and_eq_true, bne_iff_ne] at h
  obtain ⟨⟨⟨⟨-, hs⟩, ht⟩, hne⟩, ha⟩ := h
  exact dec_ok (mCvt_eq hs ht hne rfl) (two_eq (sDstOf_sCode d) (scalOf_scalCode ha)) rfl rfl

theorem sel (d : BitVec 6) (a : Scal) (b : SOp) (c : BitVec 3) : RoundTrips (.sel d a b c) := by
  refine of_stream (Laws.Encoding.sel d a b c) rfl fun (h : (Strm.c == .c && a.ok .c && b.ok .c) = true) => ?_
  exact dec_ok (mI_eq rfl)
    (two_eq (three_eq (sDstOf_sCode d) (scalOf_scalCode (ok_left h)) (sopOf_eSop (ok_right h))) (prdOf_prdCode c)) (opZ_eSop b) rfl

theorem cmp (cond : Cond) (d : BitVec 3) (a : Scal) (b : SOp) : RoundTrips (.cmp cond d a b) := by
  refine of_stream (Laws.Encoding.cmp cond d a b) rfl
    fun (h : (Strm.c == .c && cond.int && a.ok .c && b.ok .c) = true) => ?_
  exact dec_ok (mScmp_eq (ok_left (Bool.and_elim_left h)) rfl)
    (three_eq (prdOf_prdCode d) (scalOf_scalCode (ok_left h)) (sopOf_eSop (ok_right h))) (Bool.and_intro rfl (opZ_eSop b)) rfl

theorem fcmp (cond : Cond) (d : BitVec 3) (a : Scal) (b : SOp) : RoundTrips (.fcmp cond d a b) := by
  refine of_stream (Laws.Encoding.fcmp cond d a b) rfl
    fun (h : (Strm.c == .c && cond.fp && a.ok .c && b.ok .c) = true) => ?_
  exact dec_ok (mScmp_eq (ok_left (Bool.and_elim_left h)) rfl)
    (three_eq (prdOf_prdCode d) (scalOf_scalCode (ok_left h)) (sopOf_eSop (ok_right h))) (Bool.and_intro rfl (opZ_eSop b)) rfl

theorem acmp (cond : Cond) (d : BitVec 3) (a : Scal) (b : SOp) : RoundTrips (.acmp cond d a b) := by
  refine of_streams (Laws.Encoding.acmp cond d a b)
    fun {st} (h : (st.adr && cond.int && a.ok st && b.ok st) = true) => ?_
  exact dec_ok (mScmp_eq (ok_left (Bool.and_elim_left h)) rfl)
    (three_eq (prdOf_prdCode d) (scalOf_scalCode (ok_left h)) (sopOf_eSop (ok_right h))) (Bool.and_intro rfl (opZ_eSop b)) rfl

theorem fadd (r : Rnd) (d : BitVec 6) (a : Scal) (b : SOp) : RoundTrips (.fadd r d a b) := by
  refine of_stream (Laws.Encoding.fadd r d a b) rfl fun (h : (Strm.c == .c && a.ok .c && b.ok .c) = true) => ?_
  exact dec_ok (mSfp_eq rfl) (three_eq (sDstOf_sCode d) (scalOf_scalCode (ok_left h)) (sopOf_eSop (ok_right h)))
    (Bool.and_intro rfl (opZ_eSop b)) rfl

theorem fmul (r : Rnd) (d : BitVec 6) (a : Scal) (b : SOp) : RoundTrips (.fmul r d a b) := by
  refine of_stream (Laws.Encoding.fmul r d a b) rfl fun (h : (Strm.c == .c && a.ok .c && b.ok .c) = true) => ?_
  exact dec_ok (mSfp_eq rfl) (three_eq (sDstOf_sCode d) (scalOf_scalCode (ok_left h)) (sopOf_eSop (ok_right h)))
    (Bool.and_intro rfl (opZ_eSop b)) rfl

theorem ffma (r : Rnd) (d : BitVec 6) (a : Scal) (b : SOp) (c : Scal) : RoundTrips (.ffma r d a b c) := by
  refine of_stream (Laws.Encoding.ffma r d a b c) rfl
    fun (h : (Strm.c == .c && a.ok .c && b.ok .c && c.ok .c) = true) => ?_
  exact dec_ok (mSfp_eq rfl)
    (two_eq (three_eq (sDstOf_sCode d) (scalOf_scalCode (ok_left (Bool.and_elim_left h))) (sopOf_eSop (ok_left h)))
      (scalOf_scalCode (ok_right h))) (opZ_eSop b) rfl

theorem trig (n : BitVec 4) (c : BitVec 8) : RoundTrips (.trig n c) := by
  refine of_stream_zeroMod (Laws.Encoding.trig n c) rfl rfl fun {_} hm _ => ?_
  obtain ⟨hz, hn, hc⟩ := imm_trig (n := n) (c := c) rfl
  refine dec_noReg (mNone_eq hm) ?_ ?_
  · exact Bool.and_intro rfl hz
  · exact congrArg₂ Instr.trig hn hc

theorem awin (w : WinOp) : RoundTrips (.awin w) := by
  refine of_stream (t := .c) (Laws.Encoding.awin w) (by cases w <;> rfl) fun h => ?_
  cases w with
  | imm v =>
    refine dec_ok (mBit_eq (b := false) rfl) (congrArg (some ∘ WinOp.imm) (imm48_fW ..)) ?_ rfl
    have hv : v < 1099511627776 := of_decide_eq_true h
    have hb : fld v 40 8 = 0 := by
      apply BitVec.eq_of_toNat_eq
      rw [BitVec.extractLsb'_toNat, Nat.shiftRight_eq_div_pow]
      exact congrArg (· % 2 ^ 8) (Nat.div_eq_of_lt hv)
    exact beq_iff_eq.2 hb
  | reg a =>
    have ha : a.ok .c = true := h
    refine dec_ok (mBit_eq (b := true) rfl) (map_eq (scalOf_scalCode ha)) ?_ rfl
    exact beq_iff_eq.2 (imm48_fW ..)

theorem admitWork (k : FKind) (pane : Bool) (m : Count) : RoundTrips (.admitWork k pane m) := by
  refine of_stream (t := .c) (Laws.Encoding.admitWork k pane m) (by cases m <;> rfl) fun h => ?_
  cases m with
  | cnt n =>
    refine dec_ok (mAdmit_eq (reg := false) rfl) (congrArg (some ∘ Count.cnt) (cnt_fK ..)) ?_ rfl
    exact Bool.and_intro (beq_iff_eq.2 (off_fK ..)) rfl
  | reg a =>
    have ha : a.ok .c = true := h
    refine dec_ok (mAdmit_eq (reg := true) rfl) (map_eq (scalOf_scalCode ha)) ?_ rfl
    exact Bool.and_intro (beq_iff_eq.2 (off_fK ..)) (beq_iff_eq.2 (cnt_fK ..))

theorem acclr (north : Bool) (base : BitVec 16) : RoundTrips (.acclr north base) := by
  refine of_stream (Laws.Encoding.acclr north base) rfl fun _ => ?_
  obtain ⟨hz, hb⟩ := imm16 (n := base) rfl
  refine dec_noReg (mBit_eq rfl) ?_ ?_
  · exact Bool.and_intro rfl hz
  · exact congrArg (Instr.acclr north) hb

theorem turn (dn timed : Bool) (at_ : Option Scal) (link : BitVec 3) (g : BitVec 4) : RoundTrips (.turn dn timed at_ link g) := by
  refine of_stream (t := .c) (Laws.Encoding.turn dn timed at_ link g) (by cases at_ <;> rfl) fun h => ?_
  obtain ⟨hz, hl, hg⟩ := imm_turn (link := link) (g := g) rfl
  have hlt (hl' : link < 6) (hl : fld (0#25 ++ link ++ g) 4 3 = link) : decide (fld (0#25 ++ link ++ g) 4 3 < 6) = true := by
    rw [hl]
    exact decide_eq_true hl'
  cases at_ with
  | none =>
    refine dec_ok (mTurn_eq rfl) rfl ?_ ?_
    · exact Bool.and_intro (Bool.and_intro rfl hz) (hlt (of_decide_eq_true (Bool.and_elim_left h)) hl)
    · exact congrArg₂ (Instr.turn dn timed none) hl hg
  | some a =>
    refine dec_ok (mTurn_eq rfl) (map_eq (scalOf_scalCode (Bool.and_elim_right h))) ?_ ?_
    · exact Bool.and_intro (Bool.and_intro rfl hz) (hlt (of_decide_eq_true (Bool.and_elim_left h)) hl)
    · exact congrArg₂ (Instr.turn dn timed (some a)) hl hg

theorem laneq (d : BitVec 6) (link e : BitVec 3) : RoundTrips (.laneq d link e) := by
  refine of_stream_zeroMod (Laws.Encoding.laneq d link e) rfl rfl fun {_} hm (h : (Strm.c == .c && link < 6) = true) => ?_
  obtain ⟨hz, hl, hz', he⟩ := imm_laneq (link := link) (e := e) rfl
  refine dec_ok (mNone_eq hm) (sDstOf_sCode d) ?_ ?_
  · exact Bool.and_intro (Bool.and_intro (Bool.and_intro rfl hz) (by rw [← hl] at h; exact ok_right h)) hz'
  · exact congrArg₂ (Instr.laneq d) hl he

theorem fqpush (q : BitVec 3) (a : Scal) (row : BitVec 4) (nw : BitVec 6) (off : BitVec 22) :
    RoundTrips (.fqpush q a row nw off) := by
  refine of_stream_zeroMod (Laws.Encoding.fqpush q a row nw off) rfl rfl fun {_} hm (h : (Strm.l == .l && a.ok .l) = true) => ?_
  obtain ⟨hr, hw, ho⟩ := imm_far (v := (encodeFields (.fqpush q a row nw off)).imm) rfl
  refine dec_ok (mNone_eq hm) (two_eq (queOf_queCode q) (scalOf_scalCode (ok_right h))) rfl ?_
  simp only [hr, hw, ho]

theorem haul (af : Bool) (pt : Option (BitVec 5)) (r : Rnd) (d a b : Scal) : RoundTrips (.haul af pt r d a b) := by
  refine of_stream (t := .l) (Laws.Encoding.haul af pt r d a b) (by cases pt <;> rfl) fun h => ?_
  have hp : ∀ p ∈ pt, p < 24 := by
    rintro p rfl
    exact of_decide_eq_true (Bool.and_elim_right h)
  have hdab : (Strm.l == .l && d.ok .l && a.ok .l && b.ok .l) = true := Bool.and_elim_left h
  exact dec_ok (mHaul_eq hp rfl) (three_eq (scalOf_scalCode (ok_left (Bool.and_elim_left hdab)))
    (scalOf_scalCode (ok_left hdab)) (scalOf_scalCode (ok_right hdab))) rfl rfl

theorem bufset (full : Bool) (bd : BitVec 4) : RoundTrips (.bufset full bd) := by
  refine of_stream (Laws.Encoding.bufset full bd) rfl fun _ => ?_
  obtain ⟨hz, hb⟩ := imm4 (n := bd) rfl
  refine dec_noReg (mBufset_eq rfl) ?_ ?_
  · exact Bool.and_intro rfl hz
  · exact congrArg (Instr.bufset full) hb

theorem bankfmt (bank : BitVec 3) (ty : BitVec 4) (row : BitVec 7) : RoundTrips (.bankfmt bank ty row) := by
  refine of_stream_zeroMod (Laws.Encoding.bankfmt bank ty row) rfl rfl fun {_} hm _ => ?_
  obtain ⟨hz, hz', hb, ht, hr⟩ := imm_bankfmt (v := (encodeFields (.bankfmt bank ty row)).imm) rfl
  refine dec_noReg (mNone_eq hm) ?_ ?_
  · exact Bool.and_intro (Bool.and_intro rfl hz) hz'
  · simp only [hb, ht, hr]

theorem rld (nr : BitVec 4) (d : BitVec 5) (a : Scal) (row : BitVec 4) : RoundTrips (.rld nr d a row) := by
  refine of_stream (Laws.Encoding.rld nr d a row) rfl fun (h : (Strm.l == .l && a.ok .l) = true) => ?_
  obtain ⟨hz, hr⟩ := imm4 (n := row) rfl
  refine dec_ok (mLdb_eq rfl) (two_eq (vecOf_vecCode d) (scalOf_scalCode (ok_right h))) ?_ ?_
  · exact Bool.and_intro rfl hz
  · exact congrArg (Instr.rld nr d a) hr

theorem bst (nr : BitVec 4) (a : Scal) (b : BitVec 5) (roff : BitVec 24) (row : BitVec 4) : RoundTrips (.bst nr a b roff row) := by
  refine of_stream (Laws.Encoding.bst nr a b roff row) rfl fun (h : (Strm.s == .s && a.ok .s) = true) => ?_
  obtain ⟨hz, ho, hr⟩ := imm_ldb (roff := roff) (row := row) rfl
  refine dec_ok (mLdb_eq rfl) (two_eq (scalOf_scalCode (ok_right h)) (vecOf_vecCode b)) ?_ ?_
  · exact Bool.and_intro rfl hz
  · exact congrArg₂ (Instr.bst nr a b) ho hr

theorem fst (a : Scal) (b : BitVec 5) (row : BitVec 4) (nw : BitVec 6) (off : BitVec 22) : RoundTrips (.fst a b row nw off) := by
  refine of_stream_zeroMod (Laws.Encoding.fst a b row nw off) rfl rfl fun {_} hm (h : (Strm.s == .s && a.ok .s) = true) => ?_
  obtain ⟨hr, hw, ho⟩ := imm_far (v := (encodeFields (.fst a b row nw off)).imm) rfl
  refine dec_ok (mNone_eq hm) (two_eq (scalOf_scalCode (ok_right h)) (vecOf_vecCode b)) rfl ?_
  simp only [hr, hw, ho]

theorem rst (nr : BitVec 4) (a : Scal) (b : BitVec 5) (row : BitVec 4) : RoundTrips (.rst nr a b row) := by
  refine of_stream (Laws.Encoding.rst nr a b row) rfl fun (h : (Strm.s == .s && a.ok .s) = true) => ?_
  obtain ⟨hz, hr⟩ := imm4 (n := row) rfl
  refine dec_ok (mLdb_eq rfl) (two_eq (scalOf_scalCode (ok_right h)) (vecOf_vecCode b)) ?_ ?_
  · exact Bool.and_intro rfl hz
  · exact congrArg (Instr.rst nr a b) hr

section
variable {op : AmoOp} {a b c : Scal} {f : Fields}

/-- The scalar operands of an atomic are read back. -/
theorem amo_scalars (h : (Strm.s == .s && a.ok .s && b.ok .s && c.ok .s && amoOk op c) = true) (hc : f.c = scalCode c) :
    three (scalOf .s (scalCode a)) (scalOf .s (scalCode b)) (casOf op f) = some (a, b, c) :=
  have habc := Bool.and_elim_left h
  three_eq (scalOf_scalCode (ok_left (Bool.and_elim_left habc))) (scalOf_scalCode (ok_left habc))
    (casOf_eq (ok_right habc) (ok_right h) hc)

end

theorem amo (op : AmoOp) (q : BitVec 3) (a b c : Scal) : RoundTrips (.amo op q a b c) := by
  refine of_stream (Laws.Encoding.amo op q a b c) rfl
    fun (h : (Strm.s == .s && a.ok .s && b.ok .s && c.ok .s && amoOk op c) = true) => ?_
  exact dec_ok (mAmo_eq rfl) (two_eq (queOf_queCode q) (amo_scalars h rfl)) (Bool.and_intro rfl (amo_zero (ok_right h) rfl)) rfl

theorem amon (op : AmoOp) (a b c : Scal) : RoundTrips (.amon op a b c) := by
  refine of_stream (Laws.Encoding.amon op a b c) rfl
    fun (h : (Strm.s == .s && a.ok .s && b.ok .s && c.ok .s && amoOk op c) = true) => ?_
  exact dec_ok (mAmo_eq rfl) (amo_scalars h rfl) (Bool.and_intro rfl (amo_zero (ok_right h) rfl)) rfl

theorem amosc (op : AmoOp) (q : BitVec 3) (a b c : Scal) : RoundTrips (.amosc op q a b c) := by
  refine of_stream (Laws.Encoding.amosc op q a b c) rfl
    fun (h : (Strm.s == .s && a.ok .s && b.ok .s && c.ok .s && amoOk op c) = true) => ?_
  exact dec_ok (mAmo_eq rfl) (two_eq (queOf_queCode q) (amo_scalars h rfl)) (Bool.and_intro rfl (amo_zero (ok_right h) rfl)) rfl

theorem vfma (r : Rnd) (m : BitVec 3) (d a : BitVec 5) (b : VOp) (c : BitVec 5) : RoundTrips (.vfma r m d a b c) := by
  refine of_stream (Laws.Encoding.vfma r m d a b c) rfl fun _ => ?_
  exact dec_ok (mVa_eq (t := .f32) (sat := false) rfl rfl)
    (two_eq (three_eq (vecOf_vecCode d) (vecOf_vecCode a) (vopOf_eVop b)) (vecOf_vecCode c)) (opZ_eVop b) rfl

/-- What VMIN, VMAX and VSPLAT take of layout VA: a 32-bit type, no RND and no SAT (R61). -/
theorem only_int32 {t : Ty} (h : (Strm.x == .x && t.int32) = true) : (t.int32 && Rnd.rne == .rne && !false) = true :=
  Bool.and_intro (Bool.and_intro (ok_right h) rfl) rfl

theorem vcmp (ty : Ty) (m : BitVec 3) (cond : Cond) (d : BitVec 3) (a : BitVec 5) (b : VOp) : RoundTrips (.vcmp ty m cond d a b) := by
  refine of_stream (Laws.Encoding.vcmp ty m cond d a b) rfl fun (h : (Strm.x == .x && ty.int32 && cond.vec ty) = true) => ?_
  exact dec_ok (mVc_eq (ok_left h) (ok_right h) rfl) (three_eq (mskOf_mskCode d) (vecOf_vecCode a) (vopOf_eVop b))
    (Bool.and_intro rfl (opZ_eVop b)) rfl

theorem vsplat (ty : Ty) (m : BitVec 3) (d : BitVec 5) (b : SOp) : RoundTrips (.vsplat ty m d b) := by
  refine of_stream (Laws.Encoding.vsplat ty m d b) rfl fun (h : (Strm.x == .x && ty.int32 && b.ok .x) = true) => ?_
  exact dec_ok (mVa_eq (only_int32 (Bool.and_elim_left h)) rfl) (two_eq (vecOf_vecCode d) (sopOf_eSop (ok_right h)))
    (Bool.and_intro rfl (opZ_eSop b)) rfl

theorem vcvt (src dst : Ty) (rnd : Rnd) (sat : Bool) (d a : BitVec 5) : RoundTrips (.vcvt src dst rnd sat d a) := by
  refine of_stream (Laws.Encoding.vcvt src dst rnd sat d a) rfl
    fun (h : (Strm.x == .x && src.vcvt && dst.vcvt && src != dst) = true) => ?_
  simp only [Bool.and_eq_true, bne_iff_ne] at h
  obtain ⟨⟨⟨-, hs⟩, ht⟩, hne⟩ := h
  exact dec_ok (mCvt_eq hs ht hne rfl) (two_eq (vecOf_vecCode d) (vecOf_vecCode a)) rfl rfl

theorem vredr (op : RedOp) (ty : Ty) (r : Rnd) (m : BitVec 3) (d a : BitVec 5) : RoundTrips (.vredr op ty r m d a) := by
  refine of_stream (Laws.Encoding.vredr op ty r m d a) rfl fun (h : (Strm.x == .x && redOk op ty r) = true) => ?_
  exact dec_ok (mVred_eq (Bool.and_elim_left (ok_right h)) (ok_right h) rfl) (two_eq (vecOf_vecCode d) (vecOf_vecCode a)) rfl rfl

theorem vredc (op : RedOp) (ty : Ty) (r : Rnd) (m : BitVec 3) (d a : BitVec 5) : RoundTrips (.vredc op ty r m d a) := by
  refine of_stream (Laws.Encoding.vredc op ty r m d a) rfl fun (h : (Strm.x == .x && redOk op ty r) = true) => ?_
  exact dec_ok (mVred_eq (Bool.and_elim_left (ok_right h)) (ok_right h) rfl) (two_eq (vecOf_vecCode d) (vecOf_vecCode a)) rfl rfl

theorem vsincos (m : BitVec 3) (d a c : BitVec 5) : RoundTrips (.vsincos m d a c) := by
  refine of_stream (Laws.Encoding.vsincos m d a c) rfl fun _ => ?_
  have hmod : (encodeFields (.vsincos m d a c)).mod = 0#1 ++ va m .rne false .f32 := congrArg (0#1 ++ ·) (va_f32 m).symm
  exact dec_ok (mVa_noImm (ok := onlyF32) rfl hmod) (three_eq (vecOf_vecCode d) (vecOf_vecCode a) (vecOf_vecCode c)) rfl rfl

theorem rdrv (l : BitVec 4) (a : BitVec 5) (hops : BitVec 7) (row : BitVec 4) : RoundTrips (.rdrv l a hops row) := by
  refine of_stream_zeroMod (Laws.Encoding.rdrv l a hops row) rfl rfl fun {_} hm _ => ?_
  obtain ⟨hz, hz', hh, hr⟩ := imm_hops (hops := hops) (row := row) rfl
  refine dec_ok (mNone_eq hm) (two_eq (lanOf_lanCode l) (vecOf_vecCode a)) ?_ ?_
  · exact Bool.and_intro (Bool.and_intro rfl hz) hz'
  · exact congrArg₂ (Instr.rdrv l a) hh hr

theorem rtap (d : BitVec 5) (l row : BitVec 4) : RoundTrips (.rtap d l row) := by
  refine of_stream_zeroMod (Laws.Encoding.rtap d l row) rfl rfl fun {_} hm _ => ?_
  obtain ⟨hz, hr⟩ := imm4 (n := row) rfl
  refine dec_ok (mNone_eq hm) (two_eq (vecOf_vecCode d) (lanOf_lanCode l)) ?_ ?_
  · exact Bool.and_intro rfl hz
  · exact congrArg (Instr.rtap d l) hr

theorem cav (op : CavOp) (slot : BitVec 2) (d a : BitVec 5) (b : BitVec 4) (anchor : BitVec 7) (row : BitVec 4) :
    RoundTrips (.cav op slot d a b anchor row) := by
  refine of_stream (Laws.Encoding.cav op slot d a b anchor row) rfl fun (h : (Strm.x == .x && b != 15) = true) => ?_
  obtain ⟨hz, hz', hh, hr⟩ := imm_hops (hops := anchor) (row := row) rfl
  refine dec_ok (mCav_eq rfl) (three_eq (vecOf_vecCode d) (vecOf_vecCode a) (tspOf_tspCode (ok_right h))) ?_ ?_
  · exact Bool.and_intro (Bool.and_intro rfl hz) hz'
  · exact congrArg₂ (Instr.cav op slot d a b) hh hr

theorem cavd (op : CavOp) (slot : BitVec 2) (d a : BitVec 5) (row : BitVec 4) : RoundTrips (.cavd op slot d a row) := by
  refine of_stream (Laws.Encoding.cavd op slot d a row) rfl fun _ => ?_
  obtain ⟨hz, hr⟩ := imm4 (n := row) rfl
  refine dec_ok (mCav_eq rfl) (two_eq (vecOf_vecCode d) (vecOf_vecCode a)) ?_ ?_
  · exact Bool.and_intro rfl hz
  · exact congrArg (Instr.cavd op slot d a) hr

theorem acrd (bf16 : Bool) (r : Rnd) (north : Bool) (d : BitVec 5) (clr half : Bool) (row : BitVec 4) :
    RoundTrips (.acrd bf16 r north d clr half row) := by
  refine of_stream (Laws.Encoding.acrd bf16 r north d clr half row) rfl fun _ => ?_
  obtain ⟨hz, hz', hc, hh, hr⟩ := imm_acrd (v := (encodeFields (.acrd bf16 r north d clr half row)).imm) rfl
  refine dec_ok (mAcrd_eq rfl) (vecOf_vecCode d) ?_ ?_
  · exact Bool.and_intro (Bool.and_intro rfl hz) hz'
  · simp only [hc, hh, hr]

theorem acwr (north : Bool) (a : BitVec 5) (half : Bool) (row : BitVec 4) : RoundTrips (.acwr north a half row) := by
  refine of_stream (Laws.Encoding.acwr north a half row) rfl fun _ => ?_
  obtain ⟨hz, hh, hr⟩ := imm_acwr (half := half) (row := row) rfl
  refine dec_ok (mAcwr_eq rfl) (vecOf_vecCode a) ?_ ?_
  · exact Bool.and_intro rfl hz
  · exact congrArg₂ (Instr.acwr north a) hh hr

theorem rotset (dn : BitVec 5) : RoundTrips (.rotset dn) := by
  refine of_stream_zeroMod (Laws.Encoding.rotset dn) rfl rfl fun {_} hm (h : (Strm.x == .x && dn < 17) = true) => ?_
  obtain ⟨hz, hn⟩ := imm5 (n := dn) rfl
  refine dec_noReg (mNone_eq hm) ?_ ?_
  · exact Bool.and_intro (Bool.and_intro rfl hz) (by rw [← hn] at h; exact ok_right h)
  · exact congrArg Instr.rotset hn

end Sys2Proof.RoundTrip
end

section
namespace Sys2Proof.RoundTrip

open Sys2Proof Sys2Proof.Laws

-- ## All words

/-- Every word is read back; the part's other steps have none. -/
theorem roundTrips (i : Instr) : RoundTrips i := by
  cases i
  case nop => exact of_streams_zeroMod Encoding.nop rfl fun hm _ => dec_noReg (mNone_eq hm) rfl rfl
  case waitc n => exact of_streams_zeroMod (Encoding.waitc n) rfl fun hm _ => dec_noReg (mNone_eq hm) (beq_iff_eq.2 (off_fK ..)) (congrArg Instr.waitc (cnt_fK ..))
  case pbr d t => exact pbr d t
  case br a => exact of_streams_zeroMod (Encoding.br a) rfl fun hm _ => dec_ok (mNone_eq hm) (btrOf_btrCode a) rfl rfl
  case call a => exact of_streams_zeroMod (Encoding.call a) rfl fun hm _ => dec_ok (mNone_eq hm) (btrOf_btrCode a) rfl rfl
  case ret => exact of_streams_zeroMod Encoding.ret rfl fun hm _ => dec_noReg (mNone_eq hm) rfl rfl
  case loop rot n off => exact loop rot n off
  case align late t => exact align late t
  case cairn v => exact of_streams_zeroMod (Encoding.cairn v) rfl fun hm _ => dec_noReg (mNone_eq hm) rfl (congrArg Instr.cairn (imm48_fW ..))
  case qop tt d a b =>
    exact of_streams (Encoding.qop tt d a b) fun _ =>
      dec_ok (mTt_eq rfl) (three_eq (prdOf_prdCode d) (prdOf_prdCode a) (prdOf_prdCode b)) rfl rfl
  case csrr d n => exact csrr d n
  case csrw a n => exact csrw a n
  case trap n => exact trap n
  case exit => exact of_streams_zeroMod Encoding.exit rfl fun hm _ => dec_noReg (mNone_eq hm) rfl rfl
  case fence s c => exact of_streams (Encoding.fence s c) fun _ => dec_noReg (mFence_eq rfl) rfl rfl
  case rdvi pt b => exact rdvi pt b
  case rdva pt => exact of_streams (Encoding.rdva pt) fun h => dec_noReg (mPt_point (of_decide_eq_true h) rfl) rfl rfl
  case rdvw pt d => exact of_streams (Encoding.rdvw pt d) fun h => dec_ok (mPt_point (of_decide_eq_true h) rfl) (prdOf_prdCode d) rfl rfl
  case rdvt pt d => exact of_streams (Encoding.rdvt pt d) fun h => dec_ok (mPt_point (of_decide_eq_true h) rfl) (prdOf_prdCode d) rfl rfl
  case add d a b => exact of_stream (Encoding.add d a b) rfl dSalu_eSop
  case sub d a b => exact of_stream (Encoding.sub d a b) rfl dSalu_eSop
  case mul d a b => exact of_stream (Encoding.mul d a b) rfl dSalu_eSop
  case mulh u d a b => exact of_stream (Encoding.mulh u d a b) rfl dSaluU_eSop
  case div u d a b => exact of_stream (Encoding.div u d a b) rfl dSaluU_eSop
  case rem u d a b => exact of_stream (Encoding.rem u d a b) rfl dSaluU_eSop
  case and d a b => exact of_stream (Encoding.and d a b) rfl dSalu_eSop
  case or d a b => exact of_stream (Encoding.or d a b) rfl dSalu_eSop
  case xor d a b => exact of_stream (Encoding.xor d a b) rfl dSalu_eSop
  case andn d a b => exact of_stream (Encoding.andn d a b) rfl dSalu_eSop
  case shl d a b => exact of_stream (Encoding.shl d a b) rfl dSalu_eSop
  case shr d a b => exact of_stream (Encoding.shr d a b) rfl dSalu_eSop
  case sra d a b => exact of_stream (Encoding.sra d a b) rfl dSalu_eSop
  case rol d a b => exact of_stream (Encoding.rol d a b) rfl dSalu_eSop
  case min u d a b => exact of_stream (Encoding.min u d a b) rfl dSaluU_eSop
  case max u d a b => exact of_stream (Encoding.max u d a b) rfl dSaluU_eSop
  case clz d a =>
    exact of_stream_zeroMod (Encoding.clz d a) rfl rfl fun hm (h : (Strm.c == .c && a.ok .c) = true) =>
      dec_ok (mNone_eq hm) (two_eq (sDstOf_sCode d) (scalOf_scalCode (ok_right h))) rfl rfl
  case popc d a =>
    exact of_stream_zeroMod (Encoding.popc d a) rfl rfl fun hm (h : (Strm.c == .c && a.ok .c) = true) =>
      dec_ok (mNone_eq hm) (two_eq (sDstOf_sCode d) (scalOf_scalCode (ok_right h))) rfl rfl
  case sel d a b c => exact sel d a b c
  case cmp cond d a b => exact cmp cond d a b
  case movi d v =>
    exact of_stream_zeroMod (Encoding.movi d v) rfl rfl fun hm _ =>
      dec_ok (mNone_eq hm) (sDstOf_sCode d) rfl (congrArg (Instr.movi d) (imm48_fW ..))
  case movhi d v => exact movhi d v
  case bext sx d a w p => exact bext sx d a w p
  case bins d a w p => exact bins d a w p
  case fadd r d a b => exact fadd r d a b
  case fmul r d a b => exact fmul r d a b
  case ffma r d a b c => exact ffma r d a b c
  case fcmp cond d a b => exact fcmp cond d a b
  case fcvt src dst rnd sat d a => exact fcvt src dst rnd sat d a
  case fmnx u d a b => exact of_stream (Encoding.fmnx u d a b) rfl dSaluU_eSop
  case sld d a v =>
    exact of_stream_zeroMod (Encoding.sld d a v) rfl rfl fun hm (h : (Strm.c == .c && a.ok .c) = true) =>
      dec_ok (mNone_eq hm) (two_eq (sDstOf_sCode d) (scalOf_scalCode (ok_right h))) rfl rfl
  case sst a b v =>
    exact of_stream_zeroMod (Encoding.sst a b v) rfl rfl fun hm (h : (Strm.c == .c && a.ok .c && b.ok .c) = true) =>
      dec_ok (mNone_eq hm) (two_eq (scalOf_scalCode (ok_left h)) (scalOf_scalCode (ok_right h))) rfl rfl
  case trig n c => exact trig n c
  case awin w => exact awin w
  case amode m g => exact of_stream (Encoding.amode m g) rfl fun _ => dec_noReg (mAmode_eq rfl) rfl rfl
  case admitWork k pane m => exact admitWork k pane m
  case seat m pane => exact of_stream (Encoding.seat m pane) rfl fun _ => dec_noReg (mSeat_eq rfl) rfl rfl
  case lift clr => exact of_stream (Encoding.lift clr) rfl fun _ => dec_noReg (mBit_eq rfl) rfl rfl
  case acclr n base => exact acclr n base
  case acnorm n => exact of_stream (Encoding.acnorm n) rfl fun _ => dec_noReg (mBit_eq rfl) rfl rfl
  case frzrd d a v =>
    exact of_stream_zeroMod (Encoding.frzrd d a v) rfl rfl fun hm (h : (Strm.c == .c && a.ok .c) = true) =>
      dec_ok (mNone_eq hm) (two_eq (sDstOf_sCode d) (scalOf_scalCode (ok_right h))) rfl rfl
  case frzwr a b v =>
    exact of_stream_zeroMod (Encoding.frzwr a b v) rfl rfl fun hm (h : (Strm.c == .c && a.ok .c && b.ok .c) = true) =>
      dec_ok (mNone_eq hm) (two_eq (scalOf_scalCode (ok_left h)) (scalOf_scalCode (ok_right h))) rfl rfl
  case resume => exact of_stream_zeroMod Encoding.resume rfl rfl fun hm _ => dec_noReg (mNone_eq hm) rfl rfl
  case stow a =>
    exact of_stream_zeroMod (Encoding.stow a) rfl rfl fun hm (h : (Strm.c == .c && a.ok .c) = true) =>
      dec_ok (mNone_eq hm) (scalOf_scalCode (ok_right h)) rfl rfl
  case unstow a =>
    exact of_stream_zeroMod (Encoding.unstow a) rfl rfl fun hm (h : (Strm.c == .c && a.ok .c) = true) =>
      dec_ok (mNone_eq hm) (scalOf_scalCode (ok_right h)) rfl rfl
  case turn dn timed at_ link g => exact turn dn timed at_ link g
  case laneq d link e => exact laneq d link e
  case aadd d a b => exact of_streams (Encoding.aadd d a b) dAalu_eSop
  case asub d a b => exact of_streams (Encoding.asub d a b) dAalu_eSop
  case amul d a b => exact of_streams (Encoding.amul d a b) dAalu_eSop
  case amovi d v =>
    exact of_streams_zeroMod (Encoding.amovi d v) rfl fun {st _} hm (h : (st.adr && aDest d) = true) =>
      dec_ok (mNone_eq hm) (aDstOf_sCode (ok_right h)) rfl (congrArg (Instr.amovi d) (imm48_fW ..))
  case ashl d a b => exact of_streams (Encoding.ashl d a b) dAalu_eSop
  case aand d a b => exact of_streams (Encoding.aand d a b) dAalu_eSop
  case acmp cond d a b => exact acmp cond d a b
  case bld nr d a roff row => exact of_stream (Encoding.bld nr d a roff row) rfl fun (h : (Strm.l == .l && a.ok .l) = true) => dLdb_fT h
  case bldb nr d a roff row => exact of_stream (Encoding.bldb nr d a roff row) rfl fun (h : (Strm.l == .l && a.ok .l) = true) => dLdb_fT h
  case bldc nr d a roff row => exact of_stream (Encoding.bldc nr d a roff row) rfl fun (h : (Strm.l == .l && a.ok .l) = true) => dLdb_fT h
  case ald d a v =>
    exact of_stream_zeroMod (Encoding.ald d a v) rfl rfl fun hm (h : (Strm.l == .l && aDest d && a.ok .l) = true) =>
      dec_ok (mNone_eq hm) (two_eq (aDstOf_sCode (ok_left h)) (scalOf_scalCode (ok_right h))) rfl rfl
  case fqpush q a row nw off => exact fqpush q a row nw off
  case fqpop d q =>
    exact of_stream_zeroMod (Encoding.fqpop d q) rfl rfl fun hm _ =>
      dec_ok (mNone_eq hm) (two_eq (vecOf_vecCode d) (queOf_queCode q)) rfl rfl
  case haul af pt r d a b => exact haul af pt r d a b
  case edgeset e a v =>
    exact of_stream_zeroMod (Encoding.edgeset e a v) rfl rfl fun hm (h : (Strm.l == .l && a.ok .l) = true) =>
      dec_ok (mNone_eq hm) (two_eq (edgOf_edgCode e) (scalOf_scalCode (ok_right h))) rfl rfl
  case bufdecl v => exact of_stream_zeroMod (Encoding.bufdecl v) rfl rfl fun hm _ => dec_noReg (mNone_eq hm) rfl rfl
  case bufset full bd => exact bufset full bd
  case bankfmt bank ty row => exact bankfmt bank ty row
  case rld nr d a row => exact rld nr d a row
  case bst nr a b roff row => exact bst nr a b roff row
  case ast a b v =>
    exact of_stream_zeroMod (Encoding.ast a b v) rfl rfl fun hm (h : (Strm.s == .s && a.ok .s && b.ok .s) = true) =>
      dec_ok (mNone_eq hm) (two_eq (scalOf_scalCode (ok_left h)) (scalOf_scalCode (ok_right h))) rfl rfl
  case fst a b row nw off => exact fst a b row nw off
  case amo op q a b c => exact amo op q a b c
  case amon op a b c => exact amon op a b c
  case amosc op q a b c => exact amosc op q a b c
  case rst nr a b row => exact rst nr a b row
  case vadd ty r sat m d a b =>
    exact of_stream (Encoding.vadd ty r sat m d a b) rfl fun (h : (Strm.x == .x && arithOk ty r sat) = true) =>
      dVa3_eVop (ok_right h)
  case vsub ty r sat m d a b =>
    exact of_stream (Encoding.vsub ty r sat m d a b) rfl fun (h : (Strm.x == .x && arithOk ty r sat) = true) =>
      dVa3_eVop (ok_right h)
  case vmul ty r sat m d a b =>
    exact of_stream (Encoding.vmul ty r sat m d a b) rfl fun (h : (Strm.x == .x && arithOk ty r sat) = true) =>
      dVa3_eVop (ok_right h)
  case vfma r m d a b c => exact vfma r m d a b c
  case vmin ty m d a b =>
    exact of_stream (Encoding.vmin ty m d a b) rfl fun (h : (Strm.x == .x && ty.int32) = true) =>
      dec_ok (mVa_eq (only_int32 h) rfl) (three_eq (vecOf_vecCode d) (vecOf_vecCode a) (vopOf_eVop b))
        (Bool.and_intro rfl (opZ_eVop b)) rfl
  case vmax ty m d a b =>
    exact of_stream (Encoding.vmax ty m d a b) rfl fun (h : (Strm.x == .x && ty.int32) = true) =>
      dec_ok (mVa_eq (only_int32 h) rfl) (three_eq (vecOf_vecCode d) (vecOf_vecCode a) (vopOf_eVop b))
        (Bool.and_intro rfl (opZ_eVop b)) rfl
  case vabs ty sat m d a =>
    exact of_stream (Encoding.vabs ty sat m d a) rfl fun (h : (Strm.x == .x && absOk ty sat) = true) =>
      dec_ok (mVa_noImm (Bool.and_intro (ok_right h) rfl) rfl) (two_eq (vecOf_vecCode d) (vecOf_vecCode a)) rfl rfl
  case vneg ty sat m d a =>
    exact of_stream (Encoding.vneg ty sat m d a) rfl fun (h : (Strm.x == .x && absOk ty sat) = true) =>
      dec_ok (mVa_noImm (Bool.and_intro (ok_right h) rfl) rfl) (two_eq (vecOf_vecCode d) (vecOf_vecCode a)) rfl rfl
  case vcmp ty m cond d a b => exact vcmp ty m cond d a b
  case vsel m d a b => exact of_stream (Encoding.vsel m d a b) rfl fun _ => dVx3_eVop
  case vmov m d a => exact of_stream (Encoding.vmov m d a) rfl fun _ => dVx2_fT
  case vsplat ty m d b => exact vsplat ty m d b
  case vand m d a b => exact of_stream (Encoding.vand m d a b) rfl fun _ => dVx3_eVop
  case vor m d a b => exact of_stream (Encoding.vor m d a b) rfl fun _ => dVx3_eVop
  case vxor m d a b => exact of_stream (Encoding.vxor m d a b) rfl fun _ => dVx3_eVop
  case vshl m d a b => exact of_stream (Encoding.vshl m d a b) rfl fun _ => dVx3_eVop
  case vshr m d a b => exact of_stream (Encoding.vshr m d a b) rfl fun _ => dVx3_eVop
  case vsra m d a b => exact of_stream (Encoding.vsra m d a b) rfl fun _ => dVx3_eVop
  case vcvt src dst rnd sat d a => exact vcvt src dst rnd sat d a
  case vqnt fmt r col d a c =>
    exact of_stream (Encoding.vqnt fmt r col d a c) rfl fun _ =>
      dec_ok (mVq_eq rfl) (three_eq (vecOf_vecCode d) (vecOf_vecCode a) (vecOf_vecCode c)) rfl rfl
  case vdqnt fmt col d a b =>
    exact of_stream (Encoding.vdqnt fmt col d a b) rfl fun _ =>
      dec_ok (mVq_noRnd rfl) (three_eq (vecOf_vecCode d) (vecOf_vecCode a) (vecOf_vecCode b)) rfl rfl
  case vpack w d a => exact of_stream (Encoding.vpack w d a) rfl fun _ => dec_ok (mWid_eq rfl) (two_eq (vecOf_vecCode d) (vecOf_vecCode a)) rfl rfl
  case vunpk w d a => exact of_stream (Encoding.vunpk w d a) rfl fun _ => dec_ok (mWid_eq rfl) (two_eq (vecOf_vecCode d) (vecOf_vecCode a)) rfl rfl
  case vrotr m d a b => exact of_stream (Encoding.vrotr m d a b) rfl fun (h : (Strm.x == .x && b.fits 6) = true) => dVx3n_eVop (ok_right h)
  case vrotc m d a b => exact of_stream (Encoding.vrotc m d a b) rfl fun (h : (Strm.x == .x && b.fits 4) = true) => dVx3n_eVop (ok_right h)
  case vbcr m d a b => exact of_stream (Encoding.vbcr m d a b) rfl fun (h : (Strm.x == .x && b.fits 6) = true) => dVx3n_eVop (ok_right h)
  case vbcc m d a b => exact of_stream (Encoding.vbcc m d a b) rfl fun (h : (Strm.x == .x && b.fits 4) = true) => dVx3n_eVop (ok_right h)
  case vredr op ty r m d a => exact vredr op ty r m d a
  case vredc op ty r m d a => exact vredc op ty r m d a
  case vtrn m d a => exact of_stream (Encoding.vtrn m d a) rfl fun _ => dVx2_fT
  case vexp2 m d a => exact of_stream (Encoding.vexp2 m d a) rfl fun _ => dVa2_onlyF32
  case vlog2 m d a => exact of_stream (Encoding.vlog2 m d a) rfl fun _ => dVa2_onlyF32
  case vrcp m d a => exact of_stream (Encoding.vrcp m d a) rfl fun _ => dVa2_onlyF32
  case vrsq m d a => exact of_stream (Encoding.vrsq m d a) rfl fun _ => dVa2_onlyF32
  case vtanh m d a => exact of_stream (Encoding.vtanh m d a) rfl fun _ => dVa2_onlyF32
  case vsincos m d a c => exact vsincos m d a c
  case vrnd ty r sat m d a => exact of_stream (Encoding.vrnd ty r sat m d a) rfl fun (h : (Strm.x == .x && rndOk ty) = true) => dVa2_fT (ok_right h)
  case vdrop m d a b => exact of_stream (Encoding.vdrop m d a b) rfl fun (h : (Strm.x == .x && b.fits 16) = true) => dVx3n_eVop (ok_right h)
  case mop tt d a b =>
    exact of_stream (Encoding.mop tt d a b) rfl fun _ =>
      dec_ok (mTt_eq rfl) (three_eq (mskOf_mskCode d) (mskOf_mskCode a) (mskOf_mskCode b)) rfl rfl
  case vidx col d => exact of_stream (Encoding.vidx col d) rfl fun _ => dec_ok (mBit_eq rfl) (vecOf_vecCode d) rfl rfl
  case vfclass m d a => exact of_stream (Encoding.vfclass m d a) rfl fun _ => dVx2_fT
  case rdrv l a hops row => exact rdrv l a hops row
  case rtap d l row => exact rtap d l row
  case cav op slot d a b anchor row => exact cav op slot d a b anchor row
  case cavd op slot d a row => exact cavd op slot d a row
  case acrd bf16 r north d clr half row => exact acrd bf16 r north d clr half row
  case acwr north a half row => exact acwr north a half row
  case rotset dn => exact rotset dn
  all_goals exact of_none fun _ => rfl

end Sys2Proof.RoundTrip
end

section
open Sys2Proof Sys2Proof.RoundTrip

/-- Settles O58: the fields of a word are those it was made of, the checks before the fields pass, and `roundTrips` reads the
fields back, word by word. -/
theorem encodeDecode : Obligations.EncodeDecode := by
  unfold Obligations.EncodeDecode
  intro i st dly grd hwf hgrd
  refine ⟨?_, wordDly_wordOf .., wordGrd_wordOf ..⟩
  obtain ⟨⟨sts, hsts, hst⟩, hdec⟩ := roundTrips i st hwf
  have hg : (wordGrd (encodeWith dly grd i) == 8) = false := by rw [encodeWith, wordGrd_wordOf]; exact beq_false_of_ne hgrd
  have hc : sts.contains st = true := List.contains_iff_mem.2 hst
  simp only [decodeWord, hg]
  simp only [encodeWith, fieldsOf_wordOf, hsts, hc, hdec, Bool.not_true, Bool.false_eq_true, if_false]
end

section
namespace Sys2Proof.Machine

open Sys2Proof

-- ## Scalar operands (R46 to R49, R126, R231)

/-- A register name but the first of a stream, by the stream's own bank. -/
theorem scal_reg (s : State) {n : BitVec 6} (hn : n ≠ 0) : s.scal (.reg n) = match s.focus.strm with
    | .c => kget 0 n.toNat s.curSta.s
    | .l => kget 0 n.toNat s.curSta.aL
    | .s => kget 0 n.toNat s.curSta.aS
    | .x => 0 := if_neg hn

/-- The X stream has no scalar registers of its own. -/
theorem scal_reg_x (s : State) (n : BitVec 6) (hx : s.focus.strm = .x) : s.scal (.reg n) = 0 := by
  simp only [State.scal, scalOfSta, hx, ite_self]

/-- A predicate but q0 is its bit of the context. -/
theorem pred_bit (s : State) {n : BitVec 3} (hn : n ≠ 0) : s.pred n = s.curCtx.q.getLsbD n.toNat := by
  rw [State.pred, Ctx.pred, beq_false_of_ne hn, Bool.false_or]
  rfl

-- ## Predicate results (R56, R231)

/-- The integer compare of CMP and ACMP decides the relation of its code. -/
theorem iCond_signed (c : Cond) (x y : W64) : iCond true c x y = true ↔ intRelation c x y := by
  cases c <;> simp [iCond, intRelation, BitVec.slt, BitVec.ult]

/-- A word whose only effect is a predicate. -/
theorem predResult_of_exec {i : Instr} {s : State} {lat : Nat} {d : BitVec 3} {v : Bool}
    (h : exec i s = .next (s.putPred lat d v)) : PredResult i s lat d v :=
  ⟨_, h, putPred_adds s lat d v⟩

/-- The row of QOP's truth table: its two predicates as a number. -/
theorem qop_row (p q : Bool) : (if p then 1 else 0) + 2 * (if q then 1 else 0) = p.toNat + 2 * q.toNat := by
  cases p <;> cases q <;> rfl

end Sys2Proof.Machine
end

section
open Sys2Proof Sys2Proof.Machine

/-- Settles O57: each word by running the decoder on it. -/
theorem decodeWords : Obligations.DecodeWords :=
  ⟨rfl, rfl, rfl, rfl, rfl, rfl, rfl, rfl, rfl, rfl, rfl, rfl⟩

/-- Settles O1: the register banks by the stream, the mirror, the sign extension and the predicates by their definitions. -/
theorem scalarOperandsRead : Obligations.ScalarOperandsRead := by
  unfold Obligations.ScalarOperandsRead
  exact ⟨fun _ => rfl, fun _ => rfl, fun _ _ => rfl, fun s n hn hs => by rw [scal_reg s hn, hs],
    fun s n hn hs => by rw [scal_reg s hn, hs], fun s n hn hs => by rw [scal_reg s hn, hs], scal_reg_x,
    fun _ _ => BitVec.toInt_signExtend_of_le (by decide), fun _ _ => pred_bit _⟩

/-- Settles O4: the compares by `iCond_signed`, QOP by its truth table. -/
theorem predicateWords : Obligations.PredicateWords := by
  unfold Obligations.PredicateWords
  intro s cond d a b tt p q
  refine ⟨⟨_, iCond_signed cond (s.scal a) (s.sop b), predResult_of_exec rfl, predResult_of_exec rfl⟩, ?_⟩
  rw [← qop_row]
  exact predResult_of_exec rfl
end

section
namespace Sys2Proof.Machine

open Sys2Proof

-- ## EXIT and the retirement of its section (R52, R253)

/-- An effect of the issuing word for the end of its cycle is one more of its die. -/
theorem later_eq_moreEoc (s : State) (e : Eoc) : s.later e = s.updDie (Die.moreEoc [e]) := rfl

theorem eoc_updCtx (s : State) (f : Ctx → Ctx) : (s.updCtx f).curDie.eoc = s.curDie.eoc := by
  rw [State.updCtx, curDie_updSta, setSta_eoc]

theorem eoc_later (s : State) (e : Eoc) : (s.later e).curDie.eoc = s.curDie.eoc ++ [e] := by
  rw [later_eq_moreEoc, curDie_updDie]
  rfl

/-- PRE of the current section; a stream without one has none. -/
def Ctx.pre (c : Ctx) : Bool := match c.sect with
  | some k => k.pre
  | none => false

/-- The context that EXIT leaves: retired, with empty stacks. -/
def Ctx.exited (c : Ctx) : Ctx := { c with retired := true, next := .off, loops := [], calls := [] }

theorem exec_exit_handler {s : State} (h : s.focus.handler = true) : exec .exit s = .next (s.updCtx Ctx.exited).withMoved := by
  exact congrArg (fun u : State => Host.Outcome.next { u with focus := { s.focus with moved := true } }) (if_pos h)

theorem exec_exit_section {s : State} (h : s.focus.handler = false) :
    exec .exit s = .next ((s.updCtx Ctx.exited).later (.rsec s.focus.pos s.focus.strm 0xFE s.curCtx.pre)).withMoved := by
  have hn : ¬s.focus.handler = true := by rw [h]; exact Bool.false_ne_true
  exact congrArg (fun u : State => Host.Outcome.next { u with focus := { s.focus with moved := true } }) (if_neg hn)

/-- A retirement alone at the end of a cycle. -/
theorem applyEoc_rsec {s : State} {d : DieId} {p : Pos} {st : Strm} {v : Byte} {pre : Bool} (h : (s.die d).eoc = [.rsec p st v pre]) :
    s.applyEoc d = (s.setDie d { s.die d with eoc := [] }).bump.setDie d
      (Die.arrClose (Die.applyOne (s.fs d) { s.die d with eoc := [] } (.rsec p st v pre))) := by
  have hd : (s.setDie d { s.die d with eoc := [] }).bump.die d = { s.die d with eoc := [] } := die_setDie ..
  simp only [State.applyEoc, h]
  change (s.setDie d { s.die d with eoc := [] }).bump.setDie d (Die.arrClose (Die.applyOne (s.fs d)
    ((s.setDie d { s.die d with eoc := [] }).bump.die d) (.rsec p st v pre))) = _
  rw [hd]

/-- RSEC takes the retired section's number at the end of the cycle. -/
theorem rsec_applyEoc {s : State} {d : DieId} {p : Pos} {st : Strm} {v : Byte} {pre : Bool} (h : (s.die d).eoc = [.rsec p st v pre]) :
    (((s.applyEoc d).die d).sta p |>.ctxOf st).rsec = v := by
  rw [applyEoc_rsec h, die_setDie]
  change ((Die.setSta _ _ _).sta p |>.ctxOf st).rsec = v
  rw [sta_setSta, ctxOf_setCtx]

end Sys2Proof.Machine
end

section
open Sys2Proof Sys2Proof.Machine

/-- Settles O13: by the two forms of EXIT, in handler mode and outside it, and by `rsec_applyEoc`. -/
theorem exitRetires : Obligations.ExitRetires := by
  unfold Obligations.ExitRetires
  intro s
  have hrsec (d : DieId) (p : Pos) (st : Strm) (pre : Bool) (h : (s.die d).eoc = [.rsec p st 0xFE pre]) :
      (((s.applyEoc d).die d).sta p |>.ctxOf st).rsec = 0xFE := rsec_applyEoc h
  cases hh : s.focus.handler with
  | true =>
    refine ⟨_, exec_exit_handler hh, ?_, rfl, curCtx_updCtx .., fun _ => eoc_updCtx .., ?_, ?_, hrsec⟩
    · rw [steered_withMoved, steered_updCtx]
    · rintro ⟨⟩
    · rintro ⟨⟩
  | false =>
    have heoc : ((s.updCtx Ctx.exited).later (.rsec s.focus.pos s.focus.strm 0xFE s.curCtx.pre)).withMoved.curDie.eoc =
        s.curDie.eoc ++ [.rsec s.focus.pos s.focus.strm 0xFE s.curCtx.pre] := by
      change (State.later _ _).curDie.eoc = _
      rw [eoc_later, eoc_updCtx]
    refine ⟨_, exec_exit_section hh, ?_, rfl, ?_, by rintro ⟨⟩, fun _ k hk => ?_, fun _ hn => ?_, hrsec⟩
    · rw [steered_withMoved, later_eq_moreEoc, steered_moreEoc, steered_updCtx]
    · change (State.later _ _).curCtx = _
      rw [later_eq_moreEoc, curCtx_moreEoc, curCtx_updCtx]
      rfl
    · rw [heoc, Ctx.pre, show s.curCtx.sect = some k from hk]
    · rw [heoc, Ctx.pre, hn]
end

section
namespace Sys2Proof.Machine

open Sys2Proof

-- ## A return into another section (R55, R236)

/-- A section entered by a transfer of control begins with an empty loop buffer. -/
theorem nextAt_lbuf_of_find {x : Station} {hdrs : List Parcel} {secs : List Section} {handler : Bool} {c : Ctx} {p t wait : Nat}
    {k h : Section} (hk : c.sect = some k) (hin : k.has p = false) (hstop : p ≠ k.stop) (hhdr : hdrs.any (·.toNat == p) = false)
    (hfind : secs.find? (fun h => h.first == p) = some h) : (nextAt x hdrs secs handler c p t wait).lbuf = [] := by
  simp only [nextAt, hk, hin, hstop, hhdr, hfind, Bool.false_eq_true, or_self, if_false]

/-- The return parcels that lie in the section, and the header places, are what `targetOk` allows. -/
theorem not_target_of_targetOk {s : State} {p : Parcel} {k : Section} (hk : s.curCtx.sect = some k) (h : s.targetOk p = false) :
    k.has p.toNat = false ∧ s.headers.any (·.toNat == p.toNat) = false := by
  simp only [State.targetOk, hk, Bool.or_eq_false_iff] at h
  refine ⟨h.1, List.any_eq_false.2 fun q hq e => ?_⟩
  have : q = p := BitVec.eq_of_toNat_eq (by simpa using e)
  exact absurd (List.contains_iff_mem.2 (this ▸ hq)) (by rw [h.2]; exact Bool.false_ne_true)

/-- RET with an entry whose parcel R53 allows. -/
theorem exec_ret {s : State} {e : CallEntry} {rest : List CallEntry} (hc : s.curCtx.calls = e :: rest) (hok : s.returnOk e.ret = true) :
    exec .ret s = .next ((s.updCtx fun c => { c with calls := rest, loops := c.loops.drop (c.loops.length - e.depth) }).goto
      e.ret.toNat) := by
  change execRet s = _
  simp only [execRet, hc, hok, Bool.not_true, Bool.false_eq_true, if_false]

/-- RET to the first word of another section leaves an empty loop buffer. -/
theorem lbuf_ret_section {s t : State} {e : CallEntry} {rest : List CallEntry} {h k : Section} (hc : s.curCtx.calls = e :: rest)
    (hok : s.targetOk e.ret = false) (hk : s.curCtx.sect = some k) (hstop : k.stop ≠ e.ret.toNat)
    (hfind : s.sections.find? (fun h => h.first == e.ret.toNat) = some h) (ht : exec .ret s = .next t) : t.curCtx.lbuf = [] := by
  have hany : s.sections.any (fun h => h.first == e.ret.toNat) = true :=
    List.any_eq_true.2 ⟨h, List.mem_of_find?_eq_some hfind, List.find?_some (p := fun h : Section => h.first == e.ret.toNat) hfind⟩
  rw [exec_ret hc (by simp only [State.returnOk, hany, Bool.or_true])] at ht
  obtain ⟨hin, hhdr⟩ := not_target_of_targetOk hk hok
  rw [← Host.Outcome.next.inj ht, (updCtx_goto_steers s _ _ (by rfl)).context]
  exact nextAt_lbuf_of_find hk hin hstop.symm hhdr hfind

/-- The state of `wFar`, with a word in the loop buffer of its section. -/
def wFarFull : State := wFar.updCtx fun c => { c with lbuf := [(0, some 7)] }

end Sys2Proof.Machine
end

section
open Sys2Proof Sys2Proof.Machine

/-- Refutes O9: its last clause keeps the loop buffer of a RET that enters another section, but the section that is entered begins
with an empty one (R55); `wFarFull` holds a word in it. -/
theorem not_transfersOfControl : ¬ Obligations.TransfersOfControl := by
  unfold Obligations.TransfersOfControl
  rintro ⟨-, -, -, -, hret⟩
  have hcalls : wFarFull.curCtx.calls = ({ ret := 0x84, depth := 0 } : CallEntry) :: [] := by decide +kernel
  have hok : wFarFull.targetOk 0x84 = false := by decide +kernel
  have hsect : wFarFull.curCtx.sect = some placedSection := by decide +kernel
  have hstop : placedSection.stop ≠ 0x84 := by decide +kernel
  obtain ⟨h, hfind⟩ := Option.isSome_iff_exists.1
    (by decide +kernel : (wFarFull.sections.find? fun h => h.first == 0x84).isSome = true)
  obtain ⟨t, ht, hsteers⟩ := hret wFarFull _ [] [] h placedSection hcalls hok hsect hstop hfind ⟨_, (List.append_nil _).symm⟩ rfl
  have hempty : t.curCtx.lbuf = [] := lbuf_ret_section hcalls hok hsect hstop hfind ht
  have hfull : t.curCtx.lbuf = wFarFull.curCtx.lbuf := by rw [hsteers.context]
  have hheld : wFarFull.curCtx.lbuf ≠ [] := by decide +kernel
  exact hheld (hfull.symm.trans hempty)
end

section
namespace Sys2Proof.Machine

open Sys2Proof

-- ## Parcels of a section (R43, R50)

/-- A word of a section. -/
theorem section_has_iff (k : Section) (p : Nat) : k.has p = true ↔ k.first ≤ p ∧ p < k.stop ∧ (p - k.first) % 6 = 0 := by
  simp only [Section.has, Bool.and_eq_true, decide_eq_true_iff, beq_iff_eq, and_assoc]

/-- The place after a section is none of its words. -/
theorem section_has_stop (k : Section) : k.has k.stop = false :=
  Bool.eq_false_iff.2 fun h => absurd ((section_has_iff k _).1 h).2.1 (Nat.lt_irrefl _)

/-- The parcel after a word of a section is a word of it or its end. -/
theorem section_has_add_six {k : Section} {p : Nat} (h : k.has p = true) : k.has (p + 6) = true ∨ p + 6 = k.stop := by
  rw [section_has_iff] at h ⊢
  simp only [Section.first, Section.stop] at h ⊢
  omega

/-- Words lie six parcels apart up to the end of the section. -/
theorem section_has_add {k : Section} {p : Nat} (h : k.has p = true) (n : Nat) (hn : p + 6 * n < k.stop) : k.has (p + 6 * n) = true := by
  rw [section_has_iff] at h ⊢
  omega

/-- The next-word state for a word of the section. -/
theorem target_word {s : State} {k : Section} {p : Nat} (hk : s.curCtx.sect = some k) (h : k.has p = true) :
    s.target p = .word (BitVec.ofNat 16 p) (s.cyc + 1 + s.focus.wait + s.curSta.dlyAt (BitVec.ofNat 16 p)) := by
  simp only [State.target, hk, h, if_true]

/-- The next-word state for the header that follows the section. -/
theorem target_stop {s : State} {k : Section} (hk : s.curCtx.sect = some k) :
    s.target k.stop = .hdr (BitVec.ofNat 16 k.stop) (s.cyc + 1) s.focus.wait := by
  simp only [State.target, hk, section_has_stop, Bool.false_eq_true, if_false]

/-- Leaving a section for the place after it retires it, but not in handler mode. -/
theorem retirement_stop {s : State} {k : Section} (hk : s.curCtx.sect = some k) (hh : s.focus.handler = false) :
    s.retirement k.stop = [.rsec s.focus.pos s.focus.strm k.snum k.pre] := by
  simp only [State.retirement, hk, hh, section_has_stop, Bool.or_self, Bool.false_eq_true, if_false]

-- ## The check of the loop stack (R238)

/-- An entry that ends at the word with a counter above 1 goes back. -/
theorem loopBack_back {w : Parcel} {e : LoopEntry} (rest : List LoopEntry) (hl : e.last = w) (hc : 1 < e.ctr) :
    loopBack w (e :: rest) = ({ e with ctr := e.ctr - 1 } :: rest, some (e.first, e.rot)) := by
  rw [loopBack, if_pos hl, if_pos hc]

/-- An entry that ends at the word with its counter at 1 goes. -/
theorem loopBack_gone {w : Parcel} {e : LoopEntry} (rest : List LoopEntry) (hl : e.last = w) (hc : e.ctr ≤ 1) :
    loopBack w (e :: rest) = loopBack w rest := by
  rw [loopBack, if_pos hl, if_neg (Nat.not_lt.2 hc)]

/-- Nothing happens where the innermost entry ends elsewhere. -/
theorem loopBack_stays {w : Parcel} : ∀ {l : List LoopEntry}, (∀ e ∈ l.head?, e.last ≠ w) → loopBack w l = (l, none)
  | [], _ => rfl
  | e :: t, h => by rw [loopBack, if_neg (h e rfl)]

/-- The entries that end at the word with counters of at most 1 all go. -/
theorem loopBack_append {w : Parcel} (rest : List LoopEntry) :
    ∀ {gone : List LoopEntry}, (∀ e ∈ gone, e.last = w ∧ e.ctr ≤ 1) → loopBack w (gone ++ rest) = loopBack w rest
  | [], _ => rfl
  | e :: t, h => by
    obtain ⟨⟨hl, hc⟩, ht⟩ := List.forall_mem_cons.1 h
    rw [List.cons_append, loopBack_gone _ hl hc, loopBack_append rest ht]

/-- Entries that all end elsewhere stay. -/
theorem loopBack_of_forall {w : Parcel} {l : List LoopEntry} (h : ∀ e ∈ l, e.last ≠ w) : loopBack w l = (l, none) :=
  loopBack_stays fun e he => h e (List.mem_of_mem_head? he)

-- ## The move on (R44, R238)

/-- Going to a word of the section or to the place after it, with changed loops. -/
theorem updLoops_goto_steers (s : State) {k : Section} (l : List LoopEntry) (p : Nat) (hk : s.curCtx.sect = some k)
    (hp : k.has p = true ∨ p = k.stop) :
    Steers s ((s.updCtx fun c => { c with loops := l }).goto p) { s.curCtx with loops := l, next := s.target p } p := by
  have h := updCtx_goto_steers s (fun c => { c with loops := l }) p (by rfl)
  rwa [nextAt_target s { s.curCtx with loops := l } p rfl (.inl ⟨k, hk, hp⟩)] at h

/-- A replayed word moves on without the check. -/
theorem advanceTo_replay_steers {s : State} {k : Section} {p : Nat} (hr : s.focus.replay = true) (hk : s.curCtx.sect = some k)
    (hp : k.has p = true ∨ p = k.stop) : Steers s (s.advanceTo p) { s.curCtx with next := s.target p } p := by
  have h := goto_steers s p
  rw [nextAt_target s s.curCtx p rfl (.inl ⟨k, hk, hp⟩)] at h
  rwa [State.advanceTo, if_pos hr]

/-- The move on where no loop goes back. -/
theorem advanceTo_onward_steers {s : State} {k : Section} {p : Nat} {l : List LoopEntry} (hr : s.focus.replay = false)
    (hl : loopBack s.focus.parcel s.curCtx.loops = (l, none)) (hk : s.curCtx.sect = some k) (hp : k.has p = true ∨ p = k.stop) :
    Steers s (s.advanceTo p) { s.curCtx with loops := l, next := s.target p } p := by
  have e : s.advanceTo p = (s.updCtx fun c => { c with loops := l }).goto p := by
    simp only [State.advanceTo, hr, hl, Bool.false_eq_true, if_false]
  rw [e]
  exact updLoops_goto_steers s l p hk hp

theorem moreEoc_defers (s : State) (l : List Eoc) : Defers s (s.updDie (Die.moreEoc l)) l :=
  ⟨noEoc_moreEoc s l, by rw [curDie_updDie]; rfl⟩

theorem target_moreEoc (s : State) (l : List Eoc) (p : Nat) : (s.updDie (Die.moreEoc l)).target p = s.target p := by
  simp only [State.target, curCtx_moreEoc, curSta_moreEoc, cyc_moreEoc, updDie_focus]

/-- The rotation that a loop-back with ROT makes. -/
def rotation (s : State) (rot : Bool) : List Eoc := if rot then [.rotate s.focus.pos] else []

/-- The loop-back's own state change: the loops, then the rotation, in either order. -/
theorem advanceTo_of_back {s : State} {p : Nat} {l : List LoopEntry} {q : Parcel} {rot : Bool} (hr : s.focus.replay = false)
    (hl : loopBack s.focus.parcel s.curCtx.loops = (l, some (q, rot))) :
    s.advanceTo p = ((s.updDie (Die.moreEoc (rotation s rot))).updCtx fun c => { c with loops := l }).goto q.toNat := by
  rw [updCtx_moreEoc]
  simp only [State.advanceTo, hr, hl, rotation, later_eq_moreEoc, Bool.false_eq_true, if_false]
  cases rot with
  | true => rfl
  | false => simp only [Bool.false_eq_true, if_false, updDie_moreEoc_nil]

/-- The move on where a loop goes back to a word of the section. -/
theorem advanceTo_back_steers {s : State} {k : Section} (p : Nat) {l : List LoopEntry} {q : Parcel} {rot : Bool}
    (hr : s.focus.replay = false) (hl : loopBack s.focus.parcel s.curCtx.loops = (l, some (q, rot))) (hk : s.curCtx.sect = some k)
    (hq : k.has q.toNat = true) :
    ∃ u, Steers u (s.advanceTo p) { s.curCtx with
        loops := l, next := .word q (s.cyc + 1 + s.focus.wait + s.curSta.dlyAt q) } q.toNat ∧ Defers s u (rotation s rot) := by
  refine ⟨s.updDie (Die.moreEoc (rotation s rot)), ?_, moreEoc_defers ..⟩
  have h := updLoops_goto_steers (s.updDie (Die.moreEoc (rotation s rot))) l q.toNat
    (by rw [curCtx_moreEoc]; exact hk) (.inl hq)
  rw [curCtx_moreEoc, target_moreEoc, target_word hk hq, BitVec.ofNat_toNat, BitVec.setWidth_eq, ← advanceTo_of_back (p := p) hr hl] at h
  exact h

-- ## After a word (R44, R312)

/-- A word that has not moved its stream moves on. -/
theorem advance_eq {s : State} (hm : s.focus.moved = false) (hr : s.focus.replay = false) : s.advance = s.advanceTo s.after := by
  simp only [State.advance, hm, hr, Bool.or_self, Bool.false_eq_true, if_false]

/-- No snapshot is taken where no loop entry is popped. -/
theorem moveOn_eq {s : State} {n : Nat} (h : n ≤ s.advance.curCtx.loops.length) : s.moveOn n = s.advance := by
  simp only [State.moveOn, decide_eq_false (Nat.not_lt.2 h), Bool.and_false, Bool.false_eq_true, if_false]

/-- A move on that keeps at least `n` loops is the whole of `moveOn`. -/
theorem moveOn_steers {s u : State} {n p : Nat} {c : Ctx} (hm : s.focus.moved = false) (hr : s.focus.replay = false)
    (h : Steers u (s.advanceTo s.after) c p) (hn : n ≤ c.loops.length) : Steers u (s.moveOn n) c p := by
  rw [← advance_eq hm hr] at h
  rw [moveOn_eq (by rw [h.context]; exact hn)]
  exact h

/-- The word ends no loop: the stream goes to the parcel after it. -/
theorem moveOn_onward_steers {s : State} {k : Section} (hm : s.focus.moved = false) (hr : s.focus.replay = false)
    (hk : s.curCtx.sect = some k) (hp : k.has s.after = true ∨ s.after = k.stop) (hl : ∀ e ∈ s.curCtx.loops, e.last ≠ s.focus.parcel) :
    Steers s (s.moveOn s.curCtx.loops.length) { s.curCtx with next := s.target s.after } s.after :=
  moveOn_steers hm hr (advanceTo_onward_steers hr (loopBack_of_forall hl) hk hp) le_rfl

end Sys2Proof.Machine
end

section
open Sys2Proof Sys2Proof.Machine

/-- Settles O12: `moveOn_onward_steers` at a word of the section and at its end, and `advanceTo_back_steers` for the loop-back. -/
theorem nextWord : Obligations.NextWord := by
  unfold Obligations.NextWord
  refine ⟨fun _ => rfl, fun _ _ => rfl, ?_, ?_, fun _ _ rest => loopBack_back rest, fun _ _ rest => loopBack_gone rest,
    fun _ _ => loopBack_stays, ?_⟩
  · intro s k n hm hr hk hp hl hn
    have h := moveOn_onward_steers hm hr hk (.inl hp) hl
    rw [target_word hk (p := s.after) hp, ← hn] at h
    exact h
  · intro s k n hm hr hk hp _ hl hn
    have h := moveOn_onward_steers hm hr hk (.inr hp) hl
    rw [show s.after = k.stop from hp, target_stop hk, ← hn] at h
    exact ⟨h, fun hh => by rw [h.retires, retirement_stop hk hh]⟩
  · intro s k e rest n hm hr hk hs hl hc hq hn
    obtain ⟨u, hu, hd⟩ := advanceTo_back_steers s.after hr (by rw [hs]; exact loopBack_back rest hl hc) hk hq
    exact ⟨u, moveOn_steers hm hr hu hn, hd⟩
end

section
namespace Sys2Proof.Machine

open Sys2Proof

-- ## LOOP (R237)

/-- A positive offset is the number that its bits spell. -/
theorem toInt_of_pos {off : BitVec 24} (h : 0 < off.toInt) : off.toInt = off.toNat := by
  rw [BitVec.toInt_eq_toNat_cond] at h ⊢
  split at h <;> split <;> omega

/-- The end word of a LOOP with a positive offset. -/
theorem loopEnd_toNat (w : Parcel) {off : BitVec 24} (h : 0 < off.toInt) : (loopEnd w off).toNat = w.toNat + 6 * off.toNat := by
  rw [loopEnd, toInt_of_pos h]
  omega

/-- The check of a LOOP's end word, in a section. -/
theorem loopOk_iff {s : State} {k : Section} (hk : s.curCtx.sect = some k) (off : BitVec 24) :
    s.loopOk off = true ↔ 0 < off.toInt ∧ s.focus.parcel.toNat + 6 * off.toNat < k.stop := by
  simp only [State.loopOk, hk, Bool.and_eq_true, decide_eq_true_iff]
  refine and_congr_right fun h => ?_
  rw [loopEnd, toInt_of_pos h]
  omega

/-- A LOOP whose end word is not ahead. -/
theorem loopOk_of_not_pos {s : State} {off : BitVec 24} (h : off.toInt < 1) : s.loopOk off = false := by
  simp only [State.loopOk, decide_eq_false (show ¬0 < off.toInt by omega), Bool.false_and]

/-- The entry that a LOOP pushes. -/
def State.loopEntry (s : State) (rot : Bool) (n : Count) (off : BitVec 24) : LoopEntry :=
  { ctr := s.count n, rot := rot, first := s.focus.parcel + 6, last := BitVec.ofNat 16 (s.focus.parcel.toNat + 6 * off.toNat) }

theorem ofNat_after (s : State) : BitVec.ofNat 16 s.after = s.focus.parcel + 6 := by
  rw [State.after]
  bv_omega

/-- LOOP with a count: it pushes its entry and goes to the first body word. -/
theorem exec_loop_count {s : State} {k : Section} {rot : Bool} {n : Count} {off : BitVec 24} (hk : s.curCtx.sect = some k)
    (hoff : 0 < off.toInt) (hend : s.focus.parcel.toNat + 6 * off.toNat < k.stop) (hl : s.curCtx.loops.length < 4)
    (hn : s.count n ≠ 0) :
    exec (.loop rot n off) s =
      .next ((s.updCtx fun c => { c with loops := s.loopEntry rot n off :: s.curCtx.loops }).goto s.after) := by
  change execLoop rot n off s = _
  have hok : s.loopOk off = true := (loopOk_iff hk off).2 ⟨hoff, hend⟩
  simp only [execLoop, hok, if_neg (Nat.not_le.2 hl), hn, loopEnd_toNat _ hoff, ofNat_after, Bool.not_true, Bool.false_eq_true, if_false]
  exact congrArg (fun u : State => Host.Outcome.next (u.goto s.after)) (updCtx_congr rfl)

/-- LOOP with 0: the move on to the word after its end word. -/
theorem exec_loop_zero {s : State} {rot : Bool} {n : Count} {off : BitVec 24} (hok : s.loopOk off = true)
    (hl : s.curCtx.loops.length < 4) (hn : s.count n = 0) :
    exec (.loop rot n off) s = .next (s.advanceTo ((loopEnd s.focus.parcel off).toNat + 6)) := by
  change execLoop rot n off s = _
  simp only [execLoop, loopSkip, hok, if_neg (Nat.not_le.2 hl), hn, Bool.not_true, Bool.false_eq_true, if_false, if_true]

theorem exec_loop_sectionOrder {s : State} (rot : Bool) (n : Count) {off : BitVec 24} (hok : s.loopOk off = false) :
    Raises (.loop rot n off) s .sectionOrder 0 := by
  have e : exec (.loop rot n off) s = raise s .sectionOrder := by
    change execLoop rot n off s = _
    simp only [execLoop, hok, Bool.not_false, if_true]
  rw [Raises, e]
  exact raise_trapped s _

theorem exec_loop_loopDepth {s : State} (rot : Bool) (n : Count) {off : BitVec 24} (hok : s.loopOk off = true)
    (hl : 4 ≤ s.curCtx.loops.length) : Raises (.loop rot n off) s .loopDepth 0 := by
  have e : exec (.loop rot n off) s = raise s .loopDepth := by
    change execLoop rot n off s = _
    simp only [execLoop, hok, ge_iff_le, hl, Bool.not_true, Bool.false_eq_true, if_false, if_true]
  rw [Raises, e]
  exact raise_trapped s _

-- ## Causes of BR, CALL, RET and TRAP (R53, R236, R252)

theorem exec_br_sectionOrder {s : State} {a : BitVec 3} (hb : s.bready a = true) (ht : s.targetOk (s.breg a).tgt = false) :
    Raises (.br a) s .sectionOrder 0 := by
  have e : exec (.br a) s = raise s .sectionOrder := by
    change execBr a s = _
    simp only [execBr, hb, ht, Bool.not_true, Bool.not_false, Bool.false_eq_true, if_false, if_true]
  rw [Raises, e]
  exact raise_trapped s _

theorem exec_call_sectionOrder {s : State} {a : BitVec 3} (hb : s.bready a = true) (ht : s.targetOk (s.breg a).tgt = false)
    (hl : s.curCtx.calls.length < 8) : Raises (.call a) s .sectionOrder 0 := by
  have e : exec (.call a) s = raise s .sectionOrder := by
    change execCall a s = _
    simp only [execCall, hb, ht, if_neg (Nat.not_le.2 hl), Bool.not_true, Bool.not_false, Bool.false_eq_true, if_false, if_true]
  rw [Raises, e]
  exact raise_trapped s _

theorem exec_call_callDepth {s : State} {a : BitVec 3} (hb : s.bready a = true) (hl : 8 ≤ s.curCtx.calls.length) :
    Raises (.call a) s .callDepth 0 := by
  have e : exec (.call a) s = raise s .callDepth := by
    change execCall a s = _
    simp only [execCall, hb, ge_iff_le, hl, Bool.not_true, Bool.false_eq_true, if_false, if_true]
  rw [Raises, e]
  exact raise_trapped s _

theorem exec_ret_callDepth {s : State} (h : s.curCtx.calls = []) : Raises .ret s .callDepth 0 := by
  have e : exec .ret s = raise s .callDepth := by
    change execRet s = _
    simp only [execRet, h]
  rw [Raises, e]
  exact raise_trapped s _

theorem exec_ret_sectionOrder {s : State} {e : CallEntry} (he : e ∈ s.curCtx.calls.head?) (ht : s.returnOk e.ret = false) :
    Raises .ret s .sectionOrder 0 := by
  obtain ⟨rest, hc⟩ := List.head?_eq_some_iff.1 he
  have e : exec .ret s = raise s .sectionOrder := by
    change execRet s = _
    simp only [execRet, hc, ht, Bool.not_false, if_true]
  rw [Raises, e]
  exact raise_trapped s _

/-- The codes of the eight TRAP causes. -/
theorem causeCode_trapN (n : BitVec 3) : (causeCode (.trapN n)).toNat = 0xF0 + n.toNat := by
  simp only [causeCode]
  bv_omega

end Sys2Proof.Machine
end

section
open Sys2Proof Sys2Proof.Machine

/-- Settles O10: LOOP by its two forms, `exec_loop_count` and `exec_loop_zero` with the check of the loop stack, and each cause by
the lemma of its word. -/
theorem loopsAndSteeringTraps : Obligations.LoopsAndSteeringTraps := by
  unfold Obligations.LoopsAndSteeringTraps
  refine ⟨?_, ?_⟩
  · intro s rot n off k hk hw _ hoff hend hl
    have hok : s.loopOk off = true := (loopOk_iff hk off).2 ⟨hoff, hend⟩
    have hexit := section_has_add_six (section_has_add hw _ hend)
    have hbody : k.has (s.focus.parcel.toNat + 6) = true := by
      refine section_has_add hw 1 ?_
      rw [toInt_of_pos hoff] at hoff
      omega
    have hskip (hn : s.count n = 0) := exec_loop_zero (rot := rot) hok hl hn
    rw [loopEnd_toNat _ hoff] at hskip
    refine ⟨fun hn => ⟨_, exec_loop_count hk hoff hend hl hn, ?_⟩, fun hn hr => ⟨_, hskip hn, advanceTo_replay_steers hr hk hexit⟩,
      fun gone rest hn hr hs hg hrest => ⟨_, hskip hn, ?_⟩, fun gone e rest hn hr hs hg he hc hfirst => ?_⟩
    · have h := updLoops_goto_steers s (s.loopEntry rot n off :: s.curCtx.loops) s.after hk (.inl hbody)
      rw [target_word hk (p := s.after) hbody, ofNat_after] at h
      exact h
    · exact advanceTo_onward_steers hr (by rw [hs, loopBack_append _ hg, loopBack_stays hrest]) hk hexit
    · obtain ⟨u, hu, hd⟩ := advanceTo_back_steers (s.focus.parcel.toNat + 6 * off.toNat + 6) hr
        (by rw [hs, loopBack_append _ hg, loopBack_back rest he hc]) hk hfirst
      exact ⟨_, u, hskip hn, hu, hd⟩
  · intro s a n rot c off
    exact ⟨⟨raise_trapped s _, causeCode_trapN n⟩,
      fun hb ht => ⟨exec_br_sectionOrder hb ht, exec_call_sectionOrder hb ht⟩, exec_call_callDepth, exec_ret_callDepth,
      fun _ => exec_ret_sectionOrder, fun h => exec_loop_sectionOrder rot c (loopOk_of_not_pos h),
      fun k hk _ hstop => exec_loop_sectionOrder rot c (Bool.eq_false_iff.2 fun h => Nat.not_lt.2 hstop ((loopOk_iff hk off).1 h).2),
      fun k hk hpos hlt hl => exec_loop_loopDepth rot c ((loopOk_iff hk off).2 ⟨hpos, hlt⟩) hl⟩
end

section
namespace Sys2Proof.Machine

open Sys2Proof

-- ## Scalar floating-point words (R73, R228, R231)

/-- The result and its events of a floating-point word, after a draw or none. -/
theorem floatWord_effect (s : State) (on : Bool) (d : BitVec 6) (r : W64 × FpFlags) :
    ∃ t, floatWord (s.noiseIf on).2 d r = .next t ∧ Effect s t (s.scalarWrites 4 d r.1) (s.flagWrites 4 r.2) s.curSta.pipeFree
      (if on && !s.focus.handler then s.curSta.noise.draw.2 else s.curSta.noise) := by
  have hdraw := noiseIf_effect s on
  have hscal := putScal_adds (s.noiseIf on).2 4 d r.1
  have hflags := putFlags_effect ((s.noiseIf on).2.putScal 4 d r.1) 4 r.2
  have hw : (s.noiseIf on).2.scalarWrites 4 d r.1 = s.scalarWrites 4 d r.1 := by
    simp only [State.scalarWrites, State.inFlight, focus_noiseIf, cyc_noiseIf]
  have hf : ((s.noiseIf on).2.putScal 4 d r.1).flagWrites 4 r.2 = s.flagWrites 4 r.2 := by
    simp only [State.flagWrites, focus_putScal, cyc_putScal, focus_noiseIf, cyc_noiseIf]
  have h := (hdraw.trans hscal).trans hflags
  rw [hw, hf, hscal.pipe, hscal.noise, hdraw.pipe, hdraw.noise] at h
  exact ⟨_, rfl, by simpa only [List.nil_append, List.append_nil] using h⟩

/-- An FP32 result in a 64-bit register, with its events. -/
def floatResult64 (r : W32 × FpFlags) : W64 × FpFlags := (r.1.setWidth 64, r.2)

/-- A word whose result is that of `f` at its noise value, which it draws where `on` says so. -/
theorem floatResult_of_exec {i : Instr} {s : State} {d : BitVec 6} {draw : Bool → BitVec 16 × Noise} (on : Bool)
    (f : Nat → W64 × FpFlags)
    (hdraw : ∀ on, draw on = if on && !s.focus.handler then s.curSta.noise.draw else (0, s.curSta.noise))
    (h : exec i s = floatWord (s.noiseIf on).2 d (f (s.noiseIf on).1)) : FloatResult i s d (f (draw on).1.toNat) (draw on).2 := by
  have hvalue : (s.noiseIf on).1 = (draw on).1.toNat := by
    rw [hdraw, State.noiseIf]
    cases on <;> cases s.focus.handler <;> rfl
  have hnoise : (draw on).2 = if on && !s.focus.handler then s.curSta.noise.draw.2 else s.curSta.noise := by
    rw [hdraw, apply_ite Prod.snd]
  rw [FloatResult, h, hvalue, hnoise]
  exact floatWord_effect ..

/-- The same for a word that never draws. -/
theorem floatResult_of_exec_exact {i : Instr} {s : State} {d : BitVec 6} {r : W64 × FpFlags} (h : exec i s = floatWord s d r) :
    FloatResult i s d r s.curSta.noise := by
  have hno : (s.noiseIf false).2 = s := rfl
  have he := floatWord_effect s false d r
  rw [hno] at he
  rw [FloatResult, h]
  exact he

-- ## Rounding to a multiple (R68)

/-- A multiple is kept. -/
theorem roundAt_exact (rnd : Rnd) (neg : Bool) (noise : Nat) (odd : Nat → Bool) (m : Nat) {e q : Int} (h : q ≤ e) :
    roundAt rnd neg noise odd m e q = (m * 2 ^ (e - q).toNat, false) := if_pos h

/-- The next multiple is taken, and not the one below the value. -/
def roundsUp (rnd : Rnd) (neg : Bool) (noise : Nat) (odd : Nat → Bool) (m sh : Nat) : Bool :=
  match rnd with
  | .rne => decide (2 * (m % 2 ^ sh) > 2 ^ sh) || (2 * (m % 2 ^ sh) == 2 ^ sh && odd (m / 2 ^ sh))
  | .rtz => false
  | .rdn => m % 2 ^ sh != 0 && neg
  | .rup => m % 2 ^ sh != 0 && !neg
  | .rsr => decide (m % 2 ^ sh * 65536 / 2 ^ sh + noise ≥ 65536)

/-- A value with bits below the unit goes to one of the two multiples next to it. -/
theorem roundAt_inexact (rnd : Rnd) (neg : Bool) (noise : Nat) (odd : Nat → Bool) (m : Nat) (e : Int) {sh : Nat} (h : 0 < sh) :
    roundAt rnd neg noise odd m e (e + sh) =
      (if roundsUp rnd neg noise odd m sh then m / 2 ^ sh + 1 else m / 2 ^ sh, m % 2 ^ sh != 0) := by
  have hlt : ¬e + sh ≤ e := by omega
  have hsh : (e + sh - e).toNat = sh := by omega
  simp only [roundAt, if_neg hlt, hsh]
  cases rnd <;> rfl

/-- A value without bits below the unit stays, in every mode. -/
theorem roundsUp_zero {noise : Nat} (hn : noise < 65536) (rnd : Rnd) (neg : Bool) (odd : Nat → Bool) {m sh : Nat}
    (h : m % 2 ^ sh = 0) : roundsUp rnd neg noise odd m sh = false := by
  have hpos : 0 < 2 ^ sh := Nat.two_pow_pos sh
  cases rnd <;> simp [roundsUp, h]
  · omega
  · exact hn

/-- Where the unit lies: at or below the value's own, or `sh` bits above it. -/
theorem unit_cases (e q : Int) : q ≤ e ∨ ∃ sh : Nat, q = e + sh ∧ 0 < sh := by
  by_cases h : q ≤ e
  · exact .inl h
  · exact .inr ⟨(q - e).toNat, by omega, by omega⟩

/-- A value below 2^(q + b) rounds to at most 2^b units. -/
theorem roundAt_le (rnd : Rnd) (neg : Bool) (noise : Nat) (odd : Nat → Bool) {m b : Nat} {e q : Int}
    (h : m.log2 + e < q + b) : (roundAt rnd neg noise odd m e q).1 ≤ 2 ^ b := by
  have hlt : m < 2 ^ (m.log2 + 1) := Nat.lt_log2_self
  rcases unit_cases e q with hq | ⟨sh, rfl, hsh⟩
  · rw [roundAt_exact _ _ _ _ _ hq]
    calc m * 2 ^ (e - q).toNat ≤ 2 ^ (m.log2 + 1) * 2 ^ (e - q).toNat := Nat.mul_le_mul_right _ hlt.le
      _ = 2 ^ (m.log2 + 1 + (e - q).toNat) := (Nat.pow_add ..).symm
      _ ≤ 2 ^ b := Nat.pow_le_pow_right (by omega) (by omega)
  · rw [roundAt_inexact _ _ _ _ _ _ hsh]
    have hlo : m / 2 ^ sh < 2 ^ b := by
      rw [Nat.div_lt_iff_lt_mul (Nat.two_pow_pos sh), ← Nat.pow_add]
      exact hlt.trans_le (Nat.pow_le_pow_right (by omega) (by omega))
    dsimp only
    split <;> omega

/-- A value of at least 2^(q + b) rounds to at least 2^b units. -/
theorem le_roundAt (rnd : Rnd) (neg : Bool) (noise : Nat) (odd : Nat → Bool) {m b : Nat} {e q : Int} (hm : m ≠ 0)
    (h : q + b ≤ m.log2 + e) : 2 ^ b ≤ (roundAt rnd neg noise odd m e q).1 := by
  have hle : 2 ^ m.log2 ≤ m := Nat.log2_self_le hm
  rcases unit_cases e q with hq | ⟨sh, rfl, hsh⟩
  · rw [roundAt_exact _ _ _ _ _ hq]
    calc 2 ^ b ≤ 2 ^ (m.log2 + (e - q).toNat) := Nat.pow_le_pow_right (by omega) (by omega)
      _ = 2 ^ m.log2 * 2 ^ (e - q).toNat := Nat.pow_add ..
      _ ≤ m * 2 ^ (e - q).toNat := Nat.mul_le_mul_right _ hle
  · rw [roundAt_inexact _ _ _ _ _ _ hsh]
    have hlo : 2 ^ b ≤ m / 2 ^ sh := by
      rw [Nat.le_div_iff_mul_le (Nat.two_pow_pos sh), ← Nat.pow_add]
      exact (Nat.pow_le_pow_right (by omega) (by omega)).trans hle
    dsimp only
    split <;> omega

end Sys2Proof.Machine
end

section
namespace Sys2Proof.Machine

open Sys2Proof

-- ## The floating-point formats (R64)

/-- What the four signed floating-point formats have in common: the sign bit lies above exponent and mantissa, the largest finite value
is M 2^G, and the bit patterns above its own are those of the infinities and NaNs. -/
structure FFmt.Regular (f : FFmt) (M : Nat) (G : Int) : Prop where
  split : ∃ K, f.width = f.mb + K + 1
  top : ∃ E : Nat, (E : Int) = G + f.bias + f.mb ∧ 1 ≤ E ∧ f.maxFin + 2 ^ f.mb = E * 2 ^ f.mb + M
  leading : 2 ^ f.mb ≤ M ∧ M < 2 ^ (f.mb + 1)
  room : f.maxFin < 2 ^ (f.width - 1)
  infinite : f.hasInf = true → f.maxFin + 1 = (2 ^ (f.width - 1 - f.mb) - 1) * 2 ^ f.mb
  finite : f.hasInf = false → f.maxFin + 2 = 2 ^ (f.width - 1 - f.mb) * 2 ^ f.mb

/-- The entries of the table of formats. -/
structure FormatEntry (ty : Ty) (f : FFmt) (mb w : Nat) (bias : Int) (M : Nat) (G : Int) (top nan : Nat) (infs : Bool) : Prop where
  type : fltTy ty = some f
  notInt : intTy ty = none
  mb : mb = f.mb
  width : w = f.width
  bias : bias = f.bias
  top : top = f.maxFin
  nan : nan = f.nan
  infs : infs = f.hasInf
  regular : f.Regular M G

theorem formatEntry_of_mem {ty : Ty} {f : FFmt} {mb w : Nat} {bias : Int} {M : Nat} {G : Int} {top nan : Nat} {infs : Bool}
    (h : (ty, f, mb, w, bias, M, G, top, nan, infs) ∈ floatFormats) : FormatEntry ty f mb w bias M G top nan infs := by
  simp only [floatFormats, List.mem_cons, Prod.mk.injEq, List.not_mem_nil, or_false] at h
  rcases h with ⟨rfl, rfl, rfl, rfl, rfl, rfl, rfl, rfl, rfl, rfl⟩ | ⟨rfl, rfl, rfl, rfl, rfl, rfl, rfl, rfl, rfl, rfl⟩ |
    ⟨rfl, rfl, rfl, rfl, rfl, rfl, rfl, rfl, rfl, rfl⟩ | ⟨rfl, rfl, rfl, rfl, rfl, rfl, rfl, rfl, rfl, rfl⟩
  · exact ⟨rfl, rfl, rfl, rfl, rfl, rfl, rfl, rfl, ⟨8, rfl⟩, ⟨254, by decide⟩, by decide, by decide, by decide, by decide⟩
  · exact ⟨rfl, rfl, rfl, rfl, rfl, rfl, rfl, rfl, ⟨8, rfl⟩, ⟨254, by decide⟩, by decide, by decide, by decide, by decide⟩
  · exact ⟨rfl, rfl, rfl, rfl, rfl, rfl, rfl, rfl, ⟨5, rfl⟩, ⟨30, by decide⟩, by decide, by decide, by decide, by decide⟩
  · exact ⟨rfl, rfl, rfl, rfl, rfl, rfl, rfl, rfl, ⟨4, rfl⟩, ⟨15, by decide⟩, by decide, by decide, by decide, by decide⟩

-- ## Reading a value (R64)

/-- A value by its sign, its exponent field and its mantissa field. -/
theorem read_signed {f : FFmt} (neg : Bool) {E F : Nat} (hF : F < 2 ^ f.mb) (hm : E * 2 ^ f.mb + F < 2 ^ (f.width - 1)) :
    f.read (f.signed neg (E * 2 ^ f.mb + F)) =
      if f.maxFin < E * 2 ^ f.mb + F then (if f.hasInf && F == 0 then .inf neg else .nan)
      else if E = 0 then .num neg F (1 - f.bias - f.mb) else .num neg (2 ^ f.mb + F) (E - f.bias - f.mb) := by
  have hP : 0 < 2 ^ f.mb := Nat.two_pow_pos _
  have hsign : (f.signed neg (E * 2 ^ f.mb + F) / 2 ^ (f.width - 1) % 2 == 1) = neg := by
    cases neg with
    | false => simp [FFmt.signed, Nat.div_eq_of_lt hm]
    | true => simp [FFmt.signed, Nat.add_div_left _ (Nat.two_pow_pos _), Nat.div_eq_of_lt hm]
  have hmag : f.signed neg (E * 2 ^ f.mb + F) % 2 ^ (f.width - 1) = E * 2 ^ f.mb + F := by
    cases neg <;> simp [FFmt.signed, Nat.mod_eq_of_lt hm]
  have hE : (E * 2 ^ f.mb + F) / 2 ^ f.mb = E := by
    rw [Nat.mul_comm, Nat.mul_add_div hP, Nat.div_eq_of_lt hF, Nat.add_zero]
  have hmt : (E * 2 ^ f.mb + F) % 2 ^ f.mb = F := by rw [Nat.mul_comm, Nat.mul_add_mod, Nat.mod_eq_of_lt hF]
  simp only [FFmt.read, hsign, hmag, hE, hmt, gt_iff_lt]

variable {f : FFmt} {M : Nat} {G : Int}

/-- R64's fields: exponent and mantissa within their widths. -/
theorem read_fields (h : f.Regular M G) (neg : Bool) {E F : Nat} (hE : E < 2 ^ (f.width - 1 - f.mb)) (hF : F < 2 ^ f.mb) :
    f.read ((if neg then 2 ^ (f.width - 1) else 0) + E * 2 ^ f.mb + F) =
      if E = 2 ^ (f.width - 1 - f.mb) - 1 ∧ f.hasInf = true then (if F = 0 then .inf neg else .nan)
      else if E = 2 ^ (f.width - 1 - f.mb) - 1 ∧ F = 2 ^ f.mb - 1 then .nan
      else if E = 0 then .num neg F (1 - f.bias - f.mb) else .num neg (2 ^ f.mb + F) (E - f.bias - f.mb) := by
  obtain ⟨K, hK⟩ := h.split
  have hfin := h.finite
  have hinf := h.infinite
  have hw : f.width - 1 - f.mb = K := by omega
  have hw1 : 2 ^ (f.width - 1) = 2 ^ K * 2 ^ f.mb := by rw [← Nat.pow_add]; congr 1; omega
  rw [hw] at hE hfin hinf ⊢
  have hstep : E + 1 ≤ 2 ^ K - 1 → (E + 1) * 2 ^ f.mb ≤ (2 ^ K - 1) * 2 ^ f.mb := Nat.mul_le_mul_right _
  have hfull : (E + 1) * 2 ^ f.mb ≤ 2 ^ K * 2 ^ f.mb := Nat.mul_le_mul_right _ hE
  have hlast : (2 ^ K - 1) * 2 ^ f.mb = 2 ^ K * 2 ^ f.mb - 2 ^ f.mb := by rw [Nat.sub_mul, Nat.one_mul]
  have hsucc : (E + 1) * 2 ^ f.mb = E * 2 ^ f.mb + 2 ^ f.mb := Nat.succ_mul ..
  have hread := read_signed (f := f) neg hF (E := E) (by omega)
  rw [FFmt.signed, ← Nat.add_assoc] at hread
  rw [hread]
  cases hi : f.hasInf with
  | true =>
    have hinf := hinf hi
    by_cases hlast : E = 2 ^ K - 1
    · subst hlast
      have hbig : f.maxFin < (2 ^ K - 1) * 2 ^ f.mb + F := by omega
      simp only [hbig, if_true, and_self, Bool.true_and, beq_iff_eq]
    · have hsmall : ¬f.maxFin < E * 2 ^ f.mb + F := by omega
      simp only [hsmall, hlast, false_and, if_false]
  | false =>
    have hfin := hfin hi
    by_cases hlast : E = 2 ^ K - 1 ∧ F = 2 ^ f.mb - 1
    · obtain ⟨rfl, rfl⟩ := hlast
      have hbig : f.maxFin < (2 ^ K - 1) * 2 ^ f.mb + (2 ^ f.mb - 1) := by omega
      simp only [hbig, if_true, Bool.false_and, Bool.false_eq_true, and_false, if_false, and_self]
    · have hsmall : ¬f.maxFin < E * 2 ^ f.mb + F := by omega
      simp only [hsmall, hlast, Bool.false_eq_true, and_false, if_false]

/-- A magnitude of `n` units in binade `j` reads as n 2^q. -/
theorem read_magnitude (h : f.Regular M G) (neg : Bool) {j n : Nat} {q : Int} (hq : q = 1 - f.bias - f.mb + j)
    (hn : n ≤ 2 ^ (f.mb + 1)) (hj : j = 0 ∨ 2 ^ f.mb ≤ n) (hfin : j * 2 ^ f.mb + n ≤ f.maxFin) :
    ∃ k c, f.read (f.signed neg (j * 2 ^ f.mb + n)) = .num neg k c ∧ q ≤ c ∧ k * 2 ^ (c - q).toNat = n := by
  have hroom := h.room
  have hP : 0 < 2 ^ f.mb := Nat.two_pow_pos _
  rw [Nat.pow_succ] at hn
  have hread {E F : Nat} (hF : F < 2 ^ f.mb) (e : j * 2 ^ f.mb + n = E * 2 ^ f.mb + F) :
      f.read (f.signed neg (j * 2 ^ f.mb + n)) =
        if E = 0 then .num neg F (1 - f.bias - f.mb) else .num neg (2 ^ f.mb + F) (E - f.bias - f.mb) := by
    rw [e, read_signed neg hF (by omega), if_neg (by omega)]
  rcases Nat.lt_or_ge n (2 ^ f.mb) with hlt | hge
  · have hj0 : j = 0 := by omega
    subst hj0
    refine ⟨n, 1 - f.bias - f.mb, ?_, by omega, ?_⟩
    · rw [hread hlt rfl, if_pos rfl]
    · rw [show (1 - f.bias - f.mb - q).toNat = 0 by omega, Nat.pow_zero, Nat.mul_one]
  · rcases Nat.lt_or_ge n (2 * 2 ^ f.mb) with hlt | htwo
    · refine ⟨n, (j + 1 : Nat) - f.bias - f.mb, ?_, by omega, ?_⟩
      · rw [hread (E := j + 1) (F := n - 2 ^ f.mb) (by omega) (by rw [Nat.succ_mul]; omega), if_neg (Nat.succ_ne_zero j),
          Nat.add_sub_of_le hge]
      · rw [show ((j + 1 : Nat) - f.bias - f.mb - q).toNat = 0 by omega, Nat.pow_zero, Nat.mul_one]
    · refine ⟨2 ^ f.mb, (j + 2 : Nat) - f.bias - f.mb, ?_, by omega, ?_⟩
      · rw [hread (E := j + 2) (F := 0) hP (by rw [Nat.add_mul]; omega), if_neg (by omega), Nat.add_zero]
      · rw [show ((j + 2 : Nat) - f.bias - f.mb - q).toNat = 1 by omega, Nat.pow_one]
        omega

/-- The magnitudes up to the largest finite value, M 2^G. -/
theorem magnitude_le_maxFin_iff (h : f.Regular M G) {j n : Nat} {q : Int} (hq : q = 1 - f.bias - f.mb + j)
    (hn : n ≤ 2 ^ (f.mb + 1)) (hj : j = 0 ∨ 2 ^ f.mb ≤ n) :
    j * 2 ^ f.mb + n ≤ f.maxFin ↔ q ≤ G ∧ n ≤ M * 2 ^ (G - q).toNat := by
  obtain ⟨E, hE, hpos, htop⟩ := h.top
  obtain ⟨hM, hM2⟩ := h.leading
  rw [Nat.pow_succ] at hn hM2
  have hsucc (i : Nat) : (i + 1) * 2 ^ f.mb = i * 2 ^ f.mb + 2 ^ f.mb := Nat.succ_mul ..
  rcases Nat.lt_trichotomy (j + 1) E with hlt | heq | hgt
  · have hle : (j + 1 + 1) * 2 ^ f.mb ≤ E * 2 ^ f.mb := Nat.mul_le_mul_right _ hlt
    rw [hsucc, hsucc] at hle
    have hG : 2 ^ f.mb * 2 ≤ M * 2 ^ (G - q).toNat :=
      Nat.mul_le_mul hM (Nat.le_self_pow (by omega) 2)
    exact iff_of_true (by omega) ⟨by omega, by omega⟩
  · subst heq
    have hz : (G - q).toNat = 0 := by omega
    rw [hsucc] at htop
    rw [hz, Nat.pow_zero, Nat.mul_one, and_iff_right (by omega)]
    omega
  · have hle : E * 2 ^ f.mb ≤ j * 2 ^ f.mb := Nat.mul_le_mul_right _ (by omega)
    exact iff_of_false (by omega) fun e => by omega

end Sys2Proof.Machine
end

section
namespace Sys2Proof.Machine

open Sys2Proof

-- ## Rounding to a format (R68, R69, R73)

theorem roundFloat_zero (f : FFmt) (rnd : Rnd) (sat : Bool) (noise : Nat) (neg : Bool) (e : Int) :
    roundFloat f rnd sat noise neg 0 e = (if neg then 2 ^ (f.width - 1) else 0, FpFlags.none) := by
  simp only [roundFloat, if_true, FFmt.signed, Nat.add_zero]

/-- The binade of a value above that of the subnormals, which is 0. -/
def FFmt.binade (f : FFmt) (ex : Int) : Nat := (ex - (1 - f.bias)).toNat

theorem unit_eq_binade (f : FFmt) (ex : Int) : max ex (1 - f.bias) - f.mb = 1 - f.bias - f.mb + f.binade ex := by
  rw [FFmt.binade]
  omega

/-- A value rounded at its own unit: the magnitude by binade and units, or R69's where it is beyond the largest. -/
theorem roundFloat_of_ne_zero (f : FFmt) (rnd : Rnd) (sat : Bool) (noise : Nat) (neg : Bool) {m : Nat} {e ex q : Int} (hm : m ≠ 0)
    (hex : ex = m.log2 + e) (hq : q = max ex (1 - f.bias) - f.mb) :
    roundFloat f rnd sat noise neg m e =
      let r := roundAt rnd neg noise oddNat m e q
      let o := overflowBits f rnd sat neg
      if f.maxFin < f.binade ex * 2 ^ f.mb + r.1 then (if o.2 then o.1 else f.signed neg o.1, { nx := true, ov := true, nv := o.2 })
      else (f.signed neg (f.binade ex * 2 ^ f.mb + r.1), { nx := r.2, uf := r.2 && decide (ex < 1 - f.bias ∧
        ¬(ex + 1 = 1 - f.bias ∧ (roundAt rnd neg noise oddNat m e (ex - f.mb)).1 = 2 ^ (f.mb + 1))) }) := by
  have hmax : (if ex < 1 - f.bias then 1 - f.bias else ex) - f.mb = q := by omega
  have hmag (n : Nat) : (if ex < 1 - f.bias then n else (ex - (1 - f.bias)).toNat * 2 ^ f.mb + n) = f.binade ex * 2 ^ f.mb + n := by
    split
    · rw [FFmt.binade, show (ex - (1 - f.bias)).toNat = 0 by omega, Nat.zero_mul, Nat.zero_add]
    · rfl
  simp only [roundFloat, if_neg hm, expOf, ← hex, hmax, hmag, gt_iff_lt]
  simp only [Bool.decide_and, decide_not, beq_eq_decide]

variable {f : FFmt} {M : Nat} {G : Int}

/-- The units that a value takes: at most 2^(mb + 1), and at least 2^mb above the subnormals. -/
theorem roundAt_units (f : FFmt) (rnd : Rnd) (neg : Bool) (noise : Nat) (odd : Nat → Bool) {m : Nat} {e ex q : Int} (hm : m ≠ 0)
    (hex : ex = m.log2 + e) (hq : q = max ex (1 - f.bias) - f.mb) :
    (roundAt rnd neg noise odd m e q).1 ≤ 2 ^ (f.mb + 1) ∧
      (f.binade ex = 0 ∨ 2 ^ f.mb ≤ (roundAt rnd neg noise odd m e q).1) := by
  refine ⟨roundAt_le _ _ _ _ (by push_cast; omega), ?_⟩
  by_cases h : f.binade ex = 0
  · exact .inl h
  · rw [FFmt.binade] at h
    exact .inr (le_roundAt _ _ _ _ hm (by omega))

/-- Rounding that stays in range (R68): the result reads as the rounded value. -/
theorem roundFloat_finite (h : f.Regular M G) (rnd : Rnd) (sat : Bool) (noise : Nat) (neg : Bool) {m : Nat} {e ex q : Int}
    (hm : m ≠ 0) (hex : ex = m.log2 + e) (hq : q = max ex (1 - f.bias) - f.mb) {n : Nat} {nx : Bool}
    (hn : (n, nx) = roundAt rnd neg noise oddNat m e q) (hfin : q ≤ G ∧ n ≤ M * 2 ^ (G - q).toNat) :
    ∃ k c, f.read (roundFloat f rnd sat noise neg m e).1 = .num neg k c ∧ q ≤ c ∧ k * 2 ^ (c - q).toNat = n ∧
      (roundFloat f rnd sat noise neg m e).1 < 2 ^ f.width ∧
      (roundFloat f rnd sat noise neg m e).2 = { nx := nx, uf := nx && decide (ex < 1 - f.bias ∧
        ¬(ex + 1 = 1 - f.bias ∧ (roundAt rnd neg noise oddNat m e (ex - f.mb)).1 = 2 ^ (f.mb + 1))) } := by
  have hq' : q = 1 - f.bias - f.mb + f.binade ex := by rw [hq, unit_eq_binade]
  obtain ⟨hle, hge⟩ := roundAt_units f rnd neg noise oddNat hm hex hq
  have hr := roundFloat_of_ne_zero f rnd sat noise neg hm hex hq
  rw [← hn] at hle hge hr
  have hmag := (magnitude_le_maxFin_iff h hq' hle hge).2 hfin
  simp only [if_neg (Nat.not_lt.2 hmag)] at hr
  obtain ⟨k, c, hread, hqc, hk⟩ := read_magnitude h neg hq' hle hge hmag
  refine ⟨k, c, by rw [hr]; exact hread, hqc, hk, ?_, by rw [hr]⟩
  obtain ⟨K, hK⟩ := h.split
  have hroom := h.room
  have hdouble : 2 ^ f.width = 2 * 2 ^ (f.width - 1) := by rw [← Nat.pow_succ']; congr 1; omega
  rw [hr, FFmt.signed]
  dsimp only
  split <;> omega

/-- The modes that go to the largest finite value beyond it (R69). -/
def goesToMax (rnd : Rnd) (sat neg : Bool) : Prop := sat = true ∨ rnd = .rtz ∨ rnd = .rdn ∧ neg = false ∨ rnd = .rup ∧ neg = true

theorem overflowBits_max {rnd : Rnd} {sat neg : Bool} (h : goesToMax rnd sat neg) : overflowBits f rnd sat neg = (f.maxFin, false) := by
  cases rnd <;> cases sat <;> cases neg <;> simp_all [goesToMax, overflowBits]

theorem overflowBits_beyond {rnd : Rnd} {sat neg : Bool} (h : ¬goesToMax rnd sat neg) :
    overflowBits f rnd sat neg = if f.hasInf then (f.maxFin + 1, false) else (f.nan, true) := by
  cases rnd <;> cases sat <;> cases neg <;> simp_all [goesToMax, overflowBits]

/-- Rounding beyond the largest finite value: R69's table with OF and NX (R73). -/
theorem roundFloat_overflow (h : f.Regular M G) (rnd : Rnd) (sat : Bool) (noise : Nat) (neg : Bool) {m : Nat} {e ex q : Int}
    (hm : m ≠ 0) (hex : ex = m.log2 + e) (hq : q = max ex (1 - f.bias) - f.mb) {n : Nat} {nx : Bool}
    (hn : (n, nx) = roundAt rnd neg noise oddNat m e q) (hbig : ¬(q ≤ G ∧ n ≤ M * 2 ^ (G - q).toNat)) :
    roundFloat f rnd sat noise neg m e =
      let o := overflowBits f rnd sat neg
      (if o.2 then o.1 else f.signed neg o.1, { nx := true, ov := true, nv := o.2 }) := by
  have hq' : q = 1 - f.bias - f.mb + f.binade ex := by rw [hq, unit_eq_binade]
  obtain ⟨hle, hge⟩ := roundAt_units f rnd neg noise oddNat hm hex hq
  have hr := roundFloat_of_ne_zero f rnd sat noise neg hm hex hq
  rw [← hn] at hle hge hr
  rw [hr]
  exact if_pos (Nat.not_le.1 fun hmag => hbig ((magnitude_le_maxFin_iff h hq' hle hge).1 hmag))

end Sys2Proof.Machine
end

section
namespace Sys2Proof.Machine

open Sys2Proof

-- ## NaNs (R64, R71)

/-- The NaNs of a format lie above its largest finite magnitude, an infinity aside. -/
theorem read_eq_nan_iff (f : FFmt) (x : Nat) : f.read x = .nan ↔
    f.maxFin < x % 2 ^ (f.width - 1) ∧ ¬(f.hasInf = true ∧ x % 2 ^ (f.width - 1) % 2 ^ f.mb = 0) := by
  unfold FFmt.read
  dsimp only
  split_ifs with hbig <;> simp_all

/-- The NaNs by their fields are those that read as NaN. -/
theorem isNan32_iff (x : W32) : isNan32 x = true ↔ readF32 x = .nan := by
  have hx : x.toNat < 2 ^ 32 := x.isLt
  have hfields : isNan32 x = true ↔ x.toNat / 2 ^ 23 % 2 ^ 8 = 255 ∧ x.toNat / 2 ^ 0 % 2 ^ 23 ≠ 0 := by
    simp only [isNan32, Bool.and_eq_true, beq_iff_eq, bne_iff_ne, ne_eq, ← BitVec.toNat_inj, toNat_fld]
    rfl
  rw [hfields, readF32, read_eq_nan_iff]
  simp only [fmtF32, true_and]
  omega

theorem isNan32_eq_false {x : W32} (h : readF32 x ≠ .nan) : isNan32 x = false :=
  Bool.eq_false_iff.2 fun e => h ((isNan32_iff x).1 e)

-- ## Sums, products and the fused form (R70, R71)

variable {rnd : Rnd} {noise : Nat} {a b c : W32}

/-- The sum of two finite values is exact and then rounded once. -/
theorem addV_exactSum {n₁ n₂ : Bool} {m₁ m₂ : Nat} {e₁ e₂ : Int} :
    exactSum rnd noise n₁ n₂ m₁ m₂ e₁ e₂ (addV rnd noise (.num n₁ m₁ e₁) (.num n₂ m₂ e₂)) := by
  rintro S rfl
  have hmin : (if e₁ ≤ e₂ then e₁ else e₂) = min e₁ e₂ := by omega
  simp only [addV, sumNum, hmin, ← inUnits.eq_def]
  refine ⟨fun h => if_neg h, fun h => ?_⟩
  rw [if_pos h]
  cases n₁ <;> cases n₂ <;> simp

theorem addV_nan_right (v : FVal) : addV rnd noise v .nan = (nan32, FpFlags.none) := by cases v <;> rfl

theorem mulV_nan_right (v : FVal) : mulV v .nan = some .nan := by cases v <;> rfl

theorem fMul_of_mulV {v : FVal} (h : mulV (readF32 a) (readF32 b) = some v) : fMul rnd noise a b = toF32 rnd noise v := by
  rw [fMul, h]

theorem fMul_invalid (h : mulV (readF32 a) (readF32 b) = none) : fMul rnd noise a b = invalid32 := by rw [fMul, h]

/-- The fused form adds the exact product. -/
theorem fFma_of_mulV {v : FVal} (ha : readF32 a ≠ .nan) (hb : readF32 b ≠ .nan) (hc : readF32 c ≠ .nan)
    (h : mulV (readF32 a) (readF32 b) = some v) : fFma rnd noise a b c = addV rnd noise v (readF32 c) := by
  simp only [fFma, isNan32_eq_false ha, isNan32_eq_false hb, isNan32_eq_false hc, h, Bool.or_self, Bool.false_eq_true, if_false]

theorem fFma_invalid (ha : readF32 a ≠ .nan) (hb : readF32 b ≠ .nan) (hc : readF32 c ≠ .nan)
    (h : mulV (readF32 a) (readF32 b) = none) : fFma rnd noise a b c = invalid32 := by
  simp only [fFma, isNan32_eq_false ha, isNan32_eq_false hb, isNan32_eq_false hc, h, Bool.or_self, Bool.false_eq_true, if_false]

theorem fAdd_nan (h : readF32 a = .nan ∨ readF32 b = .nan) : fAdd rnd noise a b = (nan32, FpFlags.none) := by
  rcases h with h | h
  · rw [fAdd, h]
    rfl
  · rw [fAdd, h, addV_nan_right]

theorem fMul_nan (h : readF32 a = .nan ∨ readF32 b = .nan) : fMul rnd noise a b = (nan32, FpFlags.none) := by
  rcases h with h | h
  · exact fMul_of_mulV (v := .nan) (by rw [h]; rfl)
  · exact fMul_of_mulV (v := .nan) (by rw [h, mulV_nan_right])

theorem fFma_nan (h : readF32 a = .nan ∨ readF32 b = .nan ∨ readF32 c = .nan) : fFma rnd noise a b c = (nan32, FpFlags.none) := by
  simp only [← isNan32_iff] at h
  refine if_pos ?_
  simpa only [Bool.or_eq_true, or_assoc] using h

theorem ne_nan_of_inf {n : Bool} (h : readF32 a = .inf n) : readF32 a ≠ .nan := by
  rw [h]
  exact nofun

theorem ne_nan_of_num {n : Bool} {m : Nat} {e : Int} (h : readF32 a = .num n m e) : readF32 a ≠ .nan := by
  rw [h]
  exact nofun

/-- The result that is an infinity of sign `n`. -/
def infinite32 (n : Bool) : W32 × FpFlags := (inf32 n, FpFlags.none)

theorem addV_inf_inf (n k : Bool) : addV rnd noise (.inf n) (.inf k) = if k = n then infinite32 k else invalid32 := by
  cases n <;> cases k <;> rfl

/-- The fused form where the product is an infinity. -/
theorem fFma_inf {n : Bool} (ha : readF32 a ≠ .nan) (hb : readF32 b ≠ .nan) (h : mulV (readF32 a) (readF32 b) = some (.inf n)) :
    (∀ k, readF32 c = .inf k → fFma rnd noise a b c = if k = n then infinite32 k else invalid32) ∧
      ∀ k m e, readF32 c = .num k m e → fFma rnd noise a b c = infinite32 n := by
  refine ⟨fun k hc => ?_, fun k m e hc => ?_⟩
  · rw [fFma_of_mulV ha hb (ne_nan_of_inf hc) h, hc, addV_inf_inf]
  · rw [fFma_of_mulV ha hb (ne_nan_of_num hc) h, hc]
    rfl

/-- Two infinities. -/
theorem arith_inf_inf {n n' : Bool} (ha : readF32 a = .inf n) (hb : readF32 b = .inf n') :
    fAdd rnd noise a b = (if n = n' then infinite32 n else invalid32) ∧ fMul rnd noise a b = infinite32 (n != n') ∧
      (∀ k, readF32 c = .inf k → fFma rnd noise a b c = if k = (n != n') then infinite32 k else invalid32) ∧
      ∀ k m e, readF32 c = .num k m e → fFma rnd noise a b c = infinite32 (n != n') := by
  have hmul : mulV (readF32 a) (readF32 b) = some (.inf (n != n')) := by
    rw [ha, hb]
    rfl
  refine ⟨?_, fMul_of_mulV hmul, fFma_inf (ne_nan_of_inf ha) (ne_nan_of_inf hb) hmul⟩
  rw [fAdd, ha, hb]
  cases n <;> cases n' <;> rfl

/-- An infinity and a finite value, in either order. -/
theorem arith_inf_num {n n' : Bool} {m : Nat} {e : Int}
    (h : readF32 a = .inf n ∧ readF32 b = .num n' m e ∨ readF32 b = .inf n ∧ readF32 a = .num n' m e) :
    fAdd rnd noise a b = infinite32 n ∧ fMul rnd noise a b = (if m = 0 then invalid32 else infinite32 (n != n')) ∧
      (m = 0 → readF32 c ≠ .nan → fFma rnd noise a b c = invalid32) ∧
      (∀ k, m ≠ 0 → readF32 c = .inf k → fFma rnd noise a b c = if k = (n != n') then infinite32 k else invalid32) ∧
      ∀ k l j, m ≠ 0 → readF32 c = .num k l j → fFma rnd noise a b c = infinite32 (n != n') := by
  have hadd : fAdd rnd noise a b = infinite32 n := by
    rcases h with ⟨ha, hb⟩ | ⟨hb, ha⟩ <;> rw [fAdd, ha, hb] <;> rfl
  have hmul : mulV (readF32 a) (readF32 b) = if m = 0 then none else some (.inf (n != n')) := by
    rcases h with ⟨ha, hb⟩ | ⟨hb, ha⟩ <;> rw [ha, hb] <;> rfl
  obtain ⟨hna, hnb⟩ : readF32 a ≠ .nan ∧ readF32 b ≠ .nan := by
    rcases h with ⟨ha, hb⟩ | ⟨hb, ha⟩
    · exact ⟨ne_nan_of_inf ha, ne_nan_of_num hb⟩
    · exact ⟨ne_nan_of_num ha, ne_nan_of_inf hb⟩
  by_cases hm : m = 0
  · rw [if_pos hm] at hmul ⊢
    exact ⟨hadd, fMul_invalid hmul, fun _ hc => fFma_invalid hna hnb hc hmul, fun _ h0 => absurd hm h0, fun _ _ _ h0 => absurd hm h0⟩
  · rw [if_neg hm] at hmul ⊢
    obtain ⟨hinf, hnum⟩ := fFma_inf (rnd := rnd) (noise := noise) (c := c) hna hnb hmul
    exact ⟨hadd, fMul_of_mulV hmul, fun h0 => absurd h0 hm, fun k _ => hinf k, fun k l j _ => hnum k l j⟩

/-- Two finite values. -/
theorem arith_num_num {n n' : Bool} {m m' : Nat} {e e' : Int} (ha : readF32 a = .num n m e) (hb : readF32 b = .num n' m' e') :
    exactSum rnd noise n n' m m' e e' (fAdd rnd noise a b) ∧
      fMul rnd noise a b = round32 rnd noise (n != n') (m * m') (e + e') ∧
      (∀ k, readF32 c = .inf k → fFma rnd noise a b c = infinite32 k) ∧
      ∀ k l j, readF32 c = .num k l j → exactSum rnd noise (n != n') k (m * m') l (e + e') j (fFma rnd noise a b c) := by
  have hmul : mulV (readF32 a) (readF32 b) = some (.num (n != n') (m * m') (e + e')) := by
    rw [ha, hb]
    rfl
  have hfma (hc : readF32 c ≠ .nan) := fFma_of_mulV (rnd := rnd) (noise := noise) (ne_nan_of_num ha) (ne_nan_of_num hb) hc hmul
  refine ⟨?_, fMul_of_mulV hmul, fun k hc => ?_, fun k l j hc => ?_⟩
  · rw [fAdd, ha, hb]
    exact addV_exactSum
  · rw [hfma (ne_nan_of_inf hc), hc]
    rfl
  · rw [hfma (ne_nan_of_num hc), hc]
    exact addV_exactSum

-- ## Order (R56, R72)

theorem sign_eq_decide (x : W32) : x.getLsbD 31 = decide (2 ^ 31 ≤ x.toNat) :=
  (BitVec.msb_eq_getLsbD_last x).symm.trans (BitVec.msb_eq_decide x)

/-- The magnitude field, without the sign. -/
theorem magnitude_toNat (x : W32) : (fld x 0 31).toNat = if 2 ^ 31 ≤ x.toNat then x.toNat - 2 ^ 31 else x.toNat := by
  have hx := x.isLt
  rw [toNat_fld]
  split <;> omega

theorem orderKey_eq (x : W32) : orderKey x = if 2 ^ 31 ≤ x.toNat then 2 ^ 31 - (x.toNat : Int) - 1 else (x.toNat : Int) := by
  simp only [orderKey, sign_eq_decide, magnitude_toNat, decide_eq_true_iff]
  split <;> omega

/-- The order of R72 is that of the model's keys. -/
theorem below32_iff (a b : W32) : below32 a b ↔ orderKey a < orderKey b := by
  have ha := a.isLt
  have hb := b.isLt
  simp only [below32, sign_eq_decide, decide_eq_true_iff, decide_eq_false_iff_not, orderKey_eq]
  split <;> split <;> omega

/-- The key of the compares: 0 for both zeros. -/
def compareKey (x : W32) : Int :=
  if fld x 0 31 == 0 then 0 else if bit x 31 then -((fld x 0 31).toNat : Int) else (fld x 0 31).toNat

theorem compareKey_eq (x : W32) : compareKey x = if 2 ^ 31 ≤ x.toNat then 2 ^ 31 - (x.toNat : Int) else (x.toNat : Int) := by
  have hzero : (fld x 0 31 == 0) = true ↔ (fld x 0 31).toNat = 0 := by
    rw [beq_iff_eq, ← BitVec.toNat_inj]
    rfl
  simp only [compareKey, hzero, sign_eq_decide, magnitude_toNat, decide_eq_true_iff]
  split <;> split <;> omega

/-- Two lanes are the same number: the same bits, or both a zero. -/
def sameNumber (a b : W32) : Prop := a = b ∨ a.toNat % 2 ^ 31 = 0 ∧ b.toNat % 2 ^ 31 = 0

theorem sameNumber_iff (a b : W32) : sameNumber a b ↔ compareKey a = compareKey b := by
  have ha := a.isLt
  have hb := b.isLt
  rw [sameNumber, ← BitVec.toNat_inj, compareKey_eq, compareKey_eq]
  split <;> split <;> omega

theorem sameNumber_comm (a b : W32) : sameNumber a b ↔ sameNumber b a := by
  rw [sameNumber_iff, sameNumber_iff, eq_comm]

/-- A number is less than another by R72's order, the zeros aside. -/
theorem compareKey_lt_iff (a b : W32) : compareKey a < compareKey b ↔ ¬sameNumber a b ∧ below32 a b := by
  have ha := a.isLt
  have hb := b.isLt
  rw [sameNumber_iff, below32_iff, compareKey_eq, compareKey_eq, orderKey_eq, orderKey_eq]
  split <;> split <;> omega

theorem compareKey_le_iff (a b : W32) : compareKey a ≤ compareKey b ↔ sameNumber a b ∨ below32 a b := by
  rw [le_iff_eq_or_lt, compareKey_lt_iff, ← sameNumber_iff]
  tauto

/-- A NaN operand of minimumNumber and maximumNumber gives way to a number. -/
theorem fMinMax_nan_nan {mx : Bool} (ha : readF32 a = .nan) (hb : readF32 b = .nan) : fMinMax mx a b = nan32 := by
  simp only [fMinMax, (isNan32_iff a).2 ha, (isNan32_iff b).2 hb, if_true]

theorem fMinMax_nan_left {mx : Bool} (ha : readF32 a = .nan) (hb : readF32 b ≠ .nan) : fMinMax mx a b = b := by
  simp only [fMinMax, (isNan32_iff a).2 ha, isNan32_eq_false hb, if_true, Bool.false_eq_true, if_false]

theorem fMinMax_nan_right {mx : Bool} (hb : readF32 b = .nan) (ha : readF32 a ≠ .nan) : fMinMax mx a b = a := by
  simp only [fMinMax, isNan32_eq_false ha, (isNan32_iff b).2 hb, if_true, Bool.false_eq_true, if_false]

/-- minimumNumber and maximumNumber of two numbers. -/
theorem fMinMax_of_numbers {mx : Bool} (ha : readF32 a ≠ .nan) (hb : readF32 b ≠ .nan) : fMinMax mx a b =
    if (if mx then decide (orderKey a < orderKey b) else decide (orderKey b < orderKey a)) then b else a := by
  simp only [fMinMax, isNan32_eq_false ha, isNan32_eq_false hb, Bool.false_eq_true, if_false]

theorem fMinMax_of_below {mx : Bool} (ha : readF32 a ≠ .nan) (hb : readF32 b ≠ .nan) (h : below32 a b) :
    fMinMax mx a b = if mx then b else a := by
  rw [below32_iff] at h
  rw [fMinMax_of_numbers ha hb]
  cases mx <;> simp [h, h.le]

theorem fMinMax_of_above {mx : Bool} (ha : readF32 a ≠ .nan) (hb : readF32 b ≠ .nan) (h : below32 b a) :
    fMinMax mx a b = if mx then a else b := by
  rw [below32_iff] at h
  rw [fMinMax_of_numbers ha hb]
  cases mx <;> simp [h, h.le]

theorem fMinMax_self {mx : Bool} (ha : readF32 a ≠ .nan) : fMinMax mx a a = a := by
  rw [fMinMax_of_numbers ha ha, ite_self]

theorem unordered_iff (a b : W32) : (isNan32 a || isNan32 b) = true ↔ readF32 a = .nan ∨ readF32 b = .nan := by
  rw [Bool.or_eq_true, isNan32_iff, isNan32_iff]

theorem ordered_iff (a b : W32) : (!(isNan32 a || isNan32 b)) = true ↔ ¬(readF32 a = .nan ∨ readF32 b = .nan) := by
  rw [Bool.not_eq_true', Bool.eq_false_iff, Ne, unordered_iff]

theorem fCond_eq_iff (a b : W32) : fCond .eq a b = true ↔ ¬(readF32 a = .nan ∨ readF32 b = .nan) ∧ sameNumber a b := by
  change (!(isNan32 a || isNan32 b) && compareKey a == compareKey b) = true ↔ _
  rw [Bool.and_eq_true, ordered_iff, beq_iff_eq, sameNumber_iff]

theorem fCond_ne_iff (a b : W32) : fCond .ne a b = true ↔ (readF32 a = .nan ∨ readF32 b = .nan) ∨ ¬sameNumber a b := by
  change ((isNan32 a || isNan32 b) || compareKey a != compareKey b) = true ↔ _
  rw [Bool.or_eq_true, unordered_iff, bne_iff_ne, sameNumber_iff]

theorem fCond_lt_iff (a b : W32) :
    fCond .lt a b = true ↔ ¬(readF32 a = .nan ∨ readF32 b = .nan) ∧ ¬sameNumber a b ∧ below32 a b := by
  change (!(isNan32 a || isNan32 b) && decide (compareKey a < compareKey b)) = true ↔ _
  rw [Bool.and_eq_true, ordered_iff, decide_eq_true_iff, compareKey_lt_iff]

theorem fCond_gt_iff (a b : W32) :
    fCond .gt a b = true ↔ ¬(readF32 a = .nan ∨ readF32 b = .nan) ∧ ¬sameNumber a b ∧ below32 b a := by
  change (!(isNan32 a || isNan32 b) && decide (compareKey b < compareKey a)) = true ↔ _
  rw [Bool.and_eq_true, ordered_iff, decide_eq_true_iff, compareKey_lt_iff, sameNumber_comm]

theorem fCond_le_iff (a b : W32) :
    fCond .le a b = true ↔ ¬(readF32 a = .nan ∨ readF32 b = .nan) ∧ (sameNumber a b ∨ below32 a b) := by
  change (!(isNan32 a || isNan32 b) && decide (compareKey a ≤ compareKey b)) = true ↔ _
  rw [Bool.and_eq_true, ordered_iff, decide_eq_true_iff, compareKey_le_iff]

theorem fCond_ge_iff (a b : W32) :
    fCond .ge a b = true ↔ ¬(readF32 a = .nan ∨ readF32 b = .nan) ∧ (sameNumber a b ∨ below32 b a) := by
  change (!(isNan32 a || isNan32 b) && decide (compareKey b ≤ compareKey a)) = true ↔ _
  rw [Bool.and_eq_true, ordered_iff, decide_eq_true_iff, compareKey_le_iff, sameNumber_comm]

end Sys2Proof.Machine
end

section
namespace Sys2Proof.Machine

open Sys2Proof

-- ## Integers (R67, R75)

/-- The entries of the table of integer types. -/
structure IntEntry (ty : Ty) (w : Nat) (sg : Bool) : Prop where
  type : intTy ty = some (w, sg)
  notFloat : fltTy ty = none
  width : 0 < w ∧ w ≤ 32

theorem intEntry_of_mem {ty : Ty} {w : Nat} {sg : Bool} (h : (ty, w, sg) ∈ integerFormats) : IntEntry ty w sg := by
  simp only [integerFormats, List.mem_cons, Prod.mk.injEq, List.not_mem_nil, or_false] at h
  rcases h with ⟨rfl, rfl, rfl⟩ | ⟨rfl, rfl, rfl⟩ | ⟨rfl, rfl, rfl⟩ | ⟨rfl, rfl, rfl⟩ | ⟨rfl, rfl, rfl⟩ | ⟨rfl, rfl, rfl⟩ <;>
    exact ⟨rfl, rfl, by decide, by decide⟩

theorem pow_pred_double {w : Nat} (h : 0 < w) : 2 ^ w = 2 * 2 ^ (w - 1) := by
  rw [← Nat.pow_succ', Nat.succ_eq_add_one, Nat.sub_add_cancel h]

/-- The ends of the range of an integer type, as R75 writes them. -/
theorem intRange_eq {w : Nat} {sg : Bool} {lo hi : Int} (hlo : lo = if sg then -(2 ^ (w - 1)) else 0)
    (hhi : hi = if sg then 2 ^ (w - 1) - 1 else 2 ^ w - 1) : intRange w sg = (lo, hi) := by
  subst hlo hhi
  cases sg <;> simp [intRange]

theorem readInt_unsigned (w : Nat) (x : W32) : readInt w false x = (x.toNat % 2 ^ w : Nat) := rfl

theorem readInt_signed (w : Nat) (x : W32) :
    readInt w true x = if 2 ^ (w - 1) ≤ x.toNat % 2 ^ w then (x.toNat % 2 ^ w : Nat) - (2 ^ w : Int) else (x.toNat % 2 ^ w : Nat) := by
  simp [readInt]

/-- A lane's integer: the lane less a multiple of 2^w. -/
theorem readInt_congr (w : Nat) (sg : Bool) (x : W32) : ∃ k : Int, (x.toNat : Int) = readInt w sg x + k * 2 ^ w := by
  have hdiv : (x.toNat : Int) = (x.toNat % 2 ^ w : Nat) + (x.toNat / 2 ^ w : Nat) * 2 ^ w := by
    exact_mod_cast (Nat.mod_add_div' x.toNat (2 ^ w)).symm
  cases sg with
  | true =>
    rw [readInt_signed]
    split
    · exact ⟨(x.toNat / 2 ^ w : Nat) + 1, by linarith⟩
    · exact ⟨_, hdiv⟩
  | false => exact ⟨_, hdiv⟩

/-- A lane's integer lies in the range of its type. -/
theorem readInt_range {w : Nat} (hw : 0 < w) (sg : Bool) (x : W32) :
    if sg then -(2 ^ (w - 1)) ≤ readInt w sg x ∧ readInt w sg x < 2 ^ (w - 1) else 0 ≤ readInt w sg x ∧ readInt w sg x < 2 ^ w := by
  have hlt : x.toNat % 2 ^ w < 2 ^ w := Nat.mod_lt _ (Nat.two_pow_pos w)
  cases sg with
  | true =>
    have hdouble : (2 : Int) ^ w = 2 * 2 ^ (w - 1) := by exact_mod_cast pow_pred_double hw
    have hcast : ((2 ^ (w - 1) : Nat) : Int) = 2 ^ (w - 1) := by push_cast; rfl
    have hltInt : ((x.toNat % 2 ^ w : Nat) : Int) < 2 ^ w := by exact_mod_cast hlt
    simp only [if_true, readInt_signed]
    split <;> constructor <;> omega
  | false => exact ⟨Int.natCast_nonneg _, by rw [readInt_unsigned]; exact_mod_cast hlt⟩

/-- The value of an integer operand. -/
theorem readTy_int {ty : Ty} {w : Nat} {sg : Bool} (h : IntEntry ty w sg) (x : W32) :
    readTy ty x = .num (decide (readInt w sg x < 0)) (readInt w sg x).natAbs 0 := by
  simp only [readTy, h.notFloat, h.type]

/-- Out of an integer's range the low bits stay, as an integer of its type. -/
theorem wrapInt_spec {w : Nat} (hw : 0 < w ∧ w ≤ 32) (sg : Bool) (v : Int) {lo hi : Int}
    (hlo : lo = if sg then -(2 ^ (w - 1)) else 0) (hhi : hi = if sg then 2 ^ (w - 1) - 1 else 2 ^ w - 1) :
    ∃ u k : Int, wrapInt w sg v = BitVec.ofInt 32 u ∧ lo ≤ u ∧ u ≤ hi ∧ v = u + k * 2 ^ w := by
  obtain ⟨k, hk⟩ := readInt_congr w sg (BitVec.ofInt 32 v)
  have hrange := readInt_range hw.1 sg (BitVec.ofInt 32 v)
  have hlow : v = ((BitVec.ofInt 32 v).toNat : Int) + v / 2 ^ 32 * 2 ^ 32 := by
    rw [BitVec.toNat_ofInt]
    omega
  have hpow : (2 : Int) ^ 32 = 2 ^ (32 - w) * 2 ^ w := by rw [← pow_add, Nat.sub_add_cancel hw.2]
  refine ⟨_, k + v / 2 ^ 32 * 2 ^ (32 - w), rfl, ?_, ?_, ?_⟩
  · subst hlo
    cases sg <;> exact hrange.1
  · subst hhi
    cases sg <;> exact Int.le_sub_one_of_lt hrange.2
  · calc v = readInt w sg (BitVec.ofInt 32 v) + k * 2 ^ w + v / 2 ^ 32 * (2 ^ (32 - w) * 2 ^ w) := by rw [← hk, ← hpow, ← hlow]
      _ = _ := by ring

variable {rnd : Rnd} {sat : Bool} {noise : Nat} {src dst : Ty} {x : W32}

-- ## Conversions to an integer (R75)

section toInt

variable {w : Nat} {sg : Bool} {lo hi : Int}

theorem cvt_int_int {w' : Nat} {sg' : Bool} (hd : intTy dst = some (w, sg)) (hr : intRange w sg = (lo, hi))
    (hs : intTy src = some (w', sg')) : cvt src dst rnd sat noise x =
      if lo ≤ readInt w' sg' x ∧ readInt w' sg' x ≤ hi then (BitVec.ofInt 32 (readInt w' sg' x), FpFlags.none)
      else if sat then (BitVec.ofInt 32 (if readInt w' sg' x < lo then lo else hi), { ov := true })
      else (wrapInt w sg (readInt w' sg' x), { ov := true }) := by
  simp only [cvt, hd, hs, hr]

theorem cvt_nan_int (hd : intTy dst = some (w, sg)) (hr : intRange w sg = (lo, hi)) (hs : intTy src = none)
    (hv : readTy src x = .nan) : cvt src dst rnd sat noise x =
      (BitVec.ofInt 32 (if sat then 0 else if sg then lo else hi), { nv := true }) := by
  simp only [cvt, hd, hs, hr, hv]
  cases sat <;> rfl

theorem cvt_inf_int {n : Bool} (hd : intTy dst = some (w, sg)) (hr : intRange w sg = (lo, hi)) (hs : intTy src = none)
    (hv : readTy src x = .inf n) : cvt src dst rnd sat noise x =
      (BitVec.ofInt 32 (if sat then (if n then lo else hi) else if sg then lo else hi), { ov := true }) := by
  simp only [cvt, hd, hs, hr, hv]

theorem cvt_num_int {n : Bool} {m k : Nat} {e v : Int} {nx : Bool} (hd : intTy dst = some (w, sg)) (hr : intRange w sg = (lo, hi))
    (hs : intTy src = none) (hv : readTy src x = .num n m e) (hk : (k, nx) = roundAt rnd n noise oddNat m e 0)
    (hv' : v = if n then -(k : Int) else k) : cvt src dst rnd sat noise x =
      if lo ≤ v ∧ v ≤ hi then (BitVec.ofInt 32 v, { nx := nx })
      else (BitVec.ofInt 32 (if sat then (if v < lo then lo else hi) else if sg then lo else hi), { ov := true }) := by
  simp only [cvt, hd, hs, hv, roundInt, ← hk, ← hv', toInt, hr]
  cases sat <;> rfl

end toInt

-- ## Conversions to a format (R75)

section toFloat

variable {f : FFmt}

theorem cvt_nan_float (hi : intTy dst = none) (hf : fltTy dst = some f) (hv : readTy src x = .nan) :
    cvt src dst rnd sat noise x = (BitVec.ofNat 32 f.nan, FpFlags.none) := by
  simp only [cvt, hi, hf, hv]

theorem cvt_inf_float {n : Bool} (hi : intTy dst = none) (hf : fltTy dst = some f) (hv : readTy src x = .inf n) :
    cvt src dst rnd sat noise x = if sat = false ∧ f.hasInf = false then (BitVec.ofNat 32 f.nan, { nv := true })
      else (BitVec.ofNat 32 (f.signed n (if sat then f.maxFin else f.maxFin + 1)), FpFlags.none) := by
  simp only [cvt, hi, hf, hv]
  cases sat <;> cases f.hasInf <;> rfl

theorem cvt_num_float {n : Bool} {m : Nat} {e : Int} (hi : intTy dst = none) (hf : fltTy dst = some f)
    (hv : readTy src x = .num n m e) : cvt src dst rnd sat noise x =
      (BitVec.ofNat 32 (roundFloat f rnd sat noise n m e).1, (roundFloat f rnd sat noise n m e).2) := by
  simp only [cvt, hi, hf, hv]

end toFloat

-- ## Conversions to E8M0 (R65, R75)

theorem cvt_nan_e8 (hv : readTy src x = .nan) : cvt src .e8m0 rnd sat noise x = (0xFF, FpFlags.none) := by
  simp only [cvt, intTy, fltTy, hv]

theorem cvt_inf_e8 {n : Bool} (hv : readTy src x = .inf n) : cvt src .e8m0 rnd sat noise x =
    if sat then (if n then 0 else 0xFE, FpFlags.none) else (0xFF, { nv := true }) := by
  simp only [cvt, intTy, fltTy, hv]

theorem cvt_num_e8 {n : Bool} {m : Nat} {e : Int} (hv : readTy src x = .num n m e) : cvt src .e8m0 rnd sat noise x =
    (BitVec.ofNat 32 (roundE8 rnd sat noise n m e).1, (roundE8 rnd sat noise n m e).2) := by
  simp only [cvt, intTy, fltTy, hv]

/-- A value that is not positive goes to the least scale or to the NaN. -/
theorem cvt_notPos_e8 {n : Bool} {m : Nat} {e : Int} (hv : readTy src x = .num n m e) (h : n = true ∨ m = 0) :
    cvt src .e8m0 rnd sat noise x = if sat then (0, FpFlags.none) else (0xFF, { nv := true }) := by
  have hz : (n || decide (m = 0)) = true := by simpa using h
  rw [cvt_num_e8 hv]
  simp only [roundE8, hz, if_true]
  cases sat <;> rfl

section positive

variable {m n : Nat} {e ex X : Int} {nx : Bool}

/-- The number that a positive value rounds to in its own binade is 1 or 2. -/
theorem roundAt_binade {odd : Nat → Bool} (hm : 0 < m) (hex : ex = m.log2 + e) (hn : (n, nx) = roundAt rnd false noise odd m e ex) :
    1 ≤ n ∧ n ≤ 2 := by
  have hle := roundAt_le rnd false noise odd (m := m) (b := 1) (e := e) (q := ex) (by omega)
  have hge := le_roundAt rnd false noise odd (m := m) (b := 0) (e := e) (q := ex) (by omega) (by omega)
  rw [← hn] at hle hge
  exact ⟨hge, hle⟩

theorem roundE8_below (hm : 0 < m) (hex : ex = m.log2 + e) (h : ex < -127) :
    roundE8 rnd sat noise false m e = (0, { nx := true, uf := true }) := by
  simp only [roundE8, Nat.ne_of_gt hm, decide_false, Bool.or_self, Bool.false_eq_true, if_false, expOf, ← hex, h, if_true]

theorem roundE8_of_le (hm : 0 < m) (hex : ex = m.log2 + e) (h : -127 ≤ ex)
    (hn : (n, nx) = roundAt rnd false noise (fun _ => (ex + 127) % 2 == 1) m e ex) :
    roundE8 rnd sat noise false m e = if (ex + 127).toNat + (n - 1) > 254 then
        (if sat || rnd == .rtz || rnd == .rdn then 254 else 0xFF, { nx := true, ov := true, nv := !(sat || rnd == .rtz || rnd == .rdn) })
      else ((ex + 127).toNat + (n - 1), { nx := nx }) := by
  simp only [roundE8, Nat.ne_of_gt hm, decide_false, Bool.or_self, Bool.false_eq_true, if_false, expOf, ← hex, if_neg (Int.not_lt.2 h),
    ← hn]

theorem cvt_e8_finite (hv : readTy src x = .num false m e) (hm : 0 < m) (hex : ex = m.log2 + e)
    (hn : (n, nx) = roundAt rnd false noise (fun _ => (ex + 127) % 2 == 1) m e ex) (hX : X = ex + 127 + (n - 1))
    (h : -127 ≤ ex) (hle : X ≤ 254) : cvt src .e8m0 rnd sat noise x = (BitVec.ofInt 32 X, { nx := nx }) := by
  obtain ⟨h1, -⟩ := roundAt_binade hm hex hn
  have hx : ((ex + 127).toNat + (n - 1) : Nat) = X := by omega
  rw [cvt_num_e8 hv, roundE8_of_le hm hex h hn, if_neg (by omega), ← hx, BitVec.ofInt_natCast]

theorem cvt_e8_overflow (hv : readTy src x = .num false m e) (hm : 0 < m) (hex : ex = m.log2 + e)
    (hn : (n, nx) = roundAt rnd false noise (fun _ => (ex + 127) % 2 == 1) m e ex) (hX : X = ex + 127 + (n - 1)) (hbig : 254 < X) :
    cvt src .e8m0 rnd sat noise x = if sat = true ∨ rnd = .rtz ∨ rnd = .rdn then (254, { nx := true, ov := true })
      else (0xFF, { nx := true, ov := true, nv := true }) := by
  obtain ⟨h1, h2⟩ := roundAt_binade hm hex hn
  rw [cvt_num_e8 hv, roundE8_of_le hm hex (by omega) hn, if_pos (by omega)]
  cases sat <;> cases rnd <;> rfl

end positive

end Sys2Proof.Machine
end

section
open Sys2Proof Sys2Proof.Machine

/-- Settles O6: the words by `floatResult_of_exec`, the roundings by the unit's place and the binade, the arithmetic by the operands'
kinds, the compares by their keys, and R75's table by the kinds of its types. -/
theorem floatWordsAndRounding : Obligations.FloatWordsAndRounding := by
  unfold Obligations.FloatWordsAndRounding
  refine ⟨?_, ?_, ?_, ?_, ?_⟩
  · intro s rnd d p a c b src dst sat mx cond draw hdraw
    exact ⟨floatResult_of_exec (rnd == .rsr) (fun n => floatResult64 (fAdd rnd n (s.f32 a) (s.f32op b))) hdraw rfl,
      floatResult_of_exec (rnd == .rsr) (fun n => floatResult64 (fMul rnd n (s.f32 a) (s.f32op b))) hdraw rfl,
      floatResult_of_exec (rnd == .rsr) (fun n => floatResult64 (fFma rnd n (s.f32 a) (s.f32op b) (s.f32 c))) hdraw rfl,
      floatResult_of_exec (rnd == .rsr && cvtDraws src dst)
        (fun n => (place64 dst (cvt src dst rnd sat n (s.f32 a)).1, (cvt src dst rnd sat n (s.f32 a)).2)) hdraw rfl,
      floatResult_of_exec_exact rfl, ⟨_, rfl, putPred_adds ..⟩⟩
  · intro neg odd noise m e q hnoise r
    refine ⟨fun hq rnd => roundAt_exact rnd neg noise odd m hq, ?_⟩
    rintro sh rfl hsh
    have hr (rnd : Rnd) := roundAt_inexact rnd neg noise odd m e hsh
    simp only [r, hr]
    refine ⟨fun _ => bne_iff_ne, fun hz rnd => ?_, rfl, ?_, ?_, ?_, ?_⟩
    · rw [roundsUp_zero hnoise rnd neg odd hz]
      rfl
    · simp [roundsUp]
    · simp [roundsUp, and_comm]
    · simp [roundsUp, and_comm]
    · simp [roundsUp]
  · intro ty f mb w bias M G top nan infs hmem
    obtain ⟨htype, -, rfl, rfl, rfl, rfl, rfl, rfl, hreg⟩ := formatEntry_of_mem hmem
    refine ⟨fun neg E F => read_fields hreg neg, fun x => by simp only [readTy, htype], fun _ => rfl, ?_⟩
    intro rnd sat neg noise m e _ r sign
    refine ⟨?_, ?_, fun ex q n nx hm hex hq hn => ⟨fun hfin => ?_, fun hbig => ?_⟩⟩
    · rintro rfl rfl
      rfl
    · rintro rfl
      exact roundFloat_zero ..
    · exact roundFloat_finite hreg rnd sat noise neg (Nat.ne_of_gt hm) hex hq hn hfin
    · have hr := roundFloat_overflow hreg rnd sat noise neg (Nat.ne_of_gt hm) hex hq hn hbig
      refine ⟨fun hmax => ?_, fun hmax hi => ?_, fun hmax hi => ?_⟩
      · rw [overflowBits_max hmax] at hr
        exact hr
      · rw [overflowBits_beyond hmax, hi] at hr
        exact hr
      · rw [overflowBits_beyond hmax, hi] at hr
        exact hr
  · intro rnd noise a b c _ one bad inf
    exact ⟨fun h => ⟨fAdd_nan h, fMul_nan h⟩, fFma_nan, fun _ _ => arith_inf_inf, fun _ _ _ _ => arith_inf_num,
      fun _ _ _ _ _ _ => arith_num_num,
      fun mx => ⟨fMinMax_nan_nan, fMinMax_nan_left, fMinMax_nan_right, fun ha hb =>
        ⟨fMinMax_of_below ha hb, fMinMax_of_above ha hb, fun h => h ▸ fMinMax_self ha⟩⟩,
      unordered_iff a b, ordered_iff a b, fCond_eq_iff a b, fCond_ne_iff a b, fCond_lt_iff a b, fCond_gt_iff a b, fCond_le_iff a b,
      fCond_ge_iff a b, by simp [fCond]⟩
  · intro rnd sat noise src x _
    refine ⟨rfl, fun w sg hmem => ?_, ?_, ⟨cvt_nan_e8, cvt_inf_e8, ?_, ?_⟩, ?_⟩
    · have hint := intEntry_of_mem hmem
      exact ⟨_, rfl, readInt_congr w sg x, readInt_range hint.width.1 sg x, readTy_int hint x⟩
    · intro ty f mb w bias M G top nan infs hmem
      obtain ⟨htype, hint, rfl, rfl, rfl, rfl, rfl, rfl, -⟩ := formatEntry_of_mem hmem
      exact ⟨cvt_nan_float hint htype, fun n => cvt_inf_float hint htype, fun n m e => cvt_num_float hint htype⟩
    · rintro (hv | ⟨m, e, hv⟩ | ⟨n, e, hv⟩)
      · exact cvt_inf_e8 hv
      · exact cvt_notPos_e8 hv (.inl rfl)
      · exact cvt_notPos_e8 hv (.inr rfl)
    · intro m e ex n nx X hv hm hex hn hX
      refine ⟨fun h => ?_, cvt_e8_finite hv hm hex hn hX, cvt_e8_overflow hv hm hex hn hX⟩
      rw [cvt_num_e8 hv, roundE8_below hm hex h]
      rfl
    · intro dst w sg hmem lo hi hlo hhi none_
      have hd := (intEntry_of_mem hmem).type
      have hr := intRange_eq hlo hhi
      refine ⟨fun hs => ⟨cvt_nan_int hd hr hs, fun n => cvt_inf_int hd hr hs, fun n m k e v nx => cvt_num_int hd hr hs⟩, ?_⟩
      rintro w' sg' v hsrc rfl
      have hcvt := cvt_int_int (rnd := rnd) (sat := sat) (noise := noise) (x := x) hd hr (intEntry_of_mem hsrc).type
      refine ⟨fun h1 h2 => by rw [hcvt, if_pos ⟨h1, h2⟩], fun hout hsat => ?_, fun hout hsat => ?_⟩
      · rw [hcvt, if_neg hout, if_pos hsat]
      · obtain ⟨u, k, hu, hlo', hhi', hk⟩ := wrapInt_spec (intEntry_of_mem hmem).width sg (readInt w' sg' x) hlo hhi
        exact ⟨u, k, by rw [hcvt, if_neg hout, hsat, hu]; rfl, hlo', hhi', hk⟩
end

section
namespace Sys2Proof.Machine

open Sys2Proof

-- ## What a response does at its die (R91, R94, R100, R103)

theorem fqOf_setFq (x : Station) (q k : BitVec 3) (l : List FqSlot) : (x.setFq q l).fqOf k = if k = q then l else x.fqOf k := by
  simp only [Station.fqOf, Station.setFq, kget_kput, BitVec.toNat_inj]

theorem fqOf_acked (x : Station) (n : Nat) (c : Byte) (q : BitVec 3) : (x.acked n c).fqOf q = x.fqOf q := rfl

/-- A slot of a far queue takes its row (R100). -/
def FqSlot.filled (n : Nat) (row : Row) (k : FqSlot) : FqSlot := if k.seq = n then { k with data := some row } else k

theorem fqOf_fqLand (x : Station) (q k : BitVec 3) (n : Nat) (row : Row) :
    (x.fqLand q n row).fqOf k = if k = q then (x.fqOf q).map (FqSlot.filled n row) else x.fqOf k := fqOf_setFq ..

section Response
variable (s : State) (d : DieId) (r : FarReq) (data : Row) (err : Byte)

/-- A response changes its die and its far side alone. -/
theorem respond_frame : ∃ x f, s.respond d r data err = (s.setFs d f).setDie d x ∧ x.eoc = (s.die d).eoc := by
  unfold State.respond
  split
  · exact ⟨s.die d, s.fs d, by simp [State.setFs, State.fs], rfl⟩
  · exact ⟨s.die d, _, (setDie_die _ d).symm, rfl⟩
  · exact ⟨_, _, rfl, rfl⟩
  · exact ⟨_, _, rfl, rfl⟩

theorem respond_sameMemory : SameMemory s (s.respond d r data err) := by
  obtain ⟨x, f, h, -⟩ := respond_frame s d r data err
  rw [h]
  exact ⟨fun _ => rfl, fun _ => rfl⟩

theorem respond_eoc : ((s.respond d r data err).die d).eoc = (s.die d).eoc := by
  obtain ⟨x, f, h, hx⟩ := respond_frame s d r data err
  rw [h, die_setDie, hx]

variable {r}

/-- The request is over. -/
theorem respond_flight (hw : r.src ≠ .walk) : ((s.respond d r data err).fs d).flight = (s.fs d).flight.filter (·.seq != r.seq) := by
  cases hs : r.src with
  | walk => exact absurd hs hw
  | haul k g wr => simp only [State.respond, hs, fs_setFs]
  | path => simp only [State.respond, hs, fs_setDie, fs_setFs]
  | fq q => simp only [State.respond, hs, fs_setDie, fs_setFs]

/-- A request of a far queue fills its slot. -/
theorem respond_fqOf {q : BitVec 3} (hs : r.src = .fq q) : (((s.respond d r data err).die d).sta r.pos).fqOf q =
    (((s.die d).sta r.pos).fqOf q).map (FqSlot.filled r.seq data) := by
  simp only [State.respond, hs, die_setDie, sta_setSta]
  split <;> simp only [fqOf_acked, fqOf_fqLand, if_true]

/-- Every other far queue of the station stays as it is. -/
theorem respond_fqOf_other {q : BitVec 3} (hs : r.src ≠ .fq q) : (((s.respond d r data err).die d).sta r.pos).fqOf q =
    ((s.die d).sta r.pos).fqOf q := by
  cases h : r.src with
  | walk => simp only [State.respond, h]
  | haul k g wr => simp only [State.respond, h, die_setFs]
  | path => simp only [State.respond, h, die_setDie, sta_setSta, fqOf_acked]
  | fq p =>
    have hq : q ≠ p := fun e => hs (e ▸ h)
    simp only [State.respond, h, die_setDie, sta_setSta]
    split <;> simp only [fqOf_acked, fqOf_fqLand, if_neg hq]

end Response

section OneInFlight
variable {s : State} {d : DieId} {r : FarReq} (hf : (s.fs d).flight = [r])
include hf

theorem respond_flight_single (hw : r.src ≠ .walk) (data : Row) (err : Byte) : ((s.respond d r data err).fs d).flight = [] := by
  rw [respond_flight s d data err hw, hf]
  simp

theorem exec_responseArrival_none (h : r.landed s.sidc = none) : exec (.responseArrival d) s = .next s := by
  simp only [exec, execResponseArrival, hf, List.foldl_cons, List.foldl_nil, h]

theorem exec_responseArrival_some {row : Row} (h : r.landed s.sidc = some row) :
    exec (.responseArrival d) s = .next (s.respond d r row 0) := by
  simp only [exec, execResponseArrival, hf, List.foldl_cons, List.foldl_nil, h]

theorem exec_errorResponse_none (h : r.failed s.sidc = none) : exec (.errorResponse d) s = .next s := by
  simp [exec, execErrorResponse, hf, h]

end OneInFlight

/-- Of distinct keys one alone has a value. -/
theorem flatMap_single {α β : Type} [DecidableEq α] (a : α) (b : β) : ∀ {l : List α}, l.Nodup → a ∈ l →
    (l.flatMap fun x => if a = x then [b] else []) = [b]
  | x :: t, hn, hm => by
    obtain ⟨hx, ht⟩ := List.nodup_cons.1 hn
    by_cases h : a = x
    · have hrest : (t.flatMap fun y => if a = y then [b] else []) = [] :=
        List.flatMap_eq_nil_iff.2 fun y hy => if_neg fun e : a = y => hx (h ▸ e.symm ▸ hy)
      rw [List.flatMap_cons, hrest, if_pos h, List.append_nil]
    · rw [List.flatMap_cons, if_neg h, List.nil_append]
      exact flatMap_single a b ht ((List.mem_cons.1 hm).resolve_left h)

/-- A request alone is the whole of the log's order. -/
theorem logOrder_single (r : FarReq) : logOrder [r] = [r] := by
  have hs (p : Pos) : (Strm.all.flatMap fun st => [r].filter fun x => x.pos == p && x.strm == st) = if r.pos = p then [r] else [] := by
    by_cases hp : r.pos = p
    · cases hst : r.strm <;> simp [Strm.all, hp, hst]
    · simp [Strm.all, hp]
  unfold logOrder
  simp only [hs]
  exact flatMap_single r.pos r (List.nodup_finRange 128) (List.mem_finRange _)

/-- The violation log takes an entry at the end of the cycle (R94). -/
def State.logged (s : State) (d : DieId) (r : FarReq) (c : Byte) : State :=
  s.setDie d ((s.die d).violate r.pos r.strm r.parcel (r.va + 4 * r.lo) c)

theorem exec_errorResponse_some {s : State} {d : DieId} {r : FarReq} (hf : (s.fs d).flight = [r]) {c : Byte}
    (h : r.failed s.sidc = some c) : exec (.errorResponse d) s = .next ((s.respond d r fillRow c).logged d r c) := by
  simp [exec, execErrorResponse, hf, h, logOrder_single, State.logged]

/-- An error response fills with ones what a read asked for, and leaves an entry for the log. -/
theorem logged_respond (s : State) (d : DieId) {r : FarReq} (hf : (s.fs d).flight = [r]) (hw : r.src ≠ .walk) (c : Byte) :
    SameMemory s ((s.respond d r fillRow c).logged d r c) ∧ (((s.respond d r fillRow c).logged d r c).fs d).flight = [] ∧
    (((s.respond d r fillRow c).logged d r c).die d).eoc = (s.die d).eoc ++ [.violog r.pos r.strm r.parcel (r.va + 4 * r.lo) c] ∧
    ∀ q, r.src = .fq q → ((((s.respond d r fillRow c).logged d r c).die d).sta r.pos).fqOf q =
      (((s.die d).sta r.pos).fqOf q).map (FqSlot.filled r.seq fillRow) := by
  refine ⟨respond_sameMemory s d r fillRow c, respond_flight_single hf hw fillRow c, ?_, fun q hq => ?_⟩
  · rw [State.logged, die_setDie, Die.violate, respond_eoc]
  · rw [State.logged, die_setDie]
    exact respond_fqOf s d fillRow c hq

end Sys2Proof.Machine
end

section
open Sys2Proof Sys2Proof.Machine

/-- Settles O34: what of the one request has landed or failed, and what `respond` and the log make of it. -/
theorem farResponses : Obligations.FarResponses := by
  unfold Obligations.FarResponses
  intro s d r hf hw
  refine ⟨fun hp => ?_, fun h l row hp hl => ?_, fun c hc hp => ?_⟩
  · have hland : r.landed s.sidc = none ∧ r.failed s.sidc = none := by
      obtain ⟨h, dla, ⟨a, hp⟩ | ⟨l, b, c, hp⟩ | ⟨row, c, l, hp, hl⟩⟩ := hp
      · simp [FarReq.landed, FarReq.failed, hp]
      · simp [FarReq.landed, FarReq.failed, hp]
      · cases l with
        | none => simp [FarReq.landed, FarReq.failed, hp]
        | some n => simp [FarReq.landed, FarReq.failed, hp, Nat.not_le.2 (hl n rfl)]
    exact ⟨exec_responseArrival_none hf hland.1, exec_errorResponse_none hf hland.2⟩
  · have hland : r.landed s.sidc = some row := by simp [FarReq.landed, hp, hl, hw]
    have hfail : r.failed s.sidc = none := by simp [FarReq.failed, hp]
    exact ⟨exec_errorResponse_none hf hfail, _, exec_responseArrival_some hf hland, respond_sameMemory s d r row 0,
      respond_flight_single hf hw row 0, respond_eoc s d r row 0, fun q => respond_fqOf s d row 0,
      fun q => respond_fqOf_other s d row 0⟩
  · have hfail : r.landed s.sidc = none ∧ r.failed s.sidc = some c := by
      obtain ⟨l, hl, hp | ⟨h, row, hp⟩⟩ := hp
      · simp [FarReq.landed, FarReq.failed, hp, hl]
      · simp [FarReq.landed, FarReq.failed, hp, hl, hw, show ¬c = 0#8 from hc]
    exact ⟨exec_responseArrival_none hf hfail.1, _, exec_errorResponse_some hf hfail.2, logged_respond s d hf hw c⟩
end

section
namespace Sys2Proof.Machine

open Sys2Proof

-- ## The links as packets join them (R99, R210)

theorem link_setLink (s : State) (k j : Nat) (l : Link) : (s.setLink k l).link j = if j = k then l else s.link j := kget_kput ..

theorem way_setWay (s : State) (a b : DieId) (w : Way) : (s.setWay a b w).way a b = w := by
  unfold State.way State.setWay
  rw [link_setLink, if_pos rfl]
  split <;> rfl

theorem way_setWay_other (s : State) {a b c e : DieId} (w : Way) (h : linkOf c e ≠ linkOf a b) : (s.setWay a b w).way c e = s.way c e := by
  unfold State.way State.setWay
  rw [link_setLink, if_neg h]

/-- The links of one die to the others are distinct. -/
theorem linkOf_inj : ∀ {d a b : DieId}, a ≠ d → b ≠ d → a ≠ b → linkOf d a ≠ linkOf d b := by decide

@[simp] theorem post_fs (s : State) (a b d : DieId) (p : Pkt) : (s.post a b p).fs d = s.fs d := rfl

theorem post_pkts (s : State) (a b : DieId) (p : Pkt) : ((s.post a b p).way a b).pkts = (s.way a b).pkts ++ [p] :=
  congrArg Way.pkts (way_setWay ..)

theorem post_way_other (s : State) {a b c e : DieId} (p : Pkt) (h : linkOf c e ≠ linkOf a b) : (s.post a b p).way c e = s.way c e :=
  way_setWay_other s _ h

@[simp] theorem bump_fs (s : State) (d : DieId) : s.bump.fs d = s.fs d := rfl
@[simp] theorem bump_die (s : State) (d : DieId) : s.bump.die d = s.die d := rfl

-- ## What each operation leaves of the far sides and the stations

theorem fs_setFs_eq (s : State) (d e : DieId) (f : FarSide) : (s.setFs d f).fs e = if e = d then f else s.fs e := by
  split
  · next h => rw [h, fs_setFs]
  · next h => exact fs_setFs_ne s d e f (Ne.symm h)

theorem sta_setSta_eq (x : Die) (p q : Pos) (y : Station) : (x.setSta p y).sta q = if q = p then y else x.sta q := by
  split
  · next h => rw [h, sta_setSta]
  · next h => exact sta_setSta_ne x p q y (Ne.symm h)

-- ## Setting out (R91, R210)

/-- A request on its way to home `h`, whose arrival is known at once at its own die. -/
def FarReq.sentTo (r : FarReq) (d h : DieId) (dla t : Nat) : FarReq :=
  { r with phase := .sent h dla (if h = d then some t else none) }

section SetOut
variable (s : State) (d h : DieId) (dla : Nat) (r : FarReq)

/-- Setting out changes the far side of its die and a link alone. -/
theorem setOut_frame : (s.setOut d h dla r).dies = s.dies ∧ (s.setOut d h dla r).mem = s.mem ∧
    (s.setOut d h dla r).hostMem = s.hostMem ∧ (s.setOut d h dla r).sidc = s.sidc := by
  unfold State.setOut
  dsimp only
  split <;> exact ⟨rfl, rfl, rfl, rfl⟩

theorem setOut_fs (e : DieId) : (s.setOut d h dla r).fs e =
    if e = d then { s.fs d with flight := (s.fs d).flight ++ [r.sentTo d h dla s.sidc] } else s.fs e := by
  rw [← fs_setFs_eq]
  by_cases hd : h = d <;> simp only [State.setOut, FarReq.sentTo, hd, if_true, if_false, post_fs]

theorem setOut_die (e : DieId) : (s.setOut d h dla r).die e = s.die e := congrArg (·.get e) (setOut_frame s d h dla r).1

/-- Toward another die it joins the link's queue for requests, a haul's write that for haul data. -/
theorem setOut_pkts (hd : h ≠ d) : ((s.setOut d h dla r).way d h).pkts = (s.way d h).pkts ++
    [{ of := .req d r.seq, cls := if r.ofHaul && r.isWrite then 2 else 0, beats := (r.sentSize + 127) / 128, from_ := s.sidc,
       floor := 0 }] := by
  have hsize : 32 ≤ r.sentSize := by
    unfold FarReq.sentSize
    split <;> omega
  have hbeats : beatsOf (r.sentSize - 32) = (r.sentSize + 127) / 128 := by
    unfold beatsOf
    omega
  unfold State.setOut
  dsimp only
  rw [if_neg hd, post_pkts, hbeats]
  rfl

end SetOut

-- ## Finding a home by a leaf (R84, R87, R96)

/-- Where a request stands once a leaf entry has translated it: its home is known, or its error. -/
def FarReq.afterLeaf (r : FarReq) (regions : KMap Region) (level : Nat) (e : W64) (from_ base : Nat) : FarPhase :=
  match leafTo regions r.op level e r.va with
  | .ok (h, dla) => .home h dla from_
  | .error c => .bad c base

/-- A leaf entry gives a request a home that is its own die `d`, or is not. -/
def FarReq.homeOwn (r : FarReq) (regions : KMap Region) (level : Nat) (e : W64) (d : DieId) (own : Bool) : Bool :=
  match leafTo regions r.op level e r.va with
  | .ok (h, _) => (h == d) == own
  | .error _ => false

theorem slotHome_frame (x : Station) (r : FarReq) (h : DieId) (dla : Nat) : x.slotHome r h dla = { x with fq := (x.slotHome r h dla).fq } := by
  unfold Station.slotHome
  split <;> rfl

/-- The station of a request whose home is found: its counter of its own or other homes, and its slot (R96). -/
def Station.homeCounted (x : Station) (d h : DieId) (dla : Nat) (r : FarReq) : Station :=
  (if h = d then { x with locreq := x.locreq + 1 } else { x with remreq := x.remreq + 1 }).slotHome r h dla

theorem homeCounted_frame (x : Station) (d h : DieId) (dla : Nat) (r : FarReq) : x.homeCounted d h dla r =
    { x with locreq := x.locreq + (if h = d then 1 else 0), remreq := x.remreq + (if h = d then 0 else 1),
             fq := (x.homeCounted d h dla r).fq } := by
  unfold Station.homeCounted
  rw [slotHome_frame]
  split <;> simp

section ByLeaf
variable (s : State) (d : DieId) (r : FarReq) (level : Nat) (e : W64) (from_ base : Nat)

theorem byLeaf_ok {h : DieId} {dla : Nat} (hl : leafTo (s.fs d).regions r.op level e r.va = .ok (h, dla)) :
    s.byLeaf d r level e from_ base = (s.setDie d ((s.die d).setSta r.pos (((s.die d).sta r.pos).homeCounted d h dla r))).setFs d
      ((s.fs d).setPhase r.seq (.home h dla from_)) := by
  simp only [State.byLeaf, hl, State.homeFound, Station.homeCounted]

theorem byLeaf_error {c : Byte} (hl : leafTo (s.fs d).regions r.op level e r.va = .error c) :
    s.byLeaf d r level e from_ base = s.setFs d ((s.fs d).setPhase r.seq (.bad c base)) := by
  simp only [State.byLeaf, hl]

/-- Translation keeps memory and the module, moves the request on, and counts a home that is found at the request's station. -/
theorem byLeaf_frame : (s.byLeaf d r level e from_ base).mem = s.mem ∧ (s.byLeaf d r level e from_ base).hostMem = s.hostMem ∧
    (s.byLeaf d r level e from_ base).sidc = s.sidc := by
  unfold State.byLeaf State.homeFound
  split <;> exact ⟨rfl, rfl, rfl⟩

theorem byLeaf_fs : (s.byLeaf d r level e from_ base).fs d =
    (s.fs d).setPhase r.seq (r.afterLeaf (s.fs d).regions level e from_ base) := by
  unfold FarReq.afterLeaf
  cases hl : leafTo (s.fs d).regions r.op level e r.va with
  | ok p => rw [byLeaf_ok s d r level e from_ base hl, fs_setFs]
  | error c => rw [byLeaf_error s d r level e from_ base hl, fs_setFs]

theorem byLeaf_sta (p : Pos) : ∃ q, ((s.byLeaf d r level e from_ base).die d).sta p =
    { (s.die d).sta p with
      locreq := ((s.die d).sta p).locreq + (if r.pos = p ∧ r.homeOwn (s.fs d).regions level e d true = true then 1 else 0),
      remreq := ((s.die d).sta p).remreq + (if r.pos = p ∧ r.homeOwn (s.fs d).regions level e d false = true then 1 else 0),
      fq := q } := by
  unfold FarReq.homeOwn
  cases hl : leafTo (s.fs d).regions r.op level e r.va with
  | error c =>
    rw [byLeaf_error s d r level e from_ base hl]
    exact ⟨((s.die d).sta p).fq, by simp⟩
  | ok a =>
    rw [byLeaf_ok s d r level e from_ base hl, die_setFs, die_setDie, sta_setSta_eq]
    by_cases hp : p = r.pos
    · subst hp
      rw [if_pos rfl, homeCounted_frame]
      by_cases hd : a.1 = d
      · exact ⟨(((s.die d).sta r.pos).homeCounted d a.1 a.2 r).fq, by simp [hd]⟩
      · exact ⟨(((s.die d).sta r.pos).homeCounted d a.1 a.2 r).fq, by simp [hd]⟩
    · exact ⟨((s.die d).sta p).fq, by simp [hp, Ne.symm hp]⟩

theorem byLeaf_bad : ((s.byLeaf d r level e from_ base).die d).bad = (s.die d).bad := by
  cases hl : leafTo (s.fs d).regions r.op level e r.va with
  | error c => rw [byLeaf_error s d r level e from_ base hl, die_setFs]
  | ok a => rw [byLeaf_ok s d r level e from_ base hl, die_setFs, die_setDie, setSta_bad]

end ByLeaf

end Sys2Proof.Machine
end

section
namespace Sys2Proof.Machine

open Sys2Proof

-- ## Requests that wait on a walk (R87, R88)

/-- A request waits on the walk of its page. -/
def Walk.holds (w : Walk) (r : FarReq) : Bool := r.va / 2 ^ 16 == w.va / 2 ^ 16 && r.phase == .walk

/-- A walk that ends moves the requests that wait on it, and no other. -/
theorem endWalk_reqs (f : FarSide) (w : Walk) (p : FarPhase) :
    (f.endWalk w p).reqs = f.reqs.map fun r => if w.holds r then { r with phase := p } else r := by
  refine List.map_congr_left fun r _ => ?_
  unfold Walk.holds
  by_cases hp : r.phase = .walk <;> simp [hp]

theorem endWalk_walks {f : FarSide} {w : Walk} (h : f.walks = [w]) (p : FarPhase) : (f.endWalk w p).walks = [] := by
  simp [FarSide.endWalk, FarSide.onPage, h]

-- ## The translation of every request that waits on a walk (R84, R87)

section ByLeaves
variable (d : DieId) (level : Nat) (e : W64) (from_ base : Nat)

/-- The requests `l` take their homes from a leaf, one after the other. -/
def State.byLeaves (s : State) (l : List FarReq) : State := l.foldl (fun t r => t.byLeaf d r level e from_ base) s

/-- What the leaf makes of a request that stands in the die's list, in turn for each of `l`. -/
def FarReq.leafPhases (regions : KMap Region) (l : List FarReq) (x : FarReq) : FarReq :=
  l.foldl (fun y r => if y.seq = r.seq then { y with phase := r.afterLeaf regions level e from_ base } else y) x

theorem byLeaves_cons (s : State) (r : FarReq) (l : List FarReq) : s.byLeaves d level e from_ base (r :: l) =
    (s.byLeaf d r level e from_ base).byLeaves d level e from_ base l := rfl

theorem byLeaves_mem : ∀ (l : List FarReq) (s : State), (s.byLeaves d level e from_ base l).mem = s.mem
  | [], _ => rfl
  | r :: l, s => (byLeaves_mem l _).trans (byLeaf_frame s d r level e from_ base).1

theorem byLeaves_fs : ∀ (l : List FarReq) (s : State), (s.byLeaves d level e from_ base l).fs d =
    { s.fs d with reqs := (s.fs d).reqs.map (FarReq.leafPhases level e from_ base (s.fs d).regions l) }
  | [], s => by rw [show FarReq.leafPhases level e from_ base (s.fs d).regions [] = id from rfl, List.map_id]; rfl
  | r :: l, s => by
    rw [byLeaves_cons, byLeaves_fs l, byLeaf_fs]
    simp only [FarSide.setPhase, List.map_map]
    rfl

/-- How many of `l` have found a home that is the die itself, or is not, from station `p`. -/
def homesOf (regions : KMap Region) (own : Bool) (p : Pos) (l : List FarReq) : W64 :=
  BitVec.ofNat 64 (l.filter fun r => r.pos == p && r.homeOwn regions level e d own).length

theorem homesOf_cons (regions : KMap Region) (own : Bool) (p : Pos) (r : FarReq) (l : List FarReq) :
    homesOf d level e regions own p (r :: l) =
      (if r.pos = p ∧ r.homeOwn regions level e d own = true then 1 else 0) + homesOf d level e regions own p l := by
  unfold homesOf
  rw [List.filter_cons]
  simp only [Bool.and_eq_true, beq_iff_eq]
  split
  · rw [List.length_cons, Nat.add_comm, BitVec.ofNat_add]
    rfl
  · simp

/-- Each home that is found is counted once at the station of its request (R96). -/
theorem byLeaves_counts (p : Pos) : ∀ (l : List FarReq) (s : State),
    (((s.byLeaves d level e from_ base l).die d).sta p).locreq =
      ((s.die d).sta p).locreq + homesOf d level e (s.fs d).regions true p l ∧
    (((s.byLeaves d level e from_ base l).die d).sta p).remreq =
      ((s.die d).sta p).remreq + homesOf d level e (s.fs d).regions false p l
  | [], s => by simp [State.byLeaves, homesOf]
  | r :: l, s => by
    obtain ⟨q, hq⟩ := byLeaf_sta s d r level e from_ base p
    have hr : ((s.byLeaf d r level e from_ base).fs d).regions = (s.fs d).regions := by rw [byLeaf_fs]; rfl
    have ih := byLeaves_counts p l (s.byLeaf d r level e from_ base)
    rw [hq, hr] at ih
    simp only [byLeaves_cons, homesOf_cons, ← BitVec.add_assoc]
    exact ih

variable {level e from_ base} {regions : KMap Region}

/-- A request whose number none of `l` has stays as it is. -/
theorem leafPhases_other {x : FarReq} : ∀ {l : List FarReq}, (∀ r ∈ l, r.seq ≠ x.seq) →
    x.leafPhases level e from_ base regions l = x
  | [], _ => rfl
  | r :: l, h => by
    have hr : ¬x.seq = r.seq := fun k => h r (List.mem_cons_self ..) k.symm
    unfold FarReq.leafPhases
    rw [List.foldl_cons, if_neg hr]
    exact leafPhases_other fun k hk => h k (List.mem_cons_of_mem _ hk)

/-- One of `l` stands where its own leaf puts it. -/
theorem leafPhases_mem {x : FarReq} : ∀ {l : List FarReq}, (l.map (·.seq)).Nodup → x ∈ l →
    x.leafPhases level e from_ base regions l = { x with phase := x.afterLeaf regions level e from_ base }
  | r :: l, hn, hx => by
    obtain ⟨hr, hl⟩ := List.nodup_cons.1 hn
    have hne : ∀ k ∈ l, k.seq ≠ r.seq := fun k hk h => hr (List.mem_map.2 ⟨k, hk, h⟩)
    unfold FarReq.leafPhases
    rw [List.foldl_cons]
    rcases List.mem_cons.1 hx with rfl | hx
    · rw [if_pos rfl]
      exact leafPhases_other (x := { x with phase := _ }) hne
    · rw [if_neg (hne x hx)]
      exact leafPhases_mem hl hx

/-- Of requests with distinct numbers the leaf moves those that it is asked for. -/
theorem map_leafPhases_filter {l : List FarReq} (hn : (l.map (·.seq)).Nodup) (p : FarReq → Bool) :
    l.map (FarReq.leafPhases level e from_ base regions (l.filter p)) =
      l.map fun r => if p r then { r with phase := r.afterLeaf regions level e from_ base } else r := by
  refine List.map_congr_left fun r hr => ?_
  by_cases hp : p r = true
  · rw [if_pos hp]
    exact leafPhases_mem (hn.sublist (List.filter_sublist.map _)) (List.mem_filter.2 ⟨hr, hp⟩)
  · rw [if_neg hp]
    refine leafPhases_other fun k hk h => hp ?_
    obtain ⟨hk, hkp⟩ := List.mem_filter.1 hk
    rw [← List.inj_on_of_nodup_map hn hk hr h]
    exact hkp

end ByLeaves

-- ## What a table entry makes of its walk (R83, R84, R87, R88)

section WalkEntry
variable (s : State) (d : DieId) (w : Walk) (e : W64)

theorem walkEntry_error {err : Byte} (h : err ≠ 0) :
    s.walkEntry d w e err = s.setFs d ((s.fs d).endWalk w (.bad err (s.sidc + 2))) := by
  simp only [State.walkEntry, bne_iff_ne.2 h, if_true]

theorem walkEntry_unusable (h0 : e.getLsbD 0 = true) (h : (if e.getLsbD 1 then badLeaf e else badTable w.level e) = true) :
    s.walkEntry d w e 0 = s.setFs d ((s.fs d).endWalk w (.bad 0xA3 (s.sidc + 2))) := by
  cases h1 : e.getLsbD 1 <;> simp only [h1, Bool.false_eq_true, if_true, if_false] at h <;>
    simp only [State.walkEntry, bit, h0, h1, h, cUnmapped, bne_self_eq_false, Bool.not_true, Bool.false_eq_true, if_true, if_false]

theorem walkEntry_absent (h0 : e.getLsbD 0 = false) : s.walkEntry d w e 0 = s.notPresent d w := by
  simp only [State.walkEntry, bit, h0, bne_self_eq_false, Bool.not_false, Bool.false_eq_true, if_true, if_false]

theorem walkEntry_leaf (h0 : e.getLsbD 0 = true) (h1 : e.getLsbD 1 = true) (h : badLeaf e = false) :
    s.walkEntry d w e 0 = s.walkLeaf d w e := by
  simp only [State.walkEntry, bit, h0, h1, h, bne_self_eq_false, Bool.not_true, Bool.false_eq_true, if_true, if_false]

/-- The walk as it goes on with the table that its entry names. -/
def Walk.deeper (w : Walk) (e : W64) (t : Nat) : Walk :=
  { w with level := w.level + 1, home := Fin.ofNat 4 ((fld e 5 3).toNat - 4),
           dla := (fld e 16 21).toNat * 2 ^ 16 + 8 * levelIdx w.va (w.level + 1), read := .send (t + 1) }

theorem walkEntry_table (hw : (s.fs d).walks = [w]) (h0 : e.getLsbD 0 = true) (h1 : e.getLsbD 1 = false) (h : badTable w.level e = false) :
    s.walkEntry d w e 0 = s.setFs d { s.fs d with walks := [w.deeper e s.sidc] } := by
  simp only [State.walkEntry, bit, h0, h1, h, bne_self_eq_false, Bool.not_true, Bool.false_eq_true, if_false, hw, List.map_cons,
    List.map_nil, if_true, Walk.deeper]

/-- A usable table entry names one of the four dies. -/
theorem deeper_home {t : Nat} (h : badTable w.level e = false) : (w.deeper e t).home.val + 4 = e.toNat / 2 ^ 5 % 8 := by
  have hp : (fld e 5 3).toNat = e.toNat / 2 ^ 5 % 8 := by simp [Nat.shiftRight_eq_div_pow]
  have h4 : ¬(fld e 5 3).toNat < 4 := by
    simp only [badTable, Bool.or_eq_false_iff, decide_eq_false_iff_not] at h
    exact h.1.1.2
  simp only [Walk.deeper, Fin.val_ofNat, hp] at h4 ⊢
  omega

theorem deeper_dla (t : Nat) : (w.deeper e t).dla = e.toNat / 2 ^ 16 % 2 ^ 21 * 2 ^ 16 + 8 * levelIdx w.va (w.level + 1) := by
  simp [Walk.deeper, Nat.shiftRight_eq_div_pow]

/-- A page that is not present is among those reported; its walk ends, and its requests wait. -/
theorem notPresent_spec : (s.notPresent d w).mem = s.mem ∧ (s.notPresent d w).dies = s.dies ∧
    ∃ l, (s.notPresent d w).fs d = { (s.fs d).endWalk w .np with reported := l } ∧ w.va / 2 ^ 16 ∈ l := by
  unfold State.notPresent
  dsimp only
  split
  · next h => exact ⟨rfl, rfl, (s.fs d).reported, fs_setFs .., by simpa using h⟩
  · refine ⟨rfl, rfl, w.va / 2 ^ 16 :: (s.fs d).reported, ?_, List.mem_cons_self ..⟩
    change (State.setFs _ d _).fs d = _
    rw [fs_setFs, fs_setFs]
    rfl

/-- The TLB with the walk's leaf, where it may enter (R87). -/
def State.leafIn (s : State) (d : DieId) (w : Walk) (e : W64) : FarSide :=
  let f := { s.fs d with walks := (s.fs d).walks.erase w }
  if leafKept f.regions w.level e w.va then
    f.tlbPut { level := w.level, vpn := w.va / 2 ^ pageShift w.level, entry := e } s.fresh
  else f

theorem leafIn_frame : s.leafIn d w e = { s.fs d with walks := (s.fs d).walks.erase w, tlb := (s.leafIn d w e).tlb } := by
  unfold State.leafIn
  dsimp only
  split <;> rfl

theorem leafIn_kept (h : leafKept (s.fs d).regions w.level e w.va = true) : (s.leafIn d w e).tlb.head? =
    some { level := w.level, vpn := w.va / 2 ^ pageShift w.level, entry := e } := by
  simp [State.leafIn, h, FarSide.tlbPut]

theorem leafIn_out (h : leafKept (s.fs d).regions w.level e w.va = false) : (s.leafIn d w e).tlb = (s.fs d).tlb := by
  simp [State.leafIn, h]

/-- A full TLB gives up an entry (R87). -/
theorem leafIn_length (h : (s.fs d).tlb.length ≤ 4096) : (s.leafIn d w e).tlb.length ≤ 4096 := by
  unfold State.leafIn FarSide.tlbPut
  dsimp only
  split
  · split
    · simp only [List.length_cons]
      omega
    · have hm := Nat.mod_lt s.fresh (show 0 < 4096 by decide)
      simp only [List.length_cons, List.length_eraseIdx]
      split <;> omega
  · exact h

theorem walkLeaf_eq : s.walkLeaf d w e =
    (s.setFs d (s.leafIn d w e)).bump.byLeaves d w.level e (s.sidc + 1) (s.sidc + 2) ((s.fs d).reqs.filter w.holds) := rfl

end WalkEntry

end Sys2Proof.Machine
end

section
namespace Sys2Proof.Machine

open Sys2Proof

-- ## One walk of a die (R87)

section OneWalk
variable {s : State} {d : DieId} {w : Walk}

theorem exec_tlbWalkRead_single (hw : (s.fs d).walks = [w]) : exec (.tlbWalkRead d) s = .next (s.walkStep d w) := by
  simp only [exec, execTlbWalkRead, hw, List.foldl_cons, List.foldl_nil]

theorem walkStep_early {t : Nat} (hr : w.read = .send t) (h : s.sidc < t) : s.walkStep d w = s := by
  simp only [State.walkStep, hr, if_pos h]

/-- The read of a table entry that is due sets out. -/
theorem walkStep_sends {t : Nat} (hw : (s.fs d).walks = [w]) (hr : w.read = .send t) (h : t ≤ s.sidc) : s.walkStep d w =
    (s.setFs d { s.fs d with seq := (s.fs d).seq + 1, walks := [{ w with read := .out (s.fs d).seq }] }).setOut d w.home
      (w.dla / 256 * 256) (w.req (s.fs d).seq s.sidc) := by
  have hg : w.dla - w.dla % 256 = w.dla / 256 * 256 := by omega
  simp only [State.walkStep, hr, if_neg (Nat.not_lt.2 h), hw, List.map_cons, List.map_nil, if_true, hg]

theorem walkStep_waits {q : Nat} (hr : w.read = .out q) (h : (s.fs d).walkGot w q s.sidc = none) : s.walkStep d w = s := by
  simp only [State.walkStep, hr, h]

/-- The state without the walk's read in flight. -/
def State.without (s : State) (d : DieId) (q : Nat) : State :=
  s.setFs d { s.fs d with flight := (s.fs d).flight.filter fun r => r.seq != q }

theorem without_fs (s : State) (d : DieId) (q : Nat) : (s.without d q).fs d =
    { s.fs d with flight := (s.fs d).flight.filter fun r => r.seq != q } := fs_setFs ..

theorem walkStep_lands {q : Nat} (hr : w.read = .out q) {e : W64} {err : Byte} (h : (s.fs d).walkGot w q s.sidc = some (e, err)) :
    s.walkStep d w = (s.without d q).walkEntry d w e err := by
  simp only [State.walkStep, hr, h]
  rfl

end OneWalk

theorem homesOf_filter (d : DieId) (level : Nat) (e : W64) (regions : KMap Region) (own : Bool) (p : Pos) (w : Walk) (l : List FarReq) :
    homesOf d level e regions own p (l.filter w.holds) =
      BitVec.ofNat 64 (l.filter fun r => w.holds r && r.pos == p && r.homeOwn regions level e d own).length := by
  unfold homesOf
  rw [List.filter_filter]
  congr 3
  funext r
  rw [Bool.and_comm, Bool.and_assoc]

theorem leafKept_iff {regions : KMap Region} {level : Nat} {e : W64} {va : Nat} :
    leafKept regions level e va = true ↔ ∃ h, leafTo regions .read level (e ||| 4) va = .ok h := by
  unfold leafKept
  cases leafTo regions .read level (e ||| 4) va <;> simp

/-- A walk's leaf: the TLB, the requests that wait, and the counts of their homes. -/
theorem walkLeaf_spec (s : State) {d : DieId} {w : Walk} (e : W64) (hw : (s.fs d).walks = [w]) (hn : ((s.fs d).reqs.map (·.seq)).Nodup) :
    (s.walkLeaf d w e).mem = s.mem ∧
    (s.walkLeaf d w e).fs d = { s.fs d with
      walks := [], tlb := (s.leafIn d w e).tlb,
      reqs := (s.fs d).reqs.map fun r =>
        if w.holds r then { r with phase := r.afterLeaf (s.fs d).regions w.level e (s.sidc + 1) (s.sidc + 2) } else r } ∧
    ∀ p, (((s.walkLeaf d w e).die d).sta p).locreq =
        ((s.die d).sta p).locreq + homesOf d w.level e (s.fs d).regions true p ((s.fs d).reqs.filter w.holds) ∧
      (((s.walkLeaf d w e).die d).sta p).remreq =
        ((s.die d).sta p).remreq + homesOf d w.level e (s.fs d).regions false p ((s.fs d).reqs.filter w.holds) := by
  have hin : (s.setFs d (s.leafIn d w e)).bump.fs d = { s.fs d with walks := [], tlb := (s.leafIn d w e).tlb } := by
    rw [bump_fs, fs_setFs, leafIn_frame, hw, List.erase_cons_head]
  rw [walkLeaf_eq]
  refine ⟨byLeaves_mem .., ?_, fun p => ?_⟩
  · rw [byLeaves_fs, hin]
    dsimp only
    rw [map_leafPhases_filter hn]
  · have hc := byLeaves_counts d w.level e (s.sidc + 1) (s.sidc + 2) p ((s.fs d).reqs.filter w.holds)
      (s.setFs d (s.leafIn d w e)).bump
    rw [hin] at hc
    exact hc

/-- Whatever the entry, memory and the requests in flight stay as they are. -/
theorem walkEntry_frame {s : State} {d : DieId} {w : Walk} (e : W64) (err : Byte) (hw : (s.fs d).walks = [w])
    (hn : ((s.fs d).reqs.map (·.seq)).Nodup) :
    (s.walkEntry d w e err).mem = s.mem ∧ ((s.walkEntry d w e err).fs d).flight = (s.fs d).flight := by
  by_cases herr : err = 0
  · subst herr
    cases h0 : e.getLsbD 0 with
    | false =>
      obtain ⟨hm, -, l, hl, -⟩ := notPresent_spec s d w
      rw [walkEntry_absent s d w e h0, hl]
      exact ⟨hm, rfl⟩
    | true =>
      cases h1 : e.getLsbD 1 with
      | true =>
        cases hb : badLeaf e with
        | true =>
          rw [walkEntry_unusable s d w e h0 (by rw [h1, if_pos rfl, hb]), fs_setFs]
          exact ⟨rfl, rfl⟩
        | false =>
          obtain ⟨hm, hf, -⟩ := walkLeaf_spec s e hw hn
          rw [walkEntry_leaf s d w e h0 h1 hb, hf]
          exact ⟨hm, rfl⟩
      | false =>
        cases hb : badTable w.level e with
        | true =>
          rw [walkEntry_unusable s d w e h0 (by rw [h1, if_neg Bool.false_ne_true, hb]), fs_setFs]
          exact ⟨rfl, rfl⟩
        | false =>
          rw [walkEntry_table s d w e hw h0 h1 hb, fs_setFs]
          exact ⟨rfl, rfl⟩
  · rw [walkEntry_error s d w e herr, fs_setFs]
    exact ⟨rfl, rfl⟩

-- ## Invalidation, replay, controller reset and rows (R89, R90, R92, R98)

theorem exec_xinval_busy {s : State} {d : DieId} (v : W64) (h : (s.fs d).xinval ≠ none) : exec (.xinval d v) s = .next s := by
  simp only [exec, execXinval, State.xinvalWrite, if_pos (Option.isSome_iff_ne_none.2 h)]

theorem exec_xinval_idle {s : State} {d : DieId} (v : W64) (h : (s.fs d).xinval = none) : exec (.xinval d v) s =
    .next (s.setFs d { s.fs d with xinval := some { value := v, at_ := s.sidc }, xpage := v &&& 0x0000FFFFFFFF0003 }) := by
  simp only [exec, execXinval, State.xinvalWrite, h, Option.isSome_none, Bool.false_eq_true, if_false]

theorem exec_xinvalDone_idle {s : State} {d : DieId} (h : (s.fs d).xinval = none) : exec (.xinvalDone d) s = .next s := by
  simp only [exec, execXinvalDone, h]

theorem exec_xinvalDone_waits {s : State} {d : DieId} {i : Inval} (h : (s.fs d).xinval = some i)
    (hb : s.sidc < i.at_ + 2 ∨ ∃ w ∈ (s.fs d).walks, w.began ≤ i.at_) : exec (.xinvalDone d) s = .next s := by
  have hc : (decide (s.sidc < i.at_ + 2) || (s.fs d).walks.any fun w => decide (w.began ≤ i.at_)) = true := by
    simpa using hb
  simp only [exec, execXinvalDone, h, if_pos hc]

theorem exec_xinvalDone_ends {s : State} {d : DieId} {i : Inval} (h : (s.fs d).xinval = some i) (ht : i.at_ + 2 ≤ s.sidc)
    (hw : ∀ w ∈ (s.fs d).walks, i.at_ < w.began) : exec (.xinvalDone d) s =
      .next (s.setFs d { s.fs d with xinval := none, tlb := (s.fs d).tlb.filter fun t => !invalHits i.value t }) := by
  have hc : ¬(decide (s.sidc < i.at_ + 2) || (s.fs d).walks.any fun w => decide (w.began ≤ i.at_)) = true := by
    simpa using ⟨ht, hw⟩
  simp only [exec, execXinvalDone, h, if_neg hc]

/-- PAGE of XREPLAY. -/
def replayPage (v : W64) : Nat := v.toNat / 2 ^ 16 % 2 ^ 32

theorem exec_xreplay (s : State) (d : DieId) (v : W64) : exec (.xreplay d v) s = .next (s.setFs d { s.fs d with
    reqs := (s.fs d).reqs.map fun r => if r.va / 2 ^ 16 = replayPage v ∧ r.phase = .np then { r with phase := .pend s.sidc } else r,
    reported := (s.fs d).reported.filter (· != replayPage v), xreplay := v &&& 0x0000FFFFFFFF0000 }) := by
  have hpage : (fld v 16 32).toNat = replayPage v := by simp [replayPage, Nat.shiftRight_eq_div_pow]
  have hva : replayPage v * 2 ^ 16 / 2 ^ 16 = replayPage v := Nat.mul_div_cancel _ (by decide)
  simp only [exec, execXreplay, State.xreplayWrite, FarSide.onPage, hpage, hva, ite_and]

/-- Of the eight channels at most one begins its refresh in a cycle. -/
theorem refresh_unique {t j k : Nat} (hj : t % 2340 = 292 * j) (hk : t % 2340 = 292 * k) : j = k := by omega

/-- The rows of one channel are closed. -/
def FarSide.closeChan (k : Nat) (f : FarSide) : FarSide := { f with rows := f.rows.filter fun e => e.1 / 16 != k }

/-- The refresh of channel `k` begins: its rows close on every die, and it lasts 180 cycles (R98). -/
def State.refreshed (s : State) (k : Nat) : State :=
  { s with far := s.far.map (FarSide.closeChan k),
           hub := { s.hub with gddrRefresh := kput 0 k (s.sidc + 180) s.hub.gddrRefresh } }

theorem fs_refreshed (s : State) (k : Nat) (d : DieId) : (s.refreshed k).fs d = (s.fs d).closeChan k := by
  fin_cases d <;> rfl

theorem exec_gddr7Refresh_none {s : State} (h : ∀ k < 8, s.sidc % 2340 ≠ 292 * k) : exec .gddr7Refresh s = .next s := by
  have hf : ((List.range 8).find? fun k => s.sidc % 2340 == 292 * k) = none := by simpa using h
  simp only [exec, execGddr7Refresh, hf]

theorem exec_gddr7Refresh_some {s : State} {k : Nat} (hk : k < 8) (h : s.sidc % 2340 = 292 * k) :
    exec .gddr7Refresh s = .next (s.refreshed k) := by
  cases hf : (List.range 8).find? fun k => s.sidc % 2340 == 292 * k with
  | none => exact absurd h (by simpa using List.find?_eq_none.1 hf k (List.mem_range.2 hk))
  | some j =>
    have hj : s.sidc % 2340 = 292 * j := by simpa using List.find?_some hf
    rw [refresh_unique h hj]
    simp only [exec, execGddr7Refresh, hf]
    rfl

/-- GDDR7_REFRESH closes the rows of the channel whose refresh begins, on every die. -/
theorem gddr7Refresh_rows (s : State) : ∃ t, exec .gddr7Refresh s = .next t ∧ t.dies = s.dies ∧ SameMemory s t ∧
    ∀ (h : DieId) (e : Nat × OpenRow), e ∈ (t.fs h).rows ↔
      e ∈ (s.fs h).rows ∧ ∀ k < 8, s.sidc % 2340 = 292 * k → e.1 / 16 ≠ k := by
  by_cases hr : ∃ k < 8, s.sidc % 2340 = 292 * k
  · obtain ⟨k, hk, ht⟩ := hr
    refine ⟨_, exec_gddr7Refresh_some hk ht, rfl, ⟨fun _ => rfl, fun _ => rfl⟩, fun h e => ?_⟩
    simp only [fs_refreshed, FarSide.closeChan, List.mem_filter, bne_iff_ne]
    exact and_congr_right fun _ => ⟨fun he j _ hj => refresh_unique ht hj ▸ he, fun he => he k hk ht⟩
  · have hno : ∀ k < 8, s.sidc % 2340 ≠ 292 * k := fun k hk ht => hr ⟨k, hk, ht⟩
    exact ⟨_, exec_gddr7Refresh_none hno, rfl, ⟨fun _ => rfl, fun _ => rfl⟩, fun h e =>
      ⟨fun he => ⟨he, fun k hk ht => absurd ht (hno k hk)⟩, And.left⟩⟩

end Sys2Proof.Machine
end

section
open Sys2Proof Sys2Proof.Machine

/-- Settles O35: the walk by what its entry is, the other events by their equations. -/
theorem translationAndTableWalks : Obligations.TranslationAndTableWalks := by
  unfold Obligations.TranslationAndTableWalks
  refine ⟨fun s d w hw hn => ⟨_, exec_tlbWalkRead_single hw, ?_⟩, fun s d v b => ?_⟩
  · cases hr : w.read with
    | send t =>
      rcases Nat.lt_or_ge s.sidc t with ht | ht
      · rw [walkStep_early hr ht]
        exact ⟨rfl, fun _ _ _ => rfl, fun a ha hle => by cases ha; omega, fun q hq => nomatch hq⟩
      · rw [walkStep_sends hw hr ht]
        obtain ⟨hdies, hmem, -, -⟩ := setOut_frame (s.setFs d { s.fs d with
          seq := (s.fs d).seq + 1, walks := [{ w with read := .out (s.fs d).seq }] }) d w.home (w.dla / 256 * 256) (w.req (s.fs d).seq s.sidc)
        refine ⟨hmem, fun a ha hlt => ?_, fun a _ _ => ?_, fun q hq => nomatch hq⟩
        · cases ha
          omega
        · rw [setOut_fs, if_pos rfl, fs_setFs]
          exact ⟨hdies, rfl, rfl, rfl, _, rfl, rfl, rfl, rfl, rfl, rfl, rfl⟩
    | out q =>
      cases hg : (s.fs d).walkGot w q s.sidc with
      | none =>
        rw [walkStep_waits hr hg]
        refine ⟨rfl, fun _ ha => (nomatch ha), fun _ ha => (nomatch ha), ?_⟩
        rintro _ ⟨⟩
        exact ⟨fun _ => rfl, fun e err h => by rw [hg] at h; cases h⟩
      | some g =>
        obtain ⟨e, err⟩ := g
        rw [walkStep_lands hr hg]
        have hfs := without_fs s d q
        have hw' : ((s.without d q).fs d).walks = [w] := by rw [hfs]; exact hw
        have hn' : (((s.without d q).fs d).reqs.map (·.seq)).Nodup := by rw [hfs]; exact hn
        have htlb : ((s.without d q).fs d).tlb = (s.fs d).tlb := by rw [hfs]
        obtain ⟨hmem, hflight⟩ := walkEntry_frame e err hw' hn'
        refine ⟨hmem, fun _ ha => (nomatch ha), fun _ ha => (nomatch ha), ?_⟩
        rintro _ ⟨⟩
        refine ⟨fun h => (by rw [hg] at h; cases h), fun e' err' h => ?_⟩
        obtain ⟨rfl, rfl⟩ : e = e' ∧ err = err' := by rw [hg] at h; simpa using h
        refine ⟨by rw [hflight, hfs], fun he => ?_, ?_, ?_, ?_, ?_⟩
        · rw [walkEntry_error _ d w e he, fs_setFs, endWalk_walks hw', endWalk_reqs, hfs]
          exact ⟨rfl, rfl, rfl, rfl⟩
        · rintro rfl h0
          obtain ⟨-, hd, l, hl, hp⟩ := notPresent_spec (s.without d q) d w
          rw [walkEntry_absent _ d w e h0, hl]
          exact ⟨endWalk_walks hw' .np, (endWalk_reqs _ w .np).trans (by rw [hfs]; rfl), hp, htlb, hd⟩
        · rintro rfl h0 h1 hb
          obtain ⟨-, hf, hc⟩ := walkLeaf_spec (s.without d q) e hw' hn'
          rw [walkEntry_leaf _ d w e h0 h1 hb, hf]
          rw [hfs] at hc ⊢
          refine ⟨rfl, rfl, fun p => ?_, fun hk => ?_, fun hk => ?_, fun hlen => ?_⟩
          · have hc := hc p
            rw [homesOf_filter, homesOf_filter] at hc
            exact hc
          · exact leafIn_kept _ d w e (by rw [hfs]; exact leafKept_iff.2 hk)
          · refine (leafIn_out _ d w e ?_).trans htlb
            rw [hfs, ← Bool.not_eq_true, leafKept_iff]
            exact fun ⟨h, hh⟩ => hk h hh
          · exact leafIn_length _ d w e (by rw [hfs]; exact hlen)
        · rintro rfl h0 hb
          rw [walkEntry_unusable _ d w e h0 hb, fs_setFs, endWalk_walks hw', endWalk_reqs, hfs]
          exact ⟨rfl, rfl, rfl, rfl⟩
        · rintro rfl h0 h1 hb
          rw [walkEntry_table _ d w e hw' h0 h1 hb, fs_setFs, hfs]
          exact ⟨rfl, rfl, _, rfl, rfl, rfl, deeper_home w e hb, deeper_dla w e _, rfl⟩
  · refine ⟨exec_xinval_busy v, fun h => ⟨_, exec_xinval_idle v h, ?_⟩, exec_xinvalDone_idle, fun i hi => ⟨exec_xinvalDone_waits hi,
      fun ht hw => ⟨_, exec_xinvalDone_ends hi ht hw, ?_⟩⟩, ⟨_, exec_xreplay s d v, ?_⟩, ⟨_, rfl, ?_⟩, ⟨_, rfl, ?_⟩,
      gddr7Refresh_rows s⟩
    · simp [OnlyFar]
    · simp [OnlyFar]
    · exact ⟨by simp [OnlyFar], by rw [fs_setFs]; rfl, by simp [replayPage]⟩
    · simp [OnlyFar]
    · simp [OnlyFar]
end

section
namespace Sys2Proof.Machine

open Sys2Proof

-- ## Bytes of rows and words (R3)

theorem leNat_lt : ∀ l : List Byte, leNat l < 2 ^ (8 * l.length)
  | [] => Nat.one_pos
  | b :: t => by
    have ih := leNat_lt t
    have hb := b.isLt
    rw [leNat, List.length_cons, show 8 * (t.length + 1) = 8 * t.length + 8 by omega, Nat.pow_add]
    omega

theorem leNat_byte : ∀ (l : List Byte) (i : Nat), leNat l / 2 ^ (8 * i) % 2 ^ 8 = (l.getD i 0).toNat
  | [], i => by simp [leNat]
  | b :: t, 0 => by
    have hb := b.isLt
    rw [leNat, List.getD_cons_zero]
    omega
  | b :: t, i + 1 => by
    have hb := b.isLt
    rw [leNat, List.getD_cons_succ, ← leNat_byte t i, show 8 * (i + 1) = 8 + 8 * i by omega, Nat.pow_add, ← Nat.div_div_eq_div_mul]
    congr 2
    omega

theorem byteOf_toNat {w : Nat} (x : BitVec w) (i : Nat) : (byteOf x i).toNat = x.toNat / 2 ^ (8 * i) % 2 ^ 8 := by
  simp only [byteOf, BitVec.extractLsb'_toNat, Nat.shiftRight_eq_div_pow]

/-- A word made of bytes has them. -/
theorem byteOf_leNat {w : Nat} {l : List Byte} (h : 8 * l.length ≤ w) (i : Nat) : byteOf (BitVec.ofNat w (leNat l)) i = l.getD i 0 := by
  refine BitVec.eq_of_toNat_eq ?_
  have hlt : leNat l < 2 ^ w := Nat.lt_of_lt_of_le (leNat_lt l) (Nat.pow_le_pow_right (by decide) h)
  rw [byteOf_toNat, BitVec.toNat_ofNat, Nat.mod_eq_of_lt hlt, leNat_byte]

theorem getD_memRead (m : List Host.Cell) (a : Nat) {n i : Nat} (h : i < n) : (memRead m a n).getD i 0 = memGet m (a + i) := by
  simp [memRead, h]

/-- A row or word read from memory has the bytes that stand there. -/
theorem byteOf_memRead {w n : Nat} (m : List Host.Cell) (a : Nat) {i : Nat} (hn : 8 * n ≤ w) (hi : i < n) :
    byteOf (BitVec.ofNat w (leNat (memRead m a n))) i = memGet m (a + i) := by
  rw [byteOf_leNat (by simpa [memRead] using hn), getD_memRead m a hi]

/-- A value shifted up is read back from its place. -/
theorem extractLsb'_shifted {n w k : Nat} (x : BitVec n) (h : n + k ≤ w) : (BitVec.ofNat w (x.toNat * 2 ^ k)).extractLsb' k n = x := by
  refine BitVec.eq_of_toNat_eq ?_
  have hlt : x.toNat * 2 ^ k < 2 ^ w := calc
    x.toNat * 2 ^ k < 2 ^ n * 2 ^ k := Nat.mul_lt_mul_of_pos_right x.isLt (Nat.two_pow_pos k)
    _ = 2 ^ (n + k) := (Nat.pow_add ..).symm
    _ ≤ 2 ^ w := Nat.pow_le_pow_right (by decide) h
  rw [BitVec.extractLsb'_toNat, BitVec.toNat_ofNat, Nat.mod_eq_of_lt hlt, Nat.shiftRight_eq_div_pow,
    Nat.mul_div_cancel _ (Nat.two_pow_pos k), Nat.mod_eq_of_lt x.isLt]

theorem lane_of_word (x : W32) {j : Nat} (h : j < 64) : lane (BitVec.ofNat 2048 (x.toNat * 2 ^ (32 * j))) j = x :=
  extractLsb'_shifted x (by omega)

/-- Memory after `n` bytes of a word are written, from its byte `k` on. -/
theorem memGet_memWrite_bytes {w : Nat} (m : List Host.Cell) (a k n j : Nat) (v : BitVec w) :
    memGet (memWrite m a ((List.range n).map fun i => byteOf v (k + i))) j =
      if a ≤ j ∧ j < a + n then byteOf v (k + (j - a)) else memGet m j := by
  rw [memGet_memWrite, List.length_map, List.length_range]
  refine ite_congr rfl (fun h => ?_) fun _ => rfl
  have hlt : j - a < n := by omega
  simp [hlt]

-- ## A request at its home (R91, R92, R220, R255)

section Perform
variable {m : List Host.Cell} {f : FarSide} {h : DieId} {dla : Nat} {r : FarReq}

/-- A word that the request names is bad. -/
theorem badAt_iff (hlo : r.lo ≤ r.hi) (hdla : dla % 256 = 0) :
    f.badAt dla r = true ↔ ∃ k ∈ f.badWords, dla / 4 + r.lo ≤ k ∧ k ≤ dla / 4 + r.hi := by
  have hfirst : (dla + 4 * r.lo) / 4 = dla / 4 + r.lo := by omega
  have hlast : (dla + 4 * r.lo + 4 * (r.hi + 1 - r.lo) - 1) / 4 = dla / 4 + r.hi := by omega
  simp only [FarSide.badAt, FarSide.badSpan, FarReq.size, hfirst, hlast, List.any_eq_true, Bool.and_eq_true, decide_eq_true_eq]

theorem performFar_reset (hm : f.mcReset = true) : performFar m f h dla r = (m, BitVec.allOnes 2048, 0xA4) := by
  simp only [performFar, hm, if_true]
  rfl

theorem performFar_read (hm : f.mcReset = false) (ho : r.op = .read) (hb : f.badAt dla r = false) :
    performFar m f h dla r = (m, memRow m (memKey h dla), 0) := by
  simp only [performFar, hm, ho, hb, Bool.false_eq_true, if_false]

theorem performFar_write {v : Row} (hm : f.mcReset = false) (ho : r.op = .write v) : performFar m f h dla r =
    (memWrite m (memKey h dla + 4 * r.lo) ((List.range r.size).map fun i => byteOf v (4 * r.lo + i)), 0, 0) := by
  simp only [performFar, hm, ho, Bool.false_eq_true, if_false]

/-- The word of an atomic as it stands. -/
def FarReq.oldWord (m : List Host.Cell) (h : DieId) (dla : Nat) (r : FarReq) : W32 :=
  BitVec.ofNat 32 (leNat (memRead m (memKey h dla + 4 * r.lo) 4))

/-- A request is an atomic with operation `op` and operands `y` and `c`. -/
def FarOp.atomic (o : FarOp) (op : AmoOp) (y c : W32) : Prop := (∃ ret, o = .amo op ret y c) ∨ ∃ st, o = .amosc op y c st

theorem performFar_atomic {op : AmoOp} {y c : W32} (hm : f.mcReset = false) (ho : r.op.atomic op y c) (hb : f.badAt dla r = false) :
    performFar m f h dla r = (memWrite m (memKey h dla + 4 * r.lo) (leBytes (amoNew op (r.oldWord m h dla) y c) 4),
      BitVec.ofNat 2048 ((r.oldWord m h dla).toNat * 2 ^ (32 * r.lo)), 0) := by
  obtain ⟨ret, ho⟩ | ⟨st, ho⟩ := ho <;> simp only [performFar, hm, ho, hb, Bool.false_eq_true, if_false] <;> rfl

theorem performFar_bad (hm : f.mcReset = false) (ho : ∀ v, r.op ≠ .write v) (hb : f.badAt dla r = true) :
    performFar m f h dla r = (m, BitVec.allOnes 2048, 0xA5) := by
  cases hop : r.op with
  | write v => exact absurd hop (ho v)
  | read => simp only [performFar, hm, hop, hb, Bool.false_eq_true, if_false, if_true]; rfl
  | amo op ret y c => simp only [performFar, hm, hop, hb, Bool.false_eq_true, if_false, if_true]; rfl
  | amosc op y c st => simp only [performFar, hm, hop, hb, Bool.false_eq_true, if_false, if_true]; rfl

end Perform

-- ## What performing a request makes of its home, its die and the link (R98, R99, R255, R264)

/-- One request in flight changes on its die. -/
theorem fs_setFs_inFlight (s : State) (d e : DieId) (q : Nat) (g : FarReq → FarReq) : (s.setFs d ((s.fs d).inFlight q g)).fs e =
    { s.fs e with flight := if e = d then (s.fs e).flight.map fun k => if k.seq = q then g k else k else (s.fs e).flight } := by
  rw [fs_setFs_eq]
  by_cases he : e = d
  · subst he
    simp only [if_true, FarSide.inFlight]
  · simp only [he, if_false]

section Performed
variable (s : State) (d h : DieId) (r : FarReq) (dla lo by_ : Nat)

/-- How many writes of its granule the request leaves out; none where it meets an error. -/
def State.leftOut : Nat := if (performFar s.mem (s.fs h) h dla r).2.2 = 0 then s.goesBack d r (memKey h dla) else 0

/-- The cycle in which the response lands, or joins the link's queue. -/
def State.answerAt : Nat := s.pick (if d = h then max lo (s.sidc + 1) else s.sidc) by_

/-- The request once it is performed. -/
def State.answered : FarReq :=
  let p := performFar s.mem (s.fs h) h dla r
  let v := s.backRow (memKey h dla) (s.leftOut d h r dla) p.2.1
  { r with phase := .back h v p.2.2 (if d = h then some (s.answerAt d h lo by_) else none) }

/-- Its home, which has had an access of its granule and no longer has the request. -/
def State.homeAfter : FarSide :=
  let f := ((s.fs h).healed dla r).touch s.sidc dla
  { f with here := f.here.erase (d, r.seq) }

theorem healed_frame (f : FarSide) : f.healed dla r = { f with badWords := (f.healed dla r).badWords } := by
  unfold FarSide.healed
  split
  · split <;> rfl
  · rfl

theorem homeAfter_frame : s.homeAfter d h r dla = { s.fs h with
    badWords := ((s.fs h).healed dla r).badWords, touched := (s.homeAfter d h r dla).touched, touchedAt := s.sidc,
    rows := (s.homeAfter d h r dla).rows, here := (s.fs h).here.erase (d, r.seq) } := by
  unfold State.homeAfter FarSide.touch
  rw [healed_frame]

theorem perform_frame : (s.perform d h r dla lo by_).mem = (performFar s.mem (s.fs h) h dla r).1 ∧
    (s.perform d h r dla lo by_).dies = s.dies ∧ (s.perform d h r dla lo by_).hostMem = s.hostMem ∧
    (s.perform d h r dla lo by_).sidc = s.sidc ∧ (s.perform d h r dla lo by_).hub = s.hub ∧
    (s.perform d h r dla lo by_).olds = if (performFar s.mem (s.fs h) h dla r).2.2 = 0
      then s.oldsAfter d r (memKey h dla) (s.leftOut d h r dla) else s.olds := by
  unfold State.perform
  dsimp only
  split <;> exact ⟨rfl, rfl, rfl, rfl, rfl, rfl⟩

/-- The far sides after it. -/
theorem perform_fs (e : DieId) : (s.perform d h r dla lo by_).fs e =
    let f := if e = h then s.homeAfter d h r dla else s.fs e
    { f with flight := if e = d then f.flight.map fun k => if k.seq = r.seq
        then { k with phase := (s.answered d h r dla lo by_).phase } else k else f.flight } := by
  have hp : (s.perform d h r dla lo by_).fs e = (((s.setFs h (s.homeAfter d h r dla)).setFs d
      (((s.setFs h (s.homeAfter d h r dla)).fs d).inFlight r.seq fun k =>
        { k with phase := (s.answered d h r dla lo by_).phase }))).fs e :=
    (apply_ite (fun t : State => t.fs e) ..).trans (ite_self _)
  rw [hp, fs_setFs_inFlight, fs_setFs_eq]

/-- Where the home is another die's, its response joins the link's queue for responses, a haul's read that for haul data. -/
theorem perform_pkts (hd : d ≠ h) : ((s.perform d h r dla lo by_).way h d).pkts = (s.way h d).pkts ++
    [{ of := .resp d r.seq, cls := if r.ofHaul && r.isRead then 2 else 1, beats := (r.respSize + 32 + 127) / 128,
       from_ := s.answerAt d h lo by_, floor := lo + hop h d }] := by
  unfold State.perform
  dsimp only
  rw [if_neg hd, post_pkts]
  simp only [State.answerAt, if_neg hd]
  rfl

/-- The home: the request is gone from it, its granule has had the access of the cycle, and the words that it has written are good. -/
theorem perform_home : ((s.perform d h r dla lo by_).fs h).here = (s.fs h).here.erase (d, r.seq) ∧
    ((s.perform d h r dla lo by_).fs h).touchedAt = s.sidc ∧ dla / 256 ∈ ((s.perform d h r dla lo by_).fs h).touched ∧
    ((s.perform d h r dla lo by_).fs h).badWords = ((s.fs h).healed dla r).badWords ∧
    ((s.perform d h r dla lo by_).fs h).portFree = (s.fs h).portFree := by
  have hbad : (s.homeAfter d h r dla).badWords = ((s.fs h).healed dla r).badWords := by rw [homeAfter_frame]
  have hhere : (s.homeAfter d h r dla).here = (s.fs h).here.erase (d, r.seq) := by rw [homeAfter_frame]
  have hport : (s.homeAfter d h r dla).portFree = (s.fs h).portFree := by rw [homeAfter_frame]
  rw [perform_fs, if_pos rfl]
  exact ⟨hhere, rfl, List.mem_cons_self .., hbad, hport⟩

/-- The request waits for its response; no other request moves. -/
theorem perform_flight (e : DieId) : ((s.perform d h r dla lo by_).fs e).flight =
    if e = d then (s.fs e).flight.map fun k => if k.seq = r.seq then { k with phase := (s.answered d h r dla lo by_).phase } else k
    else (s.fs e).flight := by
  have hflight : (if e = h then s.homeAfter d h r dla else s.fs e).flight = (s.fs e).flight := by
    split
    · next he => rw [homeAfter_frame, he]
    · rfl
  rw [perform_fs]
  simp only [hflight]

theorem perform_flight_single (hf : (s.fs d).flight = [r]) :
    ((s.perform d h r dla lo by_).fs d).flight = [s.answered d h r dla lo by_] := by
  rw [perform_flight, if_pos rfl, hf]
  simp only [List.map_cons, List.map_nil, if_true]
  rfl

end Performed

theorem pick_le (s : State) (lo hi : Nat) : lo ≤ s.pick lo hi ∧ s.pick lo hi ≤ max lo hi := by
  rcases Nat.le_total lo hi with h | h
  · rw [Nat.max_eq_right h]
    exact pick_mem s h
  · rw [State.pick, if_pos h]
    exact ⟨Nat.le_refl lo, Nat.le_max_left ..⟩

-- ## The older values that a read may deliver (R264, R266; DEDUCED, log 77)

theorem oldRows_prefix (s : State) (d : DieId) (r : FarReq) (a : Nat) : s.oldRows d r a <+: s.olds.filter (·.at_ == a) := by
  unfold State.oldRows
  split
  · exact List.takeWhile_prefix _
  · exact List.nil_prefix

theorem oldRows_of_not_read {s : State} {d : DieId} {r : FarReq} {a : Nat} (h : r.op ≠ .read) : s.oldRows d r a = [] := by
  simp [State.oldRows, h]

theorem leftOut_le (s : State) (d h : DieId) (r : FarReq) (dla : Nat) :
    s.leftOut d h r dla ≤ (s.oldRows d r (memKey h dla)).length := by
  unfold State.leftOut
  split
  · exact Nat.le_of_lt_succ (Nat.mod_lt _ (Nat.succ_pos _))
  · exact Nat.zero_le _

theorem err_of_leftOut_pos {s : State} {d h : DieId} {r : FarReq} {dla : Nat} (hk : 0 < s.leftOut d h r dla) :
    (performFar s.mem (s.fs h) h dla r).2.2 = 0 := by
  by_contra he
  rw [State.leftOut, if_neg he] at hk
  exact Nat.lt_irrefl 0 hk

/-- What a read that leaves out `k` writes delivers is the oldest of the `k` values that it may take. -/
theorem backRow_old {s : State} {d : DieId} {r : FarReq} {a k : Nat} (v : Row) (h0 : 0 < k) (hk : k ≤ (s.oldRows d r a).length) :
    (s.oldRows d r a)[k - 1]?.map (·.row) = some (s.backRow a k v) := by
  obtain ⟨n, rfl⟩ : ∃ n, k = n + 1 := ⟨k - 1, by omega⟩
  have hget : (s.olds.filter (·.at_ == a))[n]? = some (s.oldRows d r a)[n] :=
    List.prefix_iff_getElem?.1 (oldRows_prefix s d r a) n hk
  simp [State.backRow, hget, Nat.lt_of_succ_le hk]


-- ## One request at a home (R97, R104, R224, R255)

theorem isSc_iff (r : FarReq) : r.isSc = true ↔ ∃ op y c st, r.op = .amosc op y c st := by
  unfold FarReq.isSc
  cases r.op <;> simp

theorem isTouched_iff (f : FarSide) (t g : Nat) : f.isTouched t g = true ↔ f.touchedAt = t ∧ g ∈ f.touched := by
  simp [FarSide.isTouched]

theorem hostFirst_nil {f : FarSide} (h : f.host = []) (d : DieId) (r : FarReq) : f.hostFirst d r = false := by
  simp [FarSide.hostFirst, h]

theorem hereReqs_single {s : State} {d h : DieId} {r : FarReq} (hh : (s.fs h).here = [(d, r.seq)]) (hf : (s.fs d).flight = [r]) :
    s.hereReqs h = [(d, r)] := by
  simp [State.hereReqs, hh, hf]

theorem stuck_single (s : State) (x : DieId × FarReq) : s.stuck [x] = [] := by simp [State.stuck]

section OneHere
variable {s : State} {d h : DieId} {r : FarReq} {dla lo by_ cost : Nat} (hp : r.phase = .here h dla lo by_ cost)
include hp

theorem granule_here : r.granule = dla / 256 := by simp only [FarReq.granule, hp]

theorem deadline_here : r.deadline d = if d = h then by_ - 1 else by_ := by simp only [FarReq.deadline, hp]

/-- An ordinary request alone at a home may wait until its own deadline. -/
theorem ownLatest_single (hsc : r.isSc = false) : s.ownLatest [(d, r)] (d, r) = if d = h then by_ - 1 else by_ := by
  simp [State.ownLatest, hsc, deadline_here hp]

/-- What keeps a request at its home in this cycle: it is an AMOSC, its granule has had its access, or a BAR2 access goes before it. -/
def State.keeps (s : State) (h d : DieId) (r : FarReq) : Bool :=
  r.isSc || (s.fs h).isTouched s.sidc r.granule || (s.fs h).hostFirst d r

theorem performEach_kept {n : Nat} (hk : s.keeps h d r = true) : performEach h [] [(d, r, n)] [] s = s := by
  unfold State.keeps at hk
  simp only [performEach, hp, List.any_nil, Bool.or_false, hk, if_true]

theorem performEach_free {n : Nat} (hk : s.keeps h d r = false) : performEach h [] [(d, r, n)] [] s =
    if n ≤ s.sidc ∨ (s.fs h).hostWants d r = true ∨ s.fresh % 2 = 0 then s.bump.perform d h r dla lo by_ else s.bump := by
  unfold State.keeps at hk
  simp only [performEach, hp, List.any_nil, Bool.or_false, hk, Bool.false_eq_true, if_false]

/-- It stays where it is, or is performed now, or waits within its deadline. -/
theorem performEach_single : performEach h [] [(d, r, s.ownLatest [(d, r)] (d, r))] [] s = s ∧ s.keeps h d r = true ∨
    s.keeps h d r = false ∧
    (performEach h [] [(d, r, s.ownLatest [(d, r)] (d, r))] [] s = s.bump.perform d h r dla lo by_ ∨
     performEach h [] [(d, r, s.ownLatest [(d, r)] (d, r))] [] s = s.bump ∧ s.sidc < (if d = h then by_ - 1 else by_)) := by
  cases hk : s.keeps h d r with
  | true => exact .inl ⟨performEach_kept hp hk, rfl⟩
  | false =>
    have hsc : r.isSc = false := by
      simp only [State.keeps, Bool.or_eq_false_iff] at hk
      exact hk.1.1
    rw [performEach_free hp hk, ownLatest_single hp hsc]
    refine .inr ⟨rfl, ?_⟩
    generalize (if d = h then by_ - 1 else by_) = n
    split
    · exact .inl rfl
    · next hn => exact .inr ⟨rfl, by omega⟩

end OneHere

-- ## Arrivals (R97, R98, R104)

theorem arrival_none {s : State} {h : DieId} (hq : ∀ d, ∀ r ∈ (s.fs d).flight, r.reaches h s.sidc = none) : s.arrival h = none := by
  simp only [State.arrival, List.findSome?_eq_none_iff, Option.map_eq_none_iff]
  exact fun i _ r hr => hq _ r hr

theorem arrivals_none {s : State} {h : DieId} (ha : s.arrival h = none) : ∀ n, State.arrivals h n s = s
  | 0 => rfl
  | n + 1 => by simp only [State.arrivals, ha]

/-- FAR_ACCESS_PERFORM once the requests that arrive have been taken in. -/
def State.serve (s : State) (h : DieId) : State :=
  performEach h (s.stuck (s.hereReqs h)) (s.timed (s.hereReqs h) (s.stuck (s.hereReqs h)) (s.hereReqs h)) [] s

theorem exec_farAccessPerform_quiet {s : State} {h : DieId} (ha : s.arrival h = none) :
    exec (.farAccessPerform h) s = .next (s.serve h) := by
  simp only [exec, execFarAccessPerform, arrivals_none ha, State.serve]

theorem serve_nil {s : State} {h : DieId} (hh : (s.fs h).here = []) : s.serve h = s := by
  simp [State.serve, State.hereReqs, hh, State.timed, performEach]

theorem serve_single {s : State} {d h : DieId} {r : FarReq} (hh : (s.fs h).here = [(d, r.seq)]) (hf : (s.fs d).flight = [r]) :
    s.serve h = performEach h [] [(d, r, s.ownLatest [(d, r)] (d, r))] [] s := by
  simp only [State.serve, hereReqs_single hh hf, stuck_single, State.timed, State.latest]

end Sys2Proof.Machine
end

section
namespace Sys2Proof.Machine

open Sys2Proof

-- ## A request reaches its home (R97, R98, R99, R221)

section Accept
variable (s : State) (d h : DieId) (r : FarReq) (dla : Nat)

/-- The vault port that serves it. -/
def FarReq.portAt (r : FarReq) (d h : DieId) : Pos := if d = h then r.port else r.pos

/-- Where a vault serves it: when its port lets its data land (R97). -/
def State.landing : Nat := max (s.sidc + 36) (kget 0 (r.portAt d h).val (s.fs h).portFree) + (r.size + 127) / 128

/-- Where GDDR 7 serves it: its page-state cost and its bound (R98). -/
def State.gddr : Nat × Nat := (s.fs h).gddrBound ((s.hereReqs h).filterMap (·.2.gddrAhead)) (dla + 4 * r.lo) s.sidc

/-- Its response is ready from this cycle on. -/
def State.readyFrom : Nat :=
  if d ≠ h then s.sidc + 37 else if !dlaVault (dla + 4 * r.lo) then s.sidc + 72 else if r.isAtomic then s.sidc + 1 else s.landing d h r

/-- And no later than this one. -/
def State.readyBy : Nat := (if dlaVault (dla + 4 * r.lo) then s.landing d h r else (s.gddr h r dla).2) + r.slack

/-- The request as it then waits at its home. -/
def State.accepted : FarReq :=
  { r with phase := .here h dla (s.readyFrom d h r dla) (s.readyBy d h r dla)
                      (if dlaVault (dla + 4 * r.lo) then 0 else (s.gddr h r dla).1) }

theorem accept_fs (e : DieId) : (s.accept d h r dla).fs e =
    let f := if e = h then { s.fs h with
        here := (s.fs h).here ++ [(d, r.seq)],
        portFree := if dlaVault (dla + 4 * r.lo) then kput 0 (r.portAt d h).val (s.landing d h r) (s.fs h).portFree
          else (s.fs h).portFree } else s.fs e
    { f with flight := if e = d then f.flight.map fun k => if k.seq = r.seq
        then { k with phase := (s.accepted d h r dla).phase } else k else f.flight } := by
  rw [State.accept, fs_setFs_inFlight, fs_setFs_eq]
  rfl

theorem accept_home (hh : (s.fs h).here = []) : ((s.accept d h r dla).fs h).here = [(d, r.seq)] ∧
    ((s.accept d h r dla).fs h).mcReset = (s.fs h).mcReset ∧ ((s.accept d h r dla).fs h).badWords = (s.fs h).badWords ∧
    ((s.accept d h r dla).fs h).portFree = if dlaVault (dla + 4 * r.lo)
      then kput 0 (r.portAt d h).val (s.landing d h r) (s.fs h).portFree else (s.fs h).portFree := by
  rw [accept_fs, if_pos rfl]
  exact ⟨congrArg (· ++ [(d, r.seq)]) hh, rfl, rfl, rfl⟩

theorem accept_flight (e : DieId) : ((s.accept d h r dla).fs e).flight = if e = d
    then (s.fs e).flight.map fun k => if k.seq = r.seq then { k with phase := (s.accepted d h r dla).phase } else k
    else (s.fs e).flight := by
  have hflight (l : List (DieId × Nat)) (k : KMap Nat) :
      (if e = h then { s.fs h with here := l, portFree := k } else s.fs e).flight = (s.fs e).flight := by
    split
    · next he => rw [he]
    · rfl
  rw [accept_fs]
  simp only [hflight]

theorem accept_flight_single (hf : (s.fs d).flight = [r]) : ((s.accept d h r dla).fs d).flight = [s.accepted d h r dla] := by
  rw [accept_flight, if_pos rfl, hf, List.map_singleton, if_pos rfl]
  rfl

end Accept

/-- What a request is made to do at its home depends on the home's reset and bad words, and on its words and operation. -/
theorem performFar_congr {m : List Host.Cell} {f g : FarSide} {h : DieId} {dla : Nat} {r : FarReq} {p : FarPhase}
    (hm : f.mcReset = g.mcReset) (hb : f.badWords = g.badWords) :
    performFar m f h dla { r with phase := p } = performFar m g h dla r := by
  have hbad : f.badAt dla { r with phase := p } = g.badAt dla r := by
    simp only [FarSide.badAt, FarSide.badSpan, hb]
    rfl
  simp only [performFar, hm, hbad]
  rfl


-- ## The bound of an arrival where nothing waits (R98)

/-- A refresh of a channel begins in the `n` cycles after `t`. -/
def refreshIn (k t n : Nat) : Prop := ∃ u, t < u ∧ u ≤ t + n ∧ u % 2340 = 292 * k

theorem refreshWait_of_refresh {k t n : Nat} (hr : refreshIn k t n) : refreshWait k t n = 180 := by
  obtain ⟨u, hlo, hhi, hu⟩ := hr
  have hlt : (292 * k + 2340 * (t + 1) - (t + 1)) % 2340 < n := by omega
  rw [refreshWait, if_pos hlt]

theorem refreshWait_of_none {k t n : Nat} (hk : k < 8) (hr : ¬refreshIn k t n) : refreshWait k t n = 0 := by
  have hge : ¬(292 * k + 2340 * (t + 1) - (t + 1)) % 2340 < n := fun hlt =>
    hr ⟨t + 1 + (292 * k + 2340 * (t + 1) - (t + 1)) % 2340, by omega, by omega, by omega⟩
  rw [refreshWait, if_neg hge]

theorem pageCost_mem (f : FarSide) (a t : Nat) : f.pageCost a t ∈ [0, 28, 52] := by
  unfold FarSide.pageCost
  split
  · split
    · split <;> decide
    · decide
  · decide

section Idle
variable {s : State} {h : DieId} (r : FarReq) (dla : Nat) (hh : (s.fs h).here = [])
include hh

theorem gddr_idle {c w : Nat} (hc : c = (s.fs h).pageCost (dla + 4 * r.lo) s.sidc)
    (hw : w = refreshWait (gddrChan (dla + 4 * r.lo)) s.sidc (72 + c)) :
    s.gddr h r dla = if w = 0 then (c, s.sidc + (72 + c)) else (max c 28, s.sidc + (72 + c) - c + max c 28 + w) := by
  subst hc hw
  simp only [State.gddr, State.hereReqs, hh, List.filterMap_nil]
  rfl

theorem gddr_of_refresh (hr : refreshIn (gddrChan (dla + 4 * r.lo)) s.sidc (72 + (s.fs h).pageCost (dla + 4 * r.lo) s.sidc)) :
    (s.gddr h r dla).2 = s.sidc + 72 + max ((s.fs h).pageCost (dla + 4 * r.lo) s.sidc) 28 + 180 := by
  rw [gddr_idle r dla hh rfl (refreshWait_of_refresh hr).symm, if_neg (by decide)]
  dsimp only
  omega

theorem gddr_of_none (hr : ¬refreshIn (gddrChan (dla + 4 * r.lo)) s.sidc (72 + (s.fs h).pageCost (dla + 4 * r.lo) s.sidc)) :
    (s.gddr h r dla).2 = s.sidc + 72 + (s.fs h).pageCost (dla + 4 * r.lo) s.sidc := by
  rw [gddr_idle r dla hh rfl (refreshWait_of_none (Nat.mod_lt _ (by decide)) hr).symm, if_pos rfl, Nat.add_assoc]

end Idle

theorem isAtomic_of_slack {r : FarReq} (h : r.slack = 0) : r.isAtomic = false := by
  unfold FarReq.slack at h
  unfold FarReq.isAtomic
  split at h <;> simp_all

theorem lt_landing (s : State) (d h : DieId) (r : FarReq) : s.sidc < s.landing d h r := by
  unfold State.landing
  omega

/-- From which cycle a response may be ready: at another die's home, at GDDR 7, and at a vault. -/
theorem readyFrom_spec (s : State) (d h : DieId) (r : FarReq) (dla : Nat) :
    (d ≠ h → s.readyFrom d h r dla = s.sidc + 37) ∧
    (d = h → dlaVault (dla + 4 * r.lo) = false → s.readyFrom d h r dla = s.sidc + 72) ∧
    (d = h → dlaVault (dla + 4 * r.lo) = true → r.slack = 0 → s.readyFrom d h r dla = s.readyBy d h r dla) ∧
    s.sidc < s.readyFrom d h r dla := by
  refine ⟨fun hd => if_pos hd, fun hd hv => ?_, fun hd hv hz => ?_, ?_⟩
  · simp [State.readyFrom, hd, hv]
  · simp [State.readyFrom, State.readyBy, hd, hv, hz, isAtomic_of_slack hz]
  · have hl := lt_landing s d h r
    unfold State.readyFrom
    split
    · omega
    · split
      · omega
      · split <;> omega

section ReadyBy
variable (s : State) (d : DieId) {h : DieId} (r : FarReq) {dla : Nat}

theorem readyBy_vault (hv : dlaVault (dla + 4 * r.lo) = true) : s.readyBy d h r dla = s.landing d h r + r.slack := by
  rw [State.readyBy, if_pos hv]

theorem readyBy_gddr (hv : dlaVault (dla + 4 * r.lo) = false) : s.readyBy d h r dla = (s.gddr h r dla).2 + r.slack := by
  rw [State.readyBy, hv, if_neg Bool.false_ne_true]

end ReadyBy

-- ## One arrival

/-- Of some tries of which each gives nothing or one value, one that gives it is enough. -/
theorem findSome?_of_exists {α β : Type} {l : List α} {f : α → Option β} {v : β} (h : ∀ x ∈ l, f x = none ∨ f x = some v)
    (hv : ∃ x ∈ l, f x = some v) : l.findSome? f = some v := by
  obtain ⟨x, hx, hxv⟩ := hv
  cases hf : l.findSome? f with
  | none => rw [List.findSome?_eq_none_iff.1 hf x hx] at hxv; cases hxv
  | some w =>
    obtain ⟨y, hy, hyw⟩ := List.exists_of_findSome?_eq_some hf
    rcases h y hy with hn | hs
    · rw [hn] at hyw; cases hyw
    · rw [← hyw, hs]

theorem dies_in_turn : ∀ (n : Fin 4) (d : DieId), ∃ i ∈ List.range 4, Fin.ofNat 4 (n.val + i) = d := by decide

theorem one_die_sum : ∀ d : DieId, (allDies.map fun e => if e = d then 1 else 0).sum = 1 := by decide

section OneArrives
variable {s : State} {d h : DieId} {r : FarReq} {dla : Nat} (hf : (s.fs d).flight = [r]) (ho : ∀ e, e ≠ d → (s.fs e).flight = [])
  (hr : r.reaches h s.sidc = some dla)
include hf ho hr

theorem arrival_single : s.arrival h = some (d, r, dla) := by
  have hdie (e : DieId) : ((s.fs e).flight.findSome? fun r => (r.reaches h s.sidc).map fun dla => (e, r, dla)) =
      if e = d then some (d, r, dla) else none := by
    split
    · next he => simp [he, hf, hr]
    · next he => simp [ho e he]
  obtain ⟨i, hi, hid⟩ := dies_in_turn (Fin.ofNat 4 s.fresh) d
  have hi' : (Fin.ofNat 4 (s.fresh + i) : DieId) = d := by
    rw [← hid]
    exact Fin.ext (by simp [Nat.add_mod])
  simp only [State.arrival, hdie]
  refine findSome?_of_exists (fun j _ => ?_) ⟨i, hi, if_pos hi'⟩
  split
  · exact .inr rfl
  · exact .inl rfl

/-- The request is taken in, and the home serves what it then has. -/
theorem exec_farAccessPerform_single : exec (.farAccessPerform h) s = .next ((s.bump.accept d h r dla).serve h) := by
  have hlen : (fun e => (s.fs e).flight.length) = fun e => if e = d then 1 else 0 := by
    funext e
    split
    · next he => rw [he, hf]; rfl
    · next he => rw [ho e he]; rfl
  simp only [exec, execFarAccessPerform, hlen, one_die_sum, State.arrivals, arrival_single hf ho hr, State.serve]

end OneArrives

end Sys2Proof.Machine
end

section
namespace Sys2Proof.Machine

open Sys2Proof

-- ## The older values after an access (R264, R266)

section Olds
variable {s : State} {d : DieId} {r : FarReq} {a : Nat}

theorem oldRows_rest (s : State) (d : DieId) (r : FarReq) (a : Nat) : ∃ rest, s.olds.filter (·.at_ == a) = s.oldRows d r a ++ rest ∧
    (r.op = .read → r.src ≠ .walk → ∀ o ∈ rest.head?, s.leavesOut d r o = false) := by
  unfold State.oldRows
  split
  · refine ⟨_, (List.takeWhile_append_dropWhile ..).symm, fun _ _ o ho => ?_⟩
    have := List.head?_dropWhile_not (s.leavesOut d r) (s.olds.filter (·.at_ == a))
    rw [ho] at this
    simpa using this
  · next hn => exact ⟨_, rfl, fun hr hw => absurd (by simp [hr, hw]) hn⟩

theorem of_mem_oldRows {o : OldRow} (ho : o ∈ s.oldRows d r a) : r.op = .read ∧ r.src ≠ .walk ∧ s.leavesOut d r o = true := by
  unfold State.oldRows at ho
  split at ho
  · next hr =>
    have hr' : r.op = .read ∧ r.src ≠ .walk := by simpa using hr
    exact ⟨hr'.1, hr'.2, List.mem_takeWhile_imp ho⟩
  · cases ho

theorem leavesOut_iff (s : State) (d : DieId) (r : FarReq) (o : OldRow) : s.leavesOut d r o = true ↔
    (∃ e ∈ (s.die d).tested, e.pos = r.pos ∧ e.at_ < r.issued ∧ e.pt ∈ o.pts) ∧ (s.die o.die).team = (s.die d).team ∧
      (d, r.pos) ∉ o.shut := by
  simp only [State.leavesOut, Die.shownTo, Bool.and_eq_true, List.any_eq_true, List.mem_map, List.mem_filter,
    decide_eq_true_eq, beq_iff_eq, Bool.not_eq_true', and_assoc, List.contains_eq_mem, decide_eq_false_iff_not]
  refine and_congr_left fun _ => ⟨?_, ?_⟩
  · rintro ⟨pt, hpt, e, he, hpos, hat, rfl⟩
    exact ⟨e, he, hpos, hat, hpt⟩
  · rintro ⟨e, he, hpos, hat, hpt⟩
    exact ⟨e.pt, hpt, e, he, hpos, hat, rfl⟩

/-- A write that no fence of its station covers puts the value before it in front. -/
theorem oldsAfter_write {v : Row} (hw : r.op = .write v) (hf : ∀ k ∈ ((s.die d).sta r.pos).fences, k.covers r.pos r = false) (k : Nat) :
    s.oldsAfter d r a k = { at_ := a, row := memRow s.mem a, from_ := s.sidc + 1, die := d, pos := r.pos, seq := r.seq,
                            haul := r.ofHaul, pts := s.releasedBy d r, shut := [] } :: s.olds := by
  have hr : r.isRead = false ∧ r.isWrite = true := by simp [FarReq.isRead, FarReq.isWrite, hw]
  have hl : s.leadsReads d r = false := by
    simp only [State.leadsReads, hr, Bool.false_or, Bool.true_and]
    simpa using hf
  simp [State.oldsAfter, hr, hl]

/-- After a read, those stand that are newer than the value that it has seen. -/
theorem mem_oldsAfter_read (hr : r.op = .read) {o : OldRow} (ho : 0 < o.from_) (k : Nat) : o ∈ s.oldsAfter d r a k ↔
    o ∈ s.olds ∧ ∀ w, (s.olds.filter (·.at_ == a))[k]? = some w → w.from_ < o.from_ := by
  have hrw : r.isRead = true ∧ r.isWrite = false := by simp [FarReq.isRead, FarReq.isWrite, hr]
  have hl : s.leadsReads d r = false := by simp [State.leadsReads, hrw]
  have hfrom : s.heldFrom a k < o.from_ ↔ ∀ w, (s.olds.filter (·.at_ == a))[k]? = some w → w.from_ < o.from_ := by
    unfold State.heldFrom
    cases (s.olds.filter (·.at_ == a))[k]? with
    | none => simpa using ho
    | some w => simp
  simp [State.oldsAfter, hrw, hl, hfrom]

end Olds

-- ## Writes make the words that they cover good (R91)

theorem mem_healed {f : FarSide} {dla : Nat} {r : FarReq} {v : Row} (hw : r.op = .write v) (hm : f.mcReset = false) (k : Nat) :
    k ∈ (f.healed dla r).badWords ↔ k ∈ f.badWords ∧ ¬(dla / 4 + r.lo ≤ k ∧ k ≤ dla / 4 + r.hi) := by
  simp only [FarSide.healed, hw, hm, Bool.false_eq_true, if_false, List.mem_filter, Bool.not_eq_true', Bool.and_eq_false_iff,
    decide_eq_false_iff_not, not_and_or]

end Sys2Proof.Machine
end

section
open Sys2Proof Sys2Proof.Machine

/-- The clause of O32 about a request at its home: what a read, a write and an atomic find and leave there. -/
theorem performFar_spec (m : List Host.Cell) (f : FarSide) (h : DieId) (dla : Nat) (r : FarReq) (hlo : r.lo ≤ r.hi) (hhi : r.hi < 64)
    (hm : f.mcReset = false) :
    (r.op = .read → f.badAt dla r = false → (performFar m f h dla r).1 = m ∧ (performFar m f h dla r).2.2 = 0 ∧
      ∀ i < 256, byteOf (performFar m f h dla r).2.1 i = memGet m (memKey h dla + i)) ∧
    (∀ v, r.op = .write v → (performFar m f h dla r).2 = (0, 0) ∧ ∀ a, memGet (performFar m f h dla r).1 a =
      if memKey h dla + 4 * r.lo ≤ a ∧ a < memKey h dla + 4 * (r.hi + 1) then byteOf v (a - memKey h dla) else memGet m a) ∧
    ∀ op y c, r.op.atomic op y c → f.badAt dla r = false → ∃ old : W32,
      (∀ i < 4, byteOf old i = memGet m (memKey h dla + 4 * r.lo + i)) ∧ (performFar m f h dla r).2.2 = 0 ∧
      lane (performFar m f h dla r).2.1 r.lo = old ∧
      ∀ a, memGet (performFar m f h dla r).1 a = if memKey h dla + 4 * r.lo ≤ a ∧ a < memKey h dla + 4 * r.lo + 4 then
        byteOf (amoNew op old y c) (a - (memKey h dla + 4 * r.lo)) else memGet m a := by
  refine ⟨fun ho hb => ?_, fun v ho => ?_, fun op y c ho hb => ⟨r.oldWord m h dla, fun i hi => byteOf_memRead m _ (by decide) hi, ?_⟩⟩
  · rw [performFar_read hm ho hb]
    exact ⟨rfl, rfl, fun i hi => byteOf_memRead m _ (by decide) hi⟩
  · rw [performFar_write hm ho]
    refine ⟨rfl, fun a => ?_⟩
    have hend : memKey h dla + 4 * r.lo + r.size = memKey h dla + 4 * (r.hi + 1) := by
      unfold FarReq.size
      omega
    rw [memGet_memWrite_bytes, hend]
    refine ite_congr rfl (fun ha => ?_) fun _ => rfl
    rw [show 4 * r.lo + (a - (memKey h dla + 4 * r.lo)) = a - memKey h dla by omega]
  · rw [performFar_atomic hm ho hb]
    refine ⟨rfl, lane_of_word _ (by omega), fun a => ?_⟩
    have hw := memGet_memWrite_bytes m (memKey h dla + 4 * r.lo) 0 4 a (amoNew op (r.oldWord m h dla) y c)
    simp only [Nat.zero_add] at hw
    exact hw

/-- The clause of O32 about one request that waits at its home. -/
theorem farAccess_here {s : State} {d h : DieId} {r : FarReq} {dla lo by_ : Nat} {p : List Host.Cell × Row × Byte}
    (hh : (s.fs h).here = [(d, r.seq)]) (hf : (s.fs d).flight = [r])
    (hperf : p = performFar s.mem (s.fs h) h dla r) :
    let t := s.perform d h r dla lo by_
    t.dies = s.dies ∧ t.hostMem = s.hostMem ∧ t.mem = p.1 ∧ (t.fs h).here = [] ∧ (t.fs h).touchedAt = s.sidc ∧
    dla / 256 ∈ (t.fs h).touched ∧
    (∃ v at_ old, (t.fs d).flight = [{ r with phase := .back h v p.2.2 (if d = h then some at_ else none) }] ∧
      old ≤ (s.oldRows d r (memKey h dla)).length ∧ (old = 0 → v = p.2.1) ∧
      (0 < old → p.2.2 = 0 ∧ (s.oldRows d r (memKey h dla))[old - 1]?.map (·.row) = some v) ∧
      t.olds = (if p.2.2 = 0 then s.oldsAfter d r (memKey h dla) old else s.olds) ∧
      let first := if d = h then max lo (s.sidc + 1) else s.sidc
      first ≤ at_ ∧ at_ ≤ max first by_ ∧
      (d ≠ h → (t.way h d).pkts = (s.way h d).pkts ++
        [{ of := .resp d r.seq, cls := if r.ofHaul && r.isRead then 2 else 1, beats := (r.respSize + 32 + 127) / 128,
           from_ := at_, floor := lo + hop h d }])) ∧
    (∀ v, r.op = .write v → (s.fs h).mcReset = false → ∀ k, k ∈ (t.fs h).badWords ↔
      k ∈ (s.fs h).badWords ∧ ¬(dla / 4 + r.lo ≤ k ∧ k ≤ dla / 4 + r.hi)) := by
  intro t
  subst hperf
  obtain ⟨hmem, hdies, hhost, -, -, holds⟩ := perform_frame s d h r dla lo by_
  obtain ⟨hhere, htat, htouched, hbad, -⟩ := perform_home s d h r dla lo by_
  have hle := leftOut_le s d h r dla
  refine ⟨hdies, hhost, hmem, ?_, htat, htouched, ⟨_, s.answerAt d h lo by_, s.leftOut d h r dla,
    perform_flight_single s d h r dla lo by_ hf, hle, fun h0 => ?_, fun h0 => ⟨err_of_leftOut_pos h0, backRow_old _ h0 hle⟩, holds,
    (pick_le ..).1, (pick_le ..).2, perform_pkts s d h r dla lo by_⟩, fun v hv hm k => ?_⟩
  · rw [hhere, hh, List.erase_cons_head]
  · rw [h0]
    rfl
  · rw [hbad]
    exact mem_healed hv hm k

/-- A request that has arrived alone waits at its home, or is performed in the cycle. -/
theorem farAccess_arrives {s : State} {d h : DieId} {r : FarReq} {dla : Nat} (hh : (s.fs h).here = [])
    (hf : (s.fs d).flight = [r]) (ho : ∀ e, e ≠ d → (s.fs e).flight = []) (hr : r.reaches h s.sidc = some dla) :
    ∃ t, exec (.farAccessPerform h) s = .next t ∧ t.dies = s.dies ∧ t.hostMem = s.hostMem ∧
      ((t.fs d).flight = [s.accepted d h r dla] ∧ (t.fs h).here = [(d, r.seq)] ∧ t.mem = s.mem ∨
        (∀ op y c st, r.op ≠ .amosc op y c st) ∧ t.mem = (performFar s.mem (s.fs h) h dla r).1 ∧ (t.fs h).here = []) ∧
      (t.fs h).portFree = if dlaVault (dla + 4 * r.lo) then kput 0 (r.portAt d h).val (s.landing d h r) (s.fs h).portFree
        else (s.fs h).portFree := by
  obtain ⟨hhere, hreset, hbad, hport⟩ := accept_home s.bump d h r dla hh
  have hflight : ((s.bump.accept d h r dla).fs d).flight = [s.accepted d h r dla] := accept_flight_single s.bump d h r dla hf
  refine ⟨_, exec_farAccessPerform_single hf ho hr, ?_⟩
  rw [serve_single (r := s.accepted d h r dla) hhere hflight]
  rcases performEach_single (s := s.bump.accept d h r dla) (d := d) (r := s.accepted d h r dla) rfl with
    ⟨ht, -⟩ | ⟨hk, ht | ⟨ht, -⟩⟩
  · rw [ht]
    exact ⟨rfl, rfl, .inl ⟨hflight, hhere, rfl⟩, hport⟩
  · rw [ht]
    obtain ⟨hmem, hdies, hhost, -⟩ := perform_frame (s.bump.accept d h r dla).bump d h (s.accepted d h r dla) dla
      (s.readyFrom d h r dla) (s.readyBy d h r dla)
    obtain ⟨hgone, -, -, -, hfree⟩ := perform_home (s.bump.accept d h r dla).bump d h (s.accepted d h r dla) dla
      (s.readyFrom d h r dla) (s.readyBy d h r dla)
    have hsc : ∀ op y c st, r.op ≠ .amosc op y c st := fun op y c st hop => by
      have hsc : (s.accepted d h r dla).isSc = true := (isSc_iff _).2 ⟨op, y, c, st, hop⟩
      rw [State.keeps, hsc] at hk
      exact Bool.noConfusion hk
    refine ⟨hdies, hhost, .inr ⟨hsc, hmem.trans (congrArg Prod.fst (performFar_congr hreset hbad)), ?_⟩, hfree.trans hport⟩
    rw [hgone, bump_fs, hhere]
    exact List.erase_cons_head ..
  · rw [ht]
    exact ⟨rfl, rfl, .inl ⟨hflight, hhere, rfl⟩, hport⟩

/-- Settles O32: a request at its home by what `performFar` does, one that waits there by `performEach_single`, the older values by
their list, and one that arrives by the bound that `accept` gives it. -/
theorem farAccessesPerformed : Obligations.FarAccessesPerformed := by
  unfold Obligations.FarAccessesPerformed
  refine ⟨?_, ?_, ?_, ?_, ?_⟩
  · rintro m f h dla r p bad rfl hlo hhi hdla rfl
    refine ⟨performFar_reset, fun hm => ?_⟩
    obtain ⟨hread, hwrite, hatomic⟩ := performFar_spec m f h dla r hlo hhi hm
    have hgood (hb : ¬∃ k ∈ f.badWords, dla / 4 + r.lo ≤ k ∧ k ≤ dla / 4 + r.hi) : f.badAt dla r = false := by
      rw [← Bool.not_eq_true, badAt_iff hlo hdla]
      exact hb
    refine ⟨fun ho hb => hread ho (hgood hb), hwrite, fun op y c ho hb => hatomic op y c ?_ (hgood hb),
      fun hb ho => performFar_bad hm ho ((badAt_iff hlo hdla).2 hb)⟩
    rcases ho with ho | ho | ho
    · exact .inl ⟨true, ho⟩
    · exact .inl ⟨false, ho⟩
    · exact .inr ho
  · intro s h hh hq
    rw [exec_farAccessPerform_quiet (arrival_none hq), serve_nil hh]
  · intro s d h r dla lo by_ cost p hh hf ho hp hperf hhost
    have hquiet : s.arrival h = none := arrival_none fun e k hk => by
      by_cases he : e = d
      · rw [he, hf, List.mem_singleton] at hk
        simp only [hk, FarReq.reaches, hp]
      · rw [ho e he] at hk
        cases hk
    rw [exec_farAccessPerform_quiet hquiet, serve_single hh hf]
    have hkeeps : s.keeps h d r = true ↔
        (∃ op y c st, r.op = .amosc op y c st) ∨ (s.fs h).touchedAt = s.sidc ∧ dla / 256 ∈ (s.fs h).touched := by
      simp only [State.keeps, hostFirst_nil hhost, Bool.or_false, Bool.or_eq_true, isSc_iff, isTouched_iff, granule_here hp]
    rcases performEach_single (d := d) hp with ⟨ht, hk⟩ | ⟨hk, ht⟩
    · rw [ht]
      refine ⟨fun _ => rfl, fun hsc htouched => ?_⟩
      rcases hkeeps.1 hk with ⟨op, y, c, st, hop⟩ | hk
      · exact absurd hop (hsc op y c st)
      · exact absurd hk htouched
    · refine ⟨fun hc => Bool.noConfusion ((hkeeps.2 hc).symm.trans hk), fun _ _ => ⟨_, rfl, ?_⟩⟩
      rcases ht with ht | ⟨ht, hlt⟩
      · obtain ⟨hdies, hhost, hmem, hhere, htat, htouched, hflight, hbad⟩ := farAccess_here (s := s.bump) (lo := lo) (by_ := by_) hh hf hperf
        rw [ht]
        exact ⟨hdies, hhost, .inr ⟨hmem, hhere, htat, htouched, hflight, fun v hv hm _ => hbad v hv hm⟩⟩
      · rw [ht]
        exact ⟨rfl, rfl, .inl ⟨rfl, hlt⟩⟩
  · rintro s d r a l rfl
    exact ⟨oldRows_rest s d r a, fun o ho => of_mem_oldRows ho, leavesOut_iff s d r,
      fun v hv hf => ⟨_, oldsAfter_write hv hf 0, rfl, rfl, rfl, rfl, rfl, rfl, rfl, rfl⟩, fun k o hr ho => mem_oldsAfter_read hr ho k⟩
  · intro s d h r dla a slack port at_ hh hf ho hp hat ha hslack hport
    have hr : r.reaches h s.sidc = some dla := by simp [FarReq.reaches, hp, hat]
    obtain ⟨t, ht, hdies, hhost, hcases, hfree⟩ := farAccess_arrives hh hf ho hr
    refine ⟨t, _, _, _, ht, hdies, hhost, hcases, ?_⟩
    have hslack : slack = r.slack := hslack
    have hport : port = (r.portAt d h).val := hport
    rw [ha, hslack, hport, hfree]
    obtain ⟨hremote, hgddr, hvault, hlt⟩ := readyFrom_spec s d h r dla
    refine ⟨hremote, hgddr, hvault, hlt, fun hv => ?_, fun hv => ⟨_, pageCost_mem .., rfl, fun hu => ?_, fun hu => ?_⟩⟩
    · rw [readyBy_vault s d r hv, if_pos hv, kget_kput, if_pos rfl, Nat.add_sub_cancel]
      exact ⟨rfl, rfl⟩
    · rw [readyBy_gddr s d r hv, gddr_of_refresh r dla hh]
      obtain ⟨u, hlo, hhi, hmod⟩ := hu
      exact ⟨u, hlo, by omega, hmod⟩
    · rw [readyBy_gddr s d r hv, gddr_of_none r dla hh]
      rintro ⟨u, hlo, hhi, hmod⟩
      exact hu u hlo (by omega) hmod
end

section
namespace Sys2Proof.Machine

open Sys2Proof

-- ## The stamp of a wheel mark (R224)

theorem isSc_of_amosc {r : FarReq} {op : AmoOp} {y c : W32} {st : Nat} (h : r.op = .amosc op y c st) : r.isSc = true ∧ r.stamp = st := by
  simp [FarReq.isSc, FarReq.stamp, h]

/-- The least of a number and the stamps of the AMOSCs of `l`. -/
theorem foldl_stamp : ∀ (l : List FarReq) (n : Nat),
    let k := l.foldl (fun n r => if r.isSc then min n r.stamp else n) n
    k ≤ n ∧ (∀ r ∈ l, r.isSc = true → k ≤ r.stamp) ∧ (k = n ∨ ∃ r ∈ l, r.isSc = true ∧ r.stamp = k)
  | [], n => by simp
  | r :: l, n => by
    obtain ⟨hle, hall, hex⟩ := foldl_stamp l (if r.isSc then min n r.stamp else n)
    have hstep : (if r.isSc = true then min n r.stamp else n) ≤ n ∧
        (r.isSc = true → (if r.isSc = true then min n r.stamp else n) ≤ r.stamp) ∧
        ((if r.isSc = true then min n r.stamp else n) = n ∨
          r.isSc = true ∧ (if r.isSc = true then min n r.stamp else n) = r.stamp) := by
      split
      · next h =>
        exact ⟨Nat.min_le_left .., fun _ => Nat.min_le_right .., by simp [h]; omega⟩
      · next h => exact ⟨Nat.le_refl n, fun k => absurd k h, .inl rfl⟩
    obtain ⟨h1, h2, h3⟩ := hstep
    refine ⟨Nat.le_trans hle h1, fun x hx hsc => ?_, ?_⟩
    · rcases List.mem_cons.1 hx with rfl | hx
      · exact Nat.le_trans hle (h2 hsc)
      · exact hall x hx hsc
    · rcases hex with he | ⟨x, hx, hsc, hst⟩
      · rcases h3 with h3 | ⟨hsc, h3⟩
        · exact .inl (he.trans h3)
        · exact .inr ⟨r, List.mem_cons_self .., hsc, (he.trans h3).symm⟩
      · exact .inr ⟨x, List.mem_cons_of_mem _ hx, hsc, hst⟩

/-- A mark's stamp is the cycle or the stamp of an AMOSC that has not left, and none of those is less. -/
theorem markStamp_spec (f : FarSide) (n : Nat) : f.markStamp n ≤ n ∧
    (f.markStamp n = n ∨ ∃ r ∈ f.reqs, ∃ op y c, r.op = .amosc op y c (f.markStamp n)) ∧
    ∀ r ∈ f.reqs, ∀ op y c st, r.op = .amosc op y c st → f.markStamp n ≤ st := by
  obtain ⟨hle, hall, hex⟩ := foldl_stamp f.reqs n
  refine ⟨hle, ?_, fun r hr op y c st hop => ?_⟩
  · rcases hex with he | ⟨r, hr, hsc, hst⟩
    · exact .inl he
    · obtain ⟨op, y, c, st, hop⟩ := (isSc_iff r).1 hsc
      have hst' : st = f.markStamp n := (isSc_of_amosc hop).2.symm.trans hst
      exact .inr ⟨r, hr, op, y, c, hst' ▸ hop⟩
  · obtain ⟨hsc, hst⟩ := isSc_of_amosc hop
    exact hst ▸ hall r hr hsc

-- ## A wheel mark goes to each die of the team (R224)

/-- The mark of die `d` goes to home `h`: known at once at its own, over the link to another. -/
def State.markTo (d : DieId) (stamp now : Nat) (t : State) (h : DieId) : State :=
  let f := t.fs h
  if h = d then t.setFs h { f with marks := kput 0 d.val (stamp + 1) f.marks }
  else (t.setFs h { f with marksIn := f.marksIn ++ [{ from_ := d, stamp := stamp, sent := now, by_ := none }] }).post d h
    { of := .mark d now, cls := 0, beats := 1, from_ := now, floor := 0 }

theorem exec_wheelMarkSend_not_due {s : State} (d : DieId) (h : s.sidc % 16 ≠ 0) : exec (.wheelMarkSend d) s = .next s := by
  simp only [exec, execWheelMarkSend, bne_iff_ne.2 h, if_true]

theorem exec_wheelMarkSend_due {s : State} (d : DieId) (h : s.sidc % 16 = 0) : exec (.wheelMarkSend d) s =
    .next ((s.teamDies d).foldl (State.markTo d ((s.fs d).markStamp s.sidc) s.sidc) s) := by
  have hb : ¬(s.sidc % 16 != 0) = true := by simpa using h
  simp only [exec, execWheelMarkSend, if_neg hb]
  rfl

section MarkTo
variable (d : DieId) (stamp now : Nat)

theorem markTo_frame (t : State) (h : DieId) : (State.markTo d stamp now t h).dies = t.dies ∧
    (State.markTo d stamp now t h).mem = t.mem ∧ (State.markTo d stamp now t h).hostMem = t.hostMem := by
  unfold State.markTo
  dsimp only
  split <;> exact ⟨rfl, rfl, rfl⟩

theorem markTo_other (t : State) {h e : DieId} (he : e ≠ h) : (State.markTo d stamp now t h).fs e = t.fs e ∧
    (e ≠ d → (State.markTo d stamp now t h).way d e = t.way d e) := by
  unfold State.markTo
  dsimp only
  split
  · exact ⟨fs_setFs_ne t h e _ he.symm, fun _ => rfl⟩
  · next hd => exact ⟨fs_setFs_ne t h e _ he.symm, fun hed => post_way_other _ _ (linkOf_inj hed hd he)⟩

/-- What a home has of the mark: its stamp above all, or the mark on its way and in the link's queue. -/
def Marked (d : DieId) (stamp now : Nat) (s t : State) (h : DieId) : Prop :=
  (h = d → kget 0 d.val (t.fs d).marks = stamp + 1) ∧
  (h ≠ d → (t.fs h).marksIn = (s.fs h).marksIn ++ [{ from_ := d, stamp := stamp, sent := now, by_ := none }] ∧
    (t.way d h).pkts = (s.way d h).pkts ++ [{ of := .mark d now, cls := 0, beats := 1, from_ := now, floor := 0 }])

theorem markTo_marks (t : State) (h : DieId) : Marked d stamp now t (State.markTo d stamp now t h) h := by
  unfold State.markTo
  refine ⟨fun hd => ?_, fun hd => ?_⟩
  · subst hd
    rw [if_pos rfl, fs_setFs, kget_kput, if_pos rfl]
  · dsimp only
    rw [if_neg hd, post_fs, fs_setFs, post_pkts]
    exact ⟨rfl, rfl⟩

/-- The mark goes to each of `l` once, and to no other. -/
theorem marksTo_spec : ∀ {l : List DieId}, l.Nodup → ∀ s : State,
    let t := l.foldl (State.markTo d stamp now) s
    (t.dies = s.dies ∧ t.mem = s.mem ∧ t.hostMem = s.hostMem) ∧
    (∀ h ∉ l, t.fs h = s.fs h ∧ (h ≠ d → t.way d h = s.way d h)) ∧ ∀ h ∈ l, Marked d stamp now s t h
  | [], _, s => ⟨⟨rfl, rfl, rfl⟩, fun _ _ => ⟨rfl, fun _ => rfl⟩, fun _ h => nomatch h⟩
  | e :: l, hn, s => by
    obtain ⟨hel, hl⟩ := List.nodup_cons.1 hn
    obtain ⟨hd1, hm1, hh1⟩ := markTo_frame d stamp now s e
    obtain ⟨⟨hd2, hm2, hh2⟩, hout, hin⟩ := marksTo_spec hl (State.markTo d stamp now s e)
    refine ⟨⟨hd2.trans hd1, hm2.trans hm1, hh2.trans hh1⟩, fun h hh => ?_, fun h hh => ?_⟩
    · obtain ⟨hne, hnl⟩ := not_or.1 (mt List.mem_cons.2 hh)
      obtain ⟨hfs, hway⟩ := markTo_other d stamp now s hne
      obtain ⟨hfs', hway'⟩ := hout h hnl
      exact ⟨hfs'.trans hfs, fun hd => (hway' hd).trans (hway hd)⟩
    · by_cases he : h = e
      · subst he
        obtain ⟨hfs, hway⟩ := hout h hel
        obtain ⟨hown, hother⟩ := markTo_marks d stamp now s h
        refine ⟨fun hd => ?_, fun hd => ?_⟩
        · subst hd
          rw [List.foldl_cons, hfs]
          exact hown rfl
        · rw [List.foldl_cons, hfs, hway hd]
          exact hother hd
      · obtain ⟨hfs, hway⟩ := markTo_other d stamp now s he
        obtain ⟨hown, hother⟩ := hin h ((List.mem_cons.1 hh).resolve_left he)
        refine ⟨hown, fun hd => ?_⟩
        obtain ⟨hm, hp⟩ := hother hd
        rw [hfs] at hm
        rw [hway hd] at hp
        exact ⟨hm, hp⟩

end MarkTo

-- ## A wheel mark arrives (R224)

theorem markHeld_iff (s : State) (h : DieId) (m : Mark) : s.markHeld h m = true ↔
    ∃ r ∈ (s.fs m.from_).flight, (∃ dla a, r.phase = .sent h dla a) ∧ ∃ op y c st, r.op = .amosc op y c st ∧ st < m.stamp := by
  unfold State.markHeld
  rw [List.any_eq_true]
  refine exists_congr fun r => and_congr_right fun _ => ?_
  cases hp : r.phase with
  | sent h' dla a =>
    simp only [Bool.and_eq_true, beq_iff_eq, decide_eq_true_eq, isSc_iff, FarPhase.sent.injEq]
    constructor
    · rintro ⟨⟨rfl, op, y, c, st, hop⟩, hlt⟩
      exact ⟨⟨dla, a, rfl, rfl, rfl⟩, op, y, c, st, hop, (isSc_of_amosc hop).2 ▸ hlt⟩
    · rintro ⟨⟨_, _, rfl, -, -⟩, op, y, c, st, hop, hlt⟩
      exact ⟨⟨rfl, op, y, c, st, hop⟩, (isSc_of_amosc hop).2.symm ▸ hlt⟩
  | _ => simp

section OneMark
variable {s : State} {h : DieId} {m : Mark}

/-- The home with the mark: its die's latest mark is no older. -/
def State.markIn (s : State) (h : DieId) (m : Mark) : State :=
  let f := s.fs h
  (s.setFs h { f with marks := kput 0 m.from_.val (max (m.stamp + 1) (kget 0 m.from_.val f.marks)) f.marks,
                      marksIn := f.marksIn.erase m }).bump

theorem exec_wheelMarkArrive_single (hm : (s.fs h).marksIn = [m]) : exec (.wheelMarkArrive h) s = .next (s.markStep h m) := by
  simp only [exec, execWheelMarkArrive, hm, List.foldl_cons, List.foldl_nil]

theorem markStep_held (hk : s.markHeld h m = true) : s.markStep h m = s.bump := by
  simp only [State.markStep, hk, Bool.not_true, Bool.false_and, Bool.false_eq_true, if_false]

/-- A mark that no AMOSC holds up arrives now, or later while it is not due. -/
theorem markStep_free (hk : s.markHeld h m = false) :
    s.markStep h m = s.markIn h m ∨ s.markStep h m = s.bump ∧ ∀ b, m.by_ = some b → s.sidc < b := by
  cases hd : m.due s.sidc || s.fresh % 2 == 0 with
  | true => exact .inl (by simp only [State.markStep, hk, hd, Bool.not_false, Bool.and_self, if_true]; rfl)
  | false =>
    refine .inr ⟨by simp only [State.markStep, hk, hd, Bool.and_false, Bool.false_eq_true, if_false], fun b hb => ?_⟩
    simpa [Mark.due, hb] using (Bool.or_eq_false_iff.1 hd).1

theorem markIn_marks (e : DieId) : kget 0 e.val ((s.markIn h m).fs h).marks =
    if e = m.from_ then max (m.stamp + 1) (kget 0 e.val (s.fs h).marks) else kget 0 e.val (s.fs h).marks := by
  rw [State.markIn, bump_fs, fs_setFs, kget_kput]
  by_cases he : e = m.from_
  · rw [he, if_pos rfl, if_pos rfl]
  · rw [if_neg (Fin.val_ne_of_ne he), if_neg he]

end OneMark

theorem markStep_memory (s : State) (h : DieId) (m : Mark) : (s.markStep h m).mem = s.mem ∧ (s.markStep h m).hostMem = s.hostMem := by
  unfold State.markStep
  split <;> exact ⟨rfl, rfl⟩

end Sys2Proof.Machine
end

section
namespace Sys2Proof.Machine

open Sys2Proof

-- ## The turn of an AMOSC (R221, R224)

theorem marked_iff (s : State) (h d : DieId) (st : Nat) :
    s.marked h d st = true ↔ ∀ e ∈ s.teamDies d, st + 1 < kget 0 e.val (s.fs h).marks := by
  simp [State.marked, List.all_eq_true]

/-- The home may apply this AMOSC: it is marked, nothing goes before it, and its granule is free. -/
def State.scReady (s : State) (h d : DieId) (r : FarReq) : Bool :=
  s.marked h d r.stamp &&
    !(((s.hereReqs h).takeWhile fun e => e != (d, r)).any fun e => s.before (s.stuck (s.hereReqs h)) e (d, r)) &&
    !(s.fs h).isTouched s.sidc r.granule && !(s.fs h).hostFirst d r

theorem scNeed_le (s : State) (l : List (DieId × FarReq)) (y : DieId × FarReq) : s.scNeed l y ≤ y.2.deadline y.1 := by
  have hfold (p : DieId × FarReq → Bool) (f : DieId × FarReq → Nat) : ∀ (l : List (DieId × FarReq)) (n : Nat),
      l.foldl (fun n e => if p e then min n (f e) else n) n ≤ n := by
    intro l
    induction l with
    | nil => exact fun n => Nat.le_refl n
    | cons e l ih =>
      refine fun n => Nat.le_trans (ih _) ?_
      dsimp only
      split
      · exact Nat.min_le_left ..
      · exact Nat.le_refl n
  exact Nat.le_trans (Nat.sub_le ..) (hfold _ _ l _)

section Turn
variable {s : State} {h d : DieId} {r : FarReq} {dla lo by_ cost : Nat}

theorem nextSc_of_least (hl : leastSc (s.hereReqs h) = some (d, r)) (hp : r.phase = .here h dla lo by_ cost) :
    s.nextSc h = if s.scReady h d r then some (d, r, dla, lo, by_) else none := by
  simp only [State.nextSc, hl, hp]
  rfl

theorem amoscs_waits (hl : leastSc (s.hereReqs h) = some (d, r)) (hp : r.phase = .here h dla lo by_ cost)
    (hr : s.scReady h d r = false) : ∀ n, amoscs h n s = s
  | 0 => rfl
  | n + 1 => by
    have hn : s.nextSc h = none := by rw [nextSc_of_least hl hp, hr, if_neg Bool.false_ne_true]
    simp only [amoscs, hn]

/-- An AMOSC whose turn it is, is applied now, or waits within its bound. -/
theorem amoscs_turn (hl : leastSc (s.hereReqs h) = some (d, r)) (hp : r.phase = .here h dla lo by_ cost)
    (hr : s.scReady h d r = true) (n : Nat) : amoscs h (n + 1) s = amoscs h n (s.bump.perform d h r dla lo by_) ∨
      amoscs h (n + 1) s = s.bump ∧ s.sidc < (if d = h then by_ - 1 else by_) := by
  have hn : s.nextSc h = some (d, r, dla, lo, by_) := by rw [nextSc_of_least hl hp, hr, if_pos rfl]
  simp only [amoscs, hn]
  split
  · exact .inl rfl
  · next hlate =>
    have hle := scNeed_le s (s.hereReqs h) (d, r)
    rw [deadline_here hp] at hle
    exact .inr ⟨rfl, Nat.lt_of_lt_of_le (by omega) hle⟩

end Turn

theorem amoscs_dies (h : DieId) : ∀ n s, (amoscs h n s).dies = s.dies
  | 0, _ => rfl
  | n + 1, s => by
    simp only [amoscs]
    split
    · rfl
    · next d r dla lo by_ _ =>
      split
      · exact (amoscs_dies h n _).trans (perform_frame s.bump d h r dla lo by_).2.1
      · rfl

/-- An atomic leaves out no write (R264). -/
theorem answered_of_not_read (s : State) (d h : DieId) {r : FarReq} (dla lo by_ : Nat) (hr : r.op ≠ .read) : s.answered d h r dla lo by_ =
    { r with phase := .back h (performFar s.mem (s.fs h) h dla r).2.1 (performFar s.mem (s.fs h) h dla r).2.2
                        (if d = h then some (s.answerAt d h lo by_) else none) } := by
  have hk : s.leftOut d h r dla = 0 := by
    have hle := leftOut_le s d h r dla
    rwa [oldRows_of_not_read hr, List.length_nil, Nat.le_zero] at hle
  simp only [State.answered, hk, State.backRow]

/-- Performing a request leaves the marks of its home and the BAR2 accesses there. -/
theorem perform_home_marks (s : State) (d h : DieId) (r : FarReq) (dla lo by_ : Nat) :
    ((s.perform d h r dla lo by_).fs h).marks = (s.fs h).marks ∧ ((s.perform d h r dla lo by_).fs h).host = (s.fs h).host ∧
    ((s.perform d h r dla lo by_).fs h).mcReset = (s.fs h).mcReset := by
  have hm : (s.homeAfter d h r dla).marks = (s.fs h).marks := by rw [homeAfter_frame]
  have hb : (s.homeAfter d h r dla).host = (s.fs h).host := by rw [homeAfter_frame]
  have hr : (s.homeAfter d h r dla).mcReset = (s.fs h).mcReset := by rw [homeAfter_frame]
  rw [perform_fs, if_pos rfl]
  exact ⟨hm, hb, hr⟩

theorem not_read_of_amosc {r : FarReq} (h : ∃ op y c st, r.op = .amosc op y c st) : r.op ≠ .read := by
  obtain ⟨op, y, c, st, hop⟩ := h
  rw [hop]
  exact FarOp.noConfusion

/-- An AMOSC alone at its home. -/
theorem amosc_single {s : State} {d h : DieId} {r : FarReq} {dla lo by_ cost : Nat} (hh : (s.fs h).here = [(d, r.seq)])
    (hf : (s.fs d).flight = [r]) (hsc : ∃ op y c st, r.op = .amosc op y c st) (hp : r.phase = .here h dla lo by_ cost)
    (hhost : (s.fs h).host = []) :
    ((∃ e ∈ s.teamDies d, kget 0 e.val (s.fs h).marks ≤ r.stamp + 1) → amoscs h 1 s = s) ∧
    ((∀ e ∈ s.teamDies d, r.stamp + 1 < kget 0 e.val (s.fs h).marks) → (s.fs h).touchedAt ≠ s.sidc →
      amoscs h 1 s = s.bump.perform d h r dla lo by_ ∨ amoscs h 1 s = s.bump ∧ s.sidc < (if d = h then by_ - 1 else by_)) := by
  have hhere := hereReqs_single hh hf
  have hl : leastSc (s.hereReqs h) = some (d, r) := by
    simp [hhere, leastSc, (isSc_iff r).2 hsc]
  refine ⟨fun ⟨e, he, hle⟩ => amoscs_waits hl hp ?_ 1, fun hm ht => amoscs_turn hl hp ?_ 0⟩
  · have hno : s.marked h d r.stamp = false := by
      rw [← Bool.not_eq_true, marked_iff]
      exact fun hall => Nat.not_lt.2 hle (hall e he)
    simp [State.scReady, hno]
  · have htouched : (s.fs h).isTouched s.sidc r.granule = false := by
      rw [← Bool.not_eq_true, isTouched_iff]
      exact fun k => ht k.1
    simp [State.scReady, (marked_iff s h d r.stamp).2 hm, hhere, htouched, hostFirst_nil hhost]

-- ## Two AMOSCs at one home (R224)

section TwoHere
variable {s : State} {d e h : DieId} {x y : FarReq} {dx lx bx cx dy ly by_ cy : Nat}
  (hh : (s.fs h).here = [(d, x.seq), (e, y.seq)] ∨ (s.fs h).here = [(e, y.seq), (d, x.seq)])
  (hfx : (s.fs d).flight.find? (fun r => r.seq == x.seq) = some x) (hfy : (s.fs e).flight.find? (fun r => r.seq == y.seq) = some y)
  (hne : d ≠ e ∨ x.pos ≠ y.pos ∧ x.seq ≠ y.seq) (hsx : x.isSc = true) (hsy : y.isSc = true) (hst : x.stamp < y.stamp)

include hh hfx hfy in
theorem hereReqs_two : s.hereReqs h = [(d, x), (e, y)] ∨ s.hereReqs h = [(e, y), (d, x)] := by
  rcases hh with hh | hh
  · exact .inl (by simp [State.hereReqs, hh, hfx, hfy])
  · exact .inr (by simp [State.hereReqs, hh, hfx, hfy])

include hh hfx hfy hsx hsy hst in
theorem leastSc_two : leastSc (s.hereReqs h) = some (d, x) := by
  rcases hereReqs_two hh hfx hfy with hl | hl
  · simp [hl, leastSc, hsx, hsy, Nat.not_lt.2 (Nat.le_of_lt hst)]
  · simp [hl, leastSc, hsx, hsy, hst]

/-- Of two AMOSCs of different stations none goes before the other by its queue, granule or channel. -/
theorem before_of_sc (l : List (DieId × FarReq)) (hsy : y.isSc = true) (hne : d ≠ e ∨ x.pos ≠ y.pos) : s.before l (e, y) (d, x) = false := by
  have hlead : s.mustLead (e, y) (d, x) = false := by
    rcases hne with hne | hne
    · simp [State.mustLead, hne.symm]
    · simp [State.mustLead, hne.symm]
  simp [State.before, hlead, hsy]

include hh hfx hfy hne hsy hst in
/-- The AMOSC of the lesser stamp waits for its marks alone. -/
theorem scReady_two (ht : (s.fs h).touchedAt ≠ s.sidc) (hhost : (s.fs h).host = []) : s.scReady h d x = s.marked h d x.stamp := by
  have htouched : (s.fs h).isTouched s.sidc x.granule = false := by
    rw [← Bool.not_eq_true, isTouched_iff]
    exact fun k => ht k.1
  have hxy : ¬(e, y) = (d, x) := fun k => Nat.ne_of_lt hst (by rw [(Prod.mk.inj k).2])
  have hbefore (l : List (DieId × FarReq)) : s.before l (e, y) (d, x) = false := before_of_sc l hsy (hne.imp_right And.left)
  rcases hereReqs_two hh hfx hfy with hl | hl <;>
    simp [State.scReady, hl, htouched, hostFirst_nil hhost, List.takeWhile, hxy, hbefore]

include hfy hne in
/-- The other request stands in flight as it did once `x` is performed. -/
theorem find_after (lo b : Nat) : ((s.perform d h x dx lo b).fs e).flight.find? (fun r => r.seq == y.seq) = some y := by
  rw [perform_flight]
  split
  · next he =>
    have hseq : ¬y.seq = x.seq := fun k => (hne.resolve_left fun k => k he.symm).2 k.symm
    rw [List.find?_map, show ((fun r : FarReq => r.seq == y.seq) ∘ fun k : FarReq => if k.seq = x.seq
      then { k with phase := (s.answered d h x dx lo b).phase } else k) = fun r => r.seq == y.seq from
        funext fun k => by dsimp only [Function.comp]; split <;> rfl, hfy, Option.map_some, if_neg hseq]
  · exact hfy

include hh hne in
theorem here_after (lo b : Nat) : ((s.perform d h x dx lo b).fs h).here = [(e, y.seq)] := by
  have hxy : ¬(e, y.seq) = (d, x.seq) := fun k =>
    hne.elim (fun n => n (Prod.mk.inj k).1.symm) fun n => n.2 (Prod.mk.inj k).2.symm
  rw [(perform_home ..).1]
  rcases hh with hh | hh <;> simp [hh, hxy]

end TwoHere

theorem hereReqs_one {s : State} {e h : DieId} {y : FarReq} (hh : (s.fs h).here = [(e, y.seq)])
    (hf : (s.fs e).flight.find? (fun r => r.seq == y.seq) = some y) : s.hereReqs h = [(e, y)] := by
  simp [State.hereReqs, hh, hf]

/-- An AMOSC leaves the bad words of its home as they are. -/
theorem healed_of_amosc (f : FarSide) (dla : Nat) {r : FarReq} (h : ∃ op y c st, r.op = .amosc op y c st) : f.healed dla r = f := by
  obtain ⟨op, y, c, st, hop⟩ := h
  simp only [FarSide.healed, hop]

theorem teamDies_of_hub {s t : State} (h : t.hub = s.hub) (d : DieId) : t.teamDies d = s.teamDies d := by
  simp only [State.teamDies, State.teamOf, h]

/-- Two AMOSCs at one home: the lesser stamp first, the other after it, in the same cycle only for another granule. -/
theorem amosc_two {s : State} {d e h : DieId} {x y : FarReq} {dx lx bx cx dy ly by_ cy : Nat}
    (hh : (s.fs h).here = [(d, x.seq), (e, y.seq)] ∨ (s.fs h).here = [(e, y.seq), (d, x.seq)])
    (hfx : (s.fs d).flight.find? (fun r => r.seq == x.seq) = some x) (hfy : (s.fs e).flight.find? (fun r => r.seq == y.seq) = some y)
    (hne : d ≠ e ∨ x.pos ≠ y.pos ∧ x.seq ≠ y.seq) (hsx : ∃ op u c st, x.op = .amosc op u c st) (hsy : ∃ op u c st, y.op = .amosc op u c st)
    (hst : x.stamp < y.stamp) (hpx : x.phase = .here h dx lx bx cx) (hpy : y.phase = .here h dy ly by_ cy)
    (ht : (s.fs h).touchedAt ≠ s.sidc) (hhost : (s.fs h).host = []) :
    let px := performFar s.mem (s.fs h) h dx x
    let py := performFar px.1 (s.fs h) h dy y
    ((∃ g ∈ s.teamDies d, kget 0 g.val (s.fs h).marks ≤ x.stamp + 1) → amoscs h 2 s = s) ∧
    ((∀ g ∈ s.teamDies d, x.stamp + 1 < kget 0 g.val (s.fs h).marks) →
      ((amoscs h 2 s).mem = s.mem ∧ ((amoscs h 2 s).fs h).here = (s.fs h).here ∧ s.sidc < bx ∨
       (amoscs h 2 s).mem = px.1 ∧ ((amoscs h 2 s).fs h).here = [(e, y.seq)] ∨
       (amoscs h 2 s).mem = py.1 ∧ ((amoscs h 2 s).fs h).here = [] ∧ dx / 256 ≠ dy / 256 ∧
         ∀ g ∈ s.teamDies e, y.stamp + 1 < kget 0 g.val (s.fs h).marks)) := by
  intro px py
  have hl := leastSc_two hh hfx hfy ((isSc_iff x).2 hsx) ((isSc_iff y).2 hsy) hst
  have hready := scReady_two hh hfx hfy hne ((isSc_iff y).2 hsy) hst ht hhost
  refine ⟨fun ⟨g, hg, hle⟩ => amoscs_waits hl hpx ?_ 2, fun hm => ?_⟩
  · rw [hready, ← Bool.not_eq_true, marked_iff]
    exact fun hall => Nat.not_lt.2 hle (hall g hg)
  · rcases amoscs_turn hl hpx (hready.trans ((marked_iff s h d x.stamp).2 hm)) 1 with h1 | ⟨h1, hlt⟩
    · rw [h1]
      have hhere := here_after (s := s.bump) (dx := dx) hh hne lx bx
      have hone := hereReqs_one hhere (find_after (s := s.bump) (h := h) (dx := dx) hfy hne lx bx)
      obtain ⟨hmem, -, -, hsidc, hhub, -⟩ := perform_frame s.bump d h x dx lx bx
      obtain ⟨-, htat, htouched, hbad, -⟩ := perform_home s.bump d h x dx lx bx
      obtain ⟨hmarks, -, hreset⟩ := perform_home_marks s.bump d h x dx lx bx
      generalize s.bump.perform d h x dx lx bx = u at hhere hone hmem hsidc hhub htat htouched hbad hmarks hreset ⊢
      have hl2 : leastSc (u.hereReqs h) = some (e, y) := by simp [hone, leastSc, (isSc_iff y).2 hsy]
      cases hr : u.scReady h e y with
      | false =>
        rw [amoscs_waits hl2 hpy hr]
        exact .inr (.inl ⟨hmem, hhere⟩)
      | true =>
        have hparts := hr
        simp only [State.scReady, Bool.and_eq_true, Bool.not_eq_true'] at hparts
        obtain ⟨⟨⟨hmark, -⟩, hfree⟩, -⟩ := hparts
        have hall : ∀ g ∈ s.teamDies e, y.stamp + 1 < kget 0 g.val (s.fs h).marks := by
          rw [marked_iff, teamDies_of_hub hhub, hmarks] at hmark
          exact hmark
        have hgran : dx / 256 ≠ dy / 256 := fun heq => by
          rw [granule_here hpy, ← heq, ← Bool.not_eq_true, isTouched_iff, hsidc] at hfree
          exact hfree ⟨htat, htouched⟩
        rcases amoscs_turn hl2 hpy hr 0 with h2 | ⟨h2, -⟩
        · rw [h2]
          refine .inr (.inr ⟨?_, ?_, hgran, hall⟩)
          · change (u.bump.perform e h y dy ly by_).mem = _
            rw [(perform_frame ..).1, bump_mem, hmem]
            exact congrArg Prod.fst (performFar_congr (r := y) (p := y.phase) hreset (hbad.trans (by rw [healed_of_amosc _ _ hsx]; rfl)))
          · change ((u.bump.perform e h y dy ly by_).fs h).here = _
            rw [(perform_home ..).1, bump_fs, hhere, List.erase_cons_head]
        · rw [h2]
          exact .inr (.inl ⟨hmem, hhere⟩)
    · rw [h1]
      refine .inl ⟨rfl, rfl, Nat.lt_of_lt_of_le hlt ?_⟩
      split
      · exact Nat.sub_le ..
      · exact Nat.le_refl bx

end Sys2Proof.Machine
end

section
namespace Sys2Proof.Machine

open Sys2Proof

-- ## REQUEST_DEPART keeps memory (R87, R248)

/-- Memory is the same. -/
def KeepsMem (s t : State) : Prop := t.mem = s.mem ∧ t.hostMem = s.hostMem

theorem KeepsMem.refl (s : State) : KeepsMem s s := ⟨rfl, rfl⟩

theorem KeepsMem.trans {s t u : State} (h : KeepsMem s t) (k : KeepsMem t u) : KeepsMem s u := ⟨k.1.trans h.1, k.2.trans h.2⟩

theorem KeepsMem.sameMemory {s t : State} (h : KeepsMem s t) : SameMemory s t := ⟨fun _ => by rw [h.1], fun _ => by rw [h.2]⟩

theorem KeepsMem.foldl {α : Type} {f : State → α → State} (hf : ∀ s a, KeepsMem s (f s a)) (s : State) (l : List α) :
    KeepsMem s (l.foldl f s) := List.foldlRecOn l f (KeepsMem.refl s) fun t h a _ => h.trans (hf t a)

theorem translate_keepsMem (d : DieId) (q : Nat) (s : State) : KeepsMem s (s.translate d q) := by
  unfold State.translate
  dsimp only
  split
  · exact KeepsMem.refl s
  · split
    · split
      · exact KeepsMem.refl s
      · split
        · next e _ => exact ⟨(byLeaf_frame s.bump d _ e.level e.entry _ _).1, (byLeaf_frame s.bump d _ e.level e.entry _ _).2.1⟩
        · exact ⟨rfl, rfl⟩
    · exact KeepsMem.refl s

/-- Leaving the store path may raise a cause, and no more. -/
theorem leavePath_frame (s : State) (d : DieId) (r : FarReq) : ∃ x, (s.leavePath d r).1 = s.setDie d x ∧ x.stations = (s.die d).stations := by
  unfold State.leavePath
  dsimp only
  split
  · exact ⟨s.die d, (setDie_die s d).symm, rfl⟩
  · refine ⟨_, rfl, ?_⟩
    unfold Die.raiseBad
    split <;> rfl

theorem leave_keepsMem (d : DieId) (all live : List FenceRec) (q : Nat) (s : State) : KeepsMem s (s.leave d all live q) := by
  unfold State.leave
  dsimp only
  split
  · exact KeepsMem.refl s
  · next r _ =>
    split
    · split
      · exact KeepsMem.refl s
      · next h dla _ _ _ =>
        obtain ⟨x, hx, -⟩ := leavePath_frame s d r
        rw [hx]
        exact ⟨(setOut_frame ..).2.1, (setOut_frame ..).2.2.1⟩
    · split
      · exact KeepsMem.refl s
      · exact ⟨rfl, rfl⟩
    · exact KeepsMem.refl s

theorem dropFences_keepsMem (s : State) (d : DieId) : KeepsMem s (s.dropFences d) := by
  unfold State.dropFences
  dsimp only
  split <;> exact ⟨rfl, rfl⟩

/-- The state that REQUEST_DEPART leaves. -/
def State.departed (s : State) (d : DieId) : State :=
  let all (p : Pos) : List FenceRec := ((s.die d).sta p).fences
  let live (p : Pos) : List FenceRec := (all p).filter ((s.fs d).fenced p)
  let s1 := (s.fs d).order.foldl (fun t r => t.translate d r.seq) s
  ((s.fs d).order.foldl (fun t r => t.leave d (all r.pos) (live r.pos) r.seq) s1).dropFences d

theorem exec_requestDepart (s : State) (d : DieId) : exec (.requestDepart d) s = .next (s.departed d) := rfl

theorem departed_keepsMem (s : State) (d : DieId) : KeepsMem s (s.departed d) :=
  ((KeepsMem.foldl (fun t (r : FarReq) => translate_keepsMem d r.seq t) s _).trans
    (KeepsMem.foldl (fun t (r : FarReq) => leave_keepsMem d _ _ r.seq t) _ _)).trans (dropFences_keepsMem _ d)

-- ## Where no fence stands

theorem dropFences_none {s : State} {d : DieId} (h : ∀ p, ((s.die d).sta p).fences = []) : s.dropFences d = s := by
  have hall : (allPos.all fun p => ((s.die d).sta p).fences.isEmpty) = true := by simp [h]
  simp only [State.dropFences, hall, if_true]

/-- The requests of a die leave one after the other, with no fence to hold them. -/
def State.depart (s : State) (d : DieId) (l : List FarReq) : State :=
  l.foldl (fun t r => t.leave d [] [] r.seq) (l.foldl (fun t r => t.translate d r.seq) s)

theorem translate_die_frame (d : DieId) (q : Nat) (s : State) : ((s.translate d q).die d).bad = (s.die d).bad ∧
    ∀ p, (((s.translate d q).die d).sta p).fences = ((s.die d).sta p).fences := by
  have hleaf (r : FarReq) (e : TlbEntry) (a b : Nat) : ((s.bump.byLeaf d r e.level e.entry a b).die d).bad = (s.die d).bad ∧
      ∀ p, (((s.bump.byLeaf d r e.level e.entry a b).die d).sta p).fences = ((s.die d).sta p).fences := by
    refine ⟨byLeaf_bad s.bump d r e.level e.entry a b, fun p => ?_⟩
    obtain ⟨k, hk⟩ := byLeaf_sta s.bump d r e.level e.entry a b p
    rw [hk]
    rfl
  unfold State.translate
  dsimp only
  split
  · exact ⟨rfl, fun _ => rfl⟩
  · split
    · split
      · exact ⟨rfl, fun _ => rfl⟩
      · split
        · exact hleaf ..
        · exact ⟨rfl, fun _ => rfl⟩
    · exact ⟨rfl, fun _ => rfl⟩

theorem leave_sta (d : DieId) (all live : List FenceRec) (q : Nat) (s : State) (p : Pos) :
    ((s.leave d all live q).die d).sta p = (s.die d).sta p := by
  unfold State.leave
  dsimp only
  split
  · rfl
  · next r _ =>
    split
    · split
      · rfl
      · obtain ⟨x, hx, hsta⟩ := leavePath_frame s d r
        rw [setOut_die, die_setFs, hx, die_setDie]
        exact congrArg (fun v : Vector Station 128 => v.get p) hsta
    · split <;> rfl
    · rfl

theorem departed_of_no_fences {s : State} {d : DieId} (h : ∀ p, ((s.die d).sta p).fences = []) :
    s.departed d = s.depart d (s.fs d).order := by
  have hend (p : Pos) : (((s.depart d (s.fs d).order).die d).sta p).fences = [] := by
    have h1 : ∀ p, ((((s.fs d).order.foldl (fun t r => t.translate d r.seq) s).die d).sta p).fences = [] :=
      List.foldlRecOn (motive := fun t : State => ∀ p, ((t.die d).sta p).fences = []) _ _ h fun t ht r _ p =>
        ((translate_die_frame d r.seq t).2 p).trans (ht p)
    exact List.foldlRecOn (motive := fun t : State => ∀ p, ((t.die d).sta p).fences = []) _ _ h1 (fun t ht r _ p => by
      rw [leave_sta]
      exact ht p) p
  have hd : s.departed d = (s.depart d (s.fs d).order).dropFences d := by
    simp only [State.departed, State.depart, h, List.filter_nil]
  rw [hd, dropFences_none hend]

end Sys2Proof.Machine
end

section
namespace Sys2Proof.Machine

open Sys2Proof

-- ## The order in which the requests of a cycle leave (R330)

theorem rank_lt (x : FarSrc) : x.rank < 10 := by
  cases x with
  | fq q => exact Nat.lt_of_lt_of_le q.isLt (by decide)
  | path => decide
  | haul k g wr => exact (by decide : 9 < 10)
  | walk => decide

/-- Of two keys of a rising list each has a value. -/
theorem flatMap_two {α : Type} {i j : Nat} (a b : α) (hij : i < j) : ∀ {l : List Nat}, l.Pairwise (· < ·) → i ∈ l → j ∈ l →
    (l.flatMap fun k => if i = k then [a] else if j = k then [b] else []) = [a, b]
  | x :: t, hp, hi, hj => by
    obtain ⟨hx, ht⟩ := List.pairwise_cons.1 hp
    by_cases h : i = x
    · have hjt : j ∈ t := (List.mem_cons.1 hj).resolve_left fun k => Nat.ne_of_lt hij (h.trans k.symm)
      have hrest : (t.flatMap fun k => if i = k then [a] else if j = k then [b] else []) = t.flatMap fun k => if j = k then [b] else [] :=
        List.flatMap_congr fun k hk => if_neg fun e : i = k => Nat.ne_of_lt (hx k hk) (h.symm.trans e)
      rw [List.flatMap_cons, if_pos h, hrest, flatMap_single j b (ht.imp Nat.ne_of_lt) hjt]
      rfl
    · have hit : i ∈ t := (List.mem_cons.1 hi).resolve_left h
      have hjx : ¬j = x := fun k => Nat.lt_asymm hij (k ▸ hx i hit)
      rw [List.flatMap_cons, if_neg h, if_neg hjx, List.nil_append]
      exact flatMap_two a b hij ht hit ((List.mem_cons.1 hj).resolve_left hjx)

theorem order_single {f : FarSide} {r : FarReq} (h : f.reqs = [r]) : f.order = [r] := by
  have hk (k : Nat) : ([r].filter fun r => r.src.rank == k) = if r.src.rank = k then [r] else [] := by
    simp [List.filter_cons]
  simp only [FarSide.order, h, hk]
  exact flatMap_single _ r List.nodup_range (List.mem_range.2 (rank_lt r.src))

theorem order_two {f : FarSide} {a b : FarReq} (h : f.reqs = [a, b] ∨ f.reqs = [b, a]) (hr : a.src.rank < b.src.rank) : f.order = [a, b] := by
  have hk (k : Nat) : (f.reqs.filter fun r => r.src.rank == k) = if a.src.rank = k then [a] else if b.src.rank = k then [b] else [] := by
    by_cases ha : a.src.rank = k
    · have hb : ¬b.src.rank = k := by omega
      rcases h with h | h <;> simp [h, ha, hb]
    · rcases h with h | h <;> by_cases hb : b.src.rank = k <;> simp [h, ha, hb]
  simp only [FarSide.order, hk]
  exact flatMap_two a b hr List.pairwise_lt_range (List.mem_range.2 (rank_lt a.src)) (List.mem_range.2 (rank_lt b.src))

/-- A request does not stand ahead of itself, nor of one of a lower rank. -/
theorem not_ahead_self (r : FarReq) : r.ahead r = false := by
  unfold FarReq.ahead
  cases r.src <;> simp

theorem not_ahead_of_rank {a b : FarReq} (h : a.src.rank < b.src.rank) : b.ahead a = false := by
  unfold FarReq.ahead
  cases ha : a.src with
  | fq p =>
    cases hb : b.src with
    | fq q =>
      have hpq : q ≠ p := fun e => by
        rw [ha, hb, e] at h
        exact Nat.lt_irrefl _ h
      simp [hpq]
    | _ => simp
  | path =>
    cases hb : b.src with
    | path =>
      rw [ha, hb] at h
      exact absurd h (Nat.lt_irrefl _)
    | _ => simp
  | haul k g wr =>
    rw [ha] at h
    exact absurd (rank_lt b.src) (Nat.not_lt.2 h)
  | walk =>
    rw [ha] at h
    exact absurd (rank_lt b.src) (Nat.not_lt.2 h)

-- ## A request leaves (R87, R91, R103)

theorem leavePath_good {s : State} {d : DieId} (h : (s.die d).bad = []) (r : FarReq) : s.leavePath d r = (s, r) := by
  have hb : s.pathBad d r = [] := by
    unfold State.pathBad
    split
    · exact badIn_nil fun k _ => by rw [h]; exact List.not_mem_nil
    · rfl
  unfold State.leavePath
  simp only [hb, List.isEmpty_nil, if_true, poison]
  cases hop : r.op with
  | write v =>
    simp only
    rw [← hop]
  | _ => rfl

section Leave
variable {s : State} {d : DieId} {q : Nat} {r : FarReq} (hq : (s.fs d).reqs.find? (fun r => r.seq == q) = some r)
include hq

/-- A translated request that nothing stands ahead of sets out. -/
theorem leave_home {h : DieId} {dla t : Nat} (hp : r.phase = .home h dla t) (ht : t ≤ s.sidc) (hb : (s.die d).bad = [])
    (ha : ∀ a ∈ (s.fs d).reqs, a.ahead r = false) : s.leave d [] [] q =
      (s.setFs d { s.fs d with reqs := (s.fs d).reqs.filter fun r => r.seq != q }).setOut d h dla r := by
  have hahead : ((s.fs d).reqs.any fun a => a.ahead r) = false := by simpa using ha
  have hcross : (s.fs d).crosses [] h r = false := by simp [FarSide.crosses]
  simp only [State.leave, hq, hp, Nat.not_lt.2 ht, decide_false, hahead, heldBack, List.any_nil, hcross, Bool.or_false,
    Bool.false_eq_true, if_false, leavePath_good hb]

/-- A failed one is answered at its own die. -/
theorem leave_bad {c : Byte} {base : Nat} (hp : r.phase = .bad c base) (ha : ∀ a ∈ (s.fs d).reqs, a.ahead r = false) :
    s.leave d [] [] q = s.setFs d { s.fs d with
      reqs := (s.fs d).reqs.filter fun r => r.seq != q,
      flight := (s.fs d).flight ++ [{ r with phase := .dead c (max base (s.sidc + 2)) }] } := by
  have hahead : ((s.fs d).reqs.any fun a => a.ahead r && !a.translated) = false := by
    simp only [List.any_eq_false, Bool.and_eq_true, not_and]
    exact fun a hm h => absurd h (by rw [ha a hm]; exact Bool.false_ne_true)
  simp only [State.leave, hq, hp, hahead, Bool.false_eq_true, if_false]

/-- One that waits on a walk stays. -/
theorem leave_walk (hp : r.phase = .walk) (all live : List FenceRec) : s.leave d all live q = s := by
  simp only [State.leave, hq, hp]

end Leave

-- ## Translation (R84, R87)

section Translate
variable {s : State} {d : DieId} {q : Nat} {r : FarReq} (hq : (s.fs d).reqs.find? (fun r => r.seq == q) = some r)
include hq

/-- The cycle that an error response comes in at the earliest (R91). -/
def FarReq.errorBase (r : FarReq) (now : Nat) : Nat := max (r.issued + 4) (now + 2)

theorem translate_hit {t : Nat} {e : TlbEntry} (hp : r.phase = .pend t) (ht : t ≤ s.sidc) (ha : s.tlbAnswer d r.va = some e) :
    s.translate d q = s.bump.byLeaf d r e.level e.entry s.sidc (r.errorBase s.sidc) := by
  simp only [State.translate, hq, hp, if_neg (Nat.not_lt.2 ht), ha]
  rfl

theorem translate_noRoot {t : Nat} (hp : r.phase = .pend t) (ht : t ≤ s.sidc) (ha : s.tlbAnswer d r.va = none)
    (hr : (s.fs d).noRoot = true) : s.translate d q = s.bump.setFs d ((s.fs d).setPhase q (.bad 0xA3 (r.errorBase s.sidc))) := by
  simp only [State.translate, hq, hp, if_neg (Nat.not_lt.2 ht), ha, hr, if_true]
  rfl

theorem translate_miss {t : Nat} (hp : r.phase = .pend t) (ht : t ≤ s.sidc) (ha : s.tlbAnswer d r.va = none)
    (hr : (s.fs d).noRoot = false) : s.translate d q = s.bump.setFs d ((s.fs d).startWalk r t s.sidc) := by
  simp only [State.translate, hq, hp, if_neg (Nat.not_lt.2 ht), ha, hr, Bool.false_eq_true, if_false]

theorem translate_translated {h : DieId} {dla t : Nat} (hp : r.phase = .home h dla t) : s.translate d q = s := by
  simp only [State.translate, hq, hp]

end Translate

end Sys2Proof.Machine
end

section
namespace Sys2Proof.Machine

open Sys2Proof

-- ## One request at its die (R84, R87)

theorem setPhase_single {f : FarSide} {r : FarReq} (h : f.reqs = [r]) (p : FarPhase) :
    f.setPhase r.seq p = { f with reqs := [{ r with phase := p }] } := by
  simp only [FarSide.setPhase, h, List.map_cons, List.map_nil, if_true]

theorem find_single {l : List FarReq} {r : FarReq} {q : Nat} (h : l = [r]) (hq : r.seq = q) : l.find? (fun r => r.seq == q) = some r := by
  simp [h, hq]

/-- A failed request that is alone, once it is answered. -/
def FarSide.failed (f : FarSide) (r : FarReq) (c : Byte) (base : Nat) : FarSide :=
  { f with reqs := [], flight := f.flight ++ [{ r with phase := .dead c base }] }

section Alone
variable {t : State} {d : DieId} {f : FarSide} {r : FarReq} {q : Nat} (hf : t.fs d = { f with reqs := [r] })
include hf

theorem nothing_ahead_alone : ∀ a ∈ (t.fs d).reqs, a.ahead r = false := by
  rw [hf]
  intro a ha
  rw [List.mem_singleton.1 ha, not_ahead_self]

variable (hq : r.seq = q)
include hq

/-- A translated request that is alone sets out. -/
theorem leave_home_alone {h : DieId} {dla n : Nat} (hp : r.phase = .home h dla n) (hn : n ≤ t.sidc) (hb : (t.die d).bad = []) :
    t.leave d [] [] q = (t.setFs d { f with reqs := [] }).setOut d h dla r := by
  rw [leave_home (find_single (by rw [hf]) hq) hp hn hb (nothing_ahead_alone hf), hf]
  simp [hq]

/-- A failed one is answered. -/
theorem leave_bad_alone {c : Byte} {base : Nat} (hp : r.phase = .bad c base) (hb : t.sidc + 2 ≤ base) :
    t.leave d [] [] q = t.setFs d (f.failed r c base) := by
  rw [leave_bad (find_single (by rw [hf]) hq) hp (nothing_ahead_alone hf), Nat.max_eq_left hb, hf]
  simp [hq, FarSide.failed]

end Alone

section Waits
variable {s : State} {d : DieId} {r : FarReq} {t0 : Nat} (hr : (s.fs d).reqs = [r]) (hp : r.phase = .pend t0) (ht : t0 ≤ s.sidc)
  (hfence : ∀ p, ((s.die d).sta p).fences = [])

include hr hfence in
theorem departed_single : s.departed d = (s.translate d r.seq).leave d [] [] r.seq := by
  rw [departed_of_no_fences hfence, order_single hr]
  rfl

include hr hp ht hfence

/-- A hit with the permission: the home is counted, and the request sets out. -/
theorem departed_hit {e : TlbEntry} {h : DieId} {dla : Nat} (hb : (s.die d).bad = []) (ha : s.tlbAnswer d r.va = some e)
    (hl : leafTo (s.fs d).regions r.op e.level e.entry r.va = .ok (h, dla)) :
    s.departed d = ((s.bump.byLeaf d r e.level e.entry s.sidc (r.errorBase s.sidc)).setFs d { s.fs d with reqs := [] }).setOut d h dla
      { r with phase := .home h dla s.sidc } := by
  obtain ⟨-, -, hsidc⟩ := byLeaf_frame s.bump d r e.level e.entry s.sidc (r.errorBase s.sidc)
  have hfs := byLeaf_fs s.bump d r e.level e.entry s.sidc (r.errorBase s.sidc)
  rw [bump_fs, setPhase_single hr] at hfs
  have hphase : r.afterLeaf (s.fs d).regions e.level e.entry s.sidc (r.errorBase s.sidc) = .home h dla s.sidc := by
    simp only [FarReq.afterLeaf, hl]
  rw [hphase] at hfs
  rw [departed_single hr hfence, translate_hit (find_single hr rfl) hp ht ha]
  exact leave_home_alone hfs rfl rfl (Nat.le_of_eq hsidc.symm) ((byLeaf_bad ..).trans hb)

theorem departed_hit_counts {e : TlbEntry} {h : DieId} {dla : Nat} (hb : (s.die d).bad = []) (ha : s.tlbAnswer d r.va = some e)
    (hl : leafTo (s.fs d).regions r.op e.level e.entry r.va = .ok (h, dla)) :
    (((s.departed d).die d).sta r.pos).locreq = ((s.die d).sta r.pos).locreq + (if h = d then 1 else 0) ∧
    (((s.departed d).die d).sta r.pos).remreq = ((s.die d).sta r.pos).remreq + (if h = d then 0 else 1) := by
  obtain ⟨q, hq⟩ := byLeaf_sta s.bump d r e.level e.entry s.sidc (r.errorBase s.sidc) r.pos
  rw [departed_hit hr hp ht hfence hb ha hl, setOut_die, die_setFs, hq]
  have hown (own : Bool) : r.homeOwn (s.fs d).regions e.level e.entry d own = ((h == d) == own) := by simp only [FarReq.homeOwn, hl]
  simp only [bump_fs, bump_die, hown]
  by_cases hd : h = d <;> simp [hd]

/-- It is on its way to its home, toward another die by the link's queue. -/
theorem departed_hit_sent {e : TlbEntry} {h : DieId} {dla : Nat} (hb : (s.die d).bad = []) (ha : s.tlbAnswer d r.va = some e)
    (hl : leafTo (s.fs d).regions r.op e.level e.entry r.va = .ok (h, dla)) :
    (s.departed d).fs d = { s.fs d with reqs := [], flight := (s.fs d).flight ++ [r.sentTo d h dla s.sidc] } ∧
    (h ≠ d → ((s.departed d).way d h).pkts = (s.way d h).pkts ++
      [{ of := .req d r.seq, cls := if r.ofHaul && r.isWrite then 2 else 0, beats := (r.sentSize + 127) / 128, from_ := s.sidc,
         floor := 0 }]) := by
  have hleaf := byLeaf_ok s.bump d r e.level e.entry s.sidc (r.errorBase s.sidc) hl
  rw [departed_hit hr hp ht hfence hb ha hl, hleaf]
  constructor
  · rw [setOut_fs, if_pos rfl, fs_setFs]
    rfl
  · intro hd
    rw [setOut_pkts _ _ _ _ _ hd]
    rfl

/-- A hit without it: the request fails at its own die. -/
theorem departed_hit_error {e : TlbEntry} {c : Byte} (ha : s.tlbAnswer d r.va = some e)
    (hl : leafTo (s.fs d).regions r.op e.level e.entry r.va = .error c) :
    (s.departed d).fs d = (s.fs d).failed r c (r.errorBase s.sidc) := by
  have hleaf := byLeaf_error s.bump d r e.level e.entry s.sidc (r.errorBase s.sidc) hl
  rw [departed_single hr hfence, translate_hit (find_single hr rfl) hp ht ha, hleaf, bump_fs, setPhase_single hr,
    leave_bad_alone (fs_setFs ..) rfl rfl (Nat.le_max_right ..), fs_setFs]
  rfl

/-- A miss with no valid root. -/
theorem departed_noRoot (ha : s.tlbAnswer d r.va = none) (hroot : (s.fs d).noRoot = true) :
    (s.departed d).fs d = (s.fs d).failed r 0xA3 (r.errorBase s.sidc) := by
  rw [departed_single hr hfence, translate_noRoot (find_single hr rfl) hp ht ha hroot, setPhase_single hr,
    leave_bad_alone (fs_setFs ..) rfl rfl (Nat.le_max_right ..), fs_setFs]
  rfl

/-- The walk that a miss starts, of its page from the root. -/
def FarReq.rootWalk (r : FarReq) (root : W64) (from_ now : Nat) : Walk :=
  { va := r.va, pos := r.pos, began := now, level := 0, home := Fin.ofNat 4 ((fld root 5 3).toNat - 4),
    dla := (fld root 16 21).toNat * 2 ^ 16 + 8 * levelIdx r.va 0, read := .send (max (from_ + 2) now) }

/-- A miss with one starts a walk. -/
theorem departed_miss (ha : s.tlbAnswer d r.va = none) (hroot : (s.fs d).noRoot = false) (hw : (s.fs d).walks = []) :
    (s.departed d).fs d = { s.fs d with reqs := [{ r with phase := .walk }], walks := [r.rootWalk (s.fs d).xroot t0 s.sidc] } := by
  have hstart : (s.fs d).startWalk r t0 s.sidc =
      { s.fs d with reqs := [{ r with phase := .walk }], walks := [r.rootWalk (s.fs d).xroot t0 s.sidc] } := by
    have hempty : ((s.fs d).walks.any fun w => w.va / 2 ^ 16 == r.va / 2 ^ 16) = false := by rw [hw, List.any_nil]
    have hlen : (s.fs d).walks.length < 32 := by
      rw [hw]
      exact Nat.zero_lt_succ _
    rw [FarSide.startWalk, hempty, if_neg Bool.false_ne_true, if_pos hlen, setPhase_single hr, hw]
    rfl
  rw [departed_single hr hfence, translate_miss (find_single hr rfl) hp ht ha hroot, hstart,
    leave_walk (r := { r with phase := .walk }) (find_single (by rw [fs_setFs]) rfl) rfl, fs_setFs]

end Waits

theorem tlbHit_of_answer {s : State} {d : DieId} {va : Nat} {e : TlbEntry} (h : s.tlbAnswer d va = some e) : (s.fs d).tlbHit va = some e := by
  unfold State.tlbAnswer at h
  split at h
  · exact h
  · cases h

/-- An access whose permission the entry lacks. -/
theorem leafTo_lacks {op : FarOp} {e : W64} (h : op.lacks e = true) (regions : KMap Region) (level va : Nat) :
    leafTo regions op level e va = .error 0xA1 := by
  rw [leafTo, if_pos h]
  rfl

theorem leafTo_permissions (regions : KMap Region) (e : W64) (level va : Nat) :
    (¬ e.getLsbD 2 = true → leafTo regions .read level e va = .error 0xA1) ∧
    (∀ v, ¬ e.getLsbD 3 = true → leafTo regions (.write v) level e va = .error 0xA1) ∧
    (∀ op ret y c, ¬ (e.getLsbD 2 = true ∧ e.getLsbD 3 = true ∧ e.getLsbD 4 = true) →
      leafTo regions (.amo op ret y c) level e va = .error 0xA1) := by
  refine ⟨fun h => leafTo_lacks ?_ .., fun v h => leafTo_lacks ?_ .., fun op ret y c h => leafTo_lacks ?_ ..⟩
  · simpa [FarOp.lacks, bit] using h
  · simpa [FarOp.lacks, bit] using h
  · simpa [FarOp.lacks, bit, imp_iff_not_or, or_assoc] using h

-- ## Two requests that may leave (R330)

/-- Far queues stand before the store path, and that before hauls. -/
theorem rank_eq (x : FarSrc) : x.rank = match x with | .fq q => q.toNat | .path => 8 | _ => 9 := by
  cases x <;> rfl

/-- The one of the lower rank sets out first, and both are in flight. -/
theorem departed_two {s : State} {d ha hb : DieId} {a b : FarReq} {da ta db tb : Nat} (hr : (s.fs d).reqs = [a, b] ∨ (s.fs d).reqs = [b, a])
    (hpa : a.phase = .home ha da ta) (hpb : b.phase = .home hb db tb) (hta : ta ≤ s.sidc) (htb : tb ≤ s.sidc) (hseq : a.seq ≠ b.seq)
    (hbad : (s.die d).bad = []) (hfence : ∀ p, ((s.die d).sta p).fences = []) (hrank : a.src.rank < b.src.rank) :
    ((s.departed d).fs d).reqs = [] ∧
    ((s.departed d).fs d).flight = (s.fs d).flight ++ [a.sentTo d ha da s.sidc, b.sentTo d hb db s.sidc] := by
  have hfa : (s.fs d).reqs.find? (fun r => r.seq == a.seq) = some a := by
    rcases hr with hr | hr <;> simp [hr, hseq.symm]
  have hfb : (s.fs d).reqs.find? (fun r => r.seq == b.seq) = some b := by
    rcases hr with hr | hr <;> simp [hr, hseq]
  have hrest : (s.fs d).reqs.filter (fun r => r.seq != a.seq) = [b] := by
    rcases hr with hr | hr <;> simp [hr, hseq.symm]
  have hmem : ∀ r ∈ (s.fs d).reqs, r.ahead a = false := by
    have hall : ∀ r, r = a ∨ r = b → r.ahead a = false := by
      rintro r (rfl | rfl)
      · exact not_ahead_self r
      · exact not_ahead_of_rank hrank
    rcases hr with hr | hr <;> simpa [hr, or_comm] using hall
  have hfirst := leave_home hfa hpa hta hbad hmem
  rw [hrest] at hfirst
  obtain ⟨-, -, -, hsidc⟩ := setOut_frame (s.setFs d { s.fs d with reqs := [b] }) d ha da a
  have hfs := setOut_fs (s.setFs d { s.fs d with reqs := [b] }) d ha da a d
  have hdie := setOut_die (s.setFs d { s.fs d with reqs := [b] }) d ha da a d
  rw [if_pos rfl, fs_setFs] at hfs
  have hall : s.departed d = (s.leave d [] [] a.seq).leave d [] [] b.seq := by
    rw [departed_of_no_fences hfence, order_two hr hrank]
    simp only [State.depart, List.foldl_cons, List.foldl_nil, translate_translated hfa hpa, translate_translated hfb hpb]
  rw [hall, hfirst, leave_home_alone (f := { s.fs d with flight := (s.fs d).flight ++ [a.sentTo d ha da s.sidc] }) hfs rfl hpb
    (Nat.le_trans htb (Nat.le_of_eq hsidc.symm)) ((congrArg Die.bad hdie).trans hbad), setOut_fs, if_pos rfl, fs_setFs]
  refine ⟨rfl, ?_⟩
  change _ ++ [_] ++ [FarReq.sentTo b d hb db (State.sidc _)] = _
  rw [setFs_sidc, hsidc, List.append_assoc]
  rfl

end Sys2Proof.Machine
end

section
namespace Sys2Proof.Machine

open Sys2Proof

-- ## Every event of the wheel completes (R222, R224)

theorem exec_wheelMarkSend_completes (s : State) (d : DieId) : ∃ t, exec (.wheelMarkSend d) s = .next t ∧ SameMemory s t := by
  by_cases h : s.sidc % 16 = 0
  · obtain ⟨⟨-, hmem⟩, -⟩ := marksTo_spec d ((s.fs d).markStamp s.sidc) s.sidc (teamDies_nodup s d) s
    exact ⟨_, exec_wheelMarkSend_due d h, KeepsMem.sameMemory hmem⟩
  · exact ⟨s, exec_wheelMarkSend_not_due d h, (KeepsMem.refl s).sameMemory⟩

theorem exec_wheelMarkArrive_completes (s : State) (h : DieId) : ∃ t, exec (.wheelMarkArrive h) s = .next t ∧ SameMemory s t :=
  ⟨_, rfl, (KeepsMem.foldl (fun t m => markStep_memory t h m) s _).sameMemory⟩

theorem exec_amoscPerform (s : State) (h : DieId) : exec (.amoscPerform h) s = .next (amoscs h (s.fs h).here.length s) := rfl

/-- What a home has of a mark that has arrived (R224). -/
theorem markIn_arrived {s : State} {h : DieId} {m : Mark} (hm : (s.fs h).marksIn = [m]) :
    OnlyFar h { s with ctr := (s.markIn h m).ctr } (s.markIn h m) ∧ ((s.markIn h m).fs h).marksIn = [] := by
  have hfs : (s.markIn h m).fs h = { s.fs h with
      marks := kput 0 m.from_.val (max (m.stamp + 1) (kget 0 m.from_.val (s.fs h).marks)) (s.fs h).marks, marksIn := [] } := by
    rw [State.markIn, bump_fs, fs_setFs, hm, List.erase_cons_head]
  refine ⟨?_, by rw [hfs]⟩
  rw [OnlyFar, hfs, State.markIn, hm, List.erase_cons_head]
  rfl

/-- The AMOSC that is applied waits for its response, and memory has its word. -/
theorem amosc_performed {s : State} {d h : DieId} {r : FarReq} (dla lo by_ : Nat) (hh : (s.fs h).here = [(d, r.seq)])
    (hf : (s.fs d).flight = [r]) (hr : r.op ≠ .read) :
    let p := performFar s.mem (s.fs h) h dla r
    (s.perform d h r dla lo by_).mem = p.1 ∧ ((s.perform d h r dla lo by_).fs h).here = [] ∧
    ∃ at_, ((s.perform d h r dla lo by_).fs d).flight = [{ r with phase := .back h p.2.1 p.2.2 at_ }] := by
  refine ⟨(perform_frame ..).1, ?_, if d = h then some (s.answerAt d h lo by_) else none, ?_⟩
  · rw [(perform_home ..).1, hh, List.erase_cons_head]
  · rw [perform_flight_single _ _ _ _ _ _ _ hf, answered_of_not_read s d h dla lo by_ hr]

end Sys2Proof.Machine
end

section
open Sys2Proof Sys2Proof.Machine

/-- Settles O33: the order of departures gives the requests one after the other, each translated and then sent out, failed or left on a
walk; a mark goes to each die of the team once; and the waiting AMOSC of the least stamp is the one whose turn it is. -/
theorem requestsLeaveInWheelOrder : Obligations.RequestsLeaveInWheelOrder := by
  unfold Obligations.RequestsLeaveInWheelOrder
  refine ⟨fun s d => ?_, fun s d r t0 base hr hp ht hbase hbad hfence => ?_, ?_, ⟨?_, ?_, ?_⟩, ?_, ?_⟩
  · exact ⟨⟨_, exec_requestDepart s d, (departed_keepsMem s d).sameMemory⟩, exec_wheelMarkSend_completes s d,
      exec_wheelMarkArrive_completes s d, _, exec_amoscPerform s d, amoscs_dies d _ s⟩
  · subst hbase
    refine ⟨_, exec_requestDepart s d, (departed_keepsMem s d).sameMemory, fun e => tlbHit_of_answer, fun e h dla ha hl => ?_,
      fun e c ha hl => ?_, fun ha hroot => ?_, fun ha hroot hw => ?_, fun e level => leafTo_permissions _ e level _⟩
    · obtain ⟨hfs, hpkts⟩ := departed_hit_sent hr hp ht hfence hbad ha hl
      rw [hfs]
      exact ⟨rfl, rfl, hpkts, departed_hit_counts hr hp ht hfence hbad ha hl⟩
    · rw [departed_hit_error hr hp ht hfence ha hl]
      exact ⟨rfl, rfl⟩
    · rw [departed_noRoot hr hp ht hfence ha hroot]
      exact ⟨rfl, rfl⟩
    · rw [departed_miss hr hp ht hfence ha hroot hw]
      exact ⟨rfl, _, rfl, rfl, rfl, by simp only [FarReq.rootWalk, toNat_fld, levelIdx], rfl⟩
  · intro s d ha hb a b da ta db tb hr hpa hpb hta htb hseq hbad hfence hrank
    exact ⟨_, exec_requestDepart s d, (departed_keepsMem s d).sameMemory, departed_two hr hpa hpb hta htb hseq hbad hfence (by rwa [rank_eq, rank_eq])⟩
  · exact fun s d h => exec_wheelMarkSend_not_due d h
  · intro s d h
    obtain ⟨hle, hex, hall⟩ := markStamp_spec (s.fs d) s.sidc
    obtain ⟨⟨hdies, hmem⟩, -, hto⟩ := marksTo_spec d ((s.fs d).markStamp s.sidc) s.sidc (teamDies_nodup s d) s
    exact ⟨_, _, exec_wheelMarkSend_due d h, KeepsMem.sameMemory hmem, hdies, hle, hex, hall, hto⟩
  · intro s h m held hm hheld here
    rw [exec_wheelMarkArrive_single hm]
    have hiff : held ↔ s.markHeld h m = true := by rw [markHeld_iff, hheld]
    refine ⟨fun k => by rw [markStep_held (hiff.1 k)], fun k => ⟨_, rfl, ?_⟩⟩
    rcases markStep_free (Bool.eq_false_iff.2 (mt hiff.2 k)) with ht | ht
    · rw [ht]
      obtain ⟨honly, hnone⟩ := markIn_arrived hm
      exact .inl ⟨honly, hnone, markIn_marks⟩
    · exact .inr ht
  · intro s d h r dla lo by_ cost p hh hf hsc hp hperf hhost
    subst hperf
    obtain ⟨hwait, hturn⟩ := amosc_single hh hf hsc hp hhost
    have hlen : (s.fs h).here.length = 1 := by rw [hh]; rfl
    refine ⟨fun hm => by rw [exec_amoscPerform, hlen, hwait hm], fun hm ht => ⟨_, exec_amoscPerform s h, amoscs_dies h _ s, ?_⟩⟩
    rw [hlen]
    rcases hturn hm ht with h1 | h1
    · rw [h1]
      exact .inr (amosc_performed (s := s.bump) dla lo by_ hh hf (not_read_of_amosc hsc))
    · exact .inl h1
  · intro s d e h x y dx lx bx cx dy ly by_ cy px py hh hfx hfy hne hsx hsy hst hpx hpy ht hhost hperfx hperfy
    subst hperfx hperfy
    obtain ⟨hwait, hturn⟩ := amosc_two hh hfx hfy hne hsx hsy hst hpx hpy ht hhost
    have hlen : (s.fs h).here.length = 2 := by rcases hh with hh | hh <;> rw [hh] <;> rfl
    refine ⟨fun hm => by rw [exec_amoscPerform, hlen, hwait hm], fun hm => ⟨_, exec_amoscPerform s h, amoscs_dies h _ s, ?_⟩⟩
    rw [hlen]
    exact hturn hm

end

section
namespace Sys2Proof.Machine

open Sys2Proof

-- ## Bit fields as numbers

theorem fld_eq_zero_iff {w : Nat} (x : BitVec w) (lo n : Nat) : fld x lo n = 0 ↔ x.toNat / 2 ^ lo % 2 ^ n = 0 := by
  rw [BitVec.toNat_eq, toNat_fld]
  rfl

theorem fld_eq_ofNat {w : Nat} (x : BitVec w) (lo n : Nat) : fld x lo n = BitVec.ofNat n (x.toNat / 2 ^ lo) := by
  rw [BitVec.toNat_eq, toNat_fld, BitVec.toNat_ofNat]

-- ## A word that raises a cause (R288)

theorem raises_of_exec {i : Instr} {s : State} {c : Cause} (h : exec i s = raise s c) : Raises i s c (causeSub c) := by
  rw [Raises, h]
  exact raise_trapped s c

-- ## Accesses follow one another (R114)

section Accesses
variable {s t u : State} {l l' : List PortA} {lj lj' : List LoadJob} {sj sj' : List StoreJob}

theorem Accesses.focus (h : Accesses s t l lj sj) : t.focus = s.focus := congrArg (·.focus) h.others

theorem Accesses.cyc (h : Accesses s t l lj sj) : t.cyc = s.cyc := by
  have hd : (t.updDie (Die.noPorts s.focus.pos)).curDie.dcyc = (s.updDie (Die.noPorts s.focus.pos)).curDie.dcyc := by rw [h.others]
  have hsid : t.sidc = s.sidc := congrArg (·.sidc) h.others
  rw [curDie_updDie, curDie_updDie] at hd
  simp only [State.cyc, h.focus, hsid]
  exact congrArg (if s.focus.handler then s.sidc else ·) hd

/-- An access of the issuing word is the same before and after others. -/
theorem Accesses.access (h : Accesses s t l lj sj) : t.access = s.access := by
  funext at_ pos bank row wr k
  simp only [State.access, h.focus, h.cyc]

theorem Accesses.refl (s : State) : Accesses s s [] [] [] :=
  ⟨rfl, (List.append_nil _).symm, (List.append_nil _).symm, (List.append_nil _).symm⟩

theorem Accesses.trans (h : Accesses s t l lj sj) (k : Accesses t u l' lj' sj') :
    Accesses s u (l ++ l') (lj ++ lj') (sj ++ sj') where
  others := by rw [← h.others, ← h.focus, k.others]
  ports := by rw [k.ports, h.ports, List.append_assoc]
  loads := by rw [k.loads, h.loads, List.append_assoc]
  stores := by rw [k.stores, h.stores, List.append_assoc]

end Accesses

theorem portA_accesses (s : State) (at_ : Nat) (pos : Pos) (bank : BitVec 3) (row : Nat) (wr : Bool) (k : PKind) :
    Accesses s (s.portA at_ pos bank row wr false k) [s.access at_ pos bank row wr k] [] [] where
  others := by rw [State.portA, updDie_updDie]; rfl
  ports := by rw [State.portA, curDie_updDie]; rfl
  loads := by rw [State.portA, curSta_updDie, List.append_nil]; rfl
  stores := by rw [State.portA, curSta_updDie, List.append_nil]; rfl

/-- One access for each number of a list. -/
theorem foldl_portA_accesses (at_ row : Nat → Nat) (pos : Pos) (bank : BitVec 3) (wr : Bool) (k : Nat → PKind) :
    ∀ (l : List Nat) (s : State),
      Accesses s (l.foldl (fun t i => t.portA (at_ i) pos bank (row i) wr false (k i)) s)
        (l.map fun i => s.access (at_ i) pos bank (row i) wr (k i)) [] []
  | [], s => Accesses.refl s
  | i :: l, s => by
    have h := portA_accesses s (at_ i) pos bank (row i) wr (k i)
    have hl := foldl_portA_accesses at_ row pos bank wr k l (s.portA (at_ i) pos bank (row i) wr false (k i))
    rw [h.access] at hl
    exact h.trans hl

theorem cyc_portA (s : State) (at_ : Nat) (pos : Pos) (bank : BitVec 3) (row : Nat) (wr : Bool) (k : PKind) :
    (s.portA at_ pos bank row wr false k).cyc = s.cyc := (portA_accesses ..).cyc

/-- The issue cycle that each of several accesses counts from is the one before them. -/
theorem foldl_portA_cyc (at_ : Nat → Nat → Nat) (row : Nat → Nat) (pos : Pos) (bank : BitVec 3) (wr : Bool) (k : Nat → Nat → PKind) :
    ∀ (l : List Nat) (s : State),
      l.foldl (fun t i => t.portA (at_ t.cyc i) pos bank (row i) wr false (k t.cyc i)) s =
        l.foldl (fun t i => t.portA (at_ s.cyc i) pos bank (row i) wr false (k s.cyc i)) s
  | [], _ => rfl
  | i :: l, s => by
    rw [List.foldl_cons, List.foldl_cons, foldl_portA_cyc at_ row pos bank wr k l, cyc_portA]

/-- A store in progress of the issuing word. -/
def State.storeJob (s : State) (ph : BitVec 5) (vrow n : Nat) (p : RowPlan) : StoreJob :=
  { parcel := s.focus.parcel, issued := s.cyc, phys := ph, vrow := vrow, nr := n, raw := p.raw, epr := p.epr, fmt := p.fmt,
    bank := p.bank, row := p.row, got := [] }

theorem addStore_accesses (s : State) (ph : BitVec 5) (vrow n : Nat) (p : RowPlan) :
    Accesses s (s.addStore ph vrow n p) [] [] [s.storeJob ph vrow n p] where
  others := by
    rw [State.addStore, updSta_eq, updDie_updDie]
    simp only [Die.noPorts, setSta_setSta, sta_setSta]
    rfl
  ports := by rw [State.addStore, curDie_updSta, List.append_nil]; rfl
  loads := by rw [State.addStore, curSta_updSta, List.append_nil]
  stores := by rw [State.addStore, curSta_updSta]; rfl

-- ## ALD and AST (R138, R140)

theorem wordEaBad_iff (ea : W64) : wordEaBad ea = true ↔ ea.toNat % 8 ≠ 0 ∨ 2 ^ 18 ≤ ea.toNat := by
  have hhi := fld_eq_zero_iff ea 18 46
  have hlo := fld_eq_zero_iff ea 0 3
  simp only [wordEaBad, Bool.or_eq_true, bne_iff_ne, ne_eq, hhi, hlo]
  omega

theorem wordEaBad_false {ea : W64} (h8 : ea.toNat % 8 = 0) (h18 : ea.toNat < 2 ^ 18) : wordEaBad ea = false := by
  rw [Bool.eq_false_iff, Ne, wordEaBad_iff]
  omega

section WordAccess
variable {s : State} {a : Scal} {imm : W32}

theorem exec_ald (d : BitVec 6) (h : wordEaBad (s.ea a imm) = false) : exec (.ald d a imm) s =
    .next (s.portA s.cyc s.focus.pos (BitVec.ofNat 3 ((s.ea a imm).toNat / 2 ^ 15)) ((s.ea a imm).toNat / 2 ^ 8 % 128) false false
      (.ald d ((s.ea a imm).toNat % 256))) := by
  simp only [exec, execAld, h, Bool.false_eq_true, if_false, fld_eq_ofNat _ 15, toNat_fld, pow_zero, Nat.div_one]
  rfl

theorem exec_ast (b : Scal) (h : wordEaBad (s.ea a imm) = false) : exec (.ast a b imm) s =
    .next (s.portA (s.cyc + 1) s.focus.pos (BitVec.ofNat 3 ((s.ea a imm).toNat / 2 ^ 15)) ((s.ea a imm).toNat / 2 ^ 8 % 128) true false
      (.ast ((s.ea a imm).toNat % 256) (s.scal b))) := by
  simp only [exec, execAst, h, Bool.false_eq_true, if_false, fld_eq_ofNat _ 15, toNat_fld, pow_zero, Nat.div_one]
  rfl

theorem exec_ald_bankRange (d : BitVec 6) (h : wordEaBad (s.ea a imm) = true) : Raises (.ald d a imm) s .bankRange 0 :=
  raises_of_exec (if_pos h)

theorem exec_ast_bankRange (b : Scal) (h : wordEaBad (s.ea a imm) = true) : Raises (.ast a b imm) s .bankRange 0 :=
  raises_of_exec (if_pos h)

end WordAccess

-- ## RLD and RST (R105, R125)

/-- The check of R125 that the rows of a remote word fit its register and its bank. -/
theorem remoteRows_fit {row vrow n : Nat} (hr : row + n ≤ 128) (hv : vrow + n ≤ 16) :
    (decide (row + n > 128) || decide (vrow + n > 16)) = false := by
  simp [hr, hv]

theorem remoteRows_beyond {row vrow n : Nat} (h : 128 < row + n ∨ 16 < vrow + n) :
    (decide (row + n > 128) || decide (vrow + n > 16)) = true := by
  simpa using h

section RemoteWords
variable {s : State} {nr vrow : BitVec 4} {v ph : BitVec 5} {a : Scal} {q : Pos} {bank : BitVec 3} {row : Nat}
variable (hv : physOf s.curSta.rotd v = some ph)
include hv

theorem exec_rld_accesses (hb : bankForm (s.scal a) = some (q, bank, row)) (hr : row + (nr.toNat + 1) ≤ 128)
    (hw : vrow.toNat + (nr.toNat + 1) ≤ 16) : ∃ t, exec (.rld nr v a vrow) s = .next t ∧
      Accesses s t ((List.range (nr.toNat + 1)).map fun i =>
        s.access (s.cyc + pathHops s.focus.pos q + 1 + i) q bank (row + i) false
          (.rld ph (v.setWidth 8) (vrow + BitVec.ofNat 4 i) (s.cyc + 2 * pathHops s.focus.pos q + 4 + i))) [] [] := by
  simp only [exec, execRld, vphys_of_live hv, hb, remoteRows_fit hr hw, Bool.false_eq_true, if_false]
  refine ⟨_, rfl, ?_⟩
  rw [foldl_portA_cyc (fun c i => c + pathHops s.focus.pos q + 1 + i) (row + ·) q bank false
    fun c i => .rld ph (v.setWidth 8) (vrow + BitVec.ofNat 4 i) (c + 2 * pathHops s.focus.pos q + 4 + i)]
  exact foldl_portA_accesses ..

theorem exec_rst_accesses (hb : bankForm (s.scal a) = some (q, bank, row)) (hr : row + (nr.toNat + 1) ≤ 128)
    (hw : vrow.toNat + (nr.toNat + 1) ≤ 16) : ∃ t, exec (.rst nr a v vrow) s = .next t ∧
      Accesses s t ((List.range (nr.toNat + 1)).map fun i =>
        s.access (s.cyc + pathHops s.focus.pos q + 1 + i) q bank (row + i) true (.rst i)) []
        [s.storeJob ph vrow.toNat (nr.toNat + 1)
          { bank := bank, row := row, fmt := {}, raw := true, epr := 64, rows := nr.toNat + 1, ok := true }] := by
  have hs := addStore_accesses s ph vrow.toNat (nr.toNat + 1)
    { bank := bank, row := row, fmt := {}, raw := true, epr := 64, rows := nr.toNat + 1, ok := true }
  simp only [exec, execRst, vphys_of_live hv, hb, remoteRows_fit hr hw, Bool.false_eq_true, if_false]
  refine ⟨_, rfl, ?_⟩
  rw [foldl_portA_cyc (fun c i => c + pathHops s.focus.pos q + 1 + i) (row + ·) q bank true fun _ i => .rst i, hs.cyc, ← hs.access]
  exact hs.trans (foldl_portA_accesses ..)

/-- An address that is no bank's, and rows out of range, raise BANK_RANGE. -/
theorem exec_remote_bankRange (h : ∀ r ∈ bankForm (s.scal a), 128 < r.2.2 + (nr.toNat + 1) ∨ 16 < vrow.toNat + (nr.toNat + 1)) :
    Raises (.rld nr v a vrow) s .bankRange 0 ∧ Raises (.rst nr a v vrow) s .bankRange 0 := by
  cases hb : bankForm (s.scal a) with
  | none =>
    exact ⟨raises_of_exec (by simp only [exec, execRld, vphys_of_live hv, hb]),
      raises_of_exec (by simp only [exec, execRst, vphys_of_live hv, hb])⟩
  | some r =>
    have hbad := remoteRows_beyond (h r hb)
    exact ⟨raises_of_exec (by simp only [exec, execRld, vphys_of_live hv, hb, hbad, if_true]),
      raises_of_exec (by simp only [exec, execRst, vphys_of_live hv, hb, hbad, if_true])⟩

end RemoteWords

end Sys2Proof.Machine
end

section
open Sys2Proof Sys2Proof.Machine

/-- Settles O19: ALD and AST by `wordEaBad_iff`, RLD and RST by the accesses they start one after the other. -/
theorem wordAndRemoteAccess : Obligations.WordAndRemoteAccess := by
  unfold Obligations.WordAndRemoteAccess
  rintro s d a b imm ea nr vrow v ph n rfl rfl
  refine ⟨fun h8 h18 => ?_, fun h => ?_, fun hv => ⟨fun q bank row h hb hr hw hh => ?_, exec_remote_bankRange hv⟩⟩
  · have hea : wordEaBad (s.ea a imm) = false := wordEaBad_false h8 h18
    exact ⟨⟨_, exec_ald d hea, portA_accesses ..⟩, ⟨_, exec_ast b hea, portA_accesses ..⟩⟩
  · have hea : wordEaBad (s.ea a imm) = true := (wordEaBad_iff _).2 h
    exact ⟨exec_ald_bankRange d hea, exec_ast_bankRange b hea⟩
  · subst hh
    exact ⟨exec_rld_accesses hv hb hr hw, exec_rst_accesses hv hb hr hw⟩

end

section
namespace Sys2Proof.Machine

open Sys2Proof

-- ## Requests of the issuing word (R100, R101, R103)

theorem setFs_setFs (s : State) (d : DieId) (f g : FarSide) : (s.setFs d f).setFs d g = s.setFs d g := by
  simp only [State.setFs, four_set_set]

theorem updSta_setFs (s : State) (d : DieId) (f : FarSide) (g : Station → Station) :
    (s.setFs d f).updSta g = (s.updSta g).setFs d f := rfl

theorem noRequests_setFs (s : State) (f : FarSide) : (s.setFs s.focus.die f).noRequests =
    (s.updSta fun x => { x with fq := [] }).setFs s.focus.die { f with reqs := [], seq := 0 } := by
  rw [State.noRequests, setFs_focus, fs_setFs, updSta_setFs, setFs_setFs]

theorem addReq_requests (s : State) (r : FarReq) : Requests s (s.addReq r) r none where
  others := noRequests_setFs ..
  requests := by rw [State.addReq, fs_setFs]
  numbers := by rw [State.addReq, fs_setFs]
  queues k := (List.append_nil _).symm

/-- The row that waits in a far queue for request `r`. -/
def FarReq.slot (r : FarReq) : FqSlot :=
  { seq := r.seq, row := r.row, lo := r.lo, hi := r.hi, va := r.va, data := none, home := none, dla := 0 }

theorem pushFq_requests (s : State) (q : BitVec 3) (r : FarReq) : Requests s (s.pushFq q r) r (some q) where
  others := by
    refine (addReq_requests (s.updSta fun x => x.setFq q (x.fqOf q ++ [r.slot])) r).others.trans ?_
    simp only [State.noRequests, updSta_updSta]
    rfl
  requests := (addReq_requests (s.updSta fun x => x.setFq q (x.fqOf q ++ [r.slot])) r).requests
  numbers := (addReq_requests (s.updSta fun x => x.setFq q (x.fqOf q ++ [r.slot])) r).numbers
  queues k := by
    refine ((addReq_requests (s.updSta fun x => x.setFq q (x.fqOf q ++ [r.slot])) r).queues k).trans ?_
    rw [curSta_updSta, fqOf_setFq]
    by_cases hk : k = q
    · subst hk
      simp [FarReq.slot]
    · simp [hk, Ne.symm hk]

theorem pushSpan_eq (a : W64) (off : BitVec 22) (nw : BitVec 6) {va : Nat} (h : va = (a + off.signExtend 64).toNat % 2 ^ 48) :
    pushSpan a off nw = (va / 256 * 256, va % 256 / 4, min 63 (va % 256 / 4 + nw.toNat)) := by
  subst h
  simp only [pushSpan, Prod.mk.injEq, and_true]
  omega

theorem getLsbD_laneSpan {l h j : Nat} (hlh : l ≤ h) (h64 : h < 64) : (laneSpan l h).getLsbD j = true ↔ l ≤ j ∧ j ≤ h := by
  simp only [laneSpan, BitVec.getLsbD_ofNat, Nat.testBit_mul_two_pow, Nat.testBit_two_pow_sub_one, Bool.and_eq_true, decide_eq_true_eq]
  omega

-- ## FQPUSH (R101)

section Fqpush
variable {s : State} {q : BitVec 3} {a : Scal} {row : BitVec 4} {nw : BitVec 6} {off : BitVec 22} {va : Nat}

theorem exec_fqpush (hva : va = (s.scal a + off.signExtend 64).toNat % 2 ^ 48) (h : (s.curSta.fqOf q).length < 16) :
    exec (.fqpush q a row nw off) s = .next (s.pushFq q
      (s.request (.fq q) (va / 256 * 256) (va % 256 / 4) (min 63 (va % 256 / 4 + nw.toNat)) row .read)) := by
  simp only [exec, execFqpush, ge_iff_le, Nat.not_le.2 h, if_false, pushSpan_eq _ _ _ hva]
  rfl

theorem exec_fqpush_overflow (h : 16 ≤ (s.curSta.fqOf q).length) : Raises (.fqpush q a row nw off) s .fqOverflow 0 :=
  raises_of_exec (if_pos h)

end Fqpush

-- ## FQPOP (R102)

theorem fqOf_putWrite (s : State) (lat : Nat) (name : Byte) (t : WTarget) (q : BitVec 3) :
    (s.putWrite lat name t).curSta.fqOf q = s.curSta.fqOf q := by
  unfold State.putWrite
  split
  · rw [curSta_updDie]; rfl
  · rw [curSta_updSta]; rfl

theorem inFlight_updSta (s : State) (f : Station → Station) : (s.updSta f).inFlight = s.inFlight := by
  funext lat name t
  simp only [State.inFlight, updSta_focus, cyc_updSta]

section Fqpop
variable {s : State} {q : BitVec 3} {d ph : BitVec 5} (hd : physOf s.curSta.rotd d = some ph)
include hd

theorem exec_fqpop_underflow (h : s.curSta.fqOf q = []) : Raises (.fqpop d q) s .fqUnderflow 0 :=
  raises_of_exec (by simp only [exec, execFqpop, vphys_of_live hd, h])

theorem exec_fqpop_absent {h : FqSlot} {rest : List FqSlot} (hq : s.curSta.fqOf q = h :: rest) (hn : h.data = none) :
    Raises (.fqpop d q) s .schedMiss 0 :=
  raises_of_exec (by simp only [exec, execFqpop, vphys_of_live hd, hq, hn])

theorem exec_fqpop_present {h : FqSlot} {rest : List FqSlot} {r : Row} (hb : s.curDie.bad = []) (hq : s.curSta.fqOf q = h :: rest)
    (hr : h.data = some r) : exec (.fqpop d q) s =
      .next ((s.updSta fun x => x.setFq q rest).putWrite 3 (d.setWidth 8) (.v ph h.row (laneSpan h.lo h.hi) r)) := by
  have hbad : ∀ f, s.curDie.badIn f 64 = [] := fun f => badIn_nil fun k _ => by simp [hb]
  simp only [exec, execFqpop, vphys_of_live hd, hq, hr, hbad, raiseBad_nil]
  rfl

end Fqpop

-- ## FST (R103)

section Fst
variable {s : State} {a : Scal} {row : BitVec 4} {nw : BitVec 6} {off : BitVec 22} {va : Nat} {d ph : BitVec 5}
variable (hd : physOf s.curSta.rotd d = some ph)
include hd

theorem exec_fst (hva : va = (s.scal a + off.signExtend 64).toNat % 2 ^ 48) (hb : s.curDie.bad = [])
    (h : (s.fs s.focus.die).pathN s.focus.pos < 32) : exec (.fst a d row nw off) s =
      .next (s.addReq (s.request .path (va / 256 * 256) (va % 256 / 4) (min 63 (va % 256 / 4 + nw.toNat)) row
        (.write (s.curSta.vrow ph row.toNat)))) := by
  simp only [exec, execFst, vphys_of_live hd, ge_iff_le, Nat.not_le.2 h, if_false, pushSpan_eq _ _ _ hva, vread_good ph _ hb,
    List.filter_nil, raiseBad_nil]
  rfl

theorem exec_fst_overflow (h : 32 ≤ (s.fs s.focus.die).pathN s.focus.pos) : Raises (.fst a d row nw off) s .fqOverflow 0 :=
  raises_of_exec (by simp only [exec, execFst, vphys_of_live hd, ge_iff_le, h, if_true])

end Fst

end Sys2Proof.Machine
end

section
open Sys2Proof Sys2Proof.Machine

/-- Settles O30: FQPUSH and FST by the request they make, FQPOP by the head of its queue. -/
theorem farQueueWords : Obligations.FarQueueWords := by
  unfold Obligations.FarQueueWords
  rintro s q a row nw off d ph va lo hi hva rfl rfl hd hb
  refine ⟨fun h => ⟨_, exec_fqpush hva h, pushFq_requests ..⟩, exec_fqpush_overflow, exec_fqpop_underflow hd,
    fun h rest hq => ⟨exec_fqpop_absent hd hq, fun r hr => ⟨_, exec_fqpop_present hd hb hq hr, ?_, ?_⟩⟩,
    fun h => ⟨_, exec_fst hd hva hb h, addReq_requests ..⟩, exec_fst_overflow hd, fun l h j => getLsbD_laneSpan⟩
  · rw [fqOf_putWrite, curSta_updSta, fqOf_setFq, if_pos rfl]
  · rw [← inFlight_updSta s fun x => x.setFq q rest]
    exact putWrite_adds ..

end

section
namespace Sys2Proof.Machine

open Sys2Proof

-- ## Addresses (R105)

theorem bankForm_iff (v : W64) (p : Pos) (k : BitVec 3) (row : Nat) : bankForm v = some (p, k, row) ↔
    v.toNat / 2 ^ 55 = 1 ∧ v.toNat / 2 ^ 18 % 2 ^ 30 = 0 ∧ p.val = v.toNat / 2 ^ 48 % 128 ∧ k.toNat = v.toNat / 2 ^ 15 % 8 ∧
      row = v.toNat / 2 ^ 8 % 128 := by
  have hform : (fld v 56 8 != 0 || !bit v 55 || fld v 18 30 != 0) = true ↔
      ¬(v.toNat / 2 ^ 55 = 1 ∧ v.toNat / 2 ^ 18 % 2 ^ 30 = 0) := by
    have h56 := fld_eq_zero_iff v 56 8
    have h18 := fld_eq_zero_iff v 18 30
    have h55 : bit v 55 = decide (v.toNat / 2 ^ 55 % 2 = 1) := Nat.testBit_eq_decide_div_mod_eq
    simp only [Bool.or_eq_true, bne_iff_ne, ne_eq, Bool.not_eq_true', h56, h18, h55, decide_eq_false_iff_not]
    omega
  have hpos : ((Fin.ofNat 128 (fld v 48 7).toNat : Pos) = p) ↔ p.val = v.toNat / 2 ^ 48 % 128 := by
    rw [Fin.ext_iff, Fin.val_ofNat, toNat_fld]
    omega
  have hbank : fld v 15 3 = k ↔ k.toNat = v.toNat / 2 ^ 15 % 8 := by
    rw [BitVec.toNat_eq, toNat_fld]
    exact eq_comm
  have hrow : (fld v 8 7).toNat = row ↔ row = v.toNat / 2 ^ 8 % 128 := by
    rw [toNat_fld]
    exact eq_comm
  unfold bankForm
  split
  · next h => simp only [reduceCtorEq, false_iff]; exact fun hv => hform.1 h ⟨hv.1, hv.2.1⟩
  · next h =>
    obtain ⟨h55, h18⟩ := not_not.1 (mt hform.2 h)
    simp only [Option.some.injEq, Prod.mk.injEq, hpos, hbank, hrow, h55, h18, true_and]

theorem haulAddr_far {v : W64} (h : v.toNat < 2 ^ 48) : haulAddr v = some (.far (v.toNat / 256 * 256)) := by
  have hva : (fld v 48 16 == 0) = true := by
    rw [beq_iff_eq, fld_eq_zero_iff]
    omega
  have hgran : (fld v 8 40).toNat = v.toNat / 256 := by
    rw [toNat_fld]
    omega
  rw [haulAddr, if_pos hva, hgran]

theorem haulAddr_of_bankForm {v : W64} (h : 2 ^ 48 ≤ v.toNat) :
    haulAddr v = (bankForm v).map fun b => .bank b.1 b.2.1 b.2.2 := by
  refine if_neg ?_
  rw [beq_iff_eq, fld_eq_zero_iff]
  omega

theorem haulAddr_bank_iff {v : W64} (h : 2 ^ 48 ≤ v.toNat) (p : Pos) (k : BitVec 3) (row : Nat) :
    haulAddr v = some (.bank p k row) ↔ bankForm v = some (p, k, row) := by
  rw [haulAddr_of_bankForm h]
  simp [Option.map_eq_some_iff]

theorem haulAddr_ne_far {v : W64} (h : 2 ^ 48 ≤ v.toNat) (va : Nat) : haulAddr v ≠ some (.far va) := by
  rw [haulAddr_of_bankForm h]
  simp [Option.map_eq_some_iff]

-- ## The plan (R106, R107)

theorem tyEpr_pos (t : Ty) : 0 < tyEpr t := by cases t <;> decide

/-- As many rows of `e` as `m` elements need, the last of them not empty. -/
theorem ceilDiv_spec {m e : Nat} (he : 0 < e) : m ≤ (m + e - 1) / e * e ∧ (0 < m → ((m + e - 1) / e - 1) * e < m) := by
  have hdiv := Nat.div_add_mod (m + e - 1) e
  have hmod := Nat.mod_lt (m + e - 1) he
  rw [Nat.mul_comm] at hdiv
  refine ⟨by omega, fun hm => ?_⟩
  rw [Nat.sub_mul, Nat.one_mul]
  omega

section Plan
variable (x : Die) (src dst : HaulAddr) (n : Nat)

@[simp] theorem haulPlan_src : (x.haulPlan src dst n).src = src := rfl
@[simp] theorem haulPlan_dst : (x.haulPlan src dst n).dst = dst := rfl
@[simp] theorem haulPlan_n : (x.haulPlan src dst n).n = n := rfl

theorem haulPlan_conv : (x.haulPlan src dst n).conv = true ↔
    (x.haulPlan src dst n).sfmt.type ≠ (x.haulPlan src dst n).dfmt.type ∧
      (∃ q k r, src = .bank q k r) ∧ ∃ q k r, dst = .bank q k r := by
  cases src <;> cases dst <;> simp [Die.haulPlan]

theorem haulPlan_dstN : (x.haulPlan src dst n).dstN =
    if (x.haulPlan src dst n).conv then
      (n * tyEpr (x.haulPlan src dst n).sfmt.type + tyEpr (x.haulPlan src dst n).dfmt.type - 1) / tyEpr (x.haulPlan src dst n).dfmt.type
    else n := rfl

end Plan

theorem sideOk_iff (a : HaulAddr) (n rows : Nat) (f : BankFmt) (conv : Bool) : sideOk a n rows f.dataRows conv = true ↔
    ∀ q k r, a = .bank q k r → n ≤ 128 ∧ r + rows ≤ if conv = true ∧ (mxOf f.type).isSome = true then f.srow.toNat else 128 := by
  have hlimit : (if conv = true then f.dataRows else 128) =
      if conv = true ∧ (mxOf f.type).isSome = true then f.srow.toNat else 128 := by
    cases conv <;> simp [BankFmt.dataRows]
  cases a with
  | far va => simp [sideOk]
  | bank q k r => simp [sideOk, hlimit]

theorem haulPlan_ok (x : Die) (src dst : HaulAddr) (n : Nat) : (x.haulPlan src dst n).ok = true ↔
    sideOk src n n (x.haulPlan src dst n).sfmt.dataRows (x.haulPlan src dst n).conv = true ∧
      sideOk dst n (x.haulPlan src dst n).dstN (x.haulPlan src dst n).dfmt.dataRows (x.haulPlan src dst n).conv = true := by
  rw [HaulPlan.ok, Bool.and_eq_true]
  rfl

-- ## The start (R106, R107, R120)

theorem curDie_setFs (s : State) (d : DieId) (f : FarSide) : (s.setFs d f).curDie = s.curDie := rfl

theorem curSta_setFs (s : State) (d : DieId) (f : FarSide) : (s.setFs d f).curSta = s.curSta := rfl

theorem updSta_of_fixed {s : State} {f : Station → Station} (h : f s.curSta = s.curSta) : s.updSta f = s := by
  rw [updSta_eq]
  refine updDie_of_fixed ?_
  change s.curDie.setSta s.focus.pos (f s.curSta) = s.curDie
  rw [h]
  exact setSta_sta ..

/-- A draw changes the station's noise generator alone. -/
theorem noiseIf_eq_updSta (s : State) (b : Bool) : ∃ z, (s.noiseIf b).2 = s.updSta fun x => { x with noise := z } := by
  unfold State.noiseIf
  split
  · exact ⟨s.curSta.noise, (updSta_of_fixed rfl).symm⟩
  · exact ⟨_, rfl⟩

/-- The noise generator of a command from the draw at its issue; a draw of 0 starts it at 1 (R107). -/
def haulGen (draw : Nat) : W32 := if draw = 0 then 1 else BitVec.ofNat 32 draw

/-- The command that a HAUL adds to its engine, with its noise generator. -/
def State.haulCmd (s : State) (af : Bool) (pt : Option (BitVec 5)) (rnd : Rnd) (p : HaulPlan) (wr : List (Pos × Nat × Buf)) (gen : W32) :
    HaulCmd :=
  { key := (s.fs s.focus.die).seq, pos := s.focus.pos, parcel := s.focus.parcel, issued := s.sidc, src := p.src, dst := p.dst,
    n := p.n, rnd := rnd, af := af, pt := pt, conv := p.conv, sfmt := p.sfmt, dfmt := p.dfmt, gen := gen, started := 0, srcRead := 0,
    lanes := [], made := 0, grans := [], done := 0, dstN := p.dstN, comp := 0, fail := none, writes := wr.map fun e => (e.1, e.2.1) }

/-- What a HAUL does to its buffers at the end of the cycle. -/
def State.haulMoves (s : State) (rd wr : List (Pos × Nat × Buf)) : List Eoc :=
  rd.map (fun e => .bufRead e.1 e.2.1 (s.focus.pos, .l, s.cyc)) ++ wr.flatMap fun e => [.bufWrite e.1 e.2.1, .bufWriter e.1 e.2.1]

section Haul
variable (s : State) (af : Bool) (pt : Option (BitVec 5)) (rnd : Rnd) (p : HaulPlan) (rd wr : List (Pos × Nat × Buf))

theorem haulStart_eq : ∃ z gen, haulStart af pt rnd p rd wr s =
    ((s.updSta fun x => { x with noise := z }).setFs s.focus.die { s.fs s.focus.die with
      seq := (s.fs s.focus.die).seq + 1, hauls := (s.fs s.focus.die).hauls ++ [s.haulCmd af pt rnd p wr gen] }).updDie
      (Die.moreEoc (s.haulMoves rd wr)) := by
  obtain ⟨z, hz⟩ := noiseIf_eq_updSta s (p.conv && rnd == .rsr)
  refine ⟨z, haulGen (s.noiseIf (p.conv && rnd == .rsr)).1, ?_⟩
  rw [haulStart, hz]
  rfl

/-- The command joins its engine, its buffers move at the end of the cycle, and registers, banks, causes and memory stay. -/
theorem haulStart_spec : ∃ gen, let t := haulStart af pt rnd p rd wr s
    SameMemory s t ∧
    t.fs s.focus.die = { s.fs s.focus.die with
      seq := (s.fs s.focus.die).seq + 1, hauls := (s.fs s.focus.die).hauls ++ [s.haulCmd af pt rnd p wr gen] } ∧
    t.curDie.eoc = s.curDie.eoc ++ s.haulMoves rd wr ∧ t.curDie.causes = s.curDie.causes ∧
    t.curSta.writes = s.curSta.writes ∧ t.curSta.bank = s.curSta.bank := by
  obtain ⟨z, gen, h⟩ := haulStart_eq s af pt rnd p rd wr
  refine ⟨gen, ?_⟩
  rw [h]
  refine ⟨⟨fun _ => rfl, fun _ => rfl⟩, fs_setFs .., ?_, ?_, ?_, ?_⟩
  · rw [curDie_updDie, curDie_setFs, curDie_updSta]
    rfl
  · rw [curDie_updDie, curDie_setFs, curDie_updSta]
    rfl
  · rw [curSta_moreEoc, curSta_setFs, curSta_updSta]
  · rw [curSta_moreEoc, curSta_setFs, curSta_updSta]

end Haul

-- ## The checks of HAUL and its start (R105, R106, R119)

section Checks
variable {s : State} {af : Bool} {pt : Option (BitVec 5)} {rnd : Rnd} {d a b : Scal}

theorem exec_haul_noAddress (h : haulAddr (s.scal a) = none ∨ haulAddr (s.scal d) = none) : Raises (.haul af pt rnd d a b) s .bankRange 0 := by
  refine raises_of_exec ?_
  change execHaul af pt rnd d a b s = _
  unfold execHaul
  split
  · next hs hd => simp [hs, hd] at h
  · rfl

variable {src dst : HaulAddr} {n : Nat} {p : HaulPlan} {rd wr : List (Pos × Nat × Buf)}
variable (hn : n = (s.scal b).toNat % 2 ^ 20 + 1) (hsrc : haulAddr (s.scal a) = some src) (hdst : haulAddr (s.scal d) = some dst)
variable (hp : p = s.curDie.haulPlan src dst n) (hrd : rd = s.curDie.sideBufs src p.sfmt n p.both)
variable (hwr : wr = s.curDie.sideBufs dst p.dfmt p.dstN p.both)
include hn hsrc hdst hp

theorem exec_haul_beyond (h : p.ok = false) : Raises (.haul af pt rnd d a b) s .bankRange 0 := by
  subst hp hn
  refine raises_of_exec ?_
  simp only [exec, execHaul, hsrc, hdst, toNat_fld, pow_zero, Nat.div_one, h, Bool.not_false, if_true]

include hrd hwr

theorem exec_haul_bufState (h : p.ok = true) (hb : bufsAllow false (rd.map (·.2)) = false ∨ bufsAllow true (wr.map (·.2)) = false) :
    Raises (.haul af pt rnd d a b) s .bufState 0 := by
  have hrefused : (!bufsAllow false (rd.map (·.2)) || !bufsAllow true (wr.map (·.2))) = true := by simpa using hb
  subst hrd hwr hp hn
  refine raises_of_exec ?_
  simp only [exec, execHaul, hsrc, hdst, toNat_fld, pow_zero, Nat.div_one, h, Bool.not_true, Bool.false_eq_true, if_false]
  exact if_pos hrefused

theorem exec_haul_allowed (h : p.ok = true) (hr : bufsAllow false (rd.map (·.2)) = true) (hw : bufsAllow true (wr.map (·.2)) = true) :
    exec (.haul af pt rnd d a b) s = if (s.fs s.focus.die).faceHauls s.focus.pos ≥ 16 then raise s .fqOverflow
      else .next (haulStart af pt rnd p rd wr s) := by
  have hallowed : ¬(!bufsAllow false (rd.map (·.2)) || !bufsAllow true (wr.map (·.2))) = true := by simp [hr, hw]
  subst hrd hwr hp hn
  simp only [exec, execHaul, hsrc, hdst, toNat_fld, pow_zero, Nat.div_one, h, Bool.not_true, Bool.false_eq_true, if_false]
  exact if_neg hallowed

end Checks

end Sys2Proof.Machine
end

section
open Sys2Proof Sys2Proof.Machine

/-- Settles O36: the addresses by their bits, the plan by its two sides, and the word by its checks in order. -/
theorem haulWord : Obligations.HaulWord := by
  unfold Obligations.HaulWord
  intro s af pt rnd d a b n hn
  refine ⟨exec_haul_noAddress, fun v => ⟨haulAddr_far, fun h p k row => (haulAddr_bank_iff h p k row).trans (bankForm_iff v p k row),
    haulAddr_ne_far⟩, ?_, ?_⟩
  · rintro x src dst p rfl
    have hdstN := haulPlan_dstN x src dst n
    refine ⟨haulPlan_conv x src dst n, fun h => ?_, fun h => ?_, ?_, ?_, ?_⟩
    · rw [hdstN, h, if_neg Bool.false_ne_true]
    · rw [hdstN, h, if_pos rfl]
      obtain ⟨hle, hlt⟩ := ceilDiv_spec (m := n * tyEpr (x.haulPlan src dst n).sfmt.type) (tyEpr_pos (x.haulPlan src dst n).dfmt.type)
      exact ⟨hle, hlt (Nat.mul_pos (by omega) (tyEpr_pos _))⟩
    · rintro q k r rfl; rfl
    · rintro q k r rfl; rfl
    · rw [haulPlan_ok, sideOk_iff, sideOk_iff]
  · intro src dst p rd wr hsrc hdst hp hrd hwr
    refine ⟨exec_haul_beyond hn hsrc hdst hp, exec_haul_bufState hn hsrc hdst hp hrd hwr, fun hok hr hw => ?_⟩
    have hexec := exec_haul_allowed (af := af) (pt := pt) (rnd := rnd) hn hsrc hdst hp hrd hwr hok hr hw
    refine ⟨fun hfull => raises_of_exec (hexec.trans (if_pos hfull)), fun hroom => ?_⟩
    obtain ⟨gen, hmem, hfs, heoc, hcauses, hwrites, hbank⟩ := haulStart_spec s af pt rnd p rd wr
    refine ⟨_, s.haulCmd af pt rnd p wr gen, hexec.trans (if_neg (Nat.not_le.2 hroom)), hmem, ?_⟩
    rw [hfs, heoc, hcauses, hwrites, hbank, State.haulMoves, List.append_assoc]
    subst hp
    simp [State.haulCmd]

end

section
namespace Sys2Proof.Machine

open Sys2Proof

-- ## Words that act at the end of the cycle (R17)

theorem defers_of_exec {i : Instr} {s : State} {e : Eoc} (h : exec i s = .next (s.later e)) :
    ∃ t, exec i s = .next t ∧ Defers s t [e] :=
  ⟨_, h, later_defers s e⟩

-- ## BANKFMT, BUFSET and EDGESET (R116, R119, R121, R141)

theorem fmtBad_of_legal {ty : BitVec 4} {srow : BitVec 7}
    (h : ∃ t, tyOf ty = some t ∧ ((mxOf t).isSome = true → 1 ≤ srow.toNat ∧ srow.toNat ≤ srowMax t)) :
    fmtBad ty srow = false := by
  obtain ⟨t, ht, hrow⟩ := h
  rw [Bool.eq_false_iff]
  intro hbad
  simp only [fmtBad, ht, Bool.and_eq_true, Bool.or_eq_true, beq_iff_eq, decide_eq_true_eq] at hbad
  obtain ⟨hmx, hzero | hmax⟩ := hbad
  · exact absurd (hrow hmx).1 (by rw [hzero]; decide)
  · exact absurd (hrow hmx).2 (by omega)

theorem fmtBad_of_illegal {ty : BitVec 4} {srow : BitVec 7}
    (h : ∀ t, tyOf ty = some t → (mxOf t).isSome = true ∧ (srow = 0 ∨ srowMax t < srow.toNat)) : fmtBad ty srow = true := by
  unfold fmtBad
  cases ht : tyOf ty with
  | none => rfl
  | some t => simpa using h t ht

theorem setOk_iff (b : Buf) (full : Bool) : b.setOk full = true ↔
    b.declared = true ∧ (full = true → b.st ≠ 3) ∧ (full = false → b.st = 1 → b.writers = 0) := by
  cases full <;> simp [Buf.setOk, imp_iff_not_or]

theorem setOk_false_iff (b : Buf) (full : Bool) : b.setOk full = false ↔
    b.declared = false ∨ full = true ∧ b.st = 3 ∨ full = false ∧ b.st = 1 ∧ b.writers ≠ 0 := by
  cases full <;> cases hd : b.declared <;> simp [Buf.setOk, hd]

theorem edgePointer_bad_iff (w : W64) : (fld w 18 46 != 0 || fld w 0 8 != 0) = true ↔ w.toNat % 256 ≠ 0 ∨ 2 ^ 18 ≤ w.toNat := by
  have hhi := fld_eq_zero_iff w 18 46
  have hlo := fld_eq_zero_iff w 0 8
  simp only [Bool.or_eq_true, bne_iff_ne, ne_eq, hhi, hlo]
  omega

section Words
variable {s : State}

theorem exec_bankfmt_legal {bank : BitVec 3} {ty : BitVec 4} {srow : BitVec 7} (h : fmtBad ty srow = false) :
    exec (.bankfmt bank ty srow) s = .next (s.later (.bankfmt s.focus.pos bank { ty := ty, srow := srow })) :=
  if_neg (by rw [h]; decide)

theorem exec_bankfmt_illegal {bank : BitVec 3} {ty : BitVec 4} {srow : BitVec 7} (h : fmtBad ty srow = true) :
    exec (.bankfmt bank ty srow) s = raise s .bankRange := if_pos h

theorem exec_bufset_legal {full : Bool} {bd : BitVec 4} (h : (s.curSta.bufN bd.toNat).setOk full = true) :
    exec (.bufset full bd) s = .next (s.later (.bufset s.focus.pos full bd)) := if_neg (by rw [h]; decide)

theorem exec_bufset_illegal {full : Bool} {bd : BitVec 4} (h : (s.curSta.bufN bd.toNat).setOk full = false) :
    exec (.bufset full bd) s = raise s .bufState := if_pos (by rw [h]; rfl)

theorem exec_bufdecl_legal {v : W32} (h : declCause s.curSta v = none) :
    exec (.bufdecl v) s = .next (s.later (.bufdecl s.focus.pos v)) := by
  simp only [exec, execBufdecl, h]

theorem exec_bufdecl_illegal {v : W32} {c : Cause} (h : declCause s.curSta v = some c) : exec (.bufdecl v) s = raise s c := by
  simp only [exec, execBufdecl, h]

theorem exec_edgeset_legal {e : BitVec 2} {a : Scal} {imm : W32} (h8 : (s.ea a imm).toNat % 256 = 0)
    (h18 : (s.ea a imm).toNat < 2 ^ 18) : exec (.edgeset e a imm) s = .next (s.putWrite 2 (edgCode e) (.e e (s.ea a imm))) :=
  if_neg (by rw [edgePointer_bad_iff]; omega)

theorem exec_edgeset_illegal {e : BitVec 2} {a : Scal} {imm : W32} (h : (s.ea a imm).toNat % 256 ≠ 0 ∨ 2 ^ 18 ≤ (s.ea a imm).toNat) :
    exec (.edgeset e a imm) s = raise s .edgeRange := if_pos ((edgePointer_bad_iff _).2 h)

end Words

-- ## BUFDECL (R118)

theorem bit_iff_div_mod {w : Nat} (v : BitVec w) (n : Nat) : bit v n = true ↔ v.toNat / 2 ^ n % 2 = 1 := by
  rw [show bit v n = v.toNat.testBit n from rfl, Nat.testBit_eq_decide_div_mod_eq, decide_eq_true_iff]

/-- Buffer `n` is declared and not empty. -/
def Station.bufBusy (x : Station) (n : Nat) : Bool := (x.bufN n).declared && (x.bufN n).st != 0

/-- The rows of a declaration are out of order, or overlap another declared buffer of the bank. -/
def Station.declWide (x : Station) (v : W32) : Bool :=
  decide ((declOf v).last < (declOf v).first) || x.buf.any fun e => e.1 != (fld v 28 4).toNat && e.2.declared &&
    e.2.bank == (declOf v).bank && e.2.first ≤ (declOf v).last && (declOf v).first ≤ e.2.last

theorem bufBusy_iff (x : Station) (n : Nat) : x.bufBusy n = true ↔
    (kget {} n x.buf : Buf).declared = true ∧ (kget {} n x.buf : Buf).st ≠ 0 := by
  simp [Station.bufBusy, Station.bufN]

/-- The number of the buffer that a BUFDECL names. -/
theorem toNat_declNumber (v : W32) : (fld v 28 4).toNat = v.toNat / 2 ^ 28 := by
  rw [toNat_fld]
  exact Nat.mod_eq_of_lt (by have := v.isLt; omega)

theorem declWide_iff (x : Station) (v : W32) : x.declWide v = true ↔
    v.toNat / 2 ^ 10 % 128 < v.toNat / 2 ^ 17 % 128 ∨ ∃ e ∈ x.buf, e.1 ≠ v.toNat / 2 ^ 28 ∧ e.2.declared = true ∧
      e.2.bank.toNat = v.toNat / 2 ^ 24 % 8 ∧ e.2.first.toNat ≤ v.toNat / 2 ^ 10 % 128 ∧
      v.toNat / 2 ^ 17 % 128 ≤ e.2.last.toNat := by
  rw [Station.declWide, toNat_declNumber]
  simp only [declOf, Bool.or_eq_true, decide_eq_true_eq, List.any_eq_true, Bool.and_eq_true, bne_iff_ne, beq_iff_eq,
    BitVec.lt_def, BitVec.le_def, BitVec.toNat_eq, toNat_fld, and_assoc]
  rfl

/-- BUFDECL's checks in their order: a withdrawal's other bits or a declaration's rows, then the buffer's state. -/
theorem declCause_eq (x : Station) (v : W32) : declCause x v =
    if !bit v 27 && fld v 0 27 != 0 then some .reservedBits
    else if bit v 27 && x.declWide v then some .bankRange
    else if x.bufBusy (fld v 28 4).toNat then some .bufState
    else none := by
  unfold declCause Station.bufBusy Station.declWide
  cases bit v 27 with
  | false => rfl
  | true => by_cases hl : (declOf v).last < (declOf v).first <;> simp only [hl, decide_true, decide_false] <;> rfl

theorem declCause_iff (x : Station) (v : W32) :
    (declCause x v = some .reservedBits ↔ bit v 27 = false ∧ fld v 0 27 ≠ 0) ∧
    (declCause x v = some .bankRange ↔ bit v 27 = true ∧ x.declWide v = true) ∧
    (declCause x v = some .bufState ↔ x.bufBusy (fld v 28 4).toNat = true ∧ (bit v 27 = false → fld v 0 27 = 0) ∧
      (bit v 27 = true → ¬x.declWide v = true)) ∧
    (declCause x v = none ↔ ¬x.bufBusy (fld v 28 4).toNat = true ∧ (bit v 27 = false → fld v 0 27 = 0) ∧
      (bit v 27 = true → ¬x.declWide v = true)) := by
  have hlo : fld v 0 27 = 0 ↔ (fld v 0 27 != 0) = false := bne_eq_false_iff_eq.symm
  rw [declCause_eq, Ne, hlo]
  generalize bit v 27 = d, (fld v 0 27 != 0) = lo, x.declWide v = wide, x.bufBusy (fld v 28 4).toNat = busy
  revert d lo wide busy
  decide

theorem declCause_mem {x : Station} {v : W32} {c : Cause} (h : declCause x v = some c) :
    c ∈ [Cause.reservedBits, Cause.bufState, Cause.bankRange] := by
  rw [declCause_eq] at h
  split_ifs at h <;> cases h <;> decide

theorem causeSub_declCause {x : Station} {v : W32} {c : Cause} (h : declCause x v = some c) : causeSub c = 0 := by
  rw [declCause_eq] at h
  split_ifs at h <;> cases h <;> rfl

-- ## The life of a buffer (R119, R120)

@[simp] theorem move_st (b : Buf) (st : BitVec 2) : (b.move st).st = st := by
  unfold Buf.move
  split
  · next h => exact h.symm
  · rfl

theorem written_of_empty {b : Buf} (h : b.st = 0) : b.written = b.move 1 := if_pos h

theorem written_of_not_empty {b : Buf} (h : b.st ≠ 0) : b.written = b := if_neg h

theorem set_full {b : Buf} (h : b.st = 0 ∨ b.st = 1) : b.set true = b.move 2 := by
  rw [Buf.set, if_pos rfl, if_pos (by simpa using h)]

/-- The words of `l` that have not counted yet as reads of the buffer. -/
def Buf.newReads (b : Buf) (l : List (Pos × Strm × Nat)) : List (Pos × Strm × Nat) := (l.filter fun w => !b.seen.contains w).eraseDups

/-- The buffer being drained, with the words of `l` counted. -/
def Buf.counted (b : Buf) (l : List (Pos × Strm × Nat)) : Buf :=
  { b with st := 3, nread := b.nread + (b.newReads l).length, seen := b.newReads l ++ b.seen }

section Reads
variable {b : Buf} {l : List (Pos × Strm × Nat)}

theorem readBy_nil (b : Buf) : b.readBy [] = b := rfl

theorem readBy_unlimited (hl : l ≠ []) (hr : b.reads = 0) : b.readBy l = b.move 3 := by
  simp only [Buf.readBy, List.isEmpty_iff, hl, hr, if_false, if_true]

theorem readBy_limited (hl : l ≠ []) (hr : b.reads ≠ 0) :
    b.readBy l = if b.reads.toNat ≤ b.nread + (b.newReads l).length then (b.counted l).move 0 else b.counted l := by
  simp only [Buf.readBy, List.isEmpty_iff, hl, hr, if_false]
  rfl

theorem mem_seen_counted {w : Pos × Strm × Nat} (h : w ∈ l) : w ∈ (b.counted l).seen := by
  by_cases hw : w ∈ b.seen
  · exact List.mem_append_right _ hw
  · exact List.mem_append_left _ (List.mem_eraseDups.2 (List.mem_filter.2 ⟨h, by simpa using hw⟩))

end Reads

-- ## A buffer at the end of a cycle (R118 to R120)

/-- The accesses of a cycle that read or write buffer `k`. -/
def Eoc.isAccess (k : Nat) (e : Eoc) : Prop := (∃ q w, e = .bufRead q k w) ∨ ∃ q, e = .bufWrite q k

/-- An effect that writes a buffer. -/
def Eoc.isWrite : Eoc → Bool
  | .bufWrite .. => true
  | _ => false

/-- The buffer after the reads and writes of a cycle; what else changes is how many hauls write it. -/
def Buf.moved (b : Buf) (es : List Eoc) : Buf :=
  if es.any Eoc.isWrite then b.written else if b.st = 2 ∨ b.st = 3 then b.readBy (bufReads es) else b

theorem accessed_eq_moved (b : Buf) (es : List Eoc) :
    b.accessed es = { b.moved es with writers := (b.moved es).writers + bufAdds es } := rfl

section Accessed
variable {b : Buf} {es : List Eoc} {k : Nat}

theorem accessed_of_no_adds (h : bufAdds es = 0) : b.accessed es = b.moved es := by
  rw [accessed_eq_moved, h]
  rfl

/-- Accesses alone make of a buffer what its reads and writes make of it. -/
theorem close_of_accesses (h : ∀ e ∈ es, e.isAccess k) : b.close es = b.moved es := by
  have hadds : bufAdds es = 0 := by
    rw [bufAdds, List.length_eq_zero_iff, List.filter_eq_nil_iff]
    intro e he
    obtain ⟨q, w, rfl⟩ | ⟨q, rfl⟩ := h e he <;> exact Bool.false_ne_true
  rw [Buf.close, accessed_of_no_adds hadds]
  clear hadds
  generalize b.moved es = c
  induction es generalizing c with
  | nil => rfl
  | cons e es ih =>
    obtain ⟨he, hes⟩ := List.forall_mem_cons.1 h
    rw [List.foldl_cons]
    obtain ⟨q, w, rfl⟩ | ⟨q, rfl⟩ := he <;> exact ih hes c

theorem moved_of_write {q : Pos} (h : .bufWrite q k ∈ es) : b.moved es = b.written :=
  if_pos (List.any_eq_true.2 ⟨_, h, rfl⟩)

theorem moved_of_reads (h : ∀ e ∈ es, ∃ q w, e = .bufRead q k w) :
    b.moved es = if b.st = 2 ∨ b.st = 3 then b.readBy (bufReads es) else b := by
  refine if_neg ?_
  rw [List.any_eq_true]
  rintro ⟨e, he, hwrite⟩
  obtain ⟨q, w, rfl⟩ := h e he
  exact Bool.false_ne_true hwrite

/-- A cycle without an access leaves the buffer as it was. -/
theorem accessed_of_no_access (hr : bufReads es = []) (hw : es.any Eoc.isWrite = false) (ha : bufAdds es = 0) : b.accessed es = b := by
  rw [accessed_of_no_adds ha, Buf.moved, hw, if_neg Bool.false_ne_true, hr, readBy_nil, ite_self]

end Accessed

theorem close_bufset_st (b : Buf) (p : Pos) (full : Bool) (bd : BitVec 4) : (b.close [.bufset p full bd]).st = (b.set full).st := by
  rw [show b.close [.bufset p full bd] = b.setBeside (b.accessed [.bufset p full bd]) full from rfl,
    accessed_of_no_access rfl rfl rfl, Buf.setBeside]
  by_cases h : (b.set full).st = b.st
  · rw [if_pos h, h]
  · rw [if_neg h, if_pos (by simp), move_st]

theorem close_bufdecl (b : Buf) (p : Pos) (v : W32) : b.close [.bufdecl p v] = b.declBeside b v := by
  rw [show b.close [.bufdecl p v] = b.declBeside (b.accessed [.bufdecl p v]) v from rfl,
    accessed_of_no_access rfl rfl rfl]

theorem declBeside_withdrawn {b c : Buf} {v : W32} (h : bit v 27 = false) : b.declBeside c v = {} := if_pos (by rw [h]; rfl)

theorem declBeside_declared {b : Buf} {v : W32} (h : bit v 27 = true) (hb : b.declared = false ∨ b.st = 0 ∧ b.writers = 0) :
    b.declBeside b v = declOf v := by
  rw [Buf.declBeside, h, if_neg (by decide), if_pos (by obtain hb | hb := hb <;> simp [hb])]

-- ## The buffers of a die at the end of a cycle

/-- One buffer of the die `x` closed over the effects `es`, from its state on the die `d`. -/
def Die.closeBuf (d : Die) (es : List Eoc) (x : Die) (k : Pos × Nat) : Die :=
  x.setSta k.1 ((x.sta k.1).setBuf k.2 (((d.sta k.1).bufN k.2).close (es.filter fun e => e.bufKey == some k)))

theorem applyBufs_eq_foldl (d : Die) (es : List Eoc) :
    d.applyBufs es = (es.filterMap Eoc.bufKey).eraseDups.foldl (d.closeBuf es) d := rfl

section CloseBuf
variable (d : Die) (es : List Eoc) (p : Pos) (n : Nat)

theorem kget_closeBuf (x : Die) (k : Pos × Nat) : kget {} n ((d.closeBuf es x k).sta p).buf =
    if (p, n) = k then (kget {} n (d.sta p).buf).close (es.filter fun e => e.bufKey == some (p, n)) else kget {} n (x.sta p).buf := by
  obtain ⟨q, m⟩ := k
  rw [Die.closeBuf, sta_setSta_eq]
  by_cases hp : p = q
  · subst hp
    rw [if_pos rfl, Station.setBuf, kget_kput]
    by_cases hn : n = m
    · subst hn
      rw [if_pos rfl, if_pos rfl, Station.bufN]
    · rw [if_neg hn, if_neg fun h => hn (congrArg Prod.snd h)]
  · rw [if_neg hp, if_neg fun h => hp (congrArg Prod.fst h)]

theorem kget_foldl_closeBuf : ∀ (l : List (Pos × Nat)) (x : Die), kget {} n ((l.foldl (d.closeBuf es) x).sta p).buf =
    if (p, n) ∈ l then (kget {} n (d.sta p).buf).close (es.filter fun e => e.bufKey == some (p, n)) else kget {} n (x.sta p).buf
  | [], _ => rfl
  | k :: l, x => by
    rw [List.foldl_cons, kget_foldl_closeBuf l, kget_closeBuf]
    by_cases hl : (p, n) ∈ l
    · rw [if_pos hl, if_pos (List.mem_cons_of_mem _ hl)]
    · rw [if_neg hl]
      exact if_congr (by rw [List.mem_cons, or_iff_left hl]) rfl rfl

/-- Each buffer has its own transition of the cycle, from its state at the start of it, and no other buffer moves. -/
theorem kget_applyBufs [Decidable (∃ e ∈ es, e.bufKey = some (p, n))] : kget {} n ((d.applyBufs es).sta p).buf =
    if ∃ e ∈ es, e.bufKey = some (p, n) then (kget {} n (d.sta p).buf).close (es.filter fun e => e.bufKey == some (p, n))
    else kget {} n (d.sta p).buf := by
  rw [applyBufs_eq_foldl, kget_foldl_closeBuf]
  exact if_congr (by rw [List.mem_eraseDups, List.mem_filterMap]) rfl rfl

end CloseBuf

end Sys2Proof.Machine
end

section
open Sys2Proof Sys2Proof.Machine

/-- Settles O20: the words by their checks, BUFDECL's by `declCause_eq`, a buffer by what the accesses of the cycle make of it. -/
theorem formatsBuffersAndEdges : Obligations.FormatsBuffersAndEdges := by
  unfold Obligations.FormatsBuffersAndEdges
  refine ⟨?_, ?_, ?_, ?_, fun d es p n => kget_applyBufs d es p n⟩
  · rintro s bank ty srow imm full bd e a b w rfl rfl
    refine ⟨⟨fun h => defers_of_exec (exec_bankfmt_legal (fmtBad_of_legal h)),
        fun h => raises_of_exec (exec_bankfmt_illegal (fmtBad_of_illegal h))⟩,
      ⟨fun h => defers_of_exec (exec_bufdecl_legal h), fun c h => ⟨?_, declCause_mem h⟩⟩,
      ⟨fun h => defers_of_exec (exec_bufset_legal ((setOk_iff _ _).2 h)),
        fun h => raises_of_exec (exec_bufset_illegal ((setOk_false_iff _ _).2 h))⟩,
      fun h8 h18 => ⟨_, exec_edgeset_legal h8 h18, putWrite_adds ..⟩, fun h => raises_of_exec (exec_edgeset_illegal h)⟩
    rw [← causeSub_declCause h]
    exact raises_of_exec (exec_bufdecl_illegal h)
  · rintro x v n d bank first last lo b rfl rfl rfl rfl rfl rfl rfl busy wide
    have hd : bit v 27 = true ↔ v.toNat / 2 ^ 27 % 2 = 1 := bit_iff_div_mod v 27
    have hd0 : bit v 27 = false ↔ v.toNat / 2 ^ 27 % 2 = 0 := by rw [Bool.eq_false_iff, Ne, hd]; omega
    have hlo : fld v 0 27 = 0 ↔ v.toNat % 2 ^ 27 = 0 := by rw [fld_eq_zero_iff, pow_zero, Nat.div_one]
    have hbusy : x.bufBusy (fld v 28 4).toNat = true ↔ busy := by rw [toNat_declNumber, bufBusy_iff]
    have hwide : x.declWide v = true ↔ wide := declWide_iff x v
    rw [← hd, ← hd0, ← hlo.ne, ← hlo, ← hbusy, ← hwide]
    exact declCause_iff x v
  · rintro b l n rfl hl
    refine ⟨fun h => by rw [written_of_empty h, move_st], written_of_not_empty, fun h => by rw [set_full h, move_st], rfl, rfl,
      fun h hr => ?_, fun h hr hlt => ?_, fun h hr hle => ?_⟩
    · rw [readBy_unlimited hl hr]
      exact ⟨rfl, rfl⟩
    · rw [readBy_limited hl hr, if_neg (show ¬b.reads.toNat ≤ b.nread + (b.newReads l).length from Nat.not_le.2 hlt)]
      exact ⟨rfl, rfl, fun w hw => mem_seen_counted hw⟩
    · rw [readBy_limited hl hr, if_pos (show b.reads.toNat ≤ b.nread + (b.newReads l).length from hle)]
      exact ⟨rfl, rfl⟩
  · intro b es p full bd v k
    refine ⟨close_bufset_st b p full bd, fun h => ?_, fun h hb => ?_, fun h _ => ?_, fun h hw => ?_⟩
    · rw [close_bufdecl, declBeside_withdrawn h]
    · rw [close_bufdecl, declBeside_declared h hb]
    · rw [close_of_accesses fun e he => .inl (h e he), moved_of_reads h]
      exact ⟨fun hst => if_pos hst, fun hst => if_neg (by obtain hst | hst := hst <;> rw [hst] <;> decide)⟩
    · obtain ⟨q, hq⟩ := hw
      rw [close_of_accesses h, moved_of_write hq]

end

section
namespace Sys2Proof.Machine

open Sys2Proof

-- ## Items on the ring (R122, R123)

/-- An anticlockwise step is undone by a clockwise one, so that neither direction needs a subtraction. -/
theorem along_eq_iff {l q k p : Nat} (hq : q < 128) : along l q k = p ↔
    p < 128 ∧ (l < 8 → p % 128 = (q + k) % 128) ∧ (8 ≤ l → (p + k) % 128 = q) := by
  unfold along laneCw
  by_cases hl : l < 8
  · rw [if_pos (decide_eq_true hl)]
    omega
  · rw [if_neg (by rwa [decide_eq_true_iff])]
    omega

theorem standsAt_iff {i : Item} {p t : Nat} (hq : i.pos < 128) : i.standsAt p t = true ↔
    i.entry ≤ t ∧ t ≤ i.entry + i.hops ∧ p < 128 ∧
    (i.lane < 8 → p % 128 = (i.pos + (t - i.entry)) % 128) ∧ (8 ≤ i.lane → (p + (t - i.entry)) % 128 = i.pos) := by
  simp only [Item.standsAt, Bool.and_eq_true, decide_eq_true_eq, beq_iff_eq, along_eq_iff hq, and_assoc]

/-- The row that an RDRV drives, as it will enter its lane. -/
def State.drivenItem (s : State) (l : BitVec 4) (ph : BitVec 5) (hops : BitVec 7) (row : BitVec 4) : Item :=
  { lane := l.toNat, pos := s.focus.pos.val, entry := s.cyc + 2, hops := if hops = 0 then 127 else hops.toNat, kind := .data,
    data := s.curSta.vrow ph row.toNat, by_ := s.focus.pos, parcel := s.focus.parcel }

section RingWords
variable {s : State} {l row : BitVec 4} {v ph : BitVec 5}
variable (hv : physOf s.curSta.rotd v = some ph)
include hv

theorem exec_rdrv (hops : BitVec 7) (hb : s.curDie.bad = []) : exec (.rdrv l v hops row) s =
    .next (s.updDie fun x => { x with drives := x.drives ++ [{ at_ := s.cyc + 2, item := s.drivenItem l ph hops row }] }) := by
  simp only [exec, execRdrv, vphys_of_live hv, vread_good ph _ hb, raiseBad_nil]
  rfl

theorem exec_rtap_data {i : Item} (hi : s.curDie.slotAt l.toNat s.focus.pos.val s.cyc = some i) (hk : i.kind = .data) :
    exec (.rtap v l row) s = .next (s.putWrite 3 (v.setWidth 8) (.v ph row allLanes i.data)) := by
  simp only [exec, execRtap, vphys_of_live hv, hi, hk]

theorem exec_rtap_schedMiss (h : ∀ i, s.curDie.slotAt l.toNat s.focus.pos.val s.cyc = some i → i.kind ≠ .data) :
    exec (.rtap v l row) s = raise s .schedMiss := by
  simp only [exec, execRtap, vphys_of_live hv]
  cases hi : s.curDie.slotAt l.toNat s.focus.pos.val s.cyc with
  | none => rfl
  | some i =>
    cases hk : i.kind with
    | data => exact absurd hk (h i hi)
    | sweep => simp only [hk]

end RingWords

-- ## Items that enter (R123)

/-- The ring of a die whose one RDRV enters in the cycle, with no item past its last station. -/
theorem ringStep_single {d : Die} {r : Drive} (hr : d.drives = [r]) (hat : r.at_ = d.dcyc)
    (hi : ∀ i ∈ d.items, d.dcyc ≤ i.entry + i.hops) : d.ringStep = { d with drives := [] }.enter r.item := by
  have hitems : (d.items.filter fun i => decide (d.dcyc ≤ i.entry + i.hops)) = d.items :=
    List.filter_eq_self.2 fun i h => decide_eq_true (hi i h)
  simp [Die.ringStep, hr, hat, hitems]

theorem enter_free {d : Die} {i : Item} (h : d.slotAt i.lane i.pos i.entry = none) : d.enter i = { d with items := d.items ++ [i] } := by
  simp only [Die.enter, h]

theorem enter_taken {d : Die} {i j : Item} (h : d.slotAt i.lane i.pos i.entry = some j) :
    d.enter i = d.raiseAt 3 0 .laneClash 0 i.by_ .x i.parcel := by
  simp only [Die.enter, h]

-- ## Names of the rotating region (R130, R131)

theorem physOf_own (r : Rotd) {n : BitVec 5} (h : n.toNat < 16) : physOf r n = some n := if_pos h

theorem physOf_dead {r : Rotd} {n : BitVec 5} (h : 16 + r.d ≤ n.toNat) : physOf r n = none := by
  rw [physOf, if_neg (by omega), if_neg (by omega)]

theorem physOf_live {r : Rotd} {n : BitVec 5} (h : 16 ≤ n.toNat) (hd : n.toNat < 16 + r.d) :
    physOf r n = some (BitVec.ofNat 5 (16 + (n.toNat - 16 + r.rb) % r.d)) := by
  rw [physOf, if_neg (by omega), if_pos hd]

theorem rotate_eq {r : Rotd} (h : 0 < r.d) : r.rotate = { r with rb := (r.rb + r.d - 1) % r.d } := if_neg (by omega)

/-- After a rotation a live name denotes what the name below it, around the region, denoted before. -/
theorem physOf_rotate {r : Rotd} {n m : BitVec 5} (h : 16 ≤ n.toNat) (hd : n.toNat < 16 + r.d)
    (hm : m.toNat = 16 + (n.toNat - 16 + r.d - 1) % r.d) : physOf r.rotate n = physOf r m := by
  have hpos : 0 < r.d := by omega
  have hlt : (n.toNat - 16 + r.d - 1) % r.d < r.d := Nat.mod_lt _ hpos
  have hsame : (n.toNat - 16 + (r.rb + r.d - 1) % r.d) % r.d = (m.toNat - 16 + r.rb) % r.d := by
    rw [hm, Nat.add_sub_cancel_left, Nat.add_mod_mod, Nat.mod_add_mod]
    congr 1
    omega
  rw [rotate_eq hpos, physOf_live (r := { r with rb := (r.rb + r.d - 1) % r.d }) h hd, physOf_live (n := m) (by omega) (by omega)]
  exact congrArg (fun k => some (BitVec.ofNat 5 (16 + k))) hsame

-- ## ROTSET (R132)

/-- Putting entries under other keys leaves an entry as it was. -/
theorem kget_foldl_kput_of_notMem {α : Type} [DecidableEq α] (d : α) (f : Nat → α) (k : Nat) :
    ∀ (l : List Nat) (m : KMap α), k ∉ l → kget d k (l.foldl (fun m j => kput d j (f j) m) m) = kget d k m
  | [], _, _ => rfl
  | j :: l, m, h => by
    obtain ⟨hj, hl⟩ := not_or.1 (mt List.mem_cons.2 h)
    rw [List.foldl_cons, kget_foldl_kput_of_notMem d f k l _ hl, kget_kput, if_neg hj]

section Rotset
variable (x : Station) {n : Nat} (c fr : Nat)

theorem rotset_rotd : (x.rotset n c fr).rotd = { pd := x.rotd.d, rb := 0, d := n } := rfl

theorem kget_rotset_died (k : Nat) : kget 0 k (x.rotset n c fr).died =
    if 16 + n ≤ k ∧ k < 16 + x.rotd.d then c + 1 else kget 0 k x.died := by
  rw [show (x.rotset n c fr).died = (List.range (x.rotd.d - n)).foldl (fun m j => kput 0 (16 + n + j) (c + 1) m) x.died from rfl,
    kget_foldl_kput]
  exact if_congr (by omega) rfl rfl

/-- A row of a register that is live after ROTSET is kept where the register was live before, and else zero. -/
theorem vrow_rotset {p : BitVec 5} {i : Nat} (hi : i < 16) (hp : p.toNat < 16 + n) : (x.rotset n c fr).vrow p i =
    if p.toNat < 16 + min x.rotd.d n then x.vrow p i else 0 := by
  have hreg : (16 * p.toNat + i) / 16 = p.toNat := by omega
  have hlost : 16 * p.toNat + i ∉ (List.range (16 * (16 - n))).map fun k => 16 * (16 + n) + k := by
    simp only [List.mem_map, not_exists, not_and]
    omega
  have hkept := kget_filter_key (0 : Row) (fun k => decide (k / 16 < 16 + min x.rotd.d n)) (16 * p.toNat + i) x.v
  simp only [hreg, decide_eq_true_eq] at hkept
  rw [Station.vrow, Station.vrow, ← hkept]
  exact kget_foldl_kput_of_notMem 0 (freeRow fr) _ _ _ hlost

end Rotset

end Sys2Proof.Machine
end

section
open Sys2Proof Sys2Proof.Machine

/-- Settles O43: an item by its direction, RDRV and RTAP by what stands at the station, names and rows by the region's arithmetic. -/
theorem ringAndRotatingRegion : Obligations.RingAndRotatingRegion := by
  unfold Obligations.RingAndRotatingRegion
  refine ⟨⟨fun i p t _ hq _ => standsAt_iff hq, fun s l v ph hops row hv => ⟨fun hb => ?_, fun i hi hk => ?_, fun h => ?_⟩, ?_⟩,
    fun r n _ => ⟨physOf_own r, physOf_dead, fun h hd => ?_, fun m h hd hm => physOf_rotate h hd hm⟩,
    fun s n => defers_of_exec rfl,
    fun x n c fr _ _ => ⟨rotset_rotd x c fr, kget_rotset_died x c fr, fun p i hi => ⟨fun hp => ?_, fun hd hp => ?_⟩⟩⟩
  · exact ⟨s.drivenItem l ph hops row, exec_rdrv hv hops hb, rfl, rfl, rfl, rfl, rfl, rfl, rfl, rfl⟩
  · exact ⟨_, exec_rtap_data hv hi hk, putWrite_adds ..⟩
  · exact raises_of_exec (exec_rtap_schedMiss hv h)
  · intro s d r hr hat _ hitems
    have hstep := ringStep_single hr hat hitems
    refine ⟨_, rfl, by rw [OnlyDie, die_setDie], ?_⟩
    rw [die_setDie, hstep]
    cases hslot : (s.die d).slotAt r.item.lane r.item.pos r.item.entry with
    | none =>
      rw [enter_free (d := { s.die d with drives := [] }) hslot]
      exact ⟨rfl, fun _ => ⟨rfl, rfl⟩, fun _ h => nomatch h⟩
    | some j =>
      rw [enter_taken (d := { s.die d with drives := [] }) hslot]
      exact ⟨rfl, fun h => (nomatch h), fun _ _ => ⟨rfl, rfl⟩⟩
  · have hmod : (n.toNat - 16 + r.rb) % r.d < r.d := Nat.mod_lt _ (by omega)
    refine ⟨_, physOf_live h hd, ?_⟩
    rw [BitVec.toNat_ofNat]
    exact Nat.mod_eq_of_lt (by omega)
  · rw [vrow_rotset x c fr hi (by omega), if_pos hp]
  · rw [vrow_rotset x c fr hi hp, if_neg (by omega)]

end

section
namespace Sys2Proof.Machine

open Sys2Proof

-- ## The stations that feed an array word (R112, R173)

theorem lineRange_eq_some_iff {lo n i a b : Nat} : lineRange lo n i = some (a, b) ↔
    max lo (32 * i) < min (lo + n) (32 * i + 32) ∧ a = max lo (32 * i) ∧ b = min (lo + n) (32 * i + 32) - 1 := by
  simp only [lineRange, Option.ite_none_right_eq_some, Option.some.injEq, Prod.mk.injEq, @eq_comm Nat a, @eq_comm Nat b]

/-- The first line of a window along a face: a column for north and south, a row for east and west. -/
def Window.faceStart (w : Window) (face : Nat) : Nat := if face % 2 = 0 then w.col0 else w.row0

/-- How many lines of a window a face has. -/
def Window.faceCount (w : Window) (face : Nat) : Nat := if face % 2 = 0 then w.wc else w.wr

/-- The ring position of station `i` of a face. -/
def facePos (face i : Nat) : Nat := if face = 0 then i else if face = 1 then 32 + i else if face = 2 then 95 - i else 127 - i

theorem facePos_lt {face i : Nat} (hi : i < 32) : facePos face i < 128 := by
  unfold facePos
  split_ifs <;> omega

theorem mem_feedsOf {w : Window} {face : Nat} {f : Feed} (hf : face < 4) : f ∈ feedsOf w face ↔
    ∃ i < 32, ∃ a b, lineRange (w.faceStart face) (w.faceCount face) i = some (a, b) ∧
      f = (Fin.ofNat 128 (facePos face i), BitVec.ofNat 2 face, a, b) := by
  simp only [feedsOf, List.mem_filterMap, List.mem_range, Option.map_eq_some_iff, Prod.exists, @eq_comm Feed f]
  match face, hf with
  | 0, _ | 1, _ | 2, _ | 3, _ => rfl

/-- A line of the window is fed by the station that owns it. -/
theorem exists_feed {w : Window} {face k : Nat} (hf : face < 4) (hlo : w.faceStart face ≤ k)
    (hhi : k < w.faceStart face + w.faceCount face) (hk : k < 1024) :
    ∃ g ∈ feedsOf w face, g.1 = Fin.ofNat 128 (facePos face (k / 32)) := by
  have hlines : max (w.faceStart face) (32 * (k / 32)) < min (w.faceStart face + w.faceCount face) (32 * (k / 32) + 32) := by omega
  exact ⟨_, (mem_feedsOf hf).2 ⟨k / 32, by omega, _, _, lineRange_eq_some_iff.2 ⟨hlines, rfl, rfl⟩, rfl⟩, rfl⟩

end Sys2Proof.Machine
end

section
open Sys2Proof Sys2Proof.Machine

/-- Settles O39: a feed by the lines of its station, and every line of the window by the station that owns it. -/
theorem feedingStations : Obligations.FeedingStations := by
  unfold Obligations.FeedingStations
  intro w f
  refine ⟨fun face hface => ?_, fun _ _ hrows hcols r c hr hc => ?_⟩
  · rw [mem_feedsOf hface]
    refine exists_congr fun i => and_congr_right fun hi => ?_
    have hpos : f.1 = Fin.ofNat 128 (facePos face i) ↔ f.1.val = facePos face i := by
      rw [Fin.ext_iff, Fin.val_ofNat, Nat.mod_eq_of_lt (facePos_lt hi)]
    have hnum : f.2.1 = BitVec.ofNat 2 face ↔ f.2.1.toNat = face := by
      rw [BitVec.toNat_eq, BitVec.toNat_ofNat, Nat.mod_eq_of_lt hface]
    constructor
    · rintro ⟨a, b, hab, rfl⟩
      obtain ⟨hlt, ha, hb⟩ := lineRange_eq_some_iff.1 hab
      exact ⟨_, _, rfl, rfl, hlt, hpos.1 rfl, hnum.1 rfl, ha, hb⟩
    · rintro ⟨_, _, rfl, rfl, hlt, hp, hn, ha, hb⟩
      exact ⟨_, _, lineRange_eq_some_iff.2 ⟨hlt, ha, hb⟩, Prod.ext (hpos.2 hp) (Prod.ext (hnum.2 hn) rfl)⟩
  · simp only [Window.hasRow, Window.hasCol, Bool.and_eq_true, decide_eq_true_eq] at hr hc
    obtain ⟨hr0, hr1⟩ := hr
    obtain ⟨hc0, hc1⟩ := hc
    exact ⟨exists_feed (face := 0) (by decide) hc0 hc1 (by omega), exists_feed (face := 1) (by decide) hr0 hr1 (by omega),
      exists_feed (face := 2) (by decide) hc0 hc1 (by omega), exists_feed (face := 3) (by decide) hr0 hr1 (by omega)⟩

end

section
namespace Sys2Proof.Machine

open Sys2Proof

-- ## Scalar results (R128, R134, R226)

/-- A word whose only effect is a scalar result. -/
theorem scalarResult_of_exec {i : Instr} {s : State} {lat : Nat} {d : BitVec 6} {v : W64} (h : exec i s = scalarWord s lat d v) :
    ScalarResult i s lat d v :=
  ⟨_, h, putScal_adds s lat d v⟩

-- ## Products, differences and shifts (R226)

/-- A difference modulo 2^64 as a whole number. -/
theorem toNat_sub_eq_emod (x y : W64) : ((x - y).toNat : Int) = (x.toNat - y.toNat : Int) % 2 ^ 64 := by
  rw [BitVec.toNat_sub]
  omega

theorem toNat_mulHigh_unsigned (x y : W64) : (mulHigh true x y).toNat = x.toNat * y.toNat / 2 ^ 64 := by
  rw [mulHigh, if_pos rfl, BitVec.toNat_ofNat]
  refine Nat.mod_eq_of_lt (Nat.div_lt_of_lt_mul ?_)
  exact Nat.mul_lt_mul'' x.isLt y.isLt

theorem toInt_mulHigh_signed (x y : W64) : (mulHigh false x y).toInt = x.toInt * y.toInt / 2 ^ 64 := by
  have hle : x.toInt * y.toInt ≤ 2 ^ (64 * 2 - 2) := BitVec.toInt_mul_toInt_le
  have hge : -2 ^ (64 * 2 - 2) ≤ x.toInt * y.toInt := BitVec.le_toInt_mul_toInt
  rw [mulHigh, if_neg Bool.false_ne_true, BitVec.toInt_ofInt]
  exact Int.bmod_eq_of_le (by omega) (by omega)

/-- A rotation by less than the width moves each bit up, around the word. -/
theorem getLsbD_rotateLeft_add (x : W64) {n k : Nat} (hn : n < 64) (hk : k < 64) :
    (x.rotateLeft n).getLsbD ((k + n) % 64) = x.getLsbD k := by
  rw [BitVec.getLsbD_rotateLeft_of_le hn, decide_eq_true (Nat.mod_lt _ (by decide)), Bool.true_and]
  by_cases h : k + n < 64
  · rw [Nat.mod_eq_of_lt h, decide_eq_false (by omega), cond_false, Nat.add_sub_cancel]
  · rw [decide_eq_true (by omega), cond_true, show 64 - n + (k + n) % 64 = k by omega]

theorem shiftBy_lt (b : W64) : shiftBy b < 64 := Nat.mod_lt _ (by decide)

-- ## Choosing and counting (R226)

theorem iCond_unsigned_lt (x y : W64) : iCond false .lt x y = true ↔ x.toNat < y.toNat := by
  simp only [iCond, BitVec.ult, Bool.false_eq_true, if_false, decide_eq_true_eq]

section Choice
variable {α : Type} [LinearOrder α] {f : W64 → α} {x y : W64} {c : Bool}

/-- Choosing the second operand where it is smaller gives the minimum. -/
theorem apply_ite_eq_min (h : c = true ↔ f y < f x) : f (if c then y else x) = min (f x) (f y) := by
  split
  case isTrue hc => exact (min_eq_right (h.1 hc).le).symm
  case isFalse hc => exact (min_eq_left (not_lt.1 (mt h.2 hc))).symm

/-- Choosing the second operand where it is larger gives the maximum. -/
theorem apply_ite_eq_max (h : c = true ↔ f x < f y) : f (if c then y else x) = max (f x) (f y) := by
  split
  case isTrue hc => exact (max_eq_right (h.1 hc).le).symm
  case isFalse hc => exact (max_eq_left (not_lt.1 (mt h.2 hc))).symm

end Choice

/-- The count of CLZ below bit `n`: the bits it counts are zeros, and the next one, if there is one, is a one. -/
theorem leadZeros_spec (x : W64) (n : Nat) : leadZeros x n ≤ n ∧
    (∀ k < n, n ≤ k + leadZeros x n → x.getLsbD k = false) ∧
    (leadZeros x n < n → x.getLsbD (n - 1 - leadZeros x n) = true) := by
  induction n with
  | zero => exact ⟨Nat.le_refl 0, fun _ hk => absurd hk (Nat.not_lt_zero _), fun h => absurd h (Nat.not_lt_zero _)⟩
  | succ n ih =>
    obtain ⟨hle, hzeros, hone⟩ := ih
    cases hb : x.getLsbD n with
    | true =>
      rw [leadZeros, if_pos hb]
      exact ⟨Nat.zero_le _, fun k hk hnk => by omega, fun _ => hb⟩
    | false =>
      rw [leadZeros, if_neg (Bool.eq_false_iff.1 hb)]
      refine ⟨by omega, fun k hk hnk => ?_, fun h => ?_⟩
      · obtain rfl | hkn : k = n ∨ k < n := by omega
        · exact hb
        · exact hzeros k hkn (by omega)
      · rw [show n + 1 - 1 - (leadZeros x n + 1) = n - 1 - leadZeros x n by omega]
        exact hone (by omega)

theorem popCount_eq_length (x : W64) (n : Nat) : popCount x n = ((List.range n).filter fun k => x.getLsbD k).length := by
  induction n with
  | zero => rfl
  | succ n ih =>
    rw [popCount, ih, List.range_succ, List.filter_append, List.length_append]
    cases hb : x.getLsbD n <;> simp [hb]

theorem popCount_le (x : W64) (n : Nat) : popCount x n ≤ n := by
  rw [popCount_eq_length]
  exact (List.length_filter_le _ _).trans_eq List.length_range

-- ## Building words and cutting fields (R229)

theorem fieldWidth_pos (wm1 p : BitVec 6) : 0 < fieldWidth wm1 p := by
  unfold fieldWidth
  omega

theorem getLsbD_append_setWidth (hi : BitVec 16) (x : W64) (k : Nat) :
    (hi ++ x.setWidth 48).getLsbD k = if k < 48 then x.getLsbD k else hi.getLsbD (k - 48) := by
  rw [BitVec.getLsbD_append, BitVec.getLsbD_setWidth]
  split
  case isTrue hk => rw [decide_eq_true hk, Bool.true_and]
  case isFalse => rfl

/-- BEXT cuts a field out and extends it by its own top bit or by zeros. -/
theorem bextOf_eq (sx : Bool) (x : W64) (wm1 p : BitVec 6) : bextOf sx x wm1 p =
    if sx then (fld x p.toNat (fieldWidth wm1 p)).signExtend 64 else (fld x p.toNat (fieldWidth wm1 p)).setWidth 64 := by
  have hpow : 2 ^ fieldWidth wm1 p = 2 * 2 ^ (fieldWidth wm1 p - 1) :=
    (mul_pow_sub_one (fieldWidth_pos wm1 p).ne' 2).symm
  simp only [bextOf, ← toNat_fld]
  cases sx with
  | false => exact BitVec.ofNat_toNat ..
  | true =>
    simp only [Bool.true_and, decide_eq_true_eq, if_true, BitVec.signExtend, BitVec.toInt_eq_toNat_cond]
    by_cases htop : 2 ^ (fieldWidth wm1 p - 1) ≤ (fld x p.toNat (fieldWidth wm1 p)).toNat
    · rw [if_pos htop, if_neg (by omega)]
    · rw [if_neg htop, if_pos (by omega), BitVec.ofInt_natCast]

theorem getLsbD_bextOf (sx : Bool) (x : W64) (wm1 p : BitVec 6) {k : Nat} (hk : k < 64) : (bextOf sx x wm1 p).getLsbD k =
    if k < fieldWidth wm1 p then x.getLsbD (p.toNat + k) else sx && x.getLsbD (p.toNat + fieldWidth wm1 p - 1) := by
  have hpos := fieldWidth_pos wm1 p
  rw [bextOf_eq]
  cases sx with
  | false =>
    rw [if_neg Bool.false_ne_true, BitVec.getLsbD_setWidth, BitVec.getLsbD_extractLsb', decide_eq_true hk]
    by_cases h : k < fieldWidth wm1 p <;> simp [h]
  | true =>
    rw [if_pos rfl, BitVec.getLsbD_signExtend, BitVec.msb_eq_getLsbD_last, BitVec.getLsbD_extractLsb', BitVec.getLsbD_extractLsb',
      decide_eq_true hk, decide_eq_true (Nat.sub_one_lt hpos.ne'), Nat.add_sub_assoc hpos]
    by_cases h : k < fieldWidth wm1 p <;> simp [h]

/-- The bits of a mask for a field. -/
theorem getLsbD_fieldMask (w p : Nat) {k : Nat} (hk : k < 64) :
    (BitVec.ofNat 64 ((2 ^ w - 1) * 2 ^ p)).getLsbD k = decide (p ≤ k ∧ k < p + w) := by
  rw [BitVec.getLsbD_ofNat, decide_eq_true hk, Bool.true_and, Nat.testBit_mul_two_pow, Nat.testBit_two_pow_sub_one, ← Bool.decide_and]
  exact decide_eq_decide.2 (by omega)

theorem getLsbD_binsOf (x y : W64) (wm1 p : BitVec 6) {k : Nat} (hk : k < 64) : (binsOf x y wm1 p).getLsbD k =
    if p.toNat ≤ k ∧ k < p.toNat + fieldWidth wm1 p then y.getLsbD (k - p.toNat) else x.getLsbD k := by
  rw [binsOf, BitVec.getLsbD_or, BitVec.getLsbD_and, BitVec.getLsbD_and, BitVec.getLsbD_not, getLsbD_fieldMask _ _ hk,
    BitVec.getLsbD_shiftLeft, decide_eq_true hk]
  by_cases h : p.toNat ≤ k ∧ k < p.toNat + fieldWidth wm1 p
  · simp [h, Nat.not_lt.2 h.1]
  · simp [h]

end Sys2Proof.Machine
end

section
open Sys2Proof Sys2Proof.Machine

/-- Settles O2: each result by what the operation of its word does to numbers or to bits. -/
theorem arithmeticAndLogicWords : Obligations.ArithmeticAndLogicWords := by
  unfold Obligations.ArithmeticAndLogicWords
  refine ⟨fun s d a b => ⟨?_, ?_, ?_, ?_, ?_⟩, fun s d a b n hn => ?_⟩
  · exact ⟨_, BitVec.toNat_add .., scalarResult_of_exec rfl, scalarResult_of_exec rfl⟩
  · exact ⟨_, toNat_sub_eq_emod .., scalarResult_of_exec rfl, scalarResult_of_exec rfl⟩
  · exact ⟨_, BitVec.toNat_mul .., scalarResult_of_exec rfl, scalarResult_of_exec rfl⟩
  · exact ⟨_, toNat_mulHigh_unsigned .., scalarResult_of_exec rfl⟩
  · exact ⟨_, toInt_mulHigh_signed .., scalarResult_of_exec rfl⟩
  · obtain rfl : n = shiftBy (s.sop b) := hn
    refine ⟨?_, ?_, ?_, ?_, ?_, ?_, ?_, ?_⟩
    · exact ⟨_, fun _ => BitVec.getLsbD_and, scalarResult_of_exec rfl, scalarResult_of_exec rfl⟩
    · exact ⟨_, fun _ => BitVec.getLsbD_or, scalarResult_of_exec rfl⟩
    · exact ⟨_, fun _ => BitVec.getLsbD_xor, scalarResult_of_exec rfl⟩
    · refine ⟨s.scal a &&& ~~~s.sop b, fun k hk => ?_, scalarResult_of_exec rfl⟩
      rw [BitVec.getLsbD_and, BitVec.getLsbD_not, decide_eq_true hk, Bool.true_and]
    · refine ⟨s.scal a <<< shiftBy (s.sop b), ?_, scalarResult_of_exec rfl, scalarResult_of_exec rfl⟩
      rw [BitVec.toNat_shiftLeft, Nat.shiftLeft_eq]
    · refine ⟨s.scal a >>> shiftBy (s.sop b), ?_, scalarResult_of_exec rfl⟩
      rw [BitVec.toNat_ushiftRight, Nat.shiftRight_eq_div_pow]
    · refine ⟨(s.scal a).sshiftRight (shiftBy (s.sop b)), ?_, scalarResult_of_exec rfl⟩
      rw [BitVec.toInt_sshiftRight, Int.shiftRight_eq_div_pow]
      norm_cast
    · exact ⟨_, fun k hk => getLsbD_rotateLeft_add _ (shiftBy_lt _) hk, scalarResult_of_exec rfl⟩

/-- Settles O3: the choices by the compare that makes them, the counts and the fields bit by bit. -/
theorem choiceCountAndFieldWords : Obligations.ChoiceCountAndFieldWords := by
  unfold Obligations.ChoiceCountAndFieldWords
  refine ⟨fun s d a b c => ⟨?_, ?_, ?_, ?_, ?_, ?_, ?_⟩, fun s d a i48 i16 sx wm1 p w hw => ?_⟩
  · exact ⟨_, apply_ite_eq_min (iCond_signed .lt _ _), scalarResult_of_exec rfl⟩
  · exact ⟨_, apply_ite_eq_max (iCond_signed .lt _ _), scalarResult_of_exec rfl⟩
  · exact ⟨_, apply_ite_eq_min (iCond_unsigned_lt _ _), scalarResult_of_exec rfl⟩
  · exact ⟨_, apply_ite_eq_max (iCond_unsigned_lt _ _), scalarResult_of_exec rfl⟩
  · obtain ⟨hle, hzeros, hone⟩ := leadZeros_spec (s.scal a) 64
    have hn : (BitVec.ofNat 64 (leadZeros (s.scal a) 64)).toNat = leadZeros (s.scal a) 64 := Nat.mod_eq_of_lt (by omega)
    refine ⟨BitVec.ofNat 64 (leadZeros (s.scal a) 64), ?_⟩
    rw [hn]
    exact ⟨hle, hzeros, hone, scalarResult_of_exec rfl⟩
  · refine ⟨BitVec.ofNat 64 (popCount (s.scal a) 64), ?_, scalarResult_of_exec rfl⟩
    have hle := popCount_le (s.scal a) 64
    rw [BitVec.toNat_ofNat, Nat.mod_eq_of_lt (by omega), popCount_eq_length]
  · have hq0 : (c = 0 ∨ s.pred c = true) ↔ s.pred c = true := or_iff_right_of_imp fun h => by rw [h]; rfl
    rw [ite_cond_congr (propext hq0)]
    exact scalarResult_of_exec rfl
  · obtain rfl : w = fieldWidth wm1 p := hw
    refine ⟨?_, ?_, ?_, ?_⟩
    · exact ⟨_, BitVec.toInt_signExtend_of_le (by decide), scalarResult_of_exec rfl, scalarResult_of_exec rfl⟩
    · exact ⟨_, fun k _ => getLsbD_append_setWidth .., scalarResult_of_exec rfl⟩
    · exact ⟨_, fun _ hk => getLsbD_bextOf _ _ _ _ hk, scalarResult_of_exec rfl⟩
    · exact ⟨_, fun _ hk => getLsbD_binsOf _ _ _ _ hk, scalarResult_of_exec rfl⟩

end

section
namespace Sys2Proof.Machine

open Sys2Proof

-- ## Dead names and the pipe (R133, R146)

theorem vphys_of_dead {s : State} {n : BitVec 5} (h : physOf s.curSta.rotd n = none) :
    s.vphys n = .error (deadSub s.curSta.rotd n) := by
  simp only [State.vphys, h]

/-- The first of some names is dead where those before it are live. -/
theorem dead_append_cons {s : State} {pre : List (BitVec 5)} {n : BitVec 5} (post : List (BitVec 5))
    (hpre : ∀ m ∈ pre, (physOf s.curSta.rotd m).isSome = true) (hn : physOf s.curSta.rotd n = none) :
    s.dead (pre ++ n :: post) = some n :=
  List.find?_eq_some_iff_append.2 ⟨Option.isNone_iff_eq_none.2 hn, pre, post, rfl, fun m hm => by
    rw [Option.not_isNone, hpre m hm]⟩

theorem dead_of_live {s : State} {names : List (BitVec 5)} (h : ∀ m ∈ names, (physOf s.curSta.rotd m).isSome = true) :
    s.dead names = none :=
  List.find?_eq_none.2 fun m hm => by
    rw [Option.isNone_iff_eq_none]
    exact Option.isSome_iff_ne_none.1 (h m hm)

/-- A meaning that acts only where the vector name `n` is live. -/
def ActsIfLive (s : State) (n : BitVec 5) (o : Out) : Prop :=
  ∃ act : BitVec 5 → Out, o = match s.vphys n with
    | .error sub => raiseDead s sub
    | .ok ph => act ph

/-- A meaning of the pipe that names the vector registers `names`, its destinations first. -/
def NamesInPipe (s : State) (names : List (BitVec 5)) (o : Out) : Prop :=
  ∃ p dsts srcs masks act, o = pipeWord s p dsts srcs masks act ∧ dsts ++ srcs = names

theorem namesInPipe_pipeWord (s : State) (p : Nat) (dsts srcs : List (BitVec 5)) (masks : List (BitVec 3)) (act : State → State) :
    NamesInPipe s (dsts ++ srcs) (pipeWord s p dsts srcs masks act) :=
  ⟨p, dsts, srcs, masks, act, rfl, rfl⟩

section Words
variable {i : Instr} {s : State} {n : BitVec 5}

theorem raises_of_raiseDead {sub : Byte} (h : exec i s = raiseDead s sub) : Raises i s .outOfAllotment sub :=
  ⟨_, h, trapSub_trapped s .outOfAllotment sub⟩

theorem ActsIfLive.raises (h : ActsIfLive s n (exec i s)) (hn : physOf s.curSta.rotd n = none) :
    Raises i s .outOfAllotment (deadSub s.curSta.rotd n) := by
  obtain ⟨act, hexec⟩ := h
  rw [vphys_of_dead hn] at hexec
  exact raises_of_raiseDead hexec

/-- The check for dead names comes before that of the pipe (R133). -/
theorem NamesInPipe.raises_dead {pre post : List (BitVec 5)} (h : NamesInPipe s (pre ++ n :: post) (exec i s))
    (hpre : ∀ m ∈ pre, (physOf s.curSta.rotd m).isSome = true) (hn : physOf s.curSta.rotd n = none) :
    Raises i s .outOfAllotment (deadSub s.curSta.rotd n) := by
  obtain ⟨p, dsts, srcs, masks, act, hexec, hnames⟩ := h
  refine raises_of_raiseDead (hexec.trans ?_)
  rw [pipeWord, hnames, dead_append_cons post hpre hn]

theorem NamesInPipe.raises_clash {names : List (BitVec 5)} (h : NamesInPipe s names (exec i s))
    (hlive : ∀ m ∈ names, (physOf s.curSta.rotd m).isSome = true) (hbusy : s.cyc < s.curSta.pipeFree) :
    Raises i s .pipeClash 0 := by
  obtain ⟨p, dsts, srcs, masks, act, hexec, hnames⟩ := h
  refine raises_of_exec (hexec.trans ?_)
  rw [pipeWord, hnames, dead_of_live hlive]
  exact if_pos hbusy

end Words

-- ## The names of the words of the pipe (R145)

section Names
variable (s : State) (ty : Ty) (rnd : Rnd) (m : BitVec 3) (fmt : Fimg) (col : Bool) (d a c : BitVec 5) (b : VOp)

theorem namesInPipe_vsplat (y : SOp) : NamesInPipe s [d] (exec (.vsplat ty m d y) s) := by
  simp only [exec, execVsplat]
  exact namesInPipe_pipeWord ..

theorem namesInPipe_vidx : NamesInPipe s [d] (exec (.vidx col d) s) := by
  simp only [exec, execVidx]
  exact namesInPipe_pipeWord ..

theorem namesInPipe_vcmp (cond : Cond) (q : BitVec 3) : NamesInPipe s (a :: vopSrc b) (exec (.vcmp ty m cond q a b) s) := by
  simp only [exec, execVcmp]
  exact namesInPipe_pipeWord ..

theorem namesInPipe_mop (tt : BitVec 4) (p q r : BitVec 3) : NamesInPipe s [] (exec (.mop tt p q r) s) := by
  simp only [exec, execMop]
  exact namesInPipe_pipeWord ..

theorem namesInPipe_vsel : NamesInPipe s (d :: a :: vopSrc b) (exec (.vsel m d a b) s) := by
  simp only [exec, execVsel]
  exact namesInPipe_pipeWord ..

theorem namesInPipe_vfma : NamesInPipe s (d :: a :: (vopSrc b ++ [c])) (exec (.vfma rnd m d a b c) s) := by
  simp only [exec, execVfma]
  exact namesInPipe_pipeWord ..

theorem namesInPipe_vqnt : NamesInPipe s [d, c, a] (exec (.vqnt fmt rnd col d a c) s) := by
  simp only [exec, execVqnt]
  exact namesInPipe_pipeWord ..

theorem namesInPipe_vsincos : NamesInPipe s [d, c, a] (exec (.vsincos m d a c) s) := by
  simp only [exec, execVsincos]
  exact namesInPipe_pipeWord ..

/-- A meaning of the pipe that names `d` first, and `a`, and beyond them at most `c` and the register of `b`. -/
def NamesPair (o : Out) : Prop :=
  ∃ pre post, NamesInPipe s (d :: (pre ++ a :: post)) o ∧ pre ⊆ c :: vopSrc b ∧ post ⊆ c :: vopSrc b

variable {s a b c d} {o : Out}

theorem NamesInPipe.one (h : NamesInPipe s [d, a] o) : NamesPair s d a c b o :=
  ⟨[], [], h, List.nil_subset _, List.nil_subset _⟩

theorem NamesInPipe.two (h : NamesInPipe s (d :: a :: vopSrc b) o) : NamesPair s d a c b o :=
  ⟨[], vopSrc b, h, List.nil_subset _, List.subset_cons_self ..⟩

theorem NamesInPipe.between (h : NamesInPipe s [d, c, a] o) : NamesPair s d a c b o :=
  ⟨[c], [], h, by simp, List.nil_subset _⟩

variable (s a b c d)

theorem namesPair_pipeWords (sat : Bool) (op : RedOp) (w : Wid) :
    ∀ i ∈ pipeWords ty rnd sat col m op w fmt d a c b, NamesPair s d a c b (exec i s) := by
  have one (p masks act) : NamesPair s d a c b (pipeWord s p [d] [a] masks act) := (namesInPipe_pipeWord s p [d] [a] masks act).one
  have two (p masks act) : NamesPair s d a c b (pipeWord s p [d] (a :: vopSrc b) masks act) :=
    (namesInPipe_pipeWord s p [d] (a :: vopSrc b) masks act).two
  have hvfma : NamesPair s d a c b (exec (.vfma rnd m d a b c) s) :=
    ⟨[], vopSrc b ++ [c], namesInPipe_vfma .., List.nil_subset _, by simp⟩
  have hvqnt : NamesPair s d a c b (exec (.vqnt fmt rnd col d a c) s) := (namesInPipe_vqnt ..).between
  have hvsincos : NamesPair s d a c b (exec (.vsincos m d a c) s) := (namesInPipe_vsincos ..).between
  have hvdqnt : NamesPair s d a c b (exec (.vdqnt fmt col d a c) s) := by
    simp only [exec, execVdqnt]
    exact ⟨[], [c], namesInPipe_pipeWord .., List.nil_subset _, by simp⟩
  -- Every other word is a call of `pipeWord` with the names of `one` or of `two`.
  simp only [pipeWords, List.forall_mem_cons, hvfma, hvqnt, hvsincos, hvdqnt]
  simp only [exec, execVadd, execVsub, execVmul, execVmin, execVmax, execVabs, execVneg, execVsel, execVmov, execVand, execVor,
    execVxor, execVshl, execVshr, execVsra, execVcvt, execVpack, execVunpk, execVrotr, execVrotc, execVbcr, execVbcc, execVredr,
    execVredc, execVtrn, execVexp2, execVlog2, execVrcp, execVrsq, execVtanh, execVrnd, execVdrop, execVfclass, vec2, vec1,
    moveWord, redWord, sfuWord, one, two, true_and]
  exact List.forall_mem_nil _

end Names

end Sys2Proof.Machine
end

section
open Sys2Proof Sys2Proof.Machine

/-- Settles O23: the first dead name of a word decides, and the pipe only where every name is live. -/
theorem deadNamesAndPipeClashes : Obligations.DeadNamesAndPipeClashes := by
  unfold Obligations.DeadNamesAndPipeClashes
  intro s n l ty rnd sat col half m op w fmt b x y nr row roff nw off q k hops c sub hl
  have live {names : List (BitVec 5)} (hb : s.operandLive b) (h : names ⊆ l :: vopSrc b) :
      ∀ r ∈ names, (physOf s.curSta.rotd r).isSome = true := fun r hr => by
    obtain rfl | hr := List.mem_cons.1 (h hr)
    · exact hl
    · exact hb r hr
  refine ⟨fun hn hsub => ?_, fun hbusy hb => ⟨fun i hi => ?_, ?_⟩⟩
  · obtain rfl : sub = deadSub s.curSta.rotd n := hsub
    have acts {i : Instr} (h : ActsIfLive s n (exec i s)) : s.operandLive b → Raises i s .outOfAllotment (deadSub s.curSta.rotd n) :=
      fun _ => h.raises hn
    have first {i : Instr} {post : List (BitVec 5)} (h : NamesInPipe s (n :: post) (exec i s)) :
        Raises i s .outOfAllotment (deadSub s.curSta.rotd n) :=
      h.raises_dead (pre := []) (List.forall_mem_nil _) hn
    have later {i : Instr} {post : List (BitVec 5)} (pre : List (BitVec 5)) (h : NamesInPipe s (pre ++ n :: post) (exec i s))
        (hpre : pre ⊆ l :: vopSrc b) (hb : s.operandLive b) : Raises i s .outOfAllotment (deadSub s.curSta.rotd n) :=
      h.raises_dead (live hb hpre) hn
    refine ⟨?_, fun i hi => ?_, fun i hi hb => ?_⟩
    · simp only [List.forall_mem_cons]
      exact ⟨acts ⟨_, rfl⟩, acts ⟨_, rfl⟩, acts ⟨_, rfl⟩, acts ⟨_, rfl⟩, acts ⟨_, rfl⟩, acts ⟨_, rfl⟩, acts ⟨_, rfl⟩, acts ⟨_, rfl⟩,
        acts ⟨_, rfl⟩, acts ⟨_, rfl⟩, acts ⟨_, rfl⟩, acts ⟨_, rfl⟩, acts ⟨_, rfl⟩, acts ⟨_, rfl⟩,
        fun _ => first (namesInPipe_vsplat ..), fun _ => first (namesInPipe_vidx ..), fun _ => first (namesInPipe_vcmp ..),
        later [l, l] (namesInPipe_vsel ..) (by simp), later (l :: l :: vopSrc b) (namesInPipe_vfma ..) (by simp),
        later [l] (namesInPipe_vqnt ..) (by simp), later [l] (namesInPipe_vsincos ..) (by simp), List.forall_mem_nil _⟩
    · obtain ⟨pre, post, h, -, -⟩ := namesPair_pipeWords s ty rnd m fmt col n l l b sat op w i hi
      exact first h
    · obtain ⟨pre, post, h, hpre, -⟩ := namesPair_pipeWords s ty rnd m fmt col l n l b sat op w i hi
      exact later (l :: pre) h (by simp [hpre]) hb
  · obtain ⟨pre, post, h, hpre, hpost⟩ := namesPair_pipeWords s ty rnd m fmt col l l l b sat op w i hi
    exact h.raises_clash (live hb (by simp [hpre, hpost])) hbusy
  · simp only [List.forall_mem_cons]
    exact ⟨(namesInPipe_vsplat ..).raises_clash (live hb (by simp)) hbusy, (namesInPipe_vidx ..).raises_clash (live hb (by simp)) hbusy,
      (namesInPipe_vcmp ..).raises_clash (live hb (by simp)) hbusy, (namesInPipe_mop ..).raises_clash (live hb (by simp)) hbusy,
      List.forall_mem_nil _⟩

end
